-- ==== Sys2Proof/Word.lean ====
section
/-! DEFINITION. The tagged word of the FV-900: the type tags (R22), a word as tag and payload, MakeWord (R9) and the
conformance conditions (R24). -/

namespace Sys2Proof

/-- A byte of memory. -/
abbrev Byte := BitVec 8

/-- The type tags of R22. Tag 15 is reserved and never stands beside a payload (R23), so it is no constructor. -/
inductive Tag where
  | nil | int | f64 | f32 | f16 | bf16 | bool | sym | ref | tile | fwd | hdr | raw | undef | code
  deriving DecidableEq, Repr

/-- The tag's number (R22). -/
def Tag.toNat : Tag → Nat
  | .nil => 0 | .int => 1 | .f64 => 2 | .f32 => 3 | .f16 => 4 | .bf16 => 5 | .bool => 6 | .sym => 7
  | .ref => 8 | .tile => 9 | .fwd => 10 | .hdr => 11 | .raw => 12 | .undef => 13 | .code => 14

/-- The tag of a number: none for the reserved 15 and beyond (R23). -/
def Tag.ofNat? : Nat → Option Tag
  | 0 => some .nil | 1 => some .int | 2 => some .f64 | 3 => some .f32 | 4 => some .f16 | 5 => some .bf16
  | 6 => some .bool | 7 => some .sym | 8 => some .ref | 9 => some .tile | 10 => some .fwd | 11 => some .hdr
  | 12 => some .raw | 13 => some .undef | 14 => some .code | _ => none

/-- A word: 64 bits of payload with a type tag beside them (R22). -/
structure TWord where
  tag : Tag
  payload : BitVec 64
  deriving DecidableEq, Repr

/-- The word a `nil` operand reads, and a never-written word of a TAGGED page (R22, R27). -/
def TWord.nil : TWord := ⟨.nil, 0⟩

/-- The word a free or never-written register reads, and a never-written scratch word (R22, R27). -/
def TWord.undef : TWord := ⟨.undef, 0⟩

/-- The payload bits that `MakeWord` keeps for a tag (R9): the type's width for tags 3, 4, 5 and 7, bits [55:0] for REF. -/
def Tag.keepMask : Tag → BitVec 64
  | .f32 => 0xFFFFFFFF#64
  | .f16 => 0xFFFF#64
  | .bf16 => 0xFFFF#64
  | .sym => 0xFFFFFFFF#64
  | .ref => 0x00FFFFFFFFFFFFFF#64
  | _ => BitVec.allOnes 64

/-- `MakeWord(t, p)` (R9). -/
def makeWord (t : Tag) (p : BitVec 64) : TWord := ⟨t, p &&& t.keepMask⟩

/-- The four conditions that a payload can still break once MakeWord has formed the word (R24). -/
def TWord.conforming (w : TWord) : Bool :=
  match w.tag with
  | .nil => w.payload == 0
  | .undef => w.payload == 0
  | .bool => w.payload == 0 || w.payload == 1
  | .code => w.payload &&& 0xFF00000000000007#64 == 0
  | .fwd => w.payload &&& 0xFF00000000000000#64 == 0
  | _ => true

/-- An INT word of an integer modulo 2^64. -/
def intWord (n : Int) : TWord := ⟨.int, BitVec.ofInt 64 n⟩

/-- A BOOL word (R22). -/
def boolWord (b : Bool) : TWord := ⟨.bool, if b then 1 else 0⟩

end Sys2Proof
end

