-- ==== Sys2Proof/Syntax.lean ====
section
/-! DEFINITION. The instructions and steps of the FV-900: one constructor of `Instr` for each row of spec/opcode_table.json.
The first 174 or so are instruction words (R198); the rest are the steps of the machine's other agents (the commit
machinery, the cox, the engines, the host, the firmware), which the table lists beside them. -/

namespace Sys2Proof

/-! ## Fields and codes of an instruction word -/

/-- An 8-bit register field (R188): 0-223 name v registers, 224-254 name s0-s30, 255 is `nil`. -/
abbrev Field := BitVec 8

/-- The operand fields of the R format (R180); a field an entry does not use is 0. -/
structure ROps where
  d : Field := 0
  a : Field := 0
  b : Field := 0
  c : Field := 0
  la : Bool := false
  lb : Bool := false
  lc : Bool := false
  lk : BitVec 4 := 0
  xd : Bool := false
  xa : Bool := false
  deriving DecidableEq, Repr

/-- The register fields of the I format (R181); immediates are arguments of the constructors. -/
structure IOps where
  d : Field := 0
  a : Field := 0
  la : Bool := false
  xd : Bool := false
  xa : Bool := false
  deriving DecidableEq, Repr

/-- The operand fields of the M format (R182). `ld` is bit [27]; `off` is signed. -/
structure MOps where
  d : Field := 0
  base : Field := 0
  idx : Field := 255
  ld : Bool := false
  lbase : Bool := false
  lidx : Bool := false
  lk : BitVec 4 := 0
  sc : BitVec 2 := 0
  off : BitVec 19 := 0
  deriving DecidableEq, Repr

/-- The fields of the B format (R183). `off` is signed, in instruction words. -/
structure BOps where
  a : Field := 0
  la : Bool := false
  off : BitVec 43 := 0
  deriving DecidableEq, Repr

/-- The register fields of the X format (R184); flags and immediates are arguments of the constructors. -/
structure XOps where
  f0 : Field := 0
  f1 : Field := 0
  f2 : Field := 0
  f3 : Field := 0
  f4 : Field := 0
  f5 : Field := 0
  lk : BitVec 4 := 0
  l1 : Bool := false
  l2 : Bool := false
  l3 : Bool := false
  deriving DecidableEq, Repr

/-- Rounding modes 0-4 (R153). -/
inductive RMode where
  | rne | rz | rdn | rup | rna
  deriving DecidableEq, Repr

/-- Rounding of `cvt` and `accmv`: a mode, or error feedback (R153, RM 5). -/
inductive CvtMode where
  | round (rm : RMode)
  | ef
  deriving DecidableEq, Repr

/-- Conditions of `fcmp` (R186). -/
inductive FCond where
  | eq | ne | lt | le | ult | ule | uo | ord
  deriving DecidableEq, Repr

/-- Conditions of `icmp` and `icmpi` (R212). -/
inductive ICond where
  | eq | ne | lt | le | ult | ule
  deriving DecidableEq, Repr

/-- Width and signedness of the typed integer opcodes (R187). -/
inductive IVar where
  | i64 | u64 | i32 | u32
  deriving DecidableEq, Repr

/-- The scalar binary formats of the vector path (R145). -/
inductive FpFmt where
  | f64 | f32 | f16 | bf16
  deriving DecidableEq, Repr

/-- TY of the typed float opcodes (R186): a scalar format or a packed one. -/
inductive FTy where
  | f64 | f32 | f16 | bf16 | f32x2 | f16x4 | bf16x4
  deriving DecidableEq, Repr

/-- Access types of the M format (R187). -/
inductive Acc where
  | w | i8 | i16 | i32 | i64 | u8 | u16 | u32 | f16 | bf16 | f32 | f64 | raw | v16 | v32
  deriving DecidableEq, Repr

/-- Numeric format codes (R141). -/
inductive Fmt where
  | word | i8 | i16 | i32 | i64 | u8 | u16 | u32 | u64 | f16 | bf16 | f32 | f64
  | e4m3 | e5m2 | e3m2 | e2m3 | e2m1 | i4 | u4 | b4 | b8f | b8i | l1 | l2 | scale
  deriving DecidableEq, Repr

/-- Matrix operand formats, by matrix code (R142). -/
inductive MFmt where
  | f32 | f16 | bf16 | e4m3 | e5m2 | e3m2 | e2m3 | i8 | u8 | i4 | u4 | b4 | b8f | b8i | l1 | l2
  deriving DecidableEq, Repr

/-- Source-lane modes of `shfl` (R227). -/
inductive ShflMode where
  | idx | up | down | xor
  deriving DecidableEq, Repr

/-- Operations of `vote` (R229). -/
inductive VoteOp where
  | all | any | uni | ballot
  deriving DecidableEq, Repr

/-- Combining operations of `scan` and `reduce` (R230). -/
inductive RedOp where
  | add | min | max | and | or | xor
  deriving DecidableEq, Repr

/-- Types of `scan` and `reduce` (R230). -/
inductive RedTy where
  | f (t : FpFmt)
  | i64 | u64
  deriving DecidableEq, Repr

/-- Operations of `atom`, `red` and `sato` (R263). -/
inductive AtomOp where
  | add | min | max | and | or | xor | xchg
  deriving DecidableEq, Repr

/-- SC of the atomics as a type (R263); for `acas`, SC 1 is the whole word. -/
inductive AtomTy where
  | i64 | u64 | f64 | f32
  deriving DecidableEq, Repr

/-- Combining operations of `hacc` (R271). -/
inductive HaccOp where
  | add | min | max | or | and
  deriving DecidableEq, Repr

/-- N:M patterns (R284, R291): 2:4, 4:8 and 1:4. -/
inductive NMPat where
  | p24 | p48 | p14
  deriving DecidableEq, Repr

/-- Modes of `fld` (R301). -/
inductive FldMode where
  | elem | pk | val
  deriving DecidableEq, Repr

/-- Special registers (R193). -/
inductive SReg where
  | laneid | quadid | crewid | crewn | teamx | teamy | teamz | nteamx | nteamy | nteamz | gangid | gangn
  | core | cluster | die | clock | htab | nbase | nlimit | xi | fpflags | trapinfo | svcq | hregion
  | active | fourpos | chunkn | squashn | formatflag
  deriving DecidableEq, Repr

/-- The fields of a product instruction (R284). `mb`, `nb` and `kb` hold the counts less one. -/
structure ProdOps where
  f1 : Field := 0
  f2 : Field := 0
  f3 : Field := 255
  l1 : Bool := false
  l2 : Bool := false
  l3 : Bool := false
  bblen : Bool := false
  z : Bool := false
  h : Bool := false
  bfmt : MFmt := .f32
  mb : BitVec 6 := 0
  nb : BitVec 8 := 0
  kb : BitVec 8 := 0
  sboff : BitVec 14 := 0
  deriving DecidableEq, Repr

/-! ## Data that the machine's other steps carry -/

/-- A trap of one lane: its code (R44), what the handler finds in v217, v218 and v216 (R46), the effective destination,
the opcode byte, the address of the next instruction, and the generic dispatch index where R43 gives one. -/
structure TrapReq where
  lane : Nat
  code : Nat
  v217 : TWord := .nil
  v218 : TWord := .nil
  v216 : Option TWord := none
  dest : Nat := 255
  op : Nat := 0
  next : BitVec 64 := 0
  /-- `some (opcode, tagA, tagB)`: the dispatch index of R43 (codes 0x30-0x33). -/
  generic : Option (Nat × Nat × Nat) := none
  /-- DETAIL of the failure record: the `abort` number (R239, R404). -/
  detail : BitVec 64 := 0
  deriving DecidableEq, Repr

/-- What a far operation does at its destination (R261, R265, R298). A sector transfer reads bytes at window offsets, or
writes bits of bytes at window offsets: the payload of a cell is the byte plus 256 × its mask, its tag the one that tagged
storage takes. -/
inductive FarBody where
  | read (acc : Acc)
  | write (acc : Acc) (ws : List TWord)
  | atomic (op : AtomOp) (ty : AtomTy) (xs : List (Nat × TWord))
  | cas (ty : AtomTy) (xs : List (Nat × TWord × TWord))
  | readBytes (offs : List Nat)
  | writeBytes (cells : List (Nat × TWord))
  deriving DecidableEq, Repr

/-- A far operation on a link: source and destination device numbers, the number its source knows it by, its sequence number
among the operations of its pair, offset in the destination's exported window (R424, R425). -/
structure FarOp where
  src : Nat
  dst : Nat
  seq : Nat
  pair : Nat
  offset : Nat
  body : FarBody
  deriving DecidableEq, Repr

/-- Where a soft error is found (R405). -/
inductive SoftErr where
  | speculative (crew : Nat)                  -- store buffer, checkpoint pool, shadow or signature of a crew
  | cleanCopy (pa : Nat)                      -- L1, header cache, fetch-unit cache, I-cache, TLB or a clean L2 line
  | line (pa : Nat)                           -- a dirty L2 line or DRAM, uncorrectable
  | register (crew : Nat) (field : Field)     -- a v register
  | storage (core : Nat) (asid : Nat)         -- scratch, queues, hash region or operand storage of a core
  deriving DecidableEq, Repr

/-- Trap codes (R44) that the meanings use by name. -/
inductive TrapName where
  | illegalOpcode | illegalEncoding | illegalConvergence | compositeIllegal | regBounds | hazard | fourMismatch | tag
  | bounds | fwdChain | scratchRange | nursery | format | align | badHandle | idhash | breakpoint | abort | badHandler
  | uncommonPair | intOverflow | divInexact | divZero
  deriving DecidableEq, Repr

/-- The rows of the opcode table. Instruction words first, in the table's order. -/
inductive Instr where
  -- generic opcodes 0x01-0x15 (R202)
  | add (rm : RMode) (o : ROps)
  | sub (rm : RMode) (o : ROps)
  | mul (rm : RMode) (o : ROps)
  | div (rm : RMode) (o : ROps)
  | rem (rm : RMode) (o : ROps)
  | neg (rm : RMode) (o : ROps)
  | abs (rm : RMode) (o : ROps)
  | min (rm : RMode) (o : ROps)
  | max (rm : RMode) (o : ROps)
  | cmpeq (rm : RMode) (o : ROps)
  | cmplt (rm : RMode) (o : ROps)
  | cmple (rm : RMode) (o : ROps)
  | and (rm : RMode) (o : ROps)
  | or (rm : RMode) (o : ROps)
  | xor (rm : RMode) (o : ROps)
  | not (rm : RMode) (o : ROps)
  | shl (rm : RMode) (o : ROps)
  | shr (rm : RMode) (o : ROps)
  | fma (rm : RMode) (o : ROps)
  | ident (rm : RMode) (o : ROps)
  | truth (rm : RMode) (o : ROps)
  -- typed integer and address opcodes 0x20-0x3D (R208)
  | iadd (v : IVar) (o : ROps)
  | isub (v : IVar) (o : ROps)
  | imul (v : IVar) (o : ROps)
  | imulh (v : IVar) (o : ROps)
  | idiv (v : IVar) (o : ROps)
  | irem (v : IVar) (o : ROps)
  | ineg (v : IVar) (o : ROps)
  | iabs (v : IVar) (o : ROps)
  | imin (v : IVar) (o : ROps)
  | imax (v : IVar) (o : ROps)
  | iand (v : IVar) (o : ROps)
  | ior (v : IVar) (o : ROps)
  | ixor (v : IVar) (o : ROps)
  | inot (v : IVar) (o : ROps)
  | ishl (v : IVar) (o : ROps)
  | ishr (v : IVar) (o : ROps)
  | popc (v : IVar) (o : ROps)
  | clz (v : IVar) (o : ROps)
  | ctz (v : IVar) (o : ROps)
  | brev (v : IVar) (o : ROps)
  | bfx (v : IVar) (o : ROps)
  | bfi (v : IVar) (o : ROps)
  | icmp (v : IVar) (cc : ICond) (o : ROps)
  | sel (o : ROps)
  | lea (v : IVar) (k : BitVec 2) (o : ROps)
  | mov (o : ROps)
  | movi (v : IVar) (imm : BitVec 32) (o : IOps)
  | movh (v : IVar) (imm : BitVec 32) (o : IOps)
  | iaddi (v : IVar) (imm : BitVec 32) (o : IOps)
  | icmpi (v : IVar) (cc : ICond) (imm : BitVec 28) (o : IOps)
  -- typed float opcodes 0x40-0x52 (R214)
  | fadd (ty : FTy) (rm : RMode) (o : ROps)
  | fsub (ty : FTy) (rm : RMode) (o : ROps)
  | fmul (ty : FTy) (rm : RMode) (o : ROps)
  | ffma (ty : FTy) (rm : RMode) (o : ROps)
  | fdiv (ty : FTy) (rm : RMode) (o : ROps)
  | fsqrt (ty : FTy) (rm : RMode) (o : ROps)
  | frsq (ty : FTy) (rm : RMode) (o : ROps)
  | fexp2 (ty : FTy) (rm : RMode) (o : ROps)
  | flog2 (ty : FTy) (rm : RMode) (o : ROps)
  | frcp (ty : FTy) (rm : RMode) (o : ROps)
  | fmin (ty : FTy) (o : ROps)
  | fmax (ty : FTy) (o : ROps)
  | fabs (ty : FTy) (o : ROps)
  | fneg (ty : FTy) (o : ROps)
  | fcmp (ty : FTy) (cc : FCond) (o : ROps)
  | fclass (ty : FTy) (o : ROps)
  | fround (ty : FTy) (rm : RMode) (o : ROps)
  | fscale (ty : FTy) (rm : RMode) (o : ROps)
  | fdot2 (ty : FTy) (rm : RMode) (o : ROps)
  -- conversion and tag opcodes 0x60-0x68 (R219-R225)
  | cvt (rm : CvtMode) (dst src : Fmt) (o : XOps)
  | cvti (rm : RMode) (dst src : Fmt) (s : BitVec 32) (o : XOps)
  | pack (fmt : Fmt) (rm : RMode) (n : BitVec 2) (index : BitVec 8) (o : XOps)
  | unpack (fmt : Fmt) (index : BitVec 8) (o : XOps)
  | tagof (o : ROps)
  | settag (t : Tag) (o : IOps)
  | tagchk (mask : BitVec 16) (o : IOps)
  | hdrld (o : MOps)
  | ihash (o : ROps)
  -- collectives 0x70-0x7B (R226-R233)
  | shfl (mode : ShflMode) (immB : Bool) (o : ROps)
  | vote (op : VoteOp) (o : ROps)
  | qswap (k : BitVec 2) (o : ROps)
  | qbcast (j : BitVec 2) (o : ROps)
  | matchKeys (o : ROps)
  | msort (desc : Bool) (o : ROps)
  | perm (o : ROps)
  | scan (op : RedOp) (ex : Bool) (ty : RedTy) (rm : RMode) (o : ROps)
  | reduce (op : RedOp) (ty : RedTy) (rm : RMode) (o : ROps)
  | elect (o : ROps)
  | rgw
  | regroupTimeout (quad entry : Nat)
  | rgend
  -- control flow 0x80-0x8C (R234-R237)
  | bra (off : BitVec 43)
  | brt (o : BOps)
  | brf (o : BOps)
  | brx (o : ROps)
  | call (off : BitVec 43)
  | callr (o : ROps)
  | ret (o : ROps)
  | exit
  | exitH
  | cbrk
  | nop
  | wait
  | mcall (m : BitVec 8) (o : ROps)
  | yield
  /-- A word whose opcode byte is 0x00, or whose encoding R195 step 2 forbids: `enc` says which (R195). -/
  | illegalInstruction (byte : BitVec 8) (enc : Bool)
  /-- A word whose opcode byte the map leaves unassigned (R195, R356). -/
  | routedInstruction (w : BitVec 64)
  -- loads and stores 0x90-0xA0 (R249-R262)
  | ld (acc : Acc) (o : MOps)
  | st (acc : Acc) (o : MOps)
  | ldf (acc : Acc) (o : MOps)
  | stf (acc : Acc) (o : MOps)
  | ldnb (o : MOps)
  | stnb (o : MOps)
  | lds (acc : Acc) (o : MOps)
  | sts (acc : Acc) (o : MOps)
  | prf (o : MOps)
  | alloc (o : ROps)
  | nurs (get : Bool) (o : ROps)
  | fence
  | ldfar (acc : Acc) (o : MOps)
  | stfar (acc : Acc) (o : MOps)
  | spill (o : MOps)
  | fill (o : MOps)
  | hflush (o : MOps)
  -- atomics, queues, barriers, hash 0xB0-0xC7 (R263-R275)
  | atom (op : AtomOp) (ty : AtomTy) (o : MOps)
  | acas (ty : AtomTy) (o : MOps)
  | red (op : AtomOp) (ty : AtomTy) (o : MOps)
  | sato (op : AtomOp) (ty : AtomTy) (o : MOps)
  | qpush (q : BitVec 5) (o : ROps)
  | qpop (q : BitVec 5) (o : ROps)
  | qallow (q : BitVec 5) (o : ROps)
  | qtry (q : BitVec 5) (o : ROps)
  | tbar (reg : Bool) (id : BitVec 4) (count : BitVec 13) (o : IOps)
  | abinit (o : MOps)
  | abexp (o : MOps)
  | abwait (o : MOps)
  | abarr (o : MOps)
  | hclaim (o : ROps)
  | hins (o : ROps)
  | hprobe (o : ROps)
  | hdel (o : ROps)
  | hacc (op : HaccOp) (o : ROps)
  | hdrain (o : ROps)
  | hrel
  | hstat (o : ROps)
  -- matrix group 0xC8-0xD4 (R276-R294)
  | obres (bytes : BitVec 18) (soff : BitVec 14) (blen32 : Bool) (fmt : Fmt) (f0 : Field)
  | obrel (o : XOps)
  | obld (bytes : BitVec 18) (o : XOps)
  | mma (p : ProdOps)
  | mmas (pat : NMPat) (p : ProdOps)
  | mlut (p : ProdOps)
  | nmsel (pat : NMPat) (kl rows : BitVec 16) (o : XOps)
  | accz (o : XOps)
  | accrd (o : XOps)
  | accwr (o : XOps)
  | accmv (rm : CvtMode) (t : BitVec 2) (doff : BitVec 32) (o : XOps)
  | sclld (off : BitVec 14) (bytes : BitVec 16) (o : XOps)
  | accred (max : Bool) (o : XOps)
  -- engines, lift, launch 0xE0-0xE8 (R295-R305)
  | xld (mask : BitVec 4) (o : XOps)
  | xst (o : XOps)
  | xsc (o : XOps)
  | xreq (count : BitVec 32) (cap : BitVec 16) (o : XOps)
  | xfar (get : Bool) (o : XOps)
  | fld (mode : FldMode) (o : XOps)
  | wput (o : XOps)
  | wget (o : XOps)
  | lnch (o : XOps)
  -- system and trap 0xF0-0xF8 (R238-R243)
  | svc (n : BitVec 16) (lk : BitVec 4) (o : IOps)
  | trap (code : BitVec 8) (o : IOps)
  | rfh
  | gets (r : SReg) (o : IOps)
  | sets (r : SReg) (o : IOps)
  | bkpt (n : BitVec 16)
  | clk (bundles : Bool) (o : IOps)
  | prof (n : BitVec 16)
  | abort (n : BitVec 16)
  -- steps of the cores and of the commit machinery
  | handlerEntry (crew : Nat) (ts : List TrapReq)
  | longLatencyResult (crew lane k : Nat)
  | chunkLimitReached (crew : Nat)
  | commitGrant (crew : Nat)
  | chunkCommit (crew : Nat)
  | commitTokenRequest (crew : Nat)
  | commitTokenGrant
  | engineIssueEvent (cluster : Nat)
  | engineSectorWrite (cluster : Nat)
  -- steps of the links
  | farOperationArrival (f : FarOp)
  | farReply (seq : Nat) (ws : List TWord)
  | farAcknowledge (seq : Nat)
  | farRefusal (seq : Nat) (reason : Nat)
  | farTimeout (seq : Nat)
  -- faults, errors and dead contexts
  | faultQueueReplay (slice : Nat)
  | translationFault (crew : Nat) (va : BitVec 64) (cause : Nat) (write fetch engine : Bool)
  | softErrorDetected (e : SoftErr)
  | correctedError (pa : Nat) (spare : Bool)
  | declareDead (asid cause : Nat) (detail : BitVec 64)
  | watchdogExpiry (asid : Nat)
  | fourWaitTimeout (crew : Nat)
  -- steps of the cox
  | quantumExpiry (die : Nat)
  | gangPlacement (die : Nat)
  | crewEvict (crew : Nat)
  | crewRestore (crew : Nat)
  -- the host
  | hostWindowWrite (off bytes : Nat) (v : BitVec 64)
  | hostWindowRead (off bytes : Nat)
  | hostApertureWrite (off : Nat) (data : List Byte)
  | hostApertureRead (off bytes : Nat)
  | sqDoorbell (q : Nat) (tail : BitVec 64)
  | sqEnable (q : Nat)
  | launch (q : Nat)
  | flush (q : Nat)
  | copy (q : Nat) (data : List Byte)
  | sqFence (q : Nat)
  | signal (q : Nat)
  | commandCompletion (q k : Nat)
  | cqheadWrite (q : Nat) (v : BitVec 64)
  | serviceDoorbell (ring : Nat) (v : BitVec 64)
  | svcRingEvent (crew : Nat)
  | contextEnable (slot : Nat) (ctl : BitVec 64)
  | liftasid (die : Nat) (v : BitVec 64)
  | tlbInvalidate (v : BitVec 64)
  | migrate (v : BitVec 64)
  | faultRetry (seq : Nat)
  | faultKill (seq : Nat)
  | faultheadWrite (v : BitVec 64)
  | faultringWrite (v : BitVec 64)
  | cancel (v : BitVec 64)
  | reroute
  | pctlWrite (port : Nat) (v : BitVec 64)
  | linkPortDown (port lanes : Nat)
  | registerWrite (addr bytes : Nat) (v : BitVec 64)
  -- mailbox, boot and the module
  | readFailrec
  | imageBegin
  | imageChunk
  | imageCommit
  | clearalt
  | reset
  | deviceReset
  | powerLoss
  | throttle
  | thermalTrip
  | matrixInstructionComplete (quad : Nat)
  | pldmFirmwareUpdate (image : List Byte)
  deriving DecidableEq, Repr

end Sys2Proof
end

