-- ==== Sys2Proof/Machine/Slots.lean ====
section
/-! DEFINITION. What an instruction word's fields are for: opcode byte, chunk class, LK use (the opcode map, R198), and
the register slots with their roles (the entries' field tables). Encoding checks, register bounds, last-use frees,
handler operands and the hazard detector all read these. -/

namespace Sys2Proof

/-- Chunk classes (R86). -/
inductive ChunkClass where
  | speculative | deferred | irrevocable
  deriving DecidableEq, Repr

/-- What an entry does with a register field. -/
inductive Role where
  /-- unused: must be 0 (R185) -/
  | zero
  /-- an unused IDX: must be 255 (R185) -/
  | noIdx
  /-- an immediate in a register field -/
  | imm
  /-- a source, `nil` allowed -/
  | read
  /-- a source that may not be `nil` -/
  | readReg
  /-- a destination, s registers allowed (R191) -/
  | write
  /-- a destination that may not be an s register (R40, R226, R246) -/
  | writeV
  /-- a destination that may not be `nil` (R281) -/
  | writeReg
  /-- read and written, s registers allowed -/
  | readWrite
  /-- read and written, not an s register -/
  | readWriteV
  /-- an s register, read and written (R271) -/
  | sOnly
  /-- the first of `n` v registers that are read (R246, R278) -/
  | groupRead (n : Nat)
  /-- the first of `n` v registers that are written -/
  | groupWrite (n : Nat)
  /-- the first register of a tile's group, read: its bounds are checked with the handle (R292) -/
  | tileRead
  /-- the first register of a tile's group, written -/
  | tileWrite
  /-- the first of five coordinate registers, or `nil` (R295) -/
  | coords
  /-- a result pair D and D+1 of v registers, or `nil` (R271, R304) -/
  | pair
  deriving DecidableEq, Repr

/-- A register field of an instruction with its last-use bit, its index bit and its role. -/
structure Slot where
  field : Field
  last : Bool := false
  index : Bool := false
  role : Role
  deriving DecidableEq, Repr

/-- The field names v0-v223 (R188). -/
def Field.isV (f : Field) : Bool := decide (f.toNat < 224)
/-- The field names s0-s30 (R188). -/
def Field.isS (f : Field) : Bool := decide (224 ≤ f.toNat) && decide (f.toNat < 255)
/-- The field is `nil` (R188). -/
def Field.isNil (f : Field) : Bool := f == 255

/-- Does the role read the register the slot names? -/
def Role.reads : Role → Bool
  | .read | .readReg | .readWrite | .readWriteV | .sOnly | .groupRead _ | .tileRead | .coords => true
  | _ => false

/-- Does the role write it? -/
def Role.writes : Role → Bool
  | .write | .writeV | .writeReg | .readWrite | .readWriteV | .sOnly | .groupWrite _ | .tileWrite | .pair => true
  | _ => false

/-- How many registers the slot's role covers. -/
def Role.count : Role → Nat
  | .zero | .noIdx | .imm => 0
  | .groupRead n | .groupWrite n => n
  | .coords => 5
  | .pair => 2
  | _ => 1

/-! ## Slots by format -/

namespace Slots

def r (o : ROps) (d a b c : Role) : List Slot :=
  [⟨o.d, false, o.xd, d⟩, ⟨o.a, o.la, o.xa, a⟩, ⟨o.b, o.lb, false, b⟩, ⟨o.c, o.lc, false, c⟩]

def i (o : IOps) (d a : Role) : List Slot :=
  [⟨o.d, false, o.xd, d⟩, ⟨o.a, o.la, o.xa, a⟩]

def m (o : MOps) (d base idx : Role) : List Slot :=
  [⟨o.d, o.ld, false, d⟩, ⟨o.base, o.lbase, false, base⟩, ⟨o.idx, o.lidx, false, idx⟩]

def x (o : XOps) (f0 f1 f2 f3 f4 f5 : Role) : List Slot :=
  [⟨o.f0, false, false, f0⟩, ⟨o.f1, o.l1, false, f1⟩, ⟨o.f2, o.l2, false, f2⟩, ⟨o.f3, o.l3, false, f3⟩,
    ⟨o.f4, false, false, f4⟩, ⟨o.f5, false, false, f5⟩]

end Slots

/-- Registers a load or store of an access type moves (R246). -/
def Acc.regs : Acc → Nat
  | .v16 => 2 | .v32 => 4 | _ => 1

/-- The D role of a load: a group for V16 and V32, else one register with s allowed (R246). -/
def Acc.loadRole (a : Acc) : Role := if a.regs = 1 then .write else .groupWrite a.regs
/-- The D role of a store (R246). -/
def Acc.storeRole (a : Acc) : Role := if a.regs = 1 then .read else .groupRead a.regs

/-- Element width in bits of a matrix format, 6-bit formats taken as 8 (R285). -/
def MFmt.bits : MFmt → Nat
  | .f32 => 32 | .f16 | .bf16 => 16 | .i4 | .u4 | .b4 => 4 | .l1 => 1 | .l2 => 2 | _ => 8

/-- K of one dense product for the format's class (R142). -/
def MFmt.denseK : MFmt → Nat
  | .f32 => 8 | .f16 | .bf16 => 32 | .i4 | .u4 | .b4 => 128 | .l1 | .l2 => 256 | _ => 64

/-- Group size of the sum order (R142). -/
def MFmt.group : MFmt → Nat
  | .f32 | .f16 | .bf16 => 8 | .i4 | .u4 | .b4 | .l1 | .l2 => 32 | _ => 16

/-- Registers of a B group for logical K (R285). -/
def bRegs (k bits : Nat) : Nat := 64 * k * bits / 8 / 256

/-- The register slots of an instruction word, in field order (the entries' field tables). Steps that are no instruction
words have none. -/
def Instr.slots : Instr → List Slot
  | .add _ o | .sub _ o | .mul _ o | .div _ o | .rem _ o | .min _ o | .max _ o | .cmpeq _ o | .cmplt _ o | .cmple _ o
  | .and _ o | .or _ o | .xor _ o | .shl _ o | .shr _ o | .ident _ o => Slots.r o .writeV .read .read .zero
  | .neg _ o | .abs _ o | .not _ o | .truth _ o => Slots.r o .writeV .read .zero .zero
  | .fma _ o => Slots.r o .writeV .read .read .read
  | .iadd _ o | .isub _ o | .imul _ o | .imulh _ o | .idiv _ o | .irem _ o | .imin _ o | .imax _ o | .iand _ o | .ior _ o
  | .ixor _ o | .ishl _ o | .ishr _ o | .bfx _ o | .icmp _ _ o | .lea _ _ o => Slots.r o .write .read .read .zero
  | .ineg _ o | .iabs _ o | .inot _ o | .popc _ o | .clz _ o | .ctz _ o | .brev _ o | .mov o =>
    Slots.r o .write .read .zero .zero
  | .bfi _ o | .sel o => Slots.r o .write .read .read .read
  | .movi _ _ o => Slots.i o .write .zero
  | .movh _ _ o => Slots.i o .readWrite .zero
  | .iaddi _ _ o | .icmpi _ _ _ o => Slots.i o .write .read
  | .fadd _ _ o | .fsub _ _ o | .fmul _ _ o | .fdiv _ _ o | .fmin _ o | .fmax _ o | .fcmp _ _ o | .fscale _ _ o =>
    Slots.r o .write .read .read .zero
  | .ffma _ _ o | .fdot2 _ _ o => Slots.r o .write .read .read .read
  | .fsqrt _ _ o | .frsq _ _ o | .fexp2 _ _ o | .flog2 _ _ o | .frcp _ _ o | .fabs _ o | .fneg _ o | .fclass _ o
  | .fround _ _ o => Slots.r o .write .read .zero .zero
  | .cvt .ef _ _ o => Slots.x o .write .read .readWrite .zero .zero .zero
  | .cvt (.round _) _ _ o | .cvti _ _ _ _ o | .unpack _ _ o => Slots.x o .write .read .zero .zero .zero .zero
  | .pack _ _ n _ o => Slots.x o .readWrite .read (if n.toNat ≥ 1 then .read else .zero)
      (if n.toNat ≥ 2 then .read else .zero) (if n.toNat ≥ 3 then .read else .zero) .zero
  | .tagof o | .ihash o => Slots.r o .write .read .zero .zero
  | .settag _ o => Slots.i o .write .read
  | .tagchk _ o => Slots.i o .zero .read
  | .hdrld o => Slots.m o .write .read .noIdx
  | .shfl _ false o | .perm o => Slots.r o .writeV .read .read .zero
  | .shfl _ true o => Slots.r o .writeV .read .imm .zero
  | .vote _ o | .reduce _ _ _ o => Slots.r o .write .read .zero .zero
  | .qswap _ o | .qbcast _ o | .matchKeys o | .msort _ o | .scan _ _ _ _ o => Slots.r o .writeV .read .zero .zero
  | .elect o => Slots.r o .writeV .zero .zero .zero
  | .rgw | .rgend | .exit | .exitH | .cbrk | .nop | .wait | .yield | .fence | .hrel | .rfh => []
  | .bra _ | .call _ => []
  | .brt o | .brf o => [⟨o.a, o.la, false, .read⟩]
  | .brx o | .callr o | .ret o => Slots.r o .zero .read .zero .zero
  | .mcall _ o => Slots.r o .read .read .read .zero
  | .ld a o | .lds a o | .ldfar a o => Slots.m o a.loadRole .read .read
  | .ldf a o => Slots.m { o with ld := false } a.loadRole (if o.ld then .readWrite else .read) .read
  | .st a o | .stf a o | .sts a o | .stfar a o => Slots.m o a.storeRole .read .read
  | .ldnb o => Slots.m o .write .read .read
  | .stnb o | .hflush o => Slots.m o .read .read .read
  | .prf o => Slots.m o .zero .read .read
  | .alloc o => Slots.r o .writeV .read .zero .zero
  | .nurs false o => Slots.r o .write .read .read .zero
  | .nurs true o => Slots.r o .write .zero .zero .zero
  | .spill o => Slots.m o (.groupRead 1) .read .read
  | .fill o => Slots.m o (.groupWrite 1) .read .read
  | .atom _ _ o | .sato _ _ o => Slots.m o .writeV .read .readReg
  | .acas _ o => Slots.m o .readWriteV .read .readReg
  | .red _ _ o => Slots.m o .read .read .noIdx
  | .qpush _ o | .qallow _ o => Slots.r o .zero .read .zero .zero
  | .qpop _ o | .qtry _ o => Slots.r o .writeV .zero .zero .zero
  | .tbar reg _ _ o => Slots.i o .zero (if reg then .read else .zero)
  | .abinit o | .abexp o => Slots.m o .read .read .read
  | .abwait o | .abarr o => Slots.m o .zero .read .read
  | .hclaim o => Slots.r o .writeV .read .read .zero
  | .hins o => Slots.r o .pair .read .read .zero
  | .hprobe o | .hdel o => Slots.r o .pair .read .zero .zero
  | .hacc _ o => Slots.r o .zero .read .read .zero
  | .hdrain o => Slots.r o .pair .sOnly .zero .zero
  | .hstat o => Slots.r o .writeV .zero .zero .zero
  | .obres _ _ _ _ f0 => [⟨f0, false, false, .writeReg⟩]
  | .obrel o | .accz o => Slots.x o .zero .read .zero .zero .zero .zero
  | .obld _ o => Slots.x o .zero .read .read .read .zero .zero
  | .mma p | .mlut p =>
    [⟨0, false, false, .zero⟩, ⟨p.f1, p.l1, false, .read⟩, ⟨p.f2, p.l2, false, .groupRead (bRegs p.bfmt.denseK p.bfmt.bits)⟩,
      ⟨p.f3, p.l3, false, .read⟩]
  | .mmas _ p =>
    [⟨0, false, false, .zero⟩, ⟨p.f1, p.l1, false, .read⟩, ⟨p.f2, p.l2, false, .groupRead (bRegs (2 * p.bfmt.denseK) p.bfmt.bits)⟩,
      ⟨p.f3, p.l3, false, .read⟩]
  | .nmsel _ _ _ o => Slots.x o .zero .read .read .zero .zero .zero
  | .accrd o | .accred _ o => Slots.x o .tileWrite .read .zero .zero .zero .zero
  | .accwr o => Slots.x o .zero .read .tileRead .zero .zero .zero
  | .accmv .ef _ _ o => Slots.x o .zero .read .read .read .zero .zero
  | .accmv (.round _) _ _ o => Slots.x o .zero .read .read .zero .zero .zero
  | .sclld _ _ o => Slots.x o .zero .read .zero .zero .zero .zero
  | .xld _ o | .xst o | .xsc o => Slots.x o .zero .read .coords .read .read .zero
  | .xfar _ o => Slots.x o .zero .read .coords .read .read .read
  | .xreq _ _ o => Slots.x o .zero .read .read .zero .zero .zero
  | .fld _ o => Slots.x o .writeV .read .coords .zero .zero .zero
  | .wput o => Slots.x o .writeV .read .read .zero .zero .zero
  | .wget o => Slots.x o .pair .zero .zero .zero .zero .zero
  | .lnch o => Slots.x o .write .read .zero .zero .zero .zero
  | .svc _ _ o => Slots.i o .write .read
  | .trap _ o | .sets _ o => Slots.i o .zero .read
  | .gets _ o | .clk _ o => Slots.i o .write .zero
  | .bkpt _ | .prof _ | .abort _ => []
  | _ => []

/-- The opcode byte of an instruction word (R198); 0 for a step that is none. -/
def Instr.opcode : Instr → Nat
  | .add .. => 0x01 | .sub .. => 0x02 | .mul .. => 0x03 | .div .. => 0x04 | .rem .. => 0x05 | .neg .. => 0x06
  | .abs .. => 0x07 | .min .. => 0x08 | .max .. => 0x09 | .cmpeq .. => 0x0A | .cmplt .. => 0x0B | .cmple .. => 0x0C
  | .and .. => 0x0D | .or .. => 0x0E | .xor .. => 0x0F | .not .. => 0x10 | .shl .. => 0x11 | .shr .. => 0x12
  | .fma .. => 0x13 | .ident .. => 0x14 | .truth .. => 0x15
  | .iadd .. => 0x20 | .isub .. => 0x21 | .imul .. => 0x22 | .imulh .. => 0x23 | .idiv .. => 0x24 | .irem .. => 0x25
  | .ineg .. => 0x26 | .iabs .. => 0x27 | .imin .. => 0x28 | .imax .. => 0x29 | .iand .. => 0x2A | .ior .. => 0x2B
  | .ixor .. => 0x2C | .inot .. => 0x2D | .ishl .. => 0x2E | .ishr .. => 0x2F
  | .popc .. => 0x30 | .clz .. => 0x31 | .ctz .. => 0x32 | .brev .. => 0x33 | .bfx .. => 0x34 | .bfi .. => 0x35
  | .icmp .. => 0x36 | .sel .. => 0x37 | .lea .. => 0x38 | .mov .. => 0x39 | .movi .. => 0x3A | .movh .. => 0x3B
  | .iaddi .. => 0x3C | .icmpi .. => 0x3D
  | .fadd .. => 0x40 | .fsub .. => 0x41 | .fmul .. => 0x42 | .ffma .. => 0x43 | .fdiv .. => 0x44 | .fsqrt .. => 0x45
  | .frsq .. => 0x46 | .fexp2 .. => 0x47 | .flog2 .. => 0x48 | .frcp .. => 0x49 | .fmin .. => 0x4A | .fmax .. => 0x4B
  | .fabs .. => 0x4C | .fneg .. => 0x4D | .fcmp .. => 0x4E | .fclass .. => 0x4F | .fround .. => 0x50
  | .fscale .. => 0x51 | .fdot2 .. => 0x52
  | .cvt .. => 0x60 | .cvti .. => 0x61 | .pack .. => 0x62 | .unpack .. => 0x63 | .tagof .. => 0x64 | .settag .. => 0x65
  | .tagchk .. => 0x66 | .hdrld .. => 0x67 | .ihash .. => 0x68
  | .shfl .. => 0x70 | .vote .. => 0x71 | .qswap .. => 0x72 | .qbcast .. => 0x73 | .matchKeys .. => 0x74
  | .msort .. => 0x75 | .perm .. => 0x76 | .scan .. => 0x77 | .reduce .. => 0x78 | .elect .. => 0x79 | .rgw => 0x7A
  | .rgend => 0x7B
  | .bra .. => 0x80 | .brt .. => 0x81 | .brf .. => 0x82 | .brx .. => 0x83 | .call .. => 0x84 | .callr .. => 0x85
  | .ret .. => 0x86 | .exit => 0x87 | .exitH => 0x87 | .cbrk => 0x88 | .nop => 0x89 | .wait => 0x8A | .mcall .. => 0x8B
  | .yield => 0x8C
  | .ld .. => 0x90 | .st .. => 0x91 | .ldf .. => 0x92 | .stf .. => 0x93 | .ldnb .. => 0x94 | .stnb .. => 0x95
  | .lds .. => 0x96 | .sts .. => 0x97 | .prf .. => 0x98 | .alloc .. => 0x99 | .nurs .. => 0x9A | .fence => 0x9B
  | .ldfar .. => 0x9C | .stfar .. => 0x9D | .spill .. => 0x9E | .fill .. => 0x9F | .hflush .. => 0xA0
  | .atom .. => 0xB0 | .acas .. => 0xB1 | .red .. => 0xB2 | .sato .. => 0xB3 | .qpush .. => 0xB4 | .qpop .. => 0xB5
  | .qallow .. => 0xB6 | .qtry .. => 0xB7 | .tbar .. => 0xB8 | .abinit .. => 0xB9 | .abexp .. => 0xBA | .abwait .. => 0xBB
  | .abarr .. => 0xBC
  | .hclaim .. => 0xC0 | .hins .. => 0xC1 | .hprobe .. => 0xC2 | .hdel .. => 0xC3 | .hacc .. => 0xC4 | .hdrain .. => 0xC5
  | .hrel => 0xC6 | .hstat .. => 0xC7
  | .obres .. => 0xC8 | .obrel .. => 0xC9 | .obld .. => 0xCA | .mma .. => 0xCB | .mmas .. => 0xCC | .mlut .. => 0xCD
  | .nmsel .. => 0xCE | .accz .. => 0xCF | .accrd .. => 0xD0 | .accwr .. => 0xD1 | .accmv .. => 0xD2 | .sclld .. => 0xD3
  | .accred .. => 0xD4
  | .xld .. => 0xE0 | .xst .. => 0xE1 | .xsc .. => 0xE2 | .xreq .. => 0xE3 | .xfar .. => 0xE4 | .fld .. => 0xE5
  | .wput .. => 0xE6 | .wget .. => 0xE7 | .lnch .. => 0xE8
  | .svc .. => 0xF0 | .trap .. => 0xF1 | .rfh => 0xF2 | .gets .. => 0xF3 | .sets .. => 0xF4 | .bkpt .. => 0xF5
  | .clk .. => 0xF6 | .prof .. => 0xF7 | .abort .. => 0xF8
  | .illegalInstruction b _ => b.toNat
  | .routedInstruction w => (w >>> 56).toNat
  | _ => 0

/-- The format of an opcode byte that the map assigns (R198). -/
inductive Format where
  | r | i | m | b | x
  deriving DecidableEq, Repr

def opFormat (op : Nat) : Option Format :=
  if (0x01 ≤ op ∧ op ≤ 0x15) ∨ (0x20 ≤ op ∧ op ≤ 0x39) ∨ (0x40 ≤ op ∧ op ≤ 0x52) then some .r
  else if 0x3A ≤ op ∧ op ≤ 0x3D then some .i
  else if 0x60 ≤ op ∧ op ≤ 0x63 then some .x
  else if op = 0x64 ∨ op = 0x68 ∨ (0x70 ≤ op ∧ op ≤ 0x7B) then some .r
  else if op = 0x65 ∨ op = 0x66 ∨ op = 0x8A ∨ op = 0x9B ∨ op = 0xB8 ∨ (0xF0 ≤ op ∧ op ≤ 0xF8) then some .i
  else if op = 0x80 ∨ op = 0x81 ∨ op = 0x82 ∨ op = 0x84 then some .b
  else if op = 0x83 ∨ (0x85 ≤ op ∧ op ≤ 0x8C) ∨ op = 0x99 ∨ op = 0x9A ∨ (0xB4 ≤ op ∧ op ≤ 0xB7)
    ∨ (0xC0 ≤ op ∧ op ≤ 0xC7) then some .r
  else if op = 0x67 ∨ (0x90 ≤ op ∧ op ≤ 0x98) ∨ (0x9C ≤ op ∧ op ≤ 0xA0) ∨ (0xB0 ≤ op ∧ op ≤ 0xB3)
    ∨ (0xB9 ≤ op ∧ op ≤ 0xBC) then some .m
  else if (0xC8 ≤ op ∧ op ≤ 0xD4) ∨ (0xE0 ≤ op ∧ op ≤ 0xE8) then some .x
  else none

/-- The length in bytes that R179 gives an opcode byte: two words for the X format, else one. -/
def opLength (op : Nat) : Nat := if opFormat op = some .x then 16 else 8

/-- The cells marked L (R198, R199); `svc` carries its LK in the immediate. -/
def opTakesLk (op : Nat) : Bool :=
  decide (op = 0x04 ∨ op = 0x05 ∨ op = 0x24 ∨ op = 0x25 ∨ (0x44 ≤ op ∧ op ≤ 0x49) ∨ op = 0x67 ∨ op = 0x90 ∨ op = 0x92
    ∨ op = 0x94 ∨ op = 0x96 ∨ op = 0x9C ∨ op = 0x9F ∨ op = 0xB0 ∨ op = 0xB1 ∨ op = 0xB3 ∨ op = 0xB5 ∨ op = 0xB7
    ∨ op = 0xC1 ∨ op = 0xC2 ∨ op = 0xC3 ∨ op = 0xC5 ∨ op = 0xD0 ∨ op = 0xD4 ∨ op = 0xE5 ∨ op = 0xE7)

/-- Is the step an instruction word of the opcode map (R198)? -/
def Instr.isWord (i : Instr) : Bool := (opFormat i.opcode).isSome && (match i with
  | .illegalInstruction _ _ => false
  | .routedInstruction _ => false
  | _ => true)

/-- The chunk class of an opcode byte (R198, R199), which an illegally encoded word keeps. `sets` varies with its register and
`mcall` has none of its own: as bytes alone they end no chunk (DEDUCED, entry 52). -/
def opClass (op : Nat) : ChunkClass :=
  if op = 0x7A ∨ op = 0x7B ∨ (0x9B ≤ op ∧ op ≤ 0x9D) ∨ op = 0xA0 ∨ op = 0xB0 ∨ op = 0xB1 ∨ (0xB4 ≤ op ∧ op ≤ 0xBC) ∨ op = 0xC0
      ∨ op = 0xC1 ∨ op = 0xC3 ∨ op = 0xC5 ∨ op = 0xC6 ∨ (0xC8 ≤ op ∧ op ≤ 0xCF) ∨ (0xD1 ≤ op ∧ op ≤ 0xD3)
      ∨ (0xE0 ≤ op ∧ op ≤ 0xE4) ∨ (0xE6 ≤ op ∧ op ≤ 0xE8) ∨ op = 0xF0 ∨ op = 0xF1 then .irrevocable
  else if op = 0xB2 ∨ op = 0xC4 then .deferred
  else .speculative

/-- The chunk class of an instruction (R86, R198). `sets` is irrevocable for HTAB, SVCQ and HREGION (R193). -/
def Instr.cls : Instr → ChunkClass
  | .illegalInstruction b _ => opClass b.toNat
  | .atom .. | .acas .. | .hins .. | .hdel .. | .hdrain .. | .hclaim .. | .hrel | .qpush .. | .qpop .. | .qtry ..
  | .qallow .. | .tbar .. | .abinit .. | .abexp .. | .abarr .. | .abwait .. | .xld .. | .xst .. | .xsc .. | .xreq ..
  | .xfar .. | .wput .. | .wget .. | .lnch .. | .obres .. | .obrel .. | .obld .. | .mma .. | .mmas .. | .mlut ..
  | .nmsel .. | .accz .. | .accwr .. | .accmv .. | .sclld .. | .ldfar .. | .stfar .. | .svc .. | .trap .. | .hflush ..
  | .fence | .rgw | .rgend => .irrevocable
  | .sets .htab _ | .sets .svcq _ | .sets .hregion _ => .irrevocable
  | .red .. | .hacc .. => .deferred
  | _ => .speculative

/-- The LK field of an instruction word (R200); 0 where it has none. -/
def Instr.lk : Instr → Nat
  | .add _ o | .sub _ o | .mul _ o | .div _ o | .rem _ o | .neg _ o | .abs _ o | .min _ o | .max _ o | .cmpeq _ o
  | .cmplt _ o | .cmple _ o | .and _ o | .or _ o | .xor _ o | .not _ o | .shl _ o | .shr _ o | .fma _ o | .ident _ o
  | .truth _ o | .iadd _ o | .isub _ o | .imul _ o | .imulh _ o | .idiv _ o | .irem _ o | .ineg _ o | .iabs _ o
  | .imin _ o | .imax _ o | .iand _ o | .ior _ o | .ixor _ o | .inot _ o | .ishl _ o | .ishr _ o | .popc _ o | .clz _ o
  | .ctz _ o | .brev _ o | .bfx _ o | .bfi _ o | .icmp _ _ o | .sel o | .lea _ _ o | .mov o
  | .fadd _ _ o | .fsub _ _ o | .fmul _ _ o | .ffma _ _ o | .fdiv _ _ o | .fsqrt _ _ o | .frsq _ _ o | .fexp2 _ _ o
  | .flog2 _ _ o | .frcp _ _ o | .fmin _ o | .fmax _ o | .fabs _ o | .fneg _ o | .fcmp _ _ o | .fclass _ o
  | .fround _ _ o | .fscale _ _ o | .fdot2 _ _ o | .tagof o | .ihash o | .shfl _ _ o | .vote _ o | .qswap _ o
  | .qbcast _ o | .matchKeys o | .msort _ o | .perm o | .scan _ _ _ _ o | .reduce _ _ _ o | .elect o | .brx o | .callr o
  | .ret o | .mcall _ o | .alloc o | .nurs _ o | .qpush _ o | .qpop _ o | .qallow _ o | .qtry _ o | .hclaim o | .hins o
  | .hprobe o | .hdel o | .hacc _ o | .hdrain o | .hstat o => o.lk.toNat
  | .hdrld o | .ld _ o | .st _ o | .ldf _ o | .stf _ o | .ldnb o | .stnb o | .lds _ o | .sts _ o | .prf o | .ldfar _ o
  | .stfar _ o | .spill o | .fill o | .hflush o | .atom _ _ o | .acas _ o | .red _ _ o | .sato _ _ o | .abinit o
  | .abexp o | .abwait o | .abarr o => o.lk.toNat
  | .cvt _ _ _ o | .cvti _ _ _ _ o | .pack _ _ _ _ o | .unpack _ _ o | .obrel o | .obld _ o | .nmsel _ _ _ o | .accz o
  | .accrd o | .accwr o | .accmv _ _ _ o | .sclld _ _ o | .accred _ o | .xld _ o | .xst o | .xsc o | .xreq _ _ o
  | .xfar _ o | .fld _ o | .wput o | .wget o | .lnch o => o.lk.toNat
  | _ => 0

/-- The matrix group (R199). -/
def opIsMatrix (op : Nat) : Bool := decide (0xC8 ≤ op ∧ op ≤ 0xD4)

/-- The opcode bytes that R58 suppresses in a HELPER lane; an illegally encoded word of one raises no trap there (R195);
`fence` is taken as suppressed, though R58 says only that the lane adds nothing to its event (DEDUCED, entry 52). -/
def opSuppressed (op : Nat) : Bool :=
  [0x68, 0x8C, 0x91, 0x93, 0x95, 0x97, 0x99, 0x9A, 0x9B, 0x9D, 0x9E, 0xA0, 0xC0, 0xC1, 0xF0, 0xF1, 0xF4, 0xF5, 0xF7, 0xF8].contains op
    || decide (0xB0 ≤ op ∧ op ≤ 0xBC) || decide (0xC3 ≤ op ∧ op ≤ 0xC6) || decide (0xE0 ≤ op ∧ op ≤ 0xE4)
    || decide (0xE6 ≤ op ∧ op ≤ 0xE8)

/-- What a HELPER lane does with an instruction (R58): true where it is suppressed. -/
def Instr.helperSuppressed : Instr → Bool
  | .illegalInstruction b _ => opSuppressed b.toNat
  | .st .. | .stnb .. | .stf .. | .sts .. | .stfar .. | .spill .. | .hflush .. | .atom .. | .acas .. | .red .. | .sato ..
  | .alloc .. | .nurs .. | .sets .. | .ihash .. | .hclaim .. | .hins .. | .hdel .. | .hacc .. | .hdrain .. | .hrel
  | .qpush .. | .qpop .. | .qtry .. | .qallow .. | .tbar .. | .abinit .. | .abexp .. | .abarr .. | .abwait ..
  | .xld .. | .xst .. | .xsc .. | .xreq .. | .xfar .. | .wput .. | .wget .. | .lnch .. | .svc .. | .trap .. | .bkpt ..
  | .abort .. | .yield | .prof .. | .fence => true
  | _ => false

/-- The instructions a thread with its region bit set may execute (R63), the branch targets apart. -/
def Instr.regionAllowed : Instr → Bool
  | .bra .. | .brt .. | .brf .. | .rgend => true
  | .ld .. | .st .. | .ldf .. | .stf .. | .lds .. | .sts .. | .fld .. | .red .. | .hacc .. | .hprobe .. => true
  | .illegalInstruction .. | .routedInstruction .. => false
  | i => decide ((0x01 ≤ i.opcode ∧ i.opcode ≤ 0x3D) ∨ (0x40 ≤ i.opcode ∧ i.opcode ≤ 0x52)
      ∨ (0x60 ≤ i.opcode ∧ i.opcode ≤ 0x66))

/-- Does the D field of an instruction name a uniform register? The first slot of every format but B is D (R180-R184). -/
def Instr.uniformD (i : Instr) : Bool :=
  decide (opFormat i.opcode ≠ some .b) && i.slots.head?.any fun sl => sl.field.isS

/-- The crew collectives (R56). -/
def Instr.isCollective : Instr → Bool
  | .shfl .. | .vote .. | .scan .. | .reduce .. | .matchKeys .. | .msort .. | .perm .. | .elect .. | .qswap ..
  | .qbcast .. => true
  | _ => false

/-- The engine commands that the lowest non-HELPER lane of the bundle issues, in which their registers are read (R295). -/
def Instr.engineCommand : Instr → Bool
  | .xld .. | .xst .. | .xsc .. | .xfar .. => true
  | _ => false

/-- Instructions that drain pending results before they issue (R321). -/
def Instr.drains : Instr → Bool
  | .call .. | .callr .. | .brx .. | .ret .. | .rfh | .wait => true
  | _ => false

/-! ## Traps (R43, R44, R46) -/

/-- Registers of a slot that R195 step 4 checks. -/
def Role.checked : Role → Nat
  | .coords => 1
  | .tileRead | .tileWrite => 0
  | r => r.count

def TrapName.code : TrapName → Nat
  | .illegalOpcode => 0x01 | .illegalEncoding => 0x02 | .illegalConvergence => 0x03 | .compositeIllegal => 0x04
  | .regBounds => 0x05 | .hazard => 0x06 | .fourMismatch => 0x07 | .tag => 0x08 | .bounds => 0x09 | .fwdChain => 0x0A
  | .scratchRange => 0x0B | .nursery => 0x0C | .format => 0x0D | .align => 0x0E | .badHandle => 0x0F | .idhash => 0x10
  | .breakpoint => 0x11 | .abort => 0x12 | .badHandler => 0x13 | .uncommonPair => 0x30 | .intOverflow => 0x31
  | .divInexact => 0x32 | .divZero => 0x33

/-- "Handler allowed" of R44. -/
def handlerAllowed (code : Nat) : Bool :=
  code != 0x03 && code != 0x04 && code != 0x07 && code != 0x12 && code != 0x13

/-- The slots that v217 and v218 take their words from, by format (R46). -/
def Instr.handlerSlots (i : Instr) : Option Nat × Option Nat :=
  match opFormat i.opcode with
  | some .r => (some 1, some 2)
  | some .i => (some 1, none)
  | some .m =>
    (some 1, match i.slots[0]?, i.slots[2]? with
      | some d, some x => if d.role.reads then some 0 else if x.role.reads && x.field != 255 then some 2 else none
      | _, _ => none)
  | some .b => (some 0, none)
  | some .x => (some 1, some 2)
  | none => (none, none)

/-- The table index of a trap (R43). -/
def TrapReq.index (t : TrapReq) : Nat :=
  match t.generic with
  | some (op, a, b) => 0x1000 + op * 256 + a * 16 + b
  | none => t.code

/-- The info word of R46. -/
def TrapReq.info (t : TrapReq) : BitVec 64 :=
  BitVec.ofNat 64 (t.index * 2 ^ 40 + (if t.code = 0x0C then 2 ^ 34 else 0) + (if t.code = 0x33 then 2 ^ 33 else 0)
    + (if t.code = 0x31 then 2 ^ 32 else 0) + t.code * 2 ^ 24 + t.v218.tag.toNat * 2 ^ 20 + t.v217.tag.toNat * 2 ^ 16
    + t.dest * 2 ^ 8 + t.op)

end Sys2Proof
end

