-- ==== Sys2Proof/WellFormed.lean ====
section
/-! DEFINITION. Which instructions are well-formed: what step 2 of R195 demands of an instruction word's fields. A word
whose instruction is not well-formed raises ILLEGAL_ENCODING. -/

namespace Sys2Proof

/-- What a register field may hold for its role (R185, R190, R192, R40, R246, R271, R278, R295). -/
def Slot.ok (s : Slot) : Bool :=
  let v := s.field.isV
  match s.role with
  | .zero => s.field == 0 && !s.last && !s.index
  | .noIdx => s.field == 255 && !s.last && !s.index
  | .imm => !s.last && !s.index
  | .read => (!s.last || v) && (!s.index || v)
  | .readReg => (!s.last || v) && (!s.index || v) && !s.field.isNil
  | .write => !s.last && (!s.index || v)
  | .writeV => !s.last && (!s.index || v) && !s.field.isS
  | .writeReg => !s.last && (!s.index || v) && !s.field.isNil
  | .readWrite => (!s.last || v) && (!s.index || v)
  | .readWriteV => !s.last && (!s.index || v) && !s.field.isS
  | .sOnly => !s.last && !s.index && s.field.isS
  | .groupRead n => !s.index && decide (s.field.toNat + n ≤ 224)
  | .groupWrite n => !s.last && !s.index && decide (s.field.toNat + n ≤ 224)
  | .tileRead => !s.index && decide (s.field.toNat < 224)
  | .tileWrite => !s.last && !s.index && decide (s.field.toNat < 224)
  | .coords => !s.index && (v || (s.field.isNil && !s.last))
  | .pair => !s.last && (!s.index || v) && (s.field.isNil || decide (s.field.toNat ≤ 222))

/-- A 2- or 4-register group starts at a multiple of its size (R246). -/
def Acc.groupOk (a : Acc) (d : Field) : Bool := decide (d.toNat % a.regs = 0)

/-- Element formats of `pack` (R221) with their width, 6-bit elements taking a byte. -/
def Fmt.packBits : Fmt → Option Nat
  | .i8 | .u8 | .e4m3 | .e5m2 | .e3m2 | .e2m3 => some 8
  | .i16 | .u16 | .f16 | .bf16 => some 16
  | .i32 | .u32 | .f32 => some 32
  | .e2m1 | .i4 | .u4 => some 4
  | _ => none

/-- Element formats of `unpack` (R222). -/
def Fmt.unpackBits : Fmt → Option Nat
  | .l1 => some 1 | .l2 => some 2 | f => f.packBits

/-- Source formats of `cvt` and `cvti` (R220). -/
def Fmt.cvtSource : Fmt → Bool
  | .scale | .b4 | .b8f | .b8i | .l1 | .l2 => false
  | _ => true

/-- Target formats of `cvt` and `cvti` (R220). -/
def Fmt.cvtTarget : Fmt → Bool
  | .word => false
  | f => f.cvtSource

/-- A floating-point format of R145. -/
def Fmt.isFloat : Fmt → Bool
  | .f64 | .f32 | .f16 | .bf16 | .e5m2 | .e4m3 | .e3m2 | .e2m3 | .e2m1 => true
  | _ => false

/-- Has the format a matrix code (R141)? -/
def Fmt.matrix : Fmt → Option MFmt
  | .f32 => some .f32 | .f16 => some .f16 | .bf16 => some .bf16 | .e4m3 => some .e4m3 | .e5m2 => some .e5m2
  | .e3m2 => some .e3m2 | .e2m3 => some .e2m3 | .i8 => some .i8 | .u8 => some .u8 | .i4 => some .i4 | .u4 => some .u4
  | .b4 => some .b4 | .b8f => some .b8f | .b8i => some .b8i | .l1 => some .l1 | .l2 => some .l2
  | _ => none

/-- `fexp2` and `flog2` have no F64 form (R161, R215). -/
def FTy.notF64 : FTy → Bool
  | .f64 => false | _ => true
/-- The scalar types (R186). -/
def FTy.isScalar : FTy → Bool
  | .f64 | .f32 | .f16 | .bf16 => true | _ => false

/-- and, or and xor of `scan` and `reduce` need an integer type (R230). -/
def redOk (op : RedOp) (ty : RedTy) : Bool :=
  match op, ty with
  | .and, .f _ | .or, .f _ | .xor, .f _ => false
  | _, _ => true

/-- Operations and types of the atomics (R263). -/
def atomOk (op : AtomOp) (ty : AtomTy) : Bool :=
  match op, ty with
  | .xchg, .i64 => true
  | .xchg, _ => false
  | .and, .f64 | .and, .f32 | .or, .f64 | .or, .f32 | .xor, .f64 | .xor, .f32 => false
  | _, _ => true

/-- Format and KB limits of a product (R285): `kMul` doubles the logical K for `mmas`. -/
def ProdOps.ok (p : ProdOps) (kMul : Nat) (lookup noF32 : Bool) : Bool :=
  let isLookup := p.bfmt == .l1 || p.bfmt == .l2
  (isLookup == lookup) && (!noF32 || p.bfmt != .f32) && decide (p.kb.toNat < kMul * p.bfmt.denseK)

/-- A special register that `sets` may write (R193). -/
def SReg.writable : SReg → Bool
  | .htab | .nbase | .nlimit | .xi | .fpflags | .svcq | .hregion | .formatflag => true
  | _ => false

/-- The entry's own limits on codes and immediates, beside its register fields. -/
def Instr.extraOk : Instr → Bool
  | .movh v _ _ => v == .i64 || v == .u64
  | .fexp2 ty _ _ | .flog2 ty _ _ => ty.notF64
  | .fclass ty _ => ty.isScalar
  | .fdot2 ty _ _ => !ty.isScalar
  | .cvt rm dst src _ => dst.cvtTarget && src.cvtSource && (match rm with | .ef => dst.isFloat | _ => true)
  | .cvti _ dst src _ _ => dst.cvtTarget && src.cvtSource
  | .pack f _ n idx _ =>
    (match f.packBits with | some w => decide (idx.toNat + n.toNat + 1 ≤ 64 / w) | none => false)
  | .unpack f idx _ => (match f.unpackBits with | some w => decide (idx.toNat < 64 / w) | none => false)
  | .hdrld o => o.sc == 0 && o.off == 0
  | .shfl _ true o => decide (o.b.toNat < 32)
  | .qswap k _ => k != 0
  | .scan op _ ty _ _ => redOk op ty
  | .reduce op ty _ _ => redOk op ty
  | .ld a o | .lds a o | .ldfar a o => a.groupOk o.d && !o.ld
  | .st a o | .sts a o | .stf a o | .stfar a o => a.groupOk o.d
  | .ldf a o => a.groupOk o.d && (!o.ld || (o.base != o.d && !o.lbase && !o.base.isNil))
  | .atom op ty o => atomOk op ty && o.sc == 0
  | .sato op ty o => atomOk op ty && o.sc == 0
  | .red op ty o => atomOk op ty && op != .xchg && o.sc == 0
  | .acas _ o => o.sc == 0
  | .tbar reg _ c _ => if reg then c == 0 else decide (1 ≤ c.toNat) && decide (c.toNat ≤ 6144)
  | .abinit o => o.sc == 0
  | .obres b _ _ f _ => decide (1 ≤ b.toNat) && decide (b.toNat ≤ 131072) && f.matrix.isSome
  | .obld b _ => decide (32 ≤ b.toNat) && decide (b.toNat ≤ 131072) && decide (b.toNat % 32 = 0)
  | .mma p => p.ok 1 false false
  | .mmas _ p => p.ok 2 false true
  | .mlut p => p.ok 1 true false
  | .nmsel _ kl rows _ =>
    decide (8 ≤ kl.toNat) && decide (kl.toNat ≤ 512) && decide (kl.toNat % 8 = 0) && decide (1 ≤ rows.toNat)
      && decide (rows.toNat ≤ 1024)
  | .sclld _ n _ => decide (1 ≤ n.toNat) && decide (n.toNat ≤ 16384)
  | .xreq count cap _ =>
    decide (1 ≤ count.toNat) && decide (count.toNat ≤ 1024) && decide (count.toNat ≤ cap.toNat)
      && decide (cap.toNat ∈ [1, 2, 4, 8, 16, 32, 64, 128, 256, 512, 1024])
  | .trap code _ => decide (0x40 ≤ code.toNat)
  | .sets r _ => r.writable
  | _ => true

/-- An instruction word that passes step 2 of R195. -/
def Instr.wellFormed (i : Instr) : Bool :=
  i.isWord && i.slots.all Slot.ok && (opTakesLk i.opcode || i.lk == 0) && i.extraOk

end Sys2Proof
end

