-- ==== Sys2Proof/Machine/Float.lean ====
section
/-! DEFINITION. Exact values and the rounding of every path: formats (R145-R152), RoundTo (R154, R155), NaN rules (R156),
error feedback (R157), block packing (R158), vector arithmetic (R161, R162), the matrix sum (R163-R166). A value is a
sign, a magnitude and a power of two, exact; a quotient or a root carries a sticky bit for the part below. -/

namespace Sys2Proof


/-- FPFLAGS bits (R159). -/
abbrev Flags := BitVec 5
def flagNV : Flags := 1
def flagDZ : Flags := 2
def flagOF : Flags := 4
def flagUF : Flags := 8
def flagNX : Flags := 16

/-- An exact value: `num neg m e` is ± m × 2^e with m > 0. -/
inductive FVal where
  | nan (sig : Bool)
  | inf (neg : Bool)
  | zero (neg : Bool)
  | num (neg : Bool) (m : Nat) (e : Int)
  deriving DecidableEq, Repr

/-- How a format encodes NaN (R145). -/
inductive NanKind where
  | none | ieee | e4m3
  deriving DecidableEq, Repr

/-- A binary format of R145: exponent bits, fraction bits, bias, infinity, NaN. -/
structure BinFmt where
  ew : Nat
  fw : Nat
  bias : Int
  hasInf : Bool
  nan : NanKind
  deriving DecidableEq, Repr

def binF64 : BinFmt := ⟨11, 52, 1023, true, .ieee⟩
def binF32 : BinFmt := ⟨8, 23, 127, true, .ieee⟩
def binF16 : BinFmt := ⟨5, 10, 15, true, .ieee⟩
def binBF16 : BinFmt := ⟨8, 7, 127, true, .ieee⟩
def binE5M2 : BinFmt := ⟨5, 2, 15, true, .ieee⟩
def binE4M3 : BinFmt := ⟨4, 3, 7, false, .e4m3⟩
def binE3M2 : BinFmt := ⟨3, 2, 3, false, .none⟩
def binE2M3 : BinFmt := ⟨2, 3, 1, false, .none⟩
def binE2M1 : BinFmt := ⟨2, 1, 1, false, .none⟩

/-- Width of an encoding. -/
def BinFmt.width (f : BinFmt) : Nat := 1 + f.ew + f.fw
/-- P and Emin of R145. -/
def BinFmt.prec (f : BinFmt) : Nat := f.fw + 1
def BinFmt.emin (f : BinFmt) : Int := 1 - f.bias
/-- The sign bit of an encoding. -/
def BinFmt.signBit (f : BinFmt) : Nat := 2 ^ (f.ew + f.fw)
/-- Magnitude encoding of the infinity, and of the largest finite number (R145). -/
def BinFmt.infEnc (f : BinFmt) : Nat := (2 ^ f.ew - 1) * 2 ^ f.fw
def BinFmt.maxEnc (f : BinFmt) : Nat :=
  if f.hasInf then f.infEnc - 1 else match f.nan with
    | .e4m3 => 2 ^ (f.ew + f.fw) - 2
    | _ => 2 ^ (f.ew + f.fw) - 1
/-- Canonical NaN (R145); formats without one have none. -/
def BinFmt.canonNan (f : BinFmt) : Option Nat :=
  match f.nan with
  | .none => none
  | .ieee => some (f.infEnc + 2 ^ (f.fw - 1))
  | .e4m3 => some (2 ^ (f.ew + f.fw) - 1)

/-- The scalar formats. -/
def FpFmt.bin : FpFmt → BinFmt
  | .f64 => binF64 | .f32 => binF32 | .f16 => binF16 | .bf16 => binBF16

/-- The value of an encoding (R146). Signalling only in the four scalar formats. -/
def BinFmt.decode (f : BinFmt) (bits : Nat) : FVal :=
  let neg := decide (bits / f.signBit % 2 = 1)
  let mag := bits % f.signBit
  let e := mag / 2 ^ f.fw
  let m := mag % 2 ^ f.fw
  if f.hasInf && mag == f.infEnc then .inf neg
  else if f.hasInf && decide (f.infEnc < mag) then .nan (decide (m < 2 ^ (f.fw - 1)) && f != binE5M2)
  else if f.nan == .e4m3 && mag == 2 ^ (f.ew + f.fw) - 1 then .nan false
  else if mag = 0 then .zero neg
  else if e = 0 then .num neg m (f.emin - f.fw)
  else .num neg (2 ^ f.fw + m) (e - f.bias - f.fw)

/-- The number of bits of a natural number. -/
def bitLen (n : Nat) : Nat := if n = 0 then 0 else Nat.log2 n + 1

/-- RoundInt of ± m × 2^(-sh), with `sticky` for a part below the last bit: the integer's magnitude, and whether it
differs (R154). -/
def roundMag (m : Nat) (sh : Int) (sticky : Bool) (rm : RMode) (neg : Bool) : Nat × Bool :=
  if sh ≤ 0 then
    let n := m * 2 ^ (-sh).toNat
    if !sticky then (n, false)
    else (if (rm = .rup ∧ !neg) ∨ (rm = .rdn ∧ neg) then n + 1 else n, true)
  else
    let s := min sh.toNat (bitLen m + 2)
    let q := m / 2 ^ s
    let r := m % 2 ^ s
    let half := 2 ^ (s - 1)
    if r = 0 ∧ sticky = false then (q, false)
    else
      let up := match rm with
        | .rne => decide (half < r) || (decide (r = half) && (sticky || decide (q % 2 = 1)))
        | .rna => decide (half ≤ r)
        | .rz => false
        | .rdn => neg
        | .rup => !neg
      (if up then q + 1 else q, true)

/-- A rounded encoding with its flags. -/
structure FRes where
  bits : Nat
  flags : Flags := 0
  deriving DecidableEq, Repr

/-- Put the sign before a magnitude encoding. -/
def BinFmt.signed (f : BinFmt) (neg : Bool) (mag : Nat) : Nat := if neg then f.signBit + mag else mag

/-- Overflow (R155): the magnitude encoding. -/
def BinFmt.overflow (f : BinFmt) (neg : Bool) (rm : RMode) : Nat :=
  if f.hasInf then match rm with
    | .rne | .rna => f.infEnc
    | .rz => f.maxEnc
    | .rdn => if neg then f.infEnc else f.maxEnc
    | .rup => if neg then f.maxEnc else f.infEnc
  else f.maxEnc

/-- RoundTo into a floating-point format (R154), of a value whose magnitude may have a sticky part. -/
def BinFmt.round (f : BinFmt) (rm : RMode) (v : FVal) (sticky : Bool := false) : FRes :=
  match v with
  | .nan _ => match f.canonNan with
    | some n => ⟨n, 0⟩
    | none => ⟨0, flagNV⟩
  | .inf neg => if f.hasInf then ⟨f.signed neg f.infEnc, 0⟩ else ⟨f.signed neg f.maxEnc, flagOF ||| flagNX⟩
  | .zero neg => ⟨f.signed neg 0, 0⟩
  | .num neg m x =>
    let e : Int := bitLen m - 1 + x
    let q := max e f.emin - (f.prec : Int) + 1
    if e > 2 ^ (f.ew - 1) + 2 then ⟨f.signed neg (f.overflow neg rm), flagOF ||| flagNX⟩
    else
      let (n, nx) := roundMag m (q - x) sticky rm neg
      let enc := ((q - (f.emin - (f.prec : Int) + 1)).toNat) * 2 ^ f.fw + n
      if f.maxEnc < enc then ⟨f.signed neg (f.overflow neg rm), flagOF ||| flagNX⟩
      else
        let (u, _) := roundMag m (e - (f.prec : Int) + 1 - x) sticky rm neg
        let tiny := decide (e < f.emin - 1) || (decide (e = f.emin - 1) && decide (u < 2 ^ f.prec))
        ⟨f.signed neg enc, (if nx then flagNX else 0) ||| (if nx && tiny then flagUF else 0)⟩

/-- An integer as a value. -/
def FVal.ofInt (n : Int) : FVal := if n = 0 then .zero false else .num (decide (n < 0)) n.natAbs 0

/-- RoundTo into an integer range (R154): the integer and its flags. -/
def roundToInt (lo hi : Int) (rm : RMode) (v : FVal) : Int × Flags :=
  match v with
  | .nan _ => (0, flagNV)
  | .inf neg => (if neg then lo else hi, flagNV)
  | .zero _ => (0, 0)
  | .num neg m e =>
    if (bitLen m : Int) + e > 70 then (if neg then lo else hi, flagNV)
    else
      let (n, nx) := roundMag m (-e) false rm neg
      let z : Int := if neg then -(n : Int) else n
      if z > hi then (hi, flagNV) else if z < lo then (lo, flagNV) else (z, if nx then flagNX else 0)

def FVal.isNan : FVal → Bool
  | .nan _ => true | _ => false
def FVal.isSig : FVal → Bool
  | .nan s => s | _ => false
def FVal.isNeg : FVal → Bool
  | .nan _ => false | .inf n => n | .zero n => n | .num n _ _ => n
def FVal.isZero : FVal → Bool
  | .zero _ => true | _ => false
def FVal.neg : FVal → FVal
  | .nan s => .nan s | .inf n => .inf (!n) | .zero n => .zero (!n) | .num n m e => .num (!n) m e

/-- NV of signalling NaN operands (R156). -/
def sigFlags (vs : List FVal) : Flags := if vs.any FVal.isSig then flagNV else 0

/-- A signed magnitude scaled to a lower exponent. -/
def scaled (neg : Bool) (m : Nat) (e lo : Int) : Int :=
  let n : Int := m * 2 ^ (e - lo).toNat
  if neg then -n else n

/-- The sign of an exact zero sum that is no sum of equal-signed zeros (R161). -/
def zeroSign (rm : RMode) : Bool := rm == .rdn

/-- Exact sum of two numbers, with the sign rule of R161. -/
def addVal (rm : RMode) (a b : FVal) : FVal × Flags :=
  match a, b with
  | .nan _, _ => (.nan false, 0)
  | _, .nan _ => (.nan false, 0)
  | .inf x, .inf y => if x = y then (.inf x, 0) else (.nan false, flagNV)
  | .inf x, _ => (.inf x, 0)
  | _, .inf y => (.inf y, 0)
  | .zero x, .zero y => (.zero (if x = y then x else zeroSign rm), 0)
  | .zero _, .num n m e => (.num n m e, 0)
  | .num n m e, .zero _ => (.num n m e, 0)
  | .num n m e, .num n' m' e' =>
    let lo := min e e'
    let z := scaled n m e lo + scaled n' m' e' lo
    (if z = 0 then .zero (zeroSign rm) else .num (decide (z < 0)) z.natAbs lo, 0)

/-- Exact product. -/
def mulVal (a b : FVal) : FVal × Flags :=
  match a, b with
  | .nan _, _ => (.nan false, 0)
  | _, .nan _ => (.nan false, 0)
  | .inf _, .zero _ => (.nan false, flagNV)
  | .zero _, .inf _ => (.nan false, flagNV)
  | .inf x, b => (.inf (x != b.isNeg), 0)
  | a, .inf y => (.inf (a.isNeg != y), 0)
  | .zero x, b => (.zero (x != b.isNeg), 0)
  | a, .zero y => (.zero (a.isNeg != y), 0)
  | .num n m e, .num n' m' e' => (.num (n != n') (m * m') (e + e'), 0)

/-! ## Vector operations (R156, R161, R162) -/

/-- Round an exact result that may carry flags. -/
def BinFmt.fin (f : BinFmt) (rm : RMode) (ops : List FVal) (r : FVal × Flags) (sticky : Bool := false) : FRes :=
  let x := f.round rm r.1 sticky
  ⟨x.bits, x.flags ||| r.2 ||| sigFlags ops⟩

def fAdd (f : BinFmt) (rm : RMode) (a b : FVal) : FRes := f.fin rm [a, b] (addVal rm a b)
def fSub (f : BinFmt) (rm : RMode) (a b : FVal) : FRes := f.fin rm [a, b] (addVal rm a b.neg)
def fMul (f : BinFmt) (rm : RMode) (a b : FVal) : FRes := f.fin rm [a, b] (mulVal a b)

/-- Fused multiply-add, rounded once. -/
def fFma (f : BinFmt) (rm : RMode) (a b c : FVal) : FRes :=
  let p := mulVal a b
  let r := addVal rm p.1 c
  f.fin rm [a, b, c] (r.1, p.2 ||| r.2)

/-- Division: the quotient to two bits past the precision, the remainder as sticky. -/
def fDiv (f : BinFmt) (rm : RMode) (a b : FVal) : FRes :=
  match a, b with
  | .nan _, _ => f.fin rm [a, b] (.nan false, 0)
  | _, .nan _ => f.fin rm [a, b] (.nan false, 0)
  | .inf _, .inf _ => f.fin rm [] (.nan false, flagNV)
  | .zero _, .zero _ => f.fin rm [] (.nan false, flagNV)
  | .inf x, b => f.fin rm [] (.inf (x != b.isNeg), 0)
  | a, .inf y => f.fin rm [] (.zero (a.isNeg != y), 0)
  | .zero x, b => f.fin rm [] (.zero (x != b.isNeg), 0)
  | .num n _ _, .zero y => f.fin rm [] (.inf (n != y), flagDZ)
  | .num n m e, .num n' m' e' =>
    let k := f.prec + 3 + bitLen m' - bitLen m
    let q := m * 2 ^ k / m'
    f.fin rm [] (.num (n != n') q (e - e' - k), 0) (m * 2 ^ k % m' != 0)

/-- 1 ÷ A. -/
def fRcp (f : BinFmt) (rm : RMode) (a : FVal) : FRes := fDiv f rm (.num false 1 0) a

/-- floor of the square root, bit by bit. -/
def isqrtAux (n : Nat) : Nat → Nat → Nat
  | 0, r => if (r + 1) * (r + 1) ≤ n then r + 1 else r
  | k + 1, r => isqrtAux n k (if (r + 2 ^ (k + 1)) * (r + 2 ^ (k + 1)) ≤ n then r + 2 ^ (k + 1) else r)
def isqrt (n : Nat) : Nat := isqrtAux n (bitLen n / 2) 0

def fSqrt (f : BinFmt) (rm : RMode) (a : FVal) : FRes :=
  match a with
  | .nan _ => f.fin rm [a] (.nan false, 0)
  | .zero x => f.fin rm [] (.zero x, 0)
  | .inf false => f.fin rm [] (.inf false, 0)
  | .inf true => f.fin rm [] (.nan false, flagNV)
  | .num true _ _ => f.fin rm [] (.nan false, flagNV)
  | .num false m e =>
    let k0 := 2 * (f.prec + 3)
    let k := if (e - k0) % 2 = 0 then k0 else k0 + 1
    let n := m * 2 ^ k
    let r := isqrt n
    f.fin rm [] (.num false r ((e - k) / 2), 0) (r * r != n)

/-- 1 ÷ √A. -/
def fRsq (f : BinFmt) (rm : RMode) (a : FVal) : FRes :=
  match a with
  | .nan _ => f.fin rm [a] (.nan false, 0)
  | .zero x => f.fin rm [] (.inf x, flagDZ)
  | .inf false => f.fin rm [] (.zero false, 0)
  | .inf true => f.fin rm [] (.nan false, flagNV)
  | .num true _ _ => f.fin rm [] (.nan false, flagNV)
  | .num false m e =>
    let m' := if e % 2 = 0 then m else 2 * m
    let e' := if e % 2 = 0 then e else e - 1
    let j := f.prec + 3 + bitLen m' / 2 + 1
    let r := isqrt (2 ^ (2 * j) / m')
    f.fin rm [] (.num false r (-(j : Int) - e' / 2), 0) (r * r * m' != 2 ^ (2 * j))

/-- Fixed-point fraction bits of the two transcendental operations (UNVERIFIED, entry 13). -/
def fixBits : Nat := 240

/-- Σ z^(2k+1) ÷ (2k+1) in fixed point: `t` is the current power. -/
def atanhSum (z2 : Nat) : Nat → Nat → Nat → Nat → Nat
  | 0, _, _, acc => acc
  | n + 1, k, t, acc => atanhSum z2 n (k + 2) (t * z2 / 2 ^ fixBits) (acc + t / k)

/-- ln 2 in fixed point. -/
def ln2Fix : Nat :=
  let z := 2 ^ fixBits / 3
  2 * atanhSum (z * z / 2 ^ fixBits) 80 1 z 0

/-- e^x in fixed point for 0 ≤ x < 1. -/
def expSum (x : Nat) : Nat → Nat → Nat → Nat → Nat
  | 0, _, _, acc => acc
  | n + 1, k, t, acc => expSum x n (k + 1) (t * x / 2 ^ fixBits / k) (acc + t)

/-- Round a positive fixed-point approximation that is never exact (R161, UNVERIFIED, entry 13). -/
def roundFix (f : BinFmt) (rm : RMode) (neg : Bool) (v : Nat) (scale : Int) : FRes :=
  let drop := bitLen v - (f.prec + 40)
  f.fin rm [] (.num neg (v / 2 ^ drop) (scale + drop), 0) true

/-- 2^A, correctly rounded. -/
def fExp2 (f : BinFmt) (rm : RMode) (a : FVal) : FRes :=
  match a with
  | .nan _ => f.fin rm [a] (.nan false, 0)
  | .zero _ => f.fin rm [] (.num false 1 0, 0)
  | .inf false => f.fin rm [] (.inf false, 0)
  | .inf true => f.fin rm [] (.zero false, 0)
  | .num neg m e =>
    if (bitLen m : Int) + e > 20 then f.fin rm [] (.num false 1 (if neg then -(2 ^ 20) else 2 ^ 20), 0)
    else
      -- A in fixed point, rounded down; a part below the last place only moves the sticky bit
      let z := scaled neg m (max e (-(fixBits : Int))) (-(fixBits : Int))
      let z := if e < -(fixBits : Int) then (if neg then -1 else 0) else z
      let n := z / 2 ^ fixBits
      let fr := (z % 2 ^ fixBits).toNat
      if fr = 0 ∧ e ≥ -(fixBits : Int) then f.fin rm [] (.num false 1 n, 0)
      else roundFix f rm false (expSum (fr * ln2Fix / 2 ^ fixBits) 80 1 (2 ^ fixBits) 0) (n - fixBits)

/-- log2 A, correctly rounded. -/
def fLog2 (f : BinFmt) (rm : RMode) (a : FVal) : FRes :=
  match a with
  | .nan _ => f.fin rm [a] (.nan false, 0)
  | .zero _ => f.fin rm [] (.inf true, flagDZ)
  | .inf false => f.fin rm [] (.inf false, 0)
  | .inf true => f.fin rm [] (.nan false, flagNV)
  | .num true _ _ => f.fin rm [] (.nan false, flagNV)
  | .num false m e =>
    let n : Int := bitLen m - 1 + e
    let one := 2 ^ (bitLen m - 1)
    if m = one then f.fin rm [] (FVal.ofInt n, 0)
    else
      -- log2 (m / one) = 2 atanh ((m - one) / (m + one)) / ln 2, between 0 and 1
      let z := (m - one) * 2 ^ fixBits / (m + one)
      let l := 2 * atanhSum (z * z / 2 ^ fixBits) 80 1 z 0 * 2 ^ fixBits / ln2Fix
      let t : Int := n * 2 ^ fixBits + l
      roundFix f rm (decide (t < 0)) (if t < 0 then t.natAbs - 1 else t.natAbs) (-(fixBits : Int))

/-- Is `a` below `b`, for values that are no NaN (-0 counts as equal to +0)? -/
def ltVal (a b : FVal) : Bool :=
  match a, b with
  | .nan _, _ => false
  | _, .nan _ => false
  | .inf x, .inf y => x && !y
  | .inf x, _ => x
  | _, .inf y => !y
  | .zero _, .zero _ => false
  | .zero _, .num n _ _ => !n
  | .num n _ _, .zero _ => n
  | .num n m e, .num n' m' e' => decide (scaled n m e (min e e') < scaled n' m' e' (min e e'))

/-- Numerical equality of values that are no NaN. -/
def eqVal (a b : FVal) : Bool := !a.isNan && !b.isNan && !ltVal a b && !ltVal b a

/-- IEEE minimum and maximum (R162), as the value. -/
def minVal (a b : FVal) : FVal :=
  if a.isNan || b.isNan then .nan false
  else if ltVal a b then a else if ltVal b a then b else if a.isNeg then a else b
def maxVal (a b : FVal) : FVal :=
  if a.isNan || b.isNan then .nan false
  else if ltVal a b then b else if ltVal b a then a else if a.isNeg then b else a
def fMin (f : BinFmt) (a b : FVal) : FRes := f.fin .rne [a, b] (minVal a b, 0)
def fMax (f : BinFmt) (a b : FVal) : FRes := f.fin .rne [a, b] (maxVal a b, 0)

/-- `fround` (R218). -/
def fRound (f : BinFmt) (rm : RMode) (a : FVal) : FRes :=
  match a with
  | .num neg m e =>
    let (n, nx) := roundMag m (-e) false rm neg
    let r := f.round rm (if n = 0 then .zero neg else .num neg n 0)
    ⟨r.bits, if nx then flagNX else 0⟩
  | _ => f.fin rm [a] (if a.isNan then .nan false else a, 0)

/-- `fscale` (R218). -/
def fScale (f : BinFmt) (rm : RMode) (a : FVal) (n : Int) : FRes :=
  match a with
  | .num neg m e => f.fin rm [] (.num neg m (e + n), 0)
  | _ => f.fin rm [a] (if a.isNan then .nan false else a, 0)

/-- A sum of three values with one rounding (R218): zeros of one sign keep it. -/
def fDot (f : BinFmt) (rm : RMode) (a0 b0 a1 b1 c : FVal) : FRes :=
  let p := mulVal a0 b0
  let q := mulVal a1 b1
  let s := addVal rm p.1 q.1
  let t := addVal rm s.1 c
  let z := match t.1 with
    | .zero _ => if p.1.isZero && q.1.isZero && c.isZero && p.1.isNeg == q.1.isNeg && q.1.isNeg == c.isNeg
        then .zero c.isNeg else .zero (zeroSign rm)
    | v => v
  f.fin rm [a0, b0, a1, b1, c] (z, p.2 ||| q.2 ||| s.2 ||| t.2)

/-- The bit number of `fclass` (R217). -/
def fClass (f : BinFmt) (bits : Nat) : Nat :=
  match f.decode bits with
  | .nan true => 8
  | .nan false => 9
  | .inf true => 0
  | .inf false => 7
  | .zero true => 3
  | .zero false => 4
  | .num neg _ _ =>
    let sub := decide (bits % f.signBit / 2 ^ f.fw = 0)
    if neg then (if sub then 2 else 1) else if sub then 5 else 6

/-! ## Integer and narrow formats (R141, R147, R149, R152) -/

/-- Width of an element in a packed array, 6-bit elements in a byte (R141, R144). -/
def Fmt.elemBits : Fmt → Nat
  | .word | .i64 | .u64 | .f64 => 64
  | .i32 | .u32 | .f32 => 32
  | .i16 | .u16 | .f16 | .bf16 => 16
  | .i8 | .u8 | .e4m3 | .e5m2 | .e3m2 | .e2m3 | .b8f | .b8i | .scale => 8
  | .e2m1 | .i4 | .u4 | .b4 => 4
  | .l2 => 2
  | .l1 => 1

/-- Bits of an element's code: 6-bit elements leave bits [7:6] of their byte alone (R144). -/
def Fmt.codeBits : Fmt → Nat
  | .e3m2 | .e2m3 => 6
  | f => f.elemBits

/-- Signed or unsigned width of the integer formats (R147). -/
def Fmt.intRange : Fmt → Option (Int × Int)
  | .i8 => some (-2 ^ 7, 2 ^ 7 - 1) | .i16 => some (-2 ^ 15, 2 ^ 15 - 1) | .i32 => some (-2 ^ 31, 2 ^ 31 - 1)
  | .i64 => some (-2 ^ 63, 2 ^ 63 - 1) | .u8 => some (0, 2 ^ 8 - 1) | .u16 => some (0, 2 ^ 16 - 1)
  | .u32 => some (0, 2 ^ 32 - 1) | .u64 => some (0, 2 ^ 64 - 1) | .i4 => some (-8, 7) | .u4 => some (0, 15)
  | _ => none

/-- The binary format of a float format code. -/
def Fmt.bin : Fmt → Option BinFmt
  | .f64 => some binF64 | .f32 => some binF32 | .f16 => some binF16 | .bf16 => some binBF16 | .e5m2 => some binE5M2
  | .e4m3 => some binE4M3 | .e3m2 => some binE3M2 | .e2m3 => some binE2M3 | .e2m1 => some binE2M1
  | .b8f => some binE4M3 | _ => none

/-- A two's-complement number of `n` bits. -/
def signedOf (n v : Nat) : Int := if v % 2 ^ n < 2 ^ (n - 1) then v % 2 ^ n else (v % 2 ^ n : Nat) - 2 ^ n

/-- Magnitudes of the B4 types 01, 10 and 11 in eighths (R149). -/
def b4Eighths (ty code : Nat) : Nat :=
  (match ty with
    | 1 => [0, 4, 8, 12, 16, 24, 32, 48]
    | 2 => [0, 1, 2, 4, 8, 16, 32, 64]
    | _ => [0, 8, 16, 24, 32, 48, 64, 96]).getD (code % 8) 0

/-- The unscaled value of a B4 code under a block type (R149). -/
def b4Value (ty code : Nat) : FVal :=
  if ty % 4 = 0 then FVal.ofInt (signedOf 4 code)
  else
    let m := b4Eighths (ty % 4) code
    let neg := decide (8 ≤ code % 16)
    if m = 0 then .zero neg else .num neg m (-3)

/-- The unscaled value of an element's bits (R146, R147, R149, R152); `ty` is the block type of B4. -/
def Fmt.value (f : Fmt) (ty bits : Nat) : FVal :=
  match f with
  | .i8 | .b8i => FVal.ofInt (signedOf 8 bits)
  | .i16 => FVal.ofInt (signedOf 16 bits)
  | .i32 => FVal.ofInt (signedOf 32 bits)
  | .i64 => FVal.ofInt (signedOf 64 bits)
  | .i4 => FVal.ofInt (signedOf 4 bits)
  | .u8 | .scale => FVal.ofInt (bits % 2 ^ 8 : Nat)
  | .u16 => FVal.ofInt (bits % 2 ^ 16 : Nat)
  | .u32 => FVal.ofInt (bits % 2 ^ 32 : Nat)
  | .u64 | .word => FVal.ofInt (bits % 2 ^ 64 : Nat)
  | .u4 => FVal.ofInt (bits % 16 : Nat)
  | .b4 => b4Value ty bits
  | .l1 => FVal.ofInt (if bits % 2 = 0 then -1 else 1)
  | .l2 => FVal.ofInt (match bits % 4 with | 1 => 1 | 2 => -1 | _ => 0)
  | .f64 => binF64.decode (bits % 2 ^ 64)
  | .f32 => binF32.decode (bits % 2 ^ 32)
  | .f16 => binF16.decode (bits % 2 ^ 16)
  | .bf16 => binBF16.decode (bits % 2 ^ 16)
  | .e5m2 => binE5M2.decode (bits % 2 ^ 8)
  | .e4m3 | .b8f => binE4M3.decode (bits % 2 ^ 8)
  | .e3m2 => binE3M2.decode (bits % 2 ^ 6)
  | .e2m3 => binE2M3.decode (bits % 2 ^ 6)
  | .e2m1 => binE2M1.decode (bits % 2 ^ 4)

/-- RoundTo a target format of `cvt`, `pack` or `accmv` (R154): the encoding's bits. -/
def Fmt.round (f : Fmt) (rm : RMode) (v : FVal) : FRes :=
  match f.intRange with
  | some (lo, hi) =>
    let (n, fl) := roundToInt lo hi rm v
    ⟨(n % 2 ^ f.elemBits).toNat, fl⟩
  | none => match f.bin with
    | some b => b.round rm v
    | none => ⟨0, 0⟩

/-- An integer format's result in a register: sign- or zero-extended (R141). -/
def Fmt.extend (f : Fmt) (bits : Nat) : Nat :=
  match f with
  | .i8 | .i16 | .i32 | .i64 | .i4 => (signedOf f.elemBits bits % 2 ^ 64).toNat
  | _ => bits

/-- The tag an element is delivered with (R141). -/
def Fmt.tag : Fmt → Tag
  | .i8 | .i16 | .i32 | .i64 | .u8 | .u16 | .u32 | .u64 | .i4 | .u4 => .int
  | .f16 => .f16 | .bf16 => .bf16 | .f32 => .f32 | .f64 => .f64
  | _ => .raw

/-- ConvertEF (R157) into a float format: encoding, new error as F32 bits, flags. -/
def convertEF (f : BinFmt) (x e : FVal) : FRes × Nat :=
  let special := match x, e with
    | .nan _, _ | _, .nan _ | .inf _, _ | _, .inf _ => true
    | _, _ => false
  let t := addVal .rne x e
  let y := f.round .rne t.1
  let fl := y.flags ||| t.2 ||| sigFlags [x, e]
  if special || y.flags &&& flagOF != 0 then (⟨y.bits, fl⟩, 0)
  else
    let d := (addVal .rne t.1 (f.decode y.bits).neg).1
    (⟨y.bits, fl⟩, (binF32.round .rne (if d.isZero then .zero false else d)).bits)

/-! ## Block packing (R158) -/

/-- Scaling by a power of two, exactly. -/
def FVal.shift (v : FVal) (k : Int) : FVal :=
  match v with
  | .num n m e => .num n m (e + k)
  | v => v

/-- The magnitude of a value. -/
def FVal.abs : FVal → FVal
  | .nan s => .nan s | .inf _ => .inf false | .zero _ => .zero false | .num _ m e => .num false m e

/-- Tmax of a block-scaled format (R158). -/
def blockTmax (f : Fmt) (ty : Nat) : Nat :=
  match f with
  | .b4 => [7, 6, 8, 12].getD (ty % 4) 7
  | .b8f => 448
  | _ => 127

/-- EXP of a block (R158) and the flag it raises. -/
def blockExp (f : Fmt) (ty : Nat) (xs : List FVal) : Nat × Flags :=
  if xs.any FVal.isNan then (63, flagNV)
  else
    let a := xs.foldl (fun m x => maxVal m x.abs) (.zero false)
    match a with
    | .zero _ => (0, 0)
    | .inf _ => (62, flagOF)
    | a => (((List.range 63).find? fun (k : Nat) => !ltVal (.num false (blockTmax f ty) (Int.ofNat k - 32)) a).getD 62, 0)

/-- Nearest of a set of codes under a rounding mode (R158): `codes` in rising order of value. A value outside the range
takes the end code; RNE takes the tie's code with bit 0 clear, RNA the one away from zero. -/
def nearestCode (rm : RMode) (val : Nat → FVal) (z : FVal) : List Nat → Nat
  | [] => 0
  | [c] => c
  | c :: d :: rest =>
    if !ltVal (val c) z then c
    else if ltVal z (val d) then
      match rm with
      | .rdn => c
      | .rup => d
      | .rz => if z.isNeg then d else c
      | _ =>
        let down := (addVal .rne z (val c).neg).1
        let up := (addVal .rne (val d) z.neg).1
        if ltVal down up then c else if ltVal up down then d
        else if rm = .rna then (if z.isNeg then c else d)
        else if c % 2 = 0 then c else d
    else nearestCode rm val z (d :: rest)

/-- The value set of a block-scaled format in rising order of value (R158): zero once, as code 0. -/
def blockCodes (f : Fmt) (ty : Nat) : List Nat :=
  match f with
  | .b4 => if ty % 4 = 0 then (List.range 8).map (· + 8) ++ List.range 8
      else (List.range 7).map (15 - ·) ++ List.range 8
  | .b8f => (List.range 126).map (254 - ·) ++ List.range 127
  | _ => (List.range 128).map (· + 128) ++ List.range 128

/-- PackBlock (R158): scale byte, element codes, flags. -/
def packBlock (f : Fmt) (ty : Nat) (rm : RMode) (xs : List FVal) : Nat × List Nat × Flags :=
  let (exp, fl) := blockExp f ty xs
  let ty' := if f = .b4 then ty % 4 else 0
  let code (x : FVal) : Nat :=
    if exp = 63 then 0
    else
      let z := x.shift (32 - (exp : Int))
      match z with
      | .zero _ => 0
      | z =>
        let cs := blockCodes f ty
        match z with
        | .inf true => cs.headD 0
        | .inf false => cs.getLastD 0
        | z => let c := nearestCode rm (f.value ty') z cs
               if (f.value ty' c).isZero then 0 else c
  (ty' * 64 + exp, xs.map code, fl)

/-- The value of a block-scaled element under its scale byte (R148-R151). -/
def scaledValue (f : Fmt) (scale bits : Nat) : FVal :=
  if scale % 64 = 63 then .nan false
  else (f.value (if f = .b4 then scale / 64 % 4 else 0) bits).shift ((scale % 64 : Nat) - 32)

/-! ## The matrix sum (R163-R166) -/

/-- Split of an F32 number into three pieces of 8 significant bits (R165), rounding toward zero: magnitude and exponent. -/
def split8 (m : Nat) (e : Int) : List (Nat × Int) :=
  let b1 := bitLen m - 8
  let a1 := m / 2 ^ b1
  let r1 := m % 2 ^ b1
  let b2 := bitLen r1 - 8
  let a2 := r1 / 2 ^ b2
  let r2 := r1 % 2 ^ b2
  [(a1, e + b1), (a2, e + b2), (r2, e)]

/-- The six partial products that F32 operands form (R165). -/
def f32Product (a b : FVal) : List FVal :=
  match a, b with
  | .num n m e, .num n' m' e' =>
    match split8 m e, split8 m' e' with
    | [a1, a2, a3], [b1, b2, b3] =>
      ([(a1, b1), (a1, b2), (a2, b1), (a1, b3), (a2, b2), (a3, b1)]).filterMap fun (x, y) =>
        if x.1 * y.1 = 0 then none else some (.num (n != n') (x.1 * y.1) (x.2 + y.2))
    | _, _ => []
  | _, _ => [(mulVal a b).1]

/-- ExactSum (R164). -/
def exactSum (ts : List FVal) : FVal :=
  if ts.any FVal.isNan then .nan false
  else if ts.contains (.inf false) && ts.contains (.inf true) then .nan false
  else if ts.contains (.inf false) then .inf false
  else if ts.contains (.inf true) then .inf true
  else if ts.all fun t => t == .zero true then .zero true
  else match (ts.foldl (fun acc t => (addVal .rne acc t).1) (.zero false)) with
    | .zero _ => .zero false
    | v => v

/-- One step of the accumulator: a group's sum rounded, then added (R163, R164). Flags NV and OF only (R160): NV where a NaN comes
about from operands that are none, `invalid` saying that a product of the group does. A signalling NaN operand raises no flag here:
R160 is followed for the matrix path where R156 says otherwise (DEDUCED, entry 54). -/
def accStep (acc : Nat) (nanIn invalid : Bool) (terms : List FVal) : Nat × Flags :=
  if terms.isEmpty then (acc, 0)
  else
    let s := exactSum terms
    let gs := binF32.round .rne s
    let a := binF32.decode acc
    let g := binF32.decode gs.bits
    let t := addVal .rne a g
    let r := binF32.round .rne t.1
    let fresh := invalid || (s.isNan && !nanIn) || (t.1.isNan && !a.isNan && !g.isNan)
    (r.bits, (if fresh then flagNV else 0) ||| ((gs.flags ||| r.flags) &&& flagOF))

end Sys2Proof
end

