-- ==== Sys2Proof/Config.lean ====
section
/-! DEFINITION. What the part fixes (sizes and limits of the spec) and the free values: what the spec leaves open is an
opaque constant applied to the counter `State.freeCtr` (a measured value: to its address and the clock), so nothing in Lean
can know it. -/

namespace Sys2Proof.Config

/-! ## Free values (no body: a statement that holds of them holds of every choice) -/

/-- Whether an open choice between two allowed outcomes falls one way or the other (DESIGN CHOICE, entry 4). -/
opaque freeBool : Nat → Bool

/-- A value the spec does not state, as 64 bits (DESIGN CHOICE, entry 4). -/
opaque freeWord : Nat → BitVec 64

/-- The DIGEST and other contents of the firmware image the part ships with are not in the spec (DESIGN CHOICE, entry 5). -/
opaque shippedDigest : BitVec 256

/-- The part's stepping (R421). -/
opaque stepping : BitVec 32

/-- Result and DETAIL of the finish record of a boot step by step and unit: step-specific (R414). -/
opaque bootResult : Nat → Nat → BitVec 7
opaque bootDetail : Nat → Nat → BitVec 64

/-- What a register shows that only measures or logs (its address, CLOCK): the spec gives no value (DESIGN CHOICE, entry 33). -/
opaque measured : Nat → BitVec 64 → BitVec 64

/-- TRBASE of a die's trace ring and the log2 of TRSIZE above 10 (R431), which the spec lets nobody write (DESIGN CHOICE, entry 33). -/
opaque traceBase : Nat → BitVec 64
opaque traceLog : Nat → Nat

/-- Which die writes its boot step record next: by boot, step and how many records are still to come (R413, DESIGN CHOICE, entry 20). -/
opaque bootOrder : Nat → Nat → Nat → Nat

/-! ## Sizes and limits -/

/-- Threads of a crew (R48). -/
def lanes : Nat := 32
/-- Bundles of an ordinary chunk (R74). -/
def chunkBundles : Nat := 4096
/-- Bundles of a chunk under squash escalation (R84). -/
def escalatedBundles : Nat := 64
/-- Store-buffer lines of one chunk and of one core (R74, R14). -/
def chunkLines : Nat := 64
def coreLines : Nat := 512
/-- Checkpointed registers of one chunk and of one quadrant's pool (R74, R14). -/
def chunkCheckpoints : Nat := 32
def poolCheckpoints : Nat := 192
/-- Bits that may be set in a read or a write signature (R74). -/
def signatureBits : Nat := 640
/-- Bytes of a core's scratchpad (R14, R104). -/
def scratchBytes : Nat := 0xC0000
/-- Scale memory bytes of a quadrant (R132). -/
def scaleBytes : Nat := 0x4000
/-- Operand-buffer bytes of a quadrant (R129). -/
def obufBytes : Nat := 0x20000
/-- Reservations a quadrant holds at most (R129). -/
def reservations : Nat := 16
/-- Commands an engine holds at most (R299). -/
def engineDepth : Nat := 64
/-- How many bundles may issue in a row while an engine's next event stands ready: the spec fixes no order between them (R318,
R320), only that neither waits for ever (DESIGN CHOICE, entry 2). -/
opaque enginePatience : Nat
/-- Entries of a die's lift (R70). -/
def liftEntries : Nat := 65536
/-- Register rows of a quadrant per lane and crew slots of a quadrant (R334). -/
def quadRows : Nat := 1152
def quadSlots : Nat := 12
/-- Macro slots of a core (R14). -/
def macroSlots : Nat := 256
/-- Records of a die's device-launch queue (R305). -/
def lnchQueue : Nat := 256
/-- Long-latency results one thread may have pending (R325). -/
def pendingMax : Nat := 8
/-- Forwarding hops a Resolve follows (R101). -/
def hopsMax : Nat := 4
/-- Translations cached per core, cluster and die (R393). -/
def tlbCore : Nat := 256
def tlbCluster : Nat := 2048
def tlbDie : Nat := 8192
/-- Bytes of a core's instruction cache, of an L1 slice, of a header-cache partition, of a cluster's fetch-unit cache, of an L2
slice and of a die's tag cache (R14). -/
def codeCacheBytes : Nat := 0x20000
def l1SliceBytes : Nat := 0x40000
def headerPartBytes : Nat := 0x8000
def fetchCacheBytes : Nat := 0x80000
def l2SliceBytes : Nat := 0x400000
def tagCacheBytes : Nat := 0x800000
/-- Entries of a home slice's fault queue (R399). -/
def faultQueue : Nat := 64
/-- Control processors of the package and the bytes of their private SRAM (R21). -/
def controlProcessors : Nat := 8
def controlSramBytes : Nat := 0x400000
/-- Cycles of a quantum of 1 µs at the 1.6 GHz core clock (R4, R382). -/
def cyclesPerMicrosecond : Nat := 1600
/-- Cycles a regrouping entry waits before it fires (R61). -/
def regroupCycles : Nat := 64
/-- Cycles a four's partner waits in debug mode (R59). -/
def fourWaitCycles : Nat := 2 ^ 20
/-- The physical address of the coherent window and its length (R367). -/
def windowBase : Nat := 0xF000000000
def windowBytes : Nat := 0x400000
/-- The feature mask of the FV-900: bits 0-11 (R354). -/
def featureMask : Nat := 0xFFF

end Sys2Proof.Config
end

