-- ==== Sys2Proof/Machine/State.lean ====
section
/-! DEFINITION. The state of the FV-900 package as plain data: crews with their chunks, teams, grids, memory, the stores
beside the arrays, engines, the lift, contexts, host queues, faults, links, boot. Sparse data are lists of key and value
with keys rising; what an unlisted key reads as is said at each field. -/

namespace Sys2Proof.Machine

open Sys2Proof

/-! ## Threads, chunks and crews -/

/-- Thread states (R53). -/
inductive ThreadState where
  | active | helper | parked | regroup | exited
  deriving DecidableEq, Repr

/-- What one thread owns beside its v registers (R49, R193, R360). -/
structure Thread where
  pc : BitVec 64 := 0
  st : ThreadState := .exited
  region : Bool := false
  mstep : Nat := 0
  trapInfo : BitVec 64 := 0
  deriving DecidableEq, Repr

/-- What a squash restores (R76, R83): threads, v registers, uniform registers, the shadowed special registers, the
spill format tags. `vregs` has key 32 × field + lane and an unlisted key is a free register; `sregs` has key 0-30 and an
unlisted one holds UNDEF; `spillFmt` has the field as key and 0 when unlisted. -/
structure Arch where
  threads : List Thread := List.replicate 32 {}
  vregs : List (Nat × TWord) := []
  sregs : List (Nat × TWord) := []
  xi : BitVec 64 := 0
  nbase : BitVec 64 := 0
  nlimit : BitVec 64 := 0
  fpflags : BitVec 64 := 0
  formatflag : BitVec 64 := 0
  spillFmt : List (Nat × Nat) := []
  /-- the match number of the crew's next matrix instruction (R59) -/
  matrixNo : Nat := 0
  /-- in a composite bundle: flags per lane for the home crews (R63), FPFLAGS in [4:0] and FMT in [5] -/
  laneFlags : List (Nat × BitVec 6) := []
  deriving DecidableEq, Repr

/-- A key of a hash region as the hash unit holds it: the word, its canonical form (R35) and the resolved address of a
REF, 0 for any other key (R119). -/
structure HKey where
  word : TWord
  canon : TWord
  addr : Nat
  deriving DecidableEq, Repr

/-- One lane of a `red`: where it applies, and its operand (R266). -/
structure RedRec where
  lane : Nat
  key : Nat
  x : BitVec 64
  deriving DecidableEq, Repr

/-- One lane of a `hacc`: its key and its operand (R274). -/
structure HaccRec where
  lane : Nat
  key : HKey
  x : TWord
  deriving DecidableEq, Repr

/-- A page: virtual base, size and page-table leaf (R390). -/
structure Page where
  base : Nat
  size : Nat
  leaf : BitVec 64
  deriving DecidableEq, Repr

/-- The deferred records of one `red` or one `hacc` instruction, in ascending lane order (R92, R266, R274). Those of `hacc` hold the
pages of the spill log as they were translated (R393). -/
inductive Deferred where
  | red (op : AtomOp) (ty : AtomTy) (tagged : Bool) (lanes : List RedRec)
  | hacc (op : HaccOp) (core : Nat) (pages : List Page) (lanes : List HaccRec)
  deriving DecidableEq, Repr

/-- A `prof` record that waits for its chunk's commit (R243). -/
structure ProfRec where
  clock : BitVec 64
  n : BitVec 16
  deriving DecidableEq, Repr

/-- Whether a chunk still takes bundles, or acquires grants (R80). `held` are the arbiters granted so far. -/
inductive ChunkPhase where
  | running
  | committing (needed held : List Nat)
  deriving DecidableEq, Repr

/-- A line of global memory that a chunk met, for the caches: was it an object's header, and does its page keep tags? -/
structure Met where
  line : Nat
  header : Bool := false
  tagged : Bool := false
  deriving DecidableEq, Repr

/-- A chunk (R74-R78): the state it restarts from, bundles issued, counted checkpoints, the store buffer's bytes and
tags, deferred records, the three signatures as rising lists of bit numbers, the arbiters it is registered with, the
translations it used, the lines it met since the caches last took them, the uniform registers it has written. -/
structure Chunk where
  start : Arch := {}
  bundles : Nat := 0
  ckpt : List Nat := []
  bytes : List (Nat × Byte) := []
  tags : List (Nat × Tag) := []
  recs : List Deferred := []
  rsig : List Nat := []
  wsig : List Nat := []
  dsig : List Nat := []
  arbs : List Nat := []
  pages : List (Nat × Nat) := []
  met : List Met := []
  sset : List Nat := []
  prof : List ProfRec := []
  phase : ChunkPhase := .running
  deriving DecidableEq, Repr

/-- A register write of a lane. -/
structure LaneWrite where
  lane : Nat
  field : Field
  word : TWord
  deriving DecidableEq, Repr

/-- The window of a long-latency result in one lane (R321, R322): the instruction that opened it (by the crew's bundle count),
its pending destination, and the instructions left in it. Until the result has arrived: the writes still to be made and
the flags. A write of a uniform register, or of a lane outside the bundle, stands in the window of every lane and is made
once. -/
structure Pending where
  lane : Nat
  opener : Nat
  dest : List Field
  writes : List LaneWrite
  flags : BitVec 5 := 0
  fmtFlag : Bool := false
  arrived : Bool := false
  left : Nat
  deriving DecidableEq, Repr

/-- Why a crew waits (R64), and what its wake needs. -/
inductive Wake where
  | queuePop (q core : Nat) (lanes : List Nat) (dest : Field)
  | queuePush (q core : Nat) (items : List (Nat × TWord))
  | tbar (id phase : Nat)
  | barrier (keys : List Nat)
  | sector (sectors : List Nat)
  | far (seqs : List Nat)
  | fence
  | four
  | obres
  | parked
  | engine
  | svcEvent
  | svcReply (ring last : Nat) (dest : Field) (lanes : List (Nat × Nat))
  | yielded
  | fault (number : Nat)
  | home
  deriving DecidableEq, Repr

/-- Where a crew is: waiting for its team, in its slot, saved off-core, or retired (R51, R53). -/
inductive Place where
  | waiting | resident | saved | retired
  deriving DecidableEq, Repr

/-- The word of a body's operation that `mcall` substituted, ready to execute: whether it is the body's last, the parameters
its last operation frees (R359), and whether the body has a last-use or index bit on a parameter (R190, R192). -/
structure Expansion where
  word : BitVec 64
  last : Bool
  frees : List Field
  illegal : Bool := false
  deriving DecidableEq, Repr

/-- A fatal trap whose chunk is committing (R45): trap code, lanes, PC, DETAIL of the failure record (R404). -/
structure Doom where
  code : Nat
  lanes : BitVec 64
  pc : BitVec 64
  detail : BitVec 64 := 0
  deriving DecidableEq, Repr

/-- A crew (R49): its place, what a squash restores, its chunk and what a squash leaves alone. A composite bundle of the
regrouping table is a crew whose `homes` names the home crew of each lane it took (R61, R62). -/
structure Crew where
  team : Nat := 0
  crewId : Nat := 0
  alloc : Nat := 24
  core : Nat := 0
  quad : Nat := 0
  slot : Nat := 0
  place : Place := .resident
  arch : Arch := {}
  chunk : Chunk := {}
  htab : BitVec 64 := 0
  svcq : BitVec 64 := 0
  hregion : BitVec 64 := 0
  chunkn : BitVec 64 := 0
  squashTotal : Nat := 0
  consec : Nat := 0
  clk0 : BitVec 64 := 0
  clk1 : BitVec 64 := 0
  pend : List Pending := []
  wake : Option Wake := none
  ticket : Nat := 0
  expansion : Option Expansion := none
  /-- registers (32 × field + lane) that an `mcall` frees once the result its last operation waits for has come (R359) -/
  lateFrees : List Nat := []
  /-- matrix instructions matched so far and the one the crew waits at (R59, R277) -/
  matched : Nat := 0
  mreq : Option Instr := none
  mwait : Nat := 0
  tokenAsked : Bool := false
  preempt : Bool := false
  /-- instructions that may still follow a `svc`, and what the crew will wait for (R238) -/
  svcLeft : Option (Nat × Wake) := none
  replies : List (Nat × TWord) := []
  homes : List (Nat × Nat) := []
  entry : Nat := 0
  readySince : Nat := 0
  inRound : Bool := false
  doom : Option Doom := none
  /-- where its record lies in the save area (offset, bytes), while it is saved (R406) -/
  saveAt : Option (Nat × Nat) := none
  deriving DecidableEq, Repr

/-! ## Teams and grids -/

/-- A reservation record (R129). -/
structure Resv where
  index : Nat
  team : Nat
  base : Nat
  size : Nat
  fmt : Fmt
  blen : Nat
  soff : Nat
  moff : Nat
  deriving DecidableEq, Repr

/-- A team barrier's open phase (R116). -/
structure TBar where
  id : Nat
  phase : Nat := 0
  count : Nat := 0
  arrived : Nat := 0
  deriving DecidableEq, Repr

/-- A queue binding (R108, R350). -/
structure QBind where
  q : Nat
  addr : Nat
  cap : Nat
  allow : Nat
  deriving DecidableEq, Repr

/-- An ACTION 1 push that waits for space (R115), or a DKIND 3 push (R378, `grid`). -/
structure QueuedPush where
  core : Nat
  q : Nat
  word : TWord
  grid : Bool := false
  deriving DecidableEq, Repr

/-- A team (R48-R52): the cores it occupies, its scratch window and hash pool on each (same base on every core), its
barriers. -/
structure Team where
  grid : Nat := 0
  linear : Nat := 0
  cores : List Nat := []
  window : Nat := 0
  pool : Nat := 0
  place : Place := .waiting
  published : Bool := false
  tbars : List TBar := []
  pushes : List QueuedPush := []
  launched : Nat := 0
  /-- while it is saved: where its record lies in the save area (offset, bytes), and its reservations by 4 × team core
  index + quadrant (R409, R410) -/
  saveAt : Option (Nat × Nat) := none
  saved : List (Nat × Resv) := []
  /-- it is launched again when it next becomes resident (R99) -/
  again : Bool := false
  /-- it has been launched again and issues once all its crews are resident (R51, R99) -/
  gathering : Bool := false
  /-- its gang has been asked to leave (R69) -/
  leaving : Bool := false
  /-- queue instances, core and number, whose CAP an event has found bad (R112) -/
  badQueues : List (Nat × Nat) := []
  deriving DecidableEq, Repr

/-- Where a grid came from: a queue command, or `lnch` of a crew on a core (R374, R305). -/
inductive Origin where
  | command (q k : Nat)
  | device (team core : Nat)
  deriving DecidableEq, Repr

/-- A body of the macro control store: macro number and operations (R357, R358). -/
structure MacroBody where
  num : Nat
  ops : List (BitVec 64)
  deriving DecidableEq, Repr

/-- An emulation routine a launch binds to an unassigned opcode byte (R355, R376). -/
structure Route where
  byte : Nat
  sub : Bool
  num : Nat
  routine : Nat
  deriving DecidableEq, Repr

/-- A grid: the launch record's values (R376) and how far it has run. -/
structure Grid where
  origin : Origin := .command 0 0
  asid : Nat := 0
  codebase : Nat := 0
  codesize : Nat := 0
  entry : Nat := 0
  htabv : BitVec 64 := 0
  bodies : List MacroBody := []
  routes : List Route := []
  ntx : Nat := 1
  nty : Nat := 1
  ntz : Nat := 1
  crews : Nat := 1
  teams : Nat := 1
  regs : Nat := 24
  obuf : Nat := 0
  hash : Nat := 0
  scratch : Nat := 0
  prio : Nat := 0
  prof : Bool := false
  debug : Bool := false
  idem : Bool := false
  four : Bool := false
  c16 : Bool := false
  args : List TWord := []
  dkind : Nat := 0
  dq : Nat := 0
  daddr : Nat := 0
  dtoken : Nat := 0
  -- the core that issued `lnch`, as its team stands now (R378)
  dcore : Nat := 0
  binds : List QBind := []
  nextGang : Nat := 0
  status : Option Nat := none
  notified : Bool := false
  deriving DecidableEq, Repr

/-- A gang the cox keeps waiting on a die (R381). -/
structure Waiting where
  grid : Nat
  gang : Nat
  die : Nat
  prio : Nat
  since : Nat
  saved : Bool := false
  deriving DecidableEq, Repr

/-! ## Storage beside the arrays -/

/-- An entry of a quadrant's regrouping table (R61). -/
structure Regroup where
  team : Nat
  pc : BitVec 64
  waiting : List (Nat × Nat) := []
  running : Option Nat := none
  since : Nat := 0
  deriving DecidableEq, Repr

/-- A quadrant's storage: reservations, operand buffer (bytes, 0 unlisted), accumulators (key 256 × row + column, +0
unlisted), accepted matrix instructions not finished, regrouping table. Scale memory lies in `State.mem`. -/
structure Quad where
  resv : List Resv := []
  obuf : List (Nat × Byte) := []
  acc : List (Nat × BitVec 32) := []
  busy : Nat := 0
  regroup : List (Nat × Regroup) := []
  deriving DecidableEq, Repr

/-- An entry of a hash region (R117). -/
structure HEntry where
  key : HKey
  val : TWord
  deriving DecidableEq, Repr

/-- The hash unit's region of one team on one core (R117-R126): `b` is log2 N and 0 when none is held. -/
structure HRegion where
  core : Nat
  team : Nat
  held : Bool := false
  b : Nat := 0
  slots : List (Nat × HEntry) := []
  spilled : Bool := false
  mixed : Bool := false
  dropped : Bool := false
  desc : Nat := 0
  base : Nat := 0
  cap : Nat := 0
  deriving DecidableEq, Repr

/-! ## Engines, links and the lift -/

/-- A destination byte of an engine sector: the bits that are written (`mask`), those read so far, and the pieces still to be
read: source byte, bit in it, bits, bit of this byte (R94, R144). -/
structure EByte where
  key : Nat
  mask : Nat := 0
  val : Nat := 0
  wants : List (Nat × Nat × Nat × Nat) := []
  deriving DecidableEq, Repr

/-- One 32-byte sector of an engine command: destination bytes, tags of destination words and the source words of tags still
to be read, the presence sector it makes present, the barrier it counts (core, key) and the bytes counted (R94, R106,
R114). -/
structure Sector where
  bytes : List EByte := []
  tags : List (Nat × Tag) := []
  tagWants : List (Nat × Nat) := []
  present : Option Nat := none
  barrier : Option (Nat × Nat) := none
  count : Nat := 0
  deriving DecidableEq, Repr

/-- A command of a tile-walk engine: issuing crew, team and PC, sectors still to write, every 32-byte sector of storage that its
destination has (key ÷ 32), and for `xfar` the device and whether it gets (R136, R297, R298). -/
structure EngineCmd where
  crew : Nat
  team : Nat
  asid : Nat
  pc : BitVec 64
  sectors : List Sector
  dests : List Nat := []
  far : Option (Nat × Bool) := none
  deriving DecidableEq, Repr

/-- A cluster's tile-walk engine: commands that wait to enter its queue, and those issued (R299). -/
structure Engine where
  pend : List EngineCmd := []
  queue : List EngineCmd := []
  deriving DecidableEq, Repr

/-- What an outstanding far operation does when it is answered. -/
inductive FarUse where
  | regs (crew lane : Nat) (dest : Field) (acc : Acc)
  | atomic (crew : Nat) (lanes : List Nat) (dest : Field)
  | store (crew : Nat)
  | sector (crew team asid : Nat) (s : Sector)
  deriving DecidableEq, Repr

/-- What a destination answers to a far operation (R95, R427): words, the bare acknowledgement, or FARLOG's reason. -/
inductive FarAnswer where
  | reply (ws : List TWord)
  | ack
  | refusal (reason : Nat)
  deriving DecidableEq, Repr

/-- An outstanding far operation (R95): the operation, the plane it went on (none while no plane is up at both ends, or
while operations are held), the answer when its destination is this device and has performed it, its use, the PC of its
instruction, and when it was sent. -/
structure FarOut where
  op : FarOp
  plane : Option Nat
  answer : Option FarAnswer := none
  use : FarUse
  pc : BitVec 64 := 0
  since : Nat := 0
  deriving DecidableEq, Repr

/-- A die's lift and its binding (R70, R71). -/
structure Lift where
  entries : List (TWord × TWord) := []
  asid : Nat := 0
  en : Bool := false
  deriving DecidableEq, Repr

/-! ## Contexts, faults and the host -/

/-- Context states (R387). -/
inductive CtxState where
  | free | live | dying | dead
  deriving DecidableEq, Repr

/-- A context slot as the device read its descriptor (R387), with its watchdog count (R403). -/
structure Ctx where
  slot : Nat
  root : Nat := 0
  asid : Nat := 0
  debug : Bool := false
  wdq : Nat := 4096
  savebase : Nat := 0
  savesize : Nat := 0
  failrec : Nat := 0
  state : CtxState := .free
  en : Bool := true
  wdcount : Nat := 0
  progress : Bool := false
  saveNext : Nat := 0
  saveUsed : Nat := 0
  deriving DecidableEq, Repr

/-- A cached translation (R393): the unit that caches it (0-191 core, 256 + cluster, 512 + die), its context, the page
base and size, and the leaf entry. -/
structure TlbEntry where
  unit : Nat
  asid : Nat
  base : Nat
  size : Nat
  leaf : BitVec 64
  deriving DecidableEq, Repr

/-- A translation fault in service (R396, R397): `pc` is that of the first crew's
instruction, `seq` its number in the fault ring once written; `far` says that a far operation of another device waits for
it (R262). -/
structure FaultRec where
  number : Nat
  va : BitVec 64
  asid : Nat
  cause : Nat
  write : Bool
  fetch : Bool
  engine : Bool
  die : Nat
  core : Nat
  quad : Nat
  crews : List Nat
  pc : BitVec 64 := 0
  seq : Option Nat := none
  far : Bool := false
  deriving DecidableEq, Repr

/-- Ground for declaring a context dead (R401), with what its failure record will hold (R404): the declaration is a step of
its own. `teams` are those whose state a fault or an error made unusable (R99); `record` is the failure record once the context is
DYING (R402). -/
structure Death where
  asid : Nat
  cause : Nat
  code : Nat := 0
  crew : Option Nat := none
  lanes : BitVec 64 := 0
  pc : BitVec 64 := 0
  detail : BitVec 64 := 0
  teams : List Nat := []
  record : List (BitVec 64) := []
  deriving DecidableEq, Repr

/-- A command of a submission queue that has been dequeued (R373-R375). -/
structure Cmd where
  k : Nat
  op : Nat
  norec : Bool
  cookie : BitVec 64
  status : Option Nat := none
  time : BitVec 64 := 0
  counted : Bool := false
  deriving DecidableEq, Repr

/-- A cache that holds whole lines (R12, R14): an instruction cache by package core, an L1 slice and its header-cache partition
by package cluster and slice, an L2 slice by die and slice, a tag cache by die. -/
inductive CacheUnit where
  | code (core : Nat)
  | l1 (cluster slice : Nat)
  | header (cluster slice : Nat)
  | l2 (die slice : Nat)
  | tags (die : Nat)
  deriving DecidableEq, Repr

/-- A line that a cache holds. Its contents are memory's: the hierarchy is coherent (R80, R94, R101). -/
structure CachedLine where
  unit : CacheUnit
  line : Nat
  deriving DecidableEq, Repr

/-- A write that an append to a spill log makes: key in committed memory and word, with the page's tag attribute (R120). -/
structure LogWrite where
  key : Nat
  word : TWord
  tagged : Bool
  grain : Nat
  deriving DecidableEq, Repr

/-- A request that a home has parked (R399), each with the key of the byte it is parked for. Flags go to the crew; of an `hacc`
application it is a write of the team's spill log. -/
inductive ParkedReq where
  | red (crew : Nat) (op : AtomOp) (ty : AtomTy) (tagged : Bool) (r : RedRec)
  | log (team : Nat) (w : LogWrite)
  | atomic (crew key : Nat) (i : Instr)
  | sector (cluster key : Nat)
  deriving DecidableEq, Repr

/-- An entry of a home slice's fault queue, the slice numbered over the package (R399). -/
structure Parked where
  slice : Nat
  req : ParkedReq
  deriving DecidableEq, Repr

/-- A submission queue as the device read its descriptor (R370), and its counts. -/
structure SubQ where
  q : Nat
  en : Bool := false
  base : Nat := 0
  cap : Nat := 16
  vec : Nat := 0
  cirq : Bool := false
  cqoff : Nat := 0
  cqcap : Nat := 16
  head : Nat := 0
  done : Nat := 0
  cqtail : Nat := 0
  fenceQ : Option (Nat × Nat) := none
  cmds : List Cmd := []
  deriving DecidableEq, Repr

/-- A BAR4 write the device does not see yet (R96). -/
structure HostStore where
  pa : Nat
  data : List Byte
  deriving DecidableEq, Repr

/-- What one end of a `Vokar` port shows (R428). -/
structure Port where
  up : Bool := true
  leftDown : Bool := false
  lanes : Nat := 8
  en : Bool := true
  txBytes : Nat := 0
  rxBytes : Nat := 0
  retries : Nat := 0
  deriving DecidableEq, Repr

/-! ## Boot and firmware -/

/-- The firmware image in flash (R412): the one the part ships with, or bytes that were written. -/
inductive FlashImage where
  | shipped
  | stored (bytes : List Byte)
  deriving DecidableEq, Repr

/-- A record of the boot step ring (R414). `torn` says that its CHECK does not match. -/
structure StepRec where
  boot : Nat
  step : Nat
  unit : Nat
  finish : Bool
  result : Nat := 0
  alts : Nat := 0
  detail : BitVec 64 := 0
  torn : Bool := false
  deriving DecidableEq, Repr

/-- Where the part stands after reset (R413, R416, R418). -/
inductive BootPhase where
  | inReset
  | ready
  | safe
  | recovery
  deriving DecidableEq, Repr

/-- Boot, flash and mailbox (R411-R419). `alts` are the alternatives in force by step and unit; `weak` says which step of
which unit fails and how many alternatives mend it: the parts' own condition, which the spec gives no value (DESIGN CHOICE, entry 20);
`failed` is the failing step and unit with REASON (R417); `flashing` the image that is being written. -/
structure Boot where
  phase : BootPhase := .inReset
  number : Nat := 0
  image : FlashImage := .shipped
  ring : List StepRec := []
  alts : List (Nat × Nat × Nat) := []
  clearAlt : Bool := false
  weak : List (Nat × Nat × Nat) := []
  failed : Option (Nat × Nat × Nat) := none
  upload : Option (Nat × List Byte) := none
  busy : Bool := false
  flashing : Option (List Byte) := none
  lost : Bool := false
  result : Nat := 0
  data : List (Nat × Byte) := []
  thermTrip : Bool := false
  deriving DecidableEq, Repr

/-! ## The package -/

/-- The whole package. Memory keys: a physical address below 2^56; 2^56 + core × 2^20 + offset for a scratchpad;
2^57 + quadrant × 2^14 + offset for scale memory. -/
structure State where
  -- the model's own: what comes from outside, free values, the step's choice
  inbox : List (Nat × Instr) := []
  freeCtr : Nat := 0
  focus : Option Nat := none
  lastQuad : Nat := 0
  enginesPassed : Nat := 0
  -- time
  clock : BitVec 64 := 0
  quantumAt : List (Nat × Nat) := []
  stopped : List Nat := []
  -- memory and tags (committed), what DRAM and the host see, presence; the poisoned 32-byte sectors
  mem : List Host.Cell := []
  tags : List (Nat × Tag) := []
  dram : List Host.Cell := []
  unflushed : List Nat := []
  hostStores : List HostStore := []
  absent : List Nat := []
  locks : List Nat := []
  poisoned : List Nat := []
  -- lines the caches hold, oldest first; requests parked at the homes, in arrival order
  copies : List CachedLine := []
  parked : List Parked := []
  -- work
  crews : List Crew := []
  teams : List Team := []
  grids : List Grid := []
  waiting : List Waiting := []
  tickets : Nat := 0
  -- storage and engines
  quads : List (Nat × Quad) := []
  hash : List HRegion := []
  engines : List (Nat × Engine) := []
  fetchCache : List (Nat × Byte) := []
  lifts : List (Nat × Lift) := []
  grants : List (Nat × Nat) := []
  token : Option Nat := none
  tokenQueue : List Nat := []
  -- links: operations sent, the next number of each pair by destination, numbers seen by source, answers to other devices
  -- (device, number, answer), routes as last read
  far : List FarOut := []
  farSeq : Nat := 0
  farPair : List (Nat × Nat) := []
  farSeen : List (Nat × Nat) := []
  linkOut : List (Nat × Nat × FarAnswer) := []
  ports : List (Nat × Port) := []
  routes : List (Nat × BitVec 32) := []
  -- contexts, translation, faults
  ctxs : List Ctx := []
  tlb : List TlbEntry := []
  faults : List FaultRec := []
  dying : List Death := []
  faultNo : Nat := 0
  faultTail : Nat := 0
  faultHead : Nat := 0
  -- host
  queues : List SubQ := []
  nextQueue : Nat := 0
  bar0 : List (Nat × BitVec 64) := []
  hostRead : List Byte := []
  msix : List Nat := []
  hostMem : Option (Nat × List Byte) := none
  barLog : Nat := 28
  -- commands of the register map that wait for the commit token: MIGRATE (ASID, MVA, MPA), CANCEL (queue, CSEQ)
  migration : Option (Nat × Nat × Nat) := none
  cancels : List (Nat × Nat) := []
  -- firmware
  boot : Boot := {}
  fused : List Nat := []
  retired : List (Nat × Nat) := []
  spared : List (Nat × Nat) := []
  microcode : Option FlashImage := none
  controlSram : List Host.Cell := []
  deriving DecidableEq, Repr

/-- The package right after reset: nothing resident, memory with nothing listed, every register of the register map at
its stated value (an unlisted one reads its default, see `State.regRead`), boot not begun (R413). -/
def State.reset : State := {}

/-- Why a step stops with a fault. Both are safe: no claim about a next state can be drawn from them. -/
inductive Fault where
  /-- Raised by every instruction meaning when no crew's bundle stands to execute it (no focus crew, or none of its
  threads runnable). Safe: `step` never issues an instruction then. -/
  | noBundle
  /-- Raised when the device itself, on the driver's word (SQBASE, FAILREC, SAVEBASE, ROUTETAB), names a physical
  address outside the map of R392. The spec gives such an access no effect. Safe. -/
  | noMemory
  deriving DecidableEq, Repr

/-- Why a step is refused. -/
inductive Refusal where
  /-- Raised by the arm of `exec` of an instruction that has no meaning yet. Safe. -/
  | notModelled (mnemonic : String)
  deriving DecidableEq, Repr

/-- The result of executing an instruction or a step. -/
abbrev Out := Host.Outcome State Fault Refusal

end Sys2Proof.Machine
end

