-- ==== Sys2Proof/Machine/Mem.lean ====
section
/-! DEFINITION. Sparse maps in canonical form, bytes and words of memory, the physical map and translation (R17, R27,
R78, R388-R395). Memory keys are those of `State`. -/

namespace Sys2Proof.Machine

open Sys2Proof

/-! ## Sparse maps: keys rising -/

/-- The value at a key, if it is listed. -/
def SMap.get? {β : Type} : List (Nat × β) → Nat → Option β
  | [], _ => none
  | (a, b) :: t, k => if a = k then some b else SMap.get? t k

/-- The value at a key, or the default of an unlisted one. -/
def SMap.get {β : Type} (d : β) (m : List (Nat × β)) (k : Nat) : β := (SMap.get? m k).getD d

/-- List a value at its place. -/
def SMap.set {β : Type} : List (Nat × β) → Nat → β → List (Nat × β)
  | [], k, v => [(k, v)]
  | (a, b) :: t, k, v => if k < a then (k, v) :: (a, b) :: t else if k = a then (k, v) :: t else (a, b) :: SMap.set t k v

/-- Take a key off the list. -/
def SMap.del {β : Type} (m : List (Nat × β)) (k : Nat) : List (Nat × β) := m.filter fun e => e.1 != k

/-- Write, in canonical form: the default is not listed. -/
def SMap.put {β : Type} [DecidableEq β] (d : β) (m : List (Nat × β)) (k : Nat) (v : β) : List (Nat × β) :=
  if v = d then SMap.del m k else SMap.set m k v

/-- Keys strictly rise. -/
def SMap.sorted {β : Type} : List (Nat × β) → Bool
  | [] => true
  | [_] => true
  | (a, _) :: (b, v) :: t => decide (a < b) && SMap.sorted ((b, v) :: t)

/-- A rising list of numbers without repeats, as a set. -/
def insertNat : List Nat → Nat → List Nat
  | [], k => [k]
  | a :: t, k => if k < a then k :: a :: t else if k = a then a :: t else a :: insertNat t k

/-- Union of such sets. -/
def unionNat (xs ys : List Nat) : List Nat := ys.foldl insertNat xs

/-- Do two such sets share a member? -/
def meetsNat (xs ys : List Nat) : Bool := xs.any fun x => ys.contains x

/-! ## Memory -/

/-- The canonical form of memory: addresses strictly rising, and nothing listed that an unlisted address reads as. -/
def Memory.wf (m : List Host.Cell) : Bool := SMap.sorted m && m.all fun c => c.2 != 0

/-- One byte. An unlisted address reads 0 (DESIGN CHOICE, entry 3). -/
def Memory.read (m : List Host.Cell) (k : Nat) : Byte := SMap.get 0 m k

/-- Write one byte. -/
def Memory.write (m : List Host.Cell) (k : Nat) (b : Byte) : List Host.Cell := SMap.put 0 m k b

/-- Write consecutive bytes. -/
def Memory.writes (m : List Host.Cell) (k : Nat) : List Byte → List Host.Cell
  | [] => m
  | b :: t => Memory.writes (Memory.write m k b) (k + 1) t

/-- Is a location written when something stores to it? The reserved offsets of the coherent window read zero and ignore
writes (R368). -/
def storeLands (key : Nat) : Bool :=
  !(decide (Config.windowBase + 0x2010 ≤ key) && decide (key < Config.windowBase + 0x10000))

/-- Store consecutive bytes, where they land. -/
def Memory.stores (m : List Host.Cell) (k : Nat) : List Byte → List Host.Cell
  | [] => m
  | b :: t => Memory.stores (if storeLands k then Memory.write m k b else m) (k + 1) t

/-- The number that little-endian bytes form (R2). -/
def leNat : List Byte → Nat
  | [] => 0
  | b :: t => b.toNat + 256 * leNat t

/-- The `n` little-endian bytes of a number (R2). -/
def leBytes : Nat → Nat → List Byte
  | 0, _ => []
  | n + 1, v => BitVec.ofNat 8 v :: leBytes n (v / 256)

/-- `n` consecutive bytes. -/
def Memory.bytes (m : List Host.Cell) (k : Nat) : Nat → List Byte
  | 0 => []
  | n + 1 => Memory.read m k :: Memory.bytes m (k + 1) n

/-- The number in `n` bytes at `k`. -/
def Memory.nat (m : List Host.Cell) (k n : Nat) : Nat := leNat (Memory.bytes m k n)

/-- The first key of the scratchpads, and of scale memory. -/
def scratchKey : Nat := 2 ^ 56
def scaleKey : Nat := 2 ^ 57

/-- The tag of a never-written word: NIL in a TAGGED page, UNDEF in scratch (R27). -/
def tagDefault (word : Nat) : Tag := if word * 8 < scratchKey then .nil else .undef

/-- The tag of a word (by word number, key ÷ 8). -/
def Tags.read (t : List (Nat × Tag)) (word : Nat) : Tag := SMap.get (tagDefault word) t word

/-- Write a word's tag. -/
def Tags.write (t : List (Nat × Tag)) (word : Nat) (v : Tag) : List (Nat × Tag) := SMap.put (tagDefault word) t word v

/-! ## The physical map (R15, R17, R392) -/

/-- The memory (0-3 bonded, 4-7 LPDDR6, by die) and channel (R433) that hold a physical address. -/
def memRegion (pa : Nat) : Option (Nat × Nat) :=
  if pa < 2 ^ 38 then
    if pa % 2 ^ 36 < 0xF00000000 then some (pa / 2 ^ 36, pa % 2 ^ 36 / 0xF0000000) else none
  else if 2 ^ 40 ≤ pa ∧ pa < 2 ^ 41 then
    if (pa - 2 ^ 40) % 2 ^ 38 < 0x3C00000000 then some (4 + (pa - 2 ^ 40) / 2 ^ 38, (pa - 2 ^ 40) % 2 ^ 38 / 0x3C0000000)
    else none
  else none

/-- Is the address in the coherent window (R367)? -/
def inWindow (pa : Nat) : Bool := decide (Config.windowBase ≤ pa) && decide (pa < Config.windowBase + Config.windowBytes)

/-- May the device access the physical address (R392, R433)? -/
def State.paUsable (s : State) (pa : Nat) : Bool :=
  inWindow pa || (match memRegion pa with
    | some r => !s.retired.contains r
    | none => false)

/-- May the device access a run of physical addresses: does it lie in the window, or in installed channels of one memory? -/
def State.runUsable (s : State) (pa n : Nat) : Bool :=
  if inWindow pa then inWindow (pa + n - 1)
  else match memRegion pa, memRegion (pa + n - 1) with
    | some a, some b => a.1 == b.1 && (List.range (b.2 + 1)).all fun ch => decide (ch < a.2) || !s.retired.contains (a.1, ch)
    | _, _ => false

/-- Home die of a physical address (R17, R367). -/
def homeDie (pa : Nat) : Nat :=
  match memRegion pa with
  | some (m, _) => m % 4
  | none => 0

/-- Home slice (R17). -/
def homeSlice (pa : Nat) : Nat := (pa / 2 ^ 7 % 32) ^^^ (pa / 2 ^ 12 % 32) ^^^ (pa / 2 ^ 17 % 32)

/-- The core whose scratchpad holds a key. -/
def keyCore (k : Nat) : Nat := (k - scratchKey) / 2 ^ 20

/-- The arbiter that orders a key (R80): the core arbiter for scratch, the home slice's for global memory. -/
def arbiterOf (k : Nat) : Nat :=
  if scratchKey ≤ k then keyCore k else 256 + 32 * homeDie k + homeSlice k

/-- Right shift of GRAIN (R78). -/
def grainShift (g : Nat) : Nat := if g = 1 then 5 else if g = 2 then 9 else 7

/-- The number L of a location (R78). -/
def locNumber (k g : Nat) : Nat :=
  if scratchKey ≤ k then 2 ^ 44 + keyCore k * 2 ^ 15 + (k - scratchKey) % 2 ^ 20 / 32 else k / 2 ^ grainShift g

/-- The four signature bits of a location (R78). -/
def sigBits (loc : Nat) : List Nat :=
  (List.range 4).map fun k =>
    k * 512 + (loc ^^^ (loc / 2 ^ 9) ^^^ (loc / 2 ^ (18 + k)) ^^^ (loc / 2 ^ (27 + 2 * k))) % 512

/-- Does a signature meet another: each bank has a bit set in both (R79)? -/
def sigMeets (xs ys : List Nat) : Bool :=
  (List.range 4).all fun b => xs.any fun x => decide (x / 512 = b) && ys.contains x

/-! ## Translation (R388-R395) -/

def Page.r (p : Page) : Bool := p.leaf.getLsbD 2
def Page.w (p : Page) : Bool := p.leaf.getLsbD 3
def Page.x (p : Page) : Bool := p.leaf.getLsbD 4
def Page.grain (p : Page) : Nat := p.leaf.toNat / 64 % 4
/-- Physical base. -/
def Page.pa (p : Page) : Nat := p.leaf.toNat / 2 ^ 16 % 2 ^ 40 * 2 ^ 16
/-- The key of an address in the page. -/
def Page.key (p : Page) (va : Nat) : Nat := p.pa + (va - p.base)
/-- TAGGED, but never in the coherent window (R367). -/
def Page.tagged (p : Page) : Bool := p.leaf.getLsbD 5 && !inWindow p.pa

/-- A walk's result: a page, or a cause of R395. -/
inductive Xlat where
  | ok (p : Page)
  | fault (cause : Nat)
  deriving DecidableEq, Repr

/-- The walk's levels (R388): shift of the VA, index bits, alignment of the next table, and whether a leaf and whether a
table may stand there. -/
def walkLevels : List (Nat × Nat × Nat × Bool × Bool) :=
  [(43, 13, 2 ^ 16, false, true), (30, 13, 2 ^ 12, true, true), (21, 9, 2 ^ 8, true, true), (16, 5, 1, true, false)]

/-- Not a cause of R395: the access, or its walk, reads a poisoned line, and its context dies (R405). -/
def poisonCause : Nat := 7

/-- Is the line of a location poisoned: is one of its sectors (R405)? -/
def State.poisonedAt (s : State) (k : Nat) : Bool := s.poisoned.any fun x => x / 4 == k / 128

/-- The walk from a table on (R388-R391). -/
def walk (s : State) (va : Nat) : List (Nat × Nat × Nat × Bool × Bool) → Nat → Xlat
  | [], _ => .fault 5
  | (sh, n, al, leafOk, tableOk) :: rest, table =>
    let at' := table + 8 * (va / 2 ^ sh % 2 ^ n)
    let e := Memory.nat s.mem at' 8
    if s.poisonedAt at' then .fault poisonCause
    else if e % 2 = 0 then .fault 1
    else if e / 2 % 2 = 0 then
      let next := e / 2 ^ 8 % 2 ^ 48 * 2 ^ 8
      if !tableOk || e / 2 ^ 56 != 0 || e / 4 % 64 != 0 || next % al != 0 then .fault 5
      else walk s va rest next
    else
      let pa := e / 2 ^ 16 % 2 ^ 40 * 2 ^ 16
      if !leafOk || e / 2 ^ 56 != 0 || e / 2 ^ 9 % 128 != 0 || e / 64 % 4 = 3 || pa % 2 ^ sh != 0
          || !s.paUsable pa || !s.paUsable (pa + 2 ^ sh - 1) then .fault 5
      else .ok ⟨va / 2 ^ sh * 2 ^ sh, 2 ^ sh, BitVec.ofNat 64 e⟩

/-- The entry of the walk that stands in a poisoned line: its physical address. -/
def walkPoison (s : State) (va : Nat) : List (Nat × Nat × Nat × Bool × Bool) → Nat → Nat
  | [], _ => 0
  | (sh, n, _, _, _) :: rest, table =>
    let at' := table + 8 * (va / 2 ^ sh % 2 ^ n)
    if s.poisonedAt at' then at' else walkPoison s va rest (Memory.nat s.mem at' 8 / 2 ^ 8 % 2 ^ 48 * 2 ^ 8)

/-- The context bound to an ASID. -/
def State.ctxOf (s : State) (asid : Nat) : Option Ctx := s.ctxs.find? fun c => c.asid = asid ∧ c.state ≠ .free

/-- The units that cache a core's translations (R393): the core, its cluster, its die. -/
def tlbUnits (core : Nat) : List Nat := [core, 256 + core / 4, 512 + core / 48]

/-- The page of an address: a cached translation, or the walk (R388, R393, DESIGN CHOICE, entry 8). -/
def State.pageOf (s : State) (core asid va : Nat) : Xlat :=
  match s.tlb.find? fun e => e.asid = asid ∧ e.base ≤ va ∧ va < e.base + e.size ∧ e.unit ∈ tlbUnits core with
  | some e => .ok ⟨e.base, e.size, e.leaf⟩
  | none =>
    match s.ctxOf asid with
    | some c => walk s va walkLevels c.root
    | none => .fault 1

/-- Translate with the permissions asked for (R395). -/
def State.xlate (s : State) (core asid va : Nat) (r w x : Bool) : Xlat :=
  if 2 ^ 56 ≤ va then .fault 6
  else match s.pageOf core asid va with
    | .fault c => .fault c
    | .ok p =>
      if r && !p.r then .fault 2 else if w && !p.w then .fault 3 else if x && !p.x then .fault 4
      else if (r || x) && s.poisonedAt (p.key va) then .fault poisonCause
      else .ok p

/-- How many entries a caching unit holds (R393). -/
def tlbLimit (u : Nat) : Nat := if u < 256 then Config.tlbCore else if u < 512 then Config.tlbCluster else Config.tlbDie

/-- Cache a translation in one unit; the oldest entry of a full unit goes (DESIGN CHOICE, entry 8). -/
def tlbInsert (t : List TlbEntry) (e : TlbEntry) : List TlbEntry :=
  if t.any fun x => x.unit = e.unit ∧ x.asid = e.asid ∧ x.base = e.base then t
  else
    let mine := t.filter fun x => x.unit = e.unit
    let t := if tlbLimit e.unit ≤ mine.length then
        (match mine with | [] => t | o :: _ => t.erase o) else t
    t ++ [e]

/-- Cache the pages that an instruction translated (R393). -/
def State.fillTlb (s : State) (core asid : Nat) (pages : List (Nat × Nat)) : State :=
  pages.foldl (fun s pg => match s.pageOf core asid pg.1 with
    | .ok p => { s with tlb := (tlbUnits core).foldl (fun t u => tlbInsert t ⟨u, asid, p.base, p.size, p.leaf⟩) s.tlb }
    | .fault _ => s) s

end Sys2Proof.Machine
end

