-- ==== Sys2Proof/Machine/Caches.lean ====
section
/-! DEFINITION. Which lines the caches hold (R12, R14, R15, R17, R18): placement, sizes, replacement. Contents are memory's, since
the hierarchy is coherent (R80, R94, R101); what a cache holds decides which copies an error reaches and an invalidation takes. -/

namespace Sys2Proof.Machine

open Sys2Proof

/-- The L1 slice of a line in every cluster, PA[8:7]; the header-cache partition of its headers stands beside it (R18). -/
def l1Slice (line : Nat) : Nat := line % 4

/-- The home slice of a line, numbered over the package (R17). -/
def lineSlice (l : Nat) : Nat := 32 * homeDie (128 * l) + homeSlice (128 * l)

/-- Has a slice's fault queue no room (R399)? -/
def State.faultQueueFull (s : State) (slice : Nat) : Bool :=
  decide (Config.faultQueue ≤ (s.parked.filter fun p => p.slice == slice).length)

/-- The L2 slice that alone caches a line in L2, at its home (R17). -/
def l2Unit (line : Nat) : CacheUnit := .l2 (homeDie (128 * line)) (homeSlice (128 * line))

/-- Where an access of a core's crew or engine places the line beside its L2 home slice: its cluster's L1 slice, the header
partition beside it, and the tag cache of the home die for a line of a TAGGED page (R14, R18). -/
def placesOf (cluster : Nat) (m : Met) : List CacheUnit :=
  (.l1 cluster (l1Slice m.line) :: if m.header then [.header cluster (l1Slice m.line)] else [])
    ++ (if m.tagged then [.tags (homeDie (128 * m.line))] else [])

/-- How many lines a cache holds (R14): 128 bytes each; a line's 16 tags take 8 bytes of the tag cache. -/
def unitLines : CacheUnit → Nat
  | .code _ => Config.codeCacheBytes / 128
  | .l1 _ _ => Config.l1SliceBytes / 128
  | .header _ _ => Config.headerPartBytes / 128
  | .l2 _ _ => Config.l2SliceBytes / 128
  | .tags _ => Config.tagCacheBytes / 8

/-- The line that a full cache gives up for another: the one it has held longest (DESIGN CHOICE, entry 53). -/
def cacheVictim (cs : List CachedLine) (u : CacheUnit) (line : Nat) : Option CachedLine :=
  let mine := cs.filter fun x => x.unit == u
  if cs.contains ⟨u, line⟩ || decide (mine.length < unitLines u) then none else mine.head?

/-- A cache takes a line. -/
def cachePut (cs : List CachedLine) (u : CacheUnit) (line : Nat) : List CachedLine :=
  if cs.contains ⟨u, line⟩ then cs
  else (match cacheVictim cs u line with
    | some o => cs.erase o
    | none => cs) ++ [⟨u, line⟩]

/-- Dirty lines that a test selects go to DRAM and are clean (R96). Host writes that the device does not see yet stay in DRAM. -/
def State.writeBack (s : State) (t : Nat → Bool) : State :=
  let out := s.unflushed.filter t
  let d := out.foldl (fun m l => Memory.writes m (128 * l) (Memory.bytes s.mem (128 * l) 128)) s.dram
  { s with
    dram := (s.hostStores.filter fun h => out.contains (h.pa / 128)).foldl (fun m h => Memory.writes m h.pa h.data) d
    unflushed := s.unflushed.filter fun l => !t l }

/-- A line's L2 home slice takes it; a dirty line that it gives up goes to DRAM first (R14, R15, R17). -/
def State.l2Put (s : State) (line : Nat) : State :=
  let s := match cacheVictim s.copies (l2Unit line) line with
    | some o => s.writeBack fun l => l == o.line
    | none => s
  { s with copies := cachePut s.copies (l2Unit line) line }

/-- The caches take the lines that an access met. -/
def State.cacheLines (s : State) (cluster : Nat) (ms : List Met) : State :=
  ms.foldl (fun s m =>
    { s with copies := (placesOf cluster m).foldl (fun cs u => cachePut cs u m.line) s.copies }.l2Put m.line) s

/-- A core's instruction cache takes the line of a fetch. -/
def State.cacheCode (s : State) (core pa : Nat) : State := { s with copies := cachePut s.copies (.code core) (pa / 128) }

/-- Is the copy that a write elsewhere invalidates: one of an L1 slice or a header partition (R18, R101)? -/
def CacheUnit.near : CacheUnit → Bool
  | .l1 _ _ | .header _ _ => true
  | _ => false

/-- Copies of the lines that a test selects are discarded: all of them, or those near the cores. -/
def State.dropCopies (s : State) (nearOnly : Bool) (t : Nat → Bool) : State :=
  { s with copies := s.copies.filter fun x => !(t x.line && (x.unit.near || !nearOnly)) }

/-- No cache holds more than its size, every line stands where R17 and R18 place it, and a dirty line stands in its L2 slice. -/
def State.cachesOk (s : State) : Bool :=
  (s.unflushed.all fun l => s.copies.contains ⟨l2Unit l, l⟩) && s.copies.all fun x => decide ((s.copies.filter fun y => y.unit == x.unit).length ≤ unitLines x.unit)
    && (match x.unit with
      | .l1 _ k | .header _ k => k == l1Slice x.line
      | .l2 d k => decide (CacheUnit.l2 d k = l2Unit x.line)
      | .tags d => d == homeDie (128 * x.line)
      | .code _ => true)

/-- Bytes that a write covers whole sectors of make those sectors good again; a line is poisoned until all four are (R405, DEDUCED,
entry 42). -/
def State.cleanPoison (s : State) (k n : Nat) : State :=
  { s with poisoned := s.poisoned.filter fun x => !(decide (k ≤ 32 * x) && decide (32 * x + 32 ≤ k + n)) }

/-- The sectors of a line. -/
def sectorsOf (line : Nat) : List Nat := (List.range 4).map fun j => 4 * line + j

end Sys2Proof.Machine
end

