-- ==== Sys2Proof/Machine/Ops.lean ====
section
/-! DEFINITION. The named operations over crews, registers and chunks: bundles (R54), registers and first writes (R76,
R188-R192), the chunk's view of memory (R77, R90), signatures and squashes (R78-R83), pending results (R321-R327), taking
a trap (R43-R46). -/

namespace Sys2Proof.Machine

open Sys2Proof

/-! ## Reaching the parts -/

def State.crew (s : State) (ci : Nat) : Crew := s.crews.getD ci {}
def State.setCrew (s : State) (ci : Nat) (c : Crew) : State := { s with crews := s.crews.set ci c }
def State.team (s : State) (t : Nat) : Team := s.teams.getD t {}
def State.setTeam (s : State) (t : Nat) (x : Team) : State := { s with teams := s.teams.set t x }
def State.grid (s : State) (g : Nat) : Grid := s.grids.getD g {}
def State.setGrid (s : State) (g : Nat) (x : Grid) : State := { s with grids := s.grids.set g x }
def State.teamOf (s : State) (c : Crew) : Team := s.team c.team
def State.gridOf (s : State) (c : Crew) : Grid := s.grid (s.teamOf c).grid
def State.asidOf (s : State) (c : Crew) : Nat := (s.gridOf c).asid

/-- A quadrant's number in the package. -/
def Crew.quadNo (c : Crew) : Nat := 4 * c.core + c.quad
def State.quad (s : State) (q : Nat) : Quad := SMap.get {} s.quads q
def State.setQuad (s : State) (q : Nat) (x : Quad) : State := { s with quads := SMap.set s.quads q x }

/-! ## Threads and bundles (R53, R54, R360) -/

def Crew.thread (c : Crew) (l : Nat) : Thread := c.arch.threads.getD l {}
def Crew.setThread (c : Crew) (l : Nat) (t : Thread) : Crew :=
  { c with arch := { c.arch with threads := c.arch.threads.set l t } }

def Thread.runnable (t : Thread) : Bool := t.st == .active || t.st == .helper
def Thread.live (t : Thread) : Bool := t.st == .active || t.st == .helper || t.st == .regroup
/-- PC and macro step as one number: the order of R54 and R360. -/
def Thread.key (t : Thread) : Nat := t.pc.toNat * 32 + t.mstep

def Crew.runnableLanes (c : Crew) : List Nat := (List.range Config.lanes).filter fun l => (c.thread l).runnable

/-- The least of some numbers. -/
def leastOf : List Nat → Option Nat
  | [] => none
  | x :: t => match leastOf t with
    | none => some x
    | some y => some (min x y)

/-- The bundle: the runnable threads at the lowest PC and step (R54, R360). -/
def Crew.bundle (c : Crew) : List Nat :=
  match leastOf (c.runnableLanes.map fun l => (c.thread l).key) with
  | none => []
  | some k => c.runnableLanes.filter fun l => (c.thread l).key == k

/-- The bundle's PC. -/
def Crew.pc (c : Crew) : BitVec 64 := match c.bundle with
  | [] => 0
  | l :: _ => (c.thread l).pc

/-- Is the crew a composite bundle of the regrouping table (R61)? -/
def Crew.isComposite (c : Crew) : Bool := !c.homes.isEmpty

/-- Has the crew begun its chunk? -/
def Crew.dirty (c : Crew) : Bool := c.chunk.bundles != 0

/-- A chunk that begins here. -/
def Crew.freshChunk (c : Crew) : Crew := { c with chunk := { start := c.arch } }

/-! ## Reservations (R129, R130) -/

/-- The lowest address where a range fits between the reservations, a multiple of 512. -/
def placeRange (rs : List Resv) (size : Nat) : Option Nat :=
  ((List.range 256).map fun k => 512 * k).find? fun a =>
    decide (a + size ≤ Config.obufBytes) && rs.all fun r => decide (a + size ≤ r.base) || decide (r.base + r.size ≤ a)

/-- The reservation that `obres` can make now (R129, R130). -/
def State.newResv (s : State) (c : Crew) (bytes : Nat) (fmt : Fmt) (blen soff : Nat) : Option Resv :=
  let q := s.quad c.quadNo
  let size := (bytes + 511) / 512 * 512
  let mine := ((q.resv.filter fun r => r.team == c.team).map Resv.size).sum
  if Config.reservations ≤ q.resv.length ∨ (s.gridOf c).obuf < mine + size then none
  else match placeRange q.resv size, (List.range Config.reservations).find? fun k => !(q.resv.any fun r => r.index == k) with
    | some base, some k => some { index := k, team := c.team, base := base, size := size, fmt := fmt, blen := blen, soff := soff, moff := base }
    | _, _ => none

/-- Can the reservation that a crew asks for at `obres` be made? -/
def State.obresFits (s : State) (c : Crew) : Bool :=
  match c.mreq with
  | some (.obres bytes soff b32 fmt _) => (s.newResv c bytes.toNat fmt (if b32 then 32 else 16) soff.toNat).isSome
  | _ => true

/-- May a crew that waits go on at its instruction (R64)? -/
def State.wakeHolds (s : State) (c : Crew) : Bool :=
  match c.wake with
  | none => true
  | some (.sector ks) => ks.all fun k => !s.absent.contains k
  | some .obres => s.obresFits c
  | some (.barrier ks) => ks.all fun k => decide ((BitVec.ofNat 32 (Memory.nat s.mem k 4)).toInt ≤ 0)
  | some .yielded => true
  | _ => false

/-- The crew that stands to issue: its number, the crew, its bundle. A team that was launched again waits for all its crews
(R51, R99). -/
def State.stand (s : State) : Option (Nat × Crew × List Nat) :=
  match s.focus with
  | none => none
  | some ci =>
    let c := s.crew ci
    if decide (ci < s.crews.length) && c.place == .resident && c.chunk.phase == .running && c.doom.isNone
        && (decide (c.consec < 6) || s.token == some ci) && s.wakeHolds c && !c.bundle.isEmpty && !(s.teamOf c).gathering
        && (!c.preempt || decide (c.arch.matrixNo < c.matched) || s.token == some ci) then
      some (ci, { c with wake := none }, c.bundle)
    else none

/-! ## Registers (R188-R192) -/

def Crew.readV (c : Crew) (f l : Nat) : TWord := (SMap.get? c.arch.vregs (32 * f + l)).getD .undef
def Crew.readS (c : Crew) (n : Nat) : TWord := (SMap.get? c.arch.sregs n).getD .undef

/-- The crew whose uniform registers and XI a lane reads (R63). -/
def State.homeCrew (s : State) (c : Crew) (l : Nat) : Crew :=
  match SMap.get? c.homes l with
  | some h => s.crew h
  | none => c

/-- The word a register field reads in a lane (R188, R201). -/
def State.readField (s : State) (c : Crew) (l f : Nat) : TWord :=
  if f < 224 then c.readV f l else if f < 255 then (s.homeCrew c l).readS (f - 224) else .nil

/-- A v field that the allocation holds (R189). -/
def validV (alloc f : Nat) : Bool := decide (f + 17 ≤ alloc) || (decide (208 ≤ f) && decide (f ≤ 223))

/-- The field a slot names after indexing (R190); none when the sum leaves 0-223. -/
def effField (xi : BitVec 64) (sl : Slot) : Option Nat :=
  if sl.index then
    let n := (sl.field.toNat : Int) + xi.toInt
    if 0 ≤ n ∧ n ≤ 223 then some n.toNat else none
  else some sl.field.toNat

/-- Does a slot pass R189 and R190? -/
def slotInBounds (alloc : Nat) (xi : BitVec 64) (sl : Slot) : Bool :=
  if sl.role.checked = 0 then true
  else match effField xi sl with
    | none => false
    | some f => decide (224 ≤ f) || (List.range sl.role.checked).all fun k => validV alloc (f + k)

/-- The word of the k-th slot in a lane: NIL for a field that is not read. -/
def State.opnd (s : State) (i : Instr) (c : Crew) (l k : Nat) : TWord :=
  match i.slots[k]? with
  | none => .nil
  | some sl =>
    if !sl.role.reads then .nil
    else match effField (s.homeCrew c l).arch.xi sl with
      | none => .nil
      | some f => s.readField c l f

/-- The effective field of the k-th slot, 255 for none. -/
def State.effSlot (s : State) (i : Instr) (c : Crew) (l k : Nat) : Nat :=
  match i.slots[k]? with
  | none => 255
  | some sl => (effField (s.homeCrew c l).arch.xi sl).getD 255

/-- The effective destination of a lane: the first slot that is written (255 for none). -/
def State.destOf (s : State) (i : Instr) (c : Crew) (l : Nat) : Nat :=
  match i.slots.find? fun sl => sl.role.writes with
  | none => 255
  | some sl => (effField (s.homeCrew c l).arch.xi sl).getD 255

/-- Is a register live in some lane (R76)? -/
def liveIn (vregs : List (Nat × TWord)) (f : Nat) : Bool := vregs.any fun e => decide (e.1 / 32 = f)

/-- A first write of a v register counts as a checkpoint when the register was live at the chunk's start (R76). -/
def Crew.noteWrite (c : Crew) (f : Nat) : Crew :=
  if liveIn c.chunk.start.vregs f then { c with chunk := { c.chunk with ckpt := insertNat c.chunk.ckpt f } } else c

/-- Write a v register of a lane. -/
def Crew.writeV (c : Crew) (f l : Nat) (w : TWord) : Crew :=
  let c := c.noteWrite f
  { c with arch := { c.arch with vregs := SMap.set c.arch.vregs (32 * f + l) w } }

/-- Free a v register of a lane (R329). -/
def Crew.freeV (c : Crew) (f l : Nat) : Crew :=
  let c := c.noteWrite f
  { c with arch := { c.arch with vregs := SMap.del c.arch.vregs (32 * f + l) } }

/-- Write a uniform register (R191). -/
def Crew.writeS (c : Crew) (n : Nat) (w : TWord) : Crew :=
  { c with
    arch := { c.arch with sregs := SMap.set c.arch.sregs n w }
    chunk := { c.chunk with sset := insertNat c.chunk.sset n } }

/-- Write what a field names: a v register, a uniform register, or nothing for `nil`. In a composite bundle an s register that is
written other than by D (the heal of `ldf.h`, the error of `cvt.ef`) is the composite's own and is gone at `rgend`: R63 does not
say where it goes (DESIGN CHOICE, entry 60). -/
def Crew.writeField (c : Crew) (f l : Nat) (w : TWord) : Crew :=
  if f < 224 then c.writeV f l w else if f < 255 then c.writeS (f - 224) w else c

/-- Raise flags (R159, R160); in a composite they wait for the home crew (R63). -/
def Crew.raise (c : Crew) (l : Nat) (fl : BitVec 5) (fmt : Bool) : Crew :=
  if c.isComposite then
    let old := SMap.get 0 c.arch.laneFlags l
    let new := old ||| ((if fmt then 1#1 else 0#1) ++ fl)
    if new = 0 then c else { c with arch := { c.arch with laneFlags := SMap.set c.arch.laneFlags l new } }
  else
    { c with arch := { c.arch with
        fpflags := c.arch.fpflags ||| fl.setWidth 64,
        formatflag := if fmt then c.arch.formatflag ||| 1 else c.arch.formatflag } }

/-! ## Pending long-latency results (R321-R326) -/

/-- Is a write made once for all lanes of the window's bundle: a uniform register, or a lane outside it (R191, R337)? -/
def Pending.shares (p : Pending) (w : LaneWrite) : Bool := decide (224 ≤ w.field.toNat) || w.lane != p.lane

/-- Write a pending result's registers and flags; no other window of its instruction makes the shared writes again. -/
def Crew.deliver (c : Crew) (p : Pending) : Crew :=
  let c := (p.writes.foldl (fun c w => c.writeField w.field.toNat w.lane w.word) c).raise p.lane p.flags p.fmtFlag
  if p.writes.any p.shares then
    { c with pend := c.pend.map fun q =>
        if q.opener = p.opener then { q with writes := q.writes.filter fun w => !q.shares w } else q }
  else c

/-- The pending destinations of the windows that stand open in a lane (R322), that of a `svc` among them (R326). -/
def Crew.openDests (c : Crew) (l : Nat) : List Field :=
  ((c.pend.filter fun p => p.lane == l).flatMap Pending.dest)
    ++ (match c.svcLeft with
      | some (_, .svcReply _ _ dest lanes) => if lanes.any fun x => x.1 == l then [dest] else []
      | _ => [])

/-- Is a result still to come to a register (field and lane in one number) that an `mcall` is to free? -/
def Crew.awaits (c : Crew) (f : Nat) : Bool :=
  (c.openDests (f % 32)).contains (BitVec.ofNat 8 (f / 32)) || (match c.wake with
    | some (.queuePop ..) | some (.far _) => true
    | _ => false)

/-- An `mcall` frees the parameters that its last operation's result may have gone to, once it has come (R359). -/
def Crew.freeLate (c : Crew) : Crew :=
  if c.lateFrees.isEmpty then c
  else (c.lateFrees.filter fun f => !c.awaits f).foldl (fun c f => c.freeV (f / 32) (f % 32))
    { c with lateFrees := c.lateFrees.filter c.awaits }

/-- Deliver the pending results that a test selects, oldest first: their windows are over. -/
def Crew.deliverIf (c : Crew) (t : Pending → Bool) : Crew :=
  match c.pend.find? t with
  | none => c
  | some _ => (go c.pend.length c).freeLate
where
  go : Nat → Crew → Crew
    | 0, c => c
    | n + 1, c => match c.pend.find? t with
      | none => c
      | some p => go n ({ c with pend := c.pend.erase p }.deliver p)

/-- A pending result arrives before its window is over (R324): the window stands, with nothing left to write. -/
def Crew.arrive (c : Crew) (p : Pending) : Crew :=
  { c with pend := c.pend.map fun q =>
      if q = p then { q with writes := [], flags := 0, fmtFlag := false, arrived := true } else q }.deliver p

/-- Drain every pending result: a chunk boundary, a blocking point (R321). -/
def Crew.drainAll (c : Crew) : Crew := c.deliverIf fun _ => true

/-- A lane's pending results are drained (R46, R321). -/
def Crew.settled (c : Crew) (l : Nat) : Crew := c.deliverIf fun p => p.lane == l

/-- Before a bundle issues: results whose window is over, and all of the bundle's at a drain point (R321). -/
def Crew.deliverDue (c : Crew) (lanes : List Nat) (drain : Bool) : Crew :=
  c.deliverIf fun p => lanes.contains p.lane && (drain || p.left == 0)

/-! ## Store buffer and signatures (R76-R79) -/

/-- A byte as the chunk sees it (R77). -/
def State.viewByte (s : State) (c : Crew) (k : Nat) : Byte := (SMap.get? c.chunk.bytes k).getD (Memory.read s.mem k)
def State.viewBytes (s : State) (c : Crew) (k : Nat) : Nat → List Byte
  | 0 => []
  | n + 1 => s.viewByte c k :: State.viewBytes s c (k + 1) n
/-- A word's tag as the chunk sees it. -/
def State.viewTag (s : State) (c : Crew) (word : Nat) : Tag := (SMap.get? c.chunk.tags word).getD (Tags.read s.tags word)

/-- Buffer bytes and tags (R76); what the window's reserved offsets ignore is not buffered (R368). -/
def Crew.bufBytes (c : Crew) (k : Nat) : List Byte → Crew
  | [] => c
  | b :: t =>
    Crew.bufBytes (if storeLands k then { c with chunk := { c.chunk with bytes := SMap.set c.chunk.bytes k b } } else c) (k + 1) t
def Crew.bufTag (c : Crew) (word : Nat) (t : Tag) : Crew :=
  { c with chunk := { c.chunk with tags := SMap.set c.chunk.tags word t } }

/-- Keys of the grains an access touches: its first and last byte's (an access is aligned and at most 32 bytes; a
larger one passes each grain it touches). -/
def accessLocs (k n g : Nat) : List Nat :=
  insertNat [locNumber k g] (locNumber (k + (n - 1)) g)

/-- The caches meet the line of an access to global memory (R18). -/
def Crew.meet (c : Crew) (k : Nat) (header tagged : Bool) : Crew :=
  if k < scratchKey then { c with chunk := { c.chunk with met := ⟨k / 128, header, tagged⟩ :: c.chunk.met } } else c

/-- Enter an access in the read, write or reduction signature, and register with its arbiter (R79, R80). -/
def Crew.enterRead (c : Crew) (k n g : Nat) : Crew :=
  { c with chunk := { c.chunk with
      rsig := (accessLocs k n g).foldl (fun b l => unionNat b (sigBits l)) c.chunk.rsig,
      arbs := insertNat c.chunk.arbs (arbiterOf k) } }
def Crew.enterWrite (c : Crew) (k n g : Nat) : Crew :=
  { c with chunk := { c.chunk with
      wsig := (accessLocs k n g).foldl (fun b l => unionNat b (sigBits l)) c.chunk.wsig,
      arbs := insertNat c.chunk.arbs (arbiterOf k) } }
def Crew.enterRed (c : Crew) (k n g : Nat) : Crew :=
  { c with chunk := { c.chunk with
      dsig := (accessLocs k n g).foldl (fun b l => unionNat b (sigBits l)) c.chunk.dsig,
      arbs := insertNat c.chunk.arbs (arbiterOf k) } }

/-- Remember a translation of the chunk (R394). -/
def Crew.usePage (c : Crew) (p : Page) : Crew :=
  if c.chunk.pages.contains (p.base, p.size) then c
  else { c with chunk := { c.chunk with pages := c.chunk.pages ++ [(p.base, p.size)] } }

/-- Deferred records of a chunk, one per lane (R76). -/
def Deferred.count : Deferred → Nat
  | .red _ _ _ ts => ts.length
  | .hacc _ _ _ ps => ps.length

/-- Store-buffer lines of a chunk: distinct 128-byte lines, and eight records a line (R76). -/
def Chunk.lines (k : Chunk) : Nat :=
  (k.bytes.foldl (fun acc e => insertNat acc (e.1 / 128)) []).length
    + ((k.recs.map Deferred.count).sum + 7) / 8

/-- Would the crew, as it would stand, break a resource limit of R74? Lines and pool entries of the other crews count
with it. -/
def State.overLimits (s : State) (ci : Nat) (c : Crew) : Bool :=
  let others := (List.range s.crews.length).filter fun k => k != ci && (s.crew k).core == c.core
  decide (Config.signatureBits < c.chunk.rsig.length) || decide (Config.signatureBits < c.chunk.wsig.length)
    || decide (Config.chunkLines < c.chunk.lines) || decide (Config.chunkCheckpoints < c.chunk.ckpt.length)
    || (decide (0 < c.chunk.lines)
        && decide (Config.coreLines < c.chunk.lines + (others.map fun k => (s.crew k).chunk.lines).sum))
    || (decide (0 < c.chunk.ckpt.length)
        && decide (Config.poolCheckpoints < c.chunk.ckpt.length
          + ((others.filter fun k => (s.crew k).quad == c.quad).map fun k => (s.crew k).chunk.ckpt.length).sum))

/-! ## Squash (R62, R83, R84) -/

/-- Restore the chunk's start; a squash for any cause counts in TOTAL (R75), a conflict in CONSEC too. -/
def Crew.squash (c : Crew) (conflict : Bool) : Crew :=
  let inChunk := match c.wake with
    | some (.sector _) => true
    | some .home => true
    | _ => false
  { c with
    arch := c.chunk.start
    chunk := { start := c.chunk.start }
    squashTotal := (c.squashTotal + 1) % 2 ^ 56
    consec := if conflict then min 6 (c.consec + 1) else c.consec
    pend := []
    lateFrees := c.lateFrees.filter fun f => !(c.pend.any fun p => p.lane == f % 32 && p.dest.contains (BitVec.ofNat 8 (f / 32)))
    wake := if inChunk then none else c.wake
    expansion := none
    doom := none }

/-- Threads have come back to a crew: where its bundle is another now, it no longer stands at the instruction it waited at, and is not
blocked there (R64). A wait for something that an executed instruction has begun goes on (DESIGN CHOICE, entry 58). -/
def Crew.rejoin (c old : Crew) : Crew :=
  if c.bundle == old.bundle && c.pc == old.pc then c
  else match c.wake with
    | some (.barrier _) | some (.sector _) => { c with wake := none }
    | _ => c

/-- A composite bundle falls back (R62): its threads run on in their home crews, in solo mode. The 64 cycles of R61 run on. -/
def State.fallBack (s : State) (ci : Nat) : State :=
  let c := s.crew ci
  let s := c.homes.foldl (fun s h =>
    let old := s.crew h.2
    let t := { old.thread h.1 with st := .active }
    let hc := (old.setThread h.1 t).rejoin old
    s.setCrew h.2 { hc with chunk := { hc.chunk with start :=
      { hc.chunk.start with threads := hc.chunk.start.threads.set h.1 t } } }) s
  let q := s.quad c.quadNo
  let es := q.regroup.filterMap fun e =>
    if e.1 = c.entry then
      let x := { e.2 with running := none }
      if x.waiting.isEmpty then none else some (e.1, x)
    else some e
  (s.setQuad c.quadNo { q with regroup := es }).setCrew ci { c with place := .retired, homes := [], arch := {}, chunk := {} }

/-- Squash a crew's chunk (R83); a composite restarts after a first or second conflict and falls back otherwise (R62). -/
def State.squashCrew (s : State) (ci : Nat) (conflict : Bool) : State :=
  let c := s.crew ci
  let s := { s with grants := s.grants.filter fun g => g.2 != ci }
  if c.isComposite then
    if conflict && decide (c.consec + 1 < 3) then s.setCrew ci (c.squash conflict) else (s.setCrew ci (c.squash conflict)).fallBack ci
  else s.setCrew ci (c.squash conflict)

/-- Is a crew's chunk in flight (R80)? -/
def Crew.inFlight (c : Crew) : Bool := c.dirty || !c.chunk.arbs.isEmpty

/-- Squash every other crew's chunk that a test selects. -/
def State.squashWhere (s : State) (ci : Option Nat) (t : Crew → Bool) : State :=
  (List.range s.crews.length).foldl (fun s k =>
    if some k != ci && (s.crew k).inFlight && t (s.crew k) then s.squashCrew k true else s) s

/-- What a committer's signatures do to an in-flight chunk (the table of R80), at the arbiters that both hold. -/
def commitMeets (w d : List Nat) (arbs : List Nat) (c : Crew) : Bool :=
  meetsNat arbs c.chunk.arbs
    && (sigMeets w c.chunk.rsig || sigMeets w c.chunk.wsig || sigMeets w c.chunk.dsig
      || sigMeets d c.chunk.rsig || sigMeets d c.chunk.wsig)

/-- Does a chunk's signature meet a location (R79)? -/
def sigHas (sig : List Nat) (loc : Nat) : Bool := (sigBits loc).all sig.contains

/-- A write of some locations by an event (R87): keys with the grain they are entered at. -/
def writeMeets (locs : List (Nat × Nat)) (c : Crew) : Bool :=
  locs.any fun (k, g) => c.chunk.arbs.contains (arbiterOf k)
    && (let l := locNumber k g
        sigHas c.chunk.rsig l || sigHas c.chunk.wsig l || sigHas c.chunk.dsig l)

/-- The squashes of an event that writes locations (R87). -/
def State.eventSquash (s : State) (ci : Option Nat) (locs : List (Nat × Nat)) : State := s.squashWhere ci (writeMeets locs)

/-- Write committed bytes as an event does. -/
def State.pokeBytes (s : State) (k : Nat) (bs : List Byte) : State := { s with mem := Memory.stores s.mem k bs }
def State.pokeTag (s : State) (word : Nat) (t : Tag) : State := { s with tags := Tags.write s.tags word t }

/-- A line of global memory has been written: no L1 slice and no header partition keeps a copy (R80, R101), and its L2 slice
holds it dirty until it is brought to DRAM (R96), but for the coherent window, which never is (R367). -/
def State.noteUnflushed (s : State) (k : Nat) : State :=
  if k < scratchKey then
    let s := s.dropCopies true fun l => l == k / 128
    if inWindow k then s
    else
      let s := s.l2Put (k / 128)
      { s with unflushed := insertNat s.unflushed (k / 128) }
  else s

/-! ## Commit (R80, R92): the operations live in Commit.lean; here only its beginning -/

/-- The arbiters that a chunk's commit needs: those of its written and deferred locations (R80, R81). -/
def Chunk.needs (k : Chunk) : List Nat :=
  let a := k.bytes.foldl (fun a e => insertNat a (arbiterOf e.1)) []
  let a := k.tags.foldl (fun a e => insertNat a (arbiterOf (8 * e.1))) a
  k.recs.foldl (fun a r => match r with
    | .red _ _ _ ts => ts.foldl (fun a t => insertNat a (arbiterOf t.key)) a
    | .hacc _ core _ _ => insertNat a (512 + core)) a

/-- The chunk ends: pending results are drained and the grants are wanted (R74, R80, R321). -/
def Crew.beginCommit (c : Crew) : Crew :=
  let c := c.drainAll
  { c with chunk := { c.chunk with phase := .committing c.chunk.needs [] } }
def State.beginCommit (s : State) (ci : Nat) : State := s.setCrew ci (s.crew ci).beginCommit

/-! ## Traps (R43-R46) -/

/-- Is the trap ILLEGAL_OPCODE or ILLEGAL_ENCODING, at whose entry v217 and v218 receive NIL and DEST is 255 (R195)? -/
def illegalCode (code : Nat) : Bool := code == TrapName.illegalOpcode.code || code == TrapName.illegalEncoding.code

/-- The trap of a lane at an instruction, with the handler's operand words, destination and return address of R46; `fma` hands
its operand C over in v216. -/
def State.trapReq (s : State) (i : Instr) (c : Crew) (l : Nat) (code : Nat) : TrapReq :=
  let (a, b) := i.handlerSlots
  let word (k : Option Nat) : TWord := match k with
    | some k => match i.slots[k]? with
      | some sl => if slotInBounds c.alloc (s.homeCrew c l).arch.xi sl then s.opnd i c l k else .nil
      | none => .nil
    | none => .nil
  let d := s.destOf i c l
  { lane := l, code := code, v217 := if illegalCode code then .nil else word a,
    v218 := if illegalCode code then .nil else word b
    v216 := match i with
      | .fma _ _ => some (word (some 3))
      | _ => none
    dest := if d < 224 && !illegalCode code then d else 255, op := i.opcode,
    next := (c.thread l).pc + BitVec.ofNat 64 (if c.expansion.isSome then 8 else opLength i.opcode) }

/-- Where a trap leads. -/
inductive Fate where
  | fatal (code : Nat)
  | enter (pc : BitVec 64)
  | xfault (va : BitVec 64) (cause : Nat)
  deriving DecidableEq, Repr

/-- The handler-table entry decides (R43, R45). HTAB 0 makes every trap fatal (R376). An entry that software changes while a
kernel uses it may be found old or new; the model reads the committed one (DESIGN CHOICE, entry 51). -/
def State.fate (s : State) (c : Crew) (t : TrapReq) : Fate :=
  if !handlerAllowed t.code then .fatal t.code
  else if c.htab = 0 then .fatal t.code
  else
    let va := c.htab + BitVec.ofNat 64 (8 * t.index)
    match s.xlate c.core (s.asidOf c) va.toNat true false false with
    | .fault cause => .xfault va cause
    | .ok p =>
      let e := Memory.nat s.mem (p.key va.toNat) 8
      if e = 0 then .fatal t.code
      else if e % 8 ≠ 0 ∨ 2 ^ 56 ≤ e then .fatal TrapName.badHandler.code
      else .enter (BitVec.ofNat 64 e)

/-- Taking an exception: a lane enters its handler (R46). Its pending results are drained first; v216-v220 and TRAPINFO are
written, the PC becomes the table's entry, the macro step returns to 0 (R361). -/
def Crew.enterHandler (c : Crew) (t : TrapReq) (pc : BitVec 64) : Crew :=
  let c := c.settled t.lane
  let c := c.writeV 220 t.lane (makeWord .code t.next)
  let c := c.writeV 217 t.lane t.v217
  let c := c.writeV 218 t.lane t.v218
  let c := c.writeV 219 t.lane ⟨.int, t.info⟩
  let c := match t.v216 with
    | some w => c.writeV 216 t.lane w
    | none => c
  c.setThread t.lane { c.thread t.lane with pc := pc, mstep := 0, trapInfo := t.info }

/-- Return from a handler (R47): the result goes to DEST, the PC to the word of v220. -/
def Crew.leaveHandler (c : Crew) (l dest : Nat) (w : TWord) (pc : BitVec 64) : Crew :=
  let c := if dest < 224 then c.writeV dest l w else c
  c.setThread l { c.thread l with pc := pc, mstep := 0 }

end Sys2Proof.Machine
end

