-- ==== Sys2Proof/Machine/Operands.lean ====
section
/-! DEFINITION. Operand forms: payloads (R26), addresses and their checks (R104, R182, R244-R248), what an access moves
(R27, R249, R250), Resolve (R101), Canon and key equality (R35, R36), TILE handles (R33, R34). -/

namespace Sys2Proof

/-- The payload a typed opcode reads: 0 for UNDEF (R26). -/
def TWord.pay (w : TWord) : BitVec 64 := if w.tag = .undef then 0 else w.payload

/-- Bytes an access type moves (R187, R245). -/
def Acc.bytes : Acc → Nat
  | .i8 | .u8 => 1
  | .i16 | .u16 | .f16 | .bf16 => 2
  | .i32 | .u32 | .f32 => 4
  | .w | .i64 | .f64 | .raw => 8
  | .v16 => 16
  | .v32 => 32

/-- Base tags INT and RAW (R244). -/
def TWord.isAddr (w : TWord) : Bool := w.tag == .int || w.tag == .raw

/-- Words HDR and FWD, which only `stnb` stores (R250). -/
def TWord.isHeader (w : TWord) : Bool := w.tag == .hdr || w.tag == .fwd

/-- The M-format address (R182). -/
def MOps.addr (o : MOps) (base idx : TWord) : BitVec 64 :=
  base.payload + (if o.idx = 255 then 0 else idx.payload <<< o.sc.toNat) + o.off.signExtend 64

/-- The field offset of `ldf` and `stf`, exact (R244). -/
def MOps.fieldOffset (o : MOps) (idx : TWord) : Int :=
  (if o.idx = 255 then 0 else idx.payload.toInt * 2 ^ o.sc.toNat) + o.off.toInt

/-- Sign-extended and zero-extended numbers as INT words. -/
def signExt (n v : Nat) : TWord := intWord (signedOf n v)
def zeroExt (v : Nat) : TWord := intWord v

/-- The 8-byte pieces of a vector access as RAW words (R246). -/
def rawWords : Nat → List Byte → List TWord
  | 0, _ => []
  | n + 1, bs => ⟨.raw, BitVec.ofNat 64 (Machine.leNat (bs.take 8))⟩ :: rawWords n (bs.drop 8)

/-- What a load delivers (the load columns of R27): the bytes, the stored tag, and whether the storage keeps tags; `nb` for
`ldnb`, which delivers HDR and FWD as they are. -/
def Acc.deliver (a : Acc) (tagged nb : Bool) (tag : Tag) (bs : List Byte) : List TWord :=
  let n := Machine.leNat bs
  match a with
  | .w => [⟨if !tagged then .raw else if !nb && (tag == .hdr || tag == .fwd) then .raw else tag, BitVec.ofNat 64 n⟩]
  | .i8 => [signExt 8 n] | .i16 => [signExt 16 n] | .i32 => [signExt 32 n] | .i64 => [signExt 64 n]
  | .u8 | .u16 | .u32 => [zeroExt n]
  | .f16 => [⟨.f16, BitVec.ofNat 64 n⟩] | .bf16 => [⟨.bf16, BitVec.ofNat 64 n⟩] | .f32 => [⟨.f32, BitVec.ofNat 64 n⟩]
  | .f64 => [⟨.f64, BitVec.ofNat 64 n⟩] | .raw => [⟨.raw, BitVec.ofNat 64 n⟩]
  | .v16 => rawWords 2 bs | .v32 => rawWords 4 bs

/-- The bytes a store writes (R27, R246). -/
def Acc.storeBytes (a : Acc) (ws : List TWord) : List Byte :=
  if a.regs = 1 then Machine.leBytes a.bytes ((ws.headD .nil).payload.toNat) else ws.flatMap fun w => Machine.leBytes 8 w.payload.toNat

/-- The tags a store leaves in tagged storage, one per word touched (the store columns of R27). -/
def Acc.storeTags (a : Acc) (ws : List TWord) : List Tag :=
  match a with
  | .w => [(ws.headD .nil).tag]
  | .i64 => [.int]
  | .f64 => [.f64]
  | .v16 | .v32 => ws.map fun _ => .raw
  | _ => [.raw]

/-- The canonical form of a key that is no REF (R35); none where Canon raises TAG. -/
def canonPlain (w : TWord) : Option TWord :=
  let fix (t : Tag) (f : BinFmt) (p : BitVec 64) : TWord :=
    let n := p.toNat % 2 ^ f.width
    if n = f.signBit then ⟨t, 0⟩
    else if (f.decode n).isNan then ⟨t, BitVec.ofNat 64 (f.canonNan.getD 0)⟩ else ⟨t, BitVec.ofNat 64 n⟩
  match w.tag with
  | .undef | .hdr | .fwd => none
  | .nil => some ⟨.nil, 0⟩
  | .bool => some (boolWord (w.payload != 0))
  | .f64 => some (fix .f64 binF64 w.payload)
  | .f32 => some (fix .f32 binF32 w.payload)
  | .f16 => some (fix .f16 binF16 w.payload)
  | .bf16 => some (fix .bf16 binBF16 w.payload)
  | t => some (makeWord t w.payload)

end Sys2Proof

namespace Sys2Proof.Machine

open Sys2Proof

/-- Equal keys (R36). -/
def HKey.eqv (a b : HKey) : Bool :=
  if a.word.tag == .ref && b.word.tag == .ref then a.addr == b.addr else a.canon == b.canon

/-! ## Addresses -/

/-- Where a lane's access leads: a key with the storage's attributes, a trap, or a translation fault. -/
inductive Addr where
  | ok (key : Nat) (tagged : Bool) (grain : Nat) (page : Option Page)
  | trap (code : Nat)
  | xfault (va : BitVec 64) (cause : Nat)
  deriving DecidableEq, Repr

/-- A global address (R245): far is BAD_HANDLE, then ALIGN, then translation. -/
def State.globalAddr (s : State) (c : Crew) (va : BitVec 64) (size : Nat) (r w : Bool) : Addr :=
  if va.getLsbD 63 then .trap TrapName.badHandle.code
  else if va.toNat % size ≠ 0 then .trap TrapName.align.code
  else match s.xlate c.core (s.asidOf c) va.toNat r w false with
    | .fault cause => .xfault va cause
    | .ok p => .ok (p.key va.toNat) p.tagged p.grain (some p)

/-- Bytes of a team's scratch window on each of its cores (R103). -/
def Grid.windowBytes (g : Grid) : Nat := (g.scratch + 4095) / 4096 * 4096
/-- Bytes of a team's hash pool on each of its cores (R103). -/
def Grid.poolBytes (g : Grid) : Nat := (g.hash + 4095) / 4096 * 4096

/-- The key of a team offset on a core. -/
def Team.scratch (t : Team) (core off : Nat) : Nat := scratchKey + core * 2 ^ 20 + t.window + off

/-- The core a scratch address names (R104); none raises SCRATCH_RANGE. -/
def scratchCore (t : Team) (core : Nat) (a : Nat) : Option Nat :=
  if 2 ^ 23 ≤ a then none
  else if a / 2 ^ 22 = 0 then (if a / 2 ^ 20 % 4 = 0 then some core else none)
  else
    let k := core / 4 * 4 + a / 2 ^ 20 % 4
    if t.cores.contains k then some k else none

/-- A scratch address of a team on a core (R104): SCRATCH_RANGE, then ALIGN to `align`. -/
def scratchOf (t : Team) (g : Grid) (core : Nat) (a : BitVec 64) (size align : Nat) : Addr :=
  match scratchCore t core a.toNat with
  | none => .trap TrapName.scratchRange.code
  | some k =>
    let off := a.toNat % 2 ^ 20
    if g.windowBytes < off + size ∨ Config.scratchBytes < off + size then .trap TrapName.scratchRange.code
    else if off % align ≠ 0 then .trap TrapName.align.code
    else .ok (t.scratch k off) true 1 none
def State.scratchAddr (s : State) (c : Crew) (a : BitVec 64) (size align : Nat) : Addr :=
  scratchOf (s.teamOf c) (s.gridOf c) c.core a size align

/-- The absent sectors among the 32-byte sectors of an access (R106), by sector key. -/
def State.absentIn (s : State) (k n : Nat) : List Nat :=
  ((List.range ((k + n - 1) / 32 - k / 32 + 1)).map fun j => k / 32 + j).filter fun x => s.absent.contains x

/-- Does an engine command still have to write a sector that an access touches (R94)? Scratch has its presence bits instead. -/
def State.engineOwns (s : State) (k n : Nat) : Bool :=
  s.engines.any fun e => e.2.queue.any fun q => q.far.all Prod.snd && q.sectors.any fun x =>
    x.bytes.any fun b => decide (k / 32 ≤ b.key / 32) && decide (b.key / 32 ≤ (k + n - 1) / 32) && decide (b.key < scratchKey)

/-- Must an access to a location wait: its arbiter is granted to another crew (R80), or an engine has sectors of the line to
write (R94)? -/
def State.mustHold (s : State) (ci : Nat) (k n : Nat) : Bool :=
  s.grants.any (fun g => g.1 == arbiterOf k && g.2 != ci) || s.engineOwns k n

/-- Must an access that a home does not park wait: for these, or for the end of a scrub lock (R399)? -/
def State.mustWait (s : State) (ci : Nat) (k n : Nat) : Bool := s.mustHold ci k n || s.locks.contains (k / 128)

/-! ## The chunk's loads and stores (R249) -/

/-- The words a load delivers from a key. -/
def State.loadWords (s : State) (c : Crew) (a : Acc) (nb : Bool) (k : Nat) (tagged : Bool) : List TWord :=
  a.deliver tagged nb (s.viewTag c (k / 8)) (s.viewBytes c k a.bytes)

/-- Buffer the tags of consecutive words. -/
def Crew.bufTags (c : Crew) (word : Nat) : List Tag → Crew
  | [] => c
  | t :: ts => Crew.bufTags (c.bufTag word t) (word + 1) ts

/-- Buffer a store (R76): bytes, and tags where the storage keeps them; enter the write signature. A store through a RAW mapping
leaves the word's tag in memory as it was: R29 lets a later TAGGED read give the tag last written or NIL, and the model
always gives the tag last written (DESIGN CHOICE, entry 51). -/
def Crew.store (c : Crew) (a : Acc) (ws : List TWord) (k : Nat) (tagged : Bool) (grain : Nat) : Crew :=
  let c := c.bufBytes k (a.storeBytes ws)
  let c := if tagged then c.bufTags (k / 8) (a.storeTags ws) else c
  (c.enterWrite k a.bytes grain).meet k false tagged

/-- Note the page of an access (R394). -/
def Crew.usePage? (c : Crew) (p : Option Page) : Crew := match p with
  | some p => c.usePage p
  | none => c

/-! ## Resolve and Canon (R35, R101) -/

/-- What Resolve gives: the object's address and header, a trap, a fault, or a wait. -/
inductive Resolved where
  | ok (addr : Nat) (hdr : BitVec 64) (key grain : Nat) (tagged : Bool)
  | trap (code : Nat)
  | xfault (va : BitVec 64) (cause : Nat)
  | wait
  deriving DecidableEq, Repr

/-- Read headers from `a` on, `hops` more forwardings allowed (R101); the reads enter the read signature. -/
def State.resolveFrom (s : State) (ci : Nat) : Nat → Crew → Nat → Crew × Resolved
  | hops, c, a =>
    match s.globalAddr c (BitVec.ofNat 64 a) 8 true false with
    | .trap code => (c, .trap code)
    | .xfault va cause => (c, .xfault va cause)
    | .ok k tagged grain page =>
      if s.mustWait ci k 8 then (c, .wait)
      else
        let c := ((c.enterRead k 8 grain).meet k true tagged).usePage? page
        let h := BitVec.ofNat 64 (leNat (s.viewBytes c k 8))
        let t := if tagged then s.viewTag c (k / 8) else .raw
        if t = .hdr then (c, .ok a h k grain tagged)
        else if t ≠ .fwd then (c, .trap TrapName.tag.code)
        else match hops with
          | 0 => (c, .trap TrapName.fwdChain.code)
          | hops + 1 => s.resolveFrom ci hops c (h.toNat % 2 ^ 56)

/-- Resolve (R101). -/
def State.resolve (s : State) (ci : Nat) (c : Crew) (w : TWord) : Crew × Resolved :=
  if w.tag ≠ .ref then (c, .trap TrapName.tag.code) else s.resolveFrom ci Config.hopsMax c (w.payload.toNat % 2 ^ 56)

/-- SIZE and IHASH of a header (R30). -/
def hdrSize (h : BitVec 64) : Nat := h.toNat / 2 ^ 24 % 2 ^ 16
def hdrIhash (h : BitVec 64) : Nat := h.toNat / 2 ^ 4 % 2 ^ 20

/-- What Canon gives (R35). -/
inductive Canoned where
  | ok (k : HKey)
  | trap (code : Nat)
  | xfault (va : BitVec 64) (cause : Nat)
  | wait
  deriving DecidableEq, Repr

/-- Canon (R35) in the instruction's chunk. `needHash` is false for `ident`, which compares addresses only (R207). -/
def State.canon (s : State) (ci : Nat) (c : Crew) (w : TWord) (needHash : Bool := true) : Crew × Canoned :=
  if w.tag = .ref then
    match s.resolve ci c w with
    | (c, .ok a h _ _ _) =>
      if needHash && hdrIhash h == 0 then (c, .trap TrapName.idhash.code)
      else (c, .ok ⟨w, ⟨.ref, BitVec.ofNat 64 (hdrIhash h)⟩, a⟩)
    | (c, .trap code) => (c, .trap code)
    | (c, .xfault va cause) => (c, .xfault va cause)
    | (c, .wait) => (c, .wait)
  else match canonPlain w with
    | none => (c, .trap TrapName.tag.code)
    | some k => (c, .ok ⟨w, k, 0⟩)

/-! ## TILE handles (R33, R34, R280) -/

/-- A bit field of a payload. -/
def field (w : BitVec 64) (hi lo : Nat) : Nat := w.toNat / 2 ^ lo % 2 ^ (hi + 1 - lo)

/-- A kind 0 handle: the reservation of the issuing crew's quadrant that it names (R34, R280). -/
def State.handle0 (s : State) (c : Crew) (w : TWord) : Except Nat Resv :=
  if w.tag ≠ .tile then .error TrapName.tag.code
  else if field w.payload 63 60 ≠ 0 ∨ field w.payload 59 58 ≠ 0 ∨ field w.payload 51 0 ≠ 0
      ∨ field w.payload 57 56 ≠ c.quad then .error TrapName.badHandle.code
  else match (s.quad c.quadNo).resv.find? fun r => r.index == field w.payload 55 52 && r.team == c.team with
    | some r => .ok r
    | none => .error TrapName.badHandle.code

/-- A tile of accumulators (R33). -/
structure AccTile where
  row0 : Nat
  rows : Nat
  col0 : Nat
  cols : Nat
  deriving DecidableEq, Repr

/-- A kind 1 handle of the issuing crew's quadrant (R33, R34, R280). -/
def accTile (c : Crew) (w : TWord) : Except Nat AccTile :=
  if w.tag ≠ .tile then .error TrapName.tag.code
  else
    let t : AccTile := ⟨field w.payload 55 48, field w.payload 47 40, field w.payload 39 32, field w.payload 31 23⟩
    if field w.payload 63 60 ≠ 1 ∨ field w.payload 59 58 ≠ 0 ∨ field w.payload 22 0 ≠ 0 ∨ field w.payload 57 56 ≠ c.quad
        ∨ 127 < t.row0 ∨ t.rows = 0 ∨ 128 < t.rows ∨ 128 < t.row0 + t.rows ∨ t.cols = 0 ∨ 256 < t.cols
        ∨ 256 < t.col0 + t.cols then .error TrapName.badHandle.code
    else .ok t

/-- A kind 3 handle: the view record's global address (R33, R34). -/
def viewAddr (w : TWord) : Except Nat Nat :=
  if w.tag ≠ .tile then .error TrapName.tag.code
  else if field w.payload 63 60 ≠ 3 ∨ field w.payload 59 56 ≠ 0 ∨ field w.payload 55 0 % 128 ≠ 0 then
    .error TrapName.badHandle.code
  else .ok (field w.payload 55 0)

end Sys2Proof.Machine
end

