-- ==== Sys2Proof/Machine/Save.lean ====
section
/-! DEFINITION. Register images in the four spill formats (R256), crew records and the save area (R406-R408). -/

namespace Sys2Proof.Machine

open Sys2Proof

/-! ## Images (R256) -/

/-- Sign extension of the low 16 bits. -/
def sext16 (p : BitVec 64) : BitVec 64 := (p.extractLsb' 0 16).signExtend 64

/-- The four payload words of lanes 4j to 4j+3 in NARROW. -/
def narrowPack : List TWord → List TWord
  | a :: b :: c :: d :: t =>
    ⟨a.tag, BitVec.ofNat 64 (a.payload.toNat % 2 ^ 16 + b.payload.toNat % 2 ^ 16 * 2 ^ 16 + c.payload.toNat % 2 ^ 16 * 2 ^ 32
      + d.payload.toNat % 2 ^ 16 * 2 ^ 48)⟩ :: narrowPack t
  | _ => []

/-- A tag block word: the tags of 16 lanes, four bits each. -/
def tagBlock : List TWord → Nat
  | [] => 0
  | w :: t => w.tag.toNat + 16 * tagBlock t

/-- The format and image of 32 words (R256). -/
def spillImage (forceFull : Bool) (ws : List TWord) : Nat × List TWord :=
  let full := ws.map (fun w => ⟨.raw, w.payload⟩)
    ++ [⟨.raw, BitVec.ofNat 64 (tagBlock (ws.take 16))⟩, ⟨.raw, BitVec.ofNat 64 (tagBlock (ws.drop 16))⟩]
  match ws with
  | w0 :: w1 :: _ =>
    let d := w1.payload - w0.payload
    let affine := (List.range Config.lanes).all fun i =>
      ws.getD i .nil == ⟨.int, w0.payload + BitVec.ofNat 64 i * d⟩
    if forceFull then (3, full)
    else if ws.all fun w => w == w0 then (0, [w0])
    else if affine then (1, [⟨.int, w0.payload⟩, ⟨.int, d⟩])
    else if ws.all fun w => w == makeWord w0.tag (sext16 w.payload) then (2, narrowPack ws)
    else (3, full)
  | _ => (3, full)

/-- Words of an image of a format. -/
def imageWords : Nat → Nat
  | 0 => 1 | 1 => 2 | 2 => 8 | _ => 34

/-- Lane `i` of an image (R256); none for a tag of 15. A FULL image's payload bits that its tag does not use are cleared, as R256's
MakeWord does, where its last sentence and R25 keep the pair as it stands (DESIGN CHOICE, entry 60). -/
def imageLane (code : Nat) (ws : List TWord) (i : Nat) : Option TWord :=
  let w (k : Nat) : TWord := ws.getD k .nil
  match code with
  | 0 => some (w 0)
  | 1 => some ⟨.int, (w 0).payload + BitVec.ofNat 64 i * (w 1).payload⟩
  | 2 => some (makeWord (w (i / 4)).tag (sext16 ((w (i / 4)).payload >>> (16 * (i % 4)))))
  | _ => (Tag.ofNat? ((w (32 + i / 16)).payload.toNat / 2 ^ (4 * (i % 16)) % 16)).map fun t => makeWord t (w i).payload

/-! ## Words of committed memory -/

/-- Write words with their tags. -/
def State.pokeWords (s : State) (k : Nat) : List TWord → State
  | [] => s
  | w :: t => State.pokeWords (((s.pokeBytes k (leBytes 8 w.payload.toNat)).pokeTag (k / 8) w.tag).noteUnflushed k) (k + 8) t

/-- Read words with their tags. -/
def State.peekWords (s : State) (k : Nat) : Nat → List TWord
  | 0 => []
  | n + 1 => ⟨Tags.read s.tags (k / 8), BitVec.ofNat 64 (Memory.nat s.mem k 8)⟩ :: State.peekWords s (k + 8) n

/-! ## Crew records (R407, R408) -/

/-- The number of a thread state in a record (R407). -/
def ThreadState.num : ThreadState → Nat
  | .active => 0 | .helper => 1 | .parked => 2 | .regroup => 3 | .exited => 4

/-- A set of lanes as a mask. -/
def laneMask (ls : List Nat) : BitVec 64 := ls.foldl (fun m l => m ||| (1 <<< l)) 0

/-- Wake kind and the three wake words (R408); `seq` gives the SEQ of a fault in service. -/
def wakeWords (seq : Nat → Nat) : Option Wake → Nat × BitVec 64 × BitVec 64 × BitVec 64
  | some (.queuePop q core lanes _) => (1, BitVec.ofNat 64 (q + 32 * (core % 4)), laneMask lanes, 0)
  | some (.queuePush q core items) => (1, BitVec.ofNat 64 (q + 32 * (core % 4) + 128), laneMask (items.map Prod.fst), 0)
  | some (.tbar id phase) => (2, BitVec.ofNat 64 id, BitVec.ofNat 64 phase, 0)
  | some (.barrier _) | some .obres | some .four | some .svcEvent => (3, 0, 0, 0)
  | some (.svcReply ring last dest _) => (4, BitVec.ofNat 64 ring, BitVec.ofNat 64 last, dest.setWidth 64)
  | some (.fault n) => (5, BitVec.ofNat 64 (seq n), 0, 0)
  | _ => (0, 0, 0, 0)

def Thread.word (t : Thread) : BitVec 64 :=
  BitVec.ofNat 64 (t.pc.toNat / 8 % 2 ^ 53 + t.st.num * 2 ^ 53 + (if t.region then 2 ^ 56 else 0) + t.mstep % 32 * 2 ^ 57)

/-- The v registers that are live in some lane, ascending. -/
def Crew.liveRegs (c : Crew) : List Nat := c.arch.vregs.foldl (fun a e => insertNat a (e.1 / 32)) []

/-- Seven (or `n`) words that pack 2-bit codes by register number. -/
def packCodes (codes : List (Nat × Nat)) (n : Nat) : List TWord :=
  (List.range n).map fun k =>
    ⟨.int, BitVec.ofNat 64 (((codes.filter fun e => e.1 / 32 = k).map fun e => e.2 * 2 ^ (2 * (e.1 % 32))).sum)⟩

/-- The fixed part of a crew record, 162 words (the last is the unassigned word at 0x508). A crew that has parked at `svc` keeps
kind 4 when its replies have come (R386). -/
def Crew.recordWords (seq : Nat → Nat) (c : Crew) : List TWord :=
  let live := c.liveRegs
  let (kind, w0, w1, w2) := wakeWords seq (c.wake.or (c.svcLeft.map Prod.snd))
  let int (b : BitVec 64) : TWord := ⟨.int, b⟩
  let fmts := live.map fun r => (r, (spillImage false ((List.range 32).map fun l => c.readV r l)).1)
  [int (BitVec.ofNat 64 (c.crewId + c.alloc / 8 * 2 ^ 8 + live.length * 2 ^ 16 + kind * 2 ^ 24)), int w0, int w1, int w2]
    ++ ((List.range 32).map fun l => int (c.thread l).word)
    ++ ((List.range 32).map fun l => int (c.thread l).trapInfo)
    ++ [int c.arch.nbase, int c.arch.nlimit, int c.arch.xi, int c.arch.fpflags, int c.arch.formatflag, int c.htab,
      int c.svcq, int c.hregion, int c.chunkn, int (BitVec.ofNat 64 (c.squashTotal * 256 + c.consec)), int c.clk0, int c.clk1]
    ++ ((List.range 31).map fun n => c.readS n)
    ++ ((List.range 4).map fun k =>
      int (BitVec.ofNat 64 ((live.filter fun r => r / 64 = k).map fun r => 2 ^ (r % 64)).sum))
    ++ packCodes fmts 7
    ++ packCodes c.arch.spillFmt 7
    ++ ((List.range 32).map fun l => SMap.get .nil c.replies l)
    ++ [int 0]

/-- The images of the live registers, each padded to 16 bytes. -/
def Crew.imageWords (c : Crew) : List TWord :=
  c.liveRegs.flatMap fun r =>
    let im := (spillImage false ((List.range 32).map fun l => c.readV r l)).2
    if im.length % 2 = 0 then im else im ++ [⟨.int, 0⟩]

def Crew.record (seq : Nat → Nat) (c : Crew) : List TWord := c.recordWords seq ++ c.imageWords

/-- Bytes of a record, rounded up to 64 (R407). -/
def Crew.recordBytes (c : Crew) : Nat := (8 * (c.record id).length + 63) / 64 * 64

/-- Room for a crew's record: while threads of it stand in a regrouping entry, room for any state they may return with
(R62, R406). -/
def Crew.saveBytes (c : Crew) : Nat :=
  if (List.range Config.lanes).any fun l => (c.thread l).st == .regroup then (0x510 + 272 * c.alloc + 63) / 64 * 64
  else c.recordBytes

/-- The SEQ of a fault in service; 0 until its record is written (R397, R398, DESIGN CHOICE, entry 51). -/
def State.seqOf (s : State) (n : Nat) : Nat := ((s.faults.find? fun f => f.number == n).bind FaultRec.seq).getD 0

/-- Update a context. -/
def State.setCtx (s : State) (x : Ctx) : State := { s with ctxs := s.ctxs.map fun c => if c.slot = x.slot then x else c }

/-- Take room in the save area; none when it does not fit (R406). -/
def State.takeSave (s : State) (asid bytes : Nat) : Option (State × Ctx × Nat) :=
  match s.ctxOf asid with
  | none => none
  | some x =>
    if x.saveNext + bytes ≤ x.savesize && s.paUsable (x.savebase + x.saveNext)
        && s.paUsable (x.savebase + x.saveNext + bytes - 1) then
      some (s.setCtx { x with saveNext := x.saveNext + bytes, saveUsed := x.saveUsed + bytes }, x, x.saveNext)
    else none

/-- Give room back; an empty area starts again at its base (DESIGN CHOICE, entry 19). -/
def State.giveSave (s : State) (asid bytes : Nat) : State :=
  match s.ctxOf asid with
  | none => s
  | some x =>
    let used := x.saveUsed - bytes
    s.setCtx { x with saveUsed := used, saveNext := if used = 0 then 0 else x.saveNext }

/-- Save a crew off-core and free its slot (R66, R406); it stays resident when its record does not fit. Pending results
are drained first. -/
def State.saveCrew (s : State) (ci : Nat) : State :=
  let c := (s.crew ci).drainAll
  match s.takeSave (s.asidOf c) c.saveBytes with
  | none => s.setCrew ci c
  | some (s, x, off) =>
    let s := s.pokeWords (x.savebase + off) (c.record s.seqOf)
    s.setCrew ci { c with place := .saved, saveAt := some (off, c.saveBytes), chunk := { start := c.arch } }

/-- Write the record of a saved crew again, after its state changed (R62, R386). -/
def State.rewriteRecord (s : State) (ci : Nat) : State :=
  let c := s.crew ci
  match c.saveAt, s.ctxOf (s.asidOf c) with
  | some (off, _), some x => s.pokeWords (x.savebase + off) (c.record s.seqOf)
  | _, _ => s

/-- Are the replies of a `svc` in the crew's saved state (R386)? -/
def Crew.hasReplies (c : Crew) : Bool := !c.replies.isEmpty

/-- The replies of a `svc` reach its destination before any further instruction (R238). -/
def Crew.takeReplies (c : Crew) : Crew :=
  match c.svcLeft with
  | some (_, .svcReply _ _ dest _) =>
    if c.hasReplies then
      let c := (c.replies.foldl (fun c r => if dest.toNat < 224 then c.writeField dest.toNat r.1 r.2 else c) c)
      let c := if 224 ≤ dest.toNat then (match c.replies with
        | r :: _ => c.writeField dest.toNat r.1 r.2
        | [] => c) else c
      Crew.freeLate { c with svcLeft := none, replies := [], wake := none }
    else c
  | _ => c

/-- A crew parks off-core for the replies of its `svc` (R65, R238); without room in the save area it waits in its slot. -/
def State.parkSvc (s : State) (ci : Nat) : State :=
  let c := s.crew ci
  match c.svcLeft with
  | none => s
  | some (_, w) =>
    if c.place != .resident then s
    else
    let s := (s.setCrew ci { c with wake := if c.hasReplies then none else some w, expansion := none }).saveCrew ci
    let c := s.crew ci
    if c.place == .resident && c.hasReplies then s.setCrew ci (c.takeReplies).freshChunk else s

/-- Read a crew's registers back from its record (R407): uniform registers and the images of the live registers. Lanes
that hold UNDEF are free again, and so is a lane whose tag in the image has become 15, of which the spec says nothing
(DESIGN CHOICE, entry 51). -/
def State.reloadArch (s : State) (base : Nat) (c : Crew) : Arch :=
  let ws := s.peekWords (base + 0x280) 31
  let sregs := (List.range 31).foldl (fun m n =>
    let w := ws.getD n .nil
    if w = .undef then SMap.del m n else SMap.set m n w) c.arch.sregs
  let fmts := c.liveRegs.map fun r => (r, (spillImage false ((List.range 32).map fun l => c.readV r l)).1)
  let step (acc : List (Nat × TWord) × Nat) (e : Nat × Nat) : List (Nat × TWord) × Nat :=
    let n := Machine.imageWords e.2
    let im := s.peekWords acc.2 n
    let m := (List.range 32).foldl (fun m l => match imageLane e.2 im l with
      | some w => if w = .undef then m else SMap.set m (32 * e.1 + l) w
      | none => m) acc.1
    (m, acc.2 + 16 * ((n + 1) / 2))
  { c.arch with sregs := sregs, vregs := (fmts.foldl step ([], base + 0x510)).1 }

/-- Bring a saved crew back to its slot (R51, R407): its chunk starts where it was saved. -/
def State.reloadCrew (s : State) (ci : Nat) : State :=
  let c := s.crew ci
  match c.saveAt, s.ctxOf (s.asidOf c) with
  | some (off, bytes), some x =>
    let a := s.reloadArch (x.savebase + off) c
    (s.giveSave (s.asidOf c) bytes).setCrew ci { c with place := .resident, saveAt := none, arch := a, chunk := { start := a } }
  | _, _ => s.setCrew ci { c with place := .resident, saveAt := none }

end Sys2Proof.Machine
end

