-- ==== Sys2Proof/Machine/Faults.lean ====
section
/-! DEFINITION. Events that write committed memory (R87), and translation faults: the squash, the parked crew, the fault
ring (R395-R398). -/

namespace Sys2Proof.Machine

open Sys2Proof

/-! ## Events that write memory -/

/-- The locations of some bytes at every grain (R78): an event that reaches memory through no mapping squashes a chunk that
met the bytes through any. -/
def eventLocs (k n : Nat) : List (Nat × Nat) :=
  if n = 0 then []
  else (List.range ((k + n - 1) / 32 - k / 32 + 1)).flatMap fun j =>
    let a := 32 * (k / 32 + j)
    [(a, 0), (a, 1), (a, 2)]

/-- Write bytes as one event of the commit order: squash the chunks that meet them, then write (R87). -/
def State.eventWrite (s : State) (ci : Option Nat) (k : Nat) (bs : List Byte) : State :=
  ((((s.eventSquash ci (eventLocs k bs.length)).pokeBytes k bs).noteUnflushed k).noteUnflushed (k + bs.length - 1)).cleanPoison k bs.length

/-- A little-endian word written as an event. -/
def State.eventWord (s : State) (ci : Option Nat) (k : Nat) (v : BitVec 64) : State := s.eventWrite ci k (leBytes 8 v.toNat)

/-- An MSI-X message (R364). -/
def State.sendMsi (s : State) (vec : Nat) : State := { s with msix := s.msix ++ [vec] }

/-- A register of the register map by address; an unlisted one reads 0. -/
def State.bar (s : State) (a : Nat) : BitVec 64 := SMap.get 0 s.bar0 a
def State.setBar (s : State) (a : Nat) (v : BitVec 64) : State := { s with bar0 := SMap.set s.bar0 a v }

/-! ## The fault ring (R398) -/

/-- FAULTRING: offset, log2 records, vector, interrupt. -/
def State.faultRing (s : State) : Nat × Nat × Nat × Bool :=
  let v := s.bar 0x18
  (field v 21 5 * 32, field v 35 32, field v 47 40, v.getLsbD 48)

/-- INFO of a fault record (R397). -/
def FaultRec.info (f : FaultRec) : BitVec 64 :=
  BitVec.ofNat 64 (f.asid + f.cause * 2 ^ 16 + (if f.write then 2 ^ 19 else 0) + (if f.fetch then 2 ^ 20 else 0)
    + (if f.engine then 2 ^ 21 else 0) + f.die * 2 ^ 22 + f.core * 2 ^ 24 + f.quad * 2 ^ 32)

/-- Write one fault's record and advance FAULTTAIL, as one event (R398). -/
def State.putFault (s : State) (f : FaultRec) : State :=
  let (off, n, vec, irq) := s.faultRing
  let k := s.faultTail
  let a := Config.windowBase + off + 32 * (k % 2 ^ n)
  let s := s.eventWrite none a (leBytes 8 f.va.toNat ++ leBytes 8 f.info.toNat ++ leBytes 8 k ++ leBytes 8 0)
  let s := { s with
    faultTail := k + 1
    faults := s.faults.map fun g => if g.number = f.number then { g with seq := some k } else g }
  let s := f.crews.foldl (fun s ci => if (s.crew ci).wake == some (.fault f.number) then s.rewriteRecord ci else s) s
  if irq then s.sendMsi vec else s

/-- Has the fault ring room for one more record (R398)? -/
def State.faultRoom (s : State) : Bool :=
  let (_, n, _, _) := s.faultRing
  decide (4 ≤ n) && decide (n ≤ 12) && decide (s.faultTail - s.faultHead < 2 ^ n)

/-- The last fault whose record may be written now: the records are events, so they wait while a crew holds the commit token (R85),
but for the holder's own fault and those raised before it: the holder runs its chunk again after service (R84). -/
def State.lastFault (s : State) : Nat :=
  match s.token with
  | none => s.faultNo
  | some k => match (s.crew k).wake with
    | some (.fault n) => n + 1
    | _ => 0

/-- Write the pending faults that the ring has room for, oldest first (R398). -/
def State.pumpFaults (s : State) : State :=
  (s.faults.filter fun f => f.seq.isNone && decide (f.number < s.lastFault)).foldl (fun s f =>
    if s.faultRoom then s.putFault f else s) s

/-! ## Taking a fault (R396, R397) -/

/-- A walk through the current tables, cached translations left aside. -/
def State.walkNow (s : State) (asid va : Nat) (r w x : Bool) : Xlat :=
  if 2 ^ 56 ≤ va then .fault 6
  else match s.ctxOf asid with
    | none => .fault 1
    | some c => match walk s va walkLevels c.root with
      | .fault k => .fault k
      | .ok p => if r && !p.r then .fault 2 else if w && !p.w then .fault 3 else if x && !p.x then .fault 4 else .ok p

/-- A translation fault of a crew: its chunk is squashed (R83), unless the faulting instruction stands outside any chunk; the control processor resolves the fault when the current
tables translate, shares the service of a pending fault on the same page, or queues a new one; the crew parks (R396). A
composite bundle falls back and its threads meet the fault again in their home crews (R62). -/
def State.faultCrew (s : State) (ci : Nat) (va : BitVec 64) (cause : Nat) (write fetch engine : Bool)
    (outside : Bool := false) : State :=
  let c := s.crew ci
  let asid := s.asidOf c
  let die := c.core / 48
  let composite := c.isComposite
  let pa : Nat := match s.xlate c.core asid va.toNat false false false with
    | .ok p => p.key va.toNat
    | .fault _ => match s.ctxOf asid with
      | some x => walkPoison s va.toNat walkLevels x.root
      | none => 0
  let pc := c.pc
  let s := if outside && !c.dirty then s.setCrew ci { c with expansion := none } else s.squashCrew ci false
  -- RANGE kills the context (R397), and so does the read of a poisoned line (R405), unless R99 applies
  let die' (cause : Nat) (detail : BitVec 64) : State :=
    { s.setCrew ci { s.crew ci with wake := some .home } with
      dying := s.dying ++ [{ asid := asid, cause := cause, crew := some ci, pc := pc, detail := detail, teams := [c.team] }] }
  if cause = poisonCause then die' 3 (BitVec.ofNat 64 pa)
  else if composite then s
  else if cause = 6 then die' 4 va
  else match s.walkNow asid va.toNat (cause == 2) (cause == 3) (cause == 4) with
  | .ok _ =>
    -- the tables have changed since the translation was cached: the stale entries go, and the crew runs on (DEDUCED, entry 61)
    { s with tlb := s.tlb.filter fun e => !(e.asid == asid && decide (e.base ≤ va.toNat) && decide (va.toNat < e.base + e.size)) }
  | .fault _ =>
    let same := s.faults.find? fun f => f.asid == asid && f.die == die && f.va.toNat / 65536 == va.toNat / 65536
    let park (s : State) (n : Nat) : State :=
      (s.setCrew ci { s.crew ci with wake := some (.fault n) }).saveCrew ci
    match same with
    | some f =>
      park { s with faults := s.faults.map fun g => if g.number = f.number then { g with crews := g.crews ++ [ci] } else g }
        f.number
    | none =>
      let f : FaultRec := { number := s.faultNo, va := va, asid := asid, cause := cause, write := write, fetch := fetch,
                            engine := engine, die := die, core := c.core, quad := c.quad, crews := [ci], pc := pc }
      (park { s with faults := s.faults ++ [f], faultNo := s.faultNo + 1 } f.number).pumpFaults

end Sys2Proof.Machine
end

