-- ==== Sys2Proof/Machine/Flags.lean ====
section
/-! DEFINITION. The flag registers (R159), float words of a register, and the typed operations that atomics, reductions and
`hacc` share (R123, R264). The flags of each operation are computed beside its rounding, in `Float.lean` (R154-R161). -/

namespace Sys2Proof

/-- FPFLAGS as software reads it: bits [4:0] (R159). -/
def fpflagsMask : BitVec 64 := 0x1F
/-- FORMATFLAG: bit [0] (R159). -/
def formatflagMask : BitVec 64 := 1

/-- The tag of a scalar float type. -/
def FpFmt.tag : FpFmt → Tag
  | .f64 => .f64 | .f32 => .f32 | .f16 => .f16 | .bf16 => .bf16

/-- The float type of a tag. -/
def Tag.fp? : Tag → Option FpFmt
  | .f64 => some .f64 | .f32 => some .f32 | .f16 => some .f16 | .bf16 => some .bf16 | _ => none

/-- The value of a payload's low bits in a scalar float type (R26). -/
def FpFmt.value (t : FpFmt) (p : BitVec 64) : FVal := t.bin.decode (p.toNat % 2 ^ t.bin.width)

/-- A float result as a word. -/
def FpFmt.word (t : FpFmt) (r : FRes) : TWord := ⟨t.tag, BitVec.ofNat 64 r.bits⟩

/-- What `and`, `or` and `xor` do to payloads. -/
def bitOp (op : AtomOp) (a b : BitVec 64) : BitVec 64 :=
  match op with
  | .and => a &&& b
  | .or => a ||| b
  | .xor => a ^^^ b
  | _ => b

/-- The float add, min and max of atomics and `hacc`: RNE, R162. -/
def floatOp (t : FpFmt) (op : AtomOp) (a b : BitVec 64) : FRes :=
  match op with
  | .add => fAdd t.bin .rne (t.value a) (t.value b)
  | .min => fMin t.bin (t.value a) (t.value b)
  | _ => fMax t.bin (t.value a) (t.value b)

/-- Signed or unsigned 64-bit add, min and max. -/
def intOp (signed : Bool) (op : AtomOp) (a b : BitVec 64) : BitVec 64 :=
  let lt := if signed then a.slt b else a.ult b
  match op with
  | .add => a + b
  | .min => if lt then a else b
  | .max => if lt then b else a
  | op => bitOp op a b

/-- The access type of an atomic's memory word (R263); `xchg` moves whole words. -/
def atomAcc (op : AtomOp) (ty : AtomTy) : Acc :=
  match op, ty with
  | .xchg, _ => .w
  | _, .i64 | _, .u64 => .i64
  | _, .f64 => .f64
  | _, .f32 => .f32

/-- The new payload of R264's Apply, with flags, from the old bytes' payload and the operand's. -/
def atomNew (op : AtomOp) (ty : AtomTy) (old x : BitVec 64) : BitVec 64 × Flags :=
  match op, ty with
  | .xchg, _ => (x, 0)
  | op, .i64 => (intOp true op old x, 0)
  | op, .u64 => (intOp false op old x, 0)
  | op, .f64 => let r := floatOp .f64 op old x; (BitVec.ofNat 64 r.bits, r.flags)
  | op, .f32 => let r := floatOp .f32 op old x; (BitVec.ofNat 64 r.bits, r.flags)

/-- Operand tags that `hacc` allows (R123). -/
def haccTagOk (op : HaccOp) (t : Tag) : Bool :=
  match op with
  | .add | .min | .max => t == .int || t.fp?.isSome
  | .or | .and => t == .int || t == .raw || t == .bool

def HaccOp.atom : HaccOp → AtomOp
  | .add => .add | .min => .min | .max => .max | .or => .or | .and => .and

/-- Combine two words of one tag under `hacc` (R123): floats round by RNE, a BOOL counts as 0 or 1 (R25). -/
def haccCombine (op : HaccOp) (a b : TWord) : TWord × Flags :=
  match a.tag with
  | .bool => (boolWord ((if op == .and then (a.payload != 0 && b.payload != 0) else (a.payload != 0 || b.payload != 0))), 0)
  | t => match t.fp? with
    | some f => let r := floatOp f op.atom a.payload b.payload; (f.word r, r.flags)
    | none => (⟨t, intOp true op.atom a.payload b.payload⟩, 0)

end Sys2Proof
end

