-- ==== Sys2Proof/Machine/Hash.lean ====
section
/-! DEFINITION. The hash unit: home slots, layout, Probe, Place and Remove (R118, R119), the spill log (R120), status words
(R125), and which chunks its events squash (R126, R127). -/

namespace Sys2Proof.Machine

open Sys2Proof

/-! ## Keys and layout -/

/-- C of R118. -/
def HKey.mix (k : HKey) : Nat := (k.canon.payload ^^^ (BitVec.ofNat 64 k.canon.tag.toNat <<< 56)).toNat

/-- HomeSlot (R118). -/
def HKey.home (k : HKey) (b : Nat) : Nat :=
  let c := k.mix
  let f := (c / 2 ^ 48) ^^^ (c / 2 ^ 32 % 2 ^ 16) ^^^ (c / 2 ^ 16 % 2 ^ 16) ^^^ (c % 2 ^ 16)
  f * 0x9E3D % 2 ^ 16 / 2 ^ (16 - b)

/-- Ord a < Ord b (R119). -/
def HKey.ordLt (a b : HKey) : Bool := decide (a.mix < b.mix) || (a.mix == b.mix && decide (a.addr < b.addr))

/-- Probe distance of a key at a slot. -/
def HKey.dist (k : HKey) (b slot : Nat) : Nat := (slot + 2 ^ b - k.home b) % 2 ^ b

/-- Probe (R119): the slot, if the key is held, and the slots looked at. -/
def hashProbe (slots : List (Nat × HEntry)) (b : Nat) (k : HKey) : Nat → Nat → Option Nat × List Nat
  | 0, _ => (none, [])
  | fuel + 1, d =>
    let s := (k.home b + d) % 2 ^ b
    match SMap.get? slots s with
    | none => (none, [s])
    | some e =>
      let de := e.key.dist b s
      if de < d || (de == d && k.ordLt e.key) then (none, [s])
      else if e.key.eqv k then (some s, [s])
      else
        let (r, ss) := hashProbe slots b k fuel (d + 1)
        (r, s :: ss)
def HRegion.probe (r : HRegion) (k : HKey) : Option Nat × List Nat := hashProbe r.slots r.b k 32 0

/-- Robin-Hood insertion (R119); none when some key would need a distance above 31. -/
def hashInsert (b : Nat) : Nat → List (Nat × HEntry) → HEntry → Nat → Option (List (Nat × HEntry))
  | 0, _, _, _ => none
  | fuel + 1, slots, e, s =>
    let d := e.key.dist b s
    if 31 < d then none
    else match SMap.get? slots s with
      | none => some (SMap.set slots s e)
      | some x =>
        let dx := x.key.dist b s
        if d < dx || (d == dx && x.key.ordLt e.key) then hashInsert b fuel slots e ((s + 1) % 2 ^ b)
        else hashInsert b fuel (SMap.set slots s e) x ((s + 1) % 2 ^ b)

/-- Remove (R119): move back the entries behind the slot. -/
def hashRemove (b : Nat) : Nat → List (Nat × HEntry) → Nat → List (Nat × HEntry)
  | 0, slots, s => SMap.del slots s
  | fuel + 1, slots, s =>
    let n := (s + 1) % 2 ^ b
    match SMap.get? slots n with
    | none => SMap.del slots s
    | some e => if e.key.dist b n = 0 then SMap.del slots s else hashRemove b fuel (SMap.set (SMap.del slots n) s e) n

/-! ## Regions -/

/-- The region of a team on a core, or an unclaimed one. -/
def State.region (s : State) (core team : Nat) : HRegion :=
  (s.hash.find? fun r => r.core == core && r.team == team).getD { core := core, team := team }
def State.setRegion (s : State) (r : HRegion) : State :=
  { s with hash := if s.hash.any fun x => x.core == r.core && x.team == r.team
      then s.hash.map fun x => if x.core == r.core && x.team == r.team then r else x
      else s.hash ++ [r] }

/-- The core that HREGION selects (R117). -/
def hregionCore (c : Crew) : Nat := if c.hregion.getLsbD 2 then c.core / 4 * 4 + c.hregion.toNat % 4 else c.core

/-- Has the team a hash pool on the core? -/
def State.hasPool (s : State) (c : Crew) (core : Nat) : Bool :=
  (s.teamOf c).cores.contains core && (s.gridOf c).poolBytes != 0

/-- The hstat word (R125). -/
def HRegion.stat (r : HRegion) : BitVec 64 :=
  BitVec.ofNat 64 ((if r.held then r.slots.length else 0) + (if r.held then r.b * 2 ^ 16 else 0)
    + (if r.spilled then 2 ^ 20 else 0) + (if r.mixed then 2 ^ 21 else 0) + (if r.held then 2 ^ 22 else 0)
    + (if r.dropped then 2 ^ 23 else 0))

/-- The key of the scratch sector pair of a bucket line (R117). -/
def Team.bucket (t : Team) (core line : Nat) : Nat := scratchKey + core * 2 ^ 20 + t.pool + 64 * line

/-- Enter a sector in a signature, under the hash unit's arbiter (R79, R80). -/
def Crew.enterHash (c : Crew) (core : Nat) (red : Bool) (keys : List Nat) : Crew :=
  let bits := keys.foldl (fun a k => unionNat a (sigBits (locNumber k 1))) []
  { c with chunk := { c.chunk with
      rsig := if red then c.chunk.rsig else unionNat c.chunk.rsig bits
      dsig := if red then unionNat c.chunk.dsig bits else c.chunk.dsig
      arbs := insertNat c.chunk.arbs (512 + core) } }

/-- Both sectors of bucket lines. -/
def lineSectors (t : Team) (core : Nat) (lines : List Nat) : List Nat :=
  lines.flatMap fun j => [t.bucket core j, t.bucket core j + 32]

/-- Squash the chunks that met some sectors at the hash unit (R126, R127): the readers alone for a chunk's applications,
every signature for an event. -/
def State.hashSquash (s : State) (ci : Option Nat) (core : Nat) (keys : List Nat) (readersOnly : Bool) : State :=
  s.squashWhere ci fun c => c.chunk.arbs.contains (512 + core) && keys.any fun k =>
    let l := locNumber k 1
    sigHas c.chunk.rsig l || (!readersOnly && (sigHas c.chunk.wsig l || sigHas c.chunk.dsig l))

/-- The bucket lines whose contents differ between two regions; line 0 when the status does (R126). -/
def changedLines (a b : HRegion) : List Nat :=
  let diff := (a.slots.filter fun e => SMap.get? b.slots e.1 != some e.2).map Prod.fst
    ++ (b.slots.filter fun e => SMap.get? a.slots e.1 != some e.2).map Prod.fst
  let lines := diff.foldl (fun l x => insertNat l (x / 4)) []
  if a.stat = b.stat then lines else insertNat lines 0

/-! ## The spill log (R120) -/

/-- A region with its log's COUNT and the writes still to make: what a hash event or application changes, with the pages it
translated and the float flags by lane. -/
structure HashWork where
  region : HRegion
  writes : List LogWrite := []
  pages : List Page := []
  flags : List (Nat × Flags) := []
  deriving DecidableEq, Repr

/-- A word of global memory as its home's parked requests will leave it (R399): requests of a home take effect in the order they
came. -/
def State.homeWord (s : State) (key : Nat) : BitVec 64 :=
  s.parked.foldl (fun v p => match p.req with
    | .log _ w => if w.key = key then w.word.payload else v
    | .red _ op ty _ r => if r.key = key then (atomNew op ty v r.x).1 else v
    | _ => v) (BitVec.ofNat 64 (Memory.nat s.mem key 8))

/-- COUNT as the work stands. -/
def State.logCount (s : State) (w : HashWork) (key : Nat) : BitVec 64 :=
  match w.writes.reverse.find? fun x => x.key == key with
  | some x => x.word.payload
  | none => s.homeWord key

/-- How an append translates: address, and whether it reads and writes there. Instructions walk the tables (`State.logXlate`); the
records of a commit hold their pages (R393). -/
abbrev LogXlate := Nat → Bool → Bool → Xlat

def State.logXlate (s : State) (core asid : Nat) : LogXlate := fun va r w => s.xlate core asid va r w false

/-- The page of a record that holds an address; where it holds none, the answer tells a read from a write by the cause. -/
def heldPage (pages : List Page) : LogXlate := fun va _ w =>
  match pages.find? fun p => decide (p.base ≤ va) && decide (va < p.base + p.size) with
  | some p => .ok p
  | none => .fault (if w then 3 else 2)

/-- The status codes of R121. -/
def hINSERTED : Nat := 0
def hPRESENT : Nat := 1
def hFOUND : Nat := 2
def hABSENT : Nat := 3
def hDELETED : Nat := 4
def hSPILLED : Nat := 5
def hMAYBE : Nat := 6
def hFULL : Nat := 7

/-- AppendSpill (R120): the status, or a translation fault. It reads COUNT, and writes COUNT and the record only when there is room
(R395). COUNT is read as a signed INT. -/
def State.appendSpill (s : State) (xl : LogXlate) (w : HashWork) (k v : TWord) : Except (Nat × Nat) (HashWork × Nat) :=
  let w := { w with region := { w.region with spilled := true } }
  let cva := w.region.desc + 0x10
  match xl cva true false with
  | .fault c => .error (cva, c)
  | .ok p =>
    let ck := p.key cva
    let n := s.logCount w ck
    let w := { w with pages := w.pages ++ [p] }
    if (w.region.cap : Int) ≤ n.toInt then .ok (w, hFULL)
    else if !p.w then .error (cva, 3)
    else
      let va := (BitVec.ofNat 64 w.region.base + n * 16).toNat
      match xl va false true with
      | .fault c => .error (va, c)
      | .ok q =>
        .ok ({ w with
          pages := w.pages ++ [q]
          writes := w.writes ++ [⟨q.key va, k, q.tagged, q.grain⟩, ⟨q.key va + 8, v, q.tagged, q.grain⟩,
            ⟨ck, ⟨.int, n + 1⟩, p.tagged, p.grain⟩] }, hSPILLED)

/-- Place (R119). -/
def State.hashPlace (s : State) (xl : LogXlate) (w : HashWork) (k : HKey) (v : TWord) : Except (Nat × Nat) (HashWork × Nat) :=
  let r := w.region
  if r.slots.length = 2 ^ r.b then s.appendSpill xl w k.word v
  else match hashInsert r.b (2 ^ r.b + 1) r.slots ⟨k, v⟩ (k.home r.b) with
    | some slots => .ok ({ w with region := { r with slots := slots } }, hINSERTED)
    | none => s.appendSpill xl w k.word v

/-- One key of an `hacc` application (R122, R123); `lane` is the key's lowest. A key that finds the log full is dropped (R274). -/
def State.hashAcc (s : State) (xl : LogXlate) (op : HaccOp) (w : HashWork) (k : HKey) (lane : Nat) (x : TWord) :
    Except (Nat × Nat) HashWork :=
  let r := w.region
  match (r.probe k).1 with
  | some slot => match SMap.get? r.slots slot with
    | some e =>
      if e.val.tag = x.tag then
        let (v, fl) := haccCombine op e.val x
        .ok { w with region := { r with slots := SMap.set r.slots slot { e with val := v } }, flags := w.flags ++ [(lane, fl)] }
      else .ok { w with region := { r with slots := SMap.set r.slots slot { e with val := .nil }, mixed := true } }
    | none => .ok w
  | none => match s.hashPlace xl w k x with
    | .error e => .error e
    | .ok (w, st) => .ok (if st = hFULL then { w with region := { w.region with dropped := true } } else w)

/-- Group pairs by equal key, in order of the lowest lane (R273). -/
def groupKeys {α : Type} : List (HKey × α) → List (HKey × List α)
  | [] => []
  | (k, a) :: t =>
    let rest := groupKeys t
    match rest.find? fun g => g.1.eqv k with
    | some g => (k, a :: g.2) :: rest.filter fun x => !x.1.eqv k
    | none => (k, [a]) :: rest

/-- Combine equal keys' operands in lane order (R123): X, and the flags by the lane that was added. -/
def combineAll (op : HaccOp) : TWord → List (Nat × TWord) → TWord × List (Nat × Flags)
  | x, [] => (x, [])
  | x, (l, y) :: t =>
    let (z, f) := haccCombine op x y
    let (r, fs) := combineAll op z t
    (r, (l, f) :: fs)

/-- What the records of one `hacc` do to a region, or a translation fault: equal keys combined, the keys in ascending order of
their lowest lane (R123, R274). -/
def State.haccWork (s : State) (xl : LogXlate) (op : HaccOp) (region : HRegion) (lanes : List HaccRec) :
    Except (Nat × Nat) HashWork :=
  (groupKeys (lanes.map fun r => (r.key, (r.lane, r.x)))).foldl (fun acc g => match acc with
    | .error e => .error e
    | .ok w =>
      let first := g.2.headD (0, .nil)
      let (x, fs) := combineAll op first.2 (g.2.drop 1)
      s.hashAcc xl op { w with flags := w.flags ++ fs } g.1 first.1 x) (.ok { region := region })

/-- Perform a write of an append: the word keeps its tag in a TAGGED page. -/
def State.doLogWrite (s : State) (w : LogWrite) : State :=
  let s := (s.pokeBytes w.key (leBytes 8 w.word.payload.toNat)).noteUnflushed w.key
  if w.tagged then s.pokeTag (w.key / 8) w.word.tag else s

/-- The writes of appends, in order; one to a line under a scrub lock is parked at its home (R399). -/
def State.doLogWrites (s : State) (team : Nat) (ws : List LogWrite) : State :=
  ws.foldl (fun s w =>
    if s.locks.contains (w.key / 128) then { s with parked := s.parked ++ [⟨lineSlice (w.key / 128), .log team w⟩] }
    else s.doLogWrite w) s

/-- An event of the hash unit takes effect: squashes, then the region and the log (R126, R127). -/
def State.hashEffect (s : State) (ci : Option Nat) (t : Team) (core : Nat) (old : HRegion) (w : HashWork) (readersOnly : Bool) :
    State :=
  let s := s.hashSquash ci core (lineSectors t core (changedLines old w.region)) readersOnly
  let s := s.eventSquash ci (w.writes.map fun x => (x.key, x.grain))
  (s.setRegion w.region).doLogWrites w.region.team w.writes

end Sys2Proof.Machine
end

