-- ==== Sys2Proof/Machine/Issue.lean ====
section
/-! DEFINITION. How an instruction word executes (R54, R74, R86, R87, R195): the checks that every word passes, the meaning's
body, and the completion that every word shares: traps (R45, R46), last-use frees and writes (R191, R192), windows (R321),
the next PCs, the limits of the chunk (R74). -/

namespace Sys2Proof.Machine

open Sys2Proof

/-- What one lane gets out of an instruction: register writes (field and word) in order, flags, a trap in place of all that,
where it goes (none: the next instruction), and registers freed beside the last-use bits of its single fields. -/
structure LaneOut where
  lane : Nat
  writes : List (Nat × TWord) := []
  flags : BitVec 5 := 0
  fmt : Bool := false
  trap : Option TrapReq := none
  pc : Option (BitVec 64) := none
  frees : List Nat := []
  deriving DecidableEq, Repr

/-- Lanes that complete and write nothing. -/
def plainOuts (lanes : List Nat) : List LaneOut := lanes.map fun l => { lane := l }

/-- What an instruction's body answers: the state with its events performed, the crew with its buffered effects, and the
lanes' results (`fin`: the chunk ends after it); a translation fault; a wait at the instruction; the chunk's end before it; a stall; or a step that the body
finished itself. -/
inductive BodyRes where
  | ok (s : State) (c : Crew) (outs : List LaneOut) (fin : Bool)
  | xfault (va : BitVec 64) (cause : Nat) (write : Bool)
  | block (s : State) (c : Crew) (w : Wake)
  | endChunk
  | stall
  | done (s : State)

/-- A body sees the state, the crew's number, the crew as it issues, and the lanes that execute. -/
abbrev Body := State → Nat → Crew → List Nat → BodyRes

/-! ## Fetch (R197) -/

/-- The instruction word at an address, or the cause of a fetch fault. Fetch reads committed memory (DEDUCED, entry 10). -/
def State.fetchWord (s : State) (core asid va : Nat) : Except Nat (BitVec 64) :=
  match s.xlate core asid va false false true with
  | .fault cause => .error cause
  | .ok p => .ok (BitVec.ofNat 64 (Memory.nat s.mem (p.key va) 8))

/-- Does an `rgend` stand between an address and a branch target (R63)? -/
def State.rgendBefore (s : State) (core asid : Nat) : Nat → Nat → Nat → Bool
  | 0, _, _ => false
  | fuel + 1, pc, target =>
    if target ≤ pc then false
    else match s.fetchWord core asid pc with
      | .error _ => false
      | .ok w =>
        let op := w.toNat / 2 ^ 56
        if op = 0x7B then true else s.rgendBefore core asid fuel (pc + opLength op) target

/-! ## Checks before the body (R195) -/

/-- The target of a B-format branch (R183). -/
def branchTarget (pc : BitVec 64) (off : BitVec 43) : BitVec 64 := pc + 8 + off.signExtend 64 <<< 3

/-- May a lane in a region branch there: above the branch, at or below the `rgend` (R63)? -/
def State.regionBranch (s : State) (c : Crew) (off : BitVec 43) : Bool :=
  let t := branchTarget c.pc off
  decide (c.pc.toNat < t.toNat)
    && !s.rgendBefore c.core (s.asidOf c) ((s.gridOf c).codesize / 8) (c.pc.toNat + 8) t.toNat

/-- May a lane in a region execute the instruction (R63)? -/
def State.regionOk (s : State) (i : Instr) (c : Crew) : Bool :=
  i.regionAllowed && !i.uniformD
    && (match i with
      | .bra off => s.regionBranch c off
      | .brt o | .brf o => s.regionBranch c o.off
      | _ => true)

/-- Steps 3 and 4 of R195, the same for every lane: region, convergence (R59, R362), register bounds. -/
def State.staticTrap (s : State) (i : Instr) (c : Crew) (lanes : List Nat) : Option TrapName :=
  if lanes.isEmpty || !i.isWord then none
  else if (lanes.any fun l => (c.thread l).region) && !s.regionOk i c then some .compositeIllegal
  else if opIsMatrix i.opcode && (!(s.gridOf c).four || (s.gridOf c).c16 || lanes.length != 32
      || !(lanes.all fun l => (c.thread l).st == .active)) then some .illegalConvergence
  else if !(lanes.all fun l => i.slots.all (slotInBounds c.alloc (s.homeCrew c l).arch.xi)) then some .regBounds
  else none

/-- Registers of the group of `accrd` and `accred` (R292). -/
def accGroup (i : Instr) (c : Crew) (w : TWord) : Nat :=
  match i, accTile c w with
  | .accrd _, .ok t => (t.rows * t.cols + 31) / 32
  | .accred _ _, .ok t => (t.rows + 31) / 32
  | _, _ => 1

/-- Key of a byte in a cluster's fetch-unit cache (R139). -/
def fetchKey (cluster k : Nat) : Nat := cluster * 2 ^ 56 + k

/-- RANK of the view record whose handle a lane names, as `fld` finds it in the fetch unit's cache or the engine in memory (R133);
0 where no record is read. -/
def State.recordRank (s : State) (i : Instr) (c : Crew) (l : Nat) : Nat :=
  match viewAddr (s.opnd i c l 1) with
  | .error _ => 0
  | .ok a => match s.xlate c.core (s.asidOf c) a true false false with
    | .fault _ => 0
    | .ok p =>
      let k := p.key a + 9
      let now := Memory.read s.mem k
      let b := match i with
        | .fld .. => match SMap.get? s.fetchCache (fetchKey (c.core / 4) k) with
          | some old => if old != now && Config.freeBool s.freeCtr then old else now
          | none => now
        | _ => now
      if b.toNat ≤ 5 then b.toNat else 0

/-- Registers that an instruction's slot covers in a lane: the group of `accrd` and `accred`, and of coordinates the RANK that are
read (R292, R295). -/
def State.slotCount (s : State) (i : Instr) (c : Crew) (l k : Nat) (sl : Slot) : Nat :=
  match i, sl.role with
  | _, .coords => if sl.last then 5 else s.recordRank i c l
  | .accrd _, r | .accred _ _, r => if k = 0 then accGroup i c (s.opnd i c 0 1) else r.count
  | _, r => r.count

/-- Every register field that an instruction reads, writes or frees in a lane (R323); `lead` is the lowest lane that executes
it, which alone reads for an engine command (R295). -/
def State.touched (s : State) (i : Instr) (c : Crew) (lead l : Nat) : List Nat :=
  let own := (List.range i.slots.length).flatMap fun k => match i.slots[k]? with
    | none => []
    | some sl =>
      if sl.role.count = 0 || sl.field == 255 || (i.engineCommand && l != lead && !sl.last) then []
      else (List.range (s.slotCount i c l k sl)).map fun j => s.effSlot i c l k + j
  match i with
  | .mcall _ _ => []
  | _ => own ++ (match c.expansion with
    | some e => if e.last then e.frees.map BitVec.toNat else []
    | none => [])

/-- Does the instruction break R323 in a lane: does it touch the pending destination of an open window? -/
def State.hazardous (s : State) (i : Instr) (c : Crew) (lead l : Nat) : Bool :=
  (c.openDests l).any fun f => f != 255 && (s.touched i c lead l).contains f.toNat

/-- Does a live thread of the crew stand below the bundle, so that a collective must wait (R56)? -/
def Crew.liveBelow (c : Crew) (l0 : Nat) : Bool :=
  (List.range Config.lanes).any fun l => (c.thread l).live && decide ((c.thread l).key < (c.thread l0).key)

/-- The lanes that execute the instruction: a HELPER that suppresses it does not (R58). -/
def execLanes (i : Instr) (c : Crew) (lanes : List Nat) : List Nat :=
  if i.helperSuppressed then lanes.filter fun l => (c.thread l).st != .helper else lanes

/-- Another crew holds the commit token, so no event is performed (R84). -/
def State.tokenHeld (s : State) (ci : Nat) : Bool :=
  match s.token with
  | some k => k != ci
  | none => false

/-- The long-latency results that a lane still waits for (R325). -/
def Crew.waitsFor (c : Crew) (l : Nat) : List Pending := c.pend.filter fun p => p.lane == l && !p.arrived

/-- A ninth long-latency result waits until the lane's oldest has arrived (R325). -/
def Crew.makeRoom (c : Crew) (lanes : List Nat) : Crew :=
  lanes.foldl (fun c l =>
    let mine := c.waitsFor l
    if Config.pendingMax ≤ mine.length then
      match mine with
      | p :: _ => c.arrive p
      | [] => c
    else c) c

/-! ## Completion -/

/-- Last-use frees of a lane (R192, R329): single fields and groups, then what the body adds. -/
def State.freesOf (s : State) (i : Instr) (c : Crew) (o : LaneOut) : List Nat :=
  ((List.range i.slots.length).flatMap fun k => match i.slots[k]? with
    | none => []
    | some sl => if sl.last && sl.role.count != 0 then (List.range sl.role.count).map fun j => s.effSlot i c o.lane k + j else [])
  ++ o.frees

/-- Does the instruction's result stay pending under a window (R321, R326)? -/
def pendsResult (i : Instr) : Bool := i.cls == .speculative && opTakesLk i.opcode && i.lk != 0

/-- The registers of a lane that a result still to come will write: a last-use bit does not free them, so a read in the window
finds the old value (R192, R324). -/
def State.lateDests (s : State) (i : Instr) (c0 : Crew) (o : LaneOut) : List Nat :=
  if pendsResult i then o.writes.map Prod.fst
  else match i with
    | .svc _ _ _ => [s.destOf i c0 o.lane]
    | _ => []

/-- Free the registers of the lanes that completed. -/
def State.applyFrees (s : State) (i : Instr) (c0 : Crew) (c : Crew) (outs : List LaneOut) : Crew :=
  outs.foldl (fun c o => ((s.freesOf i c0 o).filter fun f => !(s.lateDests i c0 o).contains f).foldl (fun c f =>
    if f < 224 then c.freeV f o.lane else c) c) c

/-- The writes of a lane that stand: s registers take the lowest completing lane's (R191). -/
def LaneOut.standing (o : LaneOut) (lead : Nat) : List (Nat × TWord) :=
  o.writes.filter fun w => decide (w.1 < 224) || (decide (w.1 < 255) && o.lane == lead)

/-- Write the lanes' results and raise their flags at once. -/
def applyWrites (c : Crew) (lead : Nat) (outs : List LaneOut) : Crew :=
  outs.foldl (fun c o => ((o.standing lead).foldl (fun c w => c.writeField w.1 o.lane w.2) c).raise o.lane o.flags o.fmt) c

/-- A lane's writes as a pending result keeps them. -/
def LaneOut.laneWrites (o : LaneOut) (t : Nat → Bool) : List LaneWrite :=
  (o.writes.filter fun w => decide (w.1 < 255) && t w.1).map fun w => ⟨o.lane, BitVec.ofNat 8 w.1, w.2⟩

/-- The windows of `lk` instructions that an instruction opens in the lanes of its bundle (R321, R322). A uniform register is the
lowest completing lane's, and what lanes outside the bundle receive (`fill`) comes with the first window that ends
(R191, R337). -/
def openWindows (opener lead lk : Nat) (lanes : List Nat) (outs : List LaneOut) : List Pending :=
  let shared := (outs.filter fun o => o.lane == lead).flatMap (fun o => o.laneWrites fun f => decide (224 ≤ f))
    ++ (outs.filter fun o => !lanes.contains o.lane).flatMap fun o => o.laneWrites fun f => decide (f < 224)
  (outs.filter fun o => lanes.contains o.lane).map fun o =>
    { lane := o.lane, opener := opener, dest := o.writes.map fun w => BitVec.ofNat 8 w.1,
      writes := (o.laneWrites fun f => decide (f < 224)) ++ shared, flags := o.flags, fmtFlag := o.fmt, left := lk }

/-- Keep the lanes' results pending; their registers count as checkpointed at once (DESIGN CHOICE, entry 7). -/
def applyPending (c : Crew) (lead lk : Nat) (lanes : List Nat) (outs : List LaneOut) : Crew :=
  let c := outs.foldl (fun c o => o.writes.foldl (fun c w => if w.1 < 224 then c.noteWrite w.1 else c) c) c
  { c with pend := c.pend ++ openWindows c.clk1.toNat lead lk lanes outs }

/-- Where a lane goes: the next instruction, or within a macro body the next operation (R360). -/
def Crew.nextThread (c : Crew) (i : Instr) (t : Thread) (go : Option (BitVec 64)) : Thread :=
  match go with
  | some pc => { t with pc := pc, mstep := 0 }
  | none => match c.expansion with
    | some e => if e.last then { t with pc := t.pc + 8, mstep := 0 } else { t with mstep := t.mstep + 1 }
    | none => { t with pc := t.pc + BitVec.ofNat 64 (opLength i.opcode) }

/-- Move the bundle's lanes on: those that trapped are in their handlers already. -/
def Crew.advance (c : Crew) (i : Instr) (lanes : List Nat) (outs : List LaneOut) : Crew :=
  lanes.foldl (fun c l =>
    match outs.find? fun o => o.lane == l with
    | some o => if o.trap.isSome then c else c.setThread l (c.nextThread i (c.thread l) o.pc)
    | none => c.setThread l (c.nextThread i (c.thread l) none)) c

/-- The windows of the bundle's lanes are one instruction shorter (R321). -/
def Crew.passWindows (c : Crew) (lanes : List Nat) : Crew :=
  { c with pend := c.pend.map fun p => if lanes.contains p.lane then { p with left := p.left - 1 } else p }

/-- Where a trap leads in a lane: its home crew's table; in a region a handler is COMPOSITE_ILLEGAL (R42, R63). -/
def State.fateIn (s : State) (c : Crew) (t : TrapReq) : Fate :=
  match s.fate { c with htab := (s.homeCrew c t.lane).htab } t with
  | .enter pc => if (c.thread t.lane).region then .fatal TrapName.compositeIllegal.code else .enter pc
  | f => f

/-- After a macro body's last operation the call's own last-use bits free its parameters (R359): at once, or when a result of
the operation's that is still to come there has come. -/
def Crew.freeParams (c0 : Crew) (lanes : List Nat) (c : Crew) : Crew :=
  match c0.expansion with
  | some e => if e.last then
      let regs := lanes.flatMap fun l => (e.frees.filter fun f => decide (f.toNat < 224)).map fun f => 32 * f.toNat + l
      Crew.freeLate { c with lateFrees := c.lateFrees ++ regs }
    else c
  | none => c

/-- The crew after the instruction: windows, frees, writes and flags, handler entries, PCs, counters. `c0` is the crew as
it issued. -/
def State.complete (s : State) (i : Instr) (c0 c : Crew) (lanes : List Nat) (outs : List LaneOut) (entries : List (TrapReq × BitVec 64)) :
    Crew :=
  let done := outs.filter fun o => o.trap.isNone
  let lead := (leastOf (done.map LaneOut.lane)).getD 0
  let c := c.passWindows lanes
  let c := s.applyFrees i c0 c (done.filter fun o => lanes.contains o.lane)
  let c := if pendsResult i then applyPending c lead i.lk lanes done else applyWrites c lead done
  let c := c0.freeParams (lanes.filter fun l => !(outs.any fun o => o.lane == l && o.trap.isSome)) c
  let c := entries.foldl (fun c e => c.enterHandler e.1 e.2) c
  let c := c.advance i lanes outs
  { c with
    expansion := none
    clk1 := c.clk1 + 1
    chunk := { c.chunk with bundles := c.chunk.bundles + 1 } }

/-- Does the core or the quadrant, not the chunk itself, lack room (R74)? -/
def State.sharedFull (s : State) (ci : Nat) (c : Crew) : Bool :=
  s.overLimits ci { c with chunk := { c.chunk with rsig := [], wsig := [] } }
    && decide (c.chunk.lines ≤ Config.chunkLines) && decide (c.chunk.ckpt.length ≤ Config.chunkCheckpoints)

/-- A crew that cannot go on at this step. -/
def State.stalled (s : State) (ci : Nat) : State := s.setCrew ci { s.crew ci with expansion := none }

/-- A context has made progress (R403). -/
def State.noteProgress (s : State) (asid : Nat) : State :=
  { s with ctxs := s.ctxs.map fun x => if x.asid == asid then { x with progress := true } else x }

/-- A team has performed an event (R99), its context has made progress (R403). -/
def State.noteEvent (s : State) (c : Crew) : State :=
  (s.setTeam c.team { s.teamOf c with published := true }).noteProgress (s.asidOf c)

/-- The fatal trap of the lowest lane: its code goes into the failure record (R45). -/
def lowestDeath : List (TrapReq × Nat) → Option (TrapReq × Nat)
  | [] => none
  | d :: rest => match lowestDeath rest with
    | none => some d
    | some e => if e.1.lane < d.1.lane then some e else some d

/-- A bundle that issues and then meets a translation fault has issued (R242). -/
def Crew.countBundle (c : Crew) : Crew := { c with clk1 := c.clk1 + 1 }

/-- Does the instruction execute outside any chunk (R87)? -/
def outsideChunk (i : Instr) (c : Crew) : Bool := i.cls == .irrevocable && !c.isComposite

/-- The end of an instruction: `s0` and `c0` before its body, `s` and `c` after it. An attempt that a limit turns into the chunk's end
(R74) is not counted in `clk` 1; the instruction counts once, when it completes (DESIGN CHOICE, entry 60). -/
def State.conclude (i : Instr) (ci : Nat) (s0 : State) (c0 : Crew) (s : State) (c : Crew) (lanes : List Nat)
    (outs : List LaneOut) (fin : Bool) : State :=
  let fates := (outs.filterMap LaneOut.trap).map fun t => (t, s0.fateIn c0 t)
  let faults := fates.filterMap fun f => match f.2 with | .xfault va cause => some (va, cause) | _ => none
  let deaths := fates.filterMap fun f => match f.2 with | .fatal code => some (f.1, code) | _ => none
  let entries := fates.filterMap fun f => match f.2 with | .enter pc => some (f.1, pc) | _ => none
  match faults, lowestDeath deaths with
  | (va, cause) :: _, _ => (s0.setCrew ci c0.countBundle).faultCrew ci va cause false true false (outsideChunk i c0)
  | [], some (t, code) =>
    if c0.isComposite then (s0.setCrew ci c0).squashCrew ci false
    else
      let d : Doom := { code := code, lanes := laneMask ((deaths.filter fun d => d.2 == code).map fun d => d.1.lane),
                        pc := c0.pc, detail := t.detail }
      s0.setCrew ci { c0.countBundle.beginCommit with doom := some d, expansion := none }
  | [], none =>
    let c1 := s.complete i c0 c lanes outs entries
    let event := outsideChunk i c
    if !event && s0.overLimits ci c1 && c0.isComposite then (s0.setCrew ci c0).squashCrew ci false
    else if !event && s0.overLimits ci c1 && c0.dirty then s0.setCrew ci { c0.beginCommit with expansion := none }
    else if !event && s0.sharedFull ci c1 then s0.stalled ci
    else
      let pages := c1.chunk.pages.drop c0.chunk.pages.length
      let s := if event && !(outs.filter fun o => o.trap.isNone).isEmpty then s.noteEvent c1 else s
      let c2 := if event then c1.freshChunk else c1
      let c3 := if fin then c2.beginCommit else c2
      (s.setCrew ci c3).fillTlb c0.core (s.asidOf c0) pages

/-- Does a crew that has called `svc` park before the instruction: the instructions its LK allows are over, or a chunk
boundary or a blocking point comes (R238)? -/
def Crew.mustPark (c : Crew) (i : Instr) : Bool :=
  match c.svcLeft with
  | some (k, _) => decide (k ≤ c.chunk.bundles) || i.cls == .irrevocable || i == .yield
  | none => false

/-- A crew waits at an instruction (R64); one that has called `svc` parks instead. -/
def State.blockAt (s : State) (ci : Nat) (c : Crew) (w : Wake) : State :=
  if c.svcLeft.isSome then ((s.setCrew ci c).squashCrew ci false).parkSvc ci
  else s.setCrew ci { c with wake := some w, expansion := none }

/-- Execute an instruction word (R195): the chunk ends before an irrevocable one (R74, R87), an event waits for the commit
token (R84), a collective waits for live threads below it (R56); then drains, checks, body and completion. A lane that raises
HAZARD gets no effect of the instruction (R327), and an engine command that this lane would issue is not issued (DEDUCED, entry 7). -/
def issue (i : Instr) (body : Body) (s : State) : Out :=
  match s.stand with
  | none => .fault .noBundle
  | some (ci, c, lanes) =>
    if c.mustPark i then .next (if c.dirty then s.setCrew ci { c.beginCommit with expansion := none } else (s.setCrew ci c).parkSvc ci)
    else if i.cls == .irrevocable && !c.isComposite && c.dirty then .next (s.setCrew ci { c.beginCommit with expansion := none })
    else if i.cls == .irrevocable && s.tokenHeld ci then .next (s.stalled ci)
    else if i.isCollective && c.liveBelow (lanes.headD 0) then .next (s.stalled ci)
    else
      let c := c.deliverDue lanes i.drains
      let c := if opTakesLk i.opcode then c.makeRoom lanes else c
      let exe := execLanes i c lanes
      match s.staticTrap i c exe with
      | some t =>
        .next (State.conclude i ci s c s c lanes (exe.map fun l => { lane := l, trap := some (s.trapReq i c l t.code) }) false)
      | none =>
        let hz := if (s.gridOf c).debug then exe.filter (s.hazardous i c (exe.headD 0)) else []
        let run := exe.filter fun l => !hz.contains l
        let hazards : List LaneOut := hz.map fun l => { lane := l, trap := some (s.trapReq i (c.settled l) l TrapName.hazard.code) }
        match (if run.isEmpty then .ok s c [] false
            else if i.engineCommand && hz.contains (exe.headD 0) then .ok s c (plainOuts run) false
            else body s ci c run) with
        | .ok s' c' outs fin =>
          .next (State.conclude i ci s c s' c' lanes ((outs.filter fun o => !hz.contains o.lane) ++ hazards) fin)
        | .xfault va cause write =>
          .next ((s.setCrew ci c.countBundle).faultCrew ci va cause write false (decide (0xE0 ≤ i.opcode ∧ i.opcode ≤ 0xE4)) (outsideChunk i c))
        | .block s' c' w => .next (s'.blockAt ci (c'.deliverDue lanes true) w)
        | .endChunk => .next (s.setCrew ci { c.beginCommit with expansion := none })
        | .stall => .next (s.stalled ci)
        | .done s' => .next s'

/-! ## Bodies of common shapes -/

/-- A value with flags, or a trap: of a code, or of a generic lane with its cause (R37-R39) and `fma`'s third operand. -/
inductive Val where
  | word (w : TWord) (flags : BitVec 5) (fmt : Bool)
  | trap (code : TrapName)
  | generic (code : TrapName) (tagA tagB : Tag) (c : Option TWord)
  deriving DecidableEq, Repr

/-- The result of one lane from its value: written to the destination, or trapped. -/
def State.laneOf (s : State) (i : Instr) (c : Crew) (l : Nat) : Val → LaneOut
  | .word w fl fmt => { lane := l, writes := [(s.destOf i c l, w)], flags := fl, fmt := fmt }
  | .trap t => { lane := l, trap := some (s.trapReq i c l t.code) }
  | .generic t a b x =>
    { lane := l, trap := some { s.trapReq i c l t.code with generic := some (i.opcode, a.toNat, b.toNat), v216 := x } }

/-- A lane that takes a trap. -/
def trapOut (i : Instr) (s : State) (c : Crew) (l : Nat) (t : TrapName) : LaneOut :=
  { lane := l, trap := some (s.trapReq i c l t.code) }
def trapCode (i : Instr) (s : State) (c : Crew) (l code : Nat) : LaneOut := { lane := l, trap := some (s.trapReq i c l code) }

/-- A body that computes each lane's result from its own operands, by slot number. -/
def perLane (i : Instr) (f : (Nat → TWord) → Val) : Body := fun s _ c lanes =>
  .ok s c (lanes.map fun l => s.laneOf i c l (f (s.opnd i c l))) false

/-- What a lane meets when its work depends on memory: a result, a translation fault, absent sectors (R106), or a wait. -/
inductive Got where
  | out (o : LaneOut)
  | xfault (va : BitVec 64) (cause : Nat) (write : Bool)
  | absent (sectors : List Nat)
  | wait
  deriving DecidableEq, Repr

/-- Work through the lanes in ascending order, the crew's buffer in hand (R247). -/
def eachLane (f : Crew → Nat → Crew × Got) : List Nat → Crew → Crew × List Got
  | [], c => (c, [])
  | l :: t, c =>
    let (c, g) := f c l
    let (c, gs) := eachLane f t c
    (c, g :: gs)

def Got.isWait : Got → Bool
  | .wait => true
  | _ => false
def Got.sectors : Got → List Nat
  | .absent ks => ks
  | _ => []
def Got.fault? : Got → Option (BitVec 64 × Nat × Bool)
  | .xfault va cause w => some (va, cause, w)
  | _ => none
def Got.out? : Got → Option LaneOut
  | .out o => some o
  | _ => none

/-- Settle the lanes' work: a wait comes first, then a fault, then absent sectors, which block a load (R64) and stall a store
(R106); else every lane has its result. -/
def settle (s : State) (c0 : Crew) (store : Bool) (r : Crew × List Got) : BodyRes :=
  if r.2.any Got.isWait then .stall
  else match r.2.filterMap Got.fault? with
    | (va, cause, w) :: _ => .xfault va cause w
    | [] =>
      match unionNat [] (r.2.flatMap Got.sectors) with
      | [] => .ok s r.1 (r.2.filterMap Got.out?) false
      | k :: ks => if store then .stall else .block s c0 (.sector (k :: ks))

/-- A body that works through its lanes with memory in hand. -/
def laneBody (store : Bool) (f : State → Nat → Crew → Nat → Crew × Got) : Body := fun s ci c lanes =>
  settle s c store (eachLane (f s ci) lanes c)

end Sys2Proof.Machine
end

