-- ==== Sys2Proof/Machine/Commit.lean ====
section
/-! DEFINITION. Commit of a chunk (R80-R82, R92), the commit token (R84), composite bundles at `rgend` (R62), retirement of
crews, teams and grids (R53), and the events of the core that belong to them. -/

namespace Sys2Proof.Machine

open Sys2Proof

/-! ## Retirement (R53) -/

/-- HELPER and PARKED threads of a quad without ACTIVE or REGROUP threads retire (R53). -/
def Crew.retireHelpers (c : Crew) : Crew :=
  let keep (m : Nat) : Bool := (List.range 4).any fun j =>
    (c.thread (4 * m + j)).st == .active || (c.thread (4 * m + j)).st == .regroup
  (List.range Config.lanes).foldl (fun c l =>
    let t := c.thread l
    if !keep (l / 4) && (t.st == .helper || t.st == .parked) then c.setThread l { t with st := .exited } else c) c

/-- All 32 threads have exited. -/
def Crew.finished (c : Crew) : Bool := (List.range Config.lanes).all fun l => (c.thread l).st == .exited

/-- Crews of a team that have not retired; a composite bundle counts while it runs. -/
def State.teamBusy (s : State) (t : Nat) : Bool := s.crews.any fun c => c.team == t && c.place != .retired

/-- A team's last crew has retired: its window, pool, region and reservations are free; a grid whose last team has
retired is complete with status DONE (R374). -/
def State.retireTeam (s : State) (t : Nat) : State :=
  if s.teamBusy t then s
  else
    let g := (s.team t).grid
    let s := s.setTeam t { s.team t with place := .retired, pushes := [] }
    let s := { s with
      hash := s.hash.filter fun r => r.team != t
      quads := s.quads.map fun q => (q.1, { q.2 with resv := q.2.resv.filter fun r => r.team != t }) }
    let grid := s.grid g
    let done := (List.range s.teams.length).all fun k => (s.team k).grid != g || (s.team k).place == .retired
    let placed := grid.nextGang * grid.teams ≥ grid.ntx * grid.nty * grid.ntz
    if done && placed && grid.status.isNone then s.setGrid g { grid with status := some 0 } else s

/-- A crew whose threads have all exited frees its slot (R53). -/
def State.retireCrew (s : State) (ci : Nat) : State :=
  let c := s.crew ci
  if c.finished && !c.isComposite then (s.setCrew ci { c with place := .retired, wake := none }).retireTeam c.team else s

/-! ## Pre-emption requests (R69) -/

/-- Threads that wait in the regrouping entries of a team return to their home crews in ACTIVE at the `rgw`. -/
def State.ungroup (s : State) (team : Nat) : State :=
  let back (t : Thread) : Thread := { t with st := .active, pc := t.pc - 8, region := false }
  let out (s : State) (w : Nat × Nat) : State :=
    let old := s.crew w.2
    let c := (old.setThread w.1 (back (old.thread w.1))).rejoin old
    let a := c.chunk.start
    s.setCrew w.2 { c with chunk := { c.chunk with start := { a with threads := a.threads.set w.1 (back (a.threads.getD w.1 {})) } } }
  s.quads.foldl (fun s q =>
    let mine := q.2.regroup.filter fun e => e.2.team == team
    let s := mine.foldl (fun s e => e.2.waiting.foldl out s) s
    s.setQuad q.1 { s.quad q.1 with regroup := q.2.regroup.filter fun e => e.2.team != team }) s

/-- A pre-emption request reaches a crew: its chunk ends, or is squashed where it is blocked inside it; a composite falls
back; the holder of the commit token goes on to its commit (R84). -/
def State.requestPreempt (s : State) (ci : Nat) : State :=
  let c := s.crew ci
  if c.place != .resident then s
  else if c.isComposite then s.squashCrew ci false
  else
    let s := s.setCrew ci { c with preempt := true }
    if s.token == some ci then s
    else match c.wake with
      | some (.sector _) | some .home => s.squashCrew ci false
      | _ => if c.dirty && c.chunk.phase == .running then s.beginCommit ci else s

/-- Teams of a gang that have not retired. -/
def State.gangTeams (s : State) (grid gang : Nat) : List Nat :=
  (List.range s.teams.length).filter fun t =>
    let x := s.team t
    x.grid == grid && x.linear / (s.grid grid).teams == gang && x.place != .retired

/-- A gang is asked to leave, all at once (R52, R69), those of its crews that stand off-core with it. -/
def State.preemptGang (s : State) (grid gang : Nat) : State :=
  let ts := s.gangTeams grid gang
  let s := ts.foldl (fun s t => s.setTeam t { s.team t with leaving := true }) s
  let comps := (List.range s.crews.length).filter fun k => ts.contains (s.crew k).team && (s.crew k).isComposite
  let s := comps.foldl State.requestPreempt s
  let s := ts.foldl State.ungroup s
  ((List.range s.crews.length).filter fun k => ts.contains (s.crew k).team).foldl State.requestPreempt s

/-! ## What a commit applies -/

/-- Write the store buffer's bytes and tags to their homes; a poisoned line that is written whole is good again (R405). -/
def State.writeLines (s : State) (k : Chunk) : State :=
  let whole (x : Nat) : Bool := (List.range 32).all fun j => (SMap.get? k.bytes (32 * x + j)).isSome
  let s := { s with poisoned := s.poisoned.filter fun x => !whole x }
  let s := k.bytes.foldl (fun s e => (s.pokeBytes e.1 [e.2]).noteUnflushed e.1) s
  k.tags.foldl (fun s e => s.pokeTag e.1 e.2) s

/-- Apply one lane of a `red` (R266). -/
def State.applyRed (s : State) (op : AtomOp) (ty : AtomTy) (tagged : Bool) (key : Nat) (x : BitVec 64) : State × Flags :=
  let acc := atomAcc op ty
  let (new, fl) := atomNew op ty (BitVec.ofNat 64 (Memory.nat s.mem key acc.bytes)) x
  let s := (s.pokeBytes key (leBytes acc.bytes new.toNat)).noteUnflushed key
  (if tagged then s.pokeTag (key / 8) ((acc.storeTags [⟨.int, new⟩]).headD .raw) else s, fl)

/-- The crew whose flags a lane's record raises: its own, or its home crew in a composite (R63). -/
def Crew.flagHome (c : Crew) (ci l : Nat) : Nat := (SMap.get? c.homes l).getD ci

/-- Why the records of a chunk are not applied now: a line that an append writes is an engine's (R94), or the records hold no
translation of an address that an append reaches (R393). -/
inductive CommitStop where
  | wait
  | untranslated (va : Nat) (write : Bool)
  deriving DecidableEq, Repr

/-- The context of a request that reads a poisoned line dies (R405). -/
def State.poisonDeath (s : State) (asid : Nat) (crew : Option Nat) (key : Nat) : State :=
  if s.poisonedAt key then
    { s with dying := s.dying ++ [{ asid := asid, cause := 3, crew := crew, detail := BitVec.ofNat 64 key,
                                    teams := crew.toList.map fun k => (s.crew k).team }] }
  else s

/-- Apply the deferred records in order (R92): flags by lane. A record that meets a line under a scrub lock is parked at its home
(R399); of an `hacc` the hash unit takes the keys, and the log's writes are parked. -/
def State.applyRecs (ci : Nat) (c : Crew) : State → List (Nat × Flags) → List Deferred → Except CommitStop (State × List (Nat × Flags))
  | s, fl, [] => .ok (s, fl)
  | s, fl, .red op ty tagged lanes :: rest =>
    let (s, fl) := lanes.foldl (fun (a : State × List (Nat × Flags)) r =>
      if a.1.locks.contains (r.key / 128) then
        ({ a.1 with parked := a.1.parked ++ [⟨lineSlice (r.key / 128), .red (c.flagHome ci r.lane) op ty tagged r⟩] }, a.2)
      else
        let (s, f) := (a.1.poisonDeath (a.1.asidOf c) (some ci) r.key).applyRed op ty tagged r.key r.x
        (s, a.2 ++ [(r.lane, f)])) (s, fl)
    State.applyRecs ci c s fl rest
  | s, fl, .hacc op core pages lanes :: rest =>
    let old := s.region core c.team
    match s.haccWork (heldPage pages) op old lanes with
    | .error (va, cause) => .error (.untranslated va (cause == 3))
    | .ok w =>
      if w.writes.any fun x => s.engineOwns x.key 8 then .error .wait
      else
        let s := match w.pages with
          | p :: _ => s.poisonDeath (s.asidOf c) (some ci) (p.key (old.desc + 0x10))
          | [] => s
        State.applyRecs ci c (s.hashEffect (some ci) (s.teamOf c) core old w true) (fl ++ w.flags) rest

/-- Flags that a parked application raises once it is replayed (R160, R399). -/
def State.raiseLate (s : State) (ci : Nat) (fl : Flags) : State :=
  let c := s.crew ci
  if fl = 0 ∨ c.place == .retired then s
  else
    let up (a : Arch) : Arch := { a with fpflags := a.fpflags ||| fl.setWidth 64 }
    (s.setCrew ci { c with arch := up c.arch, chunk := { c.chunk with start := up c.chunk.start } }).rewriteRecord ci

/-- The trace registers of a die (R430): TRBASE, TRSIZE, TRTAIL, TRHEAD, TRLOST follow. -/
def traceReg (die : Nat) : Nat := 0x3801020 + die * 0x1000

/-- Append a `prof` record to the die's trace ring, or count the loss (R243, R431). -/
def State.appendTrace (s : State) (ci : Nat) (c : Crew) (r : ProfRec) : State :=
  let die := c.core / 48
  let reg := traceReg die
  let size := (s.bar (reg + 8)).toNat
  let tail := s.bar (reg + 16)
  let a := (s.bar reg).toNat + 16 * (tail.toNat % size)
  if (tail - s.bar (reg + 24)).toNat = size then
    s.setBar (reg + 32) (s.bar (reg + 32) + 1)
  else
    let w1 := r.n.toNat + c.crewId * 2 ^ 16 + c.quad * 2 ^ 24 + c.core % 48 * 2 ^ 26 + s.asidOf c * 2 ^ 32
    (s.eventWrite (some ci) a (leBytes 8 r.clock.toNat ++ leBytes 8 w1)).setBar (reg + 16) (tail + 1)

/-- A composite bundle's threads return to their home crews (R62): state ACTIVE, their registers, flags to the home crew, and to
the record of a home crew that is saved; `rgend` ends the home crews' chunks. What becomes of a home crew's wait is `Crew.rejoin`
(DESIGN CHOICE, entry 58). -/
def State.returnHome (s : State) (ci : Nat) : State :=
  let c := s.crew ci
  let put (h : Nat × Nat) (a : Arch) : Arch :=
    let mine := c.arch.vregs.filter fun e => e.1 % 32 = h.1
    let kept := a.vregs.filter fun e => e.1 % 32 != h.1
    let fl := SMap.get 0 c.arch.laneFlags h.1
    { a with
      threads := a.threads.set h.1 { c.thread h.1 with st := .active, region := false }
      vregs := mine.foldl (fun m e => SMap.set m e.1 e.2) kept
      fpflags := a.fpflags ||| (fl.extractLsb' 0 5).setWidth 64
      formatflag := a.formatflag ||| (fl.extractLsb' 5 1).setWidth 64 }
  let s := c.homes.foldl (fun s h =>
    let old := s.crew h.2
    let hc : Crew := { old with arch := put h old.arch, chunk := { old.chunk with start := put h old.chunk.start } }
    (s.setCrew h.2 (hc.rejoin old)).rewriteRecord h.2) s
  let s := c.homes.foldl (fun s h =>
    let hc := s.crew h.2
    if hc.dirty && hc.chunk.phase == .running then s.setCrew h.2 hc.beginCommit else s) s
  let q := s.quad c.quadNo
  let es := q.regroup.filterMap fun e =>
    if e.1 = c.entry then
      if e.2.waiting.isEmpty then none else some (e.1, { e.2 with running := none, since := s.clock.toNat })
    else some e
  (s.setQuad c.quadNo { q with regroup := es }).setCrew ci { c with place := .retired, homes := [], arch := {}, chunk := {} }

/-- Does the chunk hold nothing to make visible (R81)? -/
def Chunk.silent (k : Chunk) : Bool := k.bytes.isEmpty && k.tags.isEmpty && k.recs.isEmpty

/-- The crew after its commit (R75, R82, R84): counters, fresh chunk, retired helpers. -/
def Crew.afterCommit (c : Crew) (fl : Flags) : Crew :=
  let a := { c.arch with fpflags := c.arch.fpflags ||| fl.setWidth 64 }
  let c := { c with arch := a, chunkn := c.chunkn + 1, consec := 0, tokenAsked := false }
  c.retireHelpers.freshChunk

/-- A chunk that holds its grants commits (R80, R92), or why it does not yet. -/
def State.commitNow (s : State) (ci : Nat) (held : List Nat) : Except CommitStop State :=
  let c := s.crew ci
  let k := c.chunk
  let s1 := s.squashWhere (some ci) (commitMeets k.wsig k.dsig held)
  let s2 := s1.writeLines k
  match State.applyRecs ci c s2 [] k.recs with
  | .error e => .error e
  | .ok (s3, fl) => .ok <|
    let s4 := k.prof.foldl (fun s r => s.appendTrace ci c r) s3
    let s5 := { s4 with grants := s4.grants.filter fun g => g.2 != ci, token := if s4.token == some ci then none else s4.token }
    let global := k.bytes.any (fun e => decide (e.1 < scratchKey)) || k.recs.any fun r => match r with
      | .red .. => true
      | .hacc .. => false
    let asid := s.asidOf c
    let s6 := if global then s5.setTeam c.team { s5.teamOf c with published := true } else s5
    let s7 := if k.silent then s6
      else s6.noteProgress asid
    if c.isComposite then
      (s7.setCrew ci (fl.foldl (fun c f => c.raise f.1 f.2 false) { c with chunkn := c.chunkn + 1 })).returnHome ci
    else
      let s8 := s7.setCrew ci ((s7.crew ci).afterCommit (fl.foldl (fun a f => a ||| f.2) 0))
      match c.doom with
      | some d => { s8 with dying := s8.dying ++ [{ asid := asid, cause := 1, code := d.code, crew := some ci,
                                                     lanes := d.lanes, pc := d.pc, detail := d.detail }] }
      | none => (s8.retireCrew ci).parkSvc ci

/-! ## The events -/

/-- Is a stored line of the chunk under a scrub lock, or a line of it owned by an engine, so that its commit waits (R94, R399)? -/
def State.commitWaits (s : State) (k : Chunk) : Bool :=
  k.bytes.any (fun e => s.locks.contains (e.1 / 128) || s.engineOwns e.1 1)
    || k.recs.any fun r => match r with
      | .red _ _ _ ts => ts.any fun t => s.engineOwns t.key 1
      | .hacc .. => false

/-- No home has more parked requests than its queue holds (R399). -/
def State.queuesHold (s : State) : Bool :=
  s.parked.all fun p => decide ((s.parked.filter fun q => q.slice == p.slice).length ≤ Config.faultQueue)

/-- COMMIT_GRANT (R80): the crew's chunk is granted its next arbiter in ascending number. Nobody acquires while another
crew holds the token (R84). -/
def execCommitGrant (ci : Nat) (s : State) : Out :=
  let c := s.crew ci
  match c.chunk.phase with
  | .committing (a :: rest) held =>
    if s.tokenHeld ci || s.grants.any fun g => g.1 == a then .next s
    else .next { s.setCrew ci { c with chunk := { c.chunk with phase := .committing rest (held ++ [a]) } } with
      grants := s.grants ++ [(a, ci)] }
  | _ => .next s

/-- The commit of a chunk, as far as it need not wait: for the commit token, which only a chunk without anything to make visible and
without trace records passes (R84), for a line (R94, R399), for room in a fault queue (R399). -/
def State.tryCommit (s : State) (ci : Nat) (held : List Nat) : Except CommitStop State :=
  let k := (s.crew ci).chunk
  if (s.tokenHeld ci && !(k.silent && k.prof.isEmpty)) || s.commitWaits k then .error .wait
  else match s.commitNow ci held with
    | .error e => .error e
    | .ok t => if s.parked.length < t.parked.length && !t.queuesHold then .error .wait else .ok t

/-- Where other chunks have moved a spill log on to a page that a record of the chunk does not hold, the record takes it before the
chunk commits, or the chunk meets the translation fault (R393, DEDUCED, entry 21). -/
def State.translateRecs (s : State) (ci : Nat) (va : Nat) (write : Bool) : State :=
  let c := s.crew ci
  match s.xlate c.core (s.asidOf c) va (!write) write false with
  | .fault cause => s.faultCrew ci (BitVec.ofNat 64 va) cause write false false
  | .ok p =>
    let take : Deferred → Deferred
      | .hacc op core pages lanes => .hacc op core (p :: pages) lanes
      | d => d
    s.setCrew ci { c.usePage p with chunk := { (c.usePage p).chunk with recs := c.chunk.recs.map take } }

/-- CHUNK_COMMIT (R80). -/
def execChunkCommit (ci : Nat) (s : State) : Out :=
  let c := s.crew ci
  match c.chunk.phase with
  | .committing [] held => match s.tryCommit ci held with
    | .ok t => .next t
    | .error .wait => .next s
    | .error (.untranslated va write) => .next (s.translateRecs ci va write)
  | _ => .next s

/-- CHUNK_LIMIT_REACHED (R74, R84). -/
def chunkLimit (c : Crew) : Nat := if 3 ≤ c.consec then Config.escalatedBundles else Config.chunkBundles
def execChunkLimitReached (ci : Nat) (s : State) : Out :=
  let c := s.crew ci
  if c.chunk.phase == .running && decide (chunkLimit c ≤ c.chunk.bundles) then
    if c.isComposite then .next (s.squashCrew ci false) else .next (s.setCrew ci c.beginCommit)
  else .next s

/-- COMMIT_TOKEN_REQUEST (R84): a crew whose chunk met its sixth conflict asks before it runs again. -/
def execCommitTokenRequest (ci : Nat) (s : State) : Out :=
  let c := s.crew ci
  if c.consec = 6 && !c.tokenAsked && s.token != some ci then
    .next { s.setCrew ci { c with tokenAsked := true } with tokenQueue := s.tokenQueue ++ [ci] }
  else .next s

/-- COMMIT_TOKEN_GRANT (R84): in the order of the requests, once no chunk holds grants. -/
def execCommitTokenGrant (s : State) : Out :=
  match s.token, s.tokenQueue with
  | none, ci :: rest => if s.grants.isEmpty then .next { s with token := some ci, tokenQueue := rest } else .next s
  | _, _ => .next s

/-- LONG_LATENCY_RESULT (R321, R324): a pending result of a lane arrives; its window stays open for R323. -/
def execLongLatencyResult (ci lane k : Nat) (s : State) : Out :=
  let c := s.crew ci
  match (c.waitsFor lane)[k]? with
  | some p => .next (s.setCrew ci (c.arrive p))
  | none => .next s

/-- Lanes of a crew take traps outside an instruction's issue: they enter their handlers, or the lowest lane's fatal trap ends the
chunk (R45, R46); `pc` is the trapping instruction's. -/
def State.takeTraps (s : State) (ci : Nat) (pc : BitVec 64) (ts : List TrapReq) : State :=
  let c := s.crew ci
  let fates := ts.map fun t => (t, s.fateIn c t)
  let deaths := fates.filterMap fun f => match f.2 with | .fatal code => some (f.1, code) | _ => none
  let faults := fates.filterMap fun f => match f.2 with | .xfault va cause => some (va, cause) | _ => none
  let entries := fates.filterMap fun f => match f.2 with | .enter pc => some (f.1, pc) | _ => none
  match faults, lowestDeath deaths with
  | (va, cause) :: _, _ => s.faultCrew ci va cause false true false
  | [], some (t, code) =>
    let d : Doom := { code := code, lanes := laneMask ((deaths.filter fun d => d.2 == code).map fun d => d.1.lane),
                      pc := pc, detail := t.detail }
    s.setCrew ci { c.beginCommit with doom := some d }
  | [], none => s.setCrew ci (entries.foldl (fun c e => c.enterHandler e.1 e.2) c)

/-- HANDLER_ENTRY (R46): trapping lanes of a resident crew that runs enter their handlers. -/
def execHandlerEntry (ci : Nat) (ts : List TrapReq) (s : State) : Out :=
  let c := s.crew ci
  if c.place == .resident && c.chunk.phase == .running && c.doom.isNone && decide (ci < s.crews.length) then
    .next (s.takeTraps ci c.pc ts)
  else .next s

end Sys2Proof.Machine
end

