-- ==== Sys2Proof/Machine/Far.lean ====
section
/-! DEFINITION. Far operations as they are sent (R95, R424, R425), and the flush of lines to DRAM (R96, R260, R369). -/

namespace Sys2Proof.Machine

open Sys2Proof

/-! ## Sending far operations -/

/-- This device's number (R424, R428). -/
def State.devNum (s : State) : Nat := (s.bar 0x28F0000).toNat % 2 ^ 21

/-- Is a port up: present, enabled, with at least four good lanes (R423, R428)? -/
def State.portUp (s : State) (p : Nat) : Bool :=
  let x := SMap.get {} s.ports p
  x.up && x.en && !x.leftDown && decide (4 ≤ x.lanes)

/-- The plane to a device: the first one that is up at both ends (R425). -/
def State.planeTo (s : State) (d : Nat) : Option Nat :=
  ((List.range 18).map fun j => (d + j) % 18).find? fun p => s.portUp p && !(SMap.get 0 s.routes d).getLsbD p

/-- Device number and offset of a far address (R261, R424). -/
def farDevice (va : BitVec 64) : Nat := field va 62 42
def farOffset (va : BitVec 64) : Nat := field va 41 0

/-- The next number of a far operation from this device to another (R425). -/
def State.pairNext (s : State) (d : Nat) : Nat := SMap.get 0 s.farPair d

/-- A message goes out on a port: TXBYTES and RETRIES rise by amounts the spec does not state (R428, DESIGN CHOICE, entry 33). -/
def State.countTx (s : State) (plane : Option Nat) : State :=
  match plane with
  | none => s
  | some p =>
    let x := SMap.get {} s.ports p
    let x := { x with txBytes := x.txBytes + 1 + (Config.freeWord s.freeCtr).toNat, retries := x.retries + (Config.freeWord (s.freeCtr + 1)).toNat }
    { s with ports := SMap.set s.ports p x, freeCtr := s.freeCtr + 2 }

/-- Does the route table say that there is no such device (R425)? -/
def State.noDevice (s : State) (d : Nat) : Bool := (SMap.get 0 s.routes d).getLsbD 31

/-- An operation goes out to a device; one to a device that does not exist is never sent. -/
def State.countOut (s : State) (d : Nat) (plane : Option Nat) : State := if s.noDevice d then s else s.countTx plane

/-- A message comes in on a port (R428, DESIGN CHOICE, entry 33). -/
def State.countRx (s : State) (plane : Option Nat) : State :=
  match plane with
  | none => s
  | some p =>
    let x := SMap.get {} s.ports p
    { s with ports := SMap.set s.ports p { x with rxBytes := x.rxBytes + 1 + (Config.freeWord s.freeCtr).toNat }, freeCtr := s.freeCtr + 1 }

/-- An answer comes in to an operation that is over: on one of the ports that are up (R428, DESIGN CHOICE, entry 33). -/
def State.countStray (s : State) : State :=
  let ups := (List.range 18).filter s.portUp
  match ups[(Config.freeWord s.freeCtr).toNat % ups.length]? with
  | some p => { s with freeCtr := s.freeCtr + 1 }.countRx (some p)
  | none => s

/-- Send a far operation: it takes the next number of its source and destination and the plane that is up (R425). -/
def State.sendFar (s : State) (va : BitVec 64) (body : FarBody) (use : FarUse) (pc : BitVec 64) : State :=
  let d := farDevice va
  let op : FarOp := { src := s.devNum, dst := d, seq := s.farSeq, pair := s.pairNext d, offset := farOffset va, body := body }
  let out : FarOut := { op := op, plane := s.planeTo d, use := use, pc := pc, since := s.clock.toNat }
  { s.countOut d out.plane with
    farSeq := s.farSeq + 1
    farPair := SMap.set s.farPair d (s.pairNext d + 1)
    far := s.far ++ [out] }

/-- The crew that a far operation belongs to. -/
def FarUse.crew : FarUse → Nat
  | .regs c _ _ _ => c
  | .atomic c _ _ => c
  | .store c => c
  | .sector c _ _ _ => c

/-- Has the crew a far operation or an `xfar` that is not acknowledged (R259)? -/
def State.farPending (s : State) (ci : Nat) : Bool :=
  s.far.any (fun f => f.use.crew == ci)
    || s.engines.any fun e => (e.2.pend ++ e.2.queue).any fun q => q.crew == ci && q.far.isSome

/-- Fences go on once nothing of their crew is outstanding (R95, R259). -/
def State.passFences (s : State) : State :=
  { s with crews := (List.range s.crews.length).map fun k =>
      let c := s.crew k
      if c.wake == some .fence && !s.farPending k then { c with wake := none } else c }

/-! ## Flushing lines -/

/-- Write back to DRAM the lines that a test selects and drop their fetch-unit copies (R96, R260), which are keyed by
cluster × 2^56 + address. -/
def State.flushLines (s : State) (t : Nat → Bool) : State :=
  let s := s.writeBack t
  { s with fetchCache := s.fetchCache.filter fun e => !t (e.1 % 2 ^ 55 / 128) }

/-- Physical ranges of a virtual range: its mapped pages, which must be readable (R260, R395). Unmapped pages are skipped; any other
fault is the address and cause in the error. -/
def State.mappedRanges (s : State) (core asid : Nat) : Nat → Nat → Nat → Except (Nat × Nat) (List (Nat × Nat))
  | 0, _, _ => .ok []
  | fuel + 1, va, last =>
    if last ≤ va then .ok []
    else match s.xlate core asid va false false false with
      | .ok p =>
        if !p.r then .error (va, 2)
        else (s.mappedRanges core asid fuel (p.base + p.size) last).map fun rs => (p.key va, min (p.base + p.size) last - va) :: rs
      | .fault cause =>
        if cause = 1 then s.mappedRanges core asid fuel (va / 65536 * 65536 + 65536) last else .error (va, cause)

/-- Those of several ranges. -/
def State.mappedAll (s : State) (core asid : Nat) : List (Nat × Nat) → Except (Nat × Nat) (List (Nat × Nat))
  | [] => .ok []
  | r :: rest => match s.mappedRanges core asid ((r.2 - r.1) / 65536 + 2) r.1 r.2 with
    | .error e => .error e
    | .ok xs => (s.mappedAll core asid rest).map fun ys => xs ++ ys

/-- Does a line lie in one of some ranges? -/
def inRanges (rs : List (Nat × Nat)) (l : Nat) : Bool :=
  rs.any fun r => decide (r.1 / 128 ≤ l) && decide (128 * l < r.1 + r.2)

end Sys2Proof.Machine
end

