-- ==== Sys2Proof/Machine/Memory.lean ====
section
/-! DEFINITION. Loads and stores, spill and fill, allocation, fences, flushes and far access (0x90-0xA0, R244-R262). -/

namespace Sys2Proof.Machine

open Sys2Proof

/-! ## Lane parts (R244-R250) -/

/-- Are BASE and IDX tagged as R244 asks? `ref` allows a REF base. -/
def mTagsOk (o : MOps) (ref : Bool) (base idx : TWord) : Bool :=
  (base.isAddr || (ref && base.tag == .ref)) && (o.idx == 255 || idx.isAddr)

/-- The field of a load's or store's D slot and the words of a store's group. -/
def State.dataWords (s : State) (i : Instr) (c : Crew) (l n : Nat) : List TWord :=
  if n = 1 then [s.opnd i c l 0] else (List.range n).map fun j => c.readV (s.effSlot i c l 0 + j) l

/-- A load's result: its words go to D, D+1, … (R246). -/
def State.loadOut (s : State) (i : Instr) (c : Crew) (l : Nat) (ws : List TWord) : LaneOut :=
  let d := s.effSlot i c l 0
  { lane := l, writes := (List.range ws.length).map fun j => (d + j, ws.getD j .nil) }

/-- May a store's data be stored: a whole word tagged HDR or FWD only by `stnb` (R250)? -/
def dataOk (a : Acc) (nb : Bool) (ws : List TWord) : Bool := nb || a != .w || !(ws.headD .nil).isHeader

/-- Load from an address that has passed its checks. -/
def State.loadAt (s : State) (ci : Nat) (i : Instr) (a : Acc) (nb : Bool) (c : Crew) (l k : Nat) (tagged : Bool) (grain : Nat)
    (page : Option Page) : Crew × Got :=
  if s.mustWait ci k a.bytes then (c, .wait)
  else match s.absentIn k a.bytes with
    | [] => (((c.enterRead k a.bytes grain).meet k false tagged).usePage? page, .out (s.loadOut i c l (s.loadWords c a nb k tagged)))
    | ks => (c, .absent ks)

/-- Store to an address that has passed its checks. -/
def State.storeAt (s : State) (ci : Nat) (a : Acc) (ws : List TWord) (c : Crew) (l k : Nat) (tagged : Bool) (grain : Nat)
    (page : Option Page) : Crew × Got :=
  if s.mustWait ci k a.bytes then (c, .wait)
  else match s.absentIn k a.bytes with
    | [] => ((c.store a ws k tagged grain).usePage? page, .out { lane := l })
    | ks => (c, .absent ks)

/-- A lane of a load from global memory (R245) or scratch (R104). -/
def loadLane (i : Instr) (scratch nb : Bool) (a : Acc) (o : MOps) (s : State) (ci : Nat) (c : Crew) (l : Nat) : Crew × Got :=
  let base := s.opnd i c l 1
  let idx := s.opnd i c l 2
  if !mTagsOk o nb base idx then (c, .out (trapOut i s c l .tag))
  else
    let va := o.addr base idx
    match (if scratch then s.scratchAddr c va a.bytes a.bytes else s.globalAddr c va a.bytes true false) with
    | .trap code => (c, .out (trapCode i s c l code))
    | .xfault va cause => (c, .xfault va cause false)
    | .ok k tagged grain page => s.loadAt ci i a nb c l k tagged grain page

/-- A lane of a store to global memory or scratch. -/
def storeLane (i : Instr) (scratch nb : Bool) (a : Acc) (o : MOps) (s : State) (ci : Nat) (c : Crew) (l : Nat) : Crew × Got :=
  let base := s.opnd i c l 1
  let idx := s.opnd i c l 2
  let ws := s.dataWords i c l a.regs
  if !mTagsOk o nb base idx || !dataOk a nb ws then (c, .out (trapOut i s c l .tag))
  else
    let va := o.addr base idx
    match (if scratch then s.scratchAddr c va a.bytes a.bytes else s.globalAddr c va a.bytes false true) with
    | .trap code => (c, .out (trapCode i s c l code))
    | .xfault va cause => (c, .xfault va cause true)
    | .ok k tagged grain page => s.storeAt ci a ws c l k tagged grain page

def execLd (a : Acc) (o : MOps) (s : State) : Out := issue (.ld a o) (laneBody false (loadLane (.ld a o) false false a o)) s

def execSt (a : Acc) (o : MOps) (s : State) : Out := issue (.st a o) (laneBody true (storeLane (.st a o) false false a o)) s

def execLds (a : Acc) (o : MOps) (s : State) : Out := issue (.lds a o) (laneBody false (loadLane (.lds a o) true false a o)) s

def execSts (a : Acc) (o : MOps) (s : State) : Out := issue (.sts a o) (laneBody true (storeLane (.sts a o) true false a o)) s

def execLdnb (o : MOps) (s : State) : Out := issue (.ldnb o) (laneBody false (loadLane (.ldnb o) false true .w o)) s

def execStnb (o : MOps) (s : State) : Out := issue (.stnb o) (laneBody true (storeLane (.stnb o) false true .w o)) s

/-! ## Fields through the read barrier (R253) -/

/-- A crew that reads through another's store buffer: no lane sees another lane's store of its instruction (R247). -/
def Crew.withBuffer (c b : Crew) : Crew := { c with chunk := { c.chunk with bytes := b.chunk.bytes, tags := b.chunk.tags } }

/-- The field's address (R253): resolve the object, check the field against its size, then its alignment, then the access.
None is a wait at a header. -/
def State.fieldAddr (s : State) (ci : Nat) (c0 c : Crew) (a : Acc) (store : Bool) (ref : TWord) (f : Int) :
    Crew × Nat × Option Addr :=
  match s.resolve ci (c.withBuffer c0) ref with
  | (c1, .trap code) => (c1.withBuffer c, 0, some (.trap code))
  | (c1, .xfault va cause) => (c1.withBuffer c, 0, some (.xfault va cause))
  | (c1, .wait) => (c1.withBuffer c, 0, none)
  | (c1, .ok obj h _ _ _) =>
    let c1 := c1.withBuffer c
    if f < 0 ∨ 8 * (hdrSize h : Int) < f + a.bytes ∨ (store ∧ f < 8) then (c1, obj, some (.trap TrapName.bounds.code))
    else if f % a.bytes ≠ 0 then (c1, obj, some (.trap TrapName.align.code))
    else (c1, obj, some (s.globalAddr c1 (BitVec.ofNat 64 (obj + f.toNat)) a.bytes (!store) store))

/-- A lane of `ldf`; `o.ld` is the H bit of `ldf.h`. -/
def ldfLane (i : Instr) (a : Acc) (o : MOps) (c0 : Crew) (s : State) (ci : Nat) (c : Crew) (l : Nat) : Crew × Got :=
  let base := s.opnd i c l 1
  let idx := s.opnd i c l 2
  if base.tag != .ref || !(o.idx == 255 || idx.isAddr) then (c, .out (trapOut i s c l .tag))
  else match s.fieldAddr ci c0 c a false base (o.fieldOffset idx) with
    | (c1, _, none) => (c1, .wait)
    | (c1, _, some (.trap code)) => (c1, .out (trapCode i s c l code))
    | (c1, _, some (.xfault va cause)) => (c1, .xfault va cause false)
    | (c1, obj, some (.ok k tagged grain page)) =>
      match s.loadAt ci i a false c1 l k tagged grain page with
      | (c2, .out out) =>
        (c2, .out (if o.ld then { out with writes := out.writes ++ [(s.effSlot i c l 1, makeWord .ref (BitVec.ofNat 64 obj))] }
          else out))
      | r => r

/-- A lane of `stf`. -/
def stfLane (i : Instr) (a : Acc) (o : MOps) (c0 : Crew) (s : State) (ci : Nat) (c : Crew) (l : Nat) : Crew × Got :=
  let base := s.opnd i c l 1
  let idx := s.opnd i c l 2
  let ws := s.dataWords i c l a.regs
  if base.tag != .ref || !(o.idx == 255 || idx.isAddr) || !dataOk a false ws then (c, .out (trapOut i s c l .tag))
  else match s.fieldAddr ci c0 c a true base (o.fieldOffset idx) with
    | (c1, _, none) => (c1, .wait)
    | (c1, _, some (.trap code)) => (c1, .out (trapCode i s c l code))
    | (c1, _, some (.xfault va cause)) => (c1, .xfault va cause true)
    | (c1, _, some (.ok k tagged grain page)) => s.storeAt ci a ws c1 l k tagged grain page

def execLdf (a : Acc) (o : MOps) (s : State) : Out :=
  issue (.ldf a o) (fun s ci c lanes => settle s c false (eachLane (ldfLane (.ldf a o) a o c s ci) lanes c)) s

def execStf (a : Acc) (o : MOps) (s : State) : Out :=
  issue (.stf a o) (fun s ci c lanes => settle s c true (eachLane (stfLane (.stf a o) a o c s ci) lanes c)) s

/-! ## Prefetch (R254) -/

/-- A lane of `prf`: a mapped address enters the read signature; any other is ignored. -/
def prfLane (i : Instr) (o : MOps) (s : State) (ci : Nat) (c : Crew) (l : Nat) : Crew × Got :=
  let base := s.opnd i c l 1
  let idx := s.opnd i c l 2
  if !mTagsOk o false base idx then (c, .out (trapOut i s c l .tag))
  else
    let va := o.addr base idx
    if va.getLsbD 63 then (c, .out { lane := l })
    else match s.xlate c.core (s.asidOf c) va.toNat false false false with
      | .fault _ => (c, .out { lane := l })
      | .ok p =>
        let k := p.key va.toNat
        if s.mustWait ci k 1 then (c, .wait) else (((c.enterRead k 1 p.grain).meet k false p.tagged).usePage p, .out { lane := l })

def execPrf (o : MOps) (s : State) : Out := issue (.prf o) (laneBody false (prfLane (.prf o) o)) s

/-! ## Spill and fill (R255, R256) -/

/-- What the word-by-word work of `spill`, `fill` and `alloc` meets. -/
inductive WordsGot where
  | ok (c : Crew) (ws : List TWord)
  | trap (code : Nat)
  | xfault (va : BitVec 64) (cause : Nat)
  | wait
  deriving DecidableEq, Repr

/-- Store consecutive whole words as the chunk's stores, each checked against its page. -/
def State.storeWords (s : State) (ci : Nat) (c : Crew) (va : BitVec 64) : List TWord → WordsGot
  | [] => .ok c []
  | w :: t => match s.globalAddr c va 8 false true with
    | .trap code => .trap code
    | .xfault va cause => .xfault va cause
    | .ok k tagged grain page =>
      if s.mustWait ci k 8 then .wait
      else State.storeWords s ci ((c.store .w [w] k tagged grain).usePage? page) (va + 8) t

/-- Load consecutive whole words with their stored tags. -/
def State.readWords (s : State) (ci : Nat) (c : Crew) (va : BitVec 64) : Nat → WordsGot
  | 0 => .ok c []
  | n + 1 => match s.globalAddr c va 8 true false with
    | .trap code => .trap code
    | .xfault va cause => .xfault va cause
    | .ok k tagged grain page =>
      if s.mustWait ci k 8 then .wait
      else match State.readWords s ci (((c.enterRead k 8 grain).meet k false tagged).usePage? page) (va + 8) n with
        | .ok c' ws => .ok c' (s.loadWords c .w true k tagged ++ ws)
        | r => r

/-- Every lane takes the trap (DEDUCED, entry 22). -/
def allTrap (i : Instr) (s : State) (c : Crew) (lanes : List Nat) (code : Nat) : BodyRes :=
  .ok s c (lanes.map fun l => trapCode i s c l code) false

/-- The address of `spill` and `fill`, from the lowest lane that is no HELPER; a trap's code, or no such lane. -/
def State.slotAddr (s : State) (i : Instr) (o : MOps) (c : Crew) (lanes : List Nat) : Option (Except Nat (BitVec 64)) :=
  match lanes.filter fun l => (c.thread l).st != .helper with
  | [] => none
  | l :: _ =>
    let base := s.opnd i c l 1
    let idx := s.opnd i c l 2
    let va := o.addr base idx
    some (if !mTagsOk o false base idx then .error TrapName.tag.code
      else if va.getLsbD 63 then .error TrapName.badHandle.code
      else if va.toNat % 16 ≠ 0 then .error TrapName.align.code
      else .ok va)

/-- The 32 words of a v register. -/
def Crew.row (c : Crew) (f : Nat) : List TWord := (List.range Config.lanes).map (c.readV f)

def spillBody (o : MOps) : Body := fun s ci c lanes =>
  let i : Instr := .spill o
  match s.slotAddr i o c lanes with
  | none => .ok s c [] false
  | some (.error code) => allTrap i s c lanes code
  | some (.ok va) => match s.globalAddr c va 8 false true with
    | .trap code => allTrap i s c lanes code
    | .xfault va cause => .xfault va cause true
    | .ok _ tagged _ _ =>
      let (code, ws) := spillImage (!tagged) (c.row o.d.toNat)
      match s.storeWords ci c va ws with
      | .ok c' _ =>
        .ok s { c' with arch := { c'.arch with spillFmt := SMap.put 0 c'.arch.spillFmt o.d.toNat code } }
          (lanes.map fun l => { lane := l }) false
      | .trap code => allTrap i s c lanes code
      | .xfault va cause => .xfault va cause true
      | .wait => .stall

def execSpill (o : MOps) (s : State) : Out := issue (.spill o) (spillBody o) s

/-- `fill` writes all 32 lanes of the crew, whatever the bundle. -/
def fillBody (o : MOps) : Body := fun s ci c lanes =>
  let i : Instr := .fill o
  match s.slotAddr i o c lanes with
  | none => .ok s c [] false
  | some (.error code) => allTrap i s c lanes code
  | some (.ok va) =>
    let code := SMap.get 0 c.arch.spillFmt o.d.toNat
    match s.readWords ci c va (imageWords code) with
    | .ok c' ws =>
      match (List.range Config.lanes).mapM (imageLane code ws) with
      | none => allTrap i s c lanes TrapName.tag.code
      | some row =>
        .ok s c' ((List.range Config.lanes).map fun l => { lane := l, writes := [(o.d.toNat, row.getD l .nil)] }) false
    | .trap code => allTrap i s c lanes code
    | .xfault va cause => .xfault va cause false
    | .wait => .stall

def execFill (o : MOps) (s : State) : Out := issue (.fill o) (fillBody o) s

/-! ## Allocation (R257, R258) -/

/-- The header a template makes: SHAPE and SIZE, all else 0 (R30). -/
def headerOf (tmpl : BitVec 64) : TWord := ⟨.hdr, BitVec.ofNat 64 (tmpl.toNat / 2 ^ 24 * 2 ^ 24)⟩

/-- The lanes of `alloc` in order; `failed` once one did not fit. -/
def allocLanes (i : Instr) (s : State) (ci : Nat) : List Nat → Bool → Crew → List LaneOut → BodyRes
  | [], _, c, outs => .ok s c outs false
  | l :: rest, failed, c, outs =>
    let w := s.opnd i c l 1
    let size := field w.payload 39 24
    let n := 16 * ((8 * size + 15) / 16)
    let next (t : TrapName) : List LaneOut := outs ++ [trapOut i s c l t]
    if w.tag ≠ .int then allocLanes i s ci rest failed c (next .tag)
    else if c.arch.nbase.getLsbD 63 then allocLanes i s ci rest failed c (next .badHandle)
    else if size = 0 then allocLanes i s ci rest failed c (next .bounds)
    else if c.arch.nbase.toNat % 16 ≠ 0 then allocLanes i s ci rest failed c (next .align)
    else if failed ∨ c.arch.nlimit.toNat < c.arch.nbase.toNat + n then allocLanes i s ci rest true c (next .nursery)
    else
      let va := c.arch.nbase
      match s.storeWords ci c va (headerOf w.payload :: List.replicate (n / 8 - 1) .nil) with
      | .trap code => allocLanes i s ci rest failed c (outs ++ [trapCode i s c l code])
      | .xfault va cause => .xfault va cause true
      | .wait => .stall
      | .ok c' _ =>
        allocLanes i s ci rest failed { c' with arch := { c'.arch with nbase := va + BitVec.ofNat 64 n } }
          (outs ++ [{ lane := l, writes := [(s.destOf i c l, makeWord .ref va)] }])

def execAlloc (o : ROps) (s : State) : Out :=
  issue (.alloc o) (fun s ci c lanes => allocLanes (.alloc o) s ci lanes false c []) s

/-- `nurs`: the room left, then the new bounds of the lowest lane that does not trap. -/
def nursBody (get : Bool) (o : ROps) : Body := fun s _ c lanes =>
  let i : Instr := .nurs get o
  let left : TWord := ⟨.int, c.arch.nlimit - c.arch.nbase⟩
  let check (l : Nat) : Option TrapName :=
    let a := s.opnd i c l 1
    let b := s.opnd i c l 2
    if get then none
    else if a.tag ≠ .int ∨ b.tag ≠ .int then some .tag
    else if b.payload.toNat < a.payload.toNat then some .bounds
    else if a.payload.toNat % 16 ≠ 0 ∨ b.payload.toNat % 16 ≠ 0 then some .align
    else none
  let outs := lanes.map fun l => match check l with
    | some t => trapOut i s c l t
    | none => { lane := l, writes := [(s.destOf i c l, left)] }
  let c' := match get, lanes.find? fun l => (check l).isNone with
    | false, some l => { c with arch := { c.arch with nbase := (s.opnd i c l 1).payload, nlimit := (s.opnd i c l 2).payload } }
    | _, _ => c
  .ok s c' outs false

def execNurs (get : Bool) (o : ROps) (s : State) : Out := issue (.nurs get o) (nursBody get o) s

/-! ## fence and hflush (R259, R260) -/

/-- `fence` waits until every far store, far atomic and `xfar` of the crew is acknowledged. -/
def execFence (s : State) : Out :=
  issue .fence (fun s ci c lanes =>
    if s.farPending ci then .block s c .fence else .ok s c (lanes.map fun l => { lane := l }) false) s

/-- A lane's range of `hflush`, or its trap. -/
def hflushLane (i : Instr) (o : MOps) (s : State) (c : Crew) (l : Nat) : Except TrapName (Nat × Nat) :=
  let base := s.opnd i c l 1
  let idx := s.opnd i c l 2
  let len := s.opnd i c l 0
  let va := o.addr base idx
  if !mTagsOk o false base idx || len.tag != .int then .error .tag
  else if va.getLsbD 63 || decide (2 ^ 40 < len.payload.toNat) then .error .badHandle
  else .ok (va.toNat, va.toNat + len.payload.toNat)

/-- `hflush`: one event over the lanes' ranges, each widened to whole lines. -/
def hflushBody (o : MOps) : Body := fun s _ c lanes =>
  let i : Instr := .hflush o
  let ranges := lanes.filterMap fun l => match hflushLane i o s c l with
    | .ok (a, e) => if a < e then some (a / 128 * 128, (e + 127) / 128 * 128) else none
    | .error _ => none
  match s.mappedAll c.core (s.asidOf c) ranges with
  | .error (va, cause) => .xfault (BitVec.ofNat 64 va) cause false
  | .ok phys => .ok (s.flushLines (inRanges phys)) c (lanes.map fun l => match hflushLane i o s c l with
    | .ok _ => { lane := l }
    | .error t => trapOut i s c l t) false

def execHflush (o : MOps) (s : State) : Out := issue (.hflush o) (hflushBody o) s

/-! ## Far access (R261) -/

/-- The address of a lane's far access, or its trap. -/
def farLane (i : Instr) (a : Acc) (o : MOps) (store : Bool) (s : State) (c : Crew) (l : Nat) : Except TrapName (BitVec 64) :=
  let base := s.opnd i c l 1
  let idx := s.opnd i c l 2
  let va := o.addr base idx
  if !mTagsOk o false base idx || (store && !dataOk a false (s.dataWords i c l a.regs)) then .error .tag
  else if !va.getLsbD 63 then .error .badHandle
  else if va.toNat % a.bytes ≠ 0 then .error .align
  else .ok va

/-- Send each lane's operation in ascending lane order; the numbers sent. -/
def sendLanes (pc : BitVec 64) (f : Nat → Option (BitVec 64 × FarBody × FarUse)) : List Nat → State → State × List Nat
  | [], s => (s, [])
  | l :: t, s => match f l with
    | none => sendLanes pc f t s
    | some (va, b, u) =>
      let n := s.farSeq
      let (s, ns) := sendLanes pc f t (s.sendFar va b u pc)
      (s, n :: ns)

def farOuts (i : Instr) (s : State) (c : Crew) (lanes : List Nat) (f : Nat → Except TrapName (BitVec 64)) : List LaneOut :=
  lanes.map fun l => match f l with
    | .ok _ => { lane := l }
    | .error t => trapOut i s c l t

/-- `ldfar`: one far operation per lane; the crew waits for every reply. A uniform destination is the lowest lane's (R191). -/
def ldfarBody (a : Acc) (o : MOps) : Body := fun s ci c lanes =>
  let i : Instr := .ldfar a o
  let addr := farLane i a o false s c
  let lead := (lanes.find? fun l => match addr l with
    | .ok _ => true
    | .error _ => false).getD 0
  let dest (l : Nat) : Field :=
    let d := s.effSlot i c l 0
    if 224 ≤ d ∧ l ≠ lead then 255 else BitVec.ofNat 8 d
  let (s', ns) := sendLanes c.pc (fun l => match addr l with
    | .ok va => some (va, .read a, .regs ci l (dest l) a)
    | .error _ => none) lanes s
  .ok s' (if ns.isEmpty then c else { c with wake := some (.far ns) }) (farOuts i s c lanes addr) false

def execLdfar (a : Acc) (o : MOps) (s : State) : Out := issue (.ldfar a o) (ldfarBody a o) s

/-- `stfar`: one far operation per lane, acknowledged later. -/
def stfarBody (a : Acc) (o : MOps) : Body := fun s ci c lanes =>
  let i : Instr := .stfar a o
  let addr := farLane i a o true s c
  let (s', _) := sendLanes c.pc (fun l => match addr l with
    | .ok va => some (va, .write a (s.dataWords i c l a.regs), .store ci)
    | .error _ => none) lanes s
  .ok s' c (farOuts i s c lanes addr) false

def execStfar (a : Acc) (o : MOps) (s : State) : Out := issue (.stfar a o) (stfarBody a o) s

end Sys2Proof.Machine
end

