-- ==== Sys2Proof/Machine/Atomics.lean ====
section
/-! DEFINITION. Atomics and reductions (0xB0-0xB3, R263-R267, R93). -/

namespace Sys2Proof.Machine

open Sys2Proof

/-- The address of an atomic: BASE + OFF; IDX holds data (R244, R263). -/
def atomAddr (o : MOps) (base : TWord) : BitVec 64 := base.payload + o.off.signExtend 64

/-- The new word of R264's Apply and its flags, from the old payload and the operand word. -/
def applyWord (op : AtomOp) (ty : AtomTy) (old : BitVec 64) (x : TWord) : TWord × Flags :=
  match op with
  | .xchg => (x, 0)
  | op => let r := atomNew op ty old x.pay; (⟨.int, r.1⟩, r.2)

/-- The access type of `acas` (R263): SC 1 is the whole word. -/
def casAcc : AtomTy → Acc
  | .i64 => .i64 | .u64 => .w | .f64 => .f64 | .f32 => .f32

/-- Do the value read and the comparand agree (R265)? -/
def casEqual (ty : AtomTy) (old cmp : TWord) : Bool :=
  match ty with
  | .u64 => old == cmp
  | .f32 => old.payload.toNat % 2 ^ 32 == cmp.pay.toNat % 2 ^ 32
  | _ => old.payload == cmp.pay

/-- The word `acas` writes. -/
def casNew (ty : AtomTy) (new : TWord) : TWord := if ty = .u64 then new else ⟨.int, new.pay⟩

/-- The committed word at a key as an access type reads it. -/
def State.peekAcc (s : State) (a : Acc) (k : Nat) (tagged : Bool) : TWord :=
  (a.deliver tagged false (Tags.read s.tags (k / 8)) (Memory.bytes s.mem k a.bytes)).headD .nil

/-- Write a committed word under an access type's store row (R27). -/
def State.pokeAcc (s : State) (a : Acc) (k : Nat) (tagged : Bool) (w : TWord) : State :=
  let s := (s.pokeBytes k (a.storeBytes [w])).noteUnflushed k
  if tagged then s.pokeTag (k / 8) ((a.storeTags [w]).headD .raw) else s

/-- One lane's application of an operation to committed memory: the old word, and the flags. -/
def State.atomOne (s : State) (op : AtomOp) (ty : AtomTy) (k : Nat) (tagged : Bool) (x : TWord) : State × TWord × Flags :=
  let a := atomAcc op ty
  let old := s.peekAcc a k tagged
  let (w, fl) := applyWord op ty old.payload x
  (s.pokeAcc a k tagged w, old, fl)

/-- One lane's compare and swap. -/
def State.casOne (s : State) (ty : AtomTy) (k : Nat) (tagged : Bool) (cmp new : TWord) : State × TWord × Flags :=
  let a := casAcc ty
  let old := s.peekAcc a k tagged
  (if casEqual ty old cmp then s.pokeAcc a k tagged (casNew ty new) else s, old, 0)

/-- What an atomic's kind does at the home, lane by lane, and as a far operation. -/
structure Atomic where
  acc : Acc
  /-- the lane's trap on its data, if any -/
  bad : Nat → Bool
  /-- apply in a lane at a key -/
  one : State → Nat → Nat → Bool → State × TWord × Flags
  /-- does the lane write, given the old word? -/
  wrote : Nat → TWord → Bool
  /-- the far operation of a group's lanes, each with the byte of its target in the word -/
  far : List (Nat × Nat) → FarBody

/-- Where a lane's atomic goes. -/
inductive AtomTarget where
  | home (key : Nat) (tagged : Bool) (grain : Nat) (page : Option Page)
  | remote (va : BitVec 64)
  | trap (code : Nat)
  | xfault (va : BitVec 64) (cause : Nat)
  deriving DecidableEq, Repr

/-- A lane's target (R244, R245, R248). -/
def atomTarget (i : Instr) (o : MOps) (x : Atomic) (s : State) (c : Crew) (l : Nat) : AtomTarget :=
  let base := s.opnd i c l 1
  let va := atomAddr o base
  if !base.isAddr || x.bad l then .trap TrapName.tag.code
  else if va.getLsbD 63 then (if va.toNat % x.acc.bytes ≠ 0 then .trap TrapName.align.code else .remote va)
  else match s.globalAddr c va x.acc.bytes true true with
    | .trap code => .trap code
    | .xfault va cause => .xfault va cause
    | .ok k tagged grain page => .home k tagged grain page

/-- The group of a target: its 8-byte word, at home or far (R265). -/
def AtomTarget.group : AtomTarget → Option (Bool × Nat)
  | .home k _ _ _ => some (false, k / 8)
  | .remote va => some (true, va.toNat / 8)
  | _ => none

/-- The byte of a far target in its word. -/
def AtomTarget.place : AtomTarget → Nat
  | .remote va => va.toNat % 8
  | _ => 0

/-- The groups of the lanes, in the order of their lowest lane. -/
def atomGroups (t : Nat → AtomTarget) : List Nat → List ((Bool × Nat) × List Nat)
  | [] => []
  | l :: rest =>
    let gs := atomGroups t rest
    match (t l).group with
    | none => gs
    | some g => match gs.find? fun x => x.1 == g with
      | some x => (g, l :: x.2) :: gs.filter fun x => x.1 != g
      | none => (g, [l]) :: gs

/-- One group's event at the home: the lanes in ascending order, each with the value before its own application. -/
def homeGroup (x : Atomic) (t : Nat → AtomTarget) : List Nat → State → State × List (Nat × TWord × Flags)
  | [], s => (s, [])
  | l :: rest, s => match t l with
    | .home k tagged _ _ =>
      let (s, old, fl) := x.one s l k tagged
      let (s, rs) := homeGroup x t rest s
      (s, (l, old, fl) :: rs)
    | _ => homeGroup x t rest s

/-- The locations that a group's event writes. -/
def homeLocs (x : Atomic) (t : Nat → AtomTarget) (rs : List (Nat × TWord × Flags)) : List (Nat × Nat) :=
  rs.filterMap fun r => match t r.1 with
    | .home k _ grain _ => if x.wrote r.1 r.2.1 then some (k, grain) else none
    | _ => none

/-- Perform the groups in order (R87): results of the home groups, numbers of the far ones. -/
def runGroups (ci : Nat) (pc : BitVec 64) (dest : Nat → Nat) (x : Atomic) (t : Nat → AtomTarget) :
    List ((Bool × Nat) × List Nat) → State → State × List (Nat × TWord × Flags) × List Nat
  | [], s => (s, [], [])
  | ((false, _), ls) :: rest, s =>
    let rs := (homeGroup x t ls s).2
    let s := (homeGroup x t ls (s.eventSquash (some ci) (homeLocs x t rs))).1
    let (s, more, ns) := runGroups ci pc dest x t rest s
    (s, rs ++ more, ns)
  | ((true, _), ls) :: rest, s =>
    match t (ls.headD 0) with
    | .remote va =>
      let n := s.farSeq
      let s := s.sendFar va (x.far (ls.map fun l => (l, (t l).place))) (.atomic ci ls (BitVec.ofNat 8 (dest (ls.headD 0)))) pc
      let (s, more, ns) := runGroups ci pc dest x t rest s
      (s, more, n :: ns)
    | _ => runGroups ci pc dest x t rest s

/-- The key of a lane's target at home. -/
def AtomTarget.key? : AtomTarget → Option Nat
  | .home k _ _ _ => some k
  | _ => none

/-- The home parks the instruction: the crew waits, and issues again when the home's queue is replayed; with no room in the queue
it waits at its requester (R399). -/
def parkAtomic (i : Instr) (s : State) (ci : Nat) (c : Crew) (key : Nat) : BodyRes :=
  let slice := lineSlice (key / 128)
  if s.faultQueueFull slice then .stall
  else .block { s with parked := s.parked ++ [⟨slice, .atomic ci key i⟩] } c .parked

/-- `atom` and `acas`: every lane is translated first, then the groups are performed (R87, R93, R265). An instruction with a
target under a scrub lock is parked whole at the home of the lowest such lane's (R399, DEDUCED, entry 15). -/
def atomicBody (i : Instr) (o : MOps) (mk : State → Crew → Atomic) : Body := fun s ci c lanes =>
  let x := mk s c
  let t := atomTarget i o x s c
  match lanes.filterMap fun l => match t l with | .xfault va cause => some (va, cause) | _ => none with
  | (va, cause) :: _ => .xfault va cause (cause == 3)
  | [] =>
    let keys := lanes.filterMap fun l => (t l).key?
    if keys.any fun k => s.mustHold ci k x.acc.bytes then .stall
    else match keys.find? fun k => s.locks.contains (k / 128) with
    | some k => parkAtomic i s ci c k
    | none =>
      let lead := (lanes.find? fun l => (t l).group.isSome).getD 0
      let dest (l : Nat) : Nat :=
        let d := s.destOf i c l
        if 224 ≤ d ∧ l ≠ lead then 255 else d
      let (s', rs, ns) := runGroups ci c.pc dest x t (atomGroups t lanes) (s.setCrew ci c)
      let c' := lanes.foldl (fun c l => match t l with | .home _ _ _ page => c.usePage? page | _ => c) (s'.crew ci)
      let outs := lanes.map fun l => match t l with
        | .trap code => trapCode i s c l code
        | _ => match rs.find? fun r => r.1 == l with
          | some (_, old, fl) => { lane := l, writes := [(s.destOf i c l, old)], flags := fl }
          | none => { lane := l }
      .ok s' (if ns.isEmpty then c' else { c' with wake := some (.far ns) }) outs false

def atomOf (i : Instr) (op : AtomOp) (ty : AtomTy) (s : State) (c : Crew) : Atomic :=
  { acc := atomAcc op ty
    bad := fun l => op == .xchg && (s.opnd i c l 2).isHeader
    one := fun s' l k tagged => s'.atomOne op ty k tagged (s.opnd i c l 2)
    wrote := fun _ _ => true
    far := fun ls => .atomic op ty (ls.map fun l => (l.2, s.opnd i c l.1 2)) }

def execAtom (op : AtomOp) (ty : AtomTy) (o : MOps) (s : State) : Out :=
  issue (.atom op ty o) (atomicBody (.atom op ty o) o (atomOf (.atom op ty o) op ty)) s

def casOf (i : Instr) (ty : AtomTy) (s : State) (c : Crew) : Atomic :=
  { acc := casAcc ty
    bad := fun l => ty == .u64 && (s.opnd i c l 0).isHeader
    one := fun s' l k tagged => s'.casOne ty k tagged (s.opnd i c l 2) (s.opnd i c l 0)
    wrote := fun l old => casEqual ty old (s.opnd i c l 2)
    far := fun ls => .cas ty (ls.map fun l => (l.2, s.opnd i c l.1 2, s.opnd i c l.1 0)) }

def execAcas (ty : AtomTy) (o : MOps) (s : State) : Out :=
  issue (.acas ty o) (atomicBody (.acas ty o) o (casOf (.acas ty o) ty)) s

/-! ## red (R266) -/

/-- A lane of `red`: one deferred record in the chunk, entered in the reduction signature. -/
def redLane (i : Instr) (op : AtomOp) (ty : AtomTy) (o : MOps) (s : State) (ci : Nat) (c : Crew) (l : Nat) : Crew × Got :=
  let base := s.opnd i c l 1
  if !base.isAddr then (c, .out (trapOut i s c l .tag))
  else
    let a := atomAcc op ty
    match s.globalAddr c (atomAddr o base) a.bytes true true with
    | .trap code => (c, .out (trapCode i s c l code))
    | .xfault va cause => (c, .xfault va cause (cause == 3))
    | .ok k tagged grain page =>
      if s.mustHold ci k a.bytes then (c, .wait)
      else
        let c := (c.enterRed k a.bytes grain).usePage? page
        ({ c with chunk := { c.chunk with recs := c.chunk.recs ++ [.red op ty tagged [⟨l, k, (s.opnd i c l 0).pay⟩]] } },
          .out { lane := l })

def execRed (op : AtomOp) (ty : AtomTy) (o : MOps) (s : State) : Out :=
  issue (.red op ty o) (laneBody true (redLane (.red op ty o) op ty o)) s

/-! ## sato (R267) -/

/-- A lane of `sato`: read through the chunk's view, apply, buffer as a store. -/
def satoLane (i : Instr) (op : AtomOp) (ty : AtomTy) (o : MOps) (s : State) (ci : Nat) (c : Crew) (l : Nat) : Crew × Got :=
  let base := s.opnd i c l 1
  let x := s.opnd i c l 2
  let a := atomAcc op ty
  if !base.isAddr || (op == .xchg && x.isHeader) then (c, .out (trapOut i s c l .tag))
  else match s.scratchAddr c (atomAddr o base) a.bytes a.bytes with
    | .trap code => (c, .out (trapCode i s c l code))
    | .xfault va cause => (c, .xfault va cause true)
    | .ok k tagged grain _ =>
      if s.mustWait ci k a.bytes then (c, .wait)
      else match s.absentIn k a.bytes with
        | [] =>
          let old := (s.loadWords c a false k tagged).headD .nil
          let (w, fl) := applyWord op ty old.payload x
          ((c.enterRead k a.bytes grain).store a [w] k tagged grain,
            .out { lane := l, writes := [(s.destOf i c l, old)], flags := fl })
        | ks => (c, .absent ks)

def execSato (op : AtomOp) (ty : AtomTy) (o : MOps) (s : State) : Out :=
  issue (.sato op ty o) (laneBody false (satoLane (.sato op ty o) op ty o)) s

end Sys2Proof.Machine
end

