-- ==== Sys2Proof/Machine/Queues.lean ====
section
/-! DEFINITION. Named queues (R108-R112, R115, R268): headers, service of blocked crews, and the instructions 0xB4-0xB7. -/

namespace Sys2Proof.Machine

open Sys2Proof

/-! ## Instances and headers -/

/-- The core and key of the instance that a queue number names on a core (R108); none when it is not bound. -/
def qInstance (t : Team) (g : Grid) (core q : Nat) : Option (Nat × Nat) :=
  match g.binds.find? fun b => b.q == q with
  | none => none
  | some b => (scratchCore t core b.addr).map fun k => (k, t.scratch k (b.addr % 2 ^ 20))

/-- A queue header's CAP, HEAD, TAIL and ALLOW (R109): the payloads, whatever tags software stored them with (DESIGN CHOICE,
entry 51). -/
structure QHead where
  cap : Nat
  head : Nat
  tail : Nat
  allow : Nat
  deriving DecidableEq, Repr

def State.qHead (s : State) (k : Nat) : QHead :=
  ⟨Memory.nat s.mem k 8, Memory.nat s.mem (k + 8) 8, Memory.nat s.mem (k + 16) 8, Memory.nat s.mem (k + 24) 8⟩

/-- CAP is a power of two from 2 to 1,024 (R112). -/
def QHead.ok (h : QHead) : Bool := [2, 4, 8, 16, 32, 64, 128, 256, 512, 1024].contains h.cap
/-- Entries held: TAIL − HEAD, an exact integer (R7, R109). -/
def QHead.count (h : QHead) : Int := (h.tail : Int) - h.head
def QHead.room (h : QHead) : Bool := decide (h.count < h.cap)

/-- Write a word of scratch as part of an event: squash, then the word with its tag. -/
def State.eventPut (s : State) (k : Nat) (w : TWord) : State :=
  ((s.eventSquash none [(k, 1)]).pokeBytes k (leBytes 8 w.payload.toNat)).pokeTag (k / 8) w.tag

/-- Push one word (R110); `grant` when it uses up allowance. -/
def State.qPut (s : State) (k : Nat) (grant : Bool) (w : TWord) : State :=
  let h := s.qHead k
  let s := (s.eventPut (k + 64 + 8 * (h.tail % h.cap)) w).eventPut (k + 16) ⟨.int, BitVec.ofNat 64 (h.tail + 1)⟩
  if grant then s.eventPut (k + 24) ⟨.int, BitVec.ofNat 64 (h.allow - 1)⟩ else s

/-- Pop one word. -/
def State.qTake (s : State) (k : Nat) : State × TWord :=
  let h := s.qHead k
  let a := k + 64 + 8 * (h.head % h.cap)
  (s.eventPut (k + 8) ⟨.int, BitVec.ofNat 64 (h.head + 1)⟩, ⟨Tags.read s.tags (a / 8), BitVec.ofNat 64 (Memory.nat s.mem a 8)⟩)

/-! ## Blocked crews -/

/-- The crew with the lowest ticket of those that a test on the wake selects, in a team. -/
def State.firstBlocked (s : State) (team : Nat) (t : Wake → Bool) : Option Nat :=
  let ks := (List.range s.crews.length).filter fun k =>
    (s.crew k).team == team && (s.crew k).place != .retired && (match (s.crew k).wake with | some w => t w | none => false)
  match leastOf (ks.map fun k => (s.crew k).ticket) with
  | none => none
  | some n => ks.find? fun k => (s.crew k).ticket == n

def isPopOn (core q : Nat) : Wake → Bool
  | .queuePop q' c' _ _ => q' == q && c' == core
  | _ => false
def isPushOn (core q : Nat) : Wake → Bool
  | .queuePush q' c' _ => q' == q && c' == core
  | _ => false

/-- A crew gets words outside its own issue: registers written, its chunk begins after them. -/
def Crew.receive (c : Crew) (dest : Field) (ws : List (Nat × TWord)) : Crew :=
  (ws.foldl (fun c w => c.writeField dest.toNat w.1 w.2) c).freshChunk

/-- A service has reached a crew: it waits for the rest, or goes on and its last `mcall` parameters are free (R110, R359). -/
def Crew.served (c : Crew) (all : Bool) (rest : Wake) : Crew :=
  if all then ({ c with wake := none }).freeLate.freshChunk else { c with wake := some rest }

/-- Pop for lanes in order while entries last: the words given, the lanes left. -/
def State.popLanes (s : State) (k : Nat) : List Nat → State × List (Nat × TWord) × List Nat
  | [] => (s, [], [])
  | l :: rest =>
    if (s.qHead k).count ≤ 0 then (s, [], l :: rest)
    else
      let (s, w) := s.qTake k
      let (s, ws, left) := State.popLanes s k rest
      (s, (l, w) :: ws, left)

/-- A pop: an entry for each lane in order; with D = 255, where no lane receives a word, one entry for the instruction, popped and
discarded (R268, R319, DEDUCED, entry 56). -/
def State.popInto (s : State) (k : Nat) (dest : Nat) (lanes : List Nat) : State × List (Nat × TWord) × List Nat :=
  if dest = 255 then
    if (s.qHead k).count ≤ 0 then (s, [], lanes)
    else
      let (s, w) := s.qTake k
      (s, lanes.map fun l => (l, w), [])
  else s.popLanes k lanes

/-- Push for lanes in order while allowance and room last: the items left. -/
def State.pushLanes (s : State) (k : Nat) : List (Nat × TWord) → State × List (Nat × TWord)
  | [] => (s, [])
  | x :: rest =>
    let h := s.qHead k
    if h.allow = 0 || !h.room then (s, x :: rest) else State.pushLanes (s.qPut k true x.2) k rest

/-- Has an event found the instance's CAP bad, now or before (R112)? -/
def State.queueBad (s : State) (team core q k : Nat) : Bool :=
  !(s.qHead k).ok || (s.team team).badQueues.contains (core, q)

/-- An event finds the instance's CAP bad: every later one raises BAD_HANDLE (R112). -/
def State.spoilQueue (s : State) (team core q : Nat) : State :=
  let t := s.team team
  if t.badQueues.contains (core, q) then s else s.setTeam team { t with badQueues := t.badQueues ++ [(core, q)] }

/-- The traps of a blocked crew whose header went bad (R112). A lane inside a macro body returns after its `mcall` (R361). -/
def State.qBad (s : State) (ci : Nat) : State :=
  let c := s.crew ci
  let mk (op l : Nat) (a : TWord) (d : Nat) : TrapReq :=
    { lane := l, code := TrapName.badHandle.code, v217 := a, dest := d, op := op,
      next := if (c.thread l).mstep = 0 then (c.thread l).pc else (c.thread l).pc + 8 }
  let pc (l : Nat) : BitVec 64 := if (c.thread l).mstep = 0 then (c.thread l).pc - 8 else (c.thread l).pc
  match c.wake with
  | some (.queuePop _ _ lanes dest) =>
    (s.setCrew ci { c with wake := none }).takeTraps ci (pc (lanes.headD 0))
      (lanes.map fun l => mk 0xB5 l .nil (if dest.toNat < 224 then dest.toNat else 255))
  | some (.queuePush _ _ items) =>
    (s.setCrew ci { c with wake := none }).takeTraps ci (pc ((items.headD (0, .nil)).1)) (items.map fun x => mk 0xB4 x.1 x.2 255)
  | _ => s

/-- An ACTION 1 push meets an unbound or bad queue: the context is declared dead (R115, R401). -/
def State.pushDeath (s : State) (team : Nat) : State :=
  { s with dying := s.dying ++ [{ asid := (s.grid (s.team team).grid).asid, cause := 1, code := TrapName.badHandle.code }] }

/-- One service on an instance (R110, R115): a waiting ACTION 1 push, then the blocked popper whose turn it is, then the
blocked pusher. A crew that is off-core is served once it is back. On a bad instance a waiting push ends, and the crews take their
traps (R112). -/
def State.serveOnce (s : State) (team core q : Nat) : Option State :=
  let t := s.team team
  match (if t.place == .resident then qInstance t (s.grid t.grid) core q else none) with
  | none => none
  | some (_, k) =>
    let h := s.qHead k
    let popper := s.firstBlocked team (isPopOn core q)
    let pusher := s.firstBlocked team (isPushOn core q)
    let home (ci : Nat) : Bool := (s.crew ci).place == .resident
    let waiting := t.pushes.find? fun p => p.core == core && p.q == q
    if s.queueBad team core q k then
      let s := s.spoilQueue team core q
      match waiting, popper.filter home, pusher.filter home with
      | some p, _, _ =>
        let s := s.setTeam team { s.team team with pushes := t.pushes.erase p }
        some (if p.grid then s else s.pushDeath team)
      | none, some ci, _ => some (s.qBad ci)
      | none, none, some ci => some (s.qBad ci)
      | none, none, none => none
    else match waiting, h.room, popper.filter home, decide (0 < h.count), pusher.filter home with
      | some p, true, _, _, _ =>
        some ((s.setTeam team { t with pushes := t.pushes.erase p }).qPut k false p.word)
      | _, _, some ci, true, _ =>
        (match (s.crew ci).wake with
          | some (.queuePop q' core' lanes dest) =>
            let (s, ws, left) := s.popInto k dest.toNat lanes
            let c := (s.crew ci).receive dest ws
            some ((s.setCrew ci (c.served left.isEmpty (.queuePop q' core' left dest))).noteProgress (s.asidOf c))
          | _ => none)
      | none, true, _, _, some ci =>
        if h.allow = 0 then none
        else (match (s.crew ci).wake with
          | some (.queuePush q' core' items) =>
            let (s, left) := s.pushLanes k items
            let c := s.crew ci
            some ((s.setCrew ci (c.served left.isEmpty (.queuePush q' core' left))).noteProgress (s.asidOf c))
          | _ => none)
      | _, _, _, _, _ => none

/-- Serve an instance until nobody can be served. -/
def State.serveFuel (team core q : Nat) : Nat → State → State
  | 0, s => s
  | n + 1, s => match s.serveOnce team core q with
    | none => s
    | some s => State.serveFuel team core q n s
def State.serveQueue (s : State) (team core q : Nat) : State :=
  State.serveFuel team core q (64 * (s.crews.length + 1) + 2 * (s.team team).pushes.length) s

/-- A push without a crew (R115, R378): ahead of blocked pushers, ignoring ALLOW. None when the instance is bad. -/
def State.pushFor (s : State) (team core q : Nat) (w : TWord) : Option State :=
  let t := s.team team
  match qInstance t (s.grid t.grid) core q with
  | none => none
  | some (k, key) =>
    if !s.queueBad team k q key then some ((s.setTeam team { t with pushes := t.pushes ++ [⟨k, q, w, true⟩] }).serveQueue team k q) else none

/-! ## The instructions (R268) -/

/-- The instance of an instruction and its lanes' traps: TAG by `bad`, then BAD_HANDLE (R248, R268). -/
def qSetup (i : Instr) (s : State) (c : Crew) (lanes : List Nat) (q : Nat) (bad : Nat → Bool)
    (run : Nat → Nat → List Nat → List LaneOut → BodyRes) : BodyRes :=
  let trapped : List LaneOut := lanes.map fun l => trapOut i s c l (if bad l then .tag else .badHandle)
  match qInstance (s.teamOf c) (s.gridOf c) c.core q with
  | none => .ok s c trapped false
  | some (core, k) =>
    if s.queueBad c.team core q k then .ok (s.spoilQueue c.team core q) c trapped false
    else if s.grants.any fun g => g.1 == arbiterOf k then .stall
    else run core k (lanes.filter fun l => !bad l) ((lanes.filter bad).map fun l => trapOut i s c l .tag)

/-- Block the crew at a queue and serve the queue: a crew that nobody is ahead of is served at once. -/
def State.enqueue (s : State) (ci : Nat) (c : Crew) (core q : Nat) (w : Wake) : State :=
  ({ s.setCrew ci { c with wake := some w, ticket := s.tickets } with tickets := s.tickets + 1 }).serveQueue c.team core q

def qpushBody (q : BitVec 5) (o : ROps) : Body := fun s ci c lanes =>
  let i : Instr := .qpush q o
  qSetup i s c lanes q.toNat (fun l => (s.opnd i c l 1).isHeader) fun core _ good traps =>
    if good.isEmpty then .ok s c traps false
    else
      let s' := s.enqueue ci c core q.toNat (.queuePush q.toNat core (good.map fun l => (l, s.opnd i c l 1)))
      .ok s' (s'.crew ci) (plainOuts good ++ traps) false

def execQpush (q : BitVec 5) (o : ROps) (s : State) : Out := issue (.qpush q o) (qpushBody q o) s

def qpopBody (q : BitVec 5) (o : ROps) : Body := fun s ci c lanes =>
  let i : Instr := .qpop q o
  qSetup i s c lanes q.toNat (fun _ => false) fun core _ good traps =>
    let s' := s.enqueue ci c core q.toNat (.queuePop q.toNat core good (BitVec.ofNat 8 (s.destOf i c (good.headD 0))))
    .ok s' (s'.crew ci) (plainOuts good ++ traps) false

def execQpop (q : BitVec 5) (o : ROps) (s : State) : Out := issue (.qpop q o) (qpopBody q o) s

/-- `qtry`: pops unless another crew waits to pop; a lane not served receives NIL. -/
def qtryBody (q : BitVec 5) (o : ROps) : Body := fun s ci c lanes =>
  let i : Instr := .qtry q o
  qSetup i s c lanes q.toNat (fun _ => false) fun core k good traps =>
    let s0 := s.setCrew ci c
    let r : State × List (Nat × TWord) × List Nat :=
      if (s0.firstBlocked c.team (isPopOn core q.toNat)).isSome then (s0, [], good) else s0.popInto k (s.destOf i c (good.headD 0)) good
    let s' := r.1.serveQueue c.team core q.toNat
    let outs : List LaneOut := (r.2.1 ++ r.2.2.map fun l => (l, TWord.nil)).map fun w =>
      { lane := w.1, writes := [(s.destOf i c w.1, w.2)] }
    .ok s' (s'.crew ci) (outs ++ traps) false

def execQtry (q : BitVec 5) (o : ROps) (s : State) : Out := issue (.qtry q o) (qtryBody q o) s

/-- ALLOW after a grant (R111). -/
def addAllow (allow : Nat) (n : BitVec 64) : Nat := (max 0 (min (2 ^ 32 - 1) ((allow : Int) + n.toInt))).toNat

def qallowBody (q : BitVec 5) (o : ROps) : Body := fun s ci c lanes =>
  let i : Instr := .qallow q o
  qSetup i s c lanes q.toNat (fun l => (s.opnd i c l 1).tag != .int) fun core k good traps =>
    if good.isEmpty then .ok s c traps false
    else
      let allow := good.foldl (fun a l => addAllow a (s.opnd i c l 1).payload) (s.qHead k).allow
      let s' := ((s.setCrew ci c).eventPut (k + 24) ⟨.int, BitVec.ofNat 64 allow⟩).serveQueue c.team core q.toNat
      .ok s' (s'.crew ci) (plainOuts good ++ traps) false

def execQallow (q : BitVec 5) (o : ROps) (s : State) : Out := issue (.qallow q o) (qallowBody q o) s

end Sys2Proof.Machine
end

