-- ==== Sys2Proof/Machine/Barriers.lean ====
section
/-! DEFINITION. Team barriers and arrival barriers (R113-R116, R269, R270; 0xB8-0xBC). -/

namespace Sys2Proof.Machine

open Sys2Proof

/-! ## Team barriers (R116, R269) -/

/-- Lanes arrive one after another; the phase of the last one. -/
def TBar.arrive (count : Nat) : Nat → TBar → Nat → TBar × Nat
  | 0, b, last => (b, last)
  | n + 1, b, _ =>
    let b := if b.arrived = 0 then { b with count := count } else b
    let p := b.phase
    let b := if b.count ≤ b.arrived + 1 then { b with phase := p + 1, arrived := 0 } else { b with arrived := b.arrived + 1 }
    TBar.arrive count n b p

/-- Wake the crews of a team whose wake a test selects. -/
def State.wakeCrews (s : State) (team : Nat) (t : Wake → Bool) : State :=
  { s with crews := s.crews.map fun c =>
      if c.team == team && c.place != .retired && (match c.wake with | some w => t w | none => false) then
        { c with wake := none } else c }

/-- `n` lanes of a crew arrive at barrier `id` as one event; the crew waits for the phase of its last lane. -/
def State.tbarArrive (s : State) (ci id count n : Nat) : State :=
  let team := (s.crew ci).team
  let t := s.team team
  let old := (t.tbars.find? fun b => b.id == id).getD { id := id }
  let (b, last) := TBar.arrive count n old old.phase
  let s := s.setTeam team { t with tbars := b :: t.tbars.filter fun x => x.id != id }
  let s := s.wakeCrews team fun w => match w with
    | .tbar id' p => id' == id && decide (p < b.phase)
    | _ => false
  if last < b.phase then s else s.setCrew ci { s.crew ci with wake := some (.tbar id last) }

def tbarBody (reg : Bool) (id : BitVec 4) (count : BitVec 13) (o : IOps) : Body := fun s ci c lanes =>
  let i : Instr := .tbar reg id count o
  let w := s.opnd i c (lanes.headD 0) 1
  if reg && w.tag != .int then .ok s c (lanes.map fun l => trapOut i s c l .tag) false
  else
    let n := if reg then w.payload.toNat else count.toNat
    if n = 0 ∨ 6144 < n then .ok s c (lanes.map fun l => trapOut i s c l .badHandle) false
    else
      let s' := (s.setCrew ci c).tbarArrive ci id.toNat n lanes.length
      .ok s' (s'.crew ci) (plainOuts lanes) false

def execTbar (reg : Bool) (id : BitVec 4) (count : BitVec 13) (o : IOps) (s : State) : Out :=
  issue (.tbar reg id count o) (tbarBody reg id count o) s

/-! ## Arrival barriers (R113-R115) -/

/-- Word 0 of a barrier (R113): bad when its tag is not INT or a reserved bit is set. -/
def barrierBad (w : TWord) : Bool := w.tag != .int || field w.payload 63 58 != 0
def barrierCount (p : BitVec 64) : Int := (p.extractLsb' 0 32).toInt
def barrierArrived (p : BitVec 64) : Nat := field p 51 32
def barrierAction (p : BitVec 64) : Bool := p.getLsbD 52
def barrierQueue (p : BitVec 64) : Nat := field p 57 53

/-- Word 0 with COUNT and ARRIVED replaced, both saturating (R113, R114). -/
def barrierSet (p : BitVec 64) (count : Int) (arrived : Nat) : BitVec 64 :=
  let c := max (-(2 ^ 31)) (min (2 ^ 31 - 1) count)
  BitVec.ofNat 64 (p.toNat / 2 ^ 52 * 2 ^ 52 + min arrived 0xFFFFF * 2 ^ 32 + (BitVec.ofInt 32 c).toNat)

def State.peekWord (s : State) (k : Nat) : TWord := ⟨Tags.read s.tags (k / 8), BitVec.ofNat 64 (Memory.nat s.mem k 8)⟩

/-- The barrier fires (R115): waiters on it are released; with ACTION 1, word 1 is pushed, once no crew holds the commit
token (R85). A queue that is unbound, or that an event has found bad, declares the context
dead (R112, R115). -/
def State.fireBarrier (s : State) (team core k : Nat) : State :=
  let w0 := s.peekWord k
  let s := { s with crews := s.crews.map fun c =>
      if c.team == team && c.place != .retired then
        (match c.wake with
          | some (.barrier ks) => { c with wake := some (.barrier (ks.filter fun x => x != k)) }
          | _ => c)
      else c }
  if !barrierAction w0.payload then s
  else
    let t := s.team team
    let q := barrierQueue w0.payload
    let w1 := s.peekWord (k + 8)
    match qInstance t (s.grid t.grid) core q with
    | some (qc, key) =>
      if s.queueBad team qc q key then (s.spoilQueue team qc q).pushDeath team
      else
        let s := s.setTeam team { t with pushes := t.pushes ++ [⟨qc, q, w1, false⟩] }
        if s.token.isSome then s else s.serveQueue team qc q
    | none => s.pushDeath team

/-- Count `n` off a barrier, with `a` arrivals; it fires when COUNT passes from above 0 to 0 or below (R114, R115). -/
def State.countBarrier (s : State) (team core k : Nat) (n : Int) (a : Nat) : State :=
  let p := (s.peekWord k).payload
  let c := barrierCount p
  let s := s.eventPut k ⟨.int, barrierSet p (c - n) (barrierArrived p + a)⟩
  if 0 < c ∧ c - n ≤ 0 then s.fireBarrier team core k else s

/-- A counting event that comes from outside a crew (R297): a bad word 0 declares the context dead. -/
def State.countEvent (s : State) (team core k : Nat) (n : Int) (a : Nat) : State :=
  if barrierBad (s.peekWord k) then s.pushDeath team
  else s.countBarrier team core k n a

/-! ## The instructions (R270) -/

/-- A lane's barrier: its core and key, or a trap: base and data tags, `early` BAD_HANDLE, the address, then word 0. -/
def barrierLane (o : MOps) (init : Bool) (dataOk early : Bool) (s : State) (c : Crew) (base idx : TWord) : Except Nat (Nat × Nat) :=
  let va := if init then atomAddr o base else o.addr base idx
  if !base.isAddr || !(init || o.idx == 255 || idx.isAddr) || !dataOk then .error TrapName.tag.code
  else if early then .error TrapName.badHandle.code
  else match s.scratchAddr c va 16 16 with
    | .ok k _ _ _ => if !init && barrierBad (s.peekWord k) then .error TrapName.badHandle.code else .ok (keyCore k, k)
    | .trap code => .error code
    | .xfault _ _ => .error TrapName.scratchRange.code

/-- The distinct barriers of the lanes, in the order of their lowest lane, each with its lanes. -/
def barrierGroups (t : Nat → Except Nat (Nat × Nat)) : List Nat → List ((Nat × Nat) × List Nat)
  | [] => []
  | l :: rest =>
    let gs := barrierGroups t rest
    match t l with
    | .error _ => gs
    | .ok b => match gs.find? fun x => x.1 == b with
      | some x => (b, l :: x.2) :: gs.filter fun x => x.1 != b
      | none => (b, [l]) :: gs

/-- Perform one event per distinct barrier; lanes that trap take no part. -/
def barrierBody (i : Instr) (t : State → Crew → Nat → Except Nat (Nat × Nat)) (event : State → Nat → Nat → Nat → List Nat → State) :
    Body := fun s ci c lanes =>
  let tgt := t s c
  let gs := barrierGroups tgt lanes
  if gs.any fun g => s.mustWait ci g.1.2 16 then .stall
  else
    let s' := gs.foldl (fun s g => event s c.team g.1.1 g.1.2 g.2) (s.setCrew ci c)
    .ok s' (s'.crew ci) (lanes.map fun l => match tgt l with
      | .ok _ => { lane := l }
      | .error code => trapCode i s c l code) false

/-- `abinit` writes both words with ARRIVED 0; the highest lane's stand. -/
def execAbinit (o : MOps) (s : State) : Out :=
  let i : Instr := .abinit o
  issue i (fun s ci c lanes =>
    barrierBody i (fun s c l =>
      let w0 := s.opnd i c l 0
      let w1 := s.opnd i c l 2
      let core := (scratchCore (s.teamOf c) c.core (atomAddr o (s.opnd i c l 1)).toNat).getD c.core
      barrierLane o true (w0.tag == .int && !w1.isHeader)
        (barrierBad w0 || (barrierAction w0.payload
          && (qInstance (s.teamOf c) (s.gridOf c) core (barrierQueue w0.payload)).isNone))
        s c (s.opnd i c l 1) .nil)
      (fun s' _ _ k ls =>
        let l := ls.getLastD 0
        let p := (s.opnd i c l 0).payload
        (s'.eventPut k ⟨.int, barrierSet p (barrierCount p) 0⟩).eventPut (k + 8) (s.opnd i c l 2))
      s ci c lanes) s

/-- `abexp` adds to COUNT and never fires. -/
def execAbexp (o : MOps) (s : State) : Out :=
  let i : Instr := .abexp o
  issue i (fun s ci c lanes =>
    barrierBody i (fun s c l =>
      barrierLane o false ((s.opnd i c l 0).tag == .int) false s c (s.opnd i c l 1) (s.opnd i c l 2))
      (fun s' _ _ k ls => ls.foldl (fun s' l =>
        let p := (s'.peekWord k).payload
        s'.eventPut k ⟨.int, barrierSet p (barrierCount p + (s.opnd i c l 0).payload.toInt) (barrierArrived p)⟩) s')
      s ci c lanes) s

/-- `abarr`: each lane counts one off and arrives; the barrier may fire. -/
def execAbarr (o : MOps) (s : State) : Out :=
  let i : Instr := .abarr o
  issue i (barrierBody i
    (fun s c l => barrierLane o false true false s c (s.opnd i c l 1) (s.opnd i c l 2))
    (fun s team core k ls => ls.foldl (fun s _ => s.countBarrier team core k 1 1) s)) s

/-- `abwait`: blocks until every barrier its lanes name is complete or has fired; a fatal trap of a lane comes first. -/
def abwaitBody (o : MOps) : Body := fun s ci c lanes =>
  let i : Instr := .abwait o
  let tgt (l : Nat) := barrierLane o false true false s c (s.opnd i c l 1) (s.opnd i c l 2)
  let gs := barrierGroups tgt lanes
  let outs := lanes.map fun l => match tgt l with
    | .ok _ => { lane := l }
    | .error code => trapCode i s c l code
  let fatal := outs.any fun o => match o.trap with
    | some t => (match s.fateIn c t with | .fatal _ => true | _ => false)
    | none => false
  let isOpen (k : Nat) : Bool := decide (0 < barrierCount (s.peekWord k).payload)
  let open' := match (s.crew ci).wake with
    | some (.barrier ks) => ks.filter isOpen
    | _ => (gs.map fun g => g.1.2).filter isOpen
  if gs.any fun g => s.mustWait ci g.1.2 16 then .stall
  else if fatal || open'.isEmpty then .ok s c outs false
  else .block s c (.barrier open')

def execAbwait (o : MOps) (s : State) : Out := issue (.abwait o) (abwaitBody o) s

end Sys2Proof.Machine
end

