-- ==== Sys2Proof/Machine/Collective.lean ====
section
/-! DEFINITION. Crew and quad collectives 0x70-0x79 (R226-R232), in native mode and in C16's halves (R362). -/

namespace Sys2Proof.Machine

open Sys2Proof

/-- The lanes that contribute: HELPERs add nothing (R57). -/
def contributors (c : Crew) (lanes : List Nat) : List Nat := lanes.filter fun l => (c.thread l).st != .helper

/-- First lane of a lane's half, and lanes of a half: the whole crew outside C16 (R362). -/
def halfBase (c16 : Bool) (l : Nat) : Nat := if c16 then l / 16 * 16 else 0
def halfSize (c16 : Bool) : Nat := if c16 then 16 else 32

/-- The lanes of a list in a lane's half. -/
def inHalf (c16 : Bool) (l : Nat) (ls : List Nat) : List Nat := ls.filter fun k => halfBase c16 k == halfBase c16 l

def State.c16 (s : State) (c : Crew) : Bool := (s.gridOf c).c16

/-- A collective that reads the A word of every lane and gives each lane a word. -/
def collect (i : Instr) (f : Bool → List Nat → (Nat → TWord) → (Nat → TWord) → Nat → TWord) : Body := fun s _ c lanes =>
  let a (l : Nat) : TWord := s.opnd i c l 1
  let b (l : Nat) : TWord := s.opnd i c l 2
  .ok s c (lanes.map fun l => s.laneOf i c l (.word (f (s.c16 c) (contributors c lanes) a b l) 0 false)) false

/-- The source index of `shfl` within the half (R227). -/
def shflIndex (mode : ShflMode) (l : Nat) (n : BitVec 64) : Int :=
  match mode with
  | .idx => n.toInt
  | .up => l - n.toInt
  | .down => l + n.toInt
  | .xor => (BitVec.ofNat 64 l ^^^ n).toInt

/-- shfl of one lane (R227). -/
def shflWord (mode : ShflMode) (imm : Option Nat) (c16 : Bool) (con : List Nat) (a b : Nat → TWord) (l : Nat) : TWord :=
  let n : BitVec 64 := match imm with
    | some k => BitVec.ofNat 64 k
    | none => (b l).pay
  let x := shflIndex mode (l - halfBase c16 l) n
  if x < 0 ∨ (halfSize c16 : Int) ≤ x then a l
  else
    let src := halfBase c16 l + x.toNat
    if con.contains src then a src else .undef

def execShfl (mode : ShflMode) (immB : Bool) (o : ROps) : State → Out :=
  issue (.shfl mode immB o) (collect (.shfl mode immB o) (shflWord mode (if immB then some o.b.toNat else none)))

/-- vote (R229). -/
def voteWord (op : VoteOp) (c16 : Bool) (con : List Nat) (a _b : Nat → TWord) (l : Nat) : TWord :=
  let mine := inHalf c16 l con
  let p (k : Nat) : Bool := (a k).pay != 0
  match op with
  | .all => boolWord (mine.all p)
  | .any => boolWord (mine.any p)
  | .uni => boolWord (mine.all p || mine.all fun k => !p k)
  | .ballot => ⟨.int, laneMask ((mine.filter p).map fun k => k - halfBase c16 k)⟩

def execVote (op : VoteOp) (o : ROps) : State → Out := issue (.vote op o) (collect (.vote op o) (voteWord op))

/-- qswap and qbcast: HELPER lanes are full participants (R57, R228). -/
def quadBody (i : Instr) (src : Nat → Nat) : Body := fun s _ c lanes =>
  .ok s c (lanes.map fun l =>
    s.laneOf i c l (.word (if lanes.contains (src l) then s.opnd i c (src l) 1 else .undef) 0 false)) false

def execQswap (k : BitVec 2) (o : ROps) : State → Out := issue (.qswap k o) (quadBody (.qswap k o) fun l => l ^^^ k.toNat)

def execQbcast (j : BitVec 2) (o : ROps) : State → Out :=
  issue (.qbcast j o) (quadBody (.qbcast j o) fun l => 4 * (l / 4) + j.toNat)

/-! ## Keys (R231) -/

/-- Is the first key before the second in `msort`'s upward order (R231)? -/
def keyBefore (a b : HKey) : Bool :=
  let ta := a.canon.tag
  let tb := b.canon.tag
  if ta != tb then decide (ta.toNat < tb.toNat)
  else match ta with
    | .int => a.canon.payload.slt b.canon.payload
    | .ref => decide (a.canon.payload.toNat < b.canon.payload.toNat)
        || (a.canon.payload == b.canon.payload && decide (a.addr < b.addr))
    | t => match t.fp? with
      | some f =>
        let x := f.value a.canon.payload
        let y := f.value b.canon.payload
        (!x.isNan && y.isNan) || ltVal x y
      | none => decide (a.canon.payload.toNat < b.canon.payload.toNat)

/-- Canon of every lane, in the chunk; results by lane. -/
def State.canonLanes (s : State) (i : Instr) (ci : Nat) : List Nat → Crew → Crew × List (Nat × Canoned)
  | [], c => (c, [])
  | l :: t, c =>
    let (c, k) := s.canon ci c (s.opnd i c l 1)
    let (c, ks) := s.canonLanes i ci t c
    (c, (l, k) :: ks)

/-- A collective over keys: each lane's word from the contributing lanes' keys and its own. A contributing lane whose Canon traps
counts in no other lane's mask or rank (R231, DESIGN CHOICE, entry 51). -/
def keyBody (i : Instr) (f : Bool → List (Nat × HKey) → Nat → HKey → TWord) : Body := fun s ci c lanes =>
  let (c', ks) := s.canonLanes i ci lanes c
  let good := ks.filterMap fun e => match e.2 with | .ok k => some (e.1, k) | _ => none
  let con := good.filter fun e => (c.thread e.1).st != .helper
  settle s c false (c', ks.map fun e => match e.2 with
    | .ok k => .out (s.laneOf i c e.1 (.word (f (s.c16 c) (con.filter fun x => halfBase (s.c16 c) x.1 == halfBase (s.c16 c) e.1) e.1 k) 0 false))
    | .trap t => .out { lane := e.1, trap := some (s.trapReq i c e.1 t) }
    | .xfault va cause => .xfault va cause false
    | .wait => .wait)

def execMatchKeys (o : ROps) : State → Out :=
  issue (.matchKeys o) (keyBody (.matchKeys o) fun c16 con _ k =>
    ⟨.int, laneMask ((con.filter fun e => e.2.eqv k).map fun e => e.1 - halfBase c16 e.1)⟩)

def execMsort (desc : Bool) (o : ROps) : State → Out :=
  issue (.msort desc o) (keyBody (.msort desc o) fun _ con l k =>
    intWord ((con.filter fun e =>
      (if desc then keyBefore k e.2 else keyBefore e.2 k) || (e.2.eqv k && decide (e.1 < l))).length : Nat))

/-- perm (R232): the A of the lowest contributing lane that sends here, or UNDEF. -/
def permWord (c16 : Bool) (con : List Nat) (a b : Nat → TWord) (l : Nat) : TWord :=
  match con.find? fun k => halfBase c16 k + (b k).pay.toNat % halfSize c16 == l with
  | some k => a k
  | none => .undef

def execPerm (o : ROps) : State → Out := issue (.perm o) (collect (.perm o) permWord)

/-! ## scan and reduce (R230) -/

/-- The tag of a result. -/
def redTag : RedTy → Tag
  | .f t => t.tag
  | _ => .int

/-- A payload as the type reads it. -/
def redRead (ty : RedTy) (p : BitVec 64) : BitVec 64 :=
  match ty with
  | .f t => BitVec.ofNat 64 (p.toNat % 2 ^ t.bin.width)
  | _ => p

/-- The first contributing value: a NaN gives the canonical NaN, a signalling one raises NV (R156). -/
def redFirst (ty : RedTy) (p : BitVec 64) : BitVec 64 × Flags :=
  match ty with
  | .f t => match t.value p with
    | .nan sig => (BitVec.ofNat 64 (t.bin.canonNan.getD 0), sigFlags [.nan sig])
    | _ => (redRead ty p, 0)
  | _ => (redRead ty p, 0)

/-- One combining step, with its flags. -/
def redStep (op : RedOp) (ty : RedTy) (rm : RMode) (a b : BitVec 64) : BitVec 64 × Flags :=
  match ty with
  | .f t =>
    let r := match op with
      | .add => fAdd t.bin rm (t.value a) (t.value b)
      | .min => fMin t.bin (t.value a) (t.value b)
      | _ => fMax t.bin (t.value a) (t.value b)
    (BitVec.ofNat 64 r.bits, r.flags)
  | ty =>
    let signed := ty == .i64
    (match op with
      | .add => intOp signed .add a b
      | .min => intOp signed .min a b
      | .max => intOp signed .max a b
      | .and => a &&& b
      | .or => a ||| b
      | .xor => a ^^^ b, 0)

/-- The identity of R230. -/
def redIdentity (op : RedOp) (ty : RedTy) : BitVec 64 :=
  match ty, op with
  | .f t, .min => BitVec.ofNat 64 t.bin.infEnc
  | .f t, .max => BitVec.ofNat 64 (t.bin.signBit + t.bin.infEnc)
  | .f _, _ => 0
  | .i64, .min => 0x7FFFFFFFFFFFFFFF
  | .i64, .max => 0x8000000000000000
  | .u64, .min => BitVec.allOnes 64
  | _, .and => BitVec.allOnes 64
  | _, _ => 0

/-- Combine values in order; none gives the identity. -/
def redFold (op : RedOp) (ty : RedTy) (rm : RMode) : List (BitVec 64) → BitVec 64 × Flags
  | [] => (redIdentity op ty, 0)
  | x :: t => t.foldl (fun acc y => let (z, fl) := redStep op ty rm acc.1 y; (z, acc.2 ||| fl)) (redFirst ty x)

/-- A body that combines the values of the contributing lanes a test selects. -/
def foldBody (i : Instr) (op : RedOp) (ty : RedTy) (rm : RMode) (takes : Nat → Nat → Bool) : Body := fun s _ c lanes =>
  let con := contributors c lanes
  .ok s c (lanes.map fun l =>
    let mine := (inHalf (s.c16 c) l con).filter fun k => takes k l
    let (p, fl) := redFold op ty rm (mine.map fun k => (s.opnd i c k 1).pay)
    s.laneOf i c l (.word ⟨redTag ty, p⟩ fl false)) false

def execScan (op : RedOp) (ex : Bool) (ty : RedTy) (rm : RMode) (o : ROps) : State → Out :=
  issue (.scan op ex ty rm o) (foldBody (.scan op ex ty rm o) op ty rm fun k l => if ex then decide (k < l) else decide (k ≤ l))

def execReduce (op : RedOp) (ty : RedTy) (rm : RMode) (o : ROps) : State → Out :=
  issue (.reduce op ty rm o) (foldBody (.reduce op ty rm o) op ty rm fun _ _ => true)

/-- elect (R229): the lowest non-HELPER participant, of each half in C16. -/
def electWord (c16 : Bool) (con : List Nat) (_a _b : Nat → TWord) (l : Nat) : TWord :=
  boolWord (con.contains l && (inHalf c16 l con).all fun k => decide (l ≤ k))

def execElect (o : ROps) : State → Out := issue (.elect o) (collect (.elect o) electWord)

end Sys2Proof.Machine
end

