-- ==== Sys2Proof/Decode.lean ====
section
/-! DEFINITION. Instruction words (R179-R187): fields to bits and back, the decoder of R195 steps 1 and 2, and the encoder.
An instruction is one number: word 0 in its low 64 bits, word 1 of the X format above. -/

namespace Sys2Proof

/-! ## Codes -/

/-- RM (R153). -/
def RMode.code : RMode → Nat
  | .rne => 0 | .rz => 1 | .rdn => 2 | .rup => 3 | .rna => 4
def rmodeOf : Nat → Option RMode
  | 0 => some .rne | 1 => some .rz | 2 => some .rdn | 3 => some .rup | 4 => some .rna | _ => none

/-- RM with error feedback as 5 (R153). -/
def CvtMode.code : CvtMode → Nat
  | .round rm => rm.code | .ef => 5
def cvtModeOf : Nat → Option CvtMode
  | 5 => some .ef | n => (rmodeOf n).map .round

/-- CC of `fcmp` (R186). -/
def FCond.code : FCond → Nat
  | .eq => 0 | .ne => 1 | .lt => 2 | .le => 3 | .ult => 4 | .ule => 5 | .uo => 6 | .ord => 7
def fcondOf : Nat → Option FCond
  | 0 => some .eq | 1 => some .ne | 2 => some .lt | 3 => some .le | 4 => some .ult | 5 => some .ule | 6 => some .uo
  | 7 => some .ord | _ => none

/-- CC of `icmp` (R212). -/
def ICond.code : ICond → Nat
  | .eq => 0 | .ne => 1 | .lt => 2 | .le => 3 | .ult => 4 | .ule => 5
def icondOf : Nat → Option ICond
  | 0 => some .eq | 1 => some .ne | 2 => some .lt | 3 => some .le | 4 => some .ult | 5 => some .ule | _ => none

/-- VAR of the typed integer opcodes (R187). -/
def IVar.code : IVar → Nat
  | .i64 => 0 | .u64 => 1 | .i32 => 2 | .u32 => 3
def ivarOf : Nat → Option IVar
  | 0 => some .i64 | 1 => some .u64 | 2 => some .i32 | 3 => some .u32 | _ => none

/-- TY of the typed float opcodes (R186). -/
def FTy.code : FTy → Nat
  | .f64 => 0 | .f32 => 1 | .f16 => 2 | .bf16 => 3 | .f32x2 => 4 | .f16x4 => 5 | .bf16x4 => 6
def ftyOf : Nat → Option FTy
  | 0 => some .f64 | 1 => some .f32 | 2 => some .f16 | 3 => some .bf16 | 4 => some .f32x2 | 5 => some .f16x4
  | 6 => some .bf16x4 | _ => none

/-- VAR of the M format (R187). -/
def Acc.code : Acc → Nat
  | .w => 0 | .i8 => 1 | .i16 => 2 | .i32 => 3 | .i64 => 4 | .u8 => 5 | .u16 => 6 | .u32 => 7 | .f16 => 8 | .bf16 => 9
  | .f32 => 10 | .f64 => 11 | .raw => 12 | .v16 => 13 | .v32 => 14
def accOf : Nat → Option Acc
  | 0 => some .w | 1 => some .i8 | 2 => some .i16 | 3 => some .i32 | 4 => some .i64 | 5 => some .u8 | 6 => some .u16
  | 7 => some .u32 | 8 => some .f16 | 9 => some .bf16 | 10 => some .f32 | 11 => some .f64 | 12 => some .raw
  | 13 => some .v16 | 14 => some .v32 | _ => none

/-- Format codes (R141). -/
def Fmt.code : Fmt → Nat
  | .word => 0x00 | .i8 => 0x01 | .i16 => 0x02 | .i32 => 0x03 | .i64 => 0x04 | .u8 => 0x05 | .u16 => 0x06
  | .u32 => 0x07 | .u64 => 0x08 | .f16 => 0x09 | .bf16 => 0x0A | .f32 => 0x0B | .f64 => 0x0C | .e4m3 => 0x10
  | .e5m2 => 0x11 | .e3m2 => 0x12 | .e2m3 => 0x13 | .e2m1 => 0x14 | .i4 => 0x15 | .u4 => 0x16 | .b4 => 0x18
  | .b8f => 0x19 | .b8i => 0x1A | .l1 => 0x1B | .l2 => 0x1C | .scale => 0x20
def fmtOf : Nat → Option Fmt
  | 0x00 => some .word | 0x01 => some .i8 | 0x02 => some .i16 | 0x03 => some .i32 | 0x04 => some .i64
  | 0x05 => some .u8 | 0x06 => some .u16 | 0x07 => some .u32 | 0x08 => some .u64 | 0x09 => some .f16
  | 0x0A => some .bf16 | 0x0B => some .f32 | 0x0C => some .f64 | 0x10 => some .e4m3 | 0x11 => some .e5m2
  | 0x12 => some .e3m2 | 0x13 => some .e2m3 | 0x14 => some .e2m1 | 0x15 => some .i4 | 0x16 => some .u4
  | 0x18 => some .b4 | 0x19 => some .b8f | 0x1A => some .b8i | 0x1B => some .l1 | 0x1C => some .l2
  | 0x20 => some .scale | _ => none

/-- Matrix codes (R142). -/
def MFmt.code : MFmt → Nat
  | .f32 => 0 | .f16 => 1 | .bf16 => 2 | .e4m3 => 3 | .e5m2 => 4 | .e3m2 => 5 | .e2m3 => 6 | .i8 => 7 | .u8 => 8
  | .i4 => 9 | .u4 => 10 | .b4 => 11 | .b8f => 12 | .b8i => 13 | .l1 => 14 | .l2 => 15
def mfmtOf : Nat → Option MFmt
  | 0 => some .f32 | 1 => some .f16 | 2 => some .bf16 | 3 => some .e4m3 | 4 => some .e5m2 | 5 => some .e3m2
  | 6 => some .e2m3 | 7 => some .i8 | 8 => some .u8 | 9 => some .i4 | 10 => some .u4 | 11 => some .b4 | 12 => some .b8f
  | 13 => some .b8i | 14 => some .l1 | 15 => some .l2 | _ => none

def ShflMode.code : ShflMode → Nat
  | .idx => 0 | .up => 1 | .down => 2 | .xor => 3
def shflOf : Nat → Option ShflMode
  | 0 => some .idx | 1 => some .up | 2 => some .down | 3 => some .xor | _ => none

def VoteOp.code : VoteOp → Nat
  | .all => 0 | .any => 1 | .uni => 2 | .ballot => 3
def voteOf : Nat → Option VoteOp
  | 0 => some .all | 1 => some .any | 2 => some .uni | 3 => some .ballot | _ => none

def RedOp.code : RedOp → Nat
  | .add => 0 | .min => 1 | .max => 2 | .and => 3 | .or => 4 | .xor => 5
def redOpOf : Nat → Option RedOp
  | 0 => some .add | 1 => some .min | 2 => some .max | 3 => some .and | 4 => some .or | 5 => some .xor | _ => none

/-- TY of `scan` and `reduce` (R230). -/
def RedTy.code : RedTy → Nat
  | .f .f64 => 0 | .f .f32 => 1 | .f .f16 => 2 | .f .bf16 => 3 | .i64 => 8 | .u64 => 9
def redTyOf : Nat → Option RedTy
  | 0 => some (.f .f64) | 1 => some (.f .f32) | 2 => some (.f .f16) | 3 => some (.f .bf16) | 8 => some .i64
  | 9 => some .u64 | _ => none

def AtomOp.code : AtomOp → Nat
  | .add => 0 | .min => 1 | .max => 2 | .and => 3 | .or => 4 | .xor => 5 | .xchg => 6
def atomOpOf : Nat → Option AtomOp
  | 0 => some .add | 1 => some .min | 2 => some .max | 3 => some .and | 4 => some .or | 5 => some .xor
  | 6 => some .xchg | _ => none

/-- SC of the atomics (R263). -/
def AtomTy.code : AtomTy → Nat
  | .i64 => 0 | .u64 => 1 | .f64 => 2 | .f32 => 3
def atomTyOf : Nat → Option AtomTy
  | 0 => some .i64 | 1 => some .u64 | 2 => some .f64 | 3 => some .f32 | _ => none

def HaccOp.code : HaccOp → Nat
  | .add => 0 | .min => 1 | .max => 2 | .or => 3 | .and => 4
def haccOf : Nat → Option HaccOp
  | 0 => some .add | 1 => some .min | 2 => some .max | 3 => some .or | 4 => some .and | _ => none

def NMPat.code : NMPat → Nat
  | .p24 => 0 | .p48 => 1 | .p14 => 2
def nmOf : Nat → Option NMPat
  | 0 => some .p24 | 1 => some .p48 | 2 => some .p14 | _ => none

def FldMode.code : FldMode → Nat
  | .elem => 0 | .pk => 1 | .val => 2
def fldOf : Nat → Option FldMode
  | 0 => some .elem | 1 => some .pk | 2 => some .val | _ => none

/-- Special-register numbers (R193). -/
def SReg.code : SReg → Nat
  | .laneid => 0x00 | .quadid => 0x01 | .crewid => 0x02 | .crewn => 0x03 | .teamx => 0x04 | .teamy => 0x05
  | .teamz => 0x06 | .nteamx => 0x07 | .nteamy => 0x08 | .nteamz => 0x09 | .gangid => 0x0A | .gangn => 0x0B
  | .core => 0x0C | .cluster => 0x0D | .die => 0x0E | .clock => 0x0F | .htab => 0x10 | .nbase => 0x11 | .nlimit => 0x12
  | .xi => 0x13 | .fpflags => 0x14 | .trapinfo => 0x15 | .svcq => 0x16 | .hregion => 0x17 | .active => 0x18
  | .fourpos => 0x19 | .chunkn => 0x1A | .squashn => 0x1B | .formatflag => 0x1C
def sregOf : Nat → Option SReg
  | 0x00 => some .laneid | 0x01 => some .quadid | 0x02 => some .crewid | 0x03 => some .crewn | 0x04 => some .teamx
  | 0x05 => some .teamy | 0x06 => some .teamz | 0x07 => some .nteamx | 0x08 => some .nteamy | 0x09 => some .nteamz
  | 0x0A => some .gangid | 0x0B => some .gangn | 0x0C => some .core | 0x0D => some .cluster | 0x0E => some .die
  | 0x0F => some .clock | 0x10 => some .htab | 0x11 => some .nbase | 0x12 => some .nlimit | 0x13 => some .xi
  | 0x14 => some .fpflags | 0x15 => some .trapinfo | 0x16 => some .svcq | 0x17 => some .hregion | 0x18 => some .active
  | 0x19 => some .fourpos | 0x1A => some .chunkn | 0x1B => some .squashn | 0x1C => some .formatflag | _ => none

/-! ## Fields and bits (R180-R184) -/

/-- Bits `lo + n - 1 : lo` of a number. -/
def bits (n lo w : Nat) : BitVec n := BitVec.ofNat n (w / 2 ^ lo)
/-- Bit `k` of a number. -/
def bit (k w : Nat) : Bool := decide (w / 2 ^ k % 2 = 1)

/-- An instruction word taken apart by its format. OP is kept as a number below 256. -/
inductive Raw where
  /-- R180: VAR, RM/CC, TY -/
  | r (op : Nat) (var : BitVec 4) (rm : BitVec 3) (ty : BitVec 4) (o : ROps)
  /-- R181 -/
  | i (op : Nat) (var : BitVec 4) (imm : BitVec 32) (o : IOps)
  /-- R182 -/
  | m (op : Nat) (var : BitVec 4) (o : MOps)
  /-- R183 -/
  | b (op : Nat) (var : BitVec 4) (o : BOps)
  /-- R184 -/
  | x (op : Nat) (var : BitVec 4) (flags : BitVec 13) (imm32 : BitVec 32) (imm16 : BitVec 16) (o : XOps)
  deriving DecidableEq, Repr

/-- A format's fields as bits (the tables of R180-R184). -/
def Raw.word : Raw → Nat
  | .r op var rm ty o => op * 2 ^ 56 + var.toNat * 2 ^ 52 + o.d.toNat * 2 ^ 44 + o.a.toNat * 2 ^ 36 + o.b.toNat * 2 ^ 28
      + o.c.toNat * 2 ^ 20 + o.la.toNat * 2 ^ 19 + o.lb.toNat * 2 ^ 18 + o.lc.toNat * 2 ^ 17 + o.lk.toNat * 2 ^ 13
      + rm.toNat * 2 ^ 10 + ty.toNat * 2 ^ 6 + o.xd.toNat * 2 ^ 5 + o.xa.toNat * 2 ^ 4
  | .i op var imm o => op * 2 ^ 56 + var.toNat * 2 ^ 52 + o.d.toNat * 2 ^ 44 + o.a.toNat * 2 ^ 36 + o.la.toNat * 2 ^ 35
      + o.xd.toNat * 2 ^ 34 + o.xa.toNat * 2 ^ 33 + imm.toNat
  | .m op var o => op * 2 ^ 56 + var.toNat * 2 ^ 52 + o.d.toNat * 2 ^ 44 + o.base.toNat * 2 ^ 36 + o.idx.toNat * 2 ^ 28
      + o.ld.toNat * 2 ^ 27 + o.lbase.toNat * 2 ^ 26 + o.lidx.toNat * 2 ^ 25 + o.lk.toNat * 2 ^ 21 + o.sc.toNat * 2 ^ 19
      + o.off.toNat
  | .b op var o => op * 2 ^ 56 + var.toNat * 2 ^ 52 + o.a.toNat * 2 ^ 44 + o.la.toNat * 2 ^ 43 + o.off.toNat
  | .x op var flags imm32 imm16 o => op * 2 ^ 56 + var.toNat * 2 ^ 52 + o.f0.toNat * 2 ^ 44 + o.f1.toNat * 2 ^ 36
      + o.f2.toNat * 2 ^ 28 + o.f3.toNat * 2 ^ 20 + o.lk.toNat * 2 ^ 16 + o.l1.toNat * 2 ^ 15 + o.l2.toNat * 2 ^ 14
      + o.l3.toNat * 2 ^ 13 + flags.toNat
      + (imm32.toNat * 2 ^ 32 + o.f4.toNat * 2 ^ 24 + o.f5.toNat * 2 ^ 16 + imm16.toNat) * 2 ^ 64

/-- The opcode byte of a word: bits [63:56] of word 0. -/
def opByte (w : Nat) : Nat := w / 2 ^ 56 % 256

/-- The word taken apart, for a byte the map assigns. -/
def Raw.parse (w : Nat) : Option Raw :=
  let op := opByte w
  match opFormat op with
  | some .r => some (.r op (bits 4 52 w) (bits 3 10 w) (bits 4 6 w)
      ⟨bits 8 44 w, bits 8 36 w, bits 8 28 w, bits 8 20 w, bit 19 w, bit 18 w, bit 17 w, bits 4 13 w, bit 5 w, bit 4 w⟩)
  | some .i => some (.i op (bits 4 52 w) (bits 32 0 w) ⟨bits 8 44 w, bits 8 36 w, bit 35 w, bit 34 w, bit 33 w⟩)
  | some .m => some (.m op (bits 4 52 w)
      ⟨bits 8 44 w, bits 8 36 w, bits 8 28 w, bit 27 w, bit 26 w, bit 25 w, bits 4 21 w, bits 2 19 w, bits 19 0 w⟩)
  | some .b => some (.b op (bits 4 52 w) ⟨bits 8 44 w, bit 43 w, bits 43 0 w⟩)
  | some .x => some (.x op (bits 4 52 w) (bits 13 0 w) (bits 32 96 w) (bits 16 64 w)
      ⟨bits 8 44 w, bits 8 36 w, bits 8 28 w, bits 8 20 w, bits 8 88 w, bits 8 80 w, bits 4 16 w, bit 15 w, bit 14 w,
        bit 13 w⟩)
  | none => none

/-! ## The encoder -/

/-- FLAGS, IMM32 and IMM16 of a product (R284). -/
def ProdOps.raw (op : Nat) (var : BitVec 4) (p : ProdOps) : Raw :=
  .x op var (BitVec.ofNat 13 (p.bblen.toNat * 64 + p.z.toNat * 32 + p.h.toNat * 16 + p.bfmt.code))
    (BitVec.ofNat 32 (p.mb.toNat * 2 ^ 24 + p.nb.toNat * 2 ^ 15 + p.kb.toNat * 2 ^ 6)) (BitVec.ofNat 16 p.sboff.toNat)
    ⟨0, p.f1, p.f2, p.f3, 0, 0, 0, p.l1, p.l2, p.l3⟩

/-- Shapes that many entries share. -/
def rawG (op : Nat) (rm : RMode) (o : ROps) : Raw := .r op 0 (BitVec.ofNat 3 rm.code) 0 o
def rawV (op : Nat) (v : IVar) (o : ROps) : Raw := .r op (BitVec.ofNat 4 v.code) 0 0 o
def rawF (op : Nat) (ty : FTy) (rm : RMode) (o : ROps) : Raw :=
  .r op 0 (BitVec.ofNat 3 rm.code) (BitVec.ofNat 4 ty.code) o
def rawF0 (op : Nat) (ty : FTy) (o : ROps) : Raw := .r op 0 0 (BitVec.ofNat 4 ty.code) o
def rawR (op : Nat) (var : Nat) (o : ROps) : Raw := .r op (BitVec.ofNat 4 var) 0 0 o
def rawM (op : Nat) (var : Nat) (o : MOps) : Raw := .m op (BitVec.ofNat 4 var) o
def rawX (op : Nat) (o : XOps) : Raw := .x op 0 0 0 0 o

/-- The fields of an instruction word (the entries' field tables); `none` for a step that is no assigned word. -/
def Instr.raw : Instr → Option Raw
  | .add rm o => some (rawG 0x01 rm o) | .sub rm o => some (rawG 0x02 rm o) | .mul rm o => some (rawG 0x03 rm o)
  | .div rm o => some (rawG 0x04 rm o) | .rem rm o => some (rawG 0x05 rm o) | .neg rm o => some (rawG 0x06 rm o)
  | .abs rm o => some (rawG 0x07 rm o) | .min rm o => some (rawG 0x08 rm o) | .max rm o => some (rawG 0x09 rm o)
  | .cmpeq rm o => some (rawG 0x0A rm o) | .cmplt rm o => some (rawG 0x0B rm o) | .cmple rm o => some (rawG 0x0C rm o)
  | .and rm o => some (rawG 0x0D rm o) | .or rm o => some (rawG 0x0E rm o) | .xor rm o => some (rawG 0x0F rm o)
  | .not rm o => some (rawG 0x10 rm o) | .shl rm o => some (rawG 0x11 rm o) | .shr rm o => some (rawG 0x12 rm o)
  | .fma rm o => some (rawG 0x13 rm o) | .ident rm o => some (rawG 0x14 rm o) | .truth rm o => some (rawG 0x15 rm o)
  | .iadd v o => some (rawV 0x20 v o) | .isub v o => some (rawV 0x21 v o) | .imul v o => some (rawV 0x22 v o)
  | .imulh v o => some (rawV 0x23 v o) | .idiv v o => some (rawV 0x24 v o) | .irem v o => some (rawV 0x25 v o)
  | .ineg v o => some (rawV 0x26 v o) | .iabs v o => some (rawV 0x27 v o) | .imin v o => some (rawV 0x28 v o)
  | .imax v o => some (rawV 0x29 v o) | .iand v o => some (rawV 0x2A v o) | .ior v o => some (rawV 0x2B v o)
  | .ixor v o => some (rawV 0x2C v o) | .inot v o => some (rawV 0x2D v o) | .ishl v o => some (rawV 0x2E v o)
  | .ishr v o => some (rawV 0x2F v o) | .popc v o => some (rawV 0x30 v o) | .clz v o => some (rawV 0x31 v o)
  | .ctz v o => some (rawV 0x32 v o) | .brev v o => some (rawV 0x33 v o) | .bfx v o => some (rawV 0x34 v o)
  | .bfi v o => some (rawV 0x35 v o)
  | .icmp v cc o => some (.r 0x36 (BitVec.ofNat 4 v.code) (BitVec.ofNat 3 cc.code) 0 o)
  | .sel o => some (rawR 0x37 0 o)
  | .lea v k o => some (.r 0x38 (BitVec.ofNat 4 v.code) 0 (BitVec.ofNat 4 k.toNat) o)
  | .mov o => some (rawR 0x39 0 o)
  | .movi v imm o => some (.i 0x3A (BitVec.ofNat 4 v.code) imm o)
  | .movh v imm o => some (.i 0x3B (BitVec.ofNat 4 v.code) imm o)
  | .iaddi v imm o => some (.i 0x3C (BitVec.ofNat 4 v.code) imm o)
  | .icmpi v cc imm o => some (.i 0x3D (BitVec.ofNat 4 v.code) (BitVec.ofNat 32 (cc.code * 2 ^ 28 + imm.toNat)) o)
  | .fadd ty rm o => some (rawF 0x40 ty rm o) | .fsub ty rm o => some (rawF 0x41 ty rm o)
  | .fmul ty rm o => some (rawF 0x42 ty rm o) | .ffma ty rm o => some (rawF 0x43 ty rm o)
  | .fdiv ty rm o => some (rawF 0x44 ty rm o) | .fsqrt ty rm o => some (rawF 0x45 ty rm o)
  | .frsq ty rm o => some (rawF 0x46 ty rm o) | .fexp2 ty rm o => some (rawF 0x47 ty rm o)
  | .flog2 ty rm o => some (rawF 0x48 ty rm o) | .frcp ty rm o => some (rawF 0x49 ty rm o)
  | .fmin ty o => some (rawF0 0x4A ty o) | .fmax ty o => some (rawF0 0x4B ty o) | .fabs ty o => some (rawF0 0x4C ty o)
  | .fneg ty o => some (rawF0 0x4D ty o)
  | .fcmp ty cc o => some (.r 0x4E 0 (BitVec.ofNat 3 cc.code) (BitVec.ofNat 4 ty.code) o)
  | .fclass ty o => some (rawF0 0x4F ty o) | .fround ty rm o => some (rawF 0x50 ty rm o)
  | .fscale ty rm o => some (rawF 0x51 ty rm o) | .fdot2 ty rm o => some (rawF 0x52 ty rm o)
  | .cvt rm dst src o => some (.x 0x60 0 (BitVec.ofNat 13 rm.code) 0 (BitVec.ofNat 16 (dst.code * 256 + src.code)) o)
  | .cvti rm dst src s o => some (.x 0x61 0 (BitVec.ofNat 13 rm.code) s (BitVec.ofNat 16 (dst.code * 256 + src.code)) o)
  | .pack f rm n idx o =>
    some (.x 0x62 0 (BitVec.ofNat 13 (n.toNat * 8 + rm.code)) 0 (BitVec.ofNat 16 (f.code * 256 + idx.toNat)) o)
  | .unpack f idx o => some (.x 0x63 0 0 0 (BitVec.ofNat 16 (f.code * 256 + idx.toNat)) o)
  | .tagof o => some (rawR 0x64 0 o)
  | .settag t o => some (.i 0x65 0 (BitVec.ofNat 32 t.toNat) o)
  | .tagchk mask o => some (.i 0x66 0 (BitVec.ofNat 32 mask.toNat) o)
  | .hdrld o => some (rawM 0x67 0 o)
  | .ihash o => some (rawR 0x68 0 o)
  | .shfl mode immB o => some (rawR 0x70 (immB.toNat * 8 + mode.code) o)
  | .vote op o => some (rawR 0x71 op.code o)
  | .qswap k o => some (rawR 0x72 k.toNat o) | .qbcast j o => some (rawR 0x73 j.toNat o)
  | .matchKeys o => some (rawR 0x74 0 o) | .msort d o => some (rawR 0x75 d.toNat o) | .perm o => some (rawR 0x76 0 o)
  | .scan op ex ty rm o => some (.r 0x77 (BitVec.ofNat 4 (ex.toNat * 8 + op.code)) (BitVec.ofNat 3 rm.code)
      (BitVec.ofNat 4 ty.code) o)
  | .reduce op ty rm o => some (.r 0x78 (BitVec.ofNat 4 op.code) (BitVec.ofNat 3 rm.code) (BitVec.ofNat 4 ty.code) o)
  | .elect o => some (rawR 0x79 0 o)
  | .rgw => some (rawR 0x7A 0 {}) | .rgend => some (rawR 0x7B 0 {})
  | .bra off => some (.b 0x80 0 ⟨0, false, off⟩)
  | .brt o => some (.b 0x81 0 o) | .brf o => some (.b 0x82 0 o)
  | .brx o => some (rawR 0x83 0 o)
  | .call off => some (.b 0x84 0 ⟨0, false, off⟩)
  | .callr o => some (rawR 0x85 0 o) | .ret o => some (rawR 0x86 0 o)
  | .exit => some (rawR 0x87 0 {}) | .exitH => some (rawR 0x87 1 {}) | .cbrk => some (rawR 0x88 0 {})
  | .nop => some (rawR 0x89 0 {})
  | .wait => some (.i 0x8A 0 0 {})
  | .mcall m o => some (.r 0x8B (BitVec.ofNat 4 (m.toNat / 16)) 0 (BitVec.ofNat 4 (m.toNat % 16)) o)
  | .yield => some (rawR 0x8C 0 {})
  | .ld a o => some (rawM 0x90 a.code o) | .st a o => some (rawM 0x91 a.code o)
  | .ldf a o => some (rawM 0x92 a.code o) | .stf a o => some (rawM 0x93 a.code o)
  | .ldnb o => some (rawM 0x94 0 o) | .stnb o => some (rawM 0x95 0 o)
  | .lds a o => some (rawM 0x96 a.code o) | .sts a o => some (rawM 0x97 a.code o)
  | .prf o => some (rawM 0x98 0 o)
  | .alloc o => some (rawR 0x99 0 o) | .nurs get o => some (rawR 0x9A get.toNat o)
  | .fence => some (.i 0x9B 0 0 {})
  | .ldfar a o => some (rawM 0x9C a.code o) | .stfar a o => some (rawM 0x9D a.code o)
  | .spill o => some (rawM 0x9E 0 o) | .fill o => some (rawM 0x9F 0 o) | .hflush o => some (rawM 0xA0 0 o)
  | .atom op ty o => some (rawM 0xB0 op.code { o with sc := BitVec.ofNat 2 ty.code })
  | .acas ty o => some (rawM 0xB1 0 { o with sc := BitVec.ofNat 2 ty.code })
  | .red op ty o => some (rawM 0xB2 op.code { o with sc := BitVec.ofNat 2 ty.code })
  | .sato op ty o => some (rawM 0xB3 op.code { o with sc := BitVec.ofNat 2 ty.code })
  | .qpush q o => some (rawR 0xB4 0 { o with c := BitVec.ofNat 8 q.toNat })
  | .qpop q o => some (rawR 0xB5 0 { o with c := BitVec.ofNat 8 q.toNat })
  | .qallow q o => some (rawR 0xB6 0 { o with c := BitVec.ofNat 8 q.toNat })
  | .qtry q o => some (rawR 0xB7 0 { o with c := BitVec.ofNat 8 q.toNat })
  | .tbar reg id count o => some (.i 0xB8 (BitVec.ofNat 4 reg.toNat) (BitVec.ofNat 32 (count.toNat * 2 ^ 16 + id.toNat)) o)
  | .abinit o => some (rawM 0xB9 0 o) | .abexp o => some (rawM 0xBA 0 o) | .abwait o => some (rawM 0xBB 0 o)
  | .abarr o => some (rawM 0xBC 0 o)
  | .hclaim o => some (rawR 0xC0 0 o) | .hins o => some (rawR 0xC1 0 o) | .hprobe o => some (rawR 0xC2 0 o)
  | .hdel o => some (rawR 0xC3 0 o) | .hacc op o => some (rawR 0xC4 op.code o) | .hdrain o => some (rawR 0xC5 0 o)
  | .hrel => some (rawR 0xC6 0 {}) | .hstat o => some (rawR 0xC7 0 o)
  | .obres bytes soff b32 f f0 => some (.x 0xC8 0 0 (BitVec.ofNat 32 (soff.toNat * 2 ^ 18 + bytes.toNat))
      (BitVec.ofNat 16 (b32.toNat * 64 + f.code)) ⟨f0, 0, 0, 0, 0, 0, 0, false, false, false⟩)
  | .obrel o => some (rawX 0xC9 o)
  | .obld bytes o => some (.x 0xCA 0 0 (BitVec.ofNat 32 bytes.toNat) 0 o)
  | .mma p => some (p.raw 0xCB 0) | .mmas pat p => some (p.raw 0xCC (BitVec.ofNat 4 pat.code)) | .mlut p => some (p.raw 0xCD 0)
  | .nmsel pat kl rows o =>
    some (.x 0xCE (BitVec.ofNat 4 pat.code) 0 (BitVec.ofNat 32 (kl.toNat * 2 ^ 16 + rows.toNat)) 0 o)
  | .accz o => some (rawX 0xCF o) | .accrd o => some (rawX 0xD0 o) | .accwr o => some (rawX 0xD1 o)
  | .accmv rm t doff o => some (.x 0xD2 0 (BitVec.ofNat 13 (t.toNat * 8 + rm.code)) doff 0 o)
  | .sclld off n o => some (.x 0xD3 0 0 (BitVec.ofNat 32 off.toNat) n o)
  | .accred mx o => some (.x 0xD4 (BitVec.ofNat 4 mx.toNat) 0 0 0 o)
  | .xld mask o => some (.x 0xE0 0 (BitVec.ofNat 13 mask.toNat) 0 0 o)
  | .xst o => some (rawX 0xE1 o) | .xsc o => some (rawX 0xE2 o)
  | .xreq count cap o => some (.x 0xE3 0 0 count cap o)
  | .xfar get o => some (.x 0xE4 (BitVec.ofNat 4 get.toNat) 0 0 0 o)
  | .fld mode o => some (.x 0xE5 (BitVec.ofNat 4 mode.code) 0 0 0 o)
  | .wput o => some (rawX 0xE6 o) | .wget o => some (rawX 0xE7 o) | .lnch o => some (rawX 0xE8 o)
  | .svc n lk o => some (.i 0xF0 0 (BitVec.ofNat 32 (lk.toNat * 2 ^ 28 + n.toNat)) o)
  | .trap code o => some (.i 0xF1 0 (BitVec.ofNat 32 code.toNat) o)
  | .rfh => some (.i 0xF2 0 0 {})
  | .gets r o => some (.i 0xF3 0 (BitVec.ofNat 32 r.code) o) | .sets r o => some (.i 0xF4 0 (BitVec.ofNat 32 r.code) o)
  | .bkpt n => some (.i 0xF5 0 (BitVec.ofNat 32 n.toNat) {})
  | .clk b o => some (.i 0xF6 0 (BitVec.ofNat 32 b.toNat) o)
  | .prof n => some (.i 0xF7 0 (BitVec.ofNat 32 n.toNat) {})
  | .abort n => some (.i 0xF8 0 (BitVec.ofNat 32 n.toNat) {})
  | _ => none

/-- The bits of an instruction word: word 0 in the low 64, word 1 above. An unassigned byte's word is itself, and byte
0x00 is the word 0. -/
def encode (i : Instr) : Nat :=
  match i.raw with
  | some r => r.word
  | none => match i with
    | .routedInstruction w => w.toNat
    | _ => 0

/-! ## The decoder -/

/-- Generic opcodes (R202). -/
def genericOf (op : Nat) (rm : RMode) (o : ROps) : Option Instr :=
  match op with
  | 0x01 => some (.add rm o) | 0x02 => some (.sub rm o) | 0x03 => some (.mul rm o) | 0x04 => some (.div rm o)
  | 0x05 => some (.rem rm o) | 0x06 => some (.neg rm o) | 0x07 => some (.abs rm o) | 0x08 => some (.min rm o)
  | 0x09 => some (.max rm o) | 0x0A => some (.cmpeq rm o) | 0x0B => some (.cmplt rm o) | 0x0C => some (.cmple rm o)
  | 0x0D => some (.and rm o) | 0x0E => some (.or rm o) | 0x0F => some (.xor rm o) | 0x10 => some (.not rm o)
  | 0x11 => some (.shl rm o) | 0x12 => some (.shr rm o) | 0x13 => some (.fma rm o) | 0x14 => some (.ident rm o)
  | 0x15 => some (.truth rm o) | _ => none

/-- Typed integer opcodes of the R format with VAR as their only code (R209). -/
def intOf (op : Nat) (v : IVar) (o : ROps) : Option Instr :=
  match op with
  | 0x20 => some (.iadd v o) | 0x21 => some (.isub v o) | 0x22 => some (.imul v o) | 0x23 => some (.imulh v o)
  | 0x24 => some (.idiv v o) | 0x25 => some (.irem v o) | 0x26 => some (.ineg v o) | 0x27 => some (.iabs v o)
  | 0x28 => some (.imin v o) | 0x29 => some (.imax v o) | 0x2A => some (.iand v o) | 0x2B => some (.ior v o)
  | 0x2C => some (.ixor v o) | 0x2D => some (.inot v o) | 0x2E => some (.ishl v o) | 0x2F => some (.ishr v o)
  | 0x30 => some (.popc v o) | 0x31 => some (.clz v o) | 0x32 => some (.ctz v o) | 0x33 => some (.brev v o)
  | 0x34 => some (.bfx v o) | 0x35 => some (.bfi v o) | _ => none

/-- Typed float opcodes with RM (R215). -/
def floatOf (op : Nat) (ty : FTy) (rm : RMode) (o : ROps) : Option Instr :=
  match op with
  | 0x40 => some (.fadd ty rm o) | 0x41 => some (.fsub ty rm o) | 0x42 => some (.fmul ty rm o)
  | 0x43 => some (.ffma ty rm o) | 0x44 => some (.fdiv ty rm o) | 0x45 => some (.fsqrt ty rm o)
  | 0x46 => some (.frsq ty rm o) | 0x47 => some (.fexp2 ty rm o) | 0x48 => some (.flog2 ty rm o)
  | 0x49 => some (.frcp ty rm o) | 0x50 => some (.fround ty rm o) | 0x51 => some (.fscale ty rm o)
  | 0x52 => some (.fdot2 ty rm o)
  | 0x4A => some (.fmin ty o) | 0x4B => some (.fmax ty o) | 0x4C => some (.fabs ty o) | 0x4D => some (.fneg ty o)
  | 0x4F => some (.fclass ty o) | _ => none

/-- The other R-format opcodes. What a field holds beyond an entry's use is refused by `decode`. -/
def rOf (op var rm ty : Nat) (o : ROps) : Option Instr :=
  match op with
  | 0x36 => do some (.icmp (← ivarOf var) (← icondOf rm) o)
  | 0x37 => some (.sel o) | 0x38 => do some (.lea (← ivarOf var) (BitVec.ofNat 2 ty) o) | 0x39 => some (.mov o)
  | 0x4E => do some (.fcmp (← ftyOf ty) (← fcondOf rm) o)
  | 0x64 => some (.tagof o) | 0x68 => some (.ihash o)
  | 0x70 => do some (.shfl (← shflOf (var % 8)) (decide (8 ≤ var)) o)
  | 0x71 => do some (.vote (← voteOf var) o)
  | 0x72 => some (.qswap (BitVec.ofNat 2 var) o) | 0x73 => some (.qbcast (BitVec.ofNat 2 var) o)
  | 0x74 => some (.matchKeys o) | 0x75 => some (.msort (decide (var = 1)) o) | 0x76 => some (.perm o)
  | 0x77 => do some (.scan (← redOpOf (var % 8)) (decide (8 ≤ var)) (← redTyOf ty) (← rmodeOf rm) o)
  | 0x78 => do some (.reduce (← redOpOf var) (← redTyOf ty) (← rmodeOf rm) o)
  | 0x79 => some (.elect o) | 0x7A => some .rgw | 0x7B => some .rgend
  | 0x83 => some (.brx o) | 0x85 => some (.callr o) | 0x86 => some (.ret o)
  | 0x87 => if var = 1 then some .exitH else some .exit
  | 0x88 => some .cbrk | 0x89 => some .nop | 0x8B => some (.mcall (BitVec.ofNat 8 (var * 16 + ty)) o) | 0x8C => some .yield
  | 0x99 => some (.alloc o) | 0x9A => some (.nurs (decide (var = 1)) o)
  | 0xB4 => some (.qpush (BitVec.ofNat 5 o.c.toNat) { o with c := 0 })
  | 0xB5 => some (.qpop (BitVec.ofNat 5 o.c.toNat) { o with c := 0 })
  | 0xB6 => some (.qallow (BitVec.ofNat 5 o.c.toNat) { o with c := 0 })
  | 0xB7 => some (.qtry (BitVec.ofNat 5 o.c.toNat) { o with c := 0 })
  | 0xC0 => some (.hclaim o) | 0xC1 => some (.hins o) | 0xC2 => some (.hprobe o) | 0xC3 => some (.hdel o)
  | 0xC4 => do some (.hacc (← haccOf var) o)
  | 0xC5 => some (.hdrain o) | 0xC6 => some .hrel | 0xC7 => some (.hstat o)
  | _ => none

/-- I-format opcodes. -/
def iOf (op var imm : Nat) (o : IOps) : Option Instr :=
  match op with
  | 0x3A => do some (.movi (← ivarOf var) (BitVec.ofNat 32 imm) o)
  | 0x3B => do some (.movh (← ivarOf var) (BitVec.ofNat 32 imm) o)
  | 0x3C => do some (.iaddi (← ivarOf var) (BitVec.ofNat 32 imm) o)
  | 0x3D => do some (.icmpi (← ivarOf var) (← icondOf (imm / 2 ^ 28)) (BitVec.ofNat 28 imm) o)
  | 0x65 => do some (.settag (← Tag.ofNat? imm) o)
  | 0x66 => some (.tagchk (BitVec.ofNat 16 imm) o)
  | 0x8A => some .wait | 0x9B => some .fence
  | 0xB8 => some (.tbar (decide (var = 1)) (BitVec.ofNat 4 imm) (BitVec.ofNat 13 (imm / 2 ^ 16)) o)
  | 0xF0 => some (.svc (BitVec.ofNat 16 imm) (BitVec.ofNat 4 (imm / 2 ^ 28)) o)
  | 0xF1 => some (.trap (BitVec.ofNat 8 imm) o) | 0xF2 => some .rfh
  | 0xF3 => do some (.gets (← sregOf imm) o) | 0xF4 => do some (.sets (← sregOf imm) o)
  | 0xF5 => some (.bkpt (BitVec.ofNat 16 imm)) | 0xF6 => some (.clk (decide (imm = 1)) o)
  | 0xF7 => some (.prof (BitVec.ofNat 16 imm)) | 0xF8 => some (.abort (BitVec.ofNat 16 imm))
  | _ => none

/-- M-format opcodes. -/
def mOf (op var : Nat) (o : MOps) : Option Instr :=
  match op with
  | 0x67 => some (.hdrld o)
  | 0x90 => do some (.ld (← accOf var) o) | 0x91 => do some (.st (← accOf var) o)
  | 0x92 => do some (.ldf (← accOf var) o) | 0x93 => do some (.stf (← accOf var) o)
  | 0x94 => some (.ldnb o) | 0x95 => some (.stnb o)
  | 0x96 => do some (.lds (← accOf var) o) | 0x97 => do some (.sts (← accOf var) o)
  | 0x98 => some (.prf o)
  | 0x9C => do some (.ldfar (← accOf var) o) | 0x9D => do some (.stfar (← accOf var) o)
  | 0x9E => some (.spill o) | 0x9F => some (.fill o) | 0xA0 => some (.hflush o)
  | 0xB0 => do some (.atom (← atomOpOf var) (← atomTyOf o.sc.toNat) { o with sc := 0 })
  | 0xB1 => do some (.acas (← atomTyOf o.sc.toNat) { o with sc := 0 })
  | 0xB2 => do some (.red (← atomOpOf var) (← atomTyOf o.sc.toNat) { o with sc := 0 })
  | 0xB3 => do some (.sato (← atomOpOf var) (← atomTyOf o.sc.toNat) { o with sc := 0 })
  | 0xB9 => some (.abinit o) | 0xBA => some (.abexp o) | 0xBB => some (.abwait o) | 0xBC => some (.abarr o)
  | _ => none

/-- B-format opcodes. -/
def bOf (op : Nat) (o : BOps) : Option Instr :=
  match op with
  | 0x80 => some (.bra o.off) | 0x81 => some (.brt o) | 0x82 => some (.brf o) | 0x84 => some (.call o.off)
  | _ => none

/-- The fields of a product from its word (R284). -/
def prodOf (flags imm32 imm16 : Nat) (o : XOps) : Option ProdOps := do
  some { f1 := o.f1, f2 := o.f2, f3 := o.f3, l1 := o.l1, l2 := o.l2, l3 := o.l3, bblen := bit 6 flags, z := bit 5 flags,
         h := bit 4 flags, bfmt := (← mfmtOf (flags % 16)), mb := bits 6 24 imm32, nb := bits 8 15 imm32,
         kb := bits 8 6 imm32, sboff := bits 14 0 imm16 }

/-- X-format opcodes. -/
def xOf (op var flags imm32 imm16 : Nat) (o : XOps) : Option Instr :=
  match op with
  | 0x60 => do some (.cvt (← cvtModeOf (flags % 8)) (← fmtOf (imm16 / 256 % 64)) (← fmtOf (imm16 % 64)) o)
  | 0x61 => do some (.cvti (← rmodeOf (flags % 8)) (← fmtOf (imm16 / 256 % 64)) (← fmtOf (imm16 % 64))
      (BitVec.ofNat 32 imm32) o)
  | 0x62 => do some (.pack (← fmtOf (imm16 / 256 % 64)) (← rmodeOf (flags % 8)) (BitVec.ofNat 2 (flags / 8))
      (BitVec.ofNat 8 imm16) o)
  | 0x63 => do some (.unpack (← fmtOf (imm16 / 256 % 64)) (BitVec.ofNat 8 imm16) o)
  | 0xC8 => do some (.obres (BitVec.ofNat 18 imm32) (BitVec.ofNat 14 (imm32 / 2 ^ 18)) (bit 6 imm16) (← fmtOf (imm16 % 64)) o.f0)
  | 0xC9 => some (.obrel o) | 0xCA => some (.obld (BitVec.ofNat 18 imm32) o)
  | 0xCB => do some (.mma (← prodOf flags imm32 imm16 o))
  | 0xCC => do some (.mmas (← nmOf var) (← prodOf flags imm32 imm16 o))
  | 0xCD => do some (.mlut (← prodOf flags imm32 imm16 o))
  | 0xCE => do some (.nmsel (← nmOf var) (BitVec.ofNat 16 (imm32 / 2 ^ 16)) (BitVec.ofNat 16 imm32) o)
  | 0xCF => some (.accz o) | 0xD0 => some (.accrd o) | 0xD1 => some (.accwr o)
  | 0xD2 => do some (.accmv (← cvtModeOf (flags % 8)) (BitVec.ofNat 2 (flags / 8)) (BitVec.ofNat 32 imm32) o)
  | 0xD3 => some (.sclld (BitVec.ofNat 14 imm32) (BitVec.ofNat 16 imm16) o)
  | 0xD4 => some (.accred (decide (var = 1)) o)
  | 0xE0 => some (.xld (BitVec.ofNat 4 flags) o) | 0xE1 => some (.xst o) | 0xE2 => some (.xsc o)
  | 0xE3 => some (.xreq (BitVec.ofNat 32 imm32) (BitVec.ofNat 16 imm16) o)
  | 0xE4 => some (.xfar (decide (var = 1)) o)
  | 0xE5 => do some (.fld (← fldOf var) o)
  | 0xE6 => some (.wput o) | 0xE7 => some (.wget o) | 0xE8 => some (.lnch o)
  | _ => none

/-- The instruction that the fields' codes name; fields an entry does not use are dropped here and found by `decode`. -/
def Raw.toInstr : Raw → Option Instr
  | .r op var rm ty o =>
    if op < 0x20 then do genericOf op (← rmodeOf rm.toNat) o
    else if op < 0x36 then do intOf op (← ivarOf var.toNat) o
    else if 0x40 ≤ op ∧ op ≤ 0x49 ∨ 0x50 ≤ op ∧ op ≤ 0x52 then do
      floatOf op (← ftyOf ty.toNat) (← rmodeOf rm.toNat) o
    else if 0x4A ≤ op ∧ op ≤ 0x4D ∨ op = 0x4F then do floatOf op (← ftyOf ty.toNat) .rne o
    else rOf op var.toNat rm.toNat ty.toNat o
  | .i op var imm o => iOf op var.toNat imm.toNat o
  | .m op var o => mOf op var.toNat o
  | .b op _ o => bOf op o
  | .x op var flags imm32 imm16 o => xOf op var.toNat flags.toNat imm32.toNat imm16.toNat o

/-- What the decoder reads from a word: an instruction, or the rejection of R195 step 2 with the opcode byte. -/
inductive Decoded where
  | ok (i : Instr)
  | illegalEncoding (byte : BitVec 8)
  deriving DecidableEq, Repr

/-- R195, steps 1 and 2, on the bits of one instruction: byte 0x00 is ILLEGAL_INSTRUCTION, an unassigned byte is routed
(its word decides at execution), and an assigned byte gives its instruction when the codes are defined, the instruction
is well-formed, and every bit that the entry does not use is as R185 says: its own encoding is the same bits. -/
def decode (w : Nat) : Decoded :=
  let op := opByte w
  if op = 0 then .ok (.illegalInstruction 0 false)
  else match Raw.parse w with
    | none => .ok (.routedInstruction (BitVec.ofNat 64 w))
    | some r => match r.toInstr with
      | none => .illegalEncoding (BitVec.ofNat 8 op)
      | some i => if i.wellFormed && encode i == w then .ok i else .illegalEncoding (BitVec.ofNat 8 op)

/-- What the device executes for a word (R195): the rejected encodings run ILLEGAL_INSTRUCTION too. -/
def instrOf (w : Nat) : Instr :=
  match decode w with
  | .ok i => i
  | .illegalEncoding b => .illegalInstruction b true

/-- The instruction whose bits are `w`, numbered as the opcode table numbers them. Bits beyond the instruction's own
length (R179) are not part of it. -/
def decodeTableWord (nbits w : Nat) : Option Instr :=
  let w := w % 2 ^ nbits
  match decode (w % 2 ^ (8 * opLength (opByte w))) with
  | .ok i => some i
  | .illegalEncoding _ => none

end Sys2Proof
end

