-- ==== Sys2Proof/Machine/Control.lean ====
section
/-! DEFINITION. Regrouping (R61-R63, R233), control flow 0x80-0x8C (R234-R237), macro bodies (R357-R361), routed and illegal
words (R195, R356). -/

namespace Sys2Proof.Machine

open Sys2Proof

/-! ## Regrouping (R61) -/

/-- A thread as it enters a composite bundle: ACTIVE there, past the `rgw`, its region bit set, its TRAPINFO its own (R193). -/
def regroupThread (t : Thread) (pc : BitVec 64) : Thread := { t with pc := pc + 8, st := .active, region := true }

/-- Form a composite bundle from an entry: for each lane the waiting thread of the lowest CREWID. -/
def State.fire (s : State) (q e : Nat) (x : Regroup) : State :=
  let pickLane (l : Nat) : Option (Nat × Nat) :=
    let ws := x.waiting.filter fun w => w.1 == l
    (leastOf (ws.map fun w => (s.crew w.2).crewId)).bind fun m => ws.find? fun w => (s.crew w.2).crewId == m
  let homes := (List.range Config.lanes).filterMap pickLane
  match homes with
  | [] => s
  | h :: _ =>
    let hc := s.crew h.2
    let threads := (List.range Config.lanes).map fun l => match homes.find? fun w => w.1 == l with
      | some w => regroupThread ((s.crew w.2).thread l) x.pc
      | none => {}
    let vregs := homes.foldl (fun m w =>
      ((s.crew w.2).arch.vregs.filter fun r => r.1 % 32 == w.1).foldl (fun m r => SMap.set m r.1 r.2) m) []
    let a : Arch := { threads := threads, vregs := vregs }
    let comp : Crew := { team := x.team, alloc := hc.alloc, core := hc.core, quad := hc.quad, slot := Config.quadSlots + e,
                         arch := a, chunk := { start := a }, homes := homes, entry := e, readySince := s.clock.toNat }
    let rest := x.waiting.filter fun w => !homes.contains w
    let qd := s.quad q
    ({ s with crews := s.crews ++ [comp] }).setQuad q
      { qd with regroup := SMap.set qd.regroup e { x with waiting := rest, running := some s.crews.length } }

/-- Does an entry fire (R61): (a) every lane covered, (b) 64 cycles passed, (c) no crew of the team in the quadrant has a
runnable thread outside the entry? A HELPER counts toward none (R58); the threads that run in another entry's composite bundle do. -/
def State.fires (s : State) (q : Nat) (x : Regroup) : Bool :=
  x.running.isNone && !x.waiting.isEmpty
    && (((List.range Config.lanes).all fun l => x.waiting.any fun w => w.1 == l)
      || decide (x.since + Config.regroupCycles ≤ s.clock.toNat)
      || !(s.crews.any fun c => c.team == x.team && c.quadNo == q && c.place != .retired
        && c.arch.threads.any fun t => t.st == .active))

/-- Fire the quadrant's entries that are due. -/
def State.fireAll (s : State) (q : Nat) : State :=
  (s.quad q).regroup.foldl (fun s e => if s.fires q e.2 then s.fire q e.1 e.2 else s) s

/-- The entry that threads at a PC join: the one keyed by team and PC, or a free number 0-3. -/
def entryFor (q : Quad) (team : Nat) (pc : BitVec 64) : Option Nat :=
  match q.regroup.find? fun e => e.2.team == team && e.2.pc == pc with
  | some e => some e.1
  | none => (List.range 4).find? fun k => (SMap.get? q.regroup k).isNone

/-- rgw (R61, R233): HELPERs go on with the region bit clear; the others join an entry, or go on in solo mode. -/
def rgwBody : Body := fun s ci c lanes =>
  let mine := lanes.filter fun l => (c.thread l).st != .helper
  let q := s.quad c.quadNo
  match entryFor q c.team c.pc with
  | none => .ok s (mine.foldl (fun c l => c.setThread l { c.thread l with region := true }) c) (plainOuts lanes) false
  | some e =>
    if mine.isEmpty then .ok s c (plainOuts lanes) false
    else
      let c' := mine.foldl (fun c l => c.setThread l { c.thread l with region := true, st := .regroup }) c
      let x := (SMap.get? q.regroup e).getD { team := c.team, pc := c.pc, since := s.clock.toNat }
      let x := { x with
        since := if x.waiting.isEmpty then s.clock.toNat else x.since
        waiting := x.waiting ++ mine.map fun l => (l, ci) }
      let s' := ((s.setQuad c.quadNo { q with regroup := SMap.set q.regroup e x }).setCrew ci c').fireAll c.quadNo
      .ok s' (s'.crew ci) (plainOuts lanes) false

def execRgw (s : State) : Out := issue .rgw rgwBody s

/-- REGROUP_TIMEOUT (R61): an entry whose condition holds fires. -/
def execRegroupTimeout (quad entry : Nat) (s : State) : Out :=
  match SMap.get? (s.quad quad).regroup entry with
  | some x => if s.fires quad x then .next (s.fire quad entry x) else .next s
  | none => .next s

/-- rgend (R62, R233): a composite bundle commits and its threads return home; in solo mode the region bit is cleared. -/
def rgendBody : Body := fun s _ c lanes =>
  if c.isComposite then .ok s c [] true
  else .ok s (lanes.foldl (fun c l => c.setThread l { c.thread l with region := false }) c) (plainOuts lanes) false

def execRgend (s : State) : Out := issue .rgend rgendBody s

/-! ## Branches, calls, returns (R234, R235) -/

/-- A conforming CODE word (R24). -/
def isCodeWord (w : TWord) : Bool := w.tag == .code && w.conforming

def execBra (off : BitVec 43) (s : State) : Out :=
  issue (.bra off) (fun s _ c lanes =>
    .ok s c (lanes.map fun l => { lane := l, pc := some (branchTarget (c.thread l).pc off) }) false) s

/-- A conditional branch: taken where the truth of A is `sense`; another tag than BOOL or INT raises TAG. -/
def condBranch (i : Instr) (off : BitVec 43) (sense : Bool) : Body := fun s _ c lanes =>
  .ok s c (lanes.map fun l =>
    let w := s.opnd i c l 0
    if w.tag != .bool && w.tag != .int then trapOut i s c l .tag
    else if (w.payload != 0) == sense then { lane := l, pc := some (branchTarget (c.thread l).pc off) } else { lane := l }) false

def execBrt (o : BOps) (s : State) : Out := issue (.brt o) (condBranch (.brt o) o.off true) s

def execBrf (o : BOps) (s : State) : Out := issue (.brf o) (condBranch (.brf o) o.off false) s

/-- A jump to the CODE word A, with a link or not (R234, R235). -/
def jumpBody (i : Instr) (link : Bool) : Body := fun s _ c lanes =>
  .ok s c (lanes.map fun l =>
    let w := s.opnd i c l 1
    if isCodeWord w then
      { lane := l, pc := some w.payload, writes := if link then [(215, makeWord .code ((c.thread l).pc + 8))] else [] }
    else trapOut i s c l .tag) false

def execBrx (o : ROps) (s : State) : Out := issue (.brx o) (jumpBody (.brx o) false) s

def execCall (off : BitVec 43) (s : State) : Out :=
  issue (.call off) (fun s _ c lanes =>
    .ok s c (lanes.map fun l =>
      { lane := l, pc := some (branchTarget (c.thread l).pc off), writes := [(215, makeWord .code ((c.thread l).pc + 8))] })
      false) s

def execCallr (o : ROps) (s : State) : Out := issue (.callr o) (jumpBody (.callr o) true) s

def execRet (o : ROps) (s : State) : Out := issue (.ret o) (jumpBody (.ret o) false) s

/-! ## exit, cbrk, nop, wait, yield (R236) -/

/-- The state change of `exit` (variant 0) and `exit.h` (R53). -/
def exitState (h : Bool) : ThreadState → ThreadState
  | .active => if h then .helper else .exited
  | .helper => .parked
  | t => t

/-- exit and exit.h: thread states, retiring helpers, regrouping entries that this lets fire; the crew's last thread ends
the chunk (R53, R74). -/
def exitBody (h : Bool) : Body := fun s ci c lanes =>
  let c' := (lanes.foldl (fun c l => c.setThread l { c.thread l with st := exitState h (c.thread l).st }) c).retireHelpers
  let s' := (s.setCrew ci c').fireAll c.quadNo
  .ok s' (s'.crew ci) [] c'.finished

def execExit (s : State) : Out := issue .exit (exitBody false) s

def execExitH (s : State) : Out := issue .exitH (exitBody true) s

def execCbrk (s : State) : Out := issue .cbrk (fun s _ c _ => .ok s c [] true) s

def execNop (s : State) : Out := issue .nop (fun s _ c _ => .ok s c [] false) s

/-- wait: the drain of R321 comes before it issues. -/
def execWait (s : State) : Out := issue .wait (fun s _ c _ => .ok s c [] false) s

/-- yield ends the chunk before it and blocks the crew, whose wake holds at once (R64, R236). -/
def execYield (s : State) : Out :=
  issue .yield (fun s _ c _ => if c.dirty then .endChunk else .ok s { c with wake := some .yielded } [] false) s

/-! ## Illegal words (R195) -/

/-- Every lane takes a trap of R195 step 1 or 2: v217 and v218 NIL, DEST 255, OP the opcode byte. A word of `fma`'s byte leaves v216
as it is: R195 names no value for it, R46's "if `fma`" not withstanding (DESIGN CHOICE, entry 60). -/
def illegalBody (i : Instr) (t : TrapName) : Body := fun s _ c lanes => .ok s c (lanes.map fun l => trapOut i s c l t) false

def execIllegalInstruction (byte : BitVec 8) (enc : Bool) (s : State) : Out :=
  issue (.illegalInstruction byte enc)
    (illegalBody (.illegalInstruction byte enc) (if enc then .illegalEncoding else .illegalOpcode)) s

/-! ## Macro bodies (R237, R359) -/

/-- Replace a register field of a word that holds 221-223 by the parameter. -/
def substField (p0 p1 p2 : Nat) (w lo : Nat) : Nat :=
  let f := w / 2 ^ lo % 256
  let n := if f = 221 then p0 else if f = 222 then p1 else if f = 223 then p2 else f
  w - f * 2 ^ lo + n * 2 ^ lo

/-- The lowest bits of the register fields of a word's format (R180-R184). -/
def fieldPlaces (w : Nat) : List Nat :=
  match opFormat (w / 2 ^ 56) with
  | some .r => [44, 36, 28, 20]
  | some .i => [44, 36]
  | some .m => [44, 36, 28]
  | some .b => [44]
  | some .x => [44, 36, 28, 20]
  | none => []

/-- The substituted word: the register fields of its format. -/
def substWord (p0 p1 p2 : Nat) (w : Nat) : Nat := (fieldPlaces w).foldl (substField p0 p1 p2) w

/-- The last-use and index bits of a word with the field that each stands for (R180-R184); bit [27] of `ldf` is H, no last-use
bit (R253). -/
def fieldMarks (w : Nat) : List (Nat × Nat) :=
  match opFormat (w / 2 ^ 56) with
  | some .r => [(5, 44), (19, 36), (4, 36), (18, 28), (17, 20)]
  | some .i => [(34, 44), (35, 36), (33, 36)]
  | some .m => (if w / 2 ^ 56 = 0x92 then [] else [(27, 44)]) ++ [(26, 36), (25, 28)]
  | some .b => [(43, 44)]
  | some .x => [(15, 36), (14, 28), (13, 20)]
  | none => []

/-- Has an operation of a body a last-use or index bit on a field that names a parameter (R190, R192)? -/
def paramMarked (w : Nat) : Bool :=
  (fieldMarks w).any fun m => w.testBit m.1 && (let f := w / 2 ^ m.2 % 256; decide (221 ≤ f) && decide (f ≤ 223))

/-- An `mcall`: the operation at the lanes' macro step stands substituted, and the crew executes it next. -/
def mcallAs (i : Instr) (m : Nat) (o : ROps) (s : State) : Out :=
  match s.stand with
  | none => .fault .noBundle
  | some (ci, c, lanes) =>
    match (s.gridOf c).bodies.find? fun b => b.num == m with
    | none => .next (State.conclude i ci s c s c lanes
        (lanes.map fun l => trapOut (.illegalInstruction 0x8B true) s c l .illegalEncoding) false)
    | some b =>
      match s.staticTrap i c lanes with
      | some t => .next (State.conclude i ci s c s c lanes (lanes.map fun l => trapOut i s c l t) false)
      | none =>
        let l := lanes.headD 0
        let j := (c.thread l).mstep
        let op := (b.ops.getD j 0).toNat
        let w := substWord (s.effSlot i c l 0) (s.effSlot i c l 1) (s.effSlot i c l 2) op
        let frees := (if o.la then [BitVec.ofNat 8 (s.effSlot i c l 1)] else []) ++ (if o.lb then [o.b] else [])
        let e : Expansion :=
          { word := BitVec.ofNat 64 w, last := j + 1 == b.ops.length, frees := frees, illegal := paramMarked op }
        .next (s.setCrew ci { c with expansion := some e })

def execMcall (m : BitVec 8) (o : ROps) (s : State) : Out := mcallAs (.mcall m o) m.toNat o s

/-! ## Routed words (R356) -/

/-- FieldWord of R356. -/
def State.fieldWord (s : State) (c : Crew) (l f : Nat) : TWord :=
  if f = 255 then .nil else if 224 ≤ f then s.readField c l f else if validV c.alloc f then c.readV f l else .nil

/-- The word that a KIND 0 route executes as an `mcall`: the D, A and B fields, LA, LB, XD and XA are kept, bits [9:6] and
VAR name the macro. -/
def routedCall (w num : Nat) : Nat :=
  0x8B * 2 ^ 56 + num / 16 % 16 * 2 ^ 52 + w / 2 ^ 28 % 2 ^ 24 * 2 ^ 28 + w / 2 ^ 18 % 4 * 2 ^ 18 + num % 16 * 2 ^ 6
    + w / 2 ^ 4 % 4 * 2 ^ 4

/-- A routed word: its routine as a handler (KIND 1), its macro (KIND 0), or ILLEGAL_OPCODE when nothing binds its byte. -/
def execRoutedInstruction (w : BitVec 64) (s : State) : Out :=
  let i : Instr := .routedInstruction w
  match s.stand with
  | none => .fault .noBundle
  | some (_, c, lanes) =>
    match (s.gridOf c).routes.find? fun r => r.byte == w.toNat / 2 ^ 56 with
    | none => issue i (illegalBody i .illegalOpcode) s
    | some r =>
      if lanes.any fun l => (c.thread l).region then issue i (illegalBody i .compositeIllegal) s
      else if r.sub then
        issue i (fun s _ c lanes =>
          let pc := BitVec.ofNat 64 ((s.gridOf c).codebase + r.routine)
          let d := w.toNat / 2 ^ 44 % 256
          let enter (c : Crew) (l : Nat) : Crew :=
            let c := c.settled l
            c.enterHandler
            { lane := l, code := 0x01, v216 := some ⟨.raw, w⟩, v217 := s.fieldWord c l (w.toNat / 2 ^ 36 % 256),
              v218 := s.fieldWord c l (w.toNat / 2 ^ 28 % 256), dest := if validV c.alloc d then d else 255,
              op := w.toNat / 2 ^ 56, next := (c.thread l).pc + 8 } pc
          .ok s (lanes.foldl enter c) (lanes.map fun l => { lane := l, pc := some pc }) false) s
      else match instrOf (routedCall w.toNat r.num) with
        | .mcall m o => mcallAs (.mcall m o) m.toNat o s
        | _ => issue (.illegalInstruction 0x8B true) (illegalBody (.illegalInstruction 0x8B true) .illegalEncoding) s

end Sys2Proof.Machine
end

