-- ==== Sys2Proof/Machine/HashOps.lean ====
section
/-! DEFINITION. The hash instructions (0xC0-0xC7, R117-R127, R271-R275). -/

namespace Sys2Proof.Machine

open Sys2Proof

/-- Another crew holds the hash unit's grant (R80). -/
def State.hashBusy (s : State) (ci core : Nat) : Bool := s.grants.any fun g => g.1 == 512 + core && g.2 != ci

/-- A key's lane: TAG on its own tag and on the data, BAD_HANDLE with no region, then Resolve's traps (R35, R248, R271). -/
inductive KeyGot where
  | ok (k : HKey)
  | trap (code : Nat)
  | xfault (va : BitVec 64) (cause : Nat)
  | wait
  deriving DecidableEq, Repr

def State.hashKey (s : State) (ci : Nat) (c : Crew) (held dataOk : Bool) (w : TWord) : Crew × KeyGot :=
  if (w.tag != .ref && (canonPlain w).isNone) || !dataOk then (c, .trap TrapName.tag.code)
  else if !held then (c, .trap TrapName.badHandle.code)
  else match s.canon ci c w with
    | (c, .ok k) => (c, .ok k)
    | (c, .trap code) => (c, .trap code)
    | (c, .xfault va cause) => (c, .xfault va cause)
    | (c, .wait) => (c, .wait)

/-- The keys of the lanes in ascending order. -/
def State.hashKeys (s : State) (ci : Nat) (held : Bool) (key : Nat → TWord) (dataOk : Nat → Bool) :
    List Nat → Crew → Crew × List (Nat × KeyGot)
  | [], c => (c, [])
  | l :: rest, c =>
    let (c, g) := s.hashKey ci c held (dataOk l) (key l)
    let (c, gs) := s.hashKeys ci held key dataOk rest c
    (c, (l, g) :: gs)

def KeyGot.key? : Nat × KeyGot → Option (HKey × Nat)
  | (l, .ok k) => some (k, l)
  | _ => none
def KeyGot.trap? : Nat × KeyGot → Option (Nat × Nat)
  | (l, .trap code) => some (l, code)
  | _ => none
def KeyGot.fault? : Nat × KeyGot → Option (BitVec 64 × Nat)
  | (_, .xfault va cause) => some (va, cause)
  | _ => none
def KeyGot.isWait : Nat × KeyGot → Bool
  | (_, .wait) => true
  | _ => false

/-- What every key instruction on a core does first; `run` gets the crew, the keys with their lanes, and the traps. -/
def hashSetup (i : Instr) (core : Nat) (s : State) (ci : Nat) (c : Crew) (lanes : List Nat) (dataOk : Nat → Bool)
    (run : Crew → List (HKey × Nat) → List LaneOut → BodyRes) : BodyRes :=
  let (c', gs) := s.hashKeys ci (s.region core c.team).held (fun l => s.opnd i c l 1) dataOk lanes c
  if gs.any KeyGot.isWait || s.hashBusy ci core then .stall
  else match gs.filterMap KeyGot.fault? with
    | (va, cause) :: _ => .xfault va cause false
    | [] => run c' (gs.filterMap KeyGot.key?) ((gs.filterMap KeyGot.trap?).map fun t => trapCode i s c t.1 t.2)

/-- Bodies that run one after the other and leave the state as it is; the first that does not complete decides. -/
def inTurn (s : State) (ci : Nat) : List (Body × List Nat) → Crew → List LaneOut → BodyRes
  | [], c, outs => .ok s c outs false
  | (b, lanes) :: rest, c, outs => match b s ci c lanes with
    | .ok _ c' more _ => inTurn s ci rest c' (outs ++ more)
    | r => r

/-- A hash instruction on the core that HREGION selects: in a composite bundle each lane's home crew's (R63, R117). -/
def onRegion (body : Nat → Body) : Body := fun s ci c lanes =>
  if c.isComposite then
    let core (l : Nat) : Nat := hregionCore (s.homeCrew c l)
    inTurn s ci ((lanes.map core).eraseDups.map fun k => (body k, lanes.filter fun l => core l == k)) c []
  else body (hregionCore c) s ci c lanes

/-- A lane's result pair: status or key in D, value in D+1; D = 255 discards both (R271). -/
def pairOut (s : State) (i : Instr) (c : Crew) (l : Nat) (a b : TWord) : LaneOut :=
  let d := s.destOf i c l
  { lane := l, writes := if d = 255 then [] else [(d, a), (d + 1, b)] }

def statusWord (n : Nat) : TWord := intWord n

/-! ## hclaim, hrel, hstat (R272) -/

/-- Every sector of a region's bucket lines (R126). -/
def regionSectors (t : Team) (core b : Nat) : List Nat := lineSectors t core (List.range (2 ^ b / 4))

/-- log2 of N, when N is a power of two from 16 to 32,768. -/
def regionLog (n : Nat) : Option Nat := [4, 5, 6, 7, 8, 9, 10, 11, 12, 13, 14, 15].find? fun b => n == 2 ^ b

def hclaimBody (o : ROps) : Body := fun s ci c lanes =>
  let i : Instr := .hclaim o
  let a := s.opnd i c (lanes.headD 0) 1
  let d := s.opnd i c (lanes.headD 0) 2
  let core := hregionCore c
  let t := s.teamOf c
  let old := s.region core c.team
  if a.tag != .int || d.tag != .int then allTrap i s c lanes TrapName.tag.code
  else match regionLog a.payload.toNat with
    | none => allTrap i s c lanes TrapName.badHandle.code
    | some b =>
      if !s.hasPool c core || old.held || decide ((s.gridOf c).poolBytes < 16 * 2 ^ b) || d.payload.toNat % 32 != 0
          || d.payload.getLsbD 63 then allTrap i s c lanes TrapName.badHandle.code
      else if s.hashBusy ci core then .stall
      else match s.readWords ci c d.payload 2 with
        | .trap code => allTrap i s c lanes code
        | .xfault va cause => .xfault va cause false
        | .wait => .stall
        | .ok c1 ws =>
          let r : HRegion := { core := core, team := c.team, held := true, b := b, desc := d.payload.toNat,
                               base := (ws.getD 0 .nil).payload.toNat, cap := (ws.getD 1 .nil).payload.toInt.toNat }
          let s' := ((s.setCrew ci c1).hashSquash (some ci) core (regionSectors t core b) false).setRegion r
          .ok s' (s'.crew ci) (lanes.map fun l => { lane := l, writes := [(s.destOf i c l, ⟨.int, r.stat⟩)] }) false

def execHclaim (o : ROps) (s : State) : Out := issue (.hclaim o) (hclaimBody o) s

def hrelBody : Body := fun s ci c lanes =>
  let core := hregionCore c
  let old := s.region core c.team
  if !old.held then allTrap .hrel s c lanes TrapName.badHandle.code
  else if s.hashBusy ci core then .stall
  else
    let r := { old with held := false, b := 0, slots := [], desc := 0, base := 0, cap := 0 }
    let s' := ((s.setCrew ci c).hashSquash (some ci) core (regionSectors (s.teamOf c) core old.b) false).setRegion r
    .ok s' (s'.crew ci) (plainOuts lanes) false

def execHrel (s : State) : Out := issue .hrel hrelBody s

def hstatBody (o : ROps) : Body := fun s ci c lanes =>
  let i : Instr := .hstat o
  let core := hregionCore c
  let t := s.teamOf c
  let r := s.region core c.team
  if s.hashBusy ci core then .stall
  else
    let w : TWord := if s.hasPool c core then ⟨.int, r.stat⟩ else ⟨.int, 0⟩
    let c' := if !s.hasPool c core then c
      else if r.held then c.enterHash core false (lineSectors t core [0]) else c.enterHash core false [t.bucket core 0]
    .ok s c' (lanes.map fun l => { lane := l, writes := [(s.destOf i c l, w)] }) false

def execHstat (o : ROps) (s : State) : Out := issue (.hstat o) (hstatBody o) s

/-! ## hins, hdel, hprobe (R122, R273) -/

/-- Status of a key that is not held. -/
def HRegion.missed (r : HRegion) : Nat := if r.spilled then hMAYBE else hABSENT

/-- The value at a slot. -/
def HRegion.valueAt (r : HRegion) (slot : Nat) : TWord := match SMap.get? r.slots slot with
  | some e => e.val
  | none => .nil

/-- One group of `hins`: the results of its lanes. -/
def insGroup (s : State) (core asid : Nat) (w : HashWork) (k : HKey) (ls : List (Nat × TWord)) :
    Except (Nat × Nat) (HashWork × List (Nat × Nat × TWord)) :=
  match (w.region.probe k).1 with
  | some slot => .ok (w, ls.map fun l => (l.1, hPRESENT, w.region.valueAt slot))
  | none => match ls with
    | [] => .ok (w, [])
    | (l, v) :: rest => match s.hashPlace (s.logXlate core asid) w k v with
      | .error e => .error e
      | .ok (w, st) => .ok (w, (l, st, v) :: rest.map fun x => (x.1, if st = hINSERTED then hPRESENT else st, v))

/-- One group of `hdel`. -/
def delGroup (w : HashWork) (k : HKey) (ls : List (Nat × TWord)) : HashWork × List (Nat × Nat × TWord) :=
  let miss : Nat × TWord := (w.region.missed, .nil)
  match (w.region.probe k).1, ls with
  | some slot, (l, _) :: rest =>
    let v := w.region.valueAt slot
    let slots := hashRemove w.region.b (2 ^ w.region.b) w.region.slots slot
    ({ w with region := { w.region with slots := slots } }, (l, hDELETED, v) :: rest.map fun x => (x.1, miss))
  | _, ls => (w, ls.map fun x => (x.1, miss))

/-- Run the groups in order (R273). -/
def runKeyGroups (f : HashWork → HKey → List (Nat × TWord) → Except (Nat × Nat) (HashWork × List (Nat × Nat × TWord))) :
    List (HKey × List (Nat × TWord)) → HashWork → Except (Nat × Nat) (HashWork × List (Nat × Nat × TWord))
  | [], w => .ok (w, [])
  | (k, ls) :: rest, w => match f w k ls with
    | .error e => .error e
    | .ok (w, rs) => match runKeyGroups f rest w with
      | .error e => .error e
      | .ok (w, more) => .ok (w, rs ++ more)

/-- The status and value that a lane gets. -/
def laneStatus (rs : List (Nat × Nat × TWord)) (l : Nat) : Nat × TWord :=
  ((rs.find? fun r => r.1 == l).map Prod.snd).getD (0, .nil)

/-- `hins` and `hdel`: all groups as one event at the hash unit (R126). -/
def keyEventBody (i : Instr) (value : State → Crew → Nat → TWord)
    (f : State → Nat → Nat → HashWork → HKey → List (Nat × TWord) → Except (Nat × Nat) (HashWork × List (Nat × Nat × TWord))) :
    Body := fun s ci c lanes =>
  let core := hregionCore c
  hashSetup i core s ci c lanes (fun l => !(value s c l).isHeader) fun c1 keys traps =>
    let old := s.region core c.team
    let groups := groupKeys (keys.map fun k => (k.1, (k.2, value s c k.2)))
    match runKeyGroups (f s c.core (s.asidOf c)) groups { region := old } with
    | .error (va, cause) => .xfault (BitVec.ofNat 64 va) cause true
    | .ok (w, rs) =>
      if w.writes.any fun x => s.mustWait ci x.key 8 then .stall
      else
        let s' := (s.setCrew ci (w.pages.foldl Crew.usePage c1)).hashEffect (some ci) (s.teamOf c) core old w false
        .ok s' (s'.crew ci) ((keys.map fun k => pairOut s i c k.2 (statusWord (laneStatus rs k.2).1) (laneStatus rs k.2).2) ++ traps) false

def execHins (o : ROps) (s : State) : Out :=
  issue (.hins o) (keyEventBody (.hins o) (fun s c l => s.opnd (.hins o) c l 2) insGroup) s

def execHdel (o : ROps) (s : State) : Out :=
  issue (.hdel o) (keyEventBody (.hdel o) (fun _ _ _ => .nil) fun _ _ _ w k ls => .ok (delGroup w k ls)) s

def hprobeBody (o : ROps) : Body := onRegion fun core s ci c lanes =>
  let i : Instr := .hprobe o
  hashSetup i core s ci c lanes (fun _ => true) fun c1 keys traps =>
    let r := s.region core c.team
    let res := keys.map fun k => (k.2, r.probe k.1)
    let lines := res.flatMap fun x => (x.2.2.map fun slot => slot / 4) ++ (if x.2.1.isNone then [0] else [])
    .ok s (c1.enterHash core false (lineSectors (s.teamOf c) core (unionNat [] lines)))
      ((res.map fun x => match x.2.1 with
        | some slot => pairOut s i c x.1 (statusWord hFOUND) (r.valueAt slot)
        | none => pairOut s i c x.1 (statusWord r.missed) .nil) ++ traps) false

def execHprobe (o : ROps) (s : State) : Out := issue (.hprobe o) (hprobeBody o) s

/-! ## hacc (R123, R274) -/

/-- The keys of all lanes that have one, whatever their operand: equal keys of lower lanes decide on a lane's tag (R123). -/
def State.laneKeys (s : State) (ci : Nat) (c : Crew) (key : Nat → TWord) (lanes : List Nat) : List (HKey × Nat) :=
  lanes.filterMap fun l => match (s.canon ci c (key l)).2 with
    | .ok k => some (k, l)
    | _ => none

/-- Has an equal-key lower lane an operand of another tag (R123)? -/
def tagClash (x : Nat → TWord) (all : List (HKey × Nat)) (k : HKey × Nat) : Bool :=
  all.any fun j => decide (j.2 < k.2) && j.1.eqv k.1 && (x j.2).tag != (x k.2).tag

/-- `hacc`: the records of the lanes that do not trap. The application is tried on the region as it stands, so that the log's
words it would touch are translated here, and the records hold their pages (R393, entry 21). -/
def haccBody (op : HaccOp) (o : ROps) : Body := onRegion fun core s ci c lanes =>
  let i : Instr := .hacc op o
  let x (l : Nat) : TWord := s.opnd i c l 2
  hashSetup i core s ci c lanes (fun l => haccTagOk op (x l).tag) fun c1 keys traps =>
    let r := s.region core c.team
    let all := s.laneKeys ci c (fun l => s.opnd i c l 1) lanes
    let good := keys.filter fun k => !tagClash x all k
    let outs := plainOuts (good.map Prod.snd) ++ ((keys.filter (tagClash x all)).map fun k => trapOut i s c k.2 .tag) ++ traps
    let recs : List HaccRec := good.map fun k => ⟨k.2, k.1, x k.2⟩
    if good.isEmpty then .ok s c1 outs false
    else match s.haccWork (s.logXlate c.core (s.asidOf c)) op r recs with
      | .error (va, cause) => .xfault (BitVec.ofNat 64 va) cause true
      | .ok w =>
        let sectors := good.map fun k =>
          let h := k.1.home r.b
          (s.teamOf c).bucket core (h / 4) + h % 4 / 2 * 32
        let c2 := w.pages.foldl Crew.usePage (c1.enterHash core true sectors)
        .ok s { c2 with chunk := { c2.chunk with recs := c2.chunk.recs ++ [.hacc op core w.pages recs] } } outs false

def execHacc (op : HaccOp) (o : ROps) (s : State) : Out := issue (.hacc op o) (haccBody op o) s

/-! ## hdrain (R124, R275) -/

/-- The next `n` occupied slots at or after a cursor, in ascending order. -/
def HRegion.after (r : HRegion) (cursor n : Nat) : List (Nat × HEntry) := (r.slots.filter fun e => decide (cursor ≤ e.1)).take n

def hdrainBody (o : ROps) : Body := fun s ci c lanes =>
  let i : Instr := .hdrain o
  let core := hregionCore c
  let r := s.region core c.team
  let cur := s.opnd i c (lanes.headD 0) 1
  if cur.tag != .int then allTrap i s c lanes TrapName.tag.code
  else if !r.held || cur.payload.getLsbD 63 then allTrap i s c lanes TrapName.badHandle.code
  else if s.hashBusy ci core then .stall
  else
    let es := r.after cur.payload.toNat lanes.length
    let next : Nat := if es.length < lanes.length then 2 ^ r.b else match es.getLast? with
      | some e => e.1 + 1
      | none => 2 ^ r.b
    .ok s c ((List.range lanes.length).map fun j =>
      let l := lanes.getD j 0
      let out := match es[j]? with
        | some e => pairOut s i c l e.2.key.word e.2.val
        | none => pairOut s i c l .nil .nil
      { out with writes := out.writes ++ [(s.effSlot i c l 1, intWord next)] }) false

def execHdrain (o : ROps) (s : State) : Out := issue (.hdrain o) (hdrainBody o) s

end Sys2Proof.Machine
end

