-- ==== Sys2Proof/Machine/Products.lean ====
section
/-! DEFINITION. Operand storage (R129, R131, R132), element arrays (R144) and the arithmetic of the matrix path: products
(R284-R290), N:M selection (R291), accumulator conversion (R293). -/

namespace Sys2Proof.Machine

open Sys2Proof

/-! ## Element arrays (R144) -/

/-- Element `k` of width `w` in an array of bytes at a base. -/
def elemAt (byte : Nat → Byte) (w base k : Nat) : Nat :=
  if 8 ≤ w then leNat ((List.range (w / 8)).map fun j => byte (base + k * (w / 8) + j))
  else (byte (base + k * w / 8)).toNat / 2 ^ (k * w % 8) % 2 ^ w

/-- Write element `k` of width `w`: bits beside it stay. -/
def elemSet (m : List (Nat × Byte)) (w base k v : Nat) : List (Nat × Byte) :=
  if 8 ≤ w then (List.range (w / 8)).foldl (fun m j => SMap.put 0 m (base + k * (w / 8) + j) (BitVec.ofNat 8 (v / 256 ^ j))) m
  else
    let a := base + k * w / 8
    let sh := k * w % 8
    let old := (SMap.get (0 : Byte) m a).toNat
    SMap.put 0 m a (BitVec.ofNat 8 (old - old / 2 ^ sh % 2 ^ w * 2 ^ sh + v % 2 ^ w * 2 ^ sh))

/-- Write a field of `w` bits at bit `w × k` of a bit array, which may cross a byte (the 3-bit indices of R289). -/
def bitsSet (m : List (Nat × Byte)) (w base k v : Nat) : List (Nat × Byte) :=
  (List.range w).foldl (fun m j => elemSet m 1 base (w * k + j) (v / 2 ^ j % 2)) m

def bitsAt (byte : Nat → Byte) (w base k : Nat) : Nat :=
  ((List.range w).map fun j => elemAt byte 1 base (w * k + j) * 2 ^ j).sum

/-! ## Storage of a quadrant -/

def Quad.ob (q : Quad) (a : Nat) : Byte := SMap.get 0 q.obuf a
/-- accumulator[row, column]. -/
def Quad.accAt (q : Quad) (r c : Nat) : BitVec 32 := SMap.get 0 q.acc (256 * r + c)
def Quad.setAcc (q : Quad) (r c : Nat) (v : BitVec 32) : Quad := { q with acc := SMap.put 0 q.acc (256 * r + c) v }
/-- A scale byte of a quadrant. -/
def State.scaleByte (s : State) (quad off : Nat) : Nat := (Memory.read s.mem (scaleKey + quad * 2 ^ 14 + off)).toNat

/-- Is the format block-scaled (R141)? -/
def blockFmt : Fmt → Bool
  | .b4 | .b8f | .b8i => true
  | _ => false

/-- The format of a matrix code. -/
def matFmt : MFmt → Fmt
  | .f32 => .f32 | .f16 => .f16 | .bf16 => .bf16 | .e4m3 => .e4m3 | .e5m2 => .e5m2 | .e3m2 => .e3m2 | .e2m3 => .e2m3
  | .i8 => .i8 | .u8 => .u8 | .i4 => .i4 | .u4 => .u4 | .b4 => .b4 | .b8f => .b8f | .b8i => .b8i | .l1 => .l1 | .l2 => .l2

/-! ## Products -/

/-- N and M of a pattern and the bits of an index (R289). -/
def NMPat_n : NMPat → Nat
  | .p24 => 2 | .p48 => 4 | .p14 => 1
def NMPat_m : NMPat → Nat
  | .p24 => 4 | .p48 => 8 | .p14 => 4
def NMPat_ib : NMPat → Nat
  | .p48 => 3 | _ => 2

/-- A product instruction with its pattern: none for a dense one. -/
structure Prod where
  pat : Option NMPat
  p : ProdOps
  deriving DecidableEq, Repr

def Prod.kLog (x : Prod) : Nat := match x.pat with
  | none => x.p.bfmt.denseK
  | some _ => 2 * x.p.bfmt.denseK
/-- Elements that a row of A stores (R287). -/
def Prod.ka (x : Prod) : Nat := match x.pat with
  | none => x.kLog
  | some t => x.kLog * NMPat_n t / NMPat_m t
def Prod.mb (x : Prod) : Nat := x.p.mb.toNat + 1
def Prod.nb (x : Prod) : Nat := x.p.nb.toNat + 1
def Prod.kb (x : Prod) : Nat := x.p.kb.toNat + 1
/-- Bytes of a row of A. -/
def Prod.rb (x : Prod) (r : Resv) : Nat := x.ka * r.fmt.elemBits / 8
/-- Metadata bytes of a row (R289). -/
def Prod.metaBytes (x : Prod) : Nat := match x.pat with
  | none => 0
  | some t => (x.ka * NMPat_ib t + 7) / 8

/-- Does A's format fit (R285)? -/
def Prod.fmtOk (x : Prod) (mlut : Bool) (f : Fmt) : Bool :=
  if mlut then f == .bf16 || f == .i8
  else match f.matrix with
    | some a => a.denseK == x.p.bfmt.denseK && (x.pat.isNone || a != .f32)
    | none => false

/-- The logical positions of a row's kept elements with their place in the row (R289); dense rows keep all. The previous index that an
index must exceed is the one stored before it, whether or not that one is masked, so that two kept elements may name one position,
and both terms are added (DESIGN CHOICE, entry 60). -/
def Prod.kept (x : Prod) (q : Quad) (r : Resv) (rn : Nat) : List (Nat × Nat) :=
  match x.pat with
  | none => (List.range x.ka).map fun p => (p, p)
  | some t =>
    let n := NMPat_n t
    let idx (p : Nat) : Nat := bitsAt q.ob (NMPat_ib t) (r.moff + rn * x.metaBytes) p
    (List.range x.ka).filterMap fun p =>
      let i := idx p
      if NMPat_m t ≤ i || (p % n != 0 && decide (i ≤ idx (p - 1))) then none else some (p / n * NMPat_m t + i, p)

/-- The values of a row of A at its unmasked positions (R287, R288, R150, R151). -/
def State.rowA (s : State) (quad : Nat) (q : Quad) (x : Prod) (r : Resv) (rn i0 : Nat) : List (Nat × FVal) :=
  ((x.kept q r rn).filter fun kp => decide (kp.1 < x.kb)).map fun kp =>
    let bits := elemAt q.ob r.fmt.elemBits (r.base + i0) kp.2
    (kp.1, if blockFmt r.fmt then
        scaledValue r.fmt (s.scaleByte quad (r.soff + rn * (x.kLog / r.blen) + kp.1 / r.blen)) bits
      else r.fmt.value 0 bits)

/-- BB of a product (R288). -/
def Prod.bb (x : Prod) : Nat := if x.p.bblen then 32 else 16

/-- A byte of a crew's quarter of B (R286). -/
def Crew.quarterByte (c : Crew) (f2 b : Nat) : Byte :=
  BitVec.ofNat 8 ((c.readV (f2 + b / 256) (b % 256 / 8)).pay.toNat / 256 ^ (b % 8))

/-- B(k, j) as a quadrant sees it: the elements from the quarter of quadrant j ÷ 64, the scales its own (R286, R288). -/
def State.valueB (s : State) (quad : Nat) (x : Prod) (quarter : Nat → Nat → Byte) (k j : Nat) : FVal :=
  let f := matFmt x.p.bfmt
  let w := x.p.bfmt.bits
  let cb := x.kLog * w / 8
  let bits := elemAt (quarter (j / 64)) w (j % 64 * cb) k
  if blockFmt f then scaledValue f (s.scaleByte quad (x.p.sboff.toNat + j * (x.kLog / x.bb) + k / x.bb)) bits
  else f.value 0 bits

/-- The term or terms of one position (R163, R165). -/
def productTerms (f32 : Bool) (a b : FVal) : List FVal := if f32 then f32Product a b else [(mulVal a b).1]

/-- One accumulator element (R163): the groups in ascending order. -/
def State.matrixElement (s : State) (quad : Nat) (x : Prod) (quarter : Nat → Nat → Byte) (row : List (Nat × FVal)) (j acc : Nat) :
    Nat × Flags :=
  let g := x.p.bfmt.group
  (List.range (x.kLog / g)).foldl (fun a gi =>
    let mine := (row.filter fun e => decide (e.1 / g = gi)).map fun e => (e.2, s.valueB quad x quarter e.1 j)
    let terms := mine.flatMap fun e => productTerms (x.p.bfmt == .f32) e.1 e.2
    let r := accStep a.1 (mine.any fun e => e.1.isNan || e.2.isNan)
      (mine.any fun e => !e.1.isNan && !e.2.isNan && (mulVal e.1 e.2).1.isNan) terms
    (r.1, a.2 ||| r.2)) (acc, 0)

/-- The product of one quadrant (R290): accumulators and flags. -/
def State.product (s : State) (quad : Nat) (q : Quad) (x : Prod) (r : Resv) (aoff : Nat) (quarter : Nat → Nat → Byte) :
    Quad × Flags :=
  let row0 := if x.p.h then 64 else 0
  let rb := x.rb r
  (List.range (Nat.min x.mb 64)).foldl (fun a i =>
    let row := s.rowA quad q x r (aoff / rb + i) (aoff + i * rb)
    (List.range x.nb).foldl (fun a j =>
      let acc := if x.p.z then 0 else (a.1.accAt (row0 + i) j).toNat
      let e := s.matrixElement quad x quarter row j acc
      (a.1.setAcc (row0 + i) j (BitVec.ofNat 32 e.1), a.2 ||| e.2)) a) (q, 0)

/-- Do the scale bytes that a product reads lie in scale memory (R288)? -/
def Prod.scalesOk (x : Prod) (r : Resv) (rn0 : Nat) : Bool :=
  (!blockFmt r.fmt || decide (r.soff + (rn0 + x.mb - 1) * (x.kLog / r.blen) + (x.kb - 1) / r.blen < Config.scaleBytes))
    && (!blockFmt (matFmt x.p.bfmt)
      || decide (x.p.sboff.toNat + (x.nb - 1) * (x.kLog / x.bb) + (x.kb - 1) / x.bb < Config.scaleBytes))

/-- The A offset, or the trap of a product's operands in the order of R276 (R285, R287-R289). Metadata bytes are range-checked for the
rows below MB, which are those the product reads: R289 does not say which rows (DESIGN CHOICE, entry 60). -/
def Prod.check (x : Prod) (mlut : Bool) (r : Except Nat Resv) (off : Option TWord) : Except Nat (Resv × Nat) :=
  let badTag : Bool := match off with
    | some w => w.tag != .int
    | none => false
  match r with
  | .error code => if badTag then .error TrapName.tag.code else .error code
  | .ok r =>
    let n : Int := match off with
      | some w => w.payload.toInt
      | none => 0
    let rb := x.rb r
    let a := n.toNat
    if badTag then .error TrapName.tag.code
    else if n < 0 || a % rb != 0 || decide (r.size < a + 64 * rb) || !x.scalesOk r (a / rb)
        || decide (Config.obufBytes < r.moff + (a / rb + x.mb - 1) * x.metaBytes + x.metaBytes) then
      .error TrapName.badHandle.code
    else if !x.fmtOk mlut r.fmt then .error TrapName.illegalEncoding.code
    else .ok (r, a)

/-! ## nmsel (R291) -/

/-- Is the magnitude of a rank above that of b (a NaN above every number)? -/
def ranksAbove (a b : FVal) : Bool := if b.isNan then false else if a.isNan then true else ltVal b.abs a.abs

/-- The positions of the N largest of a group, ascending. -/
def largest (n : Nat) (vs : List FVal) : List Nat :=
  (List.range vs.length).filter fun p =>
    let v := vs.getD p (.zero false)
    decide (((List.range vs.length).filter fun q =>
      let w := vs.getD q (.zero false)
      ranksAbove w v || (!ranksAbove v w && decide (q < p))).length < n)

structure NmDims where
  kl : Nat
  rows : Nat
  rbs : Nat
  ka : Nat
  rbd : Nat
  mb : Nat
  mo : Nat
  deriving DecidableEq, Repr

def nmDims (t : NMPat) (f : Fmt) (kl rows : Nat) : NmDims :=
  let w := f.elemBits
  let ka := kl * NMPat_n t / NMPat_m t
  let rbd := ka * w / 8
  ⟨kl, rows, kl * w / 8, ka, rbd, (ka * NMPat_ib t + 7) / 8, 64 * ((rows * rbd + 63) / 64)⟩

/-- The scale bytes that B4 selection reads lie in scale memory (DEDUCED, entry 23). -/
def nmScalesOk (src : Resv) (d : NmDims) : Bool :=
  src.fmt != .b4 || decide (src.soff + (d.rows - 1) * (d.kl / src.blen) + (d.kl - 1) / src.blen < Config.scaleBytes)

/-- One row of `nmsel`. The scale bytes of B4 rows stand KL ÷ BLEN apart, rounded down: R291 states no stride for a KL that is no
multiple of BLEN (DESIGN CHOICE, entry 60). -/
def State.nmRow (s : State) (quad : Nat) (t : NMPat) (src dst : Resv) (d : NmDims) (q : Quad) (r : Nat) : Quad :=
  let w := src.fmt.elemBits
  let n := NMPat_n t
  let m := NMPat_m t
  (List.range (d.kl / m)).foldl (fun (q : Quad) g =>
    let code (p : Nat) : Nat := elemAt q.ob w (src.base + r * d.rbs) (g * m + p) % 2 ^ src.fmt.codeBits
    let ty (p : Nat) : Nat := s.scaleByte quad (src.soff + r * (d.kl / src.blen) + (g * m + p) / src.blen) / 64
    let sel := largest n ((List.range m).map fun p => src.fmt.value (if src.fmt = .b4 then ty p else 0) (code p))
    (List.range n).foldl (fun (q : Quad) j =>
      let p := sel.getD j 0
      { q with obuf := bitsSet (elemSet q.obuf w (dst.base + r * d.rbd) (g * n + j) (code p)) (NMPat_ib t)
                 (dst.base + d.mo + r * d.mb) (g * n + j) p }) q) q

/-- `nmsel` on a quadrant. -/
def State.nmselect (s : State) (quad : Nat) (t : NMPat) (src dst : Resv) (d : NmDims) (q : Quad) : Quad :=
  let q := (List.range d.rows).foldl (s.nmRow quad t src dst d) q
  { q with resv := q.resv.map fun r => if r.index == dst.index then { r with moff := dst.base + d.mo } else r }

/-! ## accmv (R293) -/

/-- What `accmv` does with one unscaled element: code, new error, flags. -/
def moveOne (rm : CvtMode) (f : Fmt) (x : Nat) (e : Nat) : Nat × Nat × Flags :=
  let v := binF32.decode x
  match rm, f.bin with
  | .ef, some b => let r := convertEF b v (binF32.decode e); (r.1.bits, r.2, r.1.flags)
  | .ef, none => (0, 0, 0)
  | .round m, _ => let r := f.round m v; (r.bits, 0, r.flags ||| sigFlags [v])

/-- What `accmv` does with one block: scale byte, codes, new errors, flags. Where `PackBlock` raises OF the errors of the whole block are
+0, those of its finite elements too: R157's "OF in fl" does not say for which (DESIGN CHOICE, entry 60). -/
def moveBlock (rm : CvtMode) (f : Fmt) (ty : Nat) (xs es : List Nat) : Nat × List Nat × List Nat × Flags :=
  let vs := xs.map binF32.decode
  match rm with
  | .round m => let r := packBlock f ty m vs; (r.1, r.2.1, [], r.2.2)
  | .ef =>
    let us := es.map binF32.decode
    let ts := (List.range vs.length).map fun i => addVal .rne (vs.getD i (.zero false)) (us.getD i (.zero false))
    let r := packBlock f ty .rne (ts.map Prod.fst)
    let special (v : FVal) : Bool := match v with
      | .nan _ | .inf _ => true
      | _ => false
    let err (i : Nat) : Nat :=
      if special (vs.getD i (.zero false)) || special (us.getD i (.zero false)) || r.2.2 &&& flagOF != 0 then 0
      else
        let d := (addVal .rne (ts.getD i (.zero false, 0)).1 (scaledValue f r.1 (r.2.1.getD i 0)).neg).1
        (binF32.round .rne (if d.isZero then .zero false else d)).bits
    (r.1, r.2.1, (List.range vs.length).map err, ts.foldl (fun a t => a ||| t.2) r.2.2)

end Sys2Proof.Machine
end

