-- ==== Sys2Proof/Machine/Matrix.lean ====
section
/-! DEFINITION. The matrix group (0xC8-0xD4): the match of a four (R59, R276, R277), acceptance and completion (R279), and the
instructions (R281-R294). -/

namespace Sys2Proof.Machine

open Sys2Proof

/-- Does an engine command still have scale bytes of a quadrant to write (R97)? -/
def State.scaleBusy (s : State) (quad : Nat) : Bool :=
  s.engines.any fun e => e.2.queue.any fun q => q.sectors.any fun x => x.bytes.any fun b =>
    decide (scaleKey + quad * 2 ^ 14 ≤ b.key) && decide (b.key < scaleKey + (quad + 1) * 2 ^ 14)

/-- A crew's quadrant takes a new value. -/
def State.withQuad (s : State) (c : Crew) (f : Quad → Quad) : State := s.setQuad c.quadNo (f (s.quad c.quadNo))

/-! ## Reservations (R129, R130, R281, R282) -/

/-- Teams resident on a core. -/
def State.teamsOn (s : State) (core : Nat) : List Nat :=
  (List.range s.teams.length).filter fun t => (s.team t).place == .resident && (s.team t).cores.contains core

/-- Every resident team of the core has a crew blocked at `obres`, and there are two or more: the one launched last is asked to
leave (R130). -/
def State.obresDeadlock (s : State) (core : Nat) : State :=
  let ts := s.teamsOn core
  let stuck (t : Nat) : Bool := s.crews.any fun c =>
    c.team == t && c.core == core && c.place == .resident && c.wake == some .obres && !s.obresFits c
  if 2 ≤ ts.length && ts.all stuck then
    let n := (ts.map fun t => (s.team t).launched).foldl max 0
    match ts.find? fun t => (s.team t).launched == n with
    | some t => s.preemptGang (s.team t).grid ((s.team t).linear / (s.grid (s.team t).grid).teams)
    | none => s
  else s

/-- `obres`: the handle in every lane, or the crew blocks. -/
def obresEffect (i : Instr) (bytes : Nat) (fmt : Fmt) (blen soff : Nat) : Body := fun s ci c lanes =>
  match s.newResv c bytes fmt blen soff with
  | none =>
    let s := (s.setCrew ci { c with wake := some .obres }).obresDeadlock c.core
    .block s { s.crew ci with wake := none } .obres
  | some r =>
    let s := s.withQuad c fun q =>
      { q with resv := r :: q.resv, obuf := q.obuf.filter fun e => decide (e.1 < r.base) || decide (r.base + r.size ≤ e.1) }
    let w : TWord := ⟨.tile, BitVec.ofNat 64 (c.quad * 2 ^ 56 + r.index * 2 ^ 52)⟩
    .ok s c (lanes.map fun l => { lane := l, writes := [(s.destOf i c l, w)] }) false

/-- `obrel` frees a reservation, which may let crews blocked at `obres` go on. -/
def obrelEffect (o : XOps) : Body := fun s _ c lanes =>
  let i : Instr := .obrel o
  match s.handle0 c (s.opnd i c 0 1) with
  | .error code => allTrap i s c lanes code
  | .ok r => .ok (s.withQuad c fun q => { q with resv := q.resv.filter fun x => x.index != r.index }) c (plainOuts lanes) false

/-! ## obld and sclld (R283, R294) -/

/-- Reads of scratch at the event: committed bytes once every sector is present. -/
def scratchSource (s : State) (ci : Nat) (c : Crew) (k n : Nat) (f : List Byte → BodyRes) : BodyRes :=
  if s.mustWait ci k n then .stall
  else match s.absentIn k n with
    | [] => f (Memory.bytes s.mem k n)
    | ks => .block s c (.sector ks)

/-- The range and source of `obld`, or its trap (R276). -/
def obldArgs (i : Instr) (bytes : Nat) (o : XOps) (s : State) (c : Crew) : Except Nat (Resv × Nat × Nat) :=
  let h := s.opnd i c 0 1
  let src := s.opnd i c 0 2
  let off := s.opnd i c 0 3
  let n := if o.f3 = 255 then (0 : Int) else off.payload.toInt
  if h.tag != .tile || src.tag != .int || (o.f3 != 255 && off.tag != .int) then .error TrapName.tag.code
  else match s.handle0 c h with
    | .error code => .error code
    | .ok r =>
      if n < 0 ∨ (r.size : Int) < n + bytes then .error TrapName.badHandle.code
      else match s.scratchAddr c src.payload bytes 32 with
        | .ok k _ _ _ => if n % 32 ≠ 0 then .error TrapName.align.code else .ok (r, k, n.toNat)
        | .trap code => .error code
        | .xfault _ _ => .error TrapName.scratchRange.code

def obldEffect (bytes : BitVec 18) (o : XOps) : Body := fun s ci c lanes =>
  let i : Instr := .obld bytes o
  match obldArgs i bytes.toNat o s c with
  | .error code => allTrap i s c lanes code
  | .ok (r, k, off) => scratchSource s ci c k bytes.toNat fun bs =>
    .ok (s.withQuad c fun q => { q with obuf := (List.range bs.length).foldl (fun m j =>
      SMap.put 0 m (r.base + off + j) (bs.getD j 0)) q.obuf }) c (plainOuts lanes) false

/-- The source of `sclld`, or its trap. -/
def sclldArgs (i : Instr) (off bytes : Nat) (s : State) (c : Crew) : Except Nat Nat :=
  let src := s.opnd i c 0 1
  if src.tag != .int then .error TrapName.tag.code
  else if Config.scaleBytes < off + bytes then .error TrapName.badHandle.code
  else match s.scratchAddr c src.payload bytes 1 with
    | .ok k _ _ _ => .ok k
    | .trap code => .error code
    | .xfault _ _ => .error TrapName.scratchRange.code

def sclldEffect (off : BitVec 14) (bytes : BitVec 16) (o : XOps) : Body := fun s ci c lanes =>
  let i : Instr := .sclld off bytes o
  match sclldArgs i off.toNat bytes.toNat s c with
  | .error code => allTrap i s c lanes code
  | .ok k => if s.scaleBusy c.quadNo then .stall else scratchSource s ci c k bytes.toNat fun bs =>
    .ok (s.pokeBytes (scaleKey + c.quadNo * 2 ^ 14 + off.toNat) bs) c (plainOuts lanes) false

/-! ## nmsel (R291) -/

/-- The ranges of `nmsel`, or its trap. -/
def nmselArgs (i : Instr) (t : NMPat) (kl rows : Nat) (s : State) (c : Crew) : Except Nat (Resv × Resv × NmDims) :=
  let a := s.opnd i c 0 1
  let b := s.opnd i c 0 2
  if a.tag != .tile || b.tag != .tile then .error TrapName.tag.code
  else match s.handle0 c a, s.handle0 c b with
    | .ok src, .ok dst =>
      let d := nmDims t src.fmt kl rows
      if src.fmt != dst.fmt || [Fmt.f32, Fmt.l1, Fmt.l2].contains src.fmt || decide (src.size < rows * d.rbs)
          || decide (dst.size < d.mo + rows * d.mb) || !nmScalesOk src d then .error TrapName.badHandle.code
      else .ok (src, dst, d)
    | .error code, _ => .error code
    | _, .error code => .error code

def nmselEffect (t : NMPat) (kl rows : BitVec 16) (o : XOps) : Body := fun s _ c lanes =>
  let i : Instr := .nmsel t kl rows o
  match nmselArgs i t kl.toNat rows.toNat s c with
  | .error code => allTrap i s c lanes code
  | .ok (src, dst, d) =>
    if s.scaleBusy c.quadNo then .stall
    else .ok (s.withQuad c (s.nmselect c.quadNo t src dst d)) c (plainOuts lanes) false

/-! ## Accumulators (R292) -/

/-- Tile element `t`, row-major. -/
def AccTile.at (x : AccTile) (q : Quad) (t : Nat) : BitVec 32 := q.accAt (x.row0 + t / x.cols) (x.col0 + t % x.cols)

/-- The tile of an accumulator instruction with the registers of its group, or its trap: a limit of 512 elements for `accrd`
and `accwr`; a group past v223 or outside the allocation raises ILLEGAL_ENCODING. -/
def accArgs (i : Instr) (limit : Bool) (first : Nat) (n : AccTile → Nat) (s : State) (c : Crew) : Except Nat AccTile :=
  match accTile c (s.opnd i c 0 1) with
  | .error code => .error code
  | .ok t =>
    if limit && decide (512 < t.rows * t.cols) then .error TrapName.badHandle.code
    else if !((List.range (n t)).all fun m => decide (first + m < 224) && validV c.alloc (first + m)) then
      .error TrapName.illegalEncoding.code
    else .ok t

def acczEffect (o : XOps) : Body := fun s _ c lanes =>
  let i : Instr := .accz o
  match accArgs i false 0 (fun _ => 0) s c with
  | .error code => allTrap i s c lanes code
  | .ok t => .ok (s.withQuad c fun q => { q with acc := q.acc.filter fun e =>
      !(decide (t.row0 ≤ e.1 / 256) && decide (e.1 / 256 < t.row0 + t.rows) && decide (t.col0 ≤ e.1 % 256)
        && decide (e.1 % 256 < t.col0 + t.cols)) }) c (plainOuts lanes) false

/-- Registers of a group of `n` words. -/
def groupRegs (n : Nat) : Nat := (n + 31) / 32

/-- `accrd`: the tile's elements in a group, once the quadrant's earlier instructions have completed. -/
def accrdEffect (o : XOps) : Body := fun s _ c lanes =>
  let i : Instr := .accrd o
  match accArgs i true o.f0.toNat (fun t => groupRegs (t.rows * t.cols)) s c with
  | .error code => allTrap i s c lanes code
  | .ok t =>
    let q := s.quad c.quadNo
    if q.busy ≠ 0 then .stall
    else .ok s c (lanes.map fun l => { lane := l, writes := (List.range (groupRegs (t.rows * t.cols))).map fun m =>
      (o.f0.toNat + m, if 32 * m + l < t.rows * t.cols then ⟨.f32, (t.at q (32 * m + l)).setWidth 64⟩ else .nil) }) false

/-- `accwr`: the low 32 bits of a group's words, whatever their tags; a last-use bit frees the group. -/
def accwrEffect (o : XOps) : Body := fun s _ c lanes =>
  let i : Instr := .accwr o
  let regs (t : AccTile) : Nat := groupRegs (t.rows * t.cols)
  match accArgs i true o.f2.toNat regs s c with
  | .error code => allTrap i s c lanes code
  | .ok t =>
    let s := s.withQuad c fun q => (List.range (t.rows * t.cols)).foldl (fun q e =>
      q.setAcc (t.row0 + e / t.cols) (t.col0 + e % t.cols) ((c.readV (o.f2.toNat + e / 32) (e % 32)).pay.setWidth 32)) q
    .ok s c (lanes.map fun l => { lane := l, frees := if o.l2 then (List.range (regs t)).map fun m => o.f2.toNat + m else [] }) false

/-- One row reduced: its value and flags NV and OF. A NaN at its start is canonical at once, and raises NV when it signals (R156). -/
def reduceRow (max : Bool) (x : AccTile) (q : Quad) (row : Nat) : Nat × Flags :=
  let at' (c : Nat) : Nat := (q.accAt row (x.col0 + c)).toNat
  let v0 := binF32.decode (at' 0)
  let first : Nat × Flags := if v0.isNan then
      let r := binF32.fin .rne [v0] (.nan false, 0)
      (r.bits, r.flags)
    else (at' 0, 0)
  let r := (List.range (x.cols - 1)).foldl (fun (a : Nat × Flags) j =>
    let v := binF32.decode a.1
    let w := binF32.decode (at' (j + 1))
    let r := if max then fMax binF32 v w else fAdd binF32 .rne v w
    (r.bits, a.2 ||| r.flags)) first
  (r.1, r.2 &&& (flagNV ||| flagOF))

def accredEffect (max : Bool) (o : XOps) : Body := fun s _ c lanes =>
  let i : Instr := .accred max o
  match accArgs i false o.f0.toNat (fun t => groupRegs t.rows) s c with
  | .error code => allTrap i s c lanes code
  | .ok t =>
    let q := s.quad c.quadNo
    if q.busy ≠ 0 then .stall
    else
      let res (n : Nat) := reduceRow max t q (t.row0 + n)
      .ok s c (lanes.map fun l =>
        { lane := l
          writes := (List.range (groupRegs t.rows)).map fun m =>
            (o.f0.toNat + m, if 32 * m + l < t.rows then ⟨.f32, BitVec.ofNat 64 (res (32 * m + l)).1⟩ else .nil)
          flags := (List.range (groupRegs t.rows)).foldl (fun fl m =>
            if 32 * m + l < t.rows then fl ||| (res (32 * m + l)).2 else fl) 0 }) false

/-! ## accmv (R293) -/

structure MoveArgs where
  src : AccTile
  dst : Resv
  err : Option AccTile
  rbt : Nat
  deriving DecidableEq, Repr

def tilesMeet (a b : AccTile) : Bool :=
  decide (a.row0 < b.row0 + b.rows) && decide (b.row0 < a.row0 + a.rows)
    && decide (a.col0 < b.col0 + b.cols) && decide (b.col0 < a.col0 + a.cols)

/-- The tiles and range of `accmv`, or its trap in the order of R276. -/
def accmvArgs (i : Instr) (rm : CvtMode) (ty doff : Nat) (s : State) (c : Crew) : Except Nat MoveArgs :=
  let a := s.opnd i c 0 1
  let h := s.opnd i c 0 2
  let e := s.opnd i c 0 3
  if a.tag != .tile || h.tag != .tile || (rm == .ef && e.tag != .tile) then .error TrapName.tag.code
  else match accTile c a, s.handle0 c h, (if rm == .ef then (accTile c e).map some else .ok none) with
    | .ok t, .ok r, .ok et =>
      let w := r.fmt.elemBits
      let rbt := t.cols * w / 8
      let errBad := match et with
        | some x => x.rows != t.rows || x.cols != t.cols || tilesMeet t x
        | none => false
      if r.fmt == .l1 || r.fmt == .l2 || t.cols * w % 8 != 0 || doff % rbt != 0 || decide (r.size < doff + t.rows * rbt) || errBad
          || (blockFmt r.fmt && (t.cols % r.blen != 0
            || decide (Config.scaleBytes < r.soff + (doff / rbt + t.rows) * (t.cols / r.blen)))) then
        .error TrapName.badHandle.code
      else if (ty != 0 && r.fmt != .b4) || (rm == .ef && r.fmt.bin.isNone && !blockFmt r.fmt) then
        .error TrapName.illegalEncoding.code
      else .ok ⟨t, r, et, rbt⟩
    | .error code, _, _ => .error code
    | _, .error code, _ => .error code
    | _, _, .error code => .error code

/-- One row of `accmv`. -/
def accmvRow (rm : CvtMode) (ty doff : Nat) (m : MoveArgs) (c : Crew) (a : State × Flags) (row : Nat) : State × Flags :=
  let (s, fl) := a
  let q := s.quad c.quadNo
  let t := m.src
  let r := m.dst
  let xs := (List.range t.cols).map fun j => (q.accAt (t.row0 + row) (t.col0 + j)).toNat
  let es := match m.err with
    | some e => (List.range t.cols).map fun j => (q.accAt (e.row0 + row) (e.col0 + j)).toNat
    | none => []
  let rn := doff / m.rbt + row
  let putErr (q : Quad) (j v : Nat) : Quad := match m.err with
    | some e => q.setAcc (e.row0 + row) (e.col0 + j) (BitVec.ofNat 32 v)
    | none => q
  let putCode (q : Quad) (j v : Nat) : Quad :=
    { q with obuf := elemSet q.obuf r.fmt.elemBits (r.base + doff + row * m.rbt) j v }
  if blockFmt r.fmt then
    (List.range (t.cols / r.blen)).foldl (fun (a : State × Flags) b =>
      let (scale, codes, errs, f) := moveBlock rm r.fmt ty ((xs.drop (b * r.blen)).take r.blen) ((es.drop (b * r.blen)).take r.blen)
      let q := (List.range r.blen).foldl (fun q j =>
        putErr (putCode q (b * r.blen + j) (codes.getD j 0)) (b * r.blen + j) (errs.getD j 0)) (a.1.quad c.quadNo)
      ((a.1.setQuad c.quadNo q).pokeBytes (scaleKey + c.quadNo * 2 ^ 14 + r.soff + rn * (t.cols / r.blen) + b) [BitVec.ofNat 8 scale],
        a.2 ||| f)) (s, fl)
  else
    let (q, fl) := (List.range t.cols).foldl (fun (a : Quad × Flags) j =>
      let (code, e, f) := moveOne rm r.fmt (xs.getD j 0) (es.getD j 0)
      (putErr (putCode a.1 j code) j e, a.2 ||| f)) (q, fl)
    (s.setQuad c.quadNo q, fl)

def accmvEffect (rm : CvtMode) (ty : BitVec 2) (doff : BitVec 32) (o : XOps) : Body := fun s _ c lanes =>
  match accmvArgs (.accmv rm ty doff o) rm ty.toNat doff.toNat s c with
  | .error code => allTrap (.accmv rm ty doff o) s c lanes code
  | .ok m =>
    if s.scaleBusy c.quadNo then .stall
    else
      let (s', fl) := (List.range m.src.rows).foldl (accmvRow rm ty.toNat doff.toNat m c) (s, 0)
      .ok s' c (lanes.map fun l => { lane := l, flags := if l = 0 then fl else 0 }) false

/-! ## The match (R59, R277) -/

/-- The crews of a crew's four that have not retired. -/
def State.fourOf (s : State) (ci : Nat) : List Nat :=
  let c := s.crew ci
  (List.range s.crews.length).filter fun k =>
    let x := s.crew k
    x.team == c.team && x.crewId / 4 == c.crewId / 4 && !x.isComposite && x.place != .retired

/-- Does a crew stand at match number `n`, its instruction checked and not yet matched? -/
def Crew.standsAt (c : Crew) (n : Nat) : Bool :=
  c.place == .resident && c.mreq.isSome && c.arch.matrixNo == n && c.matched == n

/-- A product instruction as its operands, with whether it is `mlut`. -/
def prodOf : Instr → Option (Prod × Bool)
  | .mma p => some (⟨none, p⟩, false)
  | .mmas t p => some (⟨some t, p⟩, false)
  | .mlut p => some (⟨none, p⟩, true)
  | _ => none

/-- The A reservation and offset of a product, or its trap (R276). -/
def State.prodArgs (s : State) (c : Crew) (i : Instr) (x : Prod × Bool) : Except Nat (Resv × Nat) :=
  x.1.check x.2 (s.handle0 c (s.opnd i c 0 1)) (if x.1.p.f3 = 255 then none else some (s.opnd i c 0 3))

/-- The items that R277 compares. -/
def matchItems (i : Instr) : List Nat × Option Fmt :=
  match prodOf i with
  | some x =>
    ([i.opcode, (match x.1.pat with | none => 0 | some .p24 => 0 | some .p48 => 1 | some .p14 => 2), x.1.p.bblen.toNat,
      x.1.p.nb.toNat, x.1.p.kb.toNat, x.1.kLog, (matFmt x.1.p.bfmt).elemBits], some (matFmt x.1.p.bfmt))
  | none => match i with
    | .nmsel t kl rows _ => ([i.opcode, (match t with | .p24 => 0 | .p48 => 1 | .p14 => 2), kl.toNat, rows.toNat], none)
    | .accred max _ => ([i.opcode, max.toNat], none)
    | _ => ([i.opcode], none)

/-- The A format of a product, which R277 compares too. -/
def State.matchFmt (s : State) (c : Crew) (i : Instr) : Option Fmt :=
  match prodOf i with
  | some x => match s.prodArgs c i x with
    | .ok r => some r.1.fmt
    | .error _ => none
  | none => none

/-- The quarters of B of a four (R286). -/
def State.quarters (s : State) (four : List Nat) (q : Nat) : Nat → Byte :=
  match four.find? fun k => (s.crew k).quad == q with
  | some k => match (s.crew k).mreq.bind prodOf with
    | some x => fun b => (s.crew k).quarterByte x.1.p.f2.toNat b
    | none => fun _ => 0
  | none => fun _ => 0

/-- The product of one crew of a matched four: accumulators and flags, from the state at the match. -/
def State.crewProduct (s0 : State) (four : List Nat) (s : State) (k : Nat) : State :=
  let c := s.crew k
  match c.mreq with
  | none => s
  | some i => match prodOf i with
    | none => s
    | some x => match s0.prodArgs c i x with
      | .error _ => s
      | .ok (r, a) =>
        let (q, fl) := s0.product c.quadNo (s0.quad c.quadNo) x.1 r a (s0.quarters four)
        ((s.setQuad c.quadNo q).setCrew k (c.raise 0 fl false).freshChunk)

/-- A four matches: each crew's instruction is accepted; products take effect at once in all four quadrants. -/
def State.matchFour (s : State) (four : List Nat) : State :=
  let s1 := four.foldl (State.crewProduct s four) s
  four.foldl (fun s k =>
    let c := s.crew k
    s.setCrew k { c with matched := c.matched + 1, wake := none }) s1

/-- The trap of a matrix instruction's own operands, if any (R276). -/
def fourCheck (i : Instr) (s : State) (c : Crew) : Option Nat :=
  let code {α : Type} : Except Nat α → Option Nat
    | .ok _ => none
    | .error n => some n
  match i with
  | .obrel _ => code (s.handle0 c (s.opnd i c 0 1))
  | .obld bytes o => code (obldArgs i bytes.toNat o s c)
  | .sclld off bytes _ => code (sclldArgs i off.toNat bytes.toNat s c)
  | .nmsel t kl rows _ => code (nmselArgs i t kl.toNat rows.toNat s c)
  | .accz _ => code (accArgs i false 0 (fun _ => 0) s c)
  | .accrd o => code (accArgs i true o.f0.toNat (fun t => groupRegs (t.rows * t.cols)) s c)
  | .accwr o => code (accArgs i true o.f2.toNat (fun t => groupRegs (t.rows * t.cols)) s c)
  | .accred _ o => code (accArgs i false o.f0.toNat (fun t => groupRegs t.rows) s c)
  | .accmv rm ty doff _ => code (accmvArgs i rm ty.toNat doff.toNat s c)
  | _ => match prodOf i with
    | some x => code (s.prodArgs c i x)
    | none => none

/-- What a matched instruction does; that of a product is done at the match in all four quadrants. -/
def fourEffect (i : Instr) : Body :=
  match i with
  | .obres bytes soff b32 fmt _ => obresEffect i bytes.toNat fmt (if b32 then 32 else 16) soff.toNat
  | .obrel o => obrelEffect o
  | .obld bytes o => obldEffect bytes o
  | .sclld off bytes o => sclldEffect off bytes o
  | .nmsel t kl rows o => nmselEffect t kl rows o
  | .accz o => acczEffect o
  | .accrd o => accrdEffect o
  | .accwr o => accwrEffect o
  | .accred max o => accredEffect max o
  | .accmv rm ty doff o => accmvEffect rm ty doff o
  | _ => fun s _ c lanes => .ok s c (plainOuts lanes) false

/-- Do the four agree in every item (R277)? -/
def State.fourAgrees (s : State) (four : List Nat) : Bool :=
  four.all fun k => four.all fun j =>
    match (s.crew k).mreq, (s.crew j).mreq with
    | some a, some b => matchItems a == matchItems b
        && s.matchFmt (s.crew k) a == s.matchFmt (s.crew j) b
    | _, _ => false

/-- The instruction is done: the crew's next match number; an irrevocable one stays unfinished in its array (R279). -/
def matrixDone (i : Instr) : BodyRes → BodyRes
  | .ok s c outs fin =>
    if outs.any fun o => o.trap.isSome then .ok s { c with mreq := none } outs fin
    else
      let c := { c with arch := { c.arch with matrixNo := c.arch.matrixNo + 1 }, mreq := none }
      let s := if i.cls == .irrevocable then
          s.setQuad c.quadNo { s.quad c.quadNo with busy := (s.quad c.quadNo).busy + 1 } else s
      .ok s c outs fin
  | r => r

/-- A partner's instruction is performed at the match (R279): its effect, and its own completion. What must wait for storage, for
scratch or for room is performed when the partner issues again, and so are `accrd` and `accred`, which are no events. -/
def State.partner (s : State) (k : Nat) : State :=
  match (s.crew k).mreq with
  | none => s
  | some i =>
    if i.cls != .irrevocable then s
    else match issue i (fun s ci c lanes => matrixDone i (fourEffect i s ci c lanes)) { s with focus := some k } with
      | .next t => { t with focus := s.focus }
      | _ => s

/-- The whole four's instructions after they have agreed: products at once, then each partner's. -/
def State.perform (s : State) (ci : Nat) (four : List Nat) : State :=
  (four.filter fun k => k != ci).foldl State.partner (s.matchFour four)

/-- A fatal trap finds a crew of a four (R59): its chunk commits and the context dies; a crew that is off-core has none. -/
def State.doomAt (s : State) (k code : Nat) : State :=
  let c := s.crew k
  let d : Doom := { code := code, lanes := laneMask c.bundle, pc := c.pc }
  if c.place != .resident then
    { s with dying := s.dying ++ [{ asid := s.asidOf c, cause := 1, code := code, crew := some k, lanes := d.lanes, pc := d.pc }] }
  else if c.chunk.phase == .running then s.setCrew k { c.beginCommit with doom := some d, wake := none, mreq := none, expansion := none }
  else s.setCrew k { c with doom := c.doom.or (some d) }

/-- FOUR_MISMATCH in every crew of a four (R59, R277). -/
def State.mismatch (s : State) (four : List Nat) : State :=
  four.foldl (fun s k => s.doomAt k TrapName.fourMismatch.code) s

/-- A matrix instruction: its own checks, the match, then its effect. Products wait until no engine has scale bytes of the four's
quadrants to write (R97). -/
def matrixBody (i : Instr) : Body := fun s ci c lanes =>
  if c.arch.matrixNo < c.matched then matrixDone i (fourEffect i s ci c lanes)
  else match fourCheck i s c with
    | some code => allTrap i s { c with mreq := none } lanes code
    | none =>
      let c := { c with mreq := some i }
      let s := s.setCrew ci c
      let four := s.fourOf ci
      if four.length = 4 && four.all fun k => (s.crew k).standsAt c.arch.matrixNo then
        if !s.fourAgrees four then .done (s.mismatch four)
        else if (prodOf i).isSome && four.any fun k => s.scaleBusy (s.crew k).quadNo then .stall
        else
          let t := s.perform ci four
          match matrixDone i (fourEffect i t ci (t.crew ci) lanes) with
          | .stall => .done (t.stalled ci)
          | r => r
      else if c.dirty then .endChunk
      else .block s c .four

/-! ## The instructions -/

def execMma (p : ProdOps) (s : State) : Out := issue (.mma p) (matrixBody (.mma p)) s

def execMmas (t : NMPat) (p : ProdOps) (s : State) : Out := issue (.mmas t p) (matrixBody (.mmas t p)) s

def execMlut (p : ProdOps) (s : State) : Out := issue (.mlut p) (matrixBody (.mlut p)) s

def execObres (bytes : BitVec 18) (soff : BitVec 14) (b32 : Bool) (fmt : Fmt) (f0 : Field) (s : State) : Out :=
  issue (.obres bytes soff b32 fmt f0) (matrixBody (.obres bytes soff b32 fmt f0)) s

def execObrel (o : XOps) (s : State) : Out := issue (.obrel o) (matrixBody (.obrel o)) s

def execObld (bytes : BitVec 18) (o : XOps) (s : State) : Out := issue (.obld bytes o) (matrixBody (.obld bytes o)) s

def execSclld (off : BitVec 14) (bytes : BitVec 16) (o : XOps) (s : State) : Out :=
  issue (.sclld off bytes o) (matrixBody (.sclld off bytes o)) s

def execNmsel (t : NMPat) (kl rows : BitVec 16) (o : XOps) (s : State) : Out :=
  issue (.nmsel t kl rows o) (matrixBody (.nmsel t kl rows o)) s

def execAccz (o : XOps) (s : State) : Out := issue (.accz o) (matrixBody (.accz o)) s

def execAccrd (o : XOps) (s : State) : Out := issue (.accrd o) (matrixBody (.accrd o)) s

def execAccwr (o : XOps) (s : State) : Out := issue (.accwr o) (matrixBody (.accwr o)) s

def execAccred (max : Bool) (o : XOps) (s : State) : Out := issue (.accred max o) (matrixBody (.accred max o)) s

def execAccmv (rm : CvtMode) (ty : BitVec 2) (doff : BitVec 32) (o : XOps) (s : State) : Out :=
  issue (.accmv rm ty doff o) (matrixBody (.accmv rm ty doff o)) s

/-! ## Events of the fours -/

/-- MATRIX_INSTRUCTION_COMPLETE (R279). -/
def execMatrixInstructionComplete (quad : Nat) (s : State) : Out :=
  .next (s.setQuad quad { s.quad quad with busy := (s.quad quad).busy - 1 })

/-- Is a crew of the team's in its slot, or evicted alone (R66)? -/
def State.present (s : State) (c : Crew) : Bool :=
  c.place == .resident || (c.place == .saved && (s.teamOf c).place == .resident)

/-- May the crew's wait for its four time out (R59): in debug mode, after 2^20 cycles or when a partner has retired? A crew that was
evicted while it waits keeps its place in its four (R66). -/
def State.fourTimedOut (s : State) (ci : Nat) : Bool :=
  let c := s.crew ci
  c.wake == some .four && s.present c && (s.gridOf c).debug
    && (decide (Config.fourWaitCycles ≤ c.mwait) || decide ((s.fourOf ci).length < 4))

/-- FOUR_WAIT_TIMEOUT: every crew of the four that is present raises FOUR_MISMATCH. -/
def execFourWaitTimeout (ci : Nat) (s : State) : Out :=
  if s.fourTimedOut ci then .next (s.mismatch (s.fourOf ci)) else .next s

end Sys2Proof.Machine
end

