-- ==== Sys2Proof/Machine/Views.lean ====
section
/-! DEFINITION. View records and coordinates (R133-R135, R295), the box walk (R296), and the fetch unit with `fld` (R139,
R140, R301-R303). -/

namespace Sys2Proof.Machine

open Sys2Proof

/-! ## View records (R133, R134) -/

/-- A view record as it was read. -/
structure View where
  base : Nat
  fmt : Fmt
  rank : Nat
  comp : Nat
  trapen : Bool
  blen : Nat
  dims : List Nat
  strides : List Int
  boxes : List Nat
  scale : Nat
  deriving DecidableEq, Repr

def View.dim (v : View) (d : Nat) : Nat := v.dims.getD d 1
def View.stride (v : View) (d : Nat) : Int := v.strides.getD d 0
def View.box (v : View) (d : Nat) : Nat := v.boxes.getD d 1
/-- Element bits in memory. -/
def View.w (v : View) : Nat := v.fmt.elemBits

/-- The 128 bytes of a record as a view; none raises BAD_HANDLE. -/
def parseView (bs : List Byte) (engine : Bool) : Option View :=
  let n (off k : Nat) : Nat := leNat ((bs.drop off).take k)
  let rank := n 0x09 1
  match fmtOf (n 0x08 1) with
  | none => none
  | some fmt =>
    let v : View := { base := n 0 8, fmt := fmt, rank := rank, comp := n 0x0A 1, trapen := n 0x0B 1 % 2 == 1, blen := n 0x0C 1,
                      dims := (List.range 5).map fun d => n (0x10 + 4 * d) 4
                      strides := (List.range 5).map fun d => (BitVec.ofNat 64 (n (0x28 + 8 * d) 8)).toInt
                      boxes := (List.range 5).map fun d => n (0x50 + 2 * d) 2
                      scale := n 0x60 8 }
    if n 0x0D 3 ≠ 0 ∨ n 0x24 4 ≠ 0 ∨ n 0x5A 6 ≠ 0 ∨ n 0x68 24 ≠ 0 ∨ 2 ^ 56 ≤ v.base ∨ 1 < n 0x0B 1
        ∨ rank < 1 ∨ 5 < rank ∨ 3 < v.comp ∨ ¬(v.blen = 0 ∨ v.blen = 16 ∨ v.blen = 32)
        ∨ (v.blen ≠ 0 ∧ v.comp ≠ 3) ∨ (v.comp = 3 ∧ (v.blen = 0 ∨ v.scale = 0 ∨ v.scale % 128 ≠ 0)) then none
    else if engine && (List.range rank).any fun d => v.box d == 0 then none
    else if fmt == .word && (v.base % 8 != 0 || (List.range rank).any fun d => v.stride d % 8 != 0) then none
    else some v

/-- Where reading a view or an operand of a view ends: a trap, or a translation fault. -/
inductive Bad where
  | trap (code : Nat)
  | xfault (va : BitVec 64) (cause : Nat) (write : Bool)
  deriving DecidableEq, Repr

def badTrap {α : Type} (t : TrapName) : Except Bad α := .error (.trap t.code)

/-- The coordinates of a lane (R295): registers F2 to F2 + RANK − 1, all 0 for `nil`. -/
def coordsOf (c : Crew) (l f2 rank : Nat) : Except Bad (List Int) :=
  if f2 = 255 then .ok (List.replicate rank 0)
  else if !(List.range rank).all fun d => validV c.alloc (f2 + d) then badTrap .regBounds
  else
    let ws := (List.range rank).map fun d => c.readV (f2 + d) l
    if ws.any fun w => w.tag != .int then badTrap .tag
    else
      let xs := ws.map fun w => w.payload.toInt
      if xs.any fun x => decide (x < -(2 ^ 31)) || decide (2 ^ 31 ≤ x) then badTrap .badHandle else .ok xs

/-- Is a coordinate vector inside the view? -/
def View.inside (v : View) (cs : List Int) : Bool :=
  (List.range v.rank).all fun d => decide (0 ≤ cs.getD d 0) && decide (cs.getD d 0 < v.dim d)

/-- Σ over d ≥ 1 of c_d × STRIDE_d, with BASE. -/
def View.line (v : View) (cs : List Int) : Int :=
  (List.range v.rank).foldl (fun a d => if d = 0 then a else a + cs.getD d 0 * v.stride d) (v.base : Int)

/-- The bit address of an element of a dense or block-scaled view. -/
def View.bitAddr (v : View) (cs : List Int) : Int := 8 * v.line cs + cs.getD 0 0 * v.w

/-- An integer address as a virtual address. -/
def vaOf (g : Int) : BitVec 64 := BitVec.ofInt 64 g

/-! ## The box walk (R296) -/

/-- A run of bits of the walk that lies in one byte on each side: byte and bit in the packed image, byte and bit in global
memory, bits, and whether the element lies in the view. -/
structure Piece where
  img : Nat
  imgSh : Nat
  g : Int
  gSh : Nat
  w : Nat
  inside : Bool
  deriving DecidableEq, Repr

/-- Elements of the box, and bits of its image. -/
def View.boxSize (v : View) : Nat := (List.range v.rank).foldl (fun a d => a * v.box d) 1
def View.imageBits (v : View) : Nat := v.boxSize * v.w

/-- The coordinates of box element `n`: b_0 varies fastest. -/
def View.boxCoords (v : View) (x : List Int) (n : Nat) : List Int :=
  ((List.range v.rank).foldl (fun (a : List Int × Nat) d =>
    (a.1 ++ [x.getD d 0 + ((a.2 % v.box d : Nat) : Int)], a.2 / v.box d)) ([], n)).1

/-- The pieces of box element `n`. -/
def View.pieces (v : View) (x : List Int) (n : Nat) : List Piece :=
  let cs := v.boxCoords x n
  let a := v.bitAddr cs
  let i := v.inside cs
  if 8 ≤ v.w then (List.range (v.w / 8)).map fun j => ⟨n * (v.w / 8) + j, 0, a / 8 + j, 0, 8, i⟩
  else [⟨n * v.w / 8, n * v.w % 8, a / 8, (a % 8).toNat, v.w, i⟩]

/-- The walk of the whole box. -/
def View.walk (v : View) (x : List Int) : List Piece := (List.range v.boxSize).flatMap (v.pieces x)

/-! ## The fetch unit (R96, R139) -/

/-- Key of the tag of a word in a cluster's fetch-unit cache. -/
def fetchTagKey (cluster k : Nat) : Nat := cluster * 2 ^ 56 + 2 ^ 55 + k / 8 * 8

/-- A fetch unit's cache that is full gives up a sector, the lowest (R139, DESIGN CHOICE, entry 53). -/
def State.fetchRoom (s : State) (cluster : Nat) : State :=
  let mine := s.fetchCache.filter fun e => e.1 / 2 ^ 56 == cluster && decide (e.1 % 2 ^ 56 < 2 ^ 55)
  if Config.fetchCacheBytes ≤ mine.length then
    let sec := (mine.headD (0, 0)).1 % 2 ^ 55 / 32
    { s with fetchCache := s.fetchCache.filter fun e => !(e.1 / 2 ^ 56 == cluster && e.1 % 2 ^ 55 / 32 == sec) }
  else s

/-- Copy a 32-byte sector of committed memory into a fetch unit's cache. -/
def State.fetchFill (s : State) (cluster sec : Nat) : State :=
  let s := s.fetchRoom cluster
  let m := (List.range 32).foldl (fun m j => SMap.set m (fetchKey cluster (32 * sec + j)) (Memory.read s.mem (32 * sec + j))) s.fetchCache
  { s with fetchCache := (List.range 4).foldl (fun m j =>
      SMap.set m (fetchTagKey cluster (32 * sec + 8 * j)) (BitVec.ofNat 8 (Tags.read s.tags (4 * sec + j)).toNat)) m }

/-- Has the copy of a sector gone stale? -/
def State.fetchStale (s : State) (cluster sec : Nat) : Bool :=
  (List.range 32).any (fun j => SMap.get 0 s.fetchCache (fetchKey cluster (32 * sec + j)) != Memory.read s.mem (32 * sec + j))
    || (List.range 4).any fun j =>
      SMap.get 0 s.fetchCache (fetchTagKey cluster (32 * sec + 8 * j)) != BitVec.ofNat 8 (Tags.read s.tags (4 * sec + j)).toNat

/-- Read a sector through the fetch unit: a stale copy or the contents after the change, whichever (R96, DESIGN CHOICE, entry 4). -/
def State.fetchSector (s : State) (cluster sec : Nat) : State :=
  if (SMap.get? s.fetchCache (fetchKey cluster (32 * sec))).isNone then s.fetchFill cluster sec
  else if s.fetchStale cluster sec then
    let s' := { s with freeCtr := s.freeCtr + 1 }
    if Config.freeBool s.freeCtr then s' else s'.fetchFill cluster sec
  else s

/-- Read `n` bytes and the tag of their first word through the fetch unit, sector by sector. -/
def State.fetchBytes (s : State) (cluster k n : Nat) : State × List Byte × Tag :=
  let (s, bs, t) := (List.range ((k + n - 1) / 32 - k / 32 + 1)).foldl (fun (a : State × List Byte × Tag) j =>
    let s := a.1.fetchSector cluster (k / 32 + j)
    let got := (List.range 32).map fun x => SMap.get 0 s.fetchCache (fetchKey cluster (32 * (k / 32 + j) + x))
    (s, a.2.1 ++ got, if j = 0 then (Tag.ofNat? (SMap.get 0 s.fetchCache (fetchTagKey cluster k)).toNat).getD .raw else a.2.2))
    (s, [], .raw)
  (s, (bs.drop (k % 32)).take n, t)

/-- What a lane of `fld` carries along: the state with the cache, the crew with its translations. -/
abbrev FetchM (α : Type) := State × Crew → (State × Crew) × Except Bad α

/-- Sequence two reads. -/
def FetchM.andThen {α β : Type} (a : FetchM α) (f : α → FetchM β) : FetchM β := fun sc =>
  match a sc with
  | (sc, .error e) => (sc, .error e)
  | (sc, .ok x) => f x sc

/-- Read bytes at a virtual address from at most so many pages, each translated for itself. -/
def fetchPages : Nat → BitVec 64 → Nat → FetchM (List Byte × Tag)
  | 0, _, _ => fun sc => (sc, .ok ([], .raw))
  | k + 1, va, n => fun (s, c) =>
    match s.xlate c.core (s.asidOf c) va.toNat true false false with
    | .fault cause => ((s, c), .error (.xfault va cause false))
    | .ok p =>
      let m := min n (p.base + p.size - va.toNat)
      let (s, bs, t) := s.fetchBytes (c.core / 4) (p.key va.toNat) m
      let t := if p.tagged then t else .raw
      if n ≤ m then ((s, c.usePage p), .ok (bs, t))
      else
        FetchM.andThen (fetchPages k (va + BitVec.ofNat 64 m) (n - m)) (fun r sc => (sc, .ok (bs ++ r.1, t))) (s, c.usePage p)

/-- Read bytes at a virtual address; what is read is shorter than a page. The tag is that of the first word, RAW where the page
keeps none. -/
def fetchAt (va : BitVec 64) (n : Nat) : FetchM (List Byte × Tag) := fetchPages 2 va n

/-- A view record read by its handle. -/
def fetchView (a : Nat) : FetchM View :=
  FetchM.andThen (fetchAt (BitVec.ofNat 64 a) 128) fun r sc =>
    (sc, match parseView r.1 false with
      | some v => .ok v
      | none => badTrap .badHandle)

/-- An element read by the fetch unit: its bits, its tag for WORD, whether its block is malformed, and whether that raises FORMAT
under its view's TRAPEN (R140, R302). -/
structure Elem where
  bits : Nat := 0
  tag : Tag := .nil
  broken : Bool := false
  traps : Bool := false
  deriving DecidableEq, Repr

/-- Read an element of a format at a bit address; readers ignore bits [7:6] of 6-bit elements (R144). -/
def fetchBits (a : Int) (f : Fmt) : FetchM Elem :=
  FetchM.andThen (fetchAt (vaOf (a / 8)) ((f.elemBits + 7) / 8)) fun r sc =>
    (sc, .ok { bits := (if f.elemBits < 8 then leNat r.1 / 2 ^ (a % 8).toNat else leNat r.1) % 2 ^ f.codeBits, tag := r.2 })

/-- One element (R301, R302): zero of the format outside the view. -/
def fetchElem (v : View) (cs : List Int) : FetchM Elem :=
  let c0 := (cs.getD 0 0).toNat
  let w := v.w
  if !v.inside cs then fun sc => (sc, .ok {})
  else if v.comp = 1 then
    let slot := v.line cs + (c0 / 32 * (8 + 4 * w) : Nat)
    FetchM.andThen (fetchAt (vaOf slot) 8) fun r =>
      let map := leNat (r.1.take 4)
      let len := min 32 (leNat (r.1.drop 4))
      let pop := ((List.range 32).filter map.testBit).length
      let rank := ((List.range (c0 % 32)).filter map.testBit).length
      let broken := len != pop
      if map.testBit (c0 % 32) && decide (rank < min pop len) then
        FetchM.andThen (fetchBits (8 * (slot + 8) + (rank * w : Nat)) v.fmt) fun e sc =>
          (sc, .ok { e with broken := broken, traps := broken && v.trapen })
      else fun sc => (sc, .ok { broken := broken, traps := broken && v.trapen })
  else if v.comp = 2 then
    let slot := v.line cs + (c0 / 32 * (4 + 2 * w) : Nat)
    FetchM.andThen (fetchAt (vaOf slot) 4) fun r =>
      let g := c0 % 32 / 4
      let i0 := leNat r.1 / 2 ^ (4 * g) % 4
      let i1 := leNat r.1 / 2 ^ (4 * g + 2) % 4
      let broken := decide (i1 ≤ i0)
      let at' (k : Nat) : FetchM Elem :=
        FetchM.andThen (fetchBits (8 * (slot + 4) + (k * w : Nat)) v.fmt) fun e sc =>
          (sc, .ok { e with broken := broken, traps := broken && v.trapen })
      if c0 % 4 = i0 then at' (2 * g)
      else if c0 % 4 = i1 && !broken then at' (2 * g + 1)
      else fun sc => (sc, .ok { broken := broken, traps := broken && v.trapen })
  else fetchBits (v.bitAddr cs) v.fmt

/-- The scale byte of an element of a COMP 3 view: element (c_0 ÷ BLEN, c_1, …) of the SCALEVIEW (DEDUCED, entry 24). The record's FMT
is not held to SCALE: the bits of an element of any format are the scale byte (R150, DESIGN CHOICE, entry 51). -/
def fetchScale (v : View) (cs : List Int) : FetchM Elem :=
  FetchM.andThen (fetchView v.scale) fun sv => fetchElem sv ((cs.getD 0 0 / (v.blen : Int)) :: cs.drop 1)

/-- Formats whose values `fld.val` delivers. -/
def valFmt (f : Fmt) : Bool := f.elemBits ≤ 8 && f != .scale || [Fmt.f16, .bf16, .i16, .u16].contains f

/-- What a lane of `fld` delivers: the word, whether a block was malformed, one of a SCALEVIEW included, and whether that raises
FORMAT. -/
def fetchLane (mode : FldMode) (v : View) (cs : List Int) : FetchM (TWord × Bool × Bool) :=
  match mode with
  | .elem => FetchM.andThen (fetchElem v cs) fun e sc =>
      (sc, .ok (⟨if v.fmt == .word then e.tag else v.fmt.tag, BitVec.ofNat 64 (v.fmt.extend e.bits)⟩, e.broken, e.traps))
  | .pk =>
    if v.fmt == .word || 64 ≤ v.w then fun sc => (sc, badTrap .badHandle)
    else
      (List.range (64 / v.w)).foldl (fun (acc : FetchM (TWord × Bool × Bool)) (j : Nat) =>
        FetchM.andThen acc fun a =>
          FetchM.andThen (fetchElem v ((cs.getD 0 0 + (j : Int)) :: cs.drop 1)) fun e sc =>
            (sc, .ok (⟨.raw, a.1.payload ||| (BitVec.ofNat 64 e.bits <<< (j * v.w))⟩, a.2.1 || e.broken, a.2.2 || e.traps)))
        fun sc => (sc, .ok (⟨.raw, 0⟩, false, false))
  | .val =>
    if !valFmt v.fmt then fun sc => (sc, badTrap .badHandle)
    else
      FetchM.andThen (fetchElem v cs) fun e =>
        FetchM.andThen (if v.comp = 3 && v.inside cs then fetchScale v cs else fun sc => (sc, .ok { bits := 32 })) fun sb sc =>
          let x := if v.comp = 3 && v.inside cs then scaledValue v.fmt sb.bits e.bits else v.fmt.value 0 e.bits
          let flags := (e.broken || sb.broken, e.traps || sb.traps)
          let r := binF32.round .rne x
          if x.isNan then (sc, .ok (⟨.f32, 0x7FC00000⟩, flags))
          else if r.flags = 0 then (sc, .ok (⟨.f32, BitVec.ofNat 64 r.bits⟩, flags))
          else
            -- a scaled value that F32 does not hold: the spec states none (DESIGN CHOICE, entry 4)
            let (s, c) := sc
            (({ s with freeCtr := s.freeCtr + 1 }, c),
              .ok (⟨.f32, (Config.freeWord s.freeCtr).setWidth 32 |>.setWidth 64⟩, flags))

/-- A lane of `fld` from its operands on. -/
def fldLane (mode : FldMode) (o : XOps) (i : Instr) (l : Nat) : FetchM (TWord × Bool × Bool) := fun (s, c) =>
  match viewAddr (s.opnd i c l 1) with
  | .error code => ((s, c), .error (.trap code))
  | .ok a =>
    FetchM.andThen (fetchView a) (fun v (s, c) =>
      match coordsOf c l o.f2.toNat v.rank with
      | .error e => ((s, c), .error e)
      | .ok cs => fetchLane mode v cs (s, c)) (s, c)

/-- `fld` in the lanes: results, or the first translation fault. -/
def fldRun (mode : FldMode) (o : XOps) (i : Instr) : List Nat → State → Crew → (State × Crew) × Except Bad (List LaneOut)
  | [], s, c => ((s, c), .ok [])
  | l :: rest, s, c =>
    match fldLane mode o i l (s, c) with
    | (sc, .error (.xfault va cause w)) => (sc, .error (.xfault va cause w))
    | ((s, c), r) =>
      let out : LaneOut := match r with
        | .ok (w, broken, traps) =>
          if traps then trapOut i s c l .format
          else { lane := l, writes := [(s.destOf i c l, w)], fmt := broken }
        | .error (.trap code) => trapCode i s c l code
        | .error (.xfault ..) => { lane := l }
      let c := if broken' r then c.raise l 0 true else c
      match fldRun mode o i rest s c with
      | (sc, .ok outs) => (sc, .ok (out :: outs))
      | r => r
where
  broken' : Except Bad (TWord × Bool × Bool) → Bool
    | .ok (_, _, t) => t
    | _ => false

/-- `fld` (R301-R303). A lane that raises FORMAT sets FORMATFLAG too (R140). -/
def execFld (mode : FldMode) (o : XOps) (s : State) : Out :=
  issue (.fld mode o) (fun s _ c lanes =>
    match fldRun mode o (.fld mode o) lanes s c with
    | ((s, c), .ok outs) => .ok s c outs false
    | (_, .error (.xfault va cause w)) => .xfault va cause w
    | (_, .error (.trap _)) => .stall) s

end Sys2Proof.Machine
end

