-- ==== Sys2Proof/Machine/Engines.lean ====
section
/-! DEFINITION. The tile-walk engines: `xld`, `xst`, `xsc`, `xreq`, `xfar`, their issue events and sector writes (R94,
R106, R107, R114, R136-R138, R295-R300). -/

namespace Sys2Proof.Machine

open Sys2Proof

/-- The five commands. -/
inductive EngineOp where
  | xld (mask : Nat)
  | xst
  | xsc
  | put (device : Nat)
  | get (device : Nat)
  deriving DecidableEq, Repr

def EngineOp.far : EngineOp → Option (Nat × Bool)
  | .put d => some (d, false)
  | .get d => some (d, true)
  | _ => none

/-! ## Reading the view record at issue -/

/-- The view of an engine command, from committed memory (R134); its page is noted. -/
def State.engineView (s : State) (c : Crew) (a : Nat) : Except Bad (View × Page) :=
  match s.xlate c.core (s.asidOf c) a true false false with
  | .fault cause => .error (.xfault (BitVec.ofNat 64 a) cause false)
  | .ok p => match parseView (Memory.bytes s.mem (p.key a) 128) true with
    | some v => .ok (v, p)
    | none => badTrap .badHandle

/-- The conditions of R296 to R298 on a view, its box and its origin; E in bytes. -/
def viewOk (op : EngineOp) (v : View) (x : List Int) : Bool :=
  v.imageBits % 8 == 0 && (decide (8 ≤ v.w) || x.getD 0 0 % ((8 / v.w : Nat) : Int) == 0) && v.comp != 1 && v.comp != 2
    && (match op with
      | .xsc => v.fmt == .scale
      | .xld _ | .xst => v.fmt != .scale
      | .put _ | .get _ => v.fmt != .scale && decide (v.base < 2 ^ 42))

/-! ## Addresses -/

/-- The cores that an `xld` writes, or that receive an image: of `xfar.get` the issuing core (R137, R297). -/
def destCores (op : EngineOp) (c : Crew) (k : Nat) : List Nat :=
  match op with
  | .xld 0 => [k]
  | .xld m => ((List.range 4).filter m.testBit).map fun j => c.core / 4 * 4 + j
  | .get _ => [c.core]
  | _ => [k]

/-- The scratch side: the named core and the team offset (R104, R296), 32-byte aligned, E bytes in the window. -/
def State.scratchSide (s : State) (c : Crew) (w : TWord) (e : Nat) : Except Bad (Nat × Nat) :=
  match s.scratchAddr c w.payload e 32 with
  | .ok k _ _ _ => .ok (keyCore k, w.payload.toNat % 2 ^ 20)
  | .trap code => .error (.trap code)
  | .xfault va cause => .error (.xfault va cause false)

/-- The barrier's team offset (R297): an own-core address, 16-byte aligned, in the window; none for `nil`. -/
def State.barrierSide (s : State) (c : Crew) (w : Option TWord) : Except Bad (Option Nat) :=
  match w with
  | none => .ok none
  | some w =>
    if w.payload.getLsbD 22 then badTrap .scratchRange
    else match s.scratchAddr c w.payload 16 16 with
      | .ok _ _ _ _ => .ok (some (w.payload.toNat % 2 ^ 20))
      | .trap code => .error (.trap code)
      | .xfault va cause => .error (.xfault va cause false)

/-- Translate the pages of a box's elements (R393), first fault first. -/
def State.boxPages (s : State) (c : Crew) (write : Bool) : List Piece → List (Nat × Page) → Except Bad (List (Nat × Page))
  | [], ps => .ok ps
  | p :: rest, ps =>
    let va := (vaOf p.g).toNat
    if !p.inside || (SMap.get? ps (va / 65536)).isSome then State.boxPages s c write rest ps
    else match s.xlate c.core (s.asidOf c) va (!write) write false with
      | .fault cause => .error (.xfault (BitVec.ofNat 64 va) cause write)
      | .ok pg => State.boxPages s c write rest (SMap.set ps (va / 65536) pg)

/-- The key of a translated box address, and whether its page is TAGGED. -/
def boxKey (ps : List (Nat × Page)) (g : Int) : Nat × Bool :=
  let va := (vaOf g).toNat
  match SMap.get? ps (va / 65536) with
  | some p => (p.key va, p.tagged)
  | none => (0, false)

/-! ## Building the sectors -/

/-- Enter a piece in a sector's bytes: the bits written at `dst`, and where they are read, if anywhere; no more than an element's
`code` bits are read, and the device writes the rest as 0 (R144). -/
def addPiece (bytes : List EByte) (dst dsh w code : Nat) (src : Option (Nat × Nat)) : List EByte :=
  let want : List (Nat × Nat × Nat × Nat) := match src with
    | some (k, sh) => [(k, sh, min w code, dsh)]
    | none => []
  let m := (2 ^ w - 1) * 2 ^ dsh
  match bytes.find? fun b => b.key == dst with
  | some _ => bytes.map fun b => if b.key == dst then { b with mask := b.mask ||| m, wants := b.wants ++ want } else b
  | none => bytes ++ [{ key := dst, mask := m, wants := want }]

/-- One 32-byte sector of storage that an image landing at `base` reaches, the `j`-th: its bytes from the pieces, zeros behind E, its
tags, the bytes of the image in it (R94, R296). -/
def imageSector (v : View) (ps : List (Nat × Page)) (far : Bool) (walk : List Piece) (e base j : Nat) (padded : Bool) : Sector :=
  let first := base / 32 * 32 + 32 * j
  let mine := walk.filter fun p => (base + p.img) / 32 == first / 32
  let src (p : Piece) : Option (Nat × Nat) :=
    if !p.inside then none else some (if far then (vaOf p.g).toNat else (boxKey ps p.g).1, p.gSh)
  let bytes := mine.foldl (fun bs p => addPiece bs (base + p.img) p.imgSh p.w v.fmt.codeBits (src p)) []
  let pad := if padded then (List.range 32).filterMap fun b =>
      if base + e ≤ first + b then some { key := first + b, mask := 255 : EByte } else none else []
  let words := (List.range 4).map fun q => first / 8 + q
  let elem (x : Nat) : Option Piece := mine.find? fun p => base + p.img == 8 * x
  let tags : List (Nat × Tag) × List (Nat × Nat) :=
    if !padded then ([], [])
    else if v.fmt != .word then (words.map fun x => (x, Tag.raw), [])
    else words.foldl (fun (a : List (Nat × Tag) × List (Nat × Nat)) x =>
      match elem x with
      | some p =>
        if !p.inside then (a.1 ++ [(x, .nil)], a.2)
        else if far then (a.1, a.2 ++ [(x, (vaOf p.g).toNat / 8)])
        else
          let k := boxKey ps p.g
          if k.2 then (a.1, a.2 ++ [(x, k.1 / 8)]) else (a.1 ++ [(x, .raw)], a.2)
      | none => (a.1 ++ [(x, .nil)], a.2)) ([], [])
  { bytes := bytes ++ pad, tags := tags.1, tagWants := tags.2, count := min (base + e) (first + 32) - max base first
    present := if padded then some (first / 32) else none }

/-- The sectors of `xld`, `xsc` and `xfar.get`: ascending, each to every destination in turn (R137). `dsts` are the image's
base key, the same offset everywhere, and the barrier, for each core. -/
def imageSectors (v : View) (ps : List (Nat × Page)) (far padded : Bool) (walk : List Piece) (e : Nat)
    (dsts : List (Nat × Option (Nat × Nat))) : List Sector :=
  let shift := (dsts.headD (0, none)).1 % 32
  (List.range ((shift + e + 31) / 32)).flatMap fun j =>
    dsts.map fun d => { imageSector v ps far walk e d.1 j padded with barrier := d.2 }

/-- The pieces of a walk by the 32-byte sector of their global address, ascending (R94). -/
def bySector (walk : List Piece) : List (Int × List Piece) :=
  walk.foldl (fun m p => ins m (p.g / 32) p) []
where
  ins : List (Int × List Piece) → Int → Piece → List (Int × List Piece)
    | [], k, p => [(k, [p])]
    | (a, ps) :: t, k, p => if k < a then (k, [p]) :: (a, ps) :: t else if k = a then (a, ps ++ [p]) :: t else (a, ps) :: ins t k p

/-- The sectors of `xst` and `xfar.put`: global bytes from a scratch image at `base`; what lies outside the view is dropped
and counted (R297). -/
def globalSectors (v : View) (ps : List (Nat × Page)) (far : Bool) (walk : List Piece) (base : Nat) (bar : Option (Nat × Nat)) :
    List Sector :=
  let go (acc : List Sector × Nat) (g : Int × List Piece) : List Sector × Nat :=
    let mine := g.2.filter Piece.inside
    let bits := acc.2 + (g.2.map Piece.w).sum
    let key (p : Piece) : Nat × Bool := if far then ((vaOf p.g).toNat, true) else boxKey ps p.g
    let bytes := mine.foldl (fun bs p => addPiece bs (key p).1 p.gSh p.w v.fmt.codeBits (some (base + p.img, p.imgSh))) []
    let words := mine.filterMap fun p => if (key p).2 then some ((key p).1 / 8, (base + p.img) / 8) else none
    let firsts := words.foldl (fun (m : List (Nat × Nat)) w => if m.any fun x => x.1 == w.1 then m else m ++ [w]) []
    let sec : Sector :=
      { bytes := bytes
        tags := if v.fmt == .word then [] else firsts.map fun w => (w.1, .raw)
        tagWants := if v.fmt == .word then firsts else []
        barrier := bar
        count := bits / 8 - acc.2 / 8 }
    (acc.1 ++ [sec], bits)
  ((bySector walk).foldl go ([], 0)).1

/-- The 32-byte sectors of storage that a sector's bytes lie in (key ÷ 32). -/
def Sector.places (x : Sector) : List Nat := x.bytes.map fun b => b.key / 32

/-! ## A command from its operands -/

/-- What a command names: view handle, coordinates, scratch address or scale offset, barrier. -/
structure EngineArgs where
  view : TWord
  coords : Nat → Except Bad (List Int)
  addr : TWord
  bar : Option TWord

/-- A command as it will be issued, with the pages it used, or how it ends (R136, R295-R298). The order is that of R248: TAG,
BAD_HANDLE, SCRATCH_RANGE, ALIGN; then the box is translated. -/
def State.prepare (s : State) (ci : Nat) (c : Crew) (op : EngineOp) (a : EngineArgs) : Except Bad (EngineCmd × List Page) :=
  if a.view.tag != .tile || a.addr.tag != .int || (match a.bar with | some b => b.tag != .int | none => false) then badTrap .tag
  else match viewAddr a.view with
  | .error code => .error (.trap code)
  | .ok va => match s.engineView c va with
    | .error e => .error e
    | .ok (v, page) => match a.coords v.rank with
      | .error e => .error e
      | .ok x =>
        let e := v.imageBits / 8
        let g := s.gridOf c
        if !viewOk op v x then badTrap .badHandle
        else if op == .xsc && (!g.four || decide (a.addr.payload.toInt < 0)
            || decide (Config.scaleBytes < a.addr.payload.toNat + e)) then badTrap .badHandle
        else match (if op == .xsc then .ok (c.core, 0) else s.scratchSide c a.addr e), s.barrierSide c a.bar with
          | .error e, _ => .error e
          | _, .error e => .error e
          | .ok (core, off), .ok bar =>
            let t := s.teamOf c
            let cores := destCores op c core
            if !cores.all t.cores.contains then badTrap .scratchRange
            else
              let walk := v.walk x
              let far := op.far.isSome
              match (if far then .ok [] else s.boxPages c (op == .xst) walk []) with
              | .error e => .error e
              | .ok ps =>
                match walk.find? fun p => op != .xst && !far && p.inside && s.poisonedAt (boxKey ps p.g).1 with
                | some p => .error (.xfault (vaOf p.g) poisonCause false)
                | none =>
                let barOf (core : Nat) : Option (Nat × Nat) := bar.map fun o => (core, t.scratch core o)
                let sectors := match op with
                  | .xld _ => imageSectors v ps false true walk e (cores.map fun k => (t.scratch k off, barOf k))
                  | .get _ => imageSectors v ps true true walk e (cores.map fun k => (t.scratch k off, barOf k))
                  | .xsc => imageSectors v ps false false walk e [(scaleKey + c.quadNo * 2 ^ 14 + a.addr.payload.toNat, barOf c.core)]
                  | .xst => globalSectors v ps false walk (t.scratch core off) (barOf c.core)
                  | .put _ => globalSectors v ps true walk (t.scratch core off) (barOf c.core)
                let dests := if (match op with | .put _ => true | _ => false) then [] else unionNat [] (sectors.flatMap Sector.places)
                .ok ({ crew := ci, team := c.team, asid := g.asid, pc := c.pc, sectors := sectors, dests := dests, far := op.far },
                  page :: ps.map Prod.snd)

/-! ## Issuing (R94, R107, R299) -/

def State.engine (s : State) (cl : Nat) : Engine := SMap.get {} s.engines cl
def State.setEngine (s : State) (cl : Nat) (e : Engine) : State := { s with engines := SMap.set s.engines cl e }

/-- Hand commands to the engine of a crew's cluster; the crew goes on when the last of them has been issued. -/
def State.submit (s : State) (c : Crew) (cmds : List EngineCmd) : State × Crew :=
  let cl := c.core / 4
  let e := s.engine cl
  (s.setEngine cl { e with pend := e.pend ++ cmds }, if cmds.isEmpty then c else { c with wake := some .engine })

/-- The arguments of the four direct commands, from the lowest lane. -/
def State.engineArgs (s : State) (i : Instr) (o : XOps) (c : Crew) (l : Nat) : EngineArgs :=
  { view := s.opnd i c l 1, coords := coordsOf c l o.f2.toNat, addr := s.opnd i c l 3
    bar := if o.f4 = 255 then none else some (s.opnd i c l 4) }

/-- A direct command: checks, then the command waits for its issue event. -/
def engineBody (i : Instr) (o : XOps) (op : State → Crew → Nat → Except Bad EngineOp) : Body := fun s ci c lanes =>
  let l := lanes.headD 0
  match op s c l with
  | .error (.trap code) => allTrap i s c lanes code
  | .error (.xfault va cause w) => .xfault va cause w
  | .ok k => match s.prepare ci c k (s.engineArgs i o c l) with
    | .error (.trap code) => allTrap i s c lanes code
    | .error (.xfault va cause w) => .xfault va cause w
    | .ok (cmd, pages) =>
      let (s, c) := s.submit (pages.foldl Crew.usePage c) [cmd]
      .ok s c (plainOuts lanes) false

def execXld (mask : BitVec 4) (o : XOps) (s : State) : Out :=
  issue (.xld mask o) (engineBody (.xld mask o) o fun _ _ _ => .ok (.xld mask.toNat)) s

def execXst (o : XOps) (s : State) : Out := issue (.xst o) (engineBody (.xst o) o fun _ _ _ => .ok .xst) s

def execXsc (o : XOps) (s : State) : Out := issue (.xsc o) (engineBody (.xsc o) o fun _ _ _ => .ok .xsc) s

/-- The device number of `xfar` (R295): INT, 0 to 2^21 − 1. -/
def farArg (i : Instr) (get : Bool) (s : State) (c : Crew) (l : Nat) : Except Bad EngineOp :=
  let w := s.opnd i c l 5
  if w.tag != .int then badTrap .tag
  else if 2 ^ 21 ≤ w.payload.toNat then badTrap .badHandle
  else .ok (if get then .get w.payload.toNat else .put w.payload.toNat)

def execXfar (get : Bool) (o : XOps) (s : State) : Out :=
  let i : Instr := .xfar get o
  issue i (engineBody i o (farArg i get)) s

/-! ## xreq (R138, R300) -/

/-- A 64-byte record at a key: the command it stands for. Reserved bits and words that are not 0, and a mask on `xst` or `xsc`, raise
BAD_HANDLE (DESIGN CHOICE, entry 51). -/
def State.reqRecord (s : State) (k : Nat) : Except Bad (EngineOp × EngineArgs) :=
  let word (off : Nat) := s.peekWord (k + off)
  let ctl := word 0x08
  let num (off n : Nat) := Memory.nat s.mem (k + off) n
  if ctl.tag != .int then badTrap .tag
  else
    let mask := ctl.payload.toNat / 256 % 16
    let op : Option EngineOp := match ctl.payload.toNat % 256 with
      | 0xE0 => some (.xld mask)
      | 0xE1 => if mask = 0 then some .xst else none
      | 0xE2 => if mask = 0 then some .xsc else none
      | _ => none
    match op with
    | none => badTrap .badHandle
    | some op =>
      if 2 ^ 12 ≤ ctl.payload.toNat ∨ num 0x24 4 ≠ 0 ∨ num 0x38 8 ≠ 0 then badTrap .badHandle
      else .ok (op, { view := word 0x00, addr := word 0x28, bar := some (word 0x30)
                      coords := fun rank => .ok ((List.range rank).map fun d => (BitVec.ofNat 32 (num (0x10 + 4 * d) 4)).toInt) })

/-- The commands of a run of records, up to the first bad one. -/
def State.reqRun (s : State) (ci : Nat) (c : Crew) (key : Nat → Addr) : Nat → Nat → List EngineCmd × Option Bad
  | 0, _ => ([], none)
  | n + 1, k =>
    match key k with
    | .trap code => ([], some (.trap code))
    | .xfault va cause => ([], some (.xfault va cause false))
    | .ok a _ _ _ => match s.reqRecord a with
      | .error e => ([], some e)
      | .ok (op, args) => match s.prepare ci c op args with
        | .error e => ([], some e)
        | .ok (cmd, _) =>
          let (cs, bad) := State.reqRun s ci c key n (k + 1)
          (cmd :: cs, bad)

/-- `xreq`: waits until the records are present, then hands over those before the first bad one, whose trap every lane takes;
a translation fault of any record is taken before the event (R87). The records that are read must lie in the window (R300); a base
in cluster form that names another core of the team is followed (DESIGN CHOICE, entry 51). -/
def xreqBody (count : BitVec 32) (cap : BitVec 16) (o : XOps) : Body := fun s ci c lanes =>
  let i : Instr := .xreq count cap o
  let l := lanes.headD 0
  let base := s.opnd i c l 1
  let idx := s.opnd i c l 2
  if base.tag != .int || idx.tag != .int then allTrap i s c lanes TrapName.tag.code
  else if idx.payload.toInt < 0 then allTrap i s c lanes TrapName.badHandle.code
  else
    let at' (j : Nat) : Nat := (idx.payload.toNat + j) % cap.toNat
    let last := (List.range count.toNat).foldl (fun m j => max m (at' j)) 0
    match s.scratchAddr c base.payload (64 * (last + 1)) 64 with
    | .trap code => allTrap i s c lanes code
    | .xfault va cause => .xfault va cause false
    | .ok k0 _ _ _ =>
      let rec' (k : Nat) : Nat := k0 + 64 * (k % cap.toNat)
      let ks := (List.range count.toNat).map fun j => k0 + 64 * at' j
      if ks.any fun k => s.mustWait ci k 64 then .stall
      else match unionNat [] (ks.flatMap fun k => s.absentIn k 64) with
        | a :: as => .block s c (.sector (a :: as))
        | [] =>
          match s.reqRun ci c (fun k => .ok (rec' k) true 1 none) count.toNat idx.payload.toNat with
          | (_, some (.xfault va cause w)) => .xfault va cause w
          | (cmds, none) =>
            let (s, c) := s.submit c cmds
            .ok s c (plainOuts lanes) false
          | (cmds, some (.trap code)) =>
            let reqs := lanes.map fun l => s.trapReq i c l code
            if reqs.any fun t => (match s.fateIn c t with | .fatal _ => true | _ => false) then
              let (s, c) := s.submit c cmds
              .done ((s.setCrew ci c).takeTraps ci c.pc reqs)
            else
              let (s, c) := s.submit c cmds
              allTrap i s c lanes code

def execXreq (count : BitVec 32) (cap : BitVec 16) (o : XOps) (s : State) : Out :=
  issue (.xreq count cap o) (xreqBody count cap o) s

/-! ## The engine's own steps -/

/-- The destination of a sector as locations, for the squash at issue. -/
def Sector.locs (x : Sector) : List (Nat × Nat) := x.bytes.flatMap fun b => eventLocs b.key 1

/-- Read what can be read of a byte's pieces: those whose source is present (R106). -/
def State.captureByte (s : State) (b : EByte) : EByte :=
  let can (p : Nat × Nat × Nat × Nat) : Bool := !s.absent.contains (p.1 / 32)
  { b with
    val := ((b.wants.filter can).map fun p =>
      (Memory.read s.mem p.1).toNat / 2 ^ p.2.1 % 2 ^ p.2.2.1 * 2 ^ p.2.2.2).foldl (· ||| ·) b.val
    wants := b.wants.filter fun p => !can p }
def State.captureSector (s : State) (x : Sector) : Sector :=
  let can (w : Nat × Nat) : Bool := !s.absent.contains (8 * w.2 / 32)
  { x with
    bytes := x.bytes.map s.captureByte
    tags := x.tags ++ (x.tagWants.filter can).map fun w => (w.1, Tags.read s.tags w.2)
    tagWants := x.tagWants.filter fun w => !can w }

/-- A command reads its source (R94); the source of an `xfar.get` is another device's. -/
def State.captureCmd (s : State) (q : EngineCmd) : EngineCmd :=
  match q.far with
  | some (_, true) => q
  | _ => { q with sectors := q.sectors.map s.captureSector }

/-- A byte of global memory in a poisoned line that a command reads here, if there is one (R405). -/
def EngineCmd.poisonedSource (q : EngineCmd) (s : State) : Option Nat :=
  match q.far with
  | some (_, true) => none
  | _ => (q.sectors.flatMap fun x => x.bytes.flatMap fun b => b.wants.map fun w => w.1).find? s.poisonedAt

/-- The commands of every engine read what has become present. -/
def State.captureAll (s : State) : State :=
  { s with engines := s.engines.map fun e => (e.1, { e.2 with queue := e.2.queue.map s.captureCmd }) }

/-- Scratch sectors that a command makes absent. -/
def EngineCmd.absents (q : EngineCmd) : List Nat := q.sectors.filterMap Sector.present

/-- May a command's issue event be performed: room in the queue (R299), no destination sector absent (R107), the commit token
free (R85)? -/
def State.canIssue (s : State) (cl : Nat) (q : EngineCmd) : Bool :=
  s.token.isNone && decide ((s.engine cl).queue.length < Config.engineDepth) && !(q.absents.any s.absent.contains)

/-- ENGINE_ISSUE_EVENT (R94, R106, R107): the first command that waits enters the queue; ownership is taken, presence bits are
cleared, the source is read, and a crew with no further command goes on. The event is progress of the context (R403); a source in
a poisoned line kills it (R405). -/
def execEngineIssueEvent (cl : Nat) (s : State) : Out :=
  let e := s.engine cl
  match e.pend with
  | [] => .next s
  | q :: rest =>
    if s.canIssue cl q then
      let s := s.eventSquash none (if q.far.isSome && !(q.far.any Prod.snd) then [] else q.sectors.flatMap Sector.locs)
      let s := s.setEngine cl { pend := rest, queue := e.queue ++ [s.captureCmd q] }
      let s := { s with absent := unionNat s.absent q.absents }
      let s := match q.poisonedSource s with
        | some k => s.poisonDeath q.asid (some q.crew) k
        | none => s
      let s := s.noteProgress q.asid
      let c := s.crew q.crew
      .next (if rest.any fun x => x.crew == q.crew then s
        else if c.wake == some .engine then s.setCrew q.crew { c with wake := none } else s)
    else .next s

/-- Write a sector's bytes under their masks, and its tags; it becomes present, and the barrier counts it (R94, R106, R114). -/
def State.writeSector (s : State) (team : Nat) (x : Sector) : State :=
  let s := s.eventSquash s.token x.locs
  let s := x.bytes.foldl (fun s b =>
    let old := (Memory.read s.mem b.key).toNat
    (s.pokeBytes b.key [BitVec.ofNat 8 ((old &&& (255 - b.mask)) ||| (b.val &&& b.mask))]).noteUnflushed b.key) s
  let s := x.tags.foldl (fun s t => s.pokeTag t.1 t.2) s
  let s := if x.bytes.length = 32 && x.bytes.all fun b => b.mask == 255 then s.cleanPoison ((x.bytes.headD { key := 0 }).key / 32 * 32) 32 else s
  let s := match x.present with
    | some k => { s with absent := s.absent.filter fun a => a != k }
    | none => s
  let s := s.captureAll
  match x.barrier with
  | some (core, k) => s.countEvent team core k x.count 0
  | none => s

/-- Queue entries of `xfar` that have sent every sector and wait for nothing. -/
def State.reapEngines (s : State) : State :=
  { s with engines := s.engines.map fun e => (e.1, { e.2 with queue := e.2.queue.filter fun q =>
      !(q.sectors.isEmpty && !(s.far.any fun f => match f.use with
        | .sector c _ _ _ => c == q.crew
        | _ => false)) }) }

/-- The far operation of one sector of `xfar` (R298). -/
def Sector.farBody (get : Bool) (x : Sector) : FarBody :=
  if get then
    .readBytes (unionNat (x.bytes.flatMap fun b => b.wants.map fun w => w.1)
      (x.tagWants.flatMap fun w => (List.range 8).map fun j => 8 * w.2 + j))
  else .writeBytes (x.bytes.map fun b =>
    (b.key, ⟨(x.tags.find? fun t => t.1 == b.key / 8).elim .raw Prod.snd, BitVec.ofNat 64 (b.val + 256 * b.mask)⟩))

/-- Lowest window offset that a sector transfer touches, as its far address has it. -/
def firstOffset : FarBody → Nat
  | .readBytes os => (leastOf os).getD 0
  | .writeBytes cs => (leastOf (cs.map Prod.fst)).getD 0
  | _ => 0

/-- Where a sector stands in storage: the byte it starts with, if any. -/
def Sector.home (x : Sector) : Option Nat := x.bytes.head?.map EByte.key

/-- Does a scrub lock hold the sector's line (R399)? -/
def State.sectorLocked (s : State) (x : Sector) : Bool := x.home.any fun k => s.locks.contains (k / 128)

/-- Has a home parked the sector (R399)? -/
def State.sectorParked (s : State) (cl : Nat) (x : Sector) : Bool := x.home.any fun k => s.parked.any fun p => p.req == .sector cl k

/-- Can the first sector of a command go: read whole, not parked, and with room in its home's fault queue where a scrub lock holds
its line? -/
def State.sectorReady (s : State) (cl : Nat) (q : EngineCmd) : Bool :=
  match q.sectors with
  | [] => false
  | x :: _ => (q.far.any Prod.snd) || (x.bytes.all (fun b => b.wants.isEmpty) && x.tagWants.isEmpty
      && (q.far.isSome || !(s.sectorParked cl x || (s.sectorLocked x && s.faultQueueFull (lineSlice (x.home.getD 0 / 128))))))

/-- Must the sectors of a later command wait for those of an earlier one: do their destinations overlap (R136), or go both to or
from one device, whose operations stay in order (R95)? -/
def EngineCmd.before (a b : EngineCmd) : Bool :=
  !a.sectors.isEmpty && ((a.far.isSome && a.far.map Prod.fst == b.far.map Prod.fst) || meetsNat a.dests b.dests)

/-- The commands of an engine, by place in its queue, whose next sector can go. -/
def State.turns (s : State) (cl : Nat) : List Nat :=
  let q := (s.engine cl).queue
  (List.range q.length).filter fun n => q[n]?.any fun x => s.sectorReady cl x && !((q.take n).any fun a => a.before x)

/-- The command whose sector goes next: the spec fixes no order among those that do not overlap (R136, R318), so it is a free choice
(DESIGN CHOICE, entry 4). -/
def State.turn (s : State) (cl : Nat) : Option (Nat × EngineCmd) :=
  let ns := s.turns cl
  let n := ns.getD ((Config.freeWord s.freeCtr).toNat % ns.length) 0
  if ns.isEmpty then none else (s.engine cl).queue[n]?.map fun q => (n, q)

/-- A sector leaves the command at a place in the queue; a command that is done leaves too, but `xfar` stays for its answers. -/
def Engine.dropAt (e : Engine) (n : Nat) : Engine :=
  { e with queue := go n e.queue }
where
  go : Nat → List EngineCmd → List EngineCmd
    | _, [] => []
    | n + 1, q :: rest => q :: go n rest
    | 0, q :: rest => match q.sectors with
      | [] => q :: rest
      | [_] => if q.far.isSome then { q with sectors := [] } :: rest else rest
      | _ :: xs => { q with sectors := xs } :: rest

/-- ENGINE_SECTOR_WRITE (R94): the engine writes the next 32-byte sector of a command; a sector on a line under a scrub lock is
parked at its home (R399); a sector of `xfar` is sent as a far operation, or needs none when no byte of it moves. -/
def execEngineSectorWrite (cl : Nat) (s : State) : Out :=
  match s.turn cl with
  | none => .next s
  | some (n, q) =>
    match q.sectors with
    | [] => .next s
    | x :: _ =>
      let s := { s with freeCtr := s.freeCtr + 1 }
      let s' := s.setEngine cl ((s.engine cl).dropAt n)
      match q.far with
      | none =>
        if s.sectorLocked x then
          let k := x.home.getD 0
          .next { s with parked := s.parked ++ [⟨lineSlice (k / 128), .sector cl k⟩] }
        else .next (s'.writeSector q.team x)
      | some (d, get) =>
        let body := x.farBody get
        let moves := match body with
          | .readBytes os => !os.isEmpty
          | .writeBytes cs => !cs.isEmpty
          | _ => true
        if moves then
          let va := BitVec.ofNat 64 (2 ^ 63 + d * 2 ^ 42 + firstOffset body % 2 ^ 42)
          .next (s'.sendFar va body (.sector q.crew q.team q.asid x) q.pc)
        else if get then .next ((s'.writeSector q.team x).reapEngines.passFences)
        else .next ((match x.barrier with
          | some (core, k) => s'.countEvent q.team core k x.count 0
          | none => s').reapEngines.passFences)

/-- A parked sector is written: the command that it heads goes on (R399). -/
def State.replaySector (s : State) (cl key : Nat) : State :=
  let q := (s.engine cl).queue
  match (List.range q.length).find? fun n => q[n]?.any fun c => (c.sectors.head?.bind Sector.home) == some key && c.far.isNone with
  | none => s
  | some n => match q[n]? with
    | some c => match c.sectors with
      | x :: _ => (s.setEngine cl ((s.engine cl).dropAt n)).writeSector c.team x
      | [] => s
    | none => s

end Sys2Proof.Machine
end

