-- ==== Sys2Proof/Machine/System.lean ====
section
/-! DEFINITION. System and trap instructions (0xF0-0xF8, R238-R243), the lift (0xE6, 0xE7, R70-R73, R304). -/

namespace Sys2Proof.Machine

open Sys2Proof

/-! ## svc (R238, R384-R386) -/

/-- A service ring as the device finds it: the key of its header, CAP, TAIL, HEAD, the interrupt word. -/
structure Ring where
  key : Nat
  cap : Nat
  tail : Nat
  head : Nat
  irq : Nat
  deriving DecidableEq, Repr

/-- The ring at a virtual address; none raises BAD_HANDLE: unset, misaligned, not mapped to the window, or a bad header. -/
def State.ringAt (s : State) (core asid : Nat) (va : Nat) : Option Ring :=
  if va = 0 ∨ va % 64 ≠ 0 then none
  else match s.xlate core asid va true true false with
    | .fault _ => none
    | .ok p =>
      let k := p.key va
      let r : Ring := ⟨k, Memory.nat s.mem k 8, Memory.nat s.mem (k + 8) 8, Memory.nat s.mem (k + 16) 8, Memory.nat s.mem (k + 32) 8⟩
      if !inWindow k || !([32, 64, 128, 256, 512, 1024, 2048, 4096].contains r.cap)
          || (Memory.bytes s.mem (k + 0x28) 24).any (· != 0) || decide (2 ^ 9 ≤ r.irq)
          || !inWindow (k + 64 + 64 * r.cap - 1) then none
      else some r

/-- Is there room for `n` records (R386)? -/
def Ring.room (r : Ring) (n : Nat) : Bool := decide ((r.tail + 2 ^ 64 - r.head) % 2 ^ 64 + n ≤ r.cap)

/-- The key of record `k`. -/
def Ring.recKey (r : Ring) (k : Nat) : Nat := r.key + 64 + 64 * (k % r.cap)

/-- A record (R385): words at 0x00 to 0x18, zeros behind. -/
def svcRecord (s : State) (c : Crew) (n l k : Nat) (a : TWord) : List Byte :=
  leBytes 8 (n + l * 2 ^ 16 + a.tag.toNat * 2 ^ 24 + c.crewId * 2 ^ 32) ++ leBytes 8 a.payload.toNat
    ++ leBytes 8 (s.asidOf c + c.core * 2 ^ 16 + c.quad * 2 ^ 24 + (s.teamOf c).linear % 2 ^ 32 * 2 ^ 32) ++ leBytes 8 k
    ++ List.replicate 32 0

/-- The event of `svc`: the records, TAIL, the interrupt. -/
def State.svcEvent (s : State) (ci : Nat) (c : Crew) (r : Ring) (n : Nat) (args : List (Nat × TWord)) : State :=
  let put (a : State × Nat) (x : Nat × TWord) : State × Nat :=
    (a.1.eventWrite (some ci) (r.recKey a.2) (svcRecord s c n x.1 a.2 x.2), a.2 + 1)
  let (s', tail) := args.foldl put (s, r.tail)
  let s' := s'.eventWord (some ci) (r.key + 8) (BitVec.ofNat 64 tail)
  if r.irq.testBit 8 then s'.sendMsi (r.irq % 256) else s'

/-- What the crew will wait for: DOORBELL ≥ END, with each lane's record. -/
def svcWake (va : Nat) (r : Ring) (dest : Nat) (lanes : List Nat) : Wake :=
  .svcReply va (r.tail + lanes.length) (BitVec.ofNat 8 dest) ((List.range lanes.length).map fun j => (lanes.getD j 0, r.recKey (r.tail + j)))

/-- A reply as its record gives it (R386). -/
def replyWord (payload rtag : Nat) : TWord :=
  let p := BitVec.ofNat 64 payload
  match Tag.ofNat? rtag with
  | some t => if (⟨t, p⟩ : TWord).conforming then makeWord t p else makeWord .raw p
  | none => makeWord .raw p

/-- The replies of a crew whose ring's DOORBELL has reached END; none before. -/
def State.svcReplies (s : State) (c : Crew) : Option (List (Nat × TWord)) :=
  match c.svcLeft with
  | some (_, .svcReply ring last _ lanes) =>
    if c.hasReplies || c.place == .retired then none
    else match s.walkNow (s.asidOf c) ring true false false with
      | .fault _ => none
      | .ok p =>
        if last ≤ Memory.nat s.mem (p.key ring + 0x18) 8 then
          some (lanes.map fun l => (l.1, replyWord (Memory.nat s.mem (l.2 + 0x20) 8) (Memory.nat s.mem (l.2 + 0x28) 8)))
        else none
  | _ => none

/-- A crew whose `svc` event is done takes its replies at once where DOORBELL has reached END by then (R386). -/
def State.coveredReplies (s : State) (c : Crew) : Crew :=
  match s.svcReplies c with
  | none => c
  | some ws => { c with replies := ws }

/-- `svc`: the records are written, or the crew parks until the ring has room (R386). -/
def svcBody (n : BitVec 16) (lk : BitVec 4) (o : IOps) : Body := fun s ci c lanes =>
  let i : Instr := .svc n lk o
  match s.ringAt c.core (s.asidOf c) c.svcq.toNat with
  | none => .ok s c (lanes.map fun l => trapOut i s c l .badHandle) false
  | some r =>
    if r.room lanes.length then
      let s' := (s.setCrew ci c).svcEvent ci c r n.toNat (lanes.map fun l => (l, s.opnd i c l 1))
      let c' := s'.crew ci
      let c' := { c' with svcLeft := some (lk.toNat, svcWake c.svcq.toNat r (s.destOf i c (lanes.headD 0)) lanes), replies := [] }
      .ok s' (s'.coveredReplies c') (plainOuts lanes) false
    else .done ((s.setCrew ci { c with wake := some .svcEvent, expansion := none }).saveCrew ci)

def execSvc (n : BitVec 16) (lk : BitVec 4) (o : IOps) (s : State) : Out := issue (.svc n lk o) (svcBody n lk o) s

/-! ## trap, rfh, bkpt, abort (R239, R240) -/

def execTrap (code : BitVec 8) (o : IOps) (s : State) : Out :=
  issue (.trap code o) (fun s _ c lanes => .ok s c (lanes.map fun l => trapCode (.trap code o) s c l code.toNat) false) s

/-- `rfh` (R47): the checks of v220 and DEST, then the return. -/
def rfhLane (s : State) (c : Crew) (l : Nat) : LaneOut :=
  let w := c.readV 220 l
  let dest := field (c.readV 219 l).payload 15 8
  if !isCodeWord w then trapOut .rfh s c l .tag
  else if 224 ≤ dest ∧ dest ≤ 254 then trapOut .rfh s c l .illegalEncoding
  else if dest < 224 ∧ !validV c.alloc dest then trapOut .rfh s c l .regBounds
  else { lane := l, pc := some w.payload, writes := if dest < 224 then [(dest, c.readV 216 l)] else [] }

def execRfh (s : State) : Out := issue .rfh (fun s _ c lanes => .ok s c (lanes.map (rfhLane s c)) false) s

/-- `bkpt`: v218 is INT n. -/
def execBkpt (n : BitVec 16) (s : State) : Out :=
  issue (.bkpt n) (fun s _ c lanes => .ok s c (lanes.map fun l =>
    { lane := l, trap := some { s.trapReq (.bkpt n) c l TrapName.breakpoint.code with v218 := ⟨.int, n.setWidth 64⟩ } }) false) s

/-- `abort`: always fatal; n goes to the failure record (R404). -/
def execAbort (n : BitVec 16) (s : State) : Out :=
  issue (.abort n) (fun s _ c lanes => .ok s c (lanes.map fun l =>
    { lane := l, trap := some { s.trapReq (.abort n) c l TrapName.abort.code with detail := n.setWidth 64 } }) false) s

/-! ## Special registers (R193, R194, R241) -/

/-- The value of a special register in a lane of a bundle. -/
def State.special (s : State) (c : Crew) (lanes : List Nat) (l : Nat) : SReg → BitVec 64
  | .laneid => BitVec.ofNat 64 l
  | .quadid => BitVec.ofNat 64 c.quad
  | .crewid => BitVec.ofNat 64 c.crewId
  | .crewn => BitVec.ofNat 64 (s.gridOf c).crews
  | .teamx => BitVec.ofNat 64 ((s.teamOf c).linear % (s.gridOf c).ntx)
  | .teamy => BitVec.ofNat 64 ((s.teamOf c).linear / (s.gridOf c).ntx % (s.gridOf c).nty)
  | .teamz => BitVec.ofNat 64 ((s.teamOf c).linear / (s.gridOf c).ntx / (s.gridOf c).nty)
  | .nteamx => BitVec.ofNat 64 (s.gridOf c).ntx
  | .nteamy => BitVec.ofNat 64 (s.gridOf c).nty
  | .nteamz => BitVec.ofNat 64 (s.gridOf c).ntz
  | .gangid => BitVec.ofNat 64 ((s.teamOf c).linear / (s.gridOf c).teams)
  | .gangn => BitVec.ofNat 64 ((s.gridOf c).ntx * (s.gridOf c).nty * (s.gridOf c).ntz / (s.gridOf c).teams)
  | .core => BitVec.ofNat 64 (c.core % 4)
  | .cluster => BitVec.ofNat 64 (c.core / 4 % 12)
  | .die => BitVec.ofNat 64 (c.core / 48)
  | .clock => s.clock
  | .htab => c.htab
  | .nbase => c.arch.nbase
  | .nlimit => c.arch.nlimit
  | .xi => c.arch.xi
  | .fpflags => c.arch.fpflags
  | .trapinfo => (c.thread l).trapInfo
  | .svcq => c.svcq
  | .hregion => c.hregion
  | .active => laneMask lanes
  | .fourpos => if (s.gridOf c).four then BitVec.ofNat 64 (c.crewId % 4) else -1
  | .chunkn => c.chunkn
  | .squashn => BitVec.ofNat 64 (c.squashTotal * 256 + c.consec)
  | .formatflag => c.arch.formatflag

def execGets (r : SReg) (o : IOps) (s : State) : Out :=
  issue (.gets r o) (fun s _ c lanes => .ok s c (lanes.map fun l =>
    { lane := l, writes := [(s.destOf (.gets r o) c l, makeWord .int (s.special c lanes l r))] }) false) s

/-- Write a special register; reserved bits read as zero. -/
def Crew.setSpecial (c : Crew) (v : BitVec 64) : SReg → Crew
  | .htab => { c with htab := v }
  | .svcq => { c with svcq := v }
  | .hregion => { c with hregion := v &&& 7 }
  | .nbase => { c with arch := { c.arch with nbase := v } }
  | .nlimit => { c with arch := { c.arch with nlimit := v } }
  | .xi => { c with arch := { c.arch with xi := v } }
  | .fpflags => { c with arch := { c.arch with fpflags := v &&& fpflagsMask } }
  | .formatflag => { c with arch := { c.arch with formatflag := v &&& formatflagMask } }
  | _ => c

/-- `sets`: the value of the lowest lane that does not trap; TAG, then ALIGN for HTAB. -/
def setsBody (r : SReg) (o : IOps) : Body := fun s _ c lanes =>
  let i : Instr := .sets r o
  let outs : List (LaneOut × BitVec 64) := lanes.map fun l =>
    let w := s.opnd i c l 1
    if w.tag != .int then (trapOut i s c l .tag, 0)
    else if r == .htab && w.payload.toNat % 8 != 0 then (trapOut i s c l .align, 0)
    else ({ lane := l }, w.payload)
  let c := match outs.find? fun x => x.1.trap.isNone with
    | some x => c.setSpecial x.2 r
    | none => c
  .ok s c (outs.map Prod.fst) false

def execSets (r : SReg) (o : IOps) (s : State) : Out := issue (.sets r o) (setsBody r o) s

/-- clk (R242): the count of bundles is read before the `clk`'s own bundle is added (DESIGN CHOICE, entry 51). -/
def execClk (bundles : Bool) (o : IOps) (s : State) : Out :=
  issue (.clk bundles o) (fun s _ c lanes => .ok s c (lanes.map fun l =>
    { lane := l, writes := [(s.destOf (.clk bundles o) c l, makeWord .int (if bundles then c.clk1 else c.clk0))] }) false) s

/-- `prof`: one record of the bundle waits for the chunk's commit (R243). -/
def execProf (n : BitVec 16) (s : State) : Out :=
  issue (.prof n) (fun s _ c lanes =>
    let c := if (s.gridOf c).prof then { c with chunk := { c.chunk with prof := c.chunk.prof ++ [⟨s.clock, n⟩] } } else c
    .ok s c (plainOuts lanes) false) s

/-! ## The lift (R70-R73, R304) -/

def State.lift (s : State) (die : Nat) : Lift := SMap.get {} s.lifts die
def State.setLift (s : State) (die : Nat) (x : Lift) : State := { s with lifts := SMap.set s.lifts die x }

/-- Is the lift bound to the context? -/
def Lift.serves (x : Lift) (asid : Nat) : Bool := x.en && x.asid == asid

/-- `wput`: each lane appends its words, one event per lane. -/
def wputBody (o : XOps) : Body := fun s ci c lanes =>
  let i : Instr := .wput o
  let die := c.core / 48
  let asid := s.asidOf c
  let go (acc : State × List LaneOut) (l : Nat) : State × List LaneOut :=
    let a := s.opnd i c l 1
    let b := s.opnd i c l 2
    if a.isHeader || b.isHeader then (acc.1, acc.2 ++ [trapOut i s c l .tag])
    else
      let x := acc.1.lift die
      let fits := x.serves asid && decide (x.entries.length < Config.liftEntries)
      (if fits then acc.1.setLift die { x with entries := x.entries ++ [(a, b)] } else acc.1,
        acc.2 ++ [{ lane := l, writes := [(s.destOf i c l, boolWord fits)] }])
  let r := lanes.foldl go (s.setCrew ci c, [])
  .ok r.1 (r.1.crew ci) r.2 false

def execWput (o : XOps) (s : State) : Out := issue (.wput o) (wputBody o) s

/-- `wget`: each lane takes the oldest entry into its pair, or NIL in both words. -/
def wgetBody (o : XOps) : Body := fun s ci c lanes =>
  let i : Instr := .wget o
  let die := c.core / 48
  let asid := s.asidOf c
  let go (acc : State × List LaneOut) (l : Nat) : State × List LaneOut :=
    let x := acc.1.lift die
    let (s1, a, b) : State × TWord × TWord := match x.serves asid, x.entries with
      | true, e :: rest => (acc.1.setLift die { x with entries := rest }, e.1, e.2)
      | _, _ => (acc.1, .nil, .nil)
    let d := s.destOf i c l
    (s1, acc.2 ++ [{ lane := l, writes := if d = 255 then [] else [(d, a), (d + 1, b)] }])
  let r := lanes.foldl go (s.setCrew ci c, [])
  .ok r.1 (r.1.crew ci) r.2 false

def execWget (o : XOps) (s : State) : Out := issue (.wget o) (wgetBody o) s

end Sys2Proof.Machine
end

