-- ==== Sys2Proof/Machine/Launch.lean ====
section
/-! DEFINITION. Gang launch records (R376-R378), placement (R50-R52, R103, R334, R358, R379), first residency (R105, R108,
R131), completion of grids (R374, R378), saving and restoring gangs (R69, R382, R406-R410), and `lnch` (R305). -/

namespace Sys2Proof.Machine

open Sys2Proof

/-! ## Room (R50, R103, R334, R358) -/

/-- Crews in the slots of a quadrant. -/
def State.slotsOf (s : State) (q : Nat) : List Crew :=
  s.crews.filter fun c => c.place == .resident && !c.isComposite && c.quadNo == q

/-- Has a quadrant slots and register rows for crews of the given allocations? -/
def State.quadFits (s : State) (q : Nat) (allocs : List Nat) : Bool :=
  let mine := s.slotsOf q
  decide (mine.length + allocs.length ≤ Config.quadSlots)
    && decide ((mine.map Crew.alloc).sum + allocs.sum ≤ Config.quadRows)

/-- The scratchpad ranges that resident teams hold on a core: windows and pools. -/
def State.heldRanges (s : State) (core : Nat) : List (Nat × Nat) :=
  (s.teams.filter fun t => t.place == .resident && t.cores.contains core).flatMap fun t =>
    let g := s.grid t.grid
    [(t.window, g.windowBytes), (t.pool, g.poolBytes)]

/-- The lowest 4 KiB-aligned range of a size that is free on every one of some cores, and clear of one more range. -/
def State.placeBytes (s : State) (cores : List Nat) (extra : Nat × Nat) (size : Nat) : Option Nat :=
  if size = 0 then some 0
  else ((List.range 192).map fun k => 4096 * k).find? fun a =>
    let clear (r : Nat × Nat) : Bool := r.2 == 0 || decide (a + size ≤ r.1) || decide (r.1 + r.2 ≤ a)
    decide (a + size ≤ Config.scratchBytes) && clear extra && cores.all fun k => (s.heldRanges k).all clear

/-- Macro slots that the code objects of a core's teams need, with one more grid's. -/
def State.macroUse (s : State) (core : Nat) (g : Grid) : Nat :=
  let objs := (s.teams.filter fun t => t.place == .resident && t.cores.contains core).map fun t =>
    let x := s.grid t.grid
    (x.asid, x.codebase, x.bodies)
  ((g.asid, g.codebase, g.bodies) :: objs).eraseDups.foldl (fun n o => n + o.2.2.length) 0

/-- Cores of a package cluster. -/
def clusterCores (cl : Nat) : List Nat := (List.range 4).map fun j => 4 * cl + j

/-- Has a list of cores room for a team: `allocs` says which crews sit in each quadrant of each of them. The answer is the
base of the window and of the pool. -/
def State.fits (s : State) (g : Grid) (cores : List Nat) (allocs : Nat → Nat → List Nat) : Option (Nat × Nat) :=
  let quads := (List.range cores.length).all fun j => (List.range 4).all fun q =>
    s.quadFits (4 * cores.getD j 0 + q) (allocs j q)
  let four := !g.four || !(s.teams.any fun t => t.place == .resident && (s.grid t.grid).four && meetsNat cores t.cores)
  if !quads || !four || !(cores.all fun k => decide (s.macroUse k g ≤ Config.macroSlots)) then none
  else match s.placeBytes cores (0, 0) g.windowBytes with
    | none => none
    | some w => (s.placeBytes cores (w, g.windowBytes) g.poolBytes).map fun p => (w, p)

/-- The crews of a fresh team by core and quadrant (R50). -/
def freshAllocs (g : Grid) (n : Nat) (j q : Nat) : List Nat :=
  ((List.range g.crews).filter fun c => c / (g.crews / n) == j && c % 4 == q).map fun _ => g.regs

/-- Nothing resident. -/
def State.emptied (s : State) : State := { s with crews := [], teams := [] }

/-- The number of cores a team of a grid occupies (R50): 1, or 4, or none when it can never be placed. -/
def State.spreadOf (s : State) (g : Grid) : Option Nat :=
  if g.crews ≤ 48 && (s.emptied.fits g [0] (freshAllocs g 1)).isSome then some 1
  else if g.crews % 16 = 0 && (s.emptied.fits g (clusterCores 0) (freshAllocs g 4)).isSome then some 4
  else none

/-! ## Teams enter (R51, R105, R108, R131) -/

/-- Remove what a scratchpad range holds: every word reads UNDEF and every sector is present. -/
def State.clearScratch (s : State) (k n : Nat) : State :=
  { s with
    mem := s.mem.filter fun e => decide (e.1 < k) || decide (k + n ≤ e.1)
    tags := s.tags.filter fun e => decide (8 * e.1 < k) || decide (k + n ≤ 8 * e.1)
    absent := s.absent.filter fun a => decide (32 * a < k) || decide (k + n ≤ 32 * a) }

/-- Write the headers of a team's queues (R108, R109). -/
def State.queueHeaders (s : State) (t : Team) (g : Grid) : State :=
  let put (s : State) (b : QBind) (core : Nat) : State :=
    s.pokeWords (t.scratch core (b.addr % 2 ^ 20))
      (([b.cap, 0, 0, b.allow, t.linear, 0, 0, 0] : List Nat).map fun v => ⟨.int, BitVec.ofNat 64 v⟩)
  g.binds.foldl (fun s b =>
    if b.addr / 2 ^ 22 % 2 = 0 then t.cores.foldl (fun s k => put s b k) s
    else
      let k := t.cores.headD 0 / 4 * 4 + b.addr / 2 ^ 20 % 4
      if t.cores.contains k then put s b k else s) s

/-- Empty storage of a team on its cores: window, headers, for a FOUR team accumulators and scales. -/
def State.freshStorage (s : State) (t : Team) : State :=
  let g := s.grid t.grid
  let s := t.cores.foldl (fun s k => s.clearScratch (t.scratch k 0) g.windowBytes) s
  let s := if g.four then
      (t.cores.flatMap fun k => (List.range 4).map fun q => 4 * k + q).foldl (fun s q =>
        (s.clearScratch (scaleKey + q * 2 ^ 14) (2 ^ 14)).setQuad q { s.quad q with acc := [] }) s
    else s
  s.queueHeaders t g

/-- The registers and threads of a crew at launch (R376). -/
def Grid.launchArch (g : Grid) : Arch :=
  { threads := List.replicate 32 { pc := BitVec.ofNat 64 (g.codebase + g.entry), st := .active }
    sregs := (List.range g.args.length).map fun n => (n, g.args.getD n .nil) }

/-- A crew of a team at launch. -/
def freshCrew (g : Grid) (team : Nat) (t : Team) (c : Nat) : Crew :=
  { team := team, crewId := c, alloc := g.regs, core := t.cores.getD (c / (g.crews / t.cores.length)) 0, quad := c % 4
    htab := g.htabv, arch := g.launchArch, chunk := { start := g.launchArch } }

/-- The lowest free slot of a quadrant. -/
def State.freeSlot (s : State) (q : Nat) : Nat :=
  ((List.range Config.quadSlots).find? fun k => !((s.slotsOf q).any fun c => c.slot == k)).getD 0

/-- A crew takes a slot. -/
def State.addCrew (s : State) (c : Crew) : State :=
  { s with crews := s.crews ++ [{ c with slot := s.freeSlot c.quadNo, readySince := s.clock.toNat }] }

/-- A fresh team becomes resident. The instruction caches of its cores are invalidated, whatever code they hold (R380). -/
def State.enterTeam (s : State) (gi linear : Nat) (cores : List Nat) (w p : Nat) : State :=
  let g := s.grid gi
  let t : Team := { grid := gi, linear := linear, cores := cores, window := w, pool := p, place := .resident, launched := s.tickets }
  let n := s.teams.length
  let s := { s with teams := s.teams ++ [t], tickets := s.tickets + 1,
                      copies := s.copies.filter fun x => !(cores.any fun k => x.unit == CacheUnit.code k) }
  let s := s.freshStorage t
  (List.range g.crews).foldl (fun s c => s.addCrew (freshCrew g n t c)) s

/-! ## Saving and restoring a team (R406, R409, R410) -/

/-- The words of a reservation record. -/
def Resv.words (r : Option Resv) : List TWord :=
  match r with
  | none => [⟨.int, 0⟩, ⟨.int, 0⟩]
  | some r => [⟨.int, BitVec.ofNat 64 (2 ^ 63 + r.soff * 2 ^ 42 + (if r.blen = 32 then 2 ^ 41 else 0) + r.fmt.code * 2 ^ 35
      + r.size * 2 ^ 17 + r.base)⟩, ⟨.int, BitVec.ofNat 64 r.moff⟩]

/-- Bytes as RAW words. -/
def byteWords (bs : List Byte) : List TWord := rawWords (bs.length / 8) bs

/-- A team's reservations in a quadrant, in index order. -/
def State.teamResv (s : State) (t q : Nat) : List Resv :=
  (List.range Config.reservations).filterMap fun k => (s.quad q).resv.find? fun r => r.index == k && r.team == t

/-- The core section of a team record, without the crews. -/
def State.coreSection (s : State) (ti core : Nat) : List TWord :=
  let t := s.team ti
  let g := s.grid t.grid
  let base := t.scratch core 0
  let presence := (List.range (g.windowBytes / 2048)).map fun k =>
    (⟨.int, BitVec.ofNat 64 (((List.range 64).filter fun b => !s.absent.contains (base / 32 + 64 * k + b)).map fun b => 2 ^ b).sum⟩ : TWord)
  let r := s.region core ti
  let hash : List TWord := if !r.held then [] else
    [⟨.int, r.stat⟩, ⟨.int, BitVec.ofNat 64 r.base⟩, ⟨.int, BitVec.ofNat 64 r.cap⟩, ⟨.int, 0⟩]
      ++ (List.range (2 ^ r.b)).flatMap fun j => match SMap.get? r.slots j with
        | some e => [e.key.word, e.val]
        | none => [.undef, .undef]
  let quads := (List.range 4).map fun q => 4 * core + q
  let resv := quads.flatMap fun q => (List.range Config.reservations).flatMap fun k =>
    Resv.words ((s.teamResv ti q).find? fun r => r.index == k)
  let obuf := quads.flatMap fun q => (s.teamResv ti q).flatMap fun r =>
    byteWords ((List.range r.size).map fun j => (s.quad q).ob (r.base + j))
  let acc := if !g.four then [] else quads.flatMap fun q =>
    ((List.range 16384).map fun j => (⟨.raw, (s.quad q).accAt (2 * j / 256) ((2 * j + 1) % 256)
        ++ (s.quad q).accAt (2 * j / 256) (2 * j % 256)⟩ : TWord))
      ++ byteWords (Memory.bytes s.mem (scaleKey + q * 2 ^ 14) (2 ^ 14))
  s.peekWords base (g.windowBytes / 8) ++ presence ++ hash ++ resv ++ obuf ++ acc

/-- The crews of a team that sit in its slots, on a core. -/
def State.teamCrews (s : State) (ti core : Nat) (place : Place) : List Nat :=
  (List.range s.crews.length).filter fun k =>
    (s.crew k).team == ti && (s.crew k).core == core && (s.crew k).place == place && !(s.crew k).isComposite

/-- Words padded to a multiple of 64 bytes. -/
def padWords (ws : List TWord) : List TWord := ws ++ List.replicate ((8 - ws.length % 8) % 8) ⟨.int, 0⟩

/-- The whole record of a team: its words, and the word at which each crew's record begins. -/
def State.teamRecord (s : State) (ti : Nat) : List TWord × List (Nat × Nat) :=
  let t := s.team ti
  let g := s.grid t.grid
  let head : TWord := ⟨.int, BitVec.ofNat 64 (t.linear + t.cores.length * 2 ^ 52 + g.crews / t.cores.length * 2 ^ 56)⟩
  t.cores.foldl (fun acc core =>
    let acc := (acc.1 ++ s.coreSection ti core, acc.2)
    (s.teamCrews ti core .resident).foldl (fun acc k => (acc.1 ++ padWords ((s.crew k).record s.seqOf), acc.2 ++ [(k, acc.1.length)])) acc)
    ([head], [])

/-- Does a request that a home has parked belong to a team? -/
def ParkedReq.ofTeam (s : State) (ti : Nat) : ParkedReq → Bool
  | .red k _ _ _ _ | .atomic k _ _ => (s.crew k).team == ti
  | .log t _ => t == ti
  | .sector _ _ => false

/-- Is every crew of a team at rest, so that the team can be saved: nothing of a chunk, no accepted matrix instruction but an `obres`
without space (R130, R279), no reply or acknowledgement of its own still out, no engine command of the team in hand, no
request of it parked at a home? -/
def State.teamAtRest (s : State) (ti : Nat) : Bool :=
  let quiet (k : Nat) : Bool :=
    let c := s.crew k
    c.team != ti || c.place != .resident
      || (!c.isComposite && !c.dirty && c.chunk.phase == .running && c.doom.isNone && c.expansion.isNone
        && (decide (c.matched ≤ c.arch.matrixNo) || c.wake == some .obres) && s.token != some k && (s.quad c.quadNo).busy == 0
        && (match c.wake with
          | some (.far _) | some .engine | some .fence | some .parked => false
          | _ => true))
  (List.range s.crews.length).all quiet && !(s.parked.any fun p => p.req.ofTeam s ti)
    && !(s.engines.any fun e => (e.2.pend ++ e.2.queue).any fun q => q.team == ti)
    && !(s.far.any fun f => match f.use with
      | .sector _ t _ _ => t == ti
      | _ => false)

/-- Save a team and free what it holds (R382, R406); none when the record does not fit. A crew that has called `svc` parks. -/
def State.saveTeam (s : State) (ti : Nat) : Option State :=
  let s := ((List.range s.crews.length).filter fun k => (s.crew k).team == ti).foldl (fun s k =>
    let c := (s.crew k).drainAll
    let c := match c.wake with
      | some (.sector _) | some .home | some .yielded => { c with wake := none }
      | _ => c
    let s := s.setCrew k { c with preempt := false, tokenAsked := false }
    let s := { s with tokenQueue := s.tokenQueue.filter fun x => x != k }
    if c.svcLeft.isSome && c.wake.isNone then s.parkSvc k else s) s
  let t := s.team ti
  let (ws, marks) := s.teamRecord ti
  let ws := padWords ws
  match s.takeSave (s.grid t.grid).asid (8 * ws.length) with
  | none => none
  | some (s, x, off) =>
    let s := s.pokeWords (x.savebase + off) ws
    let s := marks.foldl (fun s m =>
      let c := s.crew m.1
      s.setCrew m.1 { c with place := .waiting, saveAt := some (off + 8 * m.2, 0), chunk := { start := c.arch } }) s
    let saved := (List.range t.cores.length).flatMap fun j => (List.range 4).flatMap fun q =>
      (s.teamResv ti (4 * t.cores.getD j 0 + q)).map fun r => (4 * j + q, r)
    let s := { s with quads := s.quads.map fun (q : Nat × Quad) => (q.1, { q.2 with resv := q.2.resv.filter fun r => r.team != ti }) }
    some (s.setTeam ti { t with place := .saved, saveAt := some (off, 8 * ws.length), saved := saved, leaving := false })

/-- Put a core section back on a core; the answer is the key behind it. -/
def State.loadSection (s : State) (ti j k : Nat) : State × Nat :=
  let t := s.team ti
  let g := s.grid t.grid
  let core := t.cores.getD j 0
  let base := t.scratch core 0
  let n := g.windowBytes / 8
  let s := (s.clearScratch base g.windowBytes).pokeWords base (s.peekWords k n)
  let k := k + 8 * n
  let s := { s with absent := unionNat s.absent (((List.range (g.windowBytes / 32)).filter fun i =>
    !(Memory.nat s.mem (k + i / 64 * 8) 8).testBit (i % 64)).map fun i => base / 32 + i) }
  let k := k + g.windowBytes / 256
  let r := s.region core ti
  let k := if r.held then k + 32 + 16 * 2 ^ r.b else k
  let k := k + 4 * 256
  let (s, k) := (List.range 4).foldl (fun (a : State × Nat) q =>
    ((t.saved.filter fun x => x.1 == 4 * j + q).map Prod.snd).foldl (fun (a : State × Nat) r =>
      let qd := a.1.quad (4 * core + q)
      let bs := Memory.bytes a.1.mem a.2 r.size
      let qd := { qd with
        resv := qd.resv ++ [r]
        obuf := (List.range r.size).foldl (fun m x => SMap.put 0 m (r.base + x) (bs.getD x 0)) qd.obuf }
      (a.1.setQuad (4 * core + q) qd, a.2 + r.size)) a) (s, k)
  if !g.four then (s, k)
  else (List.range 4).foldl (fun (a : State × Nat) q =>
    let qd := a.1.quad (4 * core + q)
    let acc := (List.range 32768).foldl (fun m e =>
      SMap.put 0 m e (BitVec.ofNat 32 (Memory.nat a.1.mem (a.2 + 4 * e) 4))) []
    let s := a.1.setQuad (4 * core + q) { qd with acc := acc }
    let s := s.pokeBytes (scaleKey + (4 * core + q) * 2 ^ 14) (Memory.bytes s.mem (a.2 + 131072) (2 ^ 14))
    (s, a.2 + 147456)) (s, k)

/-- The crews of a saved team that come back with it, by core and quadrant. -/
def State.savedAllocs (s : State) (ti : Nat) (j q : Nat) : List Nat :=
  let t := s.team ti
  (s.crews.filter fun c => c.team == ti && c.place == .waiting && c.core == t.cores.getD j 0 && c.quad == q).map Crew.alloc

/-- Are the saved reservations of a team free on some cores (R130)? While the team is away other teams may use these ranges, and it is
restored only where they are free again (DESIGN CHOICE, entry 60). -/
def State.resvFree (s : State) (ti : Nat) (cores : List Nat) : Bool :=
  (s.team ti).saved.all fun x =>
    (s.quad (4 * cores.getD (x.1 / 4) 0 + x.1 % 4)).resv.all fun r =>
      r.index != x.2.index && (decide (r.base + r.size ≤ x.2.base) || decide (x.2.base + x.2.size ≤ r.base))

/-- A wake condition when its team moves: to which core, and to which scratch key. -/
def Wake.moved (core key : Nat → Nat) : Wake → Wake
  | .queuePop q k lanes dest => .queuePop q (core k) lanes dest
  | .queuePush q k items => .queuePush q (core k) items
  | .barrier ks => .barrier (ks.map key)
  | w => w

/-- A saved team becomes resident again, on cores with its window and pool at `w` and `p`: crews that parked alone stay parked
and belong to the new cores; what waits at its queues and barriers waits at them there. A team that R99 launches again
comes back empty. -/
def State.restoreTeam (s : State) (ti : Nat) (cores : List Nat) (w p : Nat) : State :=
  let old := s.team ti
  let asid := (s.grid old.grid).asid
  match old.saveAt, s.ctxOf asid with
  | some (off, bytes), some x =>
    let move (k : Nat) : Nat := match (List.range old.cores.length).find? fun j => old.cores.getD j 0 == k with
      | some j => cores.getD j 0
      | none => k
    let rekey (k : Nat) : Nat := scratchKey + move (keyCore k) * 2 ^ 20 + (k - scratchKey) % 2 ^ 20 - old.window + w
    let s := s.setTeam ti { old with
      cores := cores, window := w, pool := p, place := .resident, launched := s.tickets
      pushes := old.pushes.map fun x => { x with core := move x.core }
      badQueues := old.badQueues.map fun x => (move x.1, x.2) }
    let s := { s with
      tickets := s.tickets + 1
      hash := s.hash.map fun r => if r.team == ti then { r with core := move r.core } else r
      grids := s.grids.map fun (g : Grid) => match g.origin with
        | .device t _ => if t == ti then { g with dcore := move g.dcore } else g
        | .command _ _ => g
      crews := s.crews.map fun c => if c.team == ti && c.place != .retired then
          { c with core := move c.core, wake := c.wake.map fun x => x.moved move rekey } else c }
    let s := ((List.range s.crews.length).filter fun k => (s.crew k).team == ti && (s.crew k).place == .saved).foldl State.rewriteRecord s
    if old.again then
      let s := s.freshStorage (s.team ti)
      let s := ((List.range s.crews.length).filter fun k => (s.crew k).team == ti && (s.crew k).place == .waiting).foldl (fun s k =>
        let c := s.crew k
        s.setCrew k { c with place := .resident, saveAt := none, slot := s.freeSlot c.quadNo, readySince := s.clock.toNat }) s
      (s.setTeam ti { s.team ti with saveAt := none, saved := [], again := false }).giveSave asid bytes
    else
    let step (a : State × Nat) (j : Nat) : State × Nat :=
      let a := a.1.loadSection ti j a.2
      let mine := a.1.teamCrews ti (cores.getD j 0) .waiting
      mine.foldl (fun (a : State × Nat) k =>
        let c := a.1.crew k
        let at' := x.savebase + (match c.saveAt with
          | some (o, _) => o
          | none => 0)
        let arch := a.1.reloadArch at' c
        let c' : Crew := { c with place := .resident, saveAt := none, arch := arch, chunk := { start := arch },
                                  slot := a.1.freeSlot c.quadNo, readySince := a.1.clock.toNat }
        let c' := if c'.hasReplies then c'.takeReplies.freshChunk else c'
        (a.1.setCrew k c', a.2 + 8 * (padWords (c.record id)).length)) a
    let s := ((List.range cores.length).foldl step (s, x.savebase + off + 8)).1
    let t := s.team ti
    (s.setTeam ti { t with saveAt := none, saved := [] }).giveSave asid bytes
  | _, _ => s

/-! ## Placing gangs (R52, R379, R381) -/

/-- A team of a gang to place: fresh with its linear number, or saved with its place in `teams`. -/
inductive Placing where
  | fresh (gi linear : Nat)
  | saved (ti : Nat)
  deriving DecidableEq, Repr

/-- The first core, or the four cores, of a cluster that a team fits on. -/
def State.placeTeam (s : State) (cl : Nat) (p : Placing) : Option State :=
  if s.fused.contains cl then none
  else
    let (g, n, allocs) : Grid × Option Nat × (Nat → Nat → List Nat) := match p with
      | .fresh gi _ => (s.grid gi, s.spreadOf (s.grid gi), freshAllocs (s.grid gi) ((s.spreadOf (s.grid gi)).getD 1))
      | .saved ti => (s.grid (s.team ti).grid, some (s.team ti).cores.length, s.savedAllocs ti)
    let sites := match n with
      | some 1 => (clusterCores cl).map fun k => [k]
      | some _ => [clusterCores cl]
      | none => []
    let ok (cores : List Nat) : Option State := match s.fits g cores allocs with
      | none => none
      | some (w, q) => match p with
        | .fresh gi linear => some (s.enterTeam gi linear cores w q)
        | .saved ti => if s.resvFree ti cores then some (s.restoreTeam ti cores w q) else none
    sites.findSome? ok

/-- Place teams in order from a cluster on: a team that does not fit beside the last one goes to the next cluster. -/
def State.placeFrom (s : State) (cl : Nat) (first : Bool) : List Placing → Option State
  | [] => some s
  | p :: rest => match s.placeTeam cl p with
    | some s' => State.placeFrom s' cl false rest
    | none =>
      if first || cl % 12 == 11 then none
      else match s.placeTeam (cl + 1) p with
        | some s' => State.placeFrom s' (cl + 1) false rest
        | none => none

/-- Place a gang on a die: the lowest unbroken range of clusters that holds it (DESIGN CHOICE, entry 12). -/
def State.placeGang (s : State) (die : Nat) (ps : List Placing) : Option State :=
  (List.range 12).findSome? fun k => s.placeFrom (12 * die + k) true ps

/-- The teams of a fresh gang. -/
def gangOf (gi : Nat) (g : Grid) (gang : Nat) : List Placing := (List.range g.teams).map fun j => .fresh gi (gang * g.teams + j)

/-- Gangs of a grid. -/
def Grid.gangs (g : Grid) : Nat := g.ntx * g.nty * g.ntz / g.teams

/-- Can a gang of the grid be placed on the die when it is empty? -/
def State.dieCanHold (s : State) (gi die : Nat) : Bool := (s.emptied.placeGang die (gangOf gi (s.grid gi) 0)).isSome

/-- Free crew slots of a die. -/
def State.freeSlots (s : State) (die : Nat) : Nat :=
  ((List.range 12).filter fun c => !s.fused.contains (12 * die + c)).length * 4 * 4 * Config.quadSlots
    - (s.crews.filter fun c => c.place == .resident && !c.isComposite && c.core / 48 == die).length

/-- The die a gang goes to (R379): of the dies that can hold it, the one with most free slots, the lowest of equals; a device
launch stays on the die it was made on (R383). -/
def State.dieFor (s : State) (gi : Nat) : Nat :=
  match (s.grid gi).origin with
  | .device _ core => core / 48
  | .command _ _ =>
    let ds := (List.range 4).filter fun d => s.dieCanHold gi d
    ds.foldl (fun best d => if s.freeSlots best < s.freeSlots d || !ds.contains best then d else best) 0

/-- The next gang of a grid becomes eligible: it joins the waiting gangs of its die. -/
def State.offerGang (s : State) (gi : Nat) : State :=
  let g := s.grid gi
  if g.gangs ≤ g.nextGang || g.status.isSome then s
  else
    let s' := s.setGrid gi { g with nextGang := g.nextGang + 1 }
    { s' with waiting := s'.waiting ++ [{ grid := gi, gang := g.nextGang, die := s.dieFor gi, prio := g.prio, since := s.clock.toNat }] }

/-! ## Completion of grids (R374, R378) -/

/-- A grid completes with a status; its command's record follows (R375). -/
def State.endGrid (s : State) (gi status : Nat) : State :=
  let g := s.grid gi
  if g.status.isSome then s
  else { s.setGrid gi { g with status := some status } with waiting := s.waiting.filter fun w => w.grid != gi }

/-- A completed command gets its status and TIME (R375). -/
def State.endCommand (s : State) (q k status : Nat) : State :=
  { s with queues := s.queues.map fun x => if x.q == q then
      { x with cmds := x.cmds.map fun c => if c.k == k && c.status.isNone then { c with status := some status, time := s.clock } else c }
      else x }

/-- Store a word in a context's memory as an event, with its tag where the page keeps tags; nothing where it does not
translate. -/
def State.storeInCtx (s : State) (asid : Nat) (va : BitVec 64) (w : TWord) : State :=
  match s.walkNow asid va.toNat false true false with
  | .fault _ => s
  | .ok p =>
    let s := s.eventWord none (p.key va.toNat) w.payload
    if p.tagged then s.pokeTag (p.key va.toNat / 8) w.tag else s

/-- Is the event of DKIND possible now: a saved launching team is waited for. -/
def State.noticeReady (s : State) (g : Grid) : Bool :=
  match g.origin with
  | .device t _ => g.dkind < 2 || (s.team t).place != .saved
  | .command _ _ => true

/-- The event that DKIND names, with the status (R378); none for a grid that died. -/
def State.notifyGrid (s : State) (gi : Nat) : State :=
  let g := s.grid gi
  let st := g.status.getD 0
  let s := s.setGrid gi { g with notified := true }
  let s := match g.origin with
    | .command q k => s.endCommand q k st
    | .device _ _ => s
  if st = 3 then s
  else match g.dkind, g.origin with
    | 1, _ => s.storeInCtx g.asid (BitVec.ofNat 64 g.daddr) ⟨.int, BitVec.ofNat 64 (0x100000000 + st)⟩
    | 2, .device t _ =>
      let x := s.team t
      if x.place != .resident then s
      else match scratchOf x (s.grid x.grid) g.dcore (BitVec.ofNat 64 g.daddr) 16 16 with
        | .ok k _ _ _ => if barrierBad (s.peekWord k) then s else s.countBarrier t g.dcore k 1 1
        | _ => s
    | 3, .device t _ =>
      if (s.team t).place != .resident then s
      else (s.pushFor t g.dcore g.dq
        (makeWord .tile (BitVec.ofNat 64 (4 * 2 ^ 60 + g.dtoken % 2 ^ 52 * 2 ^ 8 + st)))).getD s
    | _, _ => s

/-- Completed grids whose completion events are still due; none is performed while the commit token is held (R84). -/
def State.pumpGrids (s : State) : State :=
  if s.token.isSome then s
  else (List.range s.grids.length).foldl (fun s gi =>
    let g := s.grid gi
    if g.status.isSome && !g.notified && s.noticeReady g then s.notifyGrid gi else s) s

/-! ## The launch record (R376, R377) -/

/-- Bytes at a virtual address of a context that may be read; none where some do not translate. -/
def State.readCtx (s : State) (asid : Nat) : Nat → Nat → Option (List TWord)
  | _, 0 => some []
  | va, n + 1 =>
    match s.walkNow asid va true false false with
    | .fault _ => none
    | .ok p =>
      let k := p.key va
      let w : TWord := ⟨if p.tagged then Tags.read s.tags (k / 8) else .int, BitVec.ofNat 64 (Memory.nat s.mem k 8)⟩
      (State.readCtx s asid (va + 8) n).map fun ws => w :: ws

/-- The macro records (R357): NMAC of them from an address on. -/
def State.readMacros (s : State) (asid : Nat) : Nat → Nat → Option (List MacroBody)
  | _, 0 => some []
  | va, m + 1 =>
    match s.readCtx asid va 1 with
    | some [h] =>
      let n := h.payload.toNat / 256
      if n < 1 ∨ 32 < n then none
      else match s.readCtx asid (va + 8) n with
        | none => none
        | some ws => (State.readMacros s asid (va + 8 + 8 * n) m).map fun bs =>
          ⟨h.payload.toNat % 256, ws.map TWord.payload⟩ :: bs
    | _ => none

/-- The feature block (R355, R377): the routes of the bits that the device lacks; none when a required bit has no entry. Reserved bits
of an entry that are not 0 refuse nothing and are ignored: R6, R355 and R377 give no response to them (DESIGN CHOICE, entry 60). -/
def State.readFeat (s : State) (asid va : Nat) : Option (List Route) :=
  match s.readCtx asid va 520 with
  | none => none
  | some ws =>
    let word (k : Nat) : Nat := (ws.getD k .nil).payload.toNat
    let entries : List (Nat × Route) := (List.range 256).filterMap fun n =>
      let w := word (8 + 2 * n)
      if w = 0 ∧ word (9 + 2 * n) = 0 then none
      else some (w % 512, { byte := n, sub := w.testBit 24, num := w / 2 ^ 32 % 256, routine := word (9 + 2 * n) })
    let used := entries.filter fun e => !Config.featureMask.testBit e.1
    let needed := (List.range 512).filter fun b => (word (b / 64)).testBit (b % 64) && !Config.featureMask.testBit b
    if needed.all fun b => used.any fun e => e.1 == b then some (used.map Prod.snd) else none

/-- A queue binding (R108, R350); none when it breaks R108. -/
def parseBind (w0 w1 : Nat) (window : Nat) : Option QBind :=
  let b : QBind := { q := w0 % 32, cap := w0 / 2 ^ 16 % 2 ^ 11, addr := w0 / 2 ^ 32 % 2 ^ 23, allow := w1 }
  let off := b.addr % 2 ^ 20
  if w0 != b.q + b.cap * 2 ^ 16 + b.addr * 2 ^ 32 || !(QHead.ok ⟨b.cap, 0, 0, 0⟩) || off % 64 != 0
      || (b.addr / 2 ^ 22 == 0 && b.addr / 2 ^ 20 % 4 != 0) || decide (window < off + 64 + 8 * b.cap)
      || decide (2 ^ 32 ≤ w1) then none
  else some b

def parseBinds (window : Nat) : List TWord → Option (List QBind)
  | a :: b :: rest => match parseBind a.payload.toNat b.payload.toNat window, parseBinds window rest with
    | some x, some xs => if xs.any fun y => y.q == x.q then none else some (x :: xs)
    | _, _ => none
  | _ => some []

/-- The grid that a record of 16 words describes; none when the record is refused (R377). `issuer` is the context of a
`lnch`. -/
def State.parseRecord (s : State) (w : Nat → Nat) (origin : Origin) (issuer : Option Nat) : Option Grid :=
  let dev := issuer.isSome
  let fl := w 8
  let g : Grid :=
    { origin := origin, asid := w 9, codebase := w 0, codesize := w 1 / 2 ^ 32, entry := w 1 % 2 ^ 32, htabv := w 2
      ntx := w 5 % 2 ^ 16, nty := w 5 / 2 ^ 16 % 2 ^ 16, ntz := w 5 / 2 ^ 32
      crews := w 6 % 256, teams := w 6 / 256 % 256, regs := w 6 / 2 ^ 16
      obuf := w 7 / 2 ^ 40, hash := w 7 / 2 ^ 20 % 2 ^ 20, scratch := w 7 % 2 ^ 20
      prio := fl / 2 ^ 8 % 8, prof := fl.testBit 4, idem := fl.testBit 2, four := fl.testBit 1, c16 := fl.testBit 0
      debug := fl.testBit 3 || (dev && (s.ctxOf (w 9)).any Ctx.debug)
      dkind := w 11 % 4, dq := w 11 / 4, daddr := w 12, dtoken := w 13
      dcore := match origin with
        | .device _ core => core
        | .command _ _ => 0 }
  let nmac := fl / 2 ^ 16
  let live := (s.ctxOf g.asid).any fun c => c.state == .live
  if g.codebase % 65536 != 0 || decide (g.codesize < 8) || g.codesize % 8 != 0 || g.entry % 8 != 0 || decide (g.codesize ≤ g.entry)
      || g.htabv % 8 != 0 || w 3 % 8 != 0 || w 4 % 64 != 0 || decide (2 ^ 16 ≤ g.ntz) || g.ntx == 0 || g.nty == 0 || g.ntz == 0
      || g.crews == 0 || decide (192 < g.crews) || g.teams == 0 || decide (12 < g.teams)
      || decide (g.regs < 24) || decide (224 < g.regs) || g.regs % 8 != 0
      || decide (131072 < g.obuf) || decide (786432 < g.hash) || decide (786432 < g.scratch)
      || decide (256 < nmac) || fl / 2 ^ 11 % 32 != 0 || fl / 2 ^ 5 % 8 != 0 || decide (2 ^ 16 ≤ w 9) || w 10 % 64 != 0
      || decide (32 ≤ g.dq) || decide (2 ^ 52 ≤ w 13) || w 14 % 8 != 0 || decide (32 < w 15)
      || g.ntx * g.nty * g.ntz % g.teams != 0 || (g.four && (g.crews % 4 != 0 || g.c16)) || !live
      || (match issuer with | some a => a != g.asid | none => decide (2 ≤ g.dkind))
      || (g.dkind == 1 && g.daddr % 8 != 0)
      || (g.dkind == 2 && (decide (2 ^ 20 ≤ g.daddr) || g.daddr % 16 != 0)) then none
  else
    match (if w 10 = 0 then some (List.replicate 8 TWord.nil) else s.readCtx g.asid (w 10) 8),
      (if w 3 = 0 then some [] else s.readMacros g.asid (w 3) nmac),
      (if w 4 = 0 then some [] else s.readFeat g.asid (w 4)),
      (if w 14 = 0 then some [] else (s.readCtx g.asid (w 14) (2 * w 15)).bind (parseBinds g.windowBytes)) with
    | some args, some bodies, some routes, some binds => some { g with args := args, bodies := bodies, routes := routes, binds := binds }
    | _, _, _, _ => none

/-- A valid grid enters: it completes at once with LAUNCH_RESOURCE, or its first gang becomes eligible (R377, R381). -/
def State.launchGrid (s : State) (g : Grid) : State :=
  let gi := s.grids.length
  let s := { s with grids := s.grids ++ [g] }
  let holds := match g.origin with
    | .command _ _ => (List.range 4).any fun d => s.dieCanHold gi d
    | .device _ core => s.dieCanHold gi (core / 48)
  if (s.spreadOf g).isNone || !holds then s.endGrid gi 1 else s.offerGang gi

/-! ## lnch (R305) -/

/-- Records in a die's device-launch queue: those with a gang not placed yet. -/
def State.lnchWaiting (s : State) (die : Nat) : Nat :=
  ((List.range s.grids.length).filter fun gi =>
    let g := s.grid gi
    (match g.origin with
      | .device _ core => core / 48 == die
      | .command _ _ => false) && g.status.isNone
      && (decide (g.nextGang < g.gangs) || s.waiting.any fun w => w.grid == gi && !w.saved)).length

/-- `lnch`: once for the bundle, by the lowest lane; every lane gets the status. -/
def lnchBody (o : XOps) : Body := fun s ci c lanes =>
  let i : Instr := .lnch o
  let w := s.opnd i c (lanes.headD 0) 1
  if w.tag != .int then allTrap i s c lanes TrapName.tag.code
  else match s.globalAddr c w.payload 128 true false with
    | .trap code => allTrap i s c lanes code
    | .xfault va cause => .xfault va cause false
    | .ok k _ _ page =>
      let asid := s.asidOf c
      let (s', st) : State × Nat :=
        if Config.lnchQueue ≤ s.lnchWaiting (c.core / 48) then (s, 2)
        else match s.parseRecord (fun j => Memory.nat s.mem (k + 8 * j) 8) (.device c.team c.core) (some asid) with
          | none => (s, 1)
          | some g => ((s.setCrew ci c).launchGrid { g with prio := min g.prio (s.gridOf c).prio }, 0)
      .ok s' (c.usePage? page) (lanes.map fun l => { lane := l, writes := [(s.destOf i c l, ⟨.int, BitVec.ofNat 64 st⟩)] }) false

def execLnch (o : XOps) (s : State) : Out := issue (.lnch o) (lnchBody o) s

end Sys2Proof.Machine
end

