-- ==== Sys2Proof/Machine/Links.lean ====
section
/-! DEFINITION. Far operations at their destination, and their answers (R95, R261, R262, R265, R298, R424, R425, R427); the
ports and the route table (R423, R426, R428). -/

namespace Sys2Proof.Machine

open Sys2Proof

/-! ## The exported window (R424) -/

/-- A context that may run: its slot is LIVE (R387). -/
def State.ctxLive (s : State) (asid : Nat) : Bool := (s.ctxOf asid).any fun c => c.state == .live

/-- Why an offset of the exported window cannot be accessed: FARLOG's reason, 2 outside the window, 3 a page that cannot be
served (R427); or a translation fault that the host of this device may service (R262). -/
inductive FarBad where
  | refuse (reason : Nat)
  | fault (va cause : Nat) (write : Bool)
  deriving DecidableEq, Repr

/-- The context of the exported window. -/
def State.exportAsid (s : State) : Nat := field (s.bar 0x28F0008) 15 0

/-- The key behind an offset of the exported window and whether its page is TAGGED. A page that does not translate is serviced
while its context is LIVE; an address outside the canonical range, or a poisoned line, never can be (R262, DEDUCED, entry
55). -/
def State.exportKey (s : State) (off : Nat) (r w : Bool) : Except FarBad (Nat × Bool) :=
  let asid := s.exportAsid
  if !(s.bar 0x28F0008).getLsbD 16 || decide ((s.bar 0x28F0018).toNat ≤ off) then .error (.refuse 2)
  else if !s.ctxLive asid then .error (.refuse 3)
  else
    let va := (s.bar 0x28F0010).toNat + off
    match s.walkNow asid va r w false with
    | .fault cause => if cause = 6 ∨ cause = poisonCause then .error (.refuse 3) else .error (.fault va cause w)
    | .ok p => if r && s.poisonedAt (p.key va) then .error (.refuse 3) else .ok (p.key va, p.tagged)

/-- The fault record that a far operation waits for, if its page is in service (R262). -/
def State.farFault? (s : State) (va : Nat) : Option FaultRec :=
  s.faults.find? fun f => f.asid == s.exportAsid && f.va.toNat / 65536 == va / 65536

/-- What performing a far operation gives: the state with the answer's words (none for a bare acknowledgement), a refusal, a
fault to be serviced, or a wait for a grant, an engine, a scrub lock, the commit token or a fault in service. -/
inductive FarGot where
  | done (s : State) (a : FarAnswer)
  | refuse (reason : Nat)
  | fault (va cause : Nat) (write : Bool)
  | wait

/-- Where an offset cannot be accessed. -/
def State.farBad (s : State) : FarBad → FarGot
  | .refuse reason => .refuse reason
  | .fault va cause w => if (s.farFault? va).any FaultRec.far then .wait else .fault va cause w

/-- A far operation waits for the service of a fault: one on the same page, or a new one, whose record names no core (R262, R396,
R397, DESIGN CHOICE, entry 55). -/
def State.farFault (s : State) (va cause : Nat) (write : Bool) : State :=
  match s.farFault? va with
  | some f => { s with faults := s.faults.map fun g => if g.number = f.number then { g with far := true } else g }
  | none =>
    let f : FaultRec := { number := s.faultNo, va := BitVec.ofNat 64 va, asid := s.exportAsid, cause := cause, write := write,
                          fetch := false, engine := false, die := 0, core := 0, quad := 0, crews := [], far := true }
    { s with faults := s.faults ++ [f], faultNo := s.faultNo + 1 }.pumpFaults

/-- May no event touch the bytes now? -/
def State.eventWaits (s : State) (k n : Nat) : Bool := s.token.isSome || s.mustWait s.crews.length k n

/-- Write words under an access type's store row, as an event (R27). -/
def State.eventStore (s : State) (a : Acc) (ws : List TWord) (k : Nat) (tagged : Bool) : State :=
  let s := ((s.eventSquash none (eventLocs k a.bytes)).pokeBytes k (a.storeBytes ws)).noteUnflushed k
  if !tagged then s
  else
    let ts := a.storeTags ws
    (List.range ts.length).foldl (fun s j => s.pokeTag (k / 8 + j) (ts.getD j .raw)) s

/-- The keys of some window offsets. -/
def State.exportKeys (s : State) (r w : Bool) : List Nat → Except FarBad (List (Nat × Nat × Bool))
  | [] => .ok []
  | o :: rest => match s.exportKey o r w, State.exportKeys s r w rest with
    | .error e, _ => .error e
    | _, .error e => .error e
    | .ok k, .ok ks => .ok ((o, k) :: ks)

/-- One access of the exported window: the wait, or the work at its key. -/
def State.exportOne (s : State) (off n : Nat) (r w : Bool) (run : Nat → Bool → State × FarAnswer) : FarGot :=
  match s.exportKey off r w with
  | .error e => s.farBad e
  | .ok (k, tagged) => if s.eventWaits k n then .wait else let (s, a) := run k tagged; .done s a

/-- Lanes of an atomic at one key, in order: old words (R265). -/
def atomRun {α : Type} (one : State → α → State × TWord × Flags) : State → List α → State × List TWord
  | s, [] => (s, [])
  | s, x :: rest =>
    let (s, old, _) := one s x
    let (s, ws) := atomRun one s rest
    (s, old :: ws)

/-- A far operation performed at this device (R95, R261, R265, R298). -/
def State.performFar (s : State) (f : FarOp) : FarGot :=
  match f.body with
  | .read a => s.exportOne f.offset a.bytes true false fun k tagged =>
      (s, .reply (a.deliver tagged false (Tags.read s.tags (k / 8)) (Memory.bytes s.mem k a.bytes)))
  | .write a ws => s.exportOne f.offset a.bytes false true fun k tagged => (s.eventStore a ws k tagged, .ack)
  | .atomic op ty xs => s.exportOne (f.offset / 8 * 8) 8 true true fun k tagged =>
      let s := s.eventSquash none (eventLocs k 8)
      let (s, ws) := atomRun (fun s (x : Nat × TWord) => s.atomOne op ty (k + x.1) tagged x.2) s xs
      (s, .reply ws)
  | .cas ty xs => s.exportOne (f.offset / 8 * 8) 8 true true fun k tagged =>
      let s := s.eventSquash none (eventLocs k 8)
      let (s, ws) := atomRun (fun s (x : Nat × TWord × TWord) => s.casOne ty (k + x.1) tagged x.2.1 x.2.2) s xs
      (s, .reply ws)
  | .readBytes offs => match s.exportKeys true false offs with
    | .error e => s.farBad e
    | .ok ks =>
      if ks.any fun k => s.eventWaits k.2.1 1 then .wait
      else .done s (.reply (ks.map fun k =>
        ⟨if k.2.2 then Tags.read s.tags (k.2.1 / 8) else .raw, (Memory.read s.mem k.2.1).setWidth 64⟩))
  | .writeBytes cells => match s.exportKeys false true (cells.map Prod.fst) with
    | .error e => s.farBad e
    | .ok ks =>
      if ks.any fun k => s.eventWaits k.2.1 1 then .wait
      else
        let s := s.eventSquash none (ks.flatMap fun k => eventLocs k.2.1 1)
        .done ((ks.zip (cells.map Prod.snd)).foldl (fun s (x : (Nat × Nat × Bool) × TWord) =>
          let k := x.1.2.1
          let m := x.2.payload.toNat / 256 % 256
          let old := (Memory.read s.mem k).toNat
          let s := (s.pokeBytes k [BitVec.ofNat 8 ((old &&& (255 - m)) ||| (x.2.payload.toNat % 256 &&& m))]).noteUnflushed k
          if x.1.2.2 then s.pokeTag (k / 8) x.2.tag else s) s) .ack

/-- The plane on which a device's operations come: the first in their order that is up at both ends (R425). -/
def State.planeFrom (s : State) (src : Nat) : Option Nat :=
  ((List.range 18).map fun j => (s.devNum + j) % 18).find? fun p => s.portUp p && !(SMap.get 0 s.routes src).getLsbD p

/-- Send an answer: to the operation itself when this device issued it, else on its link. -/
def State.sendAnswer (s : State) (f : FarOp) (a : FarAnswer) : State :=
  let s := s.countTx (s.planeFrom f.src)
  if f.src = s.devNum then
    { s with far := s.far.map fun x => if x.op.seq = f.seq then { x with answer := some a } else x }
  else { s with linkOut := s.linkOut ++ [(f.src, f.seq, a)] }

/-- A far operation has been performed or refused: its number is done, its answer goes out. -/
def State.answerFar (s : State) (f : FarOp) (a : FarAnswer) : State :=
  { s with farSeen := SMap.set s.farSeen f.src (f.pair + 1) }.sendAnswer f a

/-- The answer that has been sent to an operation of another device. -/
def State.answered (s : State) (f : FarOp) : Option FarAnswer :=
  (s.linkOut.find? fun x => x.1 == f.src && x.2.1 == f.seq).map fun x => x.2.2

/-- FAR_OPERATION_ARRIVAL (R95, R425): a number below the next of its pair has been performed already, and is only answered
again. An operation that waits for the service of a fault stays the first to come (R262). -/
def execFarOperationArrival (f : FarOp) (s : State) : Out :=
  if f.dst != s.devNum then .next s
  else if f.pair < SMap.get 0 s.farSeen f.src then
    match s.answered f with
    | some a => .next ((s.countRx (s.planeFrom f.src)).sendAnswer f a)
    | none => .next (s.countRx (s.planeFrom f.src))
  else match s.performFar f with
    | .wait => .next s
    | .refuse e => .next ((s.countRx (s.planeFrom f.src)).answerFar f (.refusal e))
    | .fault va cause w =>
      let s := s.farFault va cause w
      .next (if f.src = s.devNum then s else { s with inbox := (0, .farOperationArrival f) :: s.inbox })
    | .done s' a => .next ((s'.countRx (s.planeFrom f.src)).answerFar f a)

/-! ## Answers (R95, R261, R297) -/

def State.farOut? (s : State) (seq : Nat) : Option FarOut := s.far.find? fun f => f.op.seq == seq

/-- An operation is over: fences that waited for it alone go on, engine commands that waited for it are finished. -/
def State.farDone (s : State) (seq : Nat) : State :=
  ({ s with far := s.far.filter fun f => f.op.seq != seq }).reapEngines.passFences

/-- A crew got the answer of one of the operations it waits for. -/
def Crew.farArrived (c : Crew) (seq : Nat) : Crew :=
  match c.wake with
  | some (.far ns) =>
    let rest := ns.filter fun n => n != seq
    Crew.freeLate { c with wake := if rest.isEmpty then none else some (.far rest) }
  | _ => c

/-- The lanes' old words of a far atomic: registers and flags (R160, R265). -/
def Crew.farAtomic (c : Crew) (body : FarBody) (lanes : List Nat) (dest : Field) (ws : List TWord) : Crew :=
  let flag (j : Nat) : Flags := match body with
    | .atomic op ty xs => (applyWord op ty (ws.getD j .nil).payload (xs.getD j (0, .nil)).2).2
    | _ => 0
  (List.range lanes.length).foldl (fun c j =>
    let l := lanes.getD j 0
    let c := if dest.toNat < 224 ∨ j = 0 then c.writeField dest.toNat l (ws.getD j .nil) else c
    c.raise l (flag j) false) c

/-- The bytes of a sector arrive from another device. -/
def Sector.fill (x : Sector) (offs : List Nat) (ws : List TWord) : Sector :=
  let at' (o : Nat) : TWord := ((offs.zip ws).find? fun p => p.1 == o).elim .nil Prod.snd
  { x with
    bytes := x.bytes.map fun b => { b with
      val := (b.wants.map fun p => (at' p.1).payload.toNat / 2 ^ p.2.1 % 2 ^ p.2.2.1 * 2 ^ p.2.2.2).foldl (· ||| ·) b.val
      wants := [] }
    tags := x.tags ++ x.tagWants.map fun w => (w.1, (at' (8 * w.2)).tag)
    tagWants := [] }

/-- FAR_REPLY (R261, R265, R298). -/
def execFarReply (seq : Nat) (ws : List TWord) (s : State) : Out :=
  match s.farOut? seq with
  | none => .next s.countStray
  | some f =>
    let s := s.countRx f.plane
    match f.use with
    | .regs ci lane dest _ =>
      let c := (List.range ws.length).foldl (fun c j =>
        c.writeField (if dest.toNat < 224 then dest.toNat + j else dest.toNat) lane (ws.getD j .nil)) (s.crew ci)
      .next ((s.setCrew ci (c.farArrived seq).freshChunk).farDone seq)
    | .atomic ci lanes dest =>
      let c := (s.crew ci).farAtomic f.op.body lanes dest ws
      .next ((s.setCrew ci (c.farArrived seq).freshChunk).farDone seq)
    | .sector _ team _ x => match f.op.body with
      | .readBytes offs => .next ((s.writeSector team (x.fill offs ws)).farDone seq)
      | _ => .next s
    | .store _ => .next s

/-- FAR_ACKNOWLEDGE (R95): a far store, or a sector of `xfar.put`, whose bytes its barrier then counts (R297). An operation that
returns words ends with its reply. -/
def execFarAcknowledge (seq : Nat) (s : State) : Out :=
  match s.farOut? seq with
  | none => .next s.countStray
  | some f =>
    let s := s.countRx f.plane
    match f.use with
    | .store _ => .next (s.farDone seq)
    | .sector _ team _ x => match f.op.body with
      | .writeBytes _ => .next ((match x.barrier with
        | some (core, k) => s.countEvent team core k x.count 0
        | none => s).farDone seq)
      | _ => .next s
    | _ => .next s

/-- The far address of an operation. -/
def farAddress (f : FarOp) : BitVec 64 := BitVec.ofNat 64 (2 ^ 63 + f.dst % 2 ^ 21 * 2 ^ 42 + f.offset % 2 ^ 42)

/-- A far operation has failed (R427): FARLOG, and the issuing context will be declared dead. -/
def State.farFailed (s : State) (f : FarOut) (reason : Nat) : State :=
  let ci := f.use.crew
  let s := s.setBar 0x28F0038 (BitVec.ofNat 64 (f.op.pair % 2 ^ 48 + reason % 256 * 2 ^ 48))
  { s with
    far := s.far.filter fun x => x.op.seq != f.op.seq
    dying := s.dying ++ [{ asid := s.asidOf (s.crew ci), cause := 5, crew := some ci, pc := f.pc, detail := farAddress f.op }] }

/-- FAR_REFUSAL (R427). -/
def execFarRefusal (seq reason : Nat) (s : State) : Out :=
  match s.farOut? seq with
  | some f => .next ((if reason = 1 then s else s.countRx f.plane).farFailed f reason)
  | none => .next (if reason = 1 then s else s.countStray)

/-- FARTIMEOUT in cycles: 1 to 1,000 ms, 10 by default (R428). -/
def State.farLimit (s : State) : Nat :=
  let v := (s.bar 0x28F0030).toNat
  (if v = 0 then 10 else v) * 1000 * Config.cyclesPerMicrosecond

/-- Has an operation waited for its acknowledgement too long? -/
def State.farLate (s : State) (f : FarOut) : Bool := decide (f.since + s.farLimit ≤ s.clock.toNat)

/-- FAR_TIMEOUT (R427). -/
def execFarTimeout (seq : Nat) (s : State) : Out :=
  match s.farOut? seq with
  | some f => .next (if s.farLate f then s.farFailed f 4 else s)
  | none => .next s

/-! ## Routes and ports (R423, R425, R426, R428) -/

/-- Read the route table: the entries that are not 0. -/
def State.readRoutes (s : State) : State :=
  let tab := (s.bar 0x28F0020).toNat
  let ds := s.mem.filterMap fun e => if tab ≤ e.1 ∧ e.1 < tab + 2 ^ 23 then some ((e.1 - tab) / 4) else none
  { s with routes := ds.foldl (fun m d => SMap.set m d (BitVec.ofNat 32 (Memory.nat s.mem (tab + 4 * d) 4))) [] }

/-- Operations that a test selects go out on the plane that is up now, where there is one. -/
def State.sendAgain (s : State) (t : FarOut → Bool) : State :=
  let now (f : FarOut) : FarOut := if t f then { f with plane := s.planeTo f.op.dst } else f
  (s.far.filter t).foldl (fun x f => x.countOut f.op.dst (s.planeTo f.op.dst)) { s with far := s.far.map now }

/-- Operations that no plane carries take the plane that is up now. -/
def State.releaseHeld (s : State) : State := s.sendAgain fun f => f.plane.isNone

/-- A route change (R426): what is not acknowledged is replayed in order on the newly chosen plane, the table is read again,
what was held goes on. -/
def State.rerouted (s : State) : State :=
  (s.sendAgain fun f => f.answer.isNone).readRoutes.releaseHeld

/-- REROUTE (R426, R428): the host writes 1. -/
def execReroute (s : State) : Out := .next s.rerouted

/-- A port changes: its going down has the effect of R426. -/
def State.setPort (s : State) (p : Nat) (x : Port) : State :=
  let s' := { s with ports := SMap.set s.ports p x }
  if s.portUp p && !s'.portUp p then s'.rerouted else s'.releaseHeld

/-- PCTL_WRITE (R428). -/
def execPctlWrite (port : Nat) (v : BitVec 64) (s : State) : Out :=
  if port < 18 then .next (s.setPort port { SMap.get {} s.ports port with en := v.getLsbD 0 }) else .next s

/-- LINK_PORT_DOWN (R423, R426): a port is left with some good lanes; below four it is down. -/
def execLinkPortDown (port lanes : Nat) (s : State) : Out :=
  if port < 18 ∧ lanes < 8 then .next (s.setPort port { SMap.get {} s.ports port with lanes := lanes }) else .next s

end Sys2Proof.Machine
end

