-- ==== Sys2Proof/Machine/Errors.lean ====
section
/-! DEFINITION. Dead contexts and relaunched teams (R99, R401-R404), the service of faults (R396-R399), soft errors (R405),
the watchdog (R403). -/

namespace Sys2Proof.Machine

open Sys2Proof

/-! ## Stopping teams (R402) -/

/-- Make present the sectors of a team's windows. -/
def State.presentWindows (s : State) (ts : List Nat) : State :=
  ts.foldl (fun s ti =>
    let t := s.team ti
    let n := (s.grid t.grid).windowBytes
    if t.place != .resident then s
    else
      let clear (a : Nat) : Bool := t.cores.all fun k => decide (32 * a < t.scratch k 0) || decide (t.scratch k 0 + n ≤ 32 * a)
      { s with absent := s.absent.filter clear }) s

/-- Stop teams: their crews end with their chunks in flight discarded, their grants, regrouping entries, reservations, hash
regions, engine commands, far operations and requests parked at the homes are dropped, and so are faults that nobody else waits
for. -/
def State.stopTeams (s : State) (ts : List Nat) : State :=
  let mine (k : Nat) : Bool := decide (k < s.crews.length) && ts.contains (s.crew k).team
  let s := s.presentWindows ts
  let quads := s.quads.map fun (q : Nat × Quad) =>
    let four := (ts.map s.team).any fun t => t.place == .resident && t.cores.contains (q.1 / 4) && (s.grid t.grid).four
    (q.1, { q.2 with
      resv := q.2.resv.filter fun r => !ts.contains r.team
      busy := if four then 0 else q.2.busy
      regroup := q.2.regroup.filter fun e => !ts.contains e.2.team })
  let engines := s.engines.map fun (e : Nat × Engine) =>
    (e.1, ({ pend := e.2.pend.filter fun q => !ts.contains q.team, queue := e.2.queue.filter fun q => !ts.contains q.team } : Engine))
  let heads (cl key : Nat) : Bool := (SMap.get {} engines cl).queue.any fun q => (q.sectors.head?.bind Sector.home) == some key
  { s with
    parked := s.parked.filter fun p => !(ts.any fun ti => p.req.ofTeam s ti) && (match p.req with
      | .sector cl key => heads cl key
      | _ => true)
    grants := s.grants.filter fun g => !mine g.2
    token := s.token.filter fun k => !mine k
    tokenQueue := s.tokenQueue.filter fun k => !mine k
    hash := s.hash.filter fun r => !ts.contains r.team
    quads := quads
    engines := engines
    far := s.far.filter fun f => !mine f.use.crew
    faults := (s.faults.map fun (f : FaultRec) => { f with crews := f.crews.filter fun k => !mine k }).filter fun f => f.far || !f.crews.isEmpty
    crews := s.crews.map fun (c : Crew) =>
      if ts.contains c.team then
        { c with place := .retired, homes := [], arch := {}, chunk := {}, pend := [], wake := none, expansion := none, preempt := false
                 svcLeft := none, replies := [], doom := none, saveAt := none, mreq := none }
      else c
    teams := (List.range s.teams.length).map fun ti =>
      if ts.contains ti then { s.team ti with place := .retired, pushes := [], saveAt := none, saved := [] } else s.team ti }

/-! ## Launching a team again (R99) -/

/-- May the teams of a declaration be launched again instead? -/
def State.relaunches (s : State) (d : Death) : Bool :=
  (d.cause == 3 || d.cause == 4) && !d.teams.isEmpty && d.teams.all fun ti =>
    let t := s.team ti
    (s.grid t.grid).idem && !t.published && t.place != .retired

/-- Kill a team and launch it again: at once where it is resident, else when it next becomes resident. Crews that were parked
come back as slots allow, and none issues before all are there (R51). -/
def State.relaunch (s : State) (ti : Nat) : State :=
  let t := s.team ti
  let g := s.grid t.grid
  let own := (List.range s.crews.length).filter fun k => (s.crew k).team == ti && !(s.crew k).isComposite
  let was (k : Nat) : Crew := s.crew k
  let s := own.foldl (fun s k => match (s.crew k).place, (s.crew k).saveAt with
    | .saved, some (_, bytes) => s.giveSave g.asid bytes
    | _, _ => s) s
  let s := s.stopTeams [ti]
  let apart := own.any fun k => (was k).place != .resident
  let t' : Team := { t with published := false, tbars := [], pushes := [], saved := [], badQueues := [] }
  let t' := { t' with again := t.place == .saved, gathering := t.place == .resident && apart }
  let s := s.setTeam ti t'
  let s := own.foldl (fun s k =>
    let f := freshCrew g ti t (was k).crewId
    s.setCrew k { f with
      core := (was k).core, slot := (was k).slot
      place := if t.place == .saved then .waiting else if (was k).place == .resident then .resident else .saved
      readySince := s.clock.toNat }) s
  if t.place == .resident then s.freshStorage t' else s

/-! ## The declaration (R402, R404) -/

/-- The failure record's words. -/
def State.failureRecord (s : State) (d : Death) : List (BitVec 64) :=
  let c := s.crew (d.crew.getD 0)
  let linear := (s.teamOf c).linear
  let on (n : Nat) : Nat := if d.crew.isSome then n else 0
  [BitVec.ofNat 64 (d.cause + (if d.cause = 1 then d.code * 2 ^ 8 else 0)),
    BitVec.ofNat 64 (on (c.core / 48 + c.core * 2 ^ 2 + c.quad * 2 ^ 10 + c.crewId * 2 ^ 12 + linear % 2 ^ 32 * 2 ^ 20)),
    d.lanes, d.pc, d.detail, s.clock, BitVec.ofNat 64 (on linear), 0]

/-- Teams of a context. -/
def State.ctxTeams (s : State) (asid : Nat) : List Nat :=
  (List.range s.teams.length).filter fun ti => (s.grid (s.team ti).grid).asid == asid && (s.team ti).place != .retired

/-- A context is declared dead: it is DYING, its crews have stopped, nothing of it goes on; the failure record is made up. -/
def State.declare (s : State) (x : Ctx) (d : Death) : State :=
  let r := s.failureRecord d
  let s := s.stopTeams (s.ctxTeams x.asid)
  { s.setCtx { x with state := .dying, wdcount := 0 } with
    waiting := s.waiting.filter fun w => (s.grid w.grid).asid != x.asid
    dying := (s.dying.filter fun e => e.asid != x.asid) ++ [{ d with record := r }] }

/-- A DYING context is dead: its translations, faults and lift bindings go, the failure record is written, its grids complete with
DEAD. -/
def State.killCtx (s : State) (x : Ctx) (d : Death) : State :=
  let s := { s with
    tlb := s.tlb.filter fun e => e.asid != x.asid
    faults := s.faults.filter fun f => f.asid != x.asid
    lifts := s.lifts.map fun (l : Nat × Lift) => if l.2.serves x.asid then (l.1, { l.2 with entries := [], en := false }) else l }
  let s := (List.range s.grids.length).foldl (fun s gi => if (s.grid gi).asid = x.asid then s.endGrid gi 3 else s) s
  let s := s.eventWrite none x.failrec (d.record.flatMap fun w => leBytes 8 w.toNat)
  s.setCtx { x with state := .dead, saveNext := 0, saveUsed := 0 }

/-- May the declaration be performed now? It is an event and waits while a crew holds the commit token (R85), but for one that the
holder itself has caused, or one of the holder's context while the holder waits for a fault's service or for its own end. -/
def State.mayDeclare (s : State) (d : Death) : Bool :=
  s.token.all fun k => d.crew == some k || (s.asidOf (s.crew k) == d.asid && (match (s.crew k).wake with
    | some (.fault _) | some .home => true
    | _ => false))

/-- DECLARE_DEAD (R402): what was noted against a context comes about: its teams are launched again (R99), or it is DYING; a DYING
context is dead with the next such event. -/
def execDeclareDead (asid cause : Nat) (detail : BitVec 64) (s : State) : Out :=
  match s.dying.find? fun d => d.asid == asid && d.cause == cause && d.detail == detail with
  | none => .next s
  | some d =>
    if !s.mayDeclare d then .next s
    else
      let s' := { s with dying := s.dying.erase d }
      match s.ctxOf asid with
      | none => .next s'
      | some x =>
        if x.state == .live then
          if s.relaunches d then .next (d.teams.foldl State.relaunch s')
          else if s.paUsable x.failrec && s.paUsable (x.failrec + 63) then .next (s.declare x d)
          else .fault .noMemory
        else if x.state == .dying && !d.record.isEmpty then .next (s'.killCtx x d)
        else .next s'

/-! ## Fault service (R396-R399) -/

/-- TRANSLATION_FAULT (R396): the crew that stands at an instruction meets a fault. -/
def execTranslationFault (ci : Nat) (va : BitVec 64) (cause : Nat) (write fetch engine : Bool) (s : State) : Out :=
  if ({ s with focus := some ci }.stand).isSome then .next (s.faultCrew ci va cause write fetch engine) else .next s

/-- A fault's service ends: its crews go on. -/
def State.endFault (s : State) (f : FaultRec) : State :=
  { s with
    faults := s.faults.filter fun g => g.number != f.number
    crews := s.crews.map fun (c : Crew) => if c.wake == some (.fault f.number) then { c with wake := none } else c }

def State.faultBySeq (s : State) (seq : Nat) : Option FaultRec := s.faults.find? fun f => f.seq == some seq

/-- FAULT_RETRY (R397). -/
def execFaultRetry (seq : Nat) (s : State) : Out :=
  match s.faultBySeq seq with
  | some f => .next (s.endFault f)
  | none => .next s

/-- FAULT_KILL (R397): the context will be declared dead, or its teams launched again (R99). -/
def execFaultKill (seq : Nat) (s : State) : Out :=
  match s.faultBySeq seq with
  | some f =>
    let teams := (f.crews.map fun k => (s.crew k).team).eraseDups
    .next { s with
      faults := s.faults.filter fun g => g.number != f.number
      dying := s.dying ++ [{ asid := f.asid, cause := 4, crew := f.crews.head?, pc := f.pc, detail := f.va, teams := teams }] }
  | none => .next s

/-- FAULTHEAD_WRITE (R398): a value above FAULTTAIL is ignored. -/
def execFaultheadWrite (v : BitVec 64) (s : State) : Out :=
  if v.toNat ≤ s.faultTail then .next { s with faultHead := v.toNat }.pumpFaults else .next s

/-- FAULTRING_WRITE (R398): both counts return to 0. -/
def execFaultringWrite (v : BitVec 64) (s : State) : Out :=
  .next ({ s with faultTail := 0, faultHead := 0 }.setBar 0x18 (v &&& 0x1FF0F003FFFE0)).pumpFaults

/-- A parked request takes effect (R399). An atomic inside a macro body is issued again by its crew. -/
def State.replay (s : State) (p : Parked) : State :=
  match p.req with
  | .red ci op ty tagged r =>
    let (s, fl) := (s.poisonDeath (s.asidOf (s.crew ci)) (some ci) r.key).applyRed op ty tagged r.key r.x
    s.raiseLate ci fl
  | .log _ w => s.doLogWrite w
  | .atomic ci _ i =>
    let c := s.crew ci
    if c.wake != some .parked then s
    else
      let s := s.setCrew ci { c with wake := none }
      let run : Out := match i with
        | .atom op ty o => execAtom op ty o { s with focus := some ci }
        | .acas ty o => execAcas ty o { s with focus := some ci }
        | _ => .next s
      if c.bundle.any fun l => (c.thread l).mstep != 0 then s
      else match run with
        | .next t => { t with focus := s.focus }
        | _ => s
  | .sector cl key => s.replaySector cl key

/-- FAULT_QUEUE_REPLAY (R399): the scrub locks of a home end, and what it parked takes effect in arrival order. No replay while the
commit token is held (R85). -/
def execFaultQueueReplay (slice : Nat) (s : State) : Out :=
  if s.token.isSome then .next s
  else
    let mine := s.parked.filter fun p => p.slice == slice
    let s := { s with
      locks := s.locks.filter fun l => lineSlice l != slice
      parked := s.parked.filter fun p => p.slice != slice }
    .next (mine.foldl State.replay s)

/-! ## Soft errors (R405) -/

/-- Squash the chunks that a test selects, not counted against CONSEC (R98). -/
def State.errorSquash (s : State) (t : Crew → Bool) : State :=
  (List.range s.crews.length).foldl (fun s k => if (s.crew k).inFlight && t (s.crew k) then s.squashCrew k false else s) s

/-- Has a chunk read a line of global memory? -/
def Crew.hasRead (c : Crew) (l : Nat) : Bool :=
  (eventLocs (128 * l) 128).any fun (k, g) => c.chunk.arbs.contains (arbiterOf k) && sigHas c.chunk.rsig (locNumber k g)

/-- Error counts of a die (R430): CORR, UNCORR, SPARED. -/
def corrReg (die : Nat) : Nat := 0x3801008 + die * 0x1000
def uncorrReg (die : Nat) : Nat := 0x3801010 + die * 0x1000
def sparedReg (die : Nat) : Nat := 0x3801018 + die * 0x1000

/-- Count in a register. -/
def State.bump (s : State) (a : Nat) : State := s.setBar a (s.bar a + 1)

/-- Was a register first written in the crew's current chunk (R405)? A v register that was free at its start held nothing. -/
def Crew.writtenInChunk (c : Crew) (f : Nat) : Bool :=
  if f < 224 then c.chunk.ckpt.contains f || !liveIn c.chunk.start.vregs f else c.chunk.sset.contains (f - 224)

/-- SOFT_ERROR_DETECTED (R405). A clean copy is discarded wherever it stands: the line's in the caches and the fetch units, and the
cached translations of its page (DEDUCED, entry 53). -/
def execSoftErrorDetected (e : SoftErr) (s : State) : Out :=
  match e with
  | .speculative ci => .next (if ci < s.crews.length ∧ (s.crew ci).inFlight then s.squashCrew ci false else s)
  | .cleanCopy pa =>
    let hit (e : TlbEntry) : Bool :=
      let p : Page := ⟨e.base, e.size, e.leaf⟩
      decide (p.pa ≤ pa) && decide (pa < p.pa + p.size)
    let used (c : Crew) : Bool := c.chunk.pages.any fun pg =>
      s.tlb.any fun e => hit e && e.asid == s.asidOf c && decide (e.base ≤ pg.1) && decide (pg.1 < e.base + e.size)
    let s' := s.errorSquash fun c => c.hasRead (pa / 128) || used c
    .next { s'.dropCopies false fun l => l == pa / 128 with
      fetchCache := s'.fetchCache.filter fun x => x.1 % 2 ^ 55 / 128 != pa / 128
      tlb := s'.tlb.filter fun e => !hit e }
  | .line pa =>
    if (memRegion pa).isNone then .next s
    else
      let s := (s.errorSquash fun c => c.hasRead (pa / 128)).bump (uncorrReg (homeDie pa))
      .next { s with poisoned := unionNat s.poisoned (sectorsOf (pa / 128)) }
  | .register ci f =>
    let c := s.crew ci
    if s.crews.length ≤ ci ∨ c.place != .resident then .next s
    else if c.writtenInChunk f.toNat then .next (s.squashCrew ci false)
    else
      let s := s.bump (uncorrReg (c.core / 48))
      .next { s with dying := s.dying ++ [{ asid := s.asidOf c, cause := 3, crew := some ci, pc := c.pc, teams := [c.team] }] }
  | .storage core asid =>
    let teams := (s.ctxTeams asid).filter fun ti => (s.team ti).place == .resident && (s.team ti).cores.contains core
    if teams.isEmpty then .next s
    else
      let s := s.bump (uncorrReg (core / 48))
      .next { s with dying := s.dying ++ [{ asid := asid, cause := 3, teams := teams }] }

/-- Spare rows of a channel (R433). -/
def channelSpares : Nat := 64

/-- CORRECTED_ERROR (R405): the line is locked while it is rewritten, the error is counted, and a row may be spared. -/
def execCorrectedError (pa : Nat) (spare : Bool) (s : State) : Out :=
  if !inWindow pa && (memRegion pa).isNone then .next s
  else
    let die := homeDie pa
    let s := { s.bump (corrReg die) with locks := insertNat s.locks (pa / 128) }
    match memRegion pa, spare with
    | some (m, ch), true =>
      let n := SMap.get 0 s.spared (16 * m + ch)
      .next (if n < channelSpares then { s.bump (sparedReg die) with spared := SMap.set s.spared (16 * m + ch) (n + 1) } else s)
    | _, _ => .next s

/-! ## The watchdog (R403) -/

/-- WATCHDOG_EXPIRY: the count has reached WDQ. -/
def execWatchdogExpiry (asid : Nat) (s : State) : Out :=
  match (s.ctxOf asid).filter fun x => x.state == .live && decide (x.wdq ≤ x.wdcount) with
  | some x => .next { s.setCtx { x with wdcount := 0 } with dying := s.dying ++ [{ asid := asid, cause := 2 }] }
  | none => .next s

end Sys2Proof.Machine
end

