-- ==== Sys2Proof/Machine/Cox.lean ====
section
/-! DEFINITION. The cox of each die: placement of waiting gangs (R381, R383), the quantum and its victims (R69, R382, R403),
eviction and restoring of single crews (R51, R65, R66), a `svc` that waited for room in its ring (R386). -/

namespace Sys2Proof.Machine

open Sys2Proof

/-! ## Quanta and priorities -/

/-- QUANTUM of a die in µs: 1,000 at reset (R382, R422). -/
def quantumReg (die : Nat) : Nat := 0x100000 + 0x40000 * die
def State.quantum (s : State) (die : Nat) : Nat :=
  let v := (s.bar (quantumReg die)).toNat
  if v = 0 then 1000 else v

/-- A quantum in cycles. -/
def State.quantumCycles (s : State) (die : Nat) : Nat := s.quantum die * Config.cyclesPerMicrosecond

/-- When the die's quantum expires. -/
def State.quantumEnd (s : State) (die : Nat) : Nat := (SMap.get? s.quantumAt die).getD (s.quantumCycles die)

/-- Effective priority of a waiting gang (R381). -/
def State.waitPrio (s : State) (w : Waiting) : Nat :=
  min 7 (w.prio + (s.clock.toNat - w.since) / s.quantumCycles w.die / 4)

/-- Insert behind all that do not come after. -/
def insertBy {α : Type} (before : α → α → Bool) (x : α) : List α → List α
  | [] => [x]
  | y :: t => if before x y then x :: y :: t else y :: insertBy before x t

/-- Stable order by a test. -/
def orderBy {α : Type} (before : α → α → Bool) (l : List α) : List α := l.foldl (fun acc x => insertBy before x acc) []

/-- The waiting gangs of a die: descending effective priority, oldest first within a level. -/
def State.waitOrder (s : State) (die : Nat) : List Waiting :=
  orderBy (fun a b => decide (s.waitPrio b < s.waitPrio a) || (s.waitPrio a == s.waitPrio b && decide (a.since < b.since)))
    (s.waiting.filter fun w => w.die == die)

/-! ## Saved crews whose wake condition holds (R51, R67, R408) -/

/-- Can a blocked popper or pusher be served: an entry, or allowance and space; or a header that traps? -/
def State.queueReady (s : State) (c : Crew) (core q : Nat) (pop : Bool) : Bool :=
  match qInstance (s.teamOf c) (s.gridOf c) core q with
  | none => false
  | some (_, k) =>
    let h := s.qHead k
    s.queueBad c.team core q k || (if pop then decide (0 < h.count) else decide (0 < h.allow) && h.room)

/-- Does the wake condition of a saved crew hold (R408)? A queue's next service is an event, which waits for the commit token
(R85). -/
def State.restorable (s : State) (ci : Nat) : Bool :=
  let c := s.crew ci
  match c.wake with
  | none => true
  | some (.queuePop q core _ _) => s.firstBlocked c.team (isPopOn core q) == some ci && s.token.isNone && s.queueReady c core q true
  | some (.queuePush q core _) => s.firstBlocked c.team (isPushOn core q) == some ci && s.token.isNone && s.queueReady c core q false
  | some (.barrier _) | some .obres => s.wakeHolds c
  | some .four =>
    let four := s.fourOf ci
    four.length == 4 && four.all fun k => (s.crew k).mreq.isSome && (s.crew k).arch.matrixNo == c.arch.matrixNo
  | some .yielded => true
  | _ => false

/-- Does a saved crew wait for nothing but a slot: its wake condition holds, its team is there and staying? -/
def State.wantsSlot (s : State) (ci : Nat) : Bool :=
  let c := s.crew ci
  c.place == .saved && (s.teamOf c).place == .resident && !(s.teamOf c).leaving && s.restorable ci

/-- Is there room for it in its quadrant too? -/
def State.restoreDue (s : State) (ci : Nat) : Bool :=
  s.wantsSlot ci && s.quadFits (s.crew ci).quadNo [(s.crew ci).alloc]

/-- The crews of a die that lack only the room. -/
def State.starved (s : State) (die : Nat) : List Nat :=
  (List.range s.crews.length).filter fun k => (s.crew k).core / 48 == die && s.wantsSlot k && !s.restoreDue k

/-! ## Placement (R379, R381) -/

/-- Place one waiting gang, fresh or saved; none where it does not fit. -/
def State.tryPlace (s : State) (w : Waiting) : Option State :=
  let ps : List Placing :=
    if w.saved then (orderBy (fun a b => decide ((s.team a).linear < (s.team b).linear)) (s.gangTeams w.grid w.gang)).map .saved
    else gangOf w.grid (s.grid w.grid) w.gang
  match s.placeGang w.die ps with
  | none => none
  | some s =>
    let s := { s with waiting := s.waiting.erase w }
    some (if w.saved then s else s.offerGang w.grid)

/-- Place waiting gangs, at most so many, each time the first in order as it then stands: a grid's next gang joins when the last one
has been placed. The first that does not fit stops placement until the next quantum expiry. -/
def State.placeNext (s : State) (die : Nat) : Nat → State
  | 0 => s
  | n + 1 => match s.waitOrder die with
    | [] => s
    | w :: _ => match s.tryPlace w with
      | some s' => State.placeNext s' die n
      | none => { s with stopped := insertNat s.stopped die }

/-- More gangs than a die can hold. -/
def placeLimit : Nat := 12 * 4 * 4 * Config.quadSlots

/-- Place waiting gangs until one does not fit. -/
def State.placeList (s : State) (die : Nat) : State := s.placeNext die placeLimit

/-! ## Gangs that leave (R69, R382, R406) -/

/-- A gang that stands on a die: grid, gang, its resident teams, when it became resident. -/
structure Resident where
  grid : Nat
  gang : Nat
  teams : List Nat
  launched : Nat
  deriving DecidableEq, Repr

/-- The gangs of a die that are resident. -/
def State.residents (s : State) (die : Nat) : List Resident :=
  (List.range s.teams.length).foldl (fun acc ti =>
    let t := s.team ti
    if t.place != .resident || t.cores.headD 0 / 48 != die then acc
    else
      let gang := t.linear / (s.grid t.grid).teams
      if acc.any fun r => r.grid == t.grid && r.gang == gang then
        acc.map fun r => if r.grid == t.grid && r.gang == gang then
          { r with teams := r.teams ++ [ti], launched := min r.launched t.launched } else r
      else acc ++ [{ grid := t.grid, gang := gang, teams := [ti], launched := t.launched }]) []

/-- Has the gang been asked to leave? -/
def State.leaving (s : State) (r : Resident) : Bool := r.teams.any fun t => (s.team t).leaving

/-- Has it been asked to leave, and can it be saved now? -/
def State.canLeave (s : State) (r : Resident) : Bool := s.leaving r && r.teams.all s.teamAtRest

/-- Save the teams of a gang; none where the save area has no room. -/
def State.saveTeams (s : State) : List Nat → Option State
  | [] => some s
  | t :: rest => match s.saveTeam t with
    | none => none
    | some s => State.saveTeams s rest

/-- A gang leaves, and joins the tail of its level (R382); without room in the save area it goes on (R406). -/
def State.leave (s : State) (die : Nat) (r : Resident) : State :=
  match s.saveTeams r.teams with
  | none => { s with
      crews := s.crews.map fun (c : Crew) => if r.teams.contains c.team then { c with preempt := false } else c
      teams := (List.range s.teams.length).map fun t => if r.teams.contains t then { s.team t with leaving := false } else s.team t }
  | some s =>
    { s with
      stopped := s.stopped.filter fun d => d != die
      waiting := s.waiting ++ [{ grid := r.grid, gang := r.gang, die := die, prio := (s.grid r.grid).prio, since := s.clock.toNat, saved := true }] }

/-- Is the room that gangs free kept for saved crews: one can be restored, or one lacks room and gangs are leaving (R67, DEDUCED,
entry 59)? -/
def State.roomKept (s : State) (die : Nat) : Bool :=
  ((List.range s.crews.length).any fun k => (s.crew k).core / 48 == die && s.restoreDue k)
    || (!(s.starved die).isEmpty && (s.residents die).any s.leaving)

/-- GANG_PLACEMENT (R381): gangs that were asked to leave and are at rest are saved, then waiting gangs are placed. -/
def execGangPlacement (die : Nat) (s : State) : Out :=
  let s := ((s.residents die).filter s.canLeave).foldl (fun s r => s.leave die r) s
  .next (if s.stopped.contains die || s.roomKept die then s else s.placeList die)

/-- Has the die something to place or to save? -/
def State.placementDue (s : State) (die : Nat) : Bool :=
  (s.residents die).any s.canLeave
    || (!s.stopped.contains die && !s.roomKept die && s.waiting.any fun w => w.die == die)

/-! ## The quantum (R382, R403) -/

/-- The state as if some teams had left. -/
def State.without (s : State) (ts : List Nat) : State :=
  { s with
    teams := (List.range s.teams.length).map fun ti => if ts.contains ti then { s.team ti with place := .saved } else s.team ti
    crews := s.crews.map fun (c : Crew) => if ts.contains c.team && c.place == .resident then { c with place := .waiting } else c
    quads := s.quads.map fun (q : Nat × Quad) => (q.1, { q.2 with resv := q.2.resv.filter fun r => !ts.contains r.team }) }

/-- Would the teams of a gang fit in their save area? -/
def State.saveFits (s : State) (r : Resident) : Bool := (s.saveTeams r.teams).isSome

/-- Victims in the order given, until there is room. -/
def State.victims (s : State) (fits : State → Bool) (gone : List Nat) : List Resident → List Resident
  | [] => []
  | r :: rest => if fits (s.without gone) then [] else r :: State.victims s fits (gone ++ r.teams) rest

/-- Pre-empt resident gangs of a die, lowest priority first and then the longest resident, until there is room for what has the
priority `p` (R69, R382); gangs on their way out are counted as gone. -/
def State.preemptUntil (s : State) (die p : Nat) (fits : State → Bool) (may : Resident → Bool) : State :=
  let rs := s.residents die
  let going := rs.filter s.leaving
  let prio (r : Resident) : Nat := (s.grid r.grid).prio
  let cand := (rs.filter fun r => !s.leaving r && decide (prio r ≤ p) && may r).filter s.saveFits
  let cand := orderBy (fun a b => decide (prio a < prio b) || (prio a == prio b && decide (a.launched < b.launched))) cand
  (s.victims fits (going.flatMap Resident.teams) cand).foldl (fun s r => s.preemptGang r.grid r.gang) s

/-- Pre-empt resident gangs for the waiting gang at the head. -/
def State.preemptFor (s : State) (w : Waiting) : State :=
  s.preemptUntil w.die (s.waitPrio w) (fun s => (s.tryPlace w).isSome) fun _ => true

/-- Priority of a saved crew that lacks room: its gang's, and as it waits more, like a waiting gang's (R67, R381). -/
def State.crewPrio (s : State) (ci die : Nat) : Nat :=
  let c := s.crew ci
  min 7 ((s.gridOf c).prio + (s.clock.toNat - c.readySince) / s.quantumCycles die / 4)

/-- Pre-empt the gangs that hold a starved crew's quadrant, its own apart: a blocked crew whose wake condition holds becomes
runnable after finitely many quanta (R67, R68, DEDUCED, entry 59). -/
def State.preemptForCrew (s : State) (die ci : Nat) : State :=
  let c := s.crew ci
  let holds (r : Resident) : Bool := !r.teams.contains c.team
    && s.crews.any fun x => r.teams.contains x.team && x.place == .resident && x.quadNo == c.quadNo
  s.preemptUntil die (s.crewPrio ci die) (fun s => s.quadFits c.quadNo [c.alloc]) holds

/-- The crew that has been starved longest. -/
def State.mostStarved (s : State) (die : Nat) : Option Nat :=
  let ks := s.starved die
  (leastOf (ks.map fun k => (s.crew k).readySince)).bind fun n => ks.find? fun k => (s.crew k).readySince == n

/-- Is a crew of the context resident or parked, other than parked at `svc` (R403)? -/
def State.watched (s : State) (asid : Nat) (c : Crew) : Bool :=
  s.asidOf c == asid && !c.isComposite && (c.place == .resident || c.place == .saved)
    && !(c.place == .saved && (c.svcLeft.isSome || c.wake == some .svcEvent))

/-- A context's watchdog at a quantum's end: that of the lowest die with a crew of the context. -/
def State.watch (s : State) (die : Nat) (x : Ctx) : Ctx :=
  let mine := s.crews.filter (s.watched x.asid)
  if x.state != .live || (leastOf (mine.map fun c => c.core / 48)).getD 0 != die then x
  else { x with wdcount := if !mine.isEmpty && !x.progress then x.wdcount + 1 else 0, progress := false }

/-- QUANTUM_EXPIRY (R382): waiting gangs have aged; those that fit are placed, and victims are asked to leave for the head, and for
the saved crew that has lacked room longest. -/
def execQuantumExpiry (die : Nat) (s : State) : Out :=
  let s := { s with
    quantumAt := SMap.set s.quantumAt die (s.clock.toNat + s.quantumCycles die)
    stopped := s.stopped.filter fun d => d != die
    ctxs := s.ctxs.map (s.watch die) }
  let s := if s.roomKept die then s else s.placeList die
  let s := match s.stopped.contains die, s.waitOrder die with
    | true, w :: _ => s.preemptFor w
    | _, _ => s
  .next (match s.mostStarved die with
    | some k => s.preemptForCrew die k
    | none => s)

/-! ## Single crews (R51, R65, R66) -/

/-- Can a resident crew be evicted: is it blocked, with no reply of its own under way, and no matrix instruction that its four has
accepted unfinished (R279)? -/
def State.evictable (s : State) (ci : Nat) : Bool :=
  let c := s.crew ci
  c.place == .resident && !c.isComposite && !c.preempt && c.chunk.phase == .running && c.doom.isNone && c.expansion.isNone
    && decide (c.matched ≤ c.arch.matrixNo)
    && (!(s.gridOf c).four || (s.fourOf ci).all fun k => (s.quad (s.crew k).quadNo).busy == 0)
    && (match c.wake with
      | none | some (.far _) | some .engine | some .fence | some .home | some .parked => false
      | some (.sector _) => true
      | some _ => !c.dirty)

/-- CREW_EVICT (R66): a crew blocked inside a chunk restarts it. -/
def execCrewEvict (ci : Nat) (s : State) : Out :=
  let c := s.crew ci
  if decide (ci < s.crews.length) && s.evictable ci && s.token != some ci then
    .next ((match c.wake with
      | some (.sector _) => s.squashCrew ci false
      | some .yielded => s.setCrew ci { c with wake := none }
      | _ => s).saveCrew ci)
  else .next s

/-- A team that was launched again issues once all its crews are there (R51, R99). -/
def State.gathered (s : State) (ti : Nat) : State :=
  if (s.team ti).gathering && s.crews.all fun c => c.team != ti || c.place != .saved then
    s.setTeam ti { s.team ti with gathering := false }
  else s

/-- CREW_RESTORE (R51, R65, R408): to a free slot of the same quadrant; replies are delivered, a queue goes on serving, any
other blocking instruction is issued again. -/
def execCrewRestore (ci : Nat) (s : State) : Out :=
  if !s.restoreDue ci then .next s
  else
    let slot := s.freeSlot (s.crew ci).quadNo
    let s := s.reloadCrew ci
    let c := { s.crew ci with slot := slot, readySince := s.clock.toNat }
    let c := c.takeReplies.freshChunk
    match c.wake with
    | some (.queuePop q core _ _) | some (.queuePush q core _) => .next ((s.setCrew ci c).serveQueue c.team core q)
    | _ => .next ((s.setCrew ci { c with wake := none }).gathered c.team)

/-! ## svc (R386) -/

/-- SVC_RING_EVENT: the ring of a parked `svc` has room, and its event is performed. A ring that is bad by now raises its trap
when the crew issues again. -/
def execSvcRingEvent (ci : Nat) (s : State) : Out :=
  let c := s.crew ci
  let asid := s.asidOf c
  if c.wake != some .svcEvent || s.token.isSome then .next s
  else match (match s.fetchWord c.core asid c.pc.toNat with
    | .ok w => some (instrOf w.toNat)
    | .error _ => none) with
  | some (.svc n lk o) =>
    match s.ringAt c.core asid c.svcq.toNat with
    | none => .next (s.setCrew ci { c with wake := none })
    | some r =>
      let i : Instr := .svc n lk o
      let lanes := execLanes i c c.bundle
      if !r.room lanes.length then .next s
      else
        let s' := s.svcEvent ci c r n.toNat (lanes.map fun l => (l, s.opnd i c l 1))
        let c' := ((s.applyFrees i c c (plainOuts lanes)).advance i c.bundle []).freshChunk
        let w := svcWake c.svcq.toNat r (s.destOf i c (lanes.headD 0)) lanes
        let c' := { c' with svcLeft := some (lk.toNat, w), replies := [], clk1 := c.clk1 + 1, wake := if lk = 0 then some w else none }
        let c' := s'.coveredReplies c'
        let c' := if c'.hasReplies then { c' with wake := none } else c'
        let s' := (s'.setCrew ci c').noteEvent c'
        .next (if c'.place == .resident && lk = 0 then s'.parkSvc ci else s'.rewriteRecord ci)
  | _ => .next (s.setCrew ci { c with wake := none })

/-- Has the ring of a parked `svc` room now? -/
def State.svcDue (s : State) (ci : Nat) : Bool :=
  let c := s.crew ci
  c.place != .retired && c.wake == some .svcEvent && s.token.isNone
    && (match s.ringAt c.core (s.asidOf c) c.svcq.toNat with
      | none => true
      | some r => r.room (execLanes (.svc 0 0 {}) c c.bundle).length)

end Sys2Proof.Machine
end

