-- ==== Sys2Proof/Machine/Host.lean ====
section
/-! DEFINITION. The host link: the aperture (R96, R364, R365, R369), the coherent window (R366-R368), doorbells of service
rings (R386) and of submission queues (R370-R372). -/

namespace Sys2Proof.Machine

open Sys2Proof

/-! ## What the host wrote and the device does not see yet (R96, R369) -/

/-- Bytes as pieces within 8-byte words. -/
def splitWords : Nat → List Byte → List HostStore
  | _, [] => []
  | pa, b :: t => match splitWords (pa + 1) t with
    | [] => [⟨pa, [b]⟩]
    | x :: rest => if (pa + 1) % 8 = 0 then ⟨pa, [b]⟩ :: x :: rest else ⟨pa, b :: x.data⟩ :: rest

/-- Make some of the pending writes visible, in order. -/
def State.showHost (s : State) (t : HostStore → Bool) : State :=
  { s with
    mem := (s.hostStores.filter t).foldl (fun m h => Memory.writes m h.pa h.data) s.mem
    hostStores := s.hostStores.filter fun h => !t h }

/-- Memory as the cox reads it at a dequeue: every write that the host posted is there (R372). -/
def State.coxView (s : State) : State := s.showHost fun _ => true

/-- A pending write may become visible at any time: a free choice takes the oldest of some word, or none (DESIGN CHOICE, entry 9). -/
def State.driftHost (s : State) : State :=
  match s.hostStores with
  | [] => s
  | h0 :: _ =>
    let n := s.hostStores.length
    let s' := { s with freeCtr := s.freeCtr + 1 }
    if Config.freeBool s.freeCtr then s'
    else
      let word := (s.hostStores.getD ((Config.freeWord s.freeCtr).toNat % n) h0).pa / 8
      match s.hostStores.find? fun h => h.pa / 8 == word with
      | some h => { s' with mem := Memory.writes s.mem h.pa h.data, hostStores := s.hostStores.erase h }
      | none => s'

/-- A host write to device memory: DRAM's payload bytes change, tags do not (R365). -/
def State.hostWrite (s : State) (pa : Nat) (bs : List Byte) : State :=
  { s with dram := Memory.writes s.dram pa bs, hostStores := s.hostStores ++ splitWords pa bs }

/-- A host read of device memory: each word as DRAM has it, or as the device has it by now (R96, DESIGN CHOICE, entry 9); the window
is coherent. -/
def State.hostBytes (s : State) : Nat → Nat → State × List Byte
  | _, 0 => (s, [])
  | pa, n + 1 =>
    let (s', rest) := State.hostBytes s (pa + 1) n
    let d := Memory.read s.dram pa
    let m := Memory.read s.coxView.mem pa
    if d = m || inWindow pa then (s', m :: rest) else (s', (if Config.freeBool (s.freeCtr + pa / 8) then d else m) :: rest)

/-- Is the part ready, so that BAR2 and BAR4 answer (R416)? -/
def State.partReady (s : State) : Bool := s.boot.phase == .ready

/-- APERBASE + offset, when the access is aligned and lies in BAR4 and in installed memory (R364). -/
def State.aperture (s : State) (off n : Nat) : Option Nat :=
  let pa := (s.bar 0x10).toNat + off
  if s.partReady && [1, 2, 4, 8, 16, 32, 64].contains n && off % n == 0 && decide (off + n ≤ 2 ^ s.barLog) && !inWindow pa
      && s.paUsable pa && s.paUsable (pa + n - 1)
  then some pa else none

/-- HOST_APERTURE_WRITE (R365). -/
def execHostApertureWrite (off : Nat) (data : List Byte) (s : State) : Out :=
  match s.aperture off data.length with
  | some pa => .next (s.hostWrite pa data)
  | none => .next s

/-- HOST_APERTURE_READ (R96, R365); an Unsupported Request reads all ones. -/
def execHostApertureRead (off bytes : Nat) (s : State) : Out :=
  match s.aperture off bytes with
  | some pa =>
    let (s', bs) := s.hostBytes pa bytes
    .next { s' with hostRead := bs, freeCtr := s.freeCtr + (pa + bytes) / 8 + 1 }
  | none => .next { s with hostRead := List.replicate bytes 0xFF }

/-! ## Doorbells of service rings (R386) -/

/-- The cox copies the replies into a crew's saved state and wakes it. -/
def State.giveReplies (s : State) (ci : Nat) : State :=
  let c := s.crew ci
  match s.svcReplies c with
  | none => s
  | some ws =>
    let parked := match c.wake with
      | some (.svcReply ..) => true
      | _ => false
    let c := { c with replies := ws, wake := if parked then none else c.wake }
    let c := if parked && c.place == .resident then c.takeReplies.freshChunk else c
    (s.setCrew ci c).rewriteRecord ci

/-- After a host write to the window: every crew whose replies are ready gets them. -/
def State.ringDoorbells (s : State) : State := (List.range s.crews.length).foldl State.giveReplies s

/-! ## The coherent window (R366-R368) -/

/-- Is a word of the window one that the host writes: no device field of a descriptor, nothing reserved (R368, R370)? -/
def windowHosts (off : Nat) : Bool :=
  if off < 0x2000 then !([0x18, 0x20, 0x38].contains (off / 8 * 8 % 128)) else decide (off < 0x2010) || decide (0x10000 ≤ off)

/-- A submission queue, and its descriptor's word at an offset. -/
def State.subQ (s : State) (q : Nat) : SubQ := (s.queues.find? fun x => x.q == q).getD { q := q }
def State.setSubQ (s : State) (x : SubQ) : State :=
  { s with queues := if s.queues.any fun y => y.q == x.q then s.queues.map fun y => if y.q == x.q then x else y
                     else s.queues ++ [x] }
def State.sqWord (s : State) (q off : Nat) : Nat := Memory.nat s.mem (Config.windowBase + 128 * q + off) 8
/-- The device writes a word of a descriptor, as an event. -/
def State.putSq (s : State) (q off v : Nat) : State := s.eventWord none (Config.windowBase + 128 * q + off) (BitVec.ofNat 64 v)

/-- A queue whose EN the host cleared stops dequeuing, and may be enabled anew (R370). -/
def State.noteDisabled (s : State) (q : Nat) : State :=
  let x := s.subQ q
  if x.en && !(s.sqWord q 8).testBit 32 then s.setSubQ { x with en := false } else s

/-! ## Enabling a queue (R370) -/

/-- A power of two between two bounds. -/
def powerIn (lo hi n : Nat) : Bool := (List.range 17).any fun k => n == 2 ^ k && decide (lo ≤ n) && decide (n ≤ hi)

/-- The descriptor as the device reads it; none when a field is bad. -/
def State.readSq (s : State) (q : Nat) : Option SubQ :=
  let ctl := s.sqWord q 8
  let cap := ctl % 2 ^ 17
  let off := s.sqWord q 0x28
  let cq := s.sqWord q 0x30
  if !powerIn 16 65536 cap || ctl / 2 ^ 17 % 2 ^ 15 != 0 || ctl / 2 ^ 33 % 2 ^ 7 != 0 || ctl / 2 ^ 46 % 4 != 0 || ctl / 2 ^ 49 != 0
      || (List.range 7).any (fun j => s.sqWord q (0x48 + 8 * j) != 0)
      || off % 32 != 0 || decide (off < 0x10000) || decide (0x400000 ≤ off) || !powerIn 16 4096 cq
      || decide (0x400000 < off + 32 * cq) then none
  else
    some { s.subQ q with
      en := true, base := s.sqWord q 0, cap := cap, vec := ctl / 2 ^ 40 % 2 ^ 6, cirq := ctl.testBit 48, cqoff := off, cqcap := cq }

/-- Does a queue's EN stand at 1 in the window while the device has not read its descriptor? -/
def State.enableDue (s : State) (q : Nat) : Bool := (s.sqWord q 8).testBit 32 && !(s.subQ q).en

/-- The device reads the descriptor of a queue that is enabled; a bad one leaves EN reading 0. -/
def State.enableSq (s : State) (q : Nat) : State :=
  match s.readSq q with
  | some x => s.setSubQ x
  | none => s.putSq q 8 (s.sqWord q 8 - 2 ^ 32)

/-- What a write to a descriptor brings about: a queue whose EN it clears or sets stops, or is enabled at once (R370). -/
def State.noteEnable (s : State) (q : Nat) : State :=
  let s := s.noteDisabled q
  if s.enableDue q then s.enableSq q else s

/-- A write of the host's to the window, as one event with what it brings about. -/
def State.windowWrite (s : State) (off : Nat) (bs : List Byte) : State :=
  if windowHosts off then
    let s := s.eventWrite none (Config.windowBase + off) bs
    (if off < 0x2000 then s.noteEnable (off / 128) else s).ringDoorbells
  else s

/-- Is a BAR2 access one that the part answers (R364)? -/
def State.windowOk (s : State) (off n : Nat) : Bool :=
  s.partReady && [1, 2, 4, 8].contains n && off % n == 0 && decide (off + n ≤ Config.windowBytes)

/-- HOST_WINDOW_WRITE (R366): an event of die 0; it waits for the commit token and for grants. -/
def execHostWindowWrite (off bytes : Nat) (v : BitVec 64) (s : State) : Out :=
  if !s.windowOk off bytes || s.eventWaits (Config.windowBase + off) bytes then .next s
  else .next (s.windowWrite off (leBytes bytes v.toNat))

/-- HOST_WINDOW_READ (R366): an event, which waits as a write does; an Unsupported Request reads all ones. -/
def execHostWindowRead (off bytes : Nat) (s : State) : Out :=
  if !s.windowOk off bytes then .next { s with hostRead := List.replicate bytes 0xFF }
  else if s.eventWaits (Config.windowBase + off) bytes then .next s
  else .next { s with hostRead :=
    if 0x2010 ≤ off && decide (off < 0x10000) then List.replicate bytes 0 else Memory.bytes s.mem (Config.windowBase + off) bytes }

/-- SERVICE_DOORBELL (R386): a write to DOORBELL of the ring at a window offset. -/
def execServiceDoorbell (ring : Nat) (v : BitVec 64) (s : State) : Out := execHostWindowWrite (ring + 0x18) 8 v s

/-- SQ_DOORBELL (R371, R372): a write to TAIL. -/
def execSqDoorbell (q : Nat) (tail : BitVec 64) (s : State) : Out :=
  if q < 64 then execHostWindowWrite (128 * q + 0x10) 8 tail s else .next s

/-- CQHEAD_WRITE (R370, R375). -/
def execCqheadWrite (q : Nat) (v : BitVec 64) (s : State) : Out :=
  if q < 64 then execHostWindowWrite (128 * q + 0x40) 8 v s else .next s

/-- SQ_ENABLE (R370): a queue whose EN a store of the device's has set. -/
def execSqEnable (q : Nat) (s : State) : Out :=
  if !decide (q < 64) || !s.enableDue q then .next s else .next (s.enableSq q)

end Sys2Proof.Machine
end

