-- ==== Sys2Proof/Machine/Commands.lean ====
section
/-! DEFINITION. Submission queues: dequeuing (R371-R373), the five commands (R374), completion (R375). -/

namespace Sys2Proof.Machine

open Sys2Proof

/-! ## Dequeuing -/

/-- A word of command `k` of a queue, as the cox reads it (R372). -/
def State.cmdWord (s : State) (x : SubQ) (k off : Nat) : Nat :=
  Memory.nat s.coxView.mem (x.base + 64 * (k % x.cap) + off) 8

/-- Is the queue held by a FENCE (R374)? -/
def State.fenced (s : State) (x : SubQ) : Bool :=
  match x.fenceQ with
  | some (p, v) => decide ((s.subQ p).done < v)
  | none => false

/-- Does a command wait for all before it: WAIT, or SIGNAL (R373, R374)? -/
def cmdWaits (w0 : Nat) : Bool := w0.testBit 8 || w0 % 256 == 5

/-- The queue whose next command may be dequeued now (R371, R373). -/
def State.nextCmd (s : State) (q : Nat) : Option SubQ :=
  let x := s.subQ q
  if x.en && s.partReady && s.token.isNone && !s.fenced x && decide (x.head < s.sqWord q 0x10)
      && (!cmdWaits (s.cmdWord x x.head 0) || x.done == x.head) then some x else none

/-- The opcode of the next command; an undefined one is dequeued as a LAUNCH is, and refused. -/
def cmdOp (w0 : Nat) : Nat := if 1 ≤ w0 % 256 ∧ w0 % 256 ≤ 5 then w0 % 256 else 1

/-- Operand words that each command leaves reserved (R373, R374), and operand bits. -/
def cmdReserved (w : Nat → Nat) : Bool :=
  let op := w 0 % 256
  let from' (k : Nat) : Bool := (List.range (6 - k)).any fun j => w (0x10 + 8 * (k + j)) != 0
  w 0 / 2 ^ 10 != 0 || (match op with
    | 1 => from' 1
    | 2 => from' 2
    | 3 => from' 4 || decide (1 < w 0x28)
    | 4 => from' 2 || decide (64 ≤ w 0x10)
    | 5 => from' 3 || decide (2 ^ 9 ≤ w 0x20)
    | _ => true)

/-- Dequeue the next command of a queue, if it has the opcode and nothing holds it: HEAD advances, then a command that breaks
a rule completes REFUSED, any other runs. -/
def dequeue (q op : Nat) (ok : State → (Nat → Nat) → Bool) (run : State → SubQ → (Nat → Nat) → State) (s : State) : Out :=
  match s.nextCmd q with
  | none => .next s
  | some x =>
    let k := x.head
    let slot := x.base + 64 * (k % x.cap)
    if !s.paUsable slot || !s.paUsable (slot + 63) then .fault .noMemory
    else
      let w (off : Nat) : Nat := s.cmdWord x k off
      if cmdOp (w 0) ≠ op ∨ !ok s w then .next s
      else
        let cmd : Cmd := { k := k, op := w 0 % 256, norec := (w 0).testBit 9, cookie := BitVec.ofNat 64 (w 8) }
        let s1 := (({ s with nextQueue := (q + 1) % 64 }).setSubQ { x with head := k + 1, fenceQ := none, cmds := x.cmds ++ [cmd] }).putSq q 0x18 (k + 1)
        .next (if cmdReserved w then s1.endCommand q k 2 else run s1 { x with head := k + 1 } w)

/-- LAUNCH (R374, R376, R377): the record is read as the cox sees it, and its grid enters; else REFUSED. -/
def launchRun (q : Nat) (s : State) (x : SubQ) (w : Nat → Nat) : State :=
  let k := x.head - 1
  let pa := w 0x10
  let v := s.coxView
  if pa % 128 ≠ 0 ∨ !s.paUsable pa ∨ !s.paUsable (pa + 127) then s.endCommand q k 2
  else match v.parseRecord (fun j => Memory.nat v.mem (pa + 8 * j) 8) (.command q k) none with
    | none => s.endCommand q k 2
    | some g => s.launchGrid g

def execLaunch (q : Nat) (s : State) : Out := dequeue q 1 (fun _ _ => true) (launchRun q) s

/-- FLUSH (R369, R374). -/
def flushRun (q : Nat) (s : State) (x : SubQ) (w : Nat → Nat) : State :=
  let k := x.head - 1
  let pa := w 0x10
  let len := w 0x18
  if 2 ^ 40 < len then s.endCommand q k 2
  else
    let meets (l : Nat) : Bool := decide (0 < len) && decide (128 * l < pa + len) && decide (pa < 128 * l + 128)
    (((s.showHost fun h => meets (h.pa / 128)).flushLines meets).dropCopies false meets).endCommand q k 0

def execFlush (q : Nat) (s : State) : Out := dequeue q 2 (fun _ _ => true) (flushRun q) s

/-- Is a COPY refused: its length, or its device range, which must lie in the staging region (R374)? -/
def State.copyBad (s : State) (w : Nat → Nat) : Bool :=
  let pa := w 0x18
  let len := w 0x20
  let base := Memory.nat s.mem (Config.windowBase + 0x2000) 8
  let size := Memory.nat s.mem (Config.windowBase + 0x2008) 8
  len == 0 || decide (2 ^ 32 < len) || decide (pa < base) || decide (base + size < pa + len) || !s.runUsable pa len

/-- What a COPY brings to the device: host writes, to memory under R369 and to the window as events (R366, R368). -/
def State.copyIn (s : State) (pa : Nat) (bs : List Byte) : State :=
  if inWindow pa then (splitWords pa bs).foldl (fun s h => s.windowWrite (h.pa - Config.windowBase) h.data) s else s.hostWrite pa bs

/-- COPY (R374): between host memory and the staging region. `data` is what host memory held, for DIR 0. -/
def copyRun (q : Nat) (data : List Byte) (s : State) (x : SubQ) (w : Nat → Nat) : State :=
  let k := x.head - 1
  let pa := w 0x18
  let len := w 0x20
  if s.copyBad w then s.endCommand q k 2
  else if w 0x28 % 2 = 0 then (s.copyIn pa data).endCommand q k 0
  else
    let (s', bs) := s.hostBytes pa len
    { s' with hostMem := some (w 0x10, bs), freeCtr := s.freeCtr + (pa + len) / 8 + 1 }.endCommand q k 0

/-- Does a COPY bring the bytes it needs: those of host memory when DIR is 0 and it is not refused? -/
def copyHas (data : List Byte) (s : State) (w : Nat → Nat) : Bool :=
  w 0x28 % 2 == 1 || cmdReserved w || s.copyBad w || data.length == w 0x20

def execCopy (q : Nat) (data : List Byte) (s : State) : Out := dequeue q 3 (copyHas data) (copyRun q data) s

/-- FENCE (R374): complete at dequeue; the queue stops until queue p's DONE reaches VALUE. -/
def fenceRun (q : Nat) (s : State) (x : SubQ) (w : Nat → Nat) : State :=
  let k := x.head - 1
  (s.setSubQ { s.subQ q with fenceQ := some (w 0x10, w 0x18) }).endCommand q k 0

def execSqFence (q : Nat) (s : State) : Out := dequeue q 4 (fun _ _ => true) (fenceRun q) s

/-- SIGNAL (R374): acts as a host write of VALUE, then MSI-X. -/
def signalRun (q : Nat) (s : State) (x : SubQ) (w : Nat → Nat) : State :=
  let k := x.head - 1
  let off := w 0x10
  if off % 8 ≠ 0 ∨ Config.windowBytes ≤ off then s.endCommand q k 2
  else
    let s := s.windowWrite off (leBytes 8 (w 0x18))
    let s := if (w 0x20).testBit 8 then s.sendMsi (w 0x20 % 256) else s
    s.endCommand q k 0

def execSignal (q : Nat) (s : State) : Out := dequeue q 5 (fun _ _ => true) (signalRun q) s

/-! ## Completion (R375) -/

/-- DONE advances over the commands that have counted. -/
def SubQ.advance (x : SubQ) : Nat → SubQ
  | 0 => x
  | n + 1 =>
    if x.cmds.any fun c => c.k == x.done && c.counted then
      SubQ.advance { x with done := x.done + 1, cmds := x.cmds.filter fun c => c.k != x.done } n
    else x

/-- The completed commands whose record is not written yet, in completion order. -/
def SubQ.recordsDue (x : SubQ) : List Cmd :=
  orderBy (fun a b => decide (a.time.toNat < b.time.toNat)) (x.cmds.filter fun c => c.status.isSome && !c.counted && !c.norec)

/-- Has the completion ring room? -/
def State.cqRoom (s : State) (x : SubQ) : Bool :=
  decide ((x.cqtail + 2 ^ 64 - s.sqWord x.q 0x40) % 2 ^ 64 < x.cqcap)

/-- A command counts: DONE advances, and the descriptor shows it. -/
def State.countCmd (s : State) (q k : Nat) : State :=
  let x := s.subQ q
  let x := { x with cmds := x.cmds.map fun (c : Cmd) => if c.k = k then { c with counted := true } else c }
  let x := x.advance x.cmds.length
  (s.setSubQ x).putSq q 0x20 x.done

/-- Write a completion record. -/
def State.putRecord (s : State) (x : SubQ) (c : Cmd) : State :=
  let st := c.status.getD 0 + c.op * 2 ^ 8
  let a := Config.windowBase + x.cqoff + 32 * (x.cqtail % x.cqcap)
  let s := s.eventWrite none a (leBytes 8 c.k ++ leBytes 8 c.cookie.toNat ++ leBytes 8 st ++ leBytes 8 c.time.toNat)
  let s := (s.setSubQ { x with cqtail := x.cqtail + 1 }).putSq x.q 0x38 (x.cqtail + 1)
  if x.cirq then s.sendMsi x.vec else s

/-- May command `k` of a queue complete now? -/
def State.completes (s : State) (q k : Nat) : Option (SubQ × Cmd) :=
  let x := s.subQ q
  match x.cmds.find? fun c => c.k == k && c.status.isSome && !c.counted with
  | none => none
  | some c =>
    if s.token.isSome then none
    else if c.norec then some (x, c)
    else if (x.recordsDue.head?.any fun d => d.k == k) && s.cqRoom x then some (x, c) else none

/-- COMMAND_COMPLETION (R375): the record is written unless NOREC says otherwise, and the command counts toward DONE. -/
def execCommandCompletion (q k : Nat) (s : State) : Out :=
  match s.completes q k with
  | none => .next s
  | some (x, c) => .next ((if c.norec then s else s.putRecord x c).countCmd q k)

/-! ## What is due -/

/-- The completion that is due, if any. -/
def State.completionDue (s : State) : Option Instr :=
  s.queues.findSome? fun x =>
    match x.cmds.find? fun c => (s.completes x.q c.k).isSome with
    | some c => some (.commandCompletion x.q c.k)
    | none => none

/-- The dequeue that is due: round-robin from the queue after the last one served. A COPY from host memory waits for its
bytes, which come from outside. -/
def State.dequeueDue (s : State) : Option Instr :=
  let turn (x : SubQ) : Nat := (x.q + 64 - s.nextQueue) % 64
  (orderBy (fun (a b : SubQ) => decide (turn a < turn b)) s.queues).findSome? fun y =>
    match s.nextCmd y.q with
    | none => none
    | some x =>
      let w (off : Nat) : Nat := s.cmdWord x x.head off
      match cmdOp (w 0) with
      | 1 => some (.launch x.q)
      | 2 => some (.flush x.q)
      | 3 => if copyHas [] s w then some (.copy x.q []) else none
      | 4 => some (.sqFence x.q)
      | _ => some (.signal x.q)

end Sys2Proof.Machine
end

