-- ==== Sys2Proof/Machine/Convert.lean ====
section
/-! DEFINITION. Conversion and tag opcodes 0x60-0x68 (R219-R225). -/

namespace Sys2Proof.Machine

open Sys2Proof

/-- The source value of `cvt`, `cvti` and `pack` (R220); none where WORD meets another tag. -/
def sourceValue (src : Fmt) (w : TWord) : Option FVal :=
  match src with
  | .word => match w.tag with
    | .int => some (FVal.ofInt w.payload.toInt)
    | .bool => some (FVal.ofInt w.payload.toNat)
    | t => t.fp?.map fun f => f.value w.payload
  | f => some (f.value 0 w.pay.toNat)

/-- A result in a target format, with its tag (R220). -/
def targetWord (f : Fmt) (bits : Nat) : TWord := ⟨f.tag, BitVec.ofNat 64 (f.extend bits)⟩

/-- cvt with a rounding mode, and cvti: scaling by 2^s is exact. -/
def cvtVal (rm : RMode) (dst src : Fmt) (s : Int) (w : Nat → TWord) : Val :=
  match sourceValue src (w 1) with
  | none => .trap .tag
  | some x =>
    let r := dst.round rm (x.shift s)
    .word (targetWord dst r.bits) (r.flags ||| sigFlags [x]) false

/-- One lane of cvt with error feedback (R157): the value to F0, then the error to F2, whose write stands where both name
one register. -/
def efLane (i : Instr) (dst src : Fmt) (s : State) (c : Crew) (l : Nat) : LaneOut :=
  match sourceValue src (s.opnd i c l 1), dst.bin with
  | some x, some f =>
    let (r, e) := convertEF f x (binF32.decode ((s.opnd i c l 2).pay.toNat % 2 ^ 32))
    { lane := l, writes := [(s.effSlot i c l 0, targetWord dst r.bits), (s.effSlot i c l 2, ⟨.f32, BitVec.ofNat 64 e⟩)],
      flags := r.flags }
  | _, _ => { lane := l, trap := some (s.trapReq i c l TrapName.tag.code) }

def execCvt (rm : CvtMode) (dst src : Fmt) (o : XOps) : State → Out :=
  let i : Instr := .cvt rm dst src o
  match rm with
  | .round m => issue i (perLane i (cvtVal m dst src 0))
  | .ef => issue i fun s _ c lanes => .ok s c (lanes.map (efLane i dst src s c)) false

def execCvti (rm : RMode) (dst src : Fmt) (k : BitVec 32) (o : XOps) : State → Out :=
  issue (.cvti rm dst src k o) (perLane (.cvti rm dst src k o) (cvtVal rm dst src k.toInt))

/-- Bits an element takes in `pack` and `unpack`: 6-bit formats take a byte (R221). -/
def packWidth (f : Fmt) : Nat := f.elemBits

/-- Put element values into a payload from a position on (R221). -/
def packInto (f : Fmt) (rm : RMode) : Nat → Nat → List FVal → Nat × Flags
  | p, _, [] => (p, 0)
  | p, k, x :: t =>
    let r := f.round rm x
    let w := packWidth f
    let p := p - p / 2 ^ (w * k) % 2 ^ w * 2 ^ (w * k) + r.bits * 2 ^ (w * k)
    let (q, fl) := packInto f rm p (k + 1) t
    (q, r.flags ||| sigFlags [x] ||| fl)

/-- pack (R221): slots 1-4 hold the elements. -/
def packVal (f : Fmt) (rm : RMode) (n index : Nat) (w : Nat → TWord) : Val :=
  let xs := (List.range (n + 1)).map fun k => sourceValue .word (w (k + 1))
  if xs.any Option.isNone then .trap .tag
  else
    let (p, fl) := packInto f rm (w 0).pay.toNat index (xs.filterMap id)
    .word ⟨.raw, BitVec.ofNat 64 p⟩ fl false

def execPack (fmt : Fmt) (rm : RMode) (n : BitVec 2) (index : BitVec 8) (o : XOps) : State → Out :=
  issue (.pack fmt rm n index o) (perLane (.pack fmt rm n index o) (packVal fmt rm n.toNat index.toNat))

/-- unpack (R222): integers and lookup codes as INT, scalar floats in their own tag, narrow floats exactly as F32. -/
def unpackVal (f : Fmt) (index : Nat) (w : Nat → TWord) : Val :=
  let bits := (w 1).pay.toNat / 2 ^ (packWidth f * index) % 2 ^ packWidth f
  match f with
  | .f16 | .bf16 | .f32 => .word (targetWord f bits) 0 false
  | .e4m3 | .e5m2 | .e3m2 | .e2m3 | .e2m1 => .word ⟨.f32, BitVec.ofNat 64 (binF32.round .rne (f.value 0 bits)).bits⟩ 0 false
  | .l1 | .l2 => .word (intWord (roundToInt (-2) 2 .rne (f.value 0 bits)).1) 0 false
  | f => .word (targetWord f bits) 0 false

def execUnpack (fmt : Fmt) (index : BitVec 8) (o : XOps) : State → Out :=
  issue (.unpack fmt index o) (perLane (.unpack fmt index o) (unpackVal fmt index.toNat))

def execTagof (o : ROps) : State → Out :=
  issue (.tagof o) (perLane (.tagof o) fun w => .word ⟨.int, BitVec.ofNat 64 (w 1).tag.toNat⟩ 0 false)

/-- settag (R223): a non-conforming result raises TAG (R24). -/
def settagVal (t : Tag) (w : Nat → TWord) : Val :=
  let x := makeWord t (w 1).pay
  if x.conforming then .word x 0 false else .trap .tag

def execSettag (t : Tag) (o : IOps) : State → Out := issue (.settag t o) (perLane (.settag t o) (settagVal t))

/-- tagchk (R223) writes nothing. -/
def execTagchk (mask : BitVec 16) (o : IOps) : State → Out :=
  let i : Instr := .tagchk mask o
  issue i fun s _ c lanes => .ok s c (lanes.map fun l =>
    if mask.getLsbD (s.opnd i c l 1).tag.toNat then { lane := l } else { lane := l, trap := some (s.trapReq i c l TrapName.tag.code) })
    false

/-- hdrld (R224). -/
def hdrldLane (i : Instr) (s : State) (ci : Nat) (c : Crew) (l : Nat) : Crew × Got :=
  match s.resolve ci c (s.opnd i c l 1) with
  | (c, .ok _ h _ _ _) => (c, .out (s.laneOf i c l (.word ⟨.int, h⟩ 0 false)))
  | (c, .trap t) => (c, .out { lane := l, trap := some (s.trapReq i c l t) })
  | (c, .xfault va cause) => (c, .xfault va cause false)
  | (c, .wait) => (c, .wait)

def execHdrld (o : MOps) : State → Out := issue (.hdrld o) (laneBody false (hdrldLane (.hdrld o)))

/-- The identity hash of an address (R31). -/
def identityHash (a : Nat) : Nat :=
  let h := a * 0x9E3779B9 / 2 ^ 36 % 2 ^ 20
  if h = 0 then 1 else h

/-- ihash (R225): a lane that finds IHASH assigned, by an earlier lane too, returns it; otherwise it assigns and stores the
header. -/
def ihashLane (i : Instr) (s : State) (ci : Nat) (c : Crew) (l : Nat) : Crew × Got :=
  match s.resolve ci c (s.opnd i c l 1) with
  | (c, .trap t) => (c, .out { lane := l, trap := some (s.trapReq i c l t) })
  | (c, .xfault va cause) => (c, .xfault va cause false)
  | (c, .wait) => (c, .wait)
  | (c, .ok a h _ _ _) =>
    if hdrIhash h != 0 then (c, .out (s.laneOf i c l (.word ⟨.int, BitVec.ofNat 64 (hdrIhash h)⟩ 0 false)))
    else
      let n := identityHash a
      match s.globalAddr c (BitVec.ofNat 64 a) 8 false true with
      | .trap t => (c, .out { lane := l, trap := some (s.trapReq i c l t) })
      | .xfault va cause => (c, .xfault va cause true)
      | .ok key tagged grain page =>
        let c := (c.store .w [⟨.hdr, h + BitVec.ofNat 64 (n * 16)⟩] key tagged grain).usePage? page
        (c, .out (s.laneOf i c l (.word ⟨.int, BitVec.ofNat 64 n⟩ 0 false)))

def execIhash (o : ROps) : State → Out := issue (.ihash o) (laneBody true (ihashLane (.ihash o)))

end Sys2Proof.Machine
end

