-- ==== Sys2Proof/Machine/Firmware.lean ====
section
/-! DEFINITION. The image in flash (R412, R418), the boot steps and their record (R413-R415), the safe state and recovery
(R416-R418), the mailbox (R419), what the module does (R429, R432). -/

namespace Sys2Proof.Machine

open Sys2Proof

/-! ## The image (R412) -/

/-- The number in `n` bytes of an image. -/
def imageNat (bs : List Byte) (off n : Nat) : Nat := leNat ((bs.drop off).take n)

/-- The component entries: KIND, OFFSET, SIZE. -/
def imageParts (bs : List Byte) : List (Nat × Nat × Nat) :=
  (List.range (imageNat bs 0x10 8)).map fun j =>
    (imageNat bs (0x40 + 16 * j) 1, imageNat bs (0x44 + 16 * j) 4, imageNat bs (0x48 + 16 * j) 8)

/-- Is an image good: MAGIC, LENGTH, the component table, DIGEST? -/
def imageGood (bs : List Byte) : Bool :=
  let len := imageNat bs 8 8
  let n := imageNat bs 0x10 8
  imageNat bs 0 8 == 0x4E474657 && decide (128 ≤ len) && decide (len ≤ 63 * 2 ^ 20) && decide (len ≤ bs.length)
    && decide (5 ≤ n) && decide (n ≤ 32) && imageNat bs 0x18 8 == 0 && decide (0x40 + 16 * n ≤ len)
    && (List.range 5).all (fun k => ((imageParts bs).filter fun p => p.1 == k + 1).length == 1)
    && (imageParts bs).all (fun p => decide (p.2.1 + p.2.2 ≤ len))
    && sha256 ((bs.take len).drop 0x40) == (bs.drop 0x20).take 32

def FlashImage.good : FlashImage → Bool
  | .shipped => true
  | .stored bs => imageGood bs

/-- DIGEST as the SPDM measurement reports it (R412, R429). -/
def FlashImage.digest : FlashImage → BitVec 256
  | .shipped => Config.shippedDigest
  | .stored bs => BitVec.ofNat 256 (beNat ((bs.drop 0x20).take 32))

/-! ## The boot step record (R414, R415) -/

/-- WHAT of a record. -/
def StepRec.what (r : StepRec) : Nat :=
  r.step + r.unit * 2 ^ 8 + (if r.finish then 2 ^ 16 else 0) + r.result % 2 ^ 7 * 2 ^ 17 + r.alts % 2 ^ 8 * 2 ^ 24

/-- The 32 bytes of a record. -/
def StepRec.bytes (r : StepRec) : List Byte :=
  let b := leBytes 8 r.boot ++ leBytes 8 r.what ++ leBytes 8 r.detail.toNat
  b ++ leBytes 8 (crc32 b).toNat

/-- Records the ring holds. -/
def stepRing : Nat := 32768

/-- Append records, the oldest going when the ring is full. -/
def appendRecs (ring recs : List StepRec) : List StepRec :=
  let l := ring ++ recs
  l.drop (l.length - stepRing)

/-- Did a step fail for a unit in a boot: a finish record with a nonzero result, or a start record and no finish record?
A torn record is ignored. -/
def failedIn (ring : List StepRec) (boot step unit : Nat) : Bool :=
  let mine := ring.filter fun r => r.boot == boot && r.step == step && r.unit == unit && !r.torn
  match mine.find? fun r => r.finish with
  | some r => r.result != 0
  | none => mine.any fun r => !r.finish

/-- Units of a boot step (R413). -/
def bootUnits : Nat → List Nat
  | 2 => (List.range 4).flatMap fun d => (List.range 12).map fun c => 16 * d + c
  | 3 | 4 => List.range 64
  | 5 => List.range 4
  | 6 => List.range 18
  | _ => [0]

/-- Alternatives that a step has: a cluster fused off; three speed bins, then the channel retired; a port left down. -/
def bootAlts : Nat → Nat
  | 2 => 1
  | 3 | 4 => 4
  | 6 => 1
  | _ => 0

/-- The alternatives in force for a unit, and with them set. -/
def altsOf (alts : List (Nat × Nat × Nat)) (step unit : Nat) : Nat :=
  ((alts.find? fun a => a.1 == step && a.2.1 == unit).map fun a => a.2.2).getD 0
def setAlts (alts : List (Nat × Nat × Nat)) (step unit n : Nat) : List (Nat × Nat × Nat) :=
  let rest := alts.filter fun a => !(a.1 == step && a.2.1 == unit)
  if n = 0 then rest else rest ++ [(step, unit, n)]

/-- How one unit of a step goes: alternatives in force and the result. A unit whose last alternative leaves it out cannot
fail. -/
def bootUnit (b : Boot) (step unit : Nat) : Nat × Nat :=
  let old := altsOf b.alts step unit
  let n := min (bootAlts step) (old + if failedIn b.ring (b.number - 1) step unit then 1 else 0)
  let need := ((b.weak.find? fun w => w.1 == step && w.2.1 == unit).map fun w => w.2.2).getD 0
  let fails := if step = 0 then !b.image.good else decide (n < need) && !(bootAlts step != 0 && n == bootAlts step)
  (n, if fails then max 1 (Config.bootResult step unit).toNat else 0)

/-- The units of a step that run one after the other: a die's, where a step is per die; these lists run beside each other
(R413). -/
def bootLanes (step : Nat) : List (List Nat) :=
  if 2 ≤ step ∧ step ≤ 5 then (List.range 4).map fun d => (bootUnits step).filter fun u => (if step = 5 then u else u / 16) == d
  else [bootUnits step]

/-- The start and the finish record of a unit of a step. -/
def bootRecs (b : Boot) (step unit : Nat) : List StepRec :=
  let (n, res) := bootUnit b step unit
  let r : StepRec := { boot := b.number, step := step, unit := unit, finish := false, alts := n }
  [r, { r with finish := true, result := res, detail := Config.bootDetail step unit }]

/-- Records of parts that run beside each other, in the order in which they are written: `turn` says whose comes next, a free choice. -/
def mergeRecs (turn : Nat → Nat) : Nat → List (List StepRec) → List StepRec
  | 0, _ => []
  | n + 1, ls =>
    match ls.filter fun l => !l.isEmpty with
    | [] => []
    | [l] => l
    | live =>
      let k := turn n % live.length
      ((live.getD k []).take 1) ++ mergeRecs turn n (live.modify k List.tail)

/-- Run a step for its units: the start and finish records in the order in which they are written (R414), and the alternatives in
force. Between the dies of a step the order is a free choice (DESIGN CHOICE, entry 20). -/
def bootStep (b : Boot) (step : Nat) : Boot :=
  let recs := mergeRecs (Config.bootOrder b.number step) (2 * (bootUnits step).length)
    ((bootLanes step).map fun us => us.flatMap (bootRecs b step))
  { b with
    ring := appendRecs b.ring recs
    alts := (bootUnits step).foldl (fun l u => setAlts l step u (bootUnit b step u).1) b.alts }

/-- The unit of a step that failed in this boot, if any. -/
def bootFailed (b : Boot) (step : Nat) : Option Nat := (bootUnits step).find? fun u => failedIn b.ring b.number step u

/-- The unit of a step that failed in the last boot and has no alternative left, if any (R415); the image check of step 0 looks at
the image anew each time (R418). -/
def bootSpent (b : Boot) (step : Nat) : Option Nat :=
  (bootUnits step).find? fun u => step != 0 && failedIn b.ring (b.number - 1) step u && altsOf b.alts step u == bootAlts step

/-- Boot from a step on (R413, R415): a bad image leads to recovery, a step without an alternative to the safe state; after
any other failure the next boot follows, with the next alternative. A step that failed last time with no alternative left,
as one that a power loss cut off does, is not run again (DEDUCED, entry 20). -/
def bootFrom (b : Boot) : List Nat → Boot
  | [] => { b with phase := .ready }
  | step :: rest =>
    match bootSpent b step with
    | some u => { b with phase := .safe, failed := some (step, u, 1) }
    | none =>
    let b' := bootStep b step
    match bootFailed b' step with
    | none => bootFrom b' rest
    | some u =>
      if step = 0 then { b' with phase := .recovery, failed := some (0, 0, 2) }
      else if altsOf b'.alts step u = bootAlts step then { b' with phase := .safe, failed := some (step, u, 1) }
      else { b' with phase := .inReset }

/-- A boot: the next number, CLEARALT if it was given, then steps 0 to 7. -/
def Boot.run (b : Boot) : Boot :=
  bootFrom { b with number := b.number + 1, alts := if b.clearAlt then [] else b.alts, clearAlt := false, failed := none } (List.range 8)

/-! ## Reset (R413, R416, R432) -/

/-- What a reset leaves: the flash with its records, the parts' condition, the model's inputs; all else is as after reset. -/
def State.afterReset (s : State) (trip : Bool) : State :=
  { State.reset with
    inbox := s.inbox
    freeCtr := s.freeCtr + 1
    boot := { s.boot with phase := .inReset, failed := none, upload := none, busy := false, lost := false, result := 0
                          data := [], thermTrip := trip } }

/-- The bytes of an image's component of a kind (R412). -/
def imagePart (bs : List Byte) (kind : Nat) : List Byte :=
  match (imageParts bs).find? fun p => p.1 == kind with
  | some (_, off, n) => (bs.drop off).take n
  | none => []

/-- Has step 5 loaded the microcode in this boot (R413)? -/
def Boot.loaded (b : Boot) : Bool :=
  (bootUnits 5).all fun u => b.ring.any fun r => r.boot == b.number && r.step == 5 && r.unit == u && r.finish && r.result == 0

/-- What the control complex's private SRAM holds of an image: the code its processors run (R21, R418); none is known of the image
that the part ships with (DESIGN CHOICE, entry 20). -/
def FlashImage.controlCode : FlashImage → List Host.Cell
  | .shipped => []
  | .stored bs => Memory.writes [] 0 ((imagePart bs 1).take Config.controlSramBytes)

/-- The first addresses of a die's channels of bonded DRAM and of LPDDR6 (R392). -/
def dieChannels (d : Nat) : List Nat :=
  ((List.range 16).map fun c => d * 2 ^ 36 + c * 0xF0000000) ++ (List.range 16).map fun c => 2 ^ 40 + d * 2 ^ 38 + c * 0x3C0000000

/-- Where a die's trace ring of some bytes stands: a place in device memory that the spec does not state, or where that is no
installed memory, the first channel that is, of the die if it has one (R431, DESIGN CHOICE, entry 33). -/
def State.tracePlace (s : State) (d bytes : Nat) : Option Nat :=
  let a := (Config.traceBase d).toNat
  if (memRegion a).isSome && s.paUsable a && memRegion a == memRegion (a + bytes - 1) then some a
  else (dieChannels d ++ (List.range 4).flatMap dieChannels).find? s.paUsable

/-- The trace rings of the dies in place; a device with no memory left has rings of no records. -/
def State.placeTraces (s : State) : State :=
  (List.range 4).foldl (fun s d =>
    let n := 2 ^ (10 + Config.traceLog d % 15)
    let (a, n) := match s.tracePlace d (16 * n) with
      | some a => (a, n)
      | none => (0, 0)
    (s.setBar (traceReg d) (BitVec.ofNat 64 a)).setBar (traceReg d + 8) (BitVec.ofNat 64 n)) s

/-- The part after a boot: clusters fused off, channels retired, ports left down, microcode loaded (R413), the trace rings in place
(R431), BAR4 with the size that the host's enumeration gives it, a free choice from 256 MiB to 2 TiB (R21, R364, DESIGN CHOICE,
entry 57). -/
def State.afterBoot (s : State) (b : Boot) : State :=
  State.placeTraces { s with
    boot := b
    barLog := 28 + (Config.freeWord s.freeCtr).toNat % 14
    freeCtr := s.freeCtr + 1
    microcode := if b.loaded then some b.image else none
    controlSram := if b.phase == .recovery then [] else b.image.controlCode
    fused := (bootUnits 2).filterMap fun u => if altsOf b.alts 2 u = bootAlts 2 then some (12 * (u / 16) + u % 16) else none
    retired := (List.range 64).flatMap fun u =>
      (if altsOf b.alts 3 u = bootAlts 3 then [(u / 16, u % 16)] else [])
        ++ (if altsOf b.alts 4 u = bootAlts 4 then [(4 + u / 16, u % 16)] else [])
    ports := (List.range 18).filterMap fun p => if altsOf b.alts 6 p = bootAlts 6 then some (p, { leftDown := true }) else none }

/-- A flash write that a reset interrupts has ended, or has left an image that is not good: a free choice (R418). -/
def State.cutFlash (s : State) (certain : Bool) : State :=
  match s.boot.flashing with
  | none => s
  | some bs =>
    { s with
      freeCtr := s.freeCtr + 1
      boot := { s.boot with flashing := none, image := .stored (if certain || Config.freeBool s.freeCtr then [] else bs) } }

/-- DEVICE_RESET (R413): the boot sequence. -/
def execDeviceReset (s : State) : Out :=
  let s := if s.boot.phase == .inReset then s else (s.cutFlash false).afterReset false
  .next (s.afterBoot s.boot.run)

/-- POWER_LOSS (R414, R415, R418): all but the flash is lost. A boot that was under way leaves the records up to some point, the
last one torn or whole; a flash write leaves an image that is not good. -/
def execPowerLoss (s : State) : Out :=
  let b := s.boot
  if b.phase == .inReset then
    let run := b.run
    let new := run.ring.filter fun r => r.boot == b.number + 1
    let cut := (Config.freeWord s.freeCtr).toNat % (new.length + 1)
    let torn := Config.freeBool (s.freeCtr + 1)
    let recs := (List.range cut).map fun j =>
      let r := new.getD j { boot := 0, step := 0, unit := 0, finish := false }
      if j + 1 = cut then { r with torn := torn } else r
    let alts := (recs.filter fun r => !r.torn).foldl (fun a r => setAlts a r.step r.unit r.alts) (if b.clearAlt then [] else b.alts)
    let s' := s.afterReset false
    .next { s' with
      freeCtr := s.freeCtr + 2
      boot := { s'.boot with number := b.number + 1, ring := appendRecs b.ring recs, alts := alts, clearAlt := false } }
  else .next ((s.cutFlash true).afterReset false)

/-- RESET (R419): the mailbox resets the device; while it is BUSY the command is ignored. -/
def execReset (s : State) : Out :=
  if s.boot.phase == .inReset then .next s
  else if s.boot.busy then .next { s with boot := { s.boot with lost := true } }
  else .next ((s.cutFlash false).afterReset false)

/-- THERMAL_TRIP (R432): the module resets itself into boot; no completion record is written. -/
def execThermalTrip (s : State) : Out := .next ((s.cutFlash false).afterReset true)

/-- THROTTLE (R60, R432): the clocks slow down, which changes timing and no result. -/
def execThrottle (s : State) : Out := .next s

/-! ## The mailbox (R417, R419) -/

/-- Accept a command: BUSY ignores it and sets LOST; else LOST is cleared and the command gives its result. -/
def State.mail (s : State) (run : State → State × Nat) : State :=
  if s.boot.phase == .inReset then s
  else if s.boot.busy then { s with boot := { s.boot with lost := true } }
  else
    let (s', res) := run { s with boot := { s.boot with lost := false } }
    { s' with boot := { s'.boot with result := res } }

/-- ARG0 and ARG1. -/
def State.arg (s : State) (k : Nat) : Nat := (s.bar (0x3000010 + 8 * k)).toNat

/-- Write bytes at the start of the data window. -/
def State.putData (s : State) (bs : List Byte) : State :=
  { s with boot := { s.boot with data := Memory.writes s.boot.data 0 bs } }

/-- The boot whose record of the failing step counts: this one, or the last one where this one did not run the step again. -/
def Boot.failBoot (b : Boot) (step unit : Nat) : Nat :=
  if b.ring.any fun r => r.boot == b.number && r.step == step && r.unit == unit then b.number else b.number - 1

/-- The failure record (R417). -/
def Boot.failRec (b : Boot) : List Byte :=
  let last := b.ring.filter fun r => !r.torn
  let last := last.drop (last.length - 64)
  let head (boot step detail : Nat) : List Byte :=
    leBytes 8 boot ++ leBytes 8 step ++ leBytes 8 detail ++ leBytes 8 last.length ++ List.replicate 32 0 ++ last.flatMap StepRec.bytes
  match b.failed with
  | none => head b.number 0 0
  | some (step, unit, reason) =>
    let fin := b.ring.find? fun r => r.boot == b.failBoot step unit && r.step == step && r.unit == unit && r.finish && !r.torn
    let res := match fin with
      | some r => r.result
      | none => 0x7F
    head (b.failBoot step unit) (step + unit * 2 ^ 8 + res % 2 ^ 7 * 2 ^ 16 + altsOf b.alts step unit * 2 ^ 24 + reason * 2 ^ 32)
      ((fin.map fun r => r.detail.toNat).getD 0)

/-- READ_FAILREC (R416, R417). -/
def execReadFailrec (s : State) : Out := .next (s.mail fun s => (s.putData s.boot.failRec, 0))

/-- IMAGE_BEGIN (R419). -/
def execImageBegin (s : State) : Out :=
  .next (s.mail fun s => ({ s with boot := { s.boot with upload := some (s.arg 0, []) } }, 0))

/-- IMAGE_CHUNK (R419): the next contiguous bytes of the upload; any other order ends it with result 3. -/
def execImageChunk (s : State) : Out :=
  .next (s.mail fun s =>
    match s.boot.upload with
    | none => (s, 3)
    | some (len, bs) =>
      if s.arg 0 ≠ bs.length ∨ len < bs.length + s.arg 1 then ({ s with boot := { s.boot with upload := none } }, 3)
      else if 65536 < s.arg 1 then (s, 1)
      else ({ s with boot := { s.boot with upload := some (len, bs ++ Memory.bytes s.boot.data 0 (s.arg 1)) } }, 0))

/-- A new image begins to be written to flash, if it is good (R418). -/
def State.flashImage (s : State) (bs : List Byte) (mailbox : Bool) : State × Nat :=
  if imageGood bs then
    ({ s with boot := { s.boot with flashing := some bs, busy := mailbox } }, 0)
  else (s, 2)

/-- IMAGE_COMMIT (R418, R419). -/
def execImageCommit (s : State) : Out :=
  .next (s.mail fun s =>
    match s.boot.upload with
    | none => (s, 3)
    | some (len, bs) =>
      let s := { s with boot := { s.boot with upload := none } }
      if bs.length ≠ len then (s, 2) else if s.boot.flashing.isSome then (s, 3) else s.flashImage bs true)

/-- PLDM_FIRMWARE_UPDATE (R418, R429). -/
def execPldmFirmwareUpdate (image : List Byte) (s : State) : Out :=
  if s.boot.phase == .inReset || s.boot.flashing.isSome then .next s else .next (s.flashImage image false).1

/-- What an SPDM measurement reports by index (R429): 1 is the image's DIGEST, 2 the alternatives in force by step and unit. -/
inductive Measurement where
  | digest (d : BitVec 256)
  | alternatives (list : List (Nat × Nat × Nat))
  deriving DecidableEq, Repr

def State.measurement (s : State) : Nat → Option Measurement
  | 1 => some (.digest s.boot.image.digest)
  | 2 => some (.alternatives s.boot.alts)
  | _ => none

/-- CLEARALT (R415, R419): at the next boot. -/
def execClearalt (s : State) : Out := .next (s.mail fun s => ({ s with boot := { s.boot with clearAlt := true } }, 0))

/-- A flash write may end at any time (a free choice): the image stands, BUSY ends, and recovery resets the device (R418). -/
def State.driftFlash (s : State) : State :=
  match s.boot.flashing with
  | none => s
  | some bs =>
    let s' := { s with freeCtr := s.freeCtr + 1 }
    if Config.freeBool s.freeCtr then s'
    else
      let b := { s.boot with image := .stored bs, flashing := none, busy := false }
      if s.boot.phase == .recovery then { s' with boot := b }.afterReset false else { s' with boot := b }

end Sys2Proof.Machine
end

