-- ==== Sys2Proof/Machine/FloatOps.lean ====
section
/-! DEFINITION. Typed float opcodes 0x40-0x52 (R214-R218): scalar and packed types over one element operation. -/

namespace Sys2Proof

/-- Element format, element count and width of a type (R186, R214). -/
def FTy.elem : FTy → BinFmt
  | .f64 => binF64 | .f32 | .f32x2 => binF32 | .f16 | .f16x4 => binF16 | .bf16 | .bf16x4 => binBF16
def FTy.count : FTy → Nat
  | .f32x2 => 2 | .f16x4 | .bf16x4 => 4 | _ => 1
/-- Tag of a result: the scalar's, or RAW (R214). -/
def FTy.tag : FTy → Tag
  | .f64 => .f64 | .f32 => .f32 | .f16 => .f16 | .bf16 => .bf16 | _ => .raw

/-- Element j of a payload. -/
def FTy.bitsAt (t : FTy) (p : BitVec 64) (j : Nat) : Nat := p.toNat / 2 ^ (t.elem.width * j) % 2 ^ t.elem.width
def FTy.valueAt (t : FTy) (p : BitVec 64) (j : Nat) : FVal := t.elem.decode (t.bitsAt p j)

/-- Collect element results into a payload, with the OR of their flags (R161). -/
def packElems (w : Nat) : List FRes → Nat × Flags
  | [] => (0, 0)
  | r :: t => let (n, fl) := packElems w t; (r.bits + 2 ^ w * n, r.flags ||| fl)

/-- The conditions of `fcmp` (R216). -/
def FCond.holds (cc : FCond) (a b : FVal) : Bool :=
  let uo := a.isNan || b.isNan
  match cc with
  | .eq => eqVal a b
  | .ne => !eqVal a b
  | .lt => ltVal a b
  | .le => ltVal a b || eqVal a b
  | .ult => uo || ltVal a b
  | .ule => uo || ltVal a b || eqVal a b
  | .uo => uo
  | .ord => !uo

end Sys2Proof

namespace Sys2Proof.Machine

open Sys2Proof

/-- An operation on every element of a type; the operation gets the element's number. -/
def floatVal (t : FTy) (f : Nat → FRes) : Val :=
  let (n, fl) := packElems t.elem.width ((List.range t.count).map f)
  .word ⟨t.tag, BitVec.ofNat 64 n⟩ fl false

/-- One, two and three operands. -/
def float1 (t : FTy) (f : BinFmt → FVal → FRes) (w : Nat → TWord) : Val :=
  floatVal t fun j => f t.elem (t.valueAt (w 1).pay j)
def float2 (t : FTy) (f : BinFmt → FVal → FVal → FRes) (w : Nat → TWord) : Val :=
  floatVal t fun j => f t.elem (t.valueAt (w 1).pay j) (t.valueAt (w 2).pay j)
def float3 (t : FTy) (f : BinFmt → FVal → FVal → FVal → FRes) (w : Nat → TWord) : Val :=
  floatVal t fun j => f t.elem (t.valueAt (w 1).pay j) (t.valueAt (w 2).pay j) (t.valueAt (w 3).pay j)

def execFadd (ty : FTy) (rm : RMode) (o : ROps) : State → Out :=
  issue (.fadd ty rm o) (perLane (.fadd ty rm o) (float2 ty fun f => fAdd f rm))

def execFsub (ty : FTy) (rm : RMode) (o : ROps) : State → Out :=
  issue (.fsub ty rm o) (perLane (.fsub ty rm o) (float2 ty fun f => fSub f rm))

def execFmul (ty : FTy) (rm : RMode) (o : ROps) : State → Out :=
  issue (.fmul ty rm o) (perLane (.fmul ty rm o) (float2 ty fun f => fMul f rm))

def execFfma (ty : FTy) (rm : RMode) (o : ROps) : State → Out :=
  issue (.ffma ty rm o) (perLane (.ffma ty rm o) (float3 ty fun f => fFma f rm))

def execFdiv (ty : FTy) (rm : RMode) (o : ROps) : State → Out :=
  issue (.fdiv ty rm o) (perLane (.fdiv ty rm o) (float2 ty fun f => fDiv f rm))

def execFsqrt (ty : FTy) (rm : RMode) (o : ROps) : State → Out :=
  issue (.fsqrt ty rm o) (perLane (.fsqrt ty rm o) (float1 ty fun f => fSqrt f rm))

def execFrsq (ty : FTy) (rm : RMode) (o : ROps) : State → Out :=
  issue (.frsq ty rm o) (perLane (.frsq ty rm o) (float1 ty fun f => fRsq f rm))

def execFexp2 (ty : FTy) (rm : RMode) (o : ROps) : State → Out :=
  issue (.fexp2 ty rm o) (perLane (.fexp2 ty rm o) (float1 ty fun f => fExp2 f rm))

def execFlog2 (ty : FTy) (rm : RMode) (o : ROps) : State → Out :=
  issue (.flog2 ty rm o) (perLane (.flog2 ty rm o) (float1 ty fun f => fLog2 f rm))

def execFrcp (ty : FTy) (rm : RMode) (o : ROps) : State → Out :=
  issue (.frcp ty rm o) (perLane (.frcp ty rm o) (float1 ty fun f => fRcp f rm))

def execFmin (ty : FTy) (o : ROps) : State → Out :=
  issue (.fmin ty o) (perLane (.fmin ty o) (float2 ty fMin))

def execFmax (ty : FTy) (o : ROps) : State → Out :=
  issue (.fmax ty o) (perLane (.fmax ty o) (float2 ty fMax))

/-- fabs and fneg act on the encoding (R156, R215). -/
def execFabs (ty : FTy) (o : ROps) : State → Out :=
  issue (.fabs ty o) (perLane (.fabs ty o) fun w => floatVal ty fun j => ⟨ty.bitsAt (w 1).pay j % ty.elem.signBit, 0⟩)

def execFneg (ty : FTy) (o : ROps) : State → Out :=
  issue (.fneg ty o) (perLane (.fneg ty o) fun w => floatVal ty fun j => ⟨ty.bitsAt (w 1).pay j ^^^ ty.elem.signBit, 0⟩)

/-- fcmp: BOOL, or RAW with one bit per element (R216). -/
def fcmpVal (ty : FTy) (cc : FCond) (w : Nat → TWord) : Val :=
  let (n, fl) := packElems 1 ((List.range ty.count).map fun j =>
    let a := ty.valueAt (w 1).pay j
    let b := ty.valueAt (w 2).pay j
    ⟨if cc.holds a b then 1 else 0, sigFlags [a, b]⟩)
  .word (if ty.isScalar then boolWord (n != 0) else ⟨.raw, BitVec.ofNat 64 n⟩) fl false

def execFcmp (ty : FTy) (cc : FCond) (o : ROps) : State → Out :=
  issue (.fcmp ty cc o) (perLane (.fcmp ty cc o) (fcmpVal ty cc))

/-- fclass: an INT with one bit set (R217). -/
def execFclass (ty : FTy) (o : ROps) : State → Out :=
  issue (.fclass ty o)
    (perLane (.fclass ty o) fun w => .word ⟨.int, BitVec.ofNat 64 (2 ^ fClass ty.elem (ty.bitsAt (w 1).pay 0))⟩ 0 false)

def execFround (ty : FTy) (rm : RMode) (o : ROps) : State → Out :=
  issue (.fround ty rm o) (perLane (.fround ty rm o) (float1 ty fun f => fRound f rm))

/-- fscale: Payload(B) as a signed integer for every element (R218). -/
def execFscale (ty : FTy) (rm : RMode) (o : ROps) : State → Out :=
  issue (.fscale ty rm o) (perLane (.fscale ty rm o) fun w => float1 ty (fun f a => fScale f rm a (w 2).pay.toInt) w)

/-- fdot2 (R218): one F64, or two F32 in a RAW word. -/
def fdotVal (ty : FTy) (rm : RMode) (w : Nat → TWord) : Val :=
  let a := (w 1).pay
  let b := (w 2).pay
  let c := (w 3).pay
  match ty with
  | .f32x2 =>
    let r := fDot binF64 rm (ty.valueAt a 0) (ty.valueAt b 0) (ty.valueAt a 1) (ty.valueAt b 1) (FpFmt.value .f64 c)
    .word ⟨.f64, BitVec.ofNat 64 r.bits⟩ r.flags false
  | _ =>
    let (n, fl) := packElems 32 ((List.range 2).map fun j =>
      fDot binF32 rm (ty.valueAt a (2 * j)) (ty.valueAt b (2 * j)) (ty.valueAt a (2 * j + 1)) (ty.valueAt b (2 * j + 1))
        (FTy.valueAt .f32x2 c j))
    .word ⟨.raw, BitVec.ofNat 64 n⟩ fl false

def execFdot2 (ty : FTy) (rm : RMode) (o : ROps) : State → Out :=
  issue (.fdot2 ty rm o) (perLane (.fdot2 ty rm o) (fdotVal ty rm))

end Sys2Proof.Machine
end

