-- ==== Sys2Proof/Machine/Generic.lean ====
section
/-! DEFINITION. Generic opcodes 0x01-0x15: classes by tag pair (R37), their results (R203-R207), lanes that leave their class
(R38, R39). -/

namespace Sys2Proof.Machine

open Sys2Proof

/-! ## Classes (R37) -/

/-- The class of a tag pair, for the opcodes that have it. -/
inductive GClass where
  | int
  | float (t : FpFmt)
  | raw
  | bool
  | nil
  | none
  deriving DecidableEq, Repr

/-- The wider of two float types; F32 for F16 with BF16 (class 5). -/
def widerFp : FpFmt → FpFmt → FpFmt
  | .f64, _ | _, .f64 => .f64
  | .f32, _ | _, .f32 => .f32
  | .f16, .f16 => .f16
  | .bf16, .bf16 => .bf16
  | _, _ => .f32

/-- The class of a pair, by tags alone (classes 0-8). -/
def classOf (a b : Tag) : GClass :=
  match a, b with
  | .int, .int => .int
  | .raw, .raw => .raw
  | .bool, .bool => .bool
  | a, b => match a.fp?, b.fp? with
    | some x, some y => .float (widerFp x y)
    | some _, Option.none => if b = .int then .float .f64 else .none
    | Option.none, some _ => if a = .int then .float .f64 else .none
    | Option.none, Option.none => .none

/-- An operand widened to the class's format: a float keeps its value, an INT is converted to F64 by RNE (R37). -/
def widen (w : TWord) : FVal × Flags :=
  match w.tag.fp? with
  | some t => (t.value w.payload, 0)
  | Option.none => let r := binF64.round .rne (FVal.ofInt w.payload.toInt); (binF64.decode r.bits, r.flags)

/-- An uncommon lane (class 15): the handler's index is formed from the pair. -/
def uncommon (a b : Tag) (c : Option TWord := Option.none) : Val := .generic .uncommonPair a b c

/-- A class-0 result, checked to fit 64 bits (R39, R204). -/
def checkInt (n : Int) (c : Option TWord := Option.none) : Val :=
  if -2 ^ 63 ≤ n ∧ n < 2 ^ 63 then .word (intWord n) 0 false else .generic .intOverflow .int .int c

/-- A unary class-0 result: the pair's second tag is 0. -/
def checkInt1 (n : Int) : Val :=
  if -2 ^ 63 ≤ n ∧ n < 2 ^ 63 then .word (intWord n) 0 false else .generic .intOverflow .int .nil Option.none

/-- A float-class operation of two operands. -/
def floatBin (t : FpFmt) (f : BinFmt → FVal → FVal → FRes) (a b : TWord) : Val :=
  let x := widen a
  let y := widen b
  let r := f t.bin x.1 y.1
  .word (t.word r) (r.flags ||| x.2 ||| y.2) false

/-- A float-class compare: NV for a signalling NaN alone (R206). -/
def floatCmp (p : FVal → FVal → Bool) (a b : TWord) : Val :=
  let x := widen a
  let y := widen b
  .word (boolWord (p x.1 y.1)) (sigFlags [x.1, y.1] ||| x.2 ||| y.2) false

/-- Arithmetic with an integer and a float class. -/
def genArith (fi : Int → Int → Val) (ff : BinFmt → FVal → FVal → FRes) (w : Nat → TWord) : Val :=
  let a := w 1
  let b := w 2
  match classOf a.tag b.tag with
  | .int => fi a.payload.toInt b.payload.toInt
  | .float t => floatBin t ff a b
  | _ => uncommon a.tag b.tag

/-- A compare with an integer and a float class. -/
def genCmp (fi : Int → Int → Bool) (ff : FVal → FVal → Bool) (w : Nat → TWord) : Val :=
  let a := w 1
  let b := w 2
  match classOf a.tag b.tag with
  | .int => .word (boolWord (fi a.payload.toInt b.payload.toInt)) 0 false
  | .float _ => floatCmp ff a b
  | _ => uncommon a.tag b.tag

/-- A bitwise operation: INT, RAW, BOOL (R204, R205, R207). -/
def genBits (f : BitVec 64 → BitVec 64 → BitVec 64) (g : Bool → Bool → Bool) (w : Nat → TWord) : Val :=
  let a := w 1
  let b := w 2
  match classOf a.tag b.tag with
  | .int => .word ⟨.int, f a.payload b.payload⟩ 0 false
  | .raw => .word ⟨.raw, f a.payload b.payload⟩ 0 false
  | .bool => .word (boolWord (g (a.payload != 0) (b.payload != 0))) 0 false
  | _ => uncommon a.tag b.tag

/-- A sign operation on a float's encoding (R156), or an integer result (R203). -/
def genSign (fi : Int → Int) (ff : Nat → Nat → Nat) (w : Nat → TWord) : Val :=
  let a := w 1
  match a.tag.fp? with
  | some t => .word ⟨a.tag, BitVec.ofNat 64 (ff t.bin.signBit (a.payload.toNat % 2 ^ t.bin.width))⟩ 0 false
  | Option.none => if a.tag = .int then checkInt1 (fi a.payload.toInt) else uncommon a.tag .nil

/-- div in class 0 (R204). -/
def divInt (a b : Int) : Val :=
  if b = 0 then .generic .divZero .int .int Option.none
  else if a.tdiv b * b ≠ a then .generic .divInexact .int .int Option.none
  else checkInt (a.tdiv b)

/-- rem in class 0 (R204). -/
def remInt (a b : Int) : Val :=
  if b = 0 then .generic .divZero .int .int Option.none else checkInt (a.tmod b)

/-- rem: class 0 alone. -/
def genRem (w : Nat → TWord) : Val :=
  let a := w 1
  let b := w 2
  if a.tag = .int ∧ b.tag = .int then remInt a.payload.toInt b.payload.toInt else uncommon a.tag b.tag

/-- not (R203-R207). -/
def genNot (w : Nat → TWord) : Val :=
  let a := w 1
  match a.tag with
  | .int => .word ⟨.int, ~~~a.payload⟩ 0 false
  | .raw => .word ⟨.raw, ~~~a.payload⟩ 0 false
  | .bool => .word (boolWord (a.payload == 0)) 0 false
  | t => uncommon t .nil

/-- truth (R207). -/
def genTruth (w : Nat → TWord) : Val :=
  let a := w 1
  match a.tag with
  | .bool => .word (boolWord (a.payload != 0)) 0 false
  | .nil => .word (boolWord false) 0 false
  | t => uncommon t .nil

/-- shl and shr (R205): a large shift of an INT overflows or leaves the sign; a RAW shift is logical. -/
def genShl (w : Nat → TWord) : Val :=
  let a := w 1
  let b := w 2
  if a.tag = .int ∧ b.tag = .int then
    if b.payload.toInt < 0 then uncommon .int .int
    else if 64 ≤ b.payload.toNat then (if a.payload = 0 then .word (intWord 0) 0 false else .generic .intOverflow .int .int Option.none)
    else checkInt (a.payload.toInt * 2 ^ b.payload.toNat)
  else if a.tag = .raw ∧ (b.tag = .raw ∨ b.tag = .int) then
    .word ⟨.raw, if 64 ≤ b.payload.toNat then 0 else a.payload <<< b.payload.toNat⟩ 0 false
  else uncommon a.tag b.tag
def genShr (w : Nat → TWord) : Val :=
  let a := w 1
  let b := w 2
  if a.tag = .int ∧ b.tag = .int then
    if b.payload.toInt < 0 then uncommon .int .int
    else .word ⟨.int, a.payload.sshiftRight (min b.payload.toNat 64)⟩ 0 false
  else if a.tag = .raw ∧ (b.tag = .raw ∨ b.tag = .int) then
    .word ⟨.raw, if 64 ≤ b.payload.toNat then 0 else a.payload >>> b.payload.toNat⟩ 0 false
  else uncommon a.tag b.tag

/-- fma (R38, R204, R206): C must carry the class's result tag. -/
def genFma (rm : RMode) (w : Nat → TWord) : Val :=
  let a := w 1
  let b := w 2
  let c := w 3
  match classOf a.tag b.tag with
  | .int =>
    if c.tag = .int then checkInt (a.payload.toInt * b.payload.toInt + c.payload.toInt) (some c)
    else uncommon a.tag b.tag (some c)
  | .float t =>
    if c.tag = t.tag then
      let x := widen a
      let y := widen b
      let r := fFma t.bin rm x.1 y.1 (t.value c.payload)
      .word (t.word r) (r.flags ||| x.2 ||| y.2) false
    else uncommon a.tag b.tag (some c)
  | _ => uncommon a.tag b.tag (some c)

/-! ## Meanings -/

def execAdd (rm : RMode) (o : ROps) : State → Out :=
  issue (.add rm o) (perLane (.add rm o) (genArith (fun a b => checkInt (a + b)) (fun f => fAdd f rm)))

def execSub (rm : RMode) (o : ROps) : State → Out :=
  issue (.sub rm o) (perLane (.sub rm o) (genArith (fun a b => checkInt (a - b)) (fun f => fSub f rm)))

def execMul (rm : RMode) (o : ROps) : State → Out :=
  issue (.mul rm o) (perLane (.mul rm o) (genArith (fun a b => checkInt (a * b)) (fun f => fMul f rm)))

def execDiv (rm : RMode) (o : ROps) : State → Out :=
  issue (.div rm o) (perLane (.div rm o) (genArith divInt (fun f => fDiv f rm)))

def execRem (rm : RMode) (o : ROps) : State → Out := issue (.rem rm o) (perLane (.rem rm o) genRem)

def execNeg (rm : RMode) (o : ROps) : State → Out :=
  issue (.neg rm o) (perLane (.neg rm o) (genSign (fun a => -a) (fun sb n => n ^^^ sb)))

def execAbs (rm : RMode) (o : ROps) : State → Out :=
  issue (.abs rm o) (perLane (.abs rm o) (genSign (fun a => a.natAbs) (fun sb n => n % sb)))

def execMin (rm : RMode) (o : ROps) : State → Out :=
  issue (.min rm o) (perLane (.min rm o) (genArith (fun a b => checkInt (min a b)) fMin))

def execMax (rm : RMode) (o : ROps) : State → Out :=
  issue (.max rm o) (perLane (.max rm o) (genArith (fun a b => checkInt (max a b)) fMax))

def execCmpeq (rm : RMode) (o : ROps) : State → Out :=
  issue (.cmpeq rm o) (perLane (.cmpeq rm o) (genCmp (fun a b => a == b) eqVal))

def execCmplt (rm : RMode) (o : ROps) : State → Out :=
  issue (.cmplt rm o) (perLane (.cmplt rm o) (genCmp (fun a b => decide (a < b)) ltVal))

def execCmple (rm : RMode) (o : ROps) : State → Out :=
  issue (.cmple rm o) (perLane (.cmple rm o) (genCmp (fun a b => decide (a ≤ b)) (fun a b => ltVal a b || eqVal a b)))

def execAnd (rm : RMode) (o : ROps) : State → Out :=
  issue (.and rm o) (perLane (.and rm o) (genBits (· &&& ·) (· && ·)))

def execOr (rm : RMode) (o : ROps) : State → Out :=
  issue (.or rm o) (perLane (.or rm o) (genBits (· ||| ·) (· || ·)))

def execXor (rm : RMode) (o : ROps) : State → Out :=
  issue (.xor rm o) (perLane (.xor rm o) (genBits (· ^^^ ·) (· != ·)))

def execNot (rm : RMode) (o : ROps) : State → Out := issue (.not rm o) (perLane (.not rm o) genNot)

def execShl (rm : RMode) (o : ROps) : State → Out := issue (.shl rm o) (perLane (.shl rm o) genShl)

def execShr (rm : RMode) (o : ROps) : State → Out := issue (.shr rm o) (perLane (.shr rm o) genShr)

def execFma (rm : RMode) (o : ROps) : State → Out := issue (.fma rm o) (perLane (.fma rm o) (genFma rm))

/-- ident (R207): class 10, never left; REFs compare by resolved address. A REF whose partner is none is resolved too, with the
traps of R101 (DESIGN CHOICE, entry 51). -/
def identLane (i : Instr) (s : State) (ci : Nat) (c : Crew) (l : Nat) : Crew × Got :=
  match s.canon ci c (s.opnd i c l 1) false with
  | (c, .trap t) => (c, .out { lane := l, trap := some (s.trapReq i c l t) })
  | (c, .xfault va cause) => (c, .xfault va cause false)
  | (c, .wait) => (c, .wait)
  | (c, .ok a) => match s.canon ci c (s.opnd i c l 2) false with
    | (c, .trap t) => (c, .out { lane := l, trap := some (s.trapReq i c l t) })
    | (c, .xfault va cause) => (c, .xfault va cause false)
    | (c, .wait) => (c, .wait)
    | (c, .ok b) => (c, .out (s.laneOf i c l (.word (boolWord (a.eqv b)) 0 false)))

def execIdent (rm : RMode) (o : ROps) : State → Out :=
  issue (.ident rm o) (laneBody false (identLane (.ident rm o)))

def execTruth (rm : RMode) (o : ROps) : State → Out := issue (.truth rm o) (perLane (.truth rm o) genTruth)

end Sys2Proof.Machine
end

