-- ==== Sys2Proof/Machine/Integer.lean ====
section
/-! DEFINITION. Typed integer and address opcodes 0x20-0x3D (R208-R213). -/

namespace Sys2Proof

/-- Operation width (R187). -/
def IVar.width : IVar → Nat
  | .i64 | .u64 => 64
  | .i32 | .u32 => 32

/-- Signed variants. -/
def IVar.signed : IVar → Bool
  | .i64 | .i32 => true
  | .u64 | .u32 => false

/-- The extension of R208: of a source's low W bits, and of a result's. -/
def IVar.ext (v : IVar) (p : BitVec 64) : BitVec 64 :=
  match v with
  | .i64 | .u64 => p
  | .i32 => (p.setWidth 32).signExtend 64
  | .u32 => (p.setWidth 32).setWidth 64

/-- A source as the operation reads it: UNDEF reads 0 (R26). -/
def IVar.src (v : IVar) (w : TWord) : BitVec 64 := v.ext w.pay

/-- The low W bits as an unsigned number. -/
def IVar.low (v : IVar) (p : BitVec 64) : Nat := p.toNat % 2 ^ v.width

/-- High half of the product (R209). -/
def IVar.mulh (v : IVar) (a b : BitVec 64) : BitVec 64 :=
  match v with
  | .i64 => (a.signExtend 128 * b.signExtend 128).extractLsb' 64 64
  | .u64 => (a.setWidth 128 * b.setWidth 128).extractLsb' 64 64
  | .i32 | .u32 => (a * b).extractLsb' 32 32 |>.setWidth 64

/-- Quotient toward zero; all ones for a zero divisor (R210). -/
def IVar.quot (v : IVar) (a b : BitVec 64) : BitVec 64 :=
  if b = 0 then BitVec.allOnes 64 else if v.signed then a.sdiv b else a / b

/-- Remainder with the sign of A; A for a zero divisor (R210). -/
def IVar.rmd (v : IVar) (a b : BitVec 64) : BitVec 64 :=
  if b = 0 then a else if v.signed then a.srem b else a % b

/-- Less-than with the variant's signedness. -/
def IVar.lt (v : IVar) (a b : BitVec 64) : Bool := if v.signed then a.slt b else a.ult b

def IVar.minOf (v : IVar) (a b : BitVec 64) : BitVec 64 := if v.lt b a then b else a
def IVar.maxOf (v : IVar) (a b : BitVec 64) : BitVec 64 := if v.lt a b then b else a

/-- Shifts by Payload(B) mod W (R209). -/
def IVar.shl (v : IVar) (a b : BitVec 64) : BitVec 64 := a <<< (b.toNat % v.width)
def IVar.shr (v : IVar) (a b : BitVec 64) : BitVec 64 :=
  if v.signed then a.sshiftRight (b.toNat % v.width) else a >>> (b.toNat % v.width)

/-- Set bits among the low n bits. -/
def countOnes : Nat → Nat → Nat
  | 0, _ => 0
  | n + 1, p => p % 2 + countOnes n (p / 2)
/-- Trailing zeros, n for none set. -/
def countTrailing : Nat → Nat → Nat
  | 0, _ => 0
  | n + 1, p => if p % 2 = 1 then 0 else 1 + countTrailing n (p / 2)
/-- Bits in reverse order. -/
def reverseBits : Nat → Nat → Nat
  | 0, _ => 0
  | n + 1, p => p % 2 * 2 ^ n + reverseBits n (p / 2)

def IVar.popcOf (v : IVar) (p : BitVec 64) : Nat := countOnes v.width (v.low p)
def IVar.ctzOf (v : IVar) (p : BitVec 64) : Nat := countTrailing v.width (v.low p)
def IVar.brevOf (v : IVar) (p : BitVec 64) : Nat := reverseBits v.width (v.low p)
def IVar.clzOf (v : IVar) (p : BitVec 64) : Nat := countTrailing v.width (v.brevOf p)

/-- `bfx` (R211); `b` is the payload of B. -/
def IVar.extract (v : IVar) (a b : BitVec 64) : BitVec 64 :=
  let pos := b.toNat % 256
  let len := b.toNat / 256 % 256
  if len = 0 ∨ v.width ≤ pos then 0
  else
    let n := min len (v.width - pos)
    let x := v.low a / 2 ^ pos % 2 ^ n
    if v.signed then BitVec.ofInt 64 (signedOf n x) else BitVec.ofNat 64 x

/-- `bfi` (R211): A's low bits into C. -/
def IVar.insert (v : IVar) (a b c : BitVec 64) : BitVec 64 :=
  let pos := b.toNat % 256
  let len := b.toNat / 256 % 256
  if len = 0 ∨ v.width ≤ pos then c
  else
    let n := min len (v.width - pos)
    let m := BitVec.ofNat 64 ((2 ^ n - 1) * 2 ^ pos)
    (c &&& ~~~m) ||| ((a <<< pos) &&& m)

/-- The compares of `icmp` and `icmpi` (R212), of operands read under R208. -/
def IVar.compare (v : IVar) (cc : ICond) (a b : BitVec 64) : Bool :=
  match cc with
  | .eq => a == b
  | .ne => a != b
  | .lt => v.lt a b
  | .le => !v.lt b a
  | .ult => decide (v.low a < v.low b)
  | .ule => decide (v.low a ≤ v.low b)

/-- An immediate extended by the variant's signedness (R209). -/
def IVar.imm (v : IVar) (imm : BitVec 32) : BitVec 64 := if v.signed then imm.signExtend 64 else imm.setWidth 64

end Sys2Proof

namespace Sys2Proof.Machine

open Sys2Proof

/-- An INT result under the extension of R208. -/
def intVal (v : IVar) (p : BitVec 64) : Val := .word ⟨.int, v.ext p⟩ 0 false

/-- Two sources, one INT result. -/
def intBin (v : IVar) (f : BitVec 64 → BitVec 64 → BitVec 64) (w : Nat → TWord) : Val :=
  intVal v (f (v.src (w 1)) (v.src (w 2)))

/-- One source, one INT result. -/
def intUn (v : IVar) (f : BitVec 64 → BitVec 64) (w : Nat → TWord) : Val := intVal v (f (v.src (w 1)))

def execIadd (v : IVar) (o : ROps) : State → Out := issue (.iadd v o) (perLane (.iadd v o) (intBin v (· + ·)))

def execIsub (v : IVar) (o : ROps) : State → Out := issue (.isub v o) (perLane (.isub v o) (intBin v (· - ·)))

def execImul (v : IVar) (o : ROps) : State → Out := issue (.imul v o) (perLane (.imul v o) (intBin v (· * ·)))

def execImulh (v : IVar) (o : ROps) : State → Out := issue (.imulh v o) (perLane (.imulh v o) (intBin v v.mulh))

def execIdiv (v : IVar) (o : ROps) : State → Out := issue (.idiv v o) (perLane (.idiv v o) (intBin v v.quot))

def execIrem (v : IVar) (o : ROps) : State → Out := issue (.irem v o) (perLane (.irem v o) (intBin v v.rmd))

def execIneg (v : IVar) (o : ROps) : State → Out := issue (.ineg v o) (perLane (.ineg v o) (intUn v (fun a => -a)))

def execIabs (v : IVar) (o : ROps) : State → Out :=
  issue (.iabs v o) (perLane (.iabs v o) (intUn v (fun a => if v.signed && a.msb then -a else a)))

def execImin (v : IVar) (o : ROps) : State → Out := issue (.imin v o) (perLane (.imin v o) (intBin v v.minOf))

def execImax (v : IVar) (o : ROps) : State → Out := issue (.imax v o) (perLane (.imax v o) (intBin v v.maxOf))

def execIand (v : IVar) (o : ROps) : State → Out := issue (.iand v o) (perLane (.iand v o) (intBin v (· &&& ·)))

def execIor (v : IVar) (o : ROps) : State → Out := issue (.ior v o) (perLane (.ior v o) (intBin v (· ||| ·)))

def execIxor (v : IVar) (o : ROps) : State → Out := issue (.ixor v o) (perLane (.ixor v o) (intBin v (· ^^^ ·)))

def execInot (v : IVar) (o : ROps) : State → Out := issue (.inot v o) (perLane (.inot v o) (intUn v (fun a => ~~~a)))

/-- Shifts take Payload(B) itself, not its extension. -/
def execIshl (v : IVar) (o : ROps) : State → Out :=
  issue (.ishl v o) (perLane (.ishl v o) (fun w => intVal v (v.shl (v.src (w 1)) (w 2).pay)))

def execIshr (v : IVar) (o : ROps) : State → Out :=
  issue (.ishr v o) (perLane (.ishr v o) (fun w => intVal v (v.shr (v.src (w 1)) (w 2).pay)))

def execPopc (v : IVar) (o : ROps) : State → Out :=
  issue (.popc v o) (perLane (.popc v o) (intUn v (fun a => BitVec.ofNat 64 (v.popcOf a))))

def execClz (v : IVar) (o : ROps) : State → Out :=
  issue (.clz v o) (perLane (.clz v o) (intUn v (fun a => BitVec.ofNat 64 (v.clzOf a))))

def execCtz (v : IVar) (o : ROps) : State → Out :=
  issue (.ctz v o) (perLane (.ctz v o) (intUn v (fun a => BitVec.ofNat 64 (v.ctzOf a))))

def execBrev (v : IVar) (o : ROps) : State → Out :=
  issue (.brev v o) (perLane (.brev v o) (intUn v (fun a => BitVec.ofNat 64 (v.brevOf a))))

def execBfx (v : IVar) (o : ROps) : State → Out :=
  issue (.bfx v o) (perLane (.bfx v o) (fun w => .word ⟨.int, v.extract (v.src (w 1)) (w 2).pay⟩ 0 false))

def execBfi (v : IVar) (o : ROps) : State → Out :=
  issue (.bfi v o) (perLane (.bfi v o) (fun w => intVal v (v.insert (v.src (w 1)) (w 2).pay (v.src (w 3)))))

def execIcmp (v : IVar) (cc : ICond) (o : ROps) : State → Out :=
  issue (.icmp v cc o) (perLane (.icmp v cc o) (fun w => .word (boolWord (v.compare cc (v.src (w 1)) (v.src (w 2)))) 0 false))

def execSel (o : ROps) : State → Out :=
  issue (.sel o) (perLane (.sel o) (fun w => .word (if (w 1).pay != 0 then w 2 else w 3) 0 false))

def execLea (v : IVar) (k : BitVec 2) (o : ROps) : State → Out :=
  issue (.lea v k o) (perLane (.lea v k o) (intBin v (fun a b => a + b <<< k.toNat)))

def execMov (o : ROps) : State → Out := issue (.mov o) (perLane (.mov o) (fun w => .word (w 1) 0 false))

def execMovi (v : IVar) (imm : BitVec 32) (o : IOps) : State → Out :=
  issue (.movi v imm o) (perLane (.movi v imm o) (fun _ => .word ⟨.int, v.imm imm⟩ 0 false))

/-- movh (R213) reads D. -/
def execMovh (v : IVar) (imm : BitVec 32) (o : IOps) : State → Out :=
  issue (.movh v imm o) (perLane (.movh v imm o) (fun w => .word ⟨.int, (w 0).pay + imm.signExtend 64 <<< 32⟩ 0 false))

def execIaddi (v : IVar) (imm : BitVec 32) (o : IOps) : State → Out :=
  issue (.iaddi v imm o) (perLane (.iaddi v imm o) (intUn v (fun a => a + imm.signExtend 64)))

def execIcmpi (v : IVar) (cc : ICond) (imm : BitVec 28) (o : IOps) : State → Out :=
  issue (.icmpi v cc imm o)
    (perLane (.icmpi v cc imm o) (fun w => .word (boolWord (v.compare cc (v.src (w 1)) (v.ext (imm.signExtend 64)))) 0 false))

end Sys2Proof.Machine
end

