-- ==== Sys2Proof/Machine/Registers.lean ====
section
/-! DEFINITION. The register map (R420-R422, R428, R430): context slots (R387), lift bindings (R71), the commands TLBINV, MIGRATE
and CANCEL (R375, R394, R400), and writes to registers without a behaviour of their own. -/

namespace Sys2Proof.Machine

open Sys2Proof

/-! ## Context slots (R387) -/

/-- A register of a context slot in a die's controls. -/
def ctxReg (die slot off : Nat) : Nat := 0x101000 + 0x40000 * die + 64 * slot + off

/-- Contexts whose EN the driver has cleared become FREE once they are DEAD or no grid of theirs is left. -/
def State.freeCtxs (s : State) : State :=
  { s with ctxs := s.ctxs.filter fun x =>
      x.en || !(x.state == .dead || !(s.grids.any fun g => g.asid == x.asid && g.status.isNone)) }

/-- The bits of CTL; the others read 0 (R387). -/
def ctlMask : BitVec 64 := 0xFFFFFFFF0003FFFF

/-- A write of CTL on die 0, where the device reads the descriptor when EN goes from 0 to 1; the driver writes the same descriptor on
all four dies. -/
def State.writeCtl (s : State) (slot : Nat) (ctl : BitVec 64) : Out :=
  if 64 ≤ slot ∨ !s.partReady then .next s
  else
    let v := ctl &&& ctlMask
    let s := s.setBar (ctxReg 0 slot 8) v
    let reg (off : Nat) : Nat := (s.bar (ctxReg 0 slot off)).toNat
    let wdq := field v 63 32
    let read (x : Ctx) : Ctx := { x with
      root := reg 0, asid := field v 15 0, debug := v.getLsbD 17, wdq := if wdq = 0 then 4096 else wdq, savebase := reg 0x10
      savesize := reg 0x18, failrec := reg 0x20, en := true }
    match s.ctxs.find? fun x => x.slot == slot, v.getLsbD 16 with
    | none, true => .next { s with ctxs := s.ctxs ++ [{ read { slot := slot } with state := .live }] }
    | none, false => .next s
    | some x, true => .next (if x.en then s else s.setCtx (read x))
    | some x, false => .next (s.setCtx { x with en := false }).freeCtxs

/-- CONTEXT_ENABLE: the driver writes CTL on all four dies. -/
def execContextEnable (slot : Nat) (ctl : BitVec 64) (s : State) : Out :=
  if 64 ≤ slot ∨ !s.partReady then .next s
  else ((List.range 4).foldl (fun (s : State) d => s.setBar (ctxReg d slot 8) (ctl &&& ctlMask)) s).writeCtl slot ctl

/-! ## The lift's binding (R71) -/

/-- LIFTASID: another binding empties the lift; the binding it has changes nothing. -/
def execLiftasid (die : Nat) (v : BitVec 64) (s : State) : Out :=
  if 4 ≤ die ∨ !s.partReady then .next s
  else if (s.lift die).serves (field v 15 0) && v.getLsbD 16 then .next s
  else .next (s.setLift die { entries := [], asid := field v 15 0, en := v.getLsbD 16 })

/-! ## TLBINV (R394) and MIGRATE (R400) -/

/-- Squash the chunks of a context that hold a translation in some range of addresses. -/
def State.squashPages (s : State) (asid : Nat) (hit : Nat → Nat → Bool) : State :=
  s.errorSquash fun c => s.asidOf c == asid && c.chunk.pages.any fun p => hit p.1 p.2

/-- Drop the translations of a context in a range, and the chunks that used them. -/
def State.invalidate (s : State) (asid : Nat) (hit : Nat → Nat → Bool) : State :=
  let s := s.squashPages asid hit
  { s with tlb := s.tlb.filter fun e => !(e.asid == asid && hit e.base e.size) }

/-- A command register: BUSY and ERR (R421). -/
def busyBit : Nat := 63
def errBit : Nat := 62

/-- Has the context an engine command that has not written all its sectors? -/
def State.enginesBusy (s : State) (asid : Nat) : Bool :=
  s.engines.any fun e => (e.2.pend ++ e.2.queue).any fun q => q.asid == asid

/-- TLB_INVALIDATE: translations go at once; the command stays BUSY until the context's engine commands have finished. A write
while it is BUSY sets ERR. -/
def execTlbInvalidate (v : BitVec 64) (s : State) : Out :=
  let old := s.bar 0x28
  if !s.partReady then .next s
  else if old.getLsbD busyBit then .next (s.setBar 0x28 (old ||| BitVec.ofNat 64 (2 ^ errBit)))
  else
    let asid := field v 15 0
    let lo := (s.bar 0x30).toNat
    let hi := lo + (s.bar 0x38).toNat
    let hit (base size : Nat) : Bool := v.getLsbD 16 || (decide (base < hi) && decide (lo < base + size))
    let s := s.invalidate asid hit
    .next (s.setBar 0x28 ((v &&& 0x1FFFF) ||| BitVec.ofNat 64 (2 ^ busyBit)))

/-- A TLBINV whose context has no engine command left reads complete. -/
def State.settleInvalidate (s : State) : State :=
  let v := s.bar 0x28
  if v.getLsbD busyBit && !s.enginesBusy (field v 15 0) then s.setBar 0x28 (v &&& 0x7FFFFFFFFFFFFFFF) else s

/-- Address of the leaf entry that maps an address. -/
def leafEntry (s : State) (va : Nat) : List (Nat × Nat × Nat × Bool × Bool) → Nat → Nat
  | [], table => table
  | (sh, n, _, _, _) :: rest, table =>
    let a := table + 8 * (va / 2 ^ sh % 2 ^ n)
    let e := Memory.nat s.mem a 8
    if e / 2 % 2 = 1 then a else leafEntry s va rest (e / 2 ^ 8 % 2 ^ 48 * 2 ^ 8)

/-- The key for which a request is parked, and the request with its key moved. -/
def ParkedReq.key : ParkedReq → Nat
  | .red _ _ _ _ r => r.key
  | .log _ w => w.key
  | .atomic _ k _ | .sector _ k => k
def ParkedReq.moved (go : Nat → Nat) : ParkedReq → ParkedReq
  | .red c op ty tagged r => .red c op ty tagged { r with key := go r.key }
  | .log t w => .log t { w with key := go w.key }
  | .atomic c k i => .atomic c (go k) i
  | .sector cl k => .sector cl (go k)

/-- Requests parked at the homes of a page that has moved go to the new page's homes, where they are performed in arrival order
(R400). -/
def State.forwardParked (s : State) (within : Nat → Bool) (go : Nat → Nat) : State :=
  let mine := s.parked.filter fun p => within p.req.key
  (mine.map fun p => (⟨lineSlice (go p.req.key / 128), p.req.moved go⟩ : Parked)).foldl State.replay
    { s with parked := s.parked.filter fun p => !within p.req.key }

/-- Move what lies in a range of physical memory to another: bytes, tags, poison, and what engines still write or read
there. The lines that change stand dirty in their L2 slices. -/
def State.movePage (s : State) (old new size : Nat) : State :=
  let within (k : Nat) : Bool := decide (old ≤ k) && decide (k < old + size)
  let fresh (k : Nat) : Bool := !(decide (new ≤ k) && decide (k < new + size))
  let go (k : Nat) : Nat := if within k then k - old + new else k
  let cells := s.mem.filter fun e => within e.1
  let tags := s.tags.filter fun e => within (8 * e.1)
  let gone := s.mem.filter fun e => !fresh e.1
  let engine (q : EngineCmd) : EngineCmd :=
    if q.far.isSome then q
    else { q with dests := unionNat [] (q.dests.map fun k => go (32 * k) / 32), sectors := q.sectors.map fun (x : Sector) => { x with
      bytes := x.bytes.map fun (b : EByte) => { b with key := go b.key, wants := b.wants.map fun w => (go w.1, w.2) }
      tags := x.tags.map fun t => (go (8 * t.1) / 8, t.2)
      tagWants := x.tagWants.map fun t => (go (8 * t.1) / 8, go (8 * t.2) / 8) } }
  let lines := unionNat [] ((cells.map fun e => go e.1 / 128) ++ gone.map fun e => e.1 / 128)
  lines.foldl (fun s l => s.noteUnflushed (128 * l)) { s with
    mem := cells.foldl (fun m e => Memory.write m (go e.1) e.2) (s.mem.filter fun e => fresh e.1)
    tags := tags.foldl (fun m e => Tags.write m (go (8 * e.1) / 8) e.2) (s.tags.filter fun e => fresh (8 * e.1))
    unflushed := s.unflushed.filter fun l => fresh (128 * l)
    poisoned := unionNat (s.poisoned.filter fun l => fresh (32 * l))
      ((s.poisoned.filter fun l => within (32 * l)).map fun l => go (32 * l) / 32)
    copies := s.copies.filter fun x => fresh (128 * x.line)
    fetchCache := s.fetchCache.filter fun e => fresh (e.1 % 2 ^ 55)
    engines := s.engines.map fun (e : Nat × Engine) => (e.1, { pend := e.2.pend.map engine, queue := e.2.queue.map engine }) }

/-- The page at MVA of a context moves to MPA: copy, leaf entry, invalidate, parked requests. Nothing moves where MVA is not mapped, MPA
is not aligned to the page or no installed memory, or MPA is where the page stands (DEDUCED, entry 41). -/
def State.migratePage (s : State) (asid mva mpa : Nat) : State :=
  match s.ctxOf asid, s.walkNow asid mva false false false with
  | some x, .ok p =>
    if mpa % p.size ≠ 0 ∨ !s.runUsable mpa p.size ∨ mpa = p.pa then s
    else
      let a := leafEntry s mva walkLevels x.root
      let leaf := p.leaf.toNat % 2 ^ 16 + mpa
      let hit (base size : Nat) : Bool := decide (base < p.base + p.size) && decide (p.base < base + size)
      let within (k : Nat) : Bool := decide (p.pa ≤ k) && decide (k < p.pa + p.size)
      (((s.movePage p.pa mpa p.size).eventWord none a (BitVec.ofNat 64 leaf)).invalidate asid hit).forwardParked within
        fun k => k - p.pa + mpa
  | _, _ => s

/-- Does a scrub lock hold a line of a page's new place, so that its copy waits (R399)? -/
def State.moveWaits (s : State) (asid mva mpa : Nat) : Bool :=
  match s.walkNow asid mva false false false with
  | .ok p => s.locks.any fun l => decide (mpa ≤ 128 * l) && decide (128 * l < mpa + p.size)
  | .fault _ => false

/-- A MIGRATE that waits is performed once no crew holds the commit token, and BUSY ends (R85, R400, R421). -/
def State.settleMigrate (s : State) : State :=
  match s.migration with
  | none => s
  | some (asid, mva, mpa) =>
    if s.token.isSome || s.moveWaits asid mva mpa then s
    else ({ s with migration := none }.setBar 0x40 (BitVec.ofNat 64 asid)).migratePage asid mva mpa

/-- MIGRATE (R400, R421): the write takes the operands as they stand and sets BUSY until the page has moved; a write while it is BUSY
sets ERR. -/
def execMigrate (v : BitVec 64) (s : State) : Out :=
  let old := s.bar 0x40
  let asid := field v 15 0
  if !s.partReady then .next s
  else if old.getLsbD busyBit then .next (s.setBar 0x40 (old ||| BitVec.ofNat 64 (2 ^ errBit)))
  else .next ({ s with migration := some (asid, (s.bar 0x48).toNat, (s.bar 0x50).toNat) }.setBar 0x40
    (BitVec.ofNat 64 (asid + 2 ^ busyBit))).settleMigrate

/-! ## CANCEL (R375, R421) -/

/-- The grid of a command of a queue stops, and completes CANCELLED. -/
def State.cancelGrid (s : State) (q k : Nat) : State :=
  match (List.range s.grids.length).find? fun gi => (s.grid gi).origin == .command q k && (s.grid gi).status.isNone with
  | some gi =>
    let ts := (List.range s.teams.length).filter fun ti => (s.team ti).grid == gi && (s.team ti).place != .retired
    (s.stopTeams ts).endGrid gi 4
  | none => s

/-- Cancellations wait while a crew holds the commit token (R85). -/
def State.settleCancels (s : State) : State :=
  if s.token.isSome then s
  else s.cancels.foldl (fun s x => s.cancelGrid x.1 x.2) { s with cancels := [] }

/-- CANCEL: the write takes CSEQ as it stands. -/
def execCancel (v : BitVec 64) (s : State) : Out :=
  if !s.partReady then .next s
  else .next { s with cancels := s.cancels ++ [(v.toNat % 64, (s.bar 0x60).toNat)] }.settleCancels

/-! ## Reading the map (R420-R422, R428, R430) -/

/-- Is REPLACE_REQUESTED set (R415, R426, R433)? -/
def State.replaceRequested (s : State) : Bool :=
  !s.boot.alts.isEmpty || s.spared.any (fun e => decide (channelSpares ≤ e.2))
    || (List.range 18).any fun p => !s.portUp p || decide ((SMap.get {} s.ports p).lanes < 8)

/-- STATUS (R421). -/
def State.status (s : State) : Nat :=
  (if s.boot.phase == .ready then 1 else 0) + (if s.boot.phase == .safe || s.boot.phase == .recovery then 2 else 0)
    + (if s.replaceRequested then 4 else 0) + (if s.boot.phase == .recovery then 8 else 0)

/-- Bytes of DRAM that software sees: bonded, and LPDDR6 (R430, R433). -/
def State.capacity (s : State) (lp : Bool) : Nat :=
  let lost := (s.retired.filter fun r => decide (4 ≤ r.1) == lp).length
  (64 - lost) * (if lp then 15 * 2 ^ 30 else 15 * 2 ^ 28)

/-- A register of a block. -/
def State.portRead (s : State) (p off : Nat) : Nat :=
  let x := SMap.get {} s.ports p
  match off with
  | 0x00 => (if s.portUp p then 1 else 0) + (if x.leftDown then 2 else 0) + x.lanes % 16 * 4
  | 0x08 => if x.en then 1 else 0
  | 0x10 => x.txBytes % 2 ^ 64
  | 0x18 => x.rxBytes % 2 ^ 64
  | 0x20 => x.retries % 2 ^ 64
  | _ => 0

/-- Speed bins of a die's 16 channels, two bits each: how many bins below the first a channel has been trained (R413, R420, DESIGN
CHOICE, entry 33). -/
def State.speedBins (s : State) (step die : Nat) : Nat :=
  ((List.range 16).map fun c => min 3 (altsOf s.boot.alts step (16 * die + c)) * 2 ^ (2 * c)).sum

/-- A die's retired channels: bonded from bit 0, LPDDR6 from bit 16 (R420, R433, DESIGN CHOICE, entry 33). -/
def State.retiredMap (s : State) (die : Nat) : Nat :=
  ((List.range 16).map fun c => (if s.retired.contains (die, c) then 2 ^ c else 0) + if s.retired.contains (4 + die, c) then 2 ^ (16 + c) else 0).sum

/-- Eight bytes of a microcode window: those of the loaded image's component, zeros behind it (R413, R420); what the image that the
part ships with holds is not stated (DESIGN CHOICE, entry 33). -/
def State.microcodeAt (s : State) (a kind off : Nat) : Nat :=
  match s.microcode with
  | none => 0
  | some .shipped => (Config.measured a 0).toNat
  | some (.stored bs) => imageNat (imagePart bs kind) off 8

/-- Registers that only measure or log, whose values the spec does not give (R420, R430): the spared-row logs, power and
temperature. -/
def isMeasured (a : Nat) : Bool :=
  let mc := (a - 0x2000000) % 0x200000
  decide (0x2000000 ≤ a ∧ a < 0x2800000 ∧ 0x1000 ≤ mc)
    || a == 0x3800000 || decide (0x3801000 ≤ a ∧ a < 0x3805000 ∧ a % 0x1000 = 0)

/-- A register of the map as the host reads it, by its own address. -/
def State.regRead (s : State) (a : Nat) : Nat :=
  let ctl := a - 0x100000
  let die := ctl / 0x40000
  let off := ctl % 0x40000
  if !s.partReady && decide (0x100000 ≤ a) && !(decide (0x3000000 ≤ a) && decide (a < 0x3800000)) then 0
  else if isMeasured a then (Config.measured a s.clock).toNat
  else if a = 0x000 then 0x09004E47 + Config.stepping.toNat * 2 ^ 32
  else if a = 0x008 then s.status
  else if a = 0x068 then s.faultTail
  else if a = 0x070 then s.faultHead
  else if a = 0x100 then Config.featureMask
  else if 0x200 ≤ a ∧ a ≤ 0x218 then
    ((List.range 12).filter fun c => !s.fused.contains (12 * ((a - 0x200) / 8) + c)).foldl (fun n c => n + 2 ^ c) 0
  else if 0x100000 ≤ a ∧ a < 0x200000 ∧ die < 4 then
    if off = 0 then s.quantum die
    else if off = 8 then (s.lift die).asid + (if (s.lift die).en then 2 ^ 16 else 0)
    else if 0x1000 ≤ off ∧ off < 0x2000 then
      if off % 64 = 0x28 then
        match s.ctxs.find? fun x => x.slot == (off - 0x1000) / 64 with
        | some x => (match x.state with | .free => 0 | .live => 1 | .dying => 2 | .dead => 3)
        | none => 0
      else (s.bar a).toNat
    else if 0x2000 ≤ off ∧ off < 0x2400 then
      match s.ctxs.find? fun x => x.slot == (off - 0x2000) / 16 with
      | some x => if off % 16 = 0 then x.saveNext else x.saveUsed
      | none => 0
    else 0
  else if 0x1000000 ≤ a ∧ a < 0x1000000 + 48 * 0x40000 then
    let cl := (a - 0x1000000) / 0x40000
    match (a - 0x1000000) % 0x40000 with
    | 0 => if s.fused.contains cl then 2 else 1
    | 8 => (s.engine cl).queue.length
    | o => if 0x10000 ≤ o ∧ o < 0x20000 then s.microcodeAt a 2 (o - 0x10000)
           else if 0x20000 ≤ o ∧ o < 0x30000 then s.microcodeAt a 3 (o - 0x20000) else 0
  else if 0x2000000 ≤ a ∧ a < 0x2800000 then
    let die := (a - 0x2000000) / 0x200000
    match (a - 0x2000000) % 0x200000 with
    | 0 => s.speedBins 3 die
    | 8 => s.speedBins 4 die
    | 0x10 => s.retiredMap die
    | _ => 0
  else if 0x2800000 ≤ a ∧ a < 0x2800000 + 18 * 0x1000 then s.portRead ((a - 0x2800000) / 0x1000) (a % 0x1000)
  else if a = 0x28F0030 then s.farLimit / (1000 * Config.cyclesPerMicrosecond)
  else if a = 0x3000008 then (if s.boot.busy then 1 else 0) + (if s.boot.lost then 2 else 0) + s.boot.result * 2 ^ 8
  else if 0x3010000 ≤ a ∧ a < 0x3020000 then Memory.nat s.boot.data (a - 0x3010000) 8
  else if a = 0x3800008 then (if s.bar a = 0 then 2400 else (s.bar a).toNat)
  else if a = 0x3800010 then s.capacity false
  else if a = 0x3800018 then s.capacity true
  else if a = 0x3800020 then (if s.boot.thermTrip then 1 else 0)
  else (s.bar a).toNat

/-- What the host reads with 4 or 8 bytes: a 4-byte access reaches the half it addresses (R420). -/
def State.barRead (s : State) (a bytes : Nat) : Nat :=
  if bytes = 8 ∧ a % 8 = 0 then s.regRead a
  else if bytes = 4 ∧ a % 4 = 0 then s.regRead (a / 8 * 8) / 2 ^ (8 * (a % 8)) % 2 ^ 32
  else 0

/-! ## Writing the map -/

/-- FAULTRESP (R397, R421): it holds what has been written until a response is complete (DEDUCED, entry 26). -/
def faultRespond (v : BitVec 64) (s : State) : Out :=
  let seq := field v 47 0
  let s := s.setBar 0x20 (if field v 49 48 = 1 ∨ field v 49 48 = 2 then 0 else v &&& 0xFFFFFFFFFFFF)
  match field v 49 48 with
  | 1 => execFaultRetry seq s
  | 2 => execFaultKill seq s
  | _ => .next s

/-- The mailbox's CMD: its op; the reserved bits are ignored (R6, R419). -/
def mailboxCmd (v : BitVec 64) (s : State) : Out :=
  match v.toNat % 256 with
  | 1 => execReadFailrec s
  | 2 => execImageBegin s
  | 3 => execImageChunk s
  | 4 => execImageCommit s
  | 5 => execClearalt s
  | 6 => execReset s
  | _ => .next (s.mail fun s => (s, 1))

/-- Registers that hold what is written to them: the value kept, or none when the write is ignored because the value lies
outside its column (DEDUCED, entry 26) or nothing is assigned there. BAR4 has 2^`bar` bytes. -/
def regKeep (bar a : Nat) (v : BitVec 64) : Option (BitVec 64) :=
  let n := v.toNat
  let ctl := a - 0x100000
  let off := ctl % 0x40000
  let when (c : Bool) : Option (BitVec 64) := if c then some v else none
  if a = 0x10 then when (n % 2 ^ bar == 0)
  else if a = 0x30 ∨ a = 0x38 ∨ a = 0x48 ∨ a = 0x50 then when (n % 2 ^ 16 == 0)
  else if a = 0x60 then some v
  else if 0x100000 ≤ a ∧ a < 0x200000 then
    if off = 0 then when (decide (100 ≤ n) && decide (n ≤ 100000))
    else if 0x1000 ≤ off ∧ off < 0x2000 then
      if off % 64 = 8 then some (v &&& ctlMask) else when ([0x00, 0x10, 0x18, 0x20].contains (off % 64))
    else none
  else if a = 0x28F0000 then some (v &&& 0x1FFFFF)
  else if a = 0x28F0008 then some (v &&& 0x1FFFF)
  else if a = 0x28F0010 then when (n % 2 ^ 16 == 0)
  else if a = 0x28F0018 then when (n % 2 ^ 16 == 0 && decide (n ≤ 2 ^ 42))
  else if a = 0x28F0020 then when (n % 4096 == 0)
  else if a = 0x28F0030 then when (decide (1 ≤ n) && decide (n ≤ 1000))
  else if a = 0x3000010 ∨ a = 0x3000018 then some v
  else if a = 0x3800008 then when (decide (600 ≤ n) && decide (n ≤ 2400))
  else if 0x3801000 ≤ a ∧ a < 0x3805000 ∧ a % 0x1000 = 0x38 then some v
  else none

/-- A write of a whole register. -/
def State.regWrite (s : State) (a : Nat) (v : BitVec 64) : Out :=
  let mailbox := decide (0x3000000 ≤ a) && decide (a < 0x3800000)
  if s.boot.phase == .inReset || (!s.partReady && decide (0x100000 ≤ a) && !mailbox) then .next s
  else if a = 0x18 then execFaultringWrite v s
  else if a = 0x20 then faultRespond v s
  else if a = 0x28 then execTlbInvalidate v s
  else if a = 0x40 then execMigrate v s
  else if a = 0x58 then execCancel v s
  else if a = 0x70 then execFaultheadWrite v s
  else if 0x100000 ≤ a ∧ a < 0x200000 ∧ (a - 0x100000) % 0x40000 = 8 then execLiftasid ((a - 0x100000) / 0x40000) v s
  else if 0x101000 ≤ a ∧ a < 0x102000 ∧ a % 64 = 8 then s.writeCtl ((a - 0x101000) / 64) v
  else if 0x2800000 ≤ a ∧ a < 0x2812000 ∧ a % 0x1000 = 8 then execPctlWrite ((a - 0x2800000) / 0x1000) v s
  else if a = 0x28F0028 then (if v = 1 then execReroute s else .next s)
  else if a = 0x3000000 then mailboxCmd v s
  else if 0x3010000 ≤ a ∧ a < 0x3020000 then
    .next { s with boot := { s.boot with data := Memory.writes s.boot.data (a - 0x3010000) (leBytes 8 v.toNat) } }
  else match regKeep s.barLog a v with
    | none => .next s
    | some x => .next (if a = 0x28F0020 then (s.setBar a x).readRoutes else s.setBar a x)

/-- REGISTER_WRITE (R364, R420): 8 bytes, or 4 that reach the half they address. -/
def execRegisterWrite (addr bytes : Nat) (v : BitVec 64) (s : State) : Out :=
  if bytes = 8 ∧ addr % 8 = 0 then s.regWrite addr v
  else if bytes = 4 ∧ addr % 4 = 0 then
    let a := addr / 8 * 8
    let old := s.regRead a
    let half := v.toNat % 2 ^ 32
    s.regWrite a (BitVec.ofNat 64 (if addr % 8 = 0 then old / 2 ^ 32 * 2 ^ 32 + half else old % 2 ^ 32 + half * 2 ^ 32))
  else .next s

end Sys2Proof.Machine
end

