-- ==== Sys2Proof/Machine/Dispatch.lean ====
section
/-! DEFINITION. Which meaning each instruction and event has: one arm per row of the opcode table. -/

namespace Sys2Proof.Machine

open Sys2Proof

def exec (i : Instr) (s : State) : Host.Outcome State Fault Refusal :=
  match i with
  | .add rm o => Sys2Proof.Machine.execAdd rm o s
  | .sub rm o => Sys2Proof.Machine.execSub rm o s
  | .mul rm o => Sys2Proof.Machine.execMul rm o s
  | .div rm o => Sys2Proof.Machine.execDiv rm o s
  | .rem rm o => Sys2Proof.Machine.execRem rm o s
  | .neg rm o => Sys2Proof.Machine.execNeg rm o s
  | .abs rm o => Sys2Proof.Machine.execAbs rm o s
  | .min rm o => Sys2Proof.Machine.execMin rm o s
  | .max rm o => Sys2Proof.Machine.execMax rm o s
  | .cmpeq rm o => Sys2Proof.Machine.execCmpeq rm o s
  | .cmplt rm o => Sys2Proof.Machine.execCmplt rm o s
  | .cmple rm o => Sys2Proof.Machine.execCmple rm o s
  | .and rm o => Sys2Proof.Machine.execAnd rm o s
  | .or rm o => Sys2Proof.Machine.execOr rm o s
  | .xor rm o => Sys2Proof.Machine.execXor rm o s
  | .not rm o => Sys2Proof.Machine.execNot rm o s
  | .shl rm o => Sys2Proof.Machine.execShl rm o s
  | .shr rm o => Sys2Proof.Machine.execShr rm o s
  | .fma rm o => Sys2Proof.Machine.execFma rm o s
  | .ident rm o => Sys2Proof.Machine.execIdent rm o s
  | .truth rm o => Sys2Proof.Machine.execTruth rm o s
  | .iadd v o => Sys2Proof.Machine.execIadd v o s
  | .isub v o => Sys2Proof.Machine.execIsub v o s
  | .imul v o => Sys2Proof.Machine.execImul v o s
  | .imulh v o => Sys2Proof.Machine.execImulh v o s
  | .idiv v o => Sys2Proof.Machine.execIdiv v o s
  | .irem v o => Sys2Proof.Machine.execIrem v o s
  | .ineg v o => Sys2Proof.Machine.execIneg v o s
  | .iabs v o => Sys2Proof.Machine.execIabs v o s
  | .imin v o => Sys2Proof.Machine.execImin v o s
  | .imax v o => Sys2Proof.Machine.execImax v o s
  | .iand v o => Sys2Proof.Machine.execIand v o s
  | .ior v o => Sys2Proof.Machine.execIor v o s
  | .ixor v o => Sys2Proof.Machine.execIxor v o s
  | .inot v o => Sys2Proof.Machine.execInot v o s
  | .ishl v o => Sys2Proof.Machine.execIshl v o s
  | .ishr v o => Sys2Proof.Machine.execIshr v o s
  | .popc v o => Sys2Proof.Machine.execPopc v o s
  | .clz v o => Sys2Proof.Machine.execClz v o s
  | .ctz v o => Sys2Proof.Machine.execCtz v o s
  | .brev v o => Sys2Proof.Machine.execBrev v o s
  | .bfx v o => Sys2Proof.Machine.execBfx v o s
  | .bfi v o => Sys2Proof.Machine.execBfi v o s
  | .icmp v cc o => Sys2Proof.Machine.execIcmp v cc o s
  | .sel o => Sys2Proof.Machine.execSel o s
  | .lea v k o => Sys2Proof.Machine.execLea v k o s
  | .mov o => Sys2Proof.Machine.execMov o s
  | .movi v imm o => Sys2Proof.Machine.execMovi v imm o s
  | .movh v imm o => Sys2Proof.Machine.execMovh v imm o s
  | .iaddi v imm o => Sys2Proof.Machine.execIaddi v imm o s
  | .icmpi v cc imm o => Sys2Proof.Machine.execIcmpi v cc imm o s
  | .fadd ty rm o => Sys2Proof.Machine.execFadd ty rm o s
  | .fsub ty rm o => Sys2Proof.Machine.execFsub ty rm o s
  | .fmul ty rm o => Sys2Proof.Machine.execFmul ty rm o s
  | .ffma ty rm o => Sys2Proof.Machine.execFfma ty rm o s
  | .fdiv ty rm o => Sys2Proof.Machine.execFdiv ty rm o s
  | .fsqrt ty rm o => Sys2Proof.Machine.execFsqrt ty rm o s
  | .frsq ty rm o => Sys2Proof.Machine.execFrsq ty rm o s
  | .fexp2 ty rm o => Sys2Proof.Machine.execFexp2 ty rm o s
  | .flog2 ty rm o => Sys2Proof.Machine.execFlog2 ty rm o s
  | .frcp ty rm o => Sys2Proof.Machine.execFrcp ty rm o s
  | .fmin ty o => Sys2Proof.Machine.execFmin ty o s
  | .fmax ty o => Sys2Proof.Machine.execFmax ty o s
  | .fabs ty o => Sys2Proof.Machine.execFabs ty o s
  | .fneg ty o => Sys2Proof.Machine.execFneg ty o s
  | .fcmp ty cc o => Sys2Proof.Machine.execFcmp ty cc o s
  | .fclass ty o => Sys2Proof.Machine.execFclass ty o s
  | .fround ty rm o => Sys2Proof.Machine.execFround ty rm o s
  | .fscale ty rm o => Sys2Proof.Machine.execFscale ty rm o s
  | .fdot2 ty rm o => Sys2Proof.Machine.execFdot2 ty rm o s
  | .cvt rm dst src o => Sys2Proof.Machine.execCvt rm dst src o s
  | .cvti rm dst src k o => Sys2Proof.Machine.execCvti rm dst src k o s
  | .pack fmt rm n index o => Sys2Proof.Machine.execPack fmt rm n index o s
  | .unpack fmt index o => Sys2Proof.Machine.execUnpack fmt index o s
  | .tagof o => Sys2Proof.Machine.execTagof o s
  | .settag t o => Sys2Proof.Machine.execSettag t o s
  | .tagchk mask o => Sys2Proof.Machine.execTagchk mask o s
  | .hdrld o => Sys2Proof.Machine.execHdrld o s
  | .ihash o => Sys2Proof.Machine.execIhash o s
  | .shfl mode immB o => Sys2Proof.Machine.execShfl mode immB o s
  | .vote op o => Sys2Proof.Machine.execVote op o s
  | .qswap k o => Sys2Proof.Machine.execQswap k o s
  | .qbcast j o => Sys2Proof.Machine.execQbcast j o s
  | .matchKeys o => Sys2Proof.Machine.execMatchKeys o s
  | .msort desc o => Sys2Proof.Machine.execMsort desc o s
  | .perm o => Sys2Proof.Machine.execPerm o s
  | .scan op ex ty rm o => Sys2Proof.Machine.execScan op ex ty rm o s
  | .reduce op ty rm o => Sys2Proof.Machine.execReduce op ty rm o s
  | .elect o => Sys2Proof.Machine.execElect o s
  | .rgw => Sys2Proof.Machine.execRgw s
  | .regroupTimeout quad entry => Sys2Proof.Machine.execRegroupTimeout quad entry s
  | .rgend => Sys2Proof.Machine.execRgend s
  | .bra off => Sys2Proof.Machine.execBra off s
  | .brt o => Sys2Proof.Machine.execBrt o s
  | .brf o => Sys2Proof.Machine.execBrf o s
  | .brx o => Sys2Proof.Machine.execBrx o s
  | .call off => Sys2Proof.Machine.execCall off s
  | .callr o => Sys2Proof.Machine.execCallr o s
  | .ret o => Sys2Proof.Machine.execRet o s
  | .exit => Sys2Proof.Machine.execExit s
  | .exitH => Sys2Proof.Machine.execExitH s
  | .cbrk => Sys2Proof.Machine.execCbrk s
  | .nop => Sys2Proof.Machine.execNop s
  | .wait => Sys2Proof.Machine.execWait s
  | .mcall m o => Sys2Proof.Machine.execMcall m o s
  | .yield => Sys2Proof.Machine.execYield s
  | .illegalInstruction byte enc => Sys2Proof.Machine.execIllegalInstruction byte enc s
  | .routedInstruction w => Sys2Proof.Machine.execRoutedInstruction w s
  | .ld acc o => Sys2Proof.Machine.execLd acc o s
  | .st acc o => Sys2Proof.Machine.execSt acc o s
  | .ldf acc o => Sys2Proof.Machine.execLdf acc o s
  | .stf acc o => Sys2Proof.Machine.execStf acc o s
  | .ldnb o => Sys2Proof.Machine.execLdnb o s
  | .stnb o => Sys2Proof.Machine.execStnb o s
  | .lds acc o => Sys2Proof.Machine.execLds acc o s
  | .sts acc o => Sys2Proof.Machine.execSts acc o s
  | .prf o => Sys2Proof.Machine.execPrf o s
  | .alloc o => Sys2Proof.Machine.execAlloc o s
  | .nurs get o => Sys2Proof.Machine.execNurs get o s
  | .fence => Sys2Proof.Machine.execFence s
  | .ldfar acc o => Sys2Proof.Machine.execLdfar acc o s
  | .stfar acc o => Sys2Proof.Machine.execStfar acc o s
  | .spill o => Sys2Proof.Machine.execSpill o s
  | .fill o => Sys2Proof.Machine.execFill o s
  | .hflush o => Sys2Proof.Machine.execHflush o s
  | .atom op ty o => Sys2Proof.Machine.execAtom op ty o s
  | .acas ty o => Sys2Proof.Machine.execAcas ty o s
  | .red op ty o => Sys2Proof.Machine.execRed op ty o s
  | .sato op ty o => Sys2Proof.Machine.execSato op ty o s
  | .qpush q o => Sys2Proof.Machine.execQpush q o s
  | .qpop q o => Sys2Proof.Machine.execQpop q o s
  | .qallow q o => Sys2Proof.Machine.execQallow q o s
  | .qtry q o => Sys2Proof.Machine.execQtry q o s
  | .tbar reg id count o => Sys2Proof.Machine.execTbar reg id count o s
  | .abinit o => Sys2Proof.Machine.execAbinit o s
  | .abexp o => Sys2Proof.Machine.execAbexp o s
  | .abwait o => Sys2Proof.Machine.execAbwait o s
  | .abarr o => Sys2Proof.Machine.execAbarr o s
  | .hclaim o => Sys2Proof.Machine.execHclaim o s
  | .hins o => Sys2Proof.Machine.execHins o s
  | .hprobe o => Sys2Proof.Machine.execHprobe o s
  | .hdel o => Sys2Proof.Machine.execHdel o s
  | .hacc op o => Sys2Proof.Machine.execHacc op o s
  | .hdrain o => Sys2Proof.Machine.execHdrain o s
  | .hrel => Sys2Proof.Machine.execHrel s
  | .hstat o => Sys2Proof.Machine.execHstat o s
  | .obres bytes soff blen32 fmt f0 => Sys2Proof.Machine.execObres bytes soff blen32 fmt f0 s
  | .obrel o => Sys2Proof.Machine.execObrel o s
  | .obld bytes o => Sys2Proof.Machine.execObld bytes o s
  | .mma p => Sys2Proof.Machine.execMma p s
  | .mmas pat p => Sys2Proof.Machine.execMmas pat p s
  | .mlut p => Sys2Proof.Machine.execMlut p s
  | .nmsel pat kl rows o => Sys2Proof.Machine.execNmsel pat kl rows o s
  | .accz o => Sys2Proof.Machine.execAccz o s
  | .accrd o => Sys2Proof.Machine.execAccrd o s
  | .accwr o => Sys2Proof.Machine.execAccwr o s
  | .accmv rm t doff o => Sys2Proof.Machine.execAccmv rm t doff o s
  | .sclld off bytes o => Sys2Proof.Machine.execSclld off bytes o s
  | .accred max o => Sys2Proof.Machine.execAccred max o s
  | .xld mask o => Sys2Proof.Machine.execXld mask o s
  | .xst o => Sys2Proof.Machine.execXst o s
  | .xsc o => Sys2Proof.Machine.execXsc o s
  | .xreq count cap o => Sys2Proof.Machine.execXreq count cap o s
  | .xfar get o => Sys2Proof.Machine.execXfar get o s
  | .fld mode o => Sys2Proof.Machine.execFld mode o s
  | .wput o => Sys2Proof.Machine.execWput o s
  | .wget o => Sys2Proof.Machine.execWget o s
  | .lnch o => Sys2Proof.Machine.execLnch o s
  | .svc n lk o => Sys2Proof.Machine.execSvc n lk o s
  | .trap code o => Sys2Proof.Machine.execTrap code o s
  | .rfh => Sys2Proof.Machine.execRfh s
  | .gets r o => Sys2Proof.Machine.execGets r o s
  | .sets r o => Sys2Proof.Machine.execSets r o s
  | .bkpt n => Sys2Proof.Machine.execBkpt n s
  | .clk bundles o => Sys2Proof.Machine.execClk bundles o s
  | .prof n => Sys2Proof.Machine.execProf n s
  | .abort n => Sys2Proof.Machine.execAbort n s
  | .handlerEntry crew ts => Sys2Proof.Machine.execHandlerEntry crew ts s
  | .longLatencyResult crew lane k => Sys2Proof.Machine.execLongLatencyResult crew lane k s
  | .chunkLimitReached crew => Sys2Proof.Machine.execChunkLimitReached crew s
  | .commitGrant crew => Sys2Proof.Machine.execCommitGrant crew s
  | .chunkCommit crew => Sys2Proof.Machine.execChunkCommit crew s
  | .commitTokenRequest crew => Sys2Proof.Machine.execCommitTokenRequest crew s
  | .commitTokenGrant => Sys2Proof.Machine.execCommitTokenGrant s
  | .engineIssueEvent cluster => Sys2Proof.Machine.execEngineIssueEvent cluster s
  | .engineSectorWrite cluster => Sys2Proof.Machine.execEngineSectorWrite cluster s
  | .farOperationArrival f => Sys2Proof.Machine.execFarOperationArrival f s
  | .farReply seq ws => Sys2Proof.Machine.execFarReply seq ws s
  | .farAcknowledge seq => Sys2Proof.Machine.execFarAcknowledge seq s
  | .farRefusal seq reason => Sys2Proof.Machine.execFarRefusal seq reason s
  | .farTimeout seq => Sys2Proof.Machine.execFarTimeout seq s
  | .faultQueueReplay slice => Sys2Proof.Machine.execFaultQueueReplay slice s
  | .translationFault crew va cause write fetch engine => Sys2Proof.Machine.execTranslationFault crew va cause write fetch engine s
  | .softErrorDetected e => Sys2Proof.Machine.execSoftErrorDetected e s
  | .correctedError pa spare => Sys2Proof.Machine.execCorrectedError pa spare s
  | .declareDead asid cause detail => Sys2Proof.Machine.execDeclareDead asid cause detail s
  | .watchdogExpiry asid => Sys2Proof.Machine.execWatchdogExpiry asid s
  | .fourWaitTimeout crew => Sys2Proof.Machine.execFourWaitTimeout crew s
  | .quantumExpiry die => Sys2Proof.Machine.execQuantumExpiry die s
  | .gangPlacement die => Sys2Proof.Machine.execGangPlacement die s
  | .crewEvict crew => Sys2Proof.Machine.execCrewEvict crew s
  | .crewRestore crew => Sys2Proof.Machine.execCrewRestore crew s
  | .hostWindowWrite off bytes v => Sys2Proof.Machine.execHostWindowWrite off bytes v s
  | .hostWindowRead off bytes => Sys2Proof.Machine.execHostWindowRead off bytes s
  | .hostApertureWrite off data => Sys2Proof.Machine.execHostApertureWrite off data s
  | .hostApertureRead off bytes => Sys2Proof.Machine.execHostApertureRead off bytes s
  | .sqDoorbell q tail => Sys2Proof.Machine.execSqDoorbell q tail s
  | .sqEnable q => Sys2Proof.Machine.execSqEnable q s
  | .launch q => Sys2Proof.Machine.execLaunch q s
  | .flush q => Sys2Proof.Machine.execFlush q s
  | .copy q data => Sys2Proof.Machine.execCopy q data s
  | .sqFence q => Sys2Proof.Machine.execSqFence q s
  | .signal q => Sys2Proof.Machine.execSignal q s
  | .commandCompletion q k => Sys2Proof.Machine.execCommandCompletion q k s
  | .cqheadWrite q v => Sys2Proof.Machine.execCqheadWrite q v s
  | .serviceDoorbell ring v => Sys2Proof.Machine.execServiceDoorbell ring v s
  | .svcRingEvent crew => Sys2Proof.Machine.execSvcRingEvent crew s
  | .contextEnable slot ctl => Sys2Proof.Machine.execContextEnable slot ctl s
  | .liftasid die v => Sys2Proof.Machine.execLiftasid die v s
  | .tlbInvalidate v => Sys2Proof.Machine.execTlbInvalidate v s
  | .migrate v => Sys2Proof.Machine.execMigrate v s
  | .faultRetry seq => Sys2Proof.Machine.execFaultRetry seq s
  | .faultKill seq => Sys2Proof.Machine.execFaultKill seq s
  | .faultheadWrite v => Sys2Proof.Machine.execFaultheadWrite v s
  | .faultringWrite v => Sys2Proof.Machine.execFaultringWrite v s
  | .cancel v => Sys2Proof.Machine.execCancel v s
  | .reroute => Sys2Proof.Machine.execReroute s
  | .pctlWrite port v => Sys2Proof.Machine.execPctlWrite port v s
  | .linkPortDown port lanes => Sys2Proof.Machine.execLinkPortDown port lanes s
  | .registerWrite addr bytes v => Sys2Proof.Machine.execRegisterWrite addr bytes v s
  | .readFailrec => Sys2Proof.Machine.execReadFailrec s
  | .imageBegin => Sys2Proof.Machine.execImageBegin s
  | .imageChunk => Sys2Proof.Machine.execImageChunk s
  | .imageCommit => Sys2Proof.Machine.execImageCommit s
  | .clearalt => Sys2Proof.Machine.execClearalt s
  | .reset => Sys2Proof.Machine.execReset s
  | .deviceReset => Sys2Proof.Machine.execDeviceReset s
  | .powerLoss => Sys2Proof.Machine.execPowerLoss s
  | .throttle => Sys2Proof.Machine.execThrottle s
  | .thermalTrip => Sys2Proof.Machine.execThermalTrip s
  | .matrixInstructionComplete quad => Sys2Proof.Machine.execMatrixInstructionComplete quad s
  | .pldmFirmwareUpdate image => Sys2Proof.Machine.execPldmFirmwareUpdate image s

end Sys2Proof.Machine
end

