-- ==== Sys2Proof/Machine/Schedule.lean ====
section
/-! DEFINITION. What a step does next: time passes, an event from outside is due (DESIGN CHOICE, entry 1), an event of the machine's
own agents is due, or a quadrant issues a bundle (R55). -/

namespace Sys2Proof.Machine

open Sys2Proof

/-! ## Time -/

/-- A crew as a cycle passes: `clk` 0 counts while it holds a slot (R242), a four's partner waits, in its slot or evicted alone
(R59). -/
def State.tickCrew (s : State) (c : Crew) : Crew :=
  { c with
    clk0 := if c.place == .resident then c.clk0 + 1 else c.clk0
    mwait := if c.wake != some .four then 0 else if s.present c then c.mwait + 1 else c.mwait }

/-- A cycle passes for the outside events: those whose delay is over wait for their turn, the next one comes closer. -/
def tickInbox : List (Nat × Instr) → List (Nat × Instr)
  | [] => []
  | (0, i) :: rest => (0, i) :: tickInbox rest
  | (d + 1, i) :: rest => (d, i) :: rest

/-- One cycle of the package: CLOCK (R193), the crews, the outside events. -/
def State.tick (s : State) : State :=
  { s with
    clock := s.clock + 1
    crews := s.crews.map s.tickCrew
    inbox := tickInbox s.inbox }

/-! ## Selection (R55) -/

/-- Does the crew stand ready to issue? -/
def State.ready (s : State) (ci : Nat) : Bool := ({ s with focus := some ci }.stand).isSome

/-- Choose before: longer ready, then crews before composite bundles, then the lower slot. -/
def Crew.before (a b : Crew) : Bool :=
  decide (a.readySince < b.readySince)
    || (a.readySince == b.readySince && ((!a.isComposite && b.isComposite)
      || (a.isComposite == b.isComposite && decide (a.slot < b.slot))))

/-- The crew of a list that goes first. -/
def State.first (s : State) : List Nat → Option Nat
  | [] => none
  | k :: t => match s.first t with
    | none => some k
    | some m => if (s.crew m).before (s.crew k) then some m else some k

/-- The crews that are not ready are ready from now on, at the earliest, and belong to a round that begins with them then. A saved
crew counts from when its wake condition holds (R67). -/
def State.markReady (s : State) : State :=
  { s with crews := (List.range s.crews.length).map fun k =>
      let c := s.crew k
      if s.ready k then c
      else { c with readySince := if c.place == .saved && s.restorable k then c.readySince else s.clock.toNat, inRound := false } }

/-- The quadrant that issues next, in turn after the last one. -/
def nextQuad (last : Nat) (qs : List Nat) : Option Nat :=
  match leastOf (qs.filter fun q => decide (last < q)) with
  | some q => some q
  | none => leastOf qs

/-- Select the crew that issues: rounds of R55 in the quadrant whose turn it is (DESIGN CHOICE, entry 2). -/
def State.pick (s : State) : State × Option Nat :=
  let ready := (List.range s.crews.length).filter s.ready
  match nextQuad s.lastQuad (ready.map fun k => (s.crew k).quadNo) with
  | none => (s, none)
  | some q =>
    let mine := ready.filter fun k => (s.crew k).quadNo == q
    let inRound := mine.filter fun k => (s.crew k).inRound
    let (s, members) := if inRound.isEmpty then
        (mine.foldl (fun s k => s.setCrew k { s.crew k with inRound := true }) s, mine)
      else (s, inRound)
    match s.first members with
    | none => (s, none)
    | some k =>
      let c := s.crew k
      ({ s.setCrew k { c with inRound := false, readySince := s.clock.toNat } with lastQuad := q, focus := some k }, some k)

/-! ## Fetch -/

/-- The instruction at a crew's bundle: the word an `mcall` substituted (R359), else the one or two words at its PC; a fetch
that does not translate is a translation fault (R395). -/
def State.fetch (s : State) (ci : Nat) : Instr :=
  let c := s.crew ci
  match c.expansion with
  | some e => if e.illegal then .illegalInstruction (BitVec.ofNat 8 (e.word.toNat / 2 ^ 56)) true else instrOf e.word.toNat
  | none =>
    let pc := c.pc.toNat
    match s.fetchWord c.core (s.asidOf c) pc with
    | .error cause => .translationFault ci c.pc cause false true false
    | .ok w =>
      if opFormat (w.toNat / 2 ^ 56) = some .x then
        match s.fetchWord c.core (s.asidOf c) (pc + 8) with
        | .error cause => .translationFault ci (c.pc + 8) cause false true false
        | .ok w2 => instrOf (w.toNat + 2 ^ 64 * w2.toNat)
      else instrOf w.toNat

/-- The core's instruction cache takes the line of a fetch (R14). -/
def State.noteFetch (s : State) (ci : Nat) : State :=
  let c := s.crew ci
  if c.expansion.isSome then s
  else match s.xlate c.core (s.asidOf c) c.pc.toNat false false true with
    | .ok p => s.cacheCode c.core (p.key c.pc.toNat)
    | .fault _ => s

/-! ## Events of the machine's own agents -/

/-- The first answer of a list of numbers. -/
def firstSome {α : Type} (f : Nat → Option α) : List Nat → Option α
  | [] => none
  | k :: t => match f k with
    | some a => some a
    | none => firstSome f t

/-- An event, where it is due. -/
def dueIf (c : Bool) (i : Instr) : Option Instr := if c then some i else none

/-- What a crew's own machinery does next. -/
def State.crewEvent (s : State) (k : Nat) : Option Instr :=
  let c := s.crew k
  if c.place == .retired then none
  else match c.chunk.phase with
  | .committing (a :: _) _ =>
    if s.tokenHeld k || s.grants.any fun g => g.1 == a then none else some (.commitGrant k)
  | .committing [] held => match s.tryCommit k held with
    | .error .wait => none
    | _ => some (.chunkCommit k)
  | .running =>
    if c.place != .resident then dueIf (s.fourTimedOut k) (.fourWaitTimeout k)
    else if c.consec = 6 && !c.tokenAsked && s.token != some k then some (.commitTokenRequest k)
    else if decide (chunkLimit c ≤ c.chunk.bundles) then some (.chunkLimitReached k)
    else if s.fourTimedOut k then some (.fourWaitTimeout k)
    else none

/-- The commit token (R84). -/
def State.tokenEvent (s : State) : Option Instr :=
  match s.token, s.tokenQueue with
  | none, _ :: _ => dueIf s.grants.isEmpty .commitTokenGrant
  | _, _ => none

/-- A cluster's engine (R94): a sector or a command's issue; where both could come, a free choice says which (R318, DESIGN CHOICE,
entry 4). -/
def State.engineEvent (s : State) (e : Nat × Engine) : Option Instr :=
  let write := dueIf (!(s.turns e.1).isEmpty) (.engineSectorWrite e.1)
  let enter := e.2.pend.head?.bind fun q => dueIf (s.canIssue e.1 q) (.engineIssueEvent e.1)
  match write, enter with
  | some w, some i => some (if Config.freeBool s.freeCtr then w else i)
  | w, i => w.or i

/-- The next event of the engines. -/
def State.engineDue (s : State) : Option Instr := s.engines.findSome? s.engineEvent

/-- Does an engine's event that is due come before the bundle that could issue? A free choice; no more than `Config.enginePatience`
bundles go first (DESIGN CHOICE, entries 2 and 4). -/
def State.engineFirst (s : State) : Bool :=
  decide (Config.enginePatience ≤ s.enginesPassed) || Config.freeBool (s.freeCtr + 1)

/-- A quadrant: an accepted matrix instruction completes, or a regrouping entry fires (R61, R279). -/
def State.quadEvent (s : State) (q : Nat × Quad) : Option Instr :=
  if 0 < q.2.busy then some (.matrixInstructionComplete q.1)
  else match q.2.regroup.find? fun e => s.fires q.1 e.2 with
    | some e => some (.regroupTimeout q.1 e.1)
    | none => none

/-- A far operation of this device (R425, R427): its route names no device, it has its answer, or it waited too long. -/
def State.farEvent (s : State) (f : FarOut) : Option Instr :=
  match f.answer with
  | some (.reply ws) => some (.farReply f.op.seq ws)
  | some .ack => some (.farAcknowledge f.op.seq)
  | some (.refusal reason) => some (.farRefusal f.op.seq reason)
  | none =>
    if s.noDevice f.op.dst then some (.farRefusal f.op.seq 1)
    else dueIf (s.farLate f) (.farTimeout f.op.seq)

/-- The first far operation to the device itself that is not performed, once a plane carries it (R261). -/
def State.farSelf (s : State) : Option Instr :=
  match s.far.find? fun f => f.op.dst == s.devNum && f.answer.isNone with
  | none => none
  | some f =>
    if f.plane.isNone || s.noDevice f.op.dst then none
    else match s.performFar f.op with
      | .wait => none
      | _ => some (.farOperationArrival f.op)

/-- A saved crew: its `svc` can be performed, or it can be restored. -/
def State.savedEvent (s : State) (k : Nat) : Option Instr :=
  if s.svcDue k then some (.svcRingEvent k) else dueIf (s.restoreDue k) (.crewRestore k)

/-- A die's cox (R381, R382). -/
def State.coxEvent (s : State) (die : Nat) : Option Instr :=
  if s.quantumEnd die ≤ s.clock.toNat then some (.quantumExpiry die) else dueIf (s.placementDue die) (.gangPlacement die)

/-- A declaration that may be performed (R402). -/
def State.deathEvent (s : State) : Option Instr :=
  (s.dying.find? s.mayDeclare).map fun d => .declareDead d.asid d.cause d.detail

/-- The event of the machine's own that is due, if any, while the part is ready; the engines' apart. -/
def State.nextEvent? (s : State) : Option Instr :=
  s.deathEvent
    |>.or (firstSome s.crewEvent (List.range s.crews.length))
    |>.or s.tokenEvent
    |>.or (s.quads.findSome? s.quadEvent)
    |>.or s.farSelf
    |>.or (s.far.findSome? s.farEvent)
    |>.or (firstSome s.savedEvent (List.range s.crews.length))
    |>.or (firstSome s.coxEvent (List.range 4))
    |>.or ((s.ctxs.find? fun x => x.state == .live && decide (x.wdq ≤ x.wdcount)).map fun x => .watchdogExpiry x.asid)
    |>.or ((List.range 64).findSome? fun q => dueIf (s.token.isNone && s.enableDue q) (.sqEnable q))
    |>.or s.dequeueDue
    |>.or s.completionDue
    |>.or (dueIf s.token.isNone (.faultQueueReplay (lineSlice (s.locks.headD 0))) |>.filter fun _ => !s.locks.isEmpty)
    |>.or (s.parked.head?.bind fun p => dueIf s.token.isNone (.faultQueueReplay p.slice))

/-- A crew that stands within a macro body's operation goes on at once. -/
def State.expanding (s : State) : Option Nat :=
  (List.range s.crews.length).find? fun k => (s.crew k).expansion.isSome && s.ready k

/-! ## Events from outside (DESIGN CHOICE, entry 1) -/

/-- Events of one class are taken in the order they come: the host's accesses to BAR2 and BAR4 (R366), other devices' far
operations (R95). -/
def eventClass : Instr → Nat
  | .hostWindowWrite .. | .hostWindowRead .. | .hostApertureWrite .. | .hostApertureRead .. | .sqDoorbell .. | .cqheadWrite ..
  | .serviceDoorbell .. => 1
  | .farOperationArrival _ => 2
  | _ => 0

/-- Must an event from outside wait for the commit token, a grant, an engine, a scrub lock, or the reading of a descriptor that a store
of the device's has enabled? -/
def State.heldBack (s : State) (i : Instr) : Bool :=
  let window (off n : Nat) : Bool := s.windowOk off n
    && (s.eventWaits (Config.windowBase + off) n || decide (off < 0x2000) && s.enableDue (off / 128))
  match i with
  | .hostWindowWrite off n _ | .hostWindowRead off n => window off n
  | .sqDoorbell q _ => window (128 * q + 0x10) 8
  | .cqheadWrite q _ => window (128 * q + 0x40) 8
  | .serviceDoorbell ring _ => window (ring + 0x18) 8
  | .farOperationArrival f => s.token.isSome || (match s.performFar f with
    | .wait => true
    | _ => false)
  | .faultQueueReplay _ => s.token.isSome
  | _ => false

/-- The first due outside event that need not wait, and what is left. -/
def State.takeInbox (s : State) (held : List Nat) : List (Nat × Instr) → Option (Instr × List (Nat × Instr))
  | (0, i) :: rest =>
    let k := eventClass i
    if s.heldBack i || (k != 0 && held.contains k) then
      (State.takeInbox s (k :: held) rest).map fun r => (r.1, (0, i) :: r.2)
    else some (i, rest)
  | _ => none

/-! ## What goes on beside the steps -/

/-- Pushes that wait for space in a team's queues are served when they can be (R85, R115). -/
def State.pumpPushes (s : State) : State :=
  if s.token.isSome then s
  else (List.range s.teams.length).foldl (fun s ti =>
    (s.team ti).pushes.foldl (fun s p => s.serveQueue ti p.core p.q) s) s

/-- The caches take the lines that the chunks have met. -/
def State.takeMet (s : State) : State :=
  if s.crews.all fun c => c.chunk.met.isEmpty then s
  else
    let s' := s.crews.foldl (fun (s : State) (c : Crew) => s.cacheLines (c.core / 4) c.chunk.met) s
    { s' with crews := s'.crews.map fun (c : Crew) => { c with chunk := { c.chunk with met := [] } } }

/-- Queues whose EN a store of the device's has cleared (R370). -/
def State.noteCleared (s : State) : State := (s.queues.map SubQ.q).foldl State.noteDisabled s

/-- Free choices of a cycle (host writes becoming visible, a flash write ending), and what follows from finished work. -/
def State.housekeep (s : State) : State :=
  s.driftHost.driftFlash.takeMet.noteCleared.pumpPushes.pumpFaults.pumpGrids.settleInvalidate.settleMigrate.settleCancels.freeCtxs

/-- What the step executes, if anything: an outside event that is due, a body's next operation, an event of the machine's own,
an engine's event, or the next bundle's instruction. A part in reset boots; one that is not ready has only outside events. -/
def State.choose (s : State) : State × Option Instr :=
  let s := s.tick.housekeep.markReady
  match s.takeInbox [] s.inbox with
  | some (i, rest) => ({ s with inbox := rest }, some i)
  | none =>
    match s.boot.phase with
    | .inReset => (s, some .deviceReset)
    | .safe | .recovery => (s, none)
    | .ready =>
      match s.expanding with
      | some k => ({ s with focus := some k }, some (s.fetch k))
      | none => match s.nextEvent? with
        | some i => (s, some i)
        | none => match s.engineDue, s.pick with
          | none, (s, some k) => (s.noteFetch k, some (s.fetch k))
          | none, (s, none) => (s, none)
          | some i, (s2, k?) => match (if s.engineFirst then none else k?) with
            | some k => ({ s2.noteFetch k with freeCtr := s.freeCtr + 2, enginesPassed := s.enginesPassed + 1 }, some (s2.fetch k))
            | none => ({ s with freeCtr := s.freeCtr + 2, enginesPassed := 0 }, some i)

/-! ## A program in place -/

/-- The page tables, context, grid, team and crew that run one program at VA 0x100_0000 (DESIGN CHOICE, entry 5). -/
def loadedTables : List (Nat × Nat) := [(0x100000, 0x120001), (0x120000, 0x130001), (0x130040, 0x200017)]

def loadedCrew : Crew :=
  { alloc := 224, arch := { threads := List.replicate 32 { pc := 0x1000000, st := .active } }
    chunk := { start := { threads := List.replicate 32 { pc := 0x1000000, st := .active } } } }

/-- A ready package with one resident crew of 32 ACTIVE threads whose next instruction is the word `w` (two words for
128 bits), stored where the crew fetches (DESIGN CHOICE, entry 5). -/
def State.load (s : State) (w : Nat) : State :=
  let put (m : List Host.Cell) (e : Nat × Nat) : List Host.Cell := Memory.writes m e.1 (leBytes 8 e.2)
  let mem := loadedTables.foldl put s.mem
  let mem := Memory.writes mem 0x200000 (leBytes 16 w)
  { s with
    mem := mem
    inbox := []
    crews := [loadedCrew]
    teams := [{ cores := [0], place := .resident }]
    grids := [{ asid := 1, codebase := 0x1000000, codesize := 16, regs := 224, nextGang := 1 }]
    waiting := []
    stopped := []
    quantumAt := (List.range 4).map fun d => (d, s.clock.toNat + 2 ^ 32)
    hostStores := []
    locks := []
    poisoned := []
    dying := []
    lifts := []
    hash := []
    ctxs := [{ slot := 0, root := 0x100000, asid := 1, state := .live }]
    tlb := []
    faults := []
    parked := []
    far := []
    engines := []
    queues := []
    migration := none
    cancels := []
    grants := []
    token := none
    tokenQueue := []
    quads := []
    boot := { s.boot with phase := .ready, failed := none, flashing := none } }

end Sys2Proof.Machine
end

