-- ==== Sys2Proof/Machine/Step.lean ====
section
/-! DEFINITION. One step of the package: what `State.choose` selects executes; with nothing to do, a cycle passes. -/

namespace Sys2Proof.Machine

open Sys2Proof

/-- One step. -/
def step (s : State) : Host.Outcome State Fault Refusal :=
  match s.choose with
  | (s', some i) => exec i s'
  | (s', none) => .next s'

/-- The state with an instruction stored where the next step fetches: its first word is bits [63:0] of `w`, a second word
bits [127:64] (see `State.load`). -/
def State.withFetchWord (s : State) (_nbits w : Nat) : State := s.load w

end Sys2Proof.Machine
end

