-- ==== Sys2Proof/Safety.lean ====
section
/-! DEFINITION. The terms in which claims are stated: a safe run, a bundle that executes, what an instruction leaves in its
crew, and what it leaves alone. -/

namespace Sys2Proof.Machine

open Sys2Proof

/-- A state from which a step is not stopped by a fault or a refusal. -/
def State.safe (s : State) : Prop := ∃ t, step s = .next t

/-! ## A bundle that executes -/

/-- The crew `ci` stands at the instruction with the bundle `lanes` (R54), and nothing comes before its execution: it is no
composite bundle (R61), no long-latency result is pending (R321), no `svc` (R238) and no macro body (R359) is under way. An
irrevocable instruction begins its chunk and no other crew holds the commit token (R74, R84); a collective has no live
thread below it (R56); region, convergence and register bounds are in order (R195 steps 3 and 4); some lane executes. -/
structure Issues (s : State) (i : Instr) (ci : Nat) (c : Crew) (lanes : List Nat) : Prop where
  stand : s.stand = some (ci, c, lanes)
  own : c.homes = []
  pend : c.pend = []
  svc : c.svcLeft = none
  plain : c.expansion = none
  event : i.cls = .irrevocable → c.dirty = false ∧ s.tokenHeld ci = false
  collective : i.isCollective = true → c.liveBelow (lanes.headD 0) = false
  legal : s.staticTrap i c (execLanes i c lanes) = none
  someLane : execLanes i c lanes ≠ []

/-- The chunk has room (R74) for a crew that checkpoints the registers `fs` besides what `b` holds. -/
def Room (s : State) (ci : Nat) (b : Crew) (fs : List Nat) : Prop :=
  s.overLimits ci ((fs.filter fun f => decide (f < 224)).foldl Crew.noteWrite b) = false

/-- The registers that an instruction's last-use bits free in a lane (R192): not those that a result still to come will write. -/
def State.lastUses (s : State) (i : Instr) (c : Crew) (l : Nat) : List Nat :=
  (s.freesOf i c { lane := l }).filter fun f => !(s.lateDests i c { lane := l }).contains f

/-- The registers that an instruction frees, then those it writes, lane by lane: all that may be checkpointed (R76). -/
def State.changed (s : State) (i : Instr) (c : Crew) (exe : List Nat) (ws : Nat → List (Nat × TWord)) : List Nat :=
  exe.flatMap (s.lastUses i c) ++ exe.flatMap fun l => (ws l).map Prod.fst

/-- The last word that a list of writes gives a field. -/
def lastWrite (ws : List (Nat × TWord)) (f : Nat) : Option TWord := (ws.reverse.find? fun e => e.1 == f).map Prod.snd

/-! ## What an instruction leaves in its crew -/

/-- The registers, flags and threads of a crew after an instruction: `b` is the crew with what its body did beside them, `exe`
the lanes that executed, `ws` their writes in order, `fr` the registers they free, `go` where they go (none: on to the next
instruction), `fl` and `fmt` the flags they raise. Everything that is not named is as in `b`. -/
structure Effect (i : Instr) (b c' : Crew) (lanes exe : List Nat) (ws : Nat → List (Nat × TWord)) (fr : Nat → List Nat)
    (go : Nat → Option (BitVec 64)) (fl : Nat → Flags) (fmt : Nat → Bool) : Prop where
  /-- v registers: an executing lane's last write of the field; UNDEF where it was freed (R192); else unchanged -/
  regs : ∀ f l, f < 224 → l < 32 → c'.readV f l =
    if l ∈ exe then (lastWrite (ws l) f).getD (if f ∈ fr l then .undef else b.readV f l) else b.readV f l
  /-- uniform registers: the lowest executing lane's write (R191); else unchanged -/
  uniform : ∀ n, n < 31 → c'.readS n = (lastWrite (ws (exe.headD 0)) (224 + n)).getD (b.readS n)
  /-- the bundle's threads go on (R54), every other thread stays -/
  threads : ∀ l, c'.thread l = if l ∈ lanes then b.nextThread i (b.thread l) (if l ∈ exe then go l else none) else b.thread l
  /-- sticky flags (R159, R160) -/
  fpflags : c'.arch.fpflags = exe.foldl (fun x l => x ||| (fl l).setWidth 64) b.arch.fpflags
  formatflag : c'.arch.formatflag = if exe.any fmt then b.arch.formatflag ||| 1 else b.arch.formatflag
  /-- the rest of the crew (special registers among it) is as it was, but `clk` 1 counts the bundle (R242) -/
  rest : c' = { b with
    arch := { b.arch with
      threads := c'.arch.threads, vregs := c'.arch.vregs, sregs := c'.arch.sregs
      fpflags := c'.arch.fpflags, formatflag := c'.arch.formatflag }
    chunk := c'.chunk
    clk1 := b.clk1 + 1 }

/-- The chunk goes on: one bundle more, and only what it notes of first writes changes beside it: the checkpoints, the uniform
registers written. -/
def GoesOn (b c' : Crew) : Prop :=
  c'.chunk = { b.chunk with bundles := b.chunk.bundles + 1, ckpt := c'.chunk.ckpt, sset := c'.chunk.sset }

/-- An instruction that ends its chunk: the commit begins (R74, R80). -/
def Ends (b c' : Crew) : Prop :=
  ∃ k : Chunk, k = { b.chunk with bundles := b.chunk.bundles + 1, ckpt := k.ckpt, sset := k.sset } ∧ c'.chunk = { k with phase := .committing k.needs [] }

/-- After an irrevocable instruction a new chunk begins (R74). -/
def Begins (c' : Crew) : Prop := c'.chunk = { start := c'.arch }

/-! ## What an instruction leaves alone -/

/-- Nothing but one crew changes: no other crew, no memory, no register of the package, no storage beside the arrays. -/
def OnlyCrew (s t : State) (ci : Nat) : Prop := ∃ c', t = s.setCrew ci c'

/-- Nothing but one crew and the cached translations change. -/
def OnlyCrewTlb (s t : State) (ci : Nat) : Prop :=
  { t with crews := s.crews, tlb := s.tlb } = s ∧ t.crews.length = s.crews.length ∧ ∀ k, k ≠ ci → t.crew k = s.crew k

end Sys2Proof.Machine
end

