-- ==== Sys2Proof/Certificates/Slice0/Obligations.lean ====
section
/-! DEFINITION. The statements for the provers, after the results that the spec gives, written out once as tables. -/

namespace Sys2Proof.Claims

open Sys2Proof Sys2Proof.Machine

/-! ## Completion of an instruction word -/

/-- What one lane gets: the words it writes in order, the flags it raises (FORMATFLAG too), where it goes (none: on to the next instruction). -/
structure LaneResult where
  writes : List (Nat × TWord) := []
  flags : Flags := 0
  fmt : Bool := false
  go : Option (BitVec 64) := none

/-- One word to the destination of the lane. -/
def toDest (s : State) (i : Instr) (c : Crew) (w : Nat → TWord) : Nat → List (Nat × TWord) := fun l => [(s.destOf i c l, w l)]

/-- The instruction answers a next state: its body left the crew as `b` and the package as `s'`; registers, flags and threads
of the crew change by the effect given, its chunk goes on or ends (`fin`), the translations it used are cached. -/
def Runs (i : Instr) (s s' : State) (ci : Nat) (c b : Crew) (lanes : List Nat) (r : Nat → LaneResult) (fin : Bool) : Prop :=
  ∃ c', Effect i b c' lanes (execLanes i c lanes) (fun l => (r l).writes) (s.lastUses i c) (fun l => (r l).go)
      (fun l => (r l).flags) (fun l => (r l).fmt) ∧ GoesOn b c' ∧
    exec i s = .next ((s'.setCrew ci (if fin then c'.beginCommit else c')).fillTlb c.core (s'.asidOf c)
      (b.chunk.pages.drop c.chunk.pages.length))

/-- The same where the crew alone changes: no byte of memory, no other crew, no register of the package. -/
def Completes (i : Instr) (s : State) (ci : Nat) (c b : Crew) (lanes : List Nat) (r : Nat → LaneResult) (fin : Bool) : Prop :=
  ∃ c', Effect i b c' lanes (execLanes i c lanes) (fun l => (r l).writes) (s.lastUses i c) (fun l => (r l).go)
      (fun l => (r l).flags) (fun l => (r l).fmt) ∧ GoesOn b c' ∧
    exec i s = .next (s.setCrew ci (if fin then c'.beginCommit else c'))

/-- An irrevocable instruction answers a next state: its event left the package as `s'`, the context has made progress (R403),
its team has shown an effect (R99), and a new chunk begins (R74). `fr` are the registers each lane frees. -/
def PerformsFreeing (i : Instr) (s s' : State) (ci : Nat) (c b : Crew) (lanes : List Nat) (fr : Nat → List Nat)
    (r : Nat → LaneResult) : Prop :=
  ∃ c', Effect i b c' lanes (execLanes i c lanes) (fun l => (r l).writes) fr (fun l => (r l).go)
      (fun l => (r l).flags) (fun l => (r l).fmt) ∧
    exec i s = .next (((s'.noteEvent c').setCrew ci c'.freshChunk).fillTlb c.core ((s'.noteEvent c').asidOf c)
      (b.chunk.pages.drop c.chunk.pages.length))

/-- The same where the last-use bits alone free registers (R192). -/
def Performs (i : Instr) (s s' : State) (ci : Nat) (c b : Crew) (lanes : List Nat) (r : Nat → LaneResult) : Prop :=
  PerformsFreeing i s s' ci c b lanes (s.lastUses i c) r

/-- Is the result written at once? A speculative instruction whose LK is not 0 keeps it pending (R321). -/
def atOnce (i : Instr) : Prop := i.cls = .speculative → opTakesLk i.opcode = true → i.lk = 0

/-- Every lane's result follows from the state, the crew, the executing lanes and its number by a rule `f`; the instruction
completes wherever the rule answers in each executing lane. -/
def ByRule (i : Instr) (f : State → Crew → List Nat → Nat → Option LaneResult) : Prop :=
  ∀ s ci c lanes (r : Nat → LaneResult), Issues s i ci c lanes → atOnce i →
    (∀ l ∈ execLanes i c lanes, f s c (execLanes i c lanes) l = some (r l)) →
    Room s ci c (s.changed i c (execLanes i c lanes) fun l => (r l).writes) →
    Completes i s ci c c lanes r false

/-- Every lane's result is one word, with flags, from its own operand words. -/
def ComputesBy (i : Instr) (f : (Nat → TWord) → Option (TWord × Flags)) : Prop :=
  ByRule i fun s c _ l => (f (s.opnd i c l)).map fun x => { writes := [(s.destOf i c l, x.1)], flags := x.2 }

/-! ## Typed integers (R208-R213), in exact integers -/

/-- The number that a source stands for (R208): its low W bits, signed or not; UNDEF reads 0 (R26). -/
def ival (v : IVar) (w : TWord) : Int :=
  match v with
  | .i64 => w.pay.toInt
  | .u64 => w.pay.toNat
  | .i32 => (w.pay.setWidth 32).toInt
  | .u32 => (w.pay.setWidth 32).toNat

/-- The low W bits of a source. -/
def ilow (v : IVar) (w : TWord) : Nat := w.pay.toNat % 2 ^ v.width

/-- The INT word of a number modulo 2^W, extended by the variant (R208). -/
def iword (v : IVar) (n : Int) : TWord :=
  ⟨.int, match v with
    | .i64 | .u64 => BitVec.ofInt 64 n
    | .i32 => (BitVec.ofInt 32 n).signExtend 64
    | .u32 => (BitVec.ofInt 32 n).setWidth 64⟩

/-- The fields that `bfx` and `bfi` take from B (R211): position and length, none where nothing is extracted or inserted. -/
def bitField (v : IVar) (b : TWord) : Option (Nat × Nat) :=
  let pos := b.pay.toNat % 256
  let len := b.pay.toNat / 256 % 256
  if len = 0 ∨ v.width ≤ pos then none else some (pos, min len (v.width - pos))

/-- The comparisons of R212. -/
def icompare (cc : ICond) (a b : Int) (ua ub : Nat) : Bool :=
  match cc with
  | .eq => decide (a = b)
  | .ne => decide (a ≠ b)
  | .lt => decide (a < b)
  | .le => decide (a ≤ b)
  | .ult => decide (ua < ub)
  | .ule => decide (ua ≤ ub)

/-- What each typed integer instruction writes, from its operand words (0 is D, 1 is A, 2 is B, 3 is C). -/
def integerResult : Instr → Option ((Nat → TWord) → TWord)
  | .iadd v _ => some fun w => iword v (ival v (w 1) + ival v (w 2))
  | .isub v _ => some fun w => iword v (ival v (w 1) - ival v (w 2))
  | .imul v _ => some fun w => iword v (ival v (w 1) * ival v (w 2))
  | .imulh v _ => some fun w => iword v (ival v (w 1) * ival v (w 2) / 2 ^ v.width)
  | .idiv v _ => some fun w => iword v (if ival v (w 2) = 0 then -1 else (ival v (w 1)).tdiv (ival v (w 2)))
  | .irem v _ => some fun w => iword v (if ival v (w 2) = 0 then ival v (w 1) else (ival v (w 1)).tmod (ival v (w 2)))
  | .ineg v _ => some fun w => iword v (-ival v (w 1))
  | .iabs v _ => some fun w => iword v (ival v (w 1)).natAbs
  | .imin v _ => some fun w => iword v (min (ival v (w 1)) (ival v (w 2)))
  | .imax v _ => some fun w => iword v (max (ival v (w 1)) (ival v (w 2)))
  | .iand v _ => some fun w => iword v ((w 1).pay &&& (w 2).pay).toNat
  | .ior v _ => some fun w => iword v ((w 1).pay ||| (w 2).pay).toNat
  | .ixor v _ => some fun w => iword v ((w 1).pay ^^^ (w 2).pay).toNat
  | .inot v _ => some fun w => iword v (-ival v (w 1) - 1)
  | .ishl v _ => some fun w => iword v (ival v (w 1) * 2 ^ ((w 2).pay.toNat % v.width))
  | .ishr v _ => some fun w => iword v (ival v (w 1) / 2 ^ ((w 2).pay.toNat % v.width))
  | .popc v _ => some fun w => iword v (((List.range v.width).filter fun j => (w 1).pay.getLsbD j).length : Nat)
  | .clz v _ => some fun w => iword v (((List.range v.width).find? fun j => (w 1).pay.getLsbD (v.width - 1 - j)).getD v.width : Nat)
  | .ctz v _ => some fun w => iword v (((List.range v.width).find? fun j => (w 1).pay.getLsbD j).getD v.width : Nat)
  | .brev v _ => some fun w =>
    iword v ((List.range v.width).foldl (fun n j => 2 * n + if (w 1).pay.getLsbD j then 1 else 0) 0 : Nat)
  | .bfx v _ => some fun w => match bitField v (w 2) with
    | none => ⟨.int, 0⟩
    | some (pos, len) =>
      let x := ilow v (w 1) / 2 ^ pos % 2 ^ len
      ⟨.int, BitVec.ofInt 64 (if v.signed && decide (2 ^ (len - 1) ≤ x) then x - 2 ^ len else x)⟩
  | .bfi v _ => some fun w => match bitField v (w 2) with
    | none => iword v (ival v (w 3))
    | some (pos, len) =>
      let c := ilow v (w 3)
      iword v (c % 2 ^ pos + 2 ^ pos * (ilow v (w 1) % 2 ^ len) + 2 ^ (pos + len) * (c / 2 ^ (pos + len)) : Nat)
  | .icmp v cc _ => some fun w => boolWord (icompare cc (ival v (w 1)) (ival v (w 2)) (ilow v (w 1)) (ilow v (w 2)))
  | .sel _ => some fun w => if (w 1).pay ≠ 0 then w 2 else w 3
  | .lea v k _ => some fun w => iword v (ival v (w 1) + ival v (w 2) * 2 ^ k.toNat)
  | .mov _ => some fun w => w 1
  | .movi v imm _ => some fun _ => ⟨.int, BitVec.ofInt 64 (if v.signed then imm.toInt else imm.toNat)⟩
  | .movh _ imm _ => some fun w => ⟨.int, BitVec.ofInt 64 ((w 0).pay.toInt + imm.toInt * 2 ^ 32)⟩
  | .iaddi v imm _ => some fun w => iword v (ival v (w 1) + imm.toInt)
  | .icmpi v cc imm _ => some fun w =>
    let b : TWord := ⟨.int, imm.signExtend 64⟩
    boolWord (icompare cc (ival v (w 1)) (ival v b) (ilow v (w 1)) (ilow v b))
  | _ => none

/-! ## Typed floats (R214-R218): each element on its own -/

/-- The result of a typed float: its elements side by side, their flags together (R161, R214). -/
def gather (t : FTy) (r : Nat → FRes) : TWord × Flags :=
  (⟨t.tag, BitVec.ofNat 64 ((List.range t.count).map fun j => (r j).bits * 2 ^ (t.elem.width * j)).sum⟩,
    (List.range t.count).foldl (fun fl j => fl ||| (r j).flags) 0)

/-- A sum of exact values with one rounding. -/
def roundSum (f : BinFmt) (rm : RMode) (a b : FVal) : FRes :=
  let r := addVal rm a b
  ⟨(f.round rm r.1).bits, (f.round rm r.1).flags ||| r.2 ||| sigFlags [a, b]⟩

/-- A product of exact values with one rounding. -/
def roundProduct (f : BinFmt) (rm : RMode) (a b : FVal) : FRes :=
  let r := mulVal a b
  ⟨(f.round rm r.1).bits, (f.round rm r.1).flags ||| r.2 ||| sigFlags [a, b]⟩

/-- One element of each typed float operation, from the element's values A, B and C, A's encoding, and B's payload. -/
def floatElem : Instr → Option (FTy × (FVal → FVal → FVal → Nat → BitVec 64 → FRes))
  | .fadd t rm _ => some (t, fun a b _ _ _ => roundSum t.elem rm a b)
  | .fsub t rm _ => some (t, fun a b _ _ _ => roundSum t.elem rm a b.neg)
  | .fmul t rm _ => some (t, fun a b _ _ _ => roundProduct t.elem rm a b)
  | .ffma t rm _ => some (t, fun a b c _ _ => fFma t.elem rm a b c)
  | .fdiv t rm _ => some (t, fun a b _ _ _ => fDiv t.elem rm a b)
  | .fsqrt t rm _ => some (t, fun a _ _ _ _ => fSqrt t.elem rm a)
  | .frsq t rm _ => some (t, fun a _ _ _ _ => fRsq t.elem rm a)
  | .fexp2 t rm _ => some (t, fun a _ _ _ _ => fExp2 t.elem rm a)
  | .flog2 t rm _ => some (t, fun a _ _ _ _ => fLog2 t.elem rm a)
  | .frcp t rm _ => some (t, fun a _ _ _ _ => fDiv t.elem rm (.num false 1 0) a)
  | .fmin t _ => some (t, fun a b _ _ _ => ⟨(t.elem.round .rne (minVal a b)).bits, sigFlags [a, b]⟩)
  | .fmax t _ => some (t, fun a b _ _ _ => ⟨(t.elem.round .rne (maxVal a b)).bits, sigFlags [a, b]⟩)
  | .fabs t _ => some (t, fun _ _ _ e _ => ⟨if t.elem.signBit ≤ e then e - t.elem.signBit else e, 0⟩)
  | .fneg t _ => some (t, fun _ _ _ e _ => ⟨if t.elem.signBit ≤ e then e - t.elem.signBit else e + t.elem.signBit, 0⟩)
  | .fround t rm _ => some (t, fun a _ _ _ _ => fRound t.elem rm a)
  | .fscale t rm _ => some (t, fun a _ _ _ n => fScale t.elem rm a n.toInt)
  | _ => none

/-- What each typed float writes, with the flags it raises. -/
def floatResult (i : Instr) : Option ((Nat → TWord) → Option (TWord × Flags)) :=
  match i with
  | .fcmp t cc _ => some fun w =>
    let holds (j : Nat) : Bool := cc.holds (t.valueAt (w 1).pay j) (t.valueAt (w 2).pay j)
    let fl := (List.range t.count).foldl (fun fl j => fl ||| sigFlags [t.valueAt (w 1).pay j, t.valueAt (w 2).pay j]) 0
    some (if t.isScalar then boolWord (holds 0)
      else ⟨.raw, BitVec.ofNat 64 ((List.range t.count).map fun j => if holds j then 2 ^ j else 0).sum⟩, fl)
  | .fclass t _ => some fun w => some (⟨.int, 1#64 <<< fClass t.elem (t.bitsAt (w 1).pay 0)⟩, 0)
  | .fdot2 t rm _ => some fun w =>
    let v (k j : Nat) : FVal := t.valueAt (w k).pay j
    match t with
    | .f32x2 =>
      let r := fDot binF64 rm (v 1 0) (v 2 0) (v 1 1) (v 2 1) (binF64.decode (w 3).pay.toNat)
      some (⟨.f64, BitVec.ofNat 64 r.bits⟩, r.flags)
    | _ =>
      let r (j : Nat) : FRes := fDot binF32 rm (v 1 (2 * j)) (v 2 (2 * j)) (v 1 (2 * j + 1)) (v 2 (2 * j + 1))
        (binF32.decode ((w 3).pay.toNat / 2 ^ (32 * j) % 2 ^ 32))
      some (gather .f32x2 r)
  | i => (floatElem i).map fun (t, f) => fun w => some (gather t fun j =>
      f (t.valueAt (w 1).pay j) (t.valueAt (w 2).pay j) (t.valueAt (w 3).pay j) (t.bitsAt (w 1).pay j) (w 2).pay)

/-! ## Generic opcodes (R37, R202-R207) -/

/-- The class code of a tag pair (R37), 15 where no listed pair fits; `ident` and `truth` of NIL apart. -/
def genericClass (a b : Tag) : Nat :=
  match a, b with
  | .int, .int => 0
  | .f64, .f64 => 1
  | .f32, .f32 => 2
  | .f16, .f16 => 3
  | .bf16, .bf16 => 4
  | .raw, .raw => 7
  | .bool, .bool => 8
  | .int, b => if b.fp?.isSome then 6 else 15
  | a, .int => if a.fp?.isSome then 6 else 15
  | a, b => if a.fp?.isSome && b.fp?.isSome then 5 else 15

/-- The float format of classes 1-6: the wider one, F32 for F16 with BF16, F64 with an INT. -/
def genericFormat (a b : Tag) : FpFmt :=
  match a, b with
  | .f16, .f16 => .f16
  | .bf16, .bf16 => .bf16
  | .f64, _ | _, .f64 | .int, _ | _, .int => .f64
  | _, _ => .f32

/-- The exact integer that an opcode gives in class 0 (R204, R205); none where the lane leaves its class. -/
def classZero : Instr → Option (Int → Int → Int → Option Int)
  | .add _ _ => some fun a b _ => some (a + b)
  | .sub _ _ => some fun a b _ => some (a - b)
  | .mul _ _ => some fun a b _ => some (a * b)
  | .div _ _ => some fun a b _ => if b = 0 ∨ ¬ b ∣ a then none else some (a / b)
  | .rem _ _ => some fun a b _ => if b = 0 then none else some (a.tmod b)
  | .neg _ _ => some fun a _ _ => some (-a)
  | .abs _ _ => some fun a _ _ => some a.natAbs
  | .min _ _ => some fun a b _ => some (min a b)
  | .max _ _ => some fun a b _ => some (max a b)
  | .fma _ _ => some fun a b c => some (a * b + c)
  | .shl _ _ => some fun a b _ => if b < 0 then none else if a = 0 then some 0 else if 64 ≤ b then none else some (a * 2 ^ b.toNat)
  | .shr _ _ => some fun a b _ => if b < 0 then none else some (a / 2 ^ (min b 64).toNat)
  | _ => none

/-- The bit operations of classes 0, 7 and 8. -/
def classBits : Instr → Option ((BitVec 64 → BitVec 64 → BitVec 64) × (Bool → Bool → Bool))
  | .and _ _ => some ((· &&& ·), (· && ·))
  | .or _ _ => some ((· ||| ·), (· || ·))
  | .xor _ _ => some ((· ^^^ ·), (· != ·))
  | .not _ _ => some (fun a _ => ~~~a, fun a _ => !a)
  | _ => none

/-- The comparisons. -/
def classCompare : Instr → Option ((Int → Int → Bool) × (FVal → FVal → Bool))
  | .cmpeq _ _ => some (fun a b => decide (a = b), eqVal)
  | .cmplt _ _ => some (fun a b => decide (a < b), ltVal)
  | .cmple _ _ => some (fun a b => decide (a ≤ b), fun a b => ltVal a b || eqVal a b)
  | _ => none

/-- The float operations of classes 1-6 (R206), on values in the class's format. -/
def classFloat : Instr → Option (BinFmt → FVal → FVal → FVal → FRes)
  | .add rm _ => some fun f a b _ => roundSum f rm a b
  | .sub rm _ => some fun f a b _ => roundSum f rm a b.neg
  | .mul rm _ => some fun f a b _ => roundProduct f rm a b
  | .div rm _ => some fun f a b _ => fDiv f rm a b
  | .min _ _ => some fun f a b _ => ⟨(f.round .rne (minVal a b)).bits, sigFlags [a, b]⟩
  | .max _ _ => some fun f a b _ => ⟨(f.round .rne (maxVal a b)).bits, sigFlags [a, b]⟩
  | .fma rm _ => some fun f a b c => fFma f rm a b c
  | _ => none

/-- An operand as a value of the class's format, with the flags of its widening: INT by RNE to F64 (R37). -/
def genericValue (w : TWord) : FVal × Flags :=
  match w.tag.fp? with
  | some t => (t.bin.decode (w.payload.toNat % 2 ^ t.bin.width), 0)
  | none =>
    let r := binF64.round .rne (FVal.ofInt w.payload.toInt)
    (binF64.decode r.bits, r.flags)

/-- Is the opcode unary (R203)? -/
def isUnary : Instr → Bool
  | .neg _ _ | .abs _ _ | .not _ _ | .truth _ _ => true
  | _ => false

/-- Is it `fma`, which reads a third operand (R38)? -/
def isFma : Instr → Bool
  | .fma _ _ => true
  | _ => false

/-- What a lane of a generic opcode writes, with its flags; none where the lane is uncommon or leaves its class (R37-R39). -/
def genericResult (i : Instr) (w : Nat → TWord) : Option (TWord × Flags) :=
  let a := w 1
  let b := if isUnary i then w 1 else w 2
  let k := genericClass a.tag b.tag
  let fits (n : Int) : Option (TWord × Flags) := if -2 ^ 63 ≤ n ∧ n < 2 ^ 63 then some (intWord n, 0) else none
  match i with
  | .truth _ _ => if a.tag = .nil then some (boolWord false, 0)
    else if a.tag = .bool then some (boolWord (decide (a.payload ≠ 0)), 0) else none
  | i =>
    if k = 0 then
      (classZero i).elim ((classBits i).elim ((classCompare i).bind fun f => some (boolWord (f.1 a.payload.toInt b.payload.toInt), 0))
          fun f => some (⟨.int, f.1 a.payload b.payload⟩, 0))
        fun f => if isFma i ∧ (w 3).tag ≠ .int then none
          else (f a.payload.toInt b.payload.toInt (w 3).payload.toInt).bind fits
    else if k = 8 then (classBits i).map fun f => (boolWord (f.2 (decide (a.payload ≠ 0)) (decide (b.payload ≠ 0))), 0)
    else if k = 7 ∨ (a.tag = .raw ∧ b.tag = .int) then
      match i with
      | .shl _ _ => some (⟨.raw, BitVec.ofNat 64 (a.payload.toNat * 2 ^ min b.payload.toNat 64)⟩, 0)
      | .shr _ _ => some (⟨.raw, BitVec.ofNat 64 (a.payload.toNat / 2 ^ min b.payload.toNat 64)⟩, 0)
      | i => if k = 7 then (classBits i).map fun f => (⟨.raw, f.1 a.payload b.payload⟩, 0) else none
    else if 1 ≤ k ∧ k ≤ 6 then
      let t := genericFormat a.tag b.tag
      let x := genericValue a
      let y := genericValue b
      match i with
      | .neg _ _ => some (⟨t.tag, BitVec.ofNat 64 (a.payload.toNat % 2 ^ t.bin.width ^^^ t.bin.signBit)⟩, 0)
      | .abs _ _ => some (⟨t.tag, BitVec.ofNat 64 (a.payload.toNat % t.bin.signBit)⟩, 0)
      | .fma _ _ => if (w 3).tag ≠ t.tag then none
        else (classFloat i).map fun f =>
          let r := f t.bin x.1 y.1 (genericValue (w 3)).1
          (⟨t.tag, BitVec.ofNat 64 r.bits⟩, r.flags ||| x.2 ||| y.2)
      | i => (classFloat i).elim ((classCompare i).map fun f => (boolWord (f.2 x.1 y.1), sigFlags [x.1, y.1] ||| x.2 ||| y.2))
          fun f =>
            let r := f t.bin x.1 y.1 (.nan false)
            some (⟨t.tag, BitVec.ofNat 64 r.bits⟩, r.flags ||| x.2 ||| y.2)
    else none

/-- The generic opcodes with a result of their own (`ident` apart). -/
def isGeneric : Instr → Bool
  | .add _ _ | .sub _ _ | .mul _ _ | .div _ _ | .rem _ _ | .neg _ _ | .abs _ _ | .min _ _ | .max _ _ | .cmpeq _ _ | .cmplt _ _
  | .cmple _ _ | .and _ _ | .or _ _ | .xor _ _ | .not _ _ | .shl _ _ | .shr _ _ | .fma _ _ | .truth _ _ => true
  | _ => false

/-! ## Conversions and tags (R219-R223) -/

/-- The value that `cvt`, `cvti` and `pack` read (R220); none where the lane takes TAG. -/
def convertSource (f : Fmt) (w : TWord) : Option FVal :=
  if f = .word then
    if w.tag = .int then some (FVal.ofInt w.payload.toInt)
    else if w.tag = .bool then some (FVal.ofInt w.payload.toNat)
    else w.tag.fp?.map fun t => t.bin.decode (w.payload.toNat % 2 ^ t.bin.width)
  else some (f.value 0 w.pay.toNat)

/-- A result with its target's tag, an integer extended to the register (R220). -/
def convertTarget (f : Fmt) (r : FRes) : TWord := ⟨f.tag, BitVec.ofNat 64 (f.extend r.bits)⟩

/-- One word with its flags from the lane's operands: `cvt` with a rounding mode, `cvti`, `pack`, `unpack`, `tagof`,
`settag`. -/
def convertResult : Instr → Option ((Nat → TWord) → Option (TWord × Flags))
  | .cvt (.round rm) dst src _ => some fun w => (convertSource src (w 1)).map fun x =>
    (convertTarget dst (dst.round rm x), (dst.round rm x).flags ||| sigFlags [x])
  | .cvti rm dst src k _ => some fun w => (convertSource src (w 1)).map fun x =>
    (convertTarget dst (dst.round rm (x.shift k.toInt)), (dst.round rm (x.shift k.toInt)).flags ||| sigFlags [x])
  | .unpack f index _ => some fun w =>
    let bits := (w 1).pay.toNat / 2 ^ (f.elemBits * index.toNat) % 2 ^ f.elemBits
    some (match f with
      | .e4m3 | .e5m2 | .e3m2 | .e2m3 | .e2m1 => ⟨.f32, BitVec.ofNat 64 (binF32.round .rne (f.value 0 bits)).bits⟩
      | .l1 => intWord (if bits = 0 then -1 else 1)
      | .l2 => intWord (if bits = 1 then 1 else if bits = 2 then -1 else 0)
      | f => convertTarget f ⟨bits, 0⟩, 0)
  | .tagof _ => some fun w => some (⟨.int, BitVec.ofNat 64 (w 1).tag.toNat⟩, 0)
  | .settag t _ => some fun w => if (makeWord t (w 1).pay).conforming then some (makeWord t (w 1).pay, 0) else none
  | _ => none

/-- The bit a packed position starts at, and the element's value there, by R221. -/
def packElem (rm : RMode) (f : Fmt) (w : Nat → TWord) (k : Nat) : Option (FRes × Flags) :=
  (convertSource .word (w (k + 1))).map fun x => (f.round rm x, sigFlags [x])

/-! ## Collectives (R56, R57, R226-R232, R362) -/

/-- The first lane of a lane's group, and the group's lanes: the crew, or in C16 the half. -/
def groupBase (s : State) (c : Crew) (l : Nat) : Nat := if s.c16 c then 16 * (l / 16) else 0
def groupSize (s : State) (c : Crew) : Nat := if s.c16 c then 16 else 32

/-- Does a lane contribute: it is in the bundle, no HELPER (R57), and in the group of lane `l`? -/
def contributes (s : State) (c : Crew) (exe : List Nat) (l k : Nat) : Bool :=
  decide (k ∈ exe) && (c.thread k).st != .helper && groupBase s c k == groupBase s c l

/-- The contributing lanes of a lane's group, ascending. -/
def group (s : State) (c : Crew) (exe : List Nat) (l : Nat) : List Nat := (List.range 32).filter (contributes s c exe l)

/-- Bit of each lane of the group that a test selects (R229, R231). -/
def groupMask (s : State) (c : Crew) (exe : List Nat) (l : Nat) (p : Nat → Bool) : BitVec 64 :=
  BitVec.ofNat 64 (((List.range 32).filter fun k => contributes s c exe l k && p k).map fun k => 2 ^ (k - groupBase s c k)).sum

/-- The source lane of `shfl` (R227), by position in the group; it may lie outside. -/
def shflSource (mode : ShflMode) (p : Nat) (n : BitVec 64) : Int :=
  match mode with
  | .idx => n.toInt
  | .up => p - n.toInt
  | .down => p + n.toInt
  | .xor => (BitVec.ofNat 64 p ^^^ n).toInt

/-- The word that each lane of a collective receives. -/
def collectiveWord (i : Instr) (s : State) (c : Crew) (exe : List Nat) (l : Nat) : Option TWord :=
  let a (k : Nat) : TWord := s.opnd i c k 1
  let base := groupBase s c l
  match i with
  | .shfl mode imm o =>
    let n := if imm then BitVec.setWidth 64 o.b else (s.opnd i c l 2).pay
    let x := shflSource mode (l - base) n
    some (if x < 0 ∨ (groupSize s c : Int) ≤ x then a l
      else if contributes s c exe l (base + x.toNat) then a (base + x.toNat) else .undef)
  | .vote op _ =>
    let g := group s c exe l
    let p (k : Nat) : Bool := decide ((a k).pay ≠ 0)
    some (match op with
      | .all => boolWord (g.all p)
      | .any => boolWord (g.any p)
      | .uni => boolWord (g.all p || g.all fun k => !p k)
      | .ballot => ⟨.int, groupMask s c exe l p⟩)
  | .qswap k _ => some (if (l ^^^ k.toNat) ∈ exe then a (l ^^^ k.toNat) else .undef)
  | .qbcast j _ => some (if 4 * (l / 4) + j.toNat ∈ exe then a (4 * (l / 4) + j.toNat) else .undef)
  | .perm _ =>
    some (((group s c exe l).find? fun k => base + (s.opnd i c k 2).pay.toNat % groupSize s c == l).elim .undef a)
  | .elect _ => some (boolWord (decide ((group s c exe l).head? = some l)))
  | _ => none

/-- Combine two payloads as `scan` and `reduce` do (R230). -/
def combine (op : RedOp) (ty : RedTy) (rm : RMode) (a b : BitVec 64) : BitVec 64 × Flags :=
  match ty with
  | .f t =>
    let x := t.bin.decode (a.toNat % 2 ^ t.bin.width)
    let y := t.bin.decode (b.toNat % 2 ^ t.bin.width)
    let r : FRes := match op with
      | .add => roundSum t.bin rm x y
      | .min => ⟨(t.bin.round .rne (minVal x y)).bits, sigFlags [x, y]⟩
      | _ => ⟨(t.bin.round .rne (maxVal x y)).bits, sigFlags [x, y]⟩
    (BitVec.ofNat 64 r.bits, r.flags)
  | ty =>
    let less := if ty = .i64 then decide (a.toInt < b.toInt) else decide (a.toNat < b.toNat)
    (match op with
      | .add => a + b
      | .min => if less then a else b
      | .max => if less then b else a
      | .and => a &&& b
      | .or => a ||| b
      | .xor => a ^^^ b, 0)

/-- What an exclusive scan's first lane receives (R230). -/
def identityOf (op : RedOp) (ty : RedTy) : BitVec 64 :=
  match ty, op with
  | .f t, .min => BitVec.ofNat 64 t.bin.infEnc
  | .f t, .max => BitVec.ofNat 64 (t.bin.signBit + t.bin.infEnc)
  | .f _, _ => 0
  | .i64, .min => BitVec.ofInt 64 (2 ^ 63 - 1)
  | .i64, .max => BitVec.ofInt 64 (-2 ^ 63)
  | .u64, .min => BitVec.allOnes 64
  | _, .and => BitVec.allOnes 64
  | _, _ => 0

/-- Combine from the lowest lane upward: the first value stands for itself, a NaN for the canonical NaN (R156). -/
def combineAll (op : RedOp) (ty : RedTy) (rm : RMode) : List (BitVec 64) → BitVec 64 × Flags
  | [] => (identityOf op ty, 0)
  | x :: t =>
    let first : BitVec 64 × Flags := match ty with
      | .f t => if (t.value x).isNan then (BitVec.ofNat 64 (t.bin.canonNan.getD 0), sigFlags [t.value x])
        else (BitVec.ofNat 64 (x.toNat % 2 ^ t.bin.width), 0)
      | _ => (x, 0)
    t.foldl (fun acc y => ((combine op ty rm acc.1 y).1, acc.2 ||| (combine op ty rm acc.1 y).2)) first

/-- Result of `scan` and `reduce` in a lane: over the contributing lanes of its group below it, up to it, or all. -/
def foldResult (i : Instr) (s : State) (c : Crew) (exe : List Nat) (l : Nat) : Option (TWord × Flags) :=
  let vals (p : Nat → Bool) : List (BitVec 64) := ((group s c exe l).filter p).map fun k => (s.opnd i c k 1).pay
  let tag (ty : RedTy) : Tag := match ty with
    | .f t => t.tag
    | _ => .int
  match i with
  | .scan op ex ty rm _ =>
    let r := combineAll op ty rm (vals fun k => if ex then decide (k < l) else decide (k ≤ l))
    some (⟨tag ty, r.1⟩, r.2)
  | .reduce op ty rm _ =>
    let r := combineAll op ty rm (vals fun _ => true)
    some (⟨tag ty, r.1⟩, r.2)
  | _ => none

/-! ## Control flow and reads of the crew's own state (R46, R47, R223, R234, R235, R241, R242) -/

/-- The target of a B-format branch: the next word plus `off` words (R183). -/
def target (pc : BitVec 64) (off : BitVec 43) : BitVec 64 := BitVec.ofInt 64 (pc.toInt + 8 + 8 * off.toInt)

/-- A jump to a CODE word, with the link of R235 or not; none where the lane takes TAG. -/
def jumpResult (w : TWord) (pc : BitVec 64) (link : Bool) : Option LaneResult :=
  if w.tag = .code ∧ w.conforming then
    some { go := some w.payload, writes := if link then [(215, makeWord .code (pc + 8))] else [] }
  else none

/-- What `gets` reads (R193): the place of the thread, its crew, team and grid, the crew's own registers and counts (R53, R75, R159). -/
def registerValue (s : State) (c : Crew) (exe : List Nat) (l : Nat) : SReg → BitVec 64
  | .laneid => BitVec.ofNat 64 l
  | .quadid => BitVec.ofNat 64 c.quad
  | .crewid => BitVec.ofNat 64 c.crewId
  | .crewn => BitVec.ofNat 64 (s.gridOf c).crews
  | .teamx => BitVec.ofNat 64 ((s.teamOf c).linear % (s.gridOf c).ntx)
  | .teamy => BitVec.ofNat 64 ((s.teamOf c).linear / (s.gridOf c).ntx % (s.gridOf c).nty)
  | .teamz => BitVec.ofNat 64 ((s.teamOf c).linear / ((s.gridOf c).ntx * (s.gridOf c).nty))
  | .nteamx => BitVec.ofNat 64 (s.gridOf c).ntx
  | .nteamy => BitVec.ofNat 64 (s.gridOf c).nty
  | .nteamz => BitVec.ofNat 64 (s.gridOf c).ntz
  | .gangid => BitVec.ofNat 64 ((s.teamOf c).linear / (s.gridOf c).teams)
  | .gangn => BitVec.ofNat 64 ((s.gridOf c).ntx * (s.gridOf c).nty * (s.gridOf c).ntz / (s.gridOf c).teams)
  | .core => BitVec.ofNat 64 (c.core % 4)
  | .cluster => BitVec.ofNat 64 (c.core / 4 % 12)
  | .die => BitVec.ofNat 64 (c.core / 48)
  | .clock => s.clock
  | .htab => c.htab
  | .nbase => c.arch.nbase
  | .nlimit => c.arch.nlimit
  | .xi => c.arch.xi
  | .fpflags => c.arch.fpflags
  | .trapinfo => (c.thread l).trapInfo
  | .svcq => c.svcq
  | .hregion => c.hregion
  | .active => BitVec.ofNat 64 (((List.range 32).filter fun k => decide (k ∈ exe)).map fun k => 2 ^ k).sum
  | .fourpos => BitVec.ofInt 64 (if (s.gridOf c).four then c.crewId % 4 else -1)
  | .chunkn => c.chunkn
  | .squashn => BitVec.ofNat 64 (c.squashTotal * 2 ^ 8 + c.consec)
  | .formatflag => c.arch.formatflag

/-- Lanes that branch, call, return, check or read: their writes and where they go. `clk` 1 gives the count before the bundle itself is
added (the model's choice, entry 51). -/
def controlResult (i : Instr) (s : State) (c : Crew) (exe : List Nat) (l : Nat) : Option LaneResult :=
  let pc := (c.thread l).pc
  let cond (off : BitVec 43) (sense : Bool) : Option LaneResult :=
    let w := s.opnd i c l 0
    if w.tag ≠ .bool ∧ w.tag ≠ .int then none
    else some { go := if decide (w.payload ≠ 0) = sense then some (target pc off) else none }
  match i with
  | .bra off => some { go := some (target pc off) }
  | .brt o => cond o.off true
  | .brf o => cond o.off false
  | .brx _ | .ret _ => jumpResult (s.opnd i c l 1) pc false
  | .callr _ => jumpResult (s.opnd i c l 1) pc true
  | .call off => some { go := some (target pc off), writes := [(215, makeWord .code (pc + 8))] }
  | .rfh =>
    let v220 := c.readV 220 l
    let dest := (c.readV 219 l).payload.toNat / 256 % 256
    if ¬ (v220.tag = .code ∧ v220.conforming) ∨ (224 ≤ dest ∧ dest ≤ 254) ∨ (dest < 224 ∧ validV c.alloc dest = false) then none
    else some { go := some v220.payload, writes := if dest = 255 then [] else [(dest, c.readV 216 l)] }
  | .tagchk mask _ => if mask.getLsbD (s.opnd i c l 1).tag.toNat then some {} else none
  | .gets r _ => some { writes := [(s.destOf i c l, makeWord .int (registerValue s c exe l r))] }
  | .clk bundles _ => some { writes := [(s.destOf i c l, makeWord .int (if bundles then c.clk1 else c.clk0))] }
  | .nop | .wait => some {}
  | _ => none

/-! ## Memory (R27, R101, R182, R244-R258) -/

/-- Tags that BASE and IDX must carry (R244): INT or RAW, a REF base too where `ref`. -/
def addressTags (s : State) (i : Instr) (c : Crew) (o : MOps) (ref : Bool) (l : Nat) : Prop :=
  let base := (s.opnd i c l 1).tag
  let idx := (s.opnd i c l 2).tag
  (base = .int ∨ base = .raw ∨ (ref = true ∧ base = .ref)) ∧ (o.idx = 255 ∨ idx = .int ∨ idx = .raw)

/-- The address of an M-format instruction (R182), modulo 2^64. -/
def mAddress (s : State) (i : Instr) (c : Crew) (o : MOps) (l : Nat) : BitVec 64 :=
  BitVec.ofInt 64 ((s.opnd i c l 1).payload.toInt + o.off.toInt
    + if o.idx = 255 then 0 else (s.opnd i c l 2).payload.toInt * 2 ^ o.sc.toNat)

/-- Where a lane's access goes, with the storage's attributes. -/
structure Spot where
  key : Nat
  tagged : Bool
  grain : Nat
  page : Option Page

/-- The access at `p` may proceed: no arbiter, engine or scrub lock holds it up (R80, R94, R399), every sector is present
(R106). -/
def Open (s : State) (ci : Nat) (p : Spot) (bytes : Nat) : Prop :=
  s.mustWait ci p.key bytes = false ∧ s.absentIn p.key bytes = []

/-- The address checks of a global (R245) or scratch access (R104) lead to `p`. -/
def Reaches (s : State) (c : Crew) (scratch : Bool) (va : BitVec 64) (bytes : Nat) (store : Bool) (p : Spot) : Prop :=
  (if scratch then s.scratchAddr c va bytes bytes else s.globalAddr c va bytes (!store) store)
    = .ok p.key p.tagged p.grain p.page

/-- A little-endian number (R2). -/
def number (bs : List Byte) : Nat := bs.foldr (fun b n => b.toNat + 256 * n) 0

/-- An n-bit number with its sign. -/
def signed (n v : Nat) : Int := if v < 2 ^ (n - 1) then v else (v : Int) - 2 ^ n

/-- The words that a load of R27's load columns delivers, one per register of the access. -/
def loaded (a : Acc) (tagged nb : Bool) (tag : Tag) (bs : List Byte) : List TWord :=
  let n := number bs
  match a with
  | .w => [⟨if tagged = true ∧ (nb = true ∨ (tag ≠ .hdr ∧ tag ≠ .fwd)) then tag else .raw, BitVec.ofNat 64 n⟩]
  | .i8 => [intWord (signed 8 n)] | .i16 => [intWord (signed 16 n)] | .i32 => [intWord (signed 32 n)]
  | .i64 => [intWord (signed 64 n)] | .u8 | .u16 | .u32 => [intWord n]
  | .f16 => [⟨.f16, BitVec.ofNat 64 n⟩] | .bf16 => [⟨.bf16, BitVec.ofNat 64 n⟩] | .f32 => [⟨.f32, BitVec.ofNat 64 n⟩]
  | .f64 => [⟨.f64, BitVec.ofNat 64 n⟩] | .raw => [⟨.raw, BitVec.ofNat 64 n⟩]
  | .v16 => (List.range 2).map fun j => ⟨.raw, BitVec.ofNat 64 (number ((bs.drop (8 * j)).take 8))⟩
  | .v32 => (List.range 4).map fun j => ⟨.raw, BitVec.ofNat 64 (number ((bs.drop (8 * j)).take 8))⟩

/-- Words to consecutive registers from the D field on (R246). -/
def toGroup (s : State) (i : Instr) (c : Crew) (l : Nat) (ws : List TWord) : List (Nat × TWord) :=
  (List.range ws.length).map fun j => (s.effSlot i c l 0 + j, ws.getD j .nil)

/-- The loads `ld`, `lds` and `ldnb`: whether from scratch, whether HDR and FWD come as they are, access type, fields. -/
def loadForm : Instr → Option (Bool × Bool × Acc × MOps)
  | .ld a o => some (false, false, a, o)
  | .lds a o => some (true, false, a, o)
  | .ldnb o => some (false, true, .w, o)
  | _ => none

/-- The stores `st`, `sts` and `stnb`. -/
def storeForm : Instr → Option (Bool × Bool × Acc × MOps)
  | .st a o => some (false, false, a, o)
  | .sts a o => some (true, false, a, o)
  | .stnb o => some (false, true, .w, o)
  | _ => none

/-- The words a store takes from D, D+1, … (R246). -/
def storeData (s : State) (i : Instr) (c : Crew) (a : Acc) (l : Nat) : List TWord :=
  if a.regs = 1 then [s.opnd i c l 0] else (List.range a.regs).map fun j => c.readV (s.effSlot i c l 0 + j) l

/-- The crew after the executing lanes' loads: the locations stand in its read signature (R79), the caches meet their lines (R18),
their pages are noted (R394). -/
def afterReads (c : Crew) (exe : List Nat) (p : Nat → Spot) (bytes : Nat) : Crew :=
  exe.foldl (fun b l => ((b.enterRead (p l).key bytes (p l).grain).meet (p l).key false (p l).tagged).usePage? (p l).page) c

/-- The page of a lane's prefetch, if its address is mapped: bit 63 is clear and the walk, which asks for no permission, answers (R254). -/
def prefetched (s : State) (i : Instr) (c : Crew) (o : MOps) (l : Nat) : Option Page :=
  if (mAddress s i c o l).getLsbD 63 then none
  else match s.xlate c.core (s.asidOf c) (mAddress s i c o l).toNat false false false with
    | .ok p => some p
    | .fault _ => none

/-- The crew after the executing lanes' stores, in ascending lane order (R247): buffered, and in the write signature. -/
def afterStores (s : State) (i : Instr) (c : Crew) (a : Acc) (exe : List Nat) (p : Nat → Spot) : Crew :=
  exe.foldl (fun b l => (b.store a (storeData s i c a l) (p l).key (p l).tagged (p l).grain).usePage? (p l).page) c

/-- Only the chunk's reads grow: signature, arbiters, pages, the lines its caches have met. -/
def OnlyReads (c b : Crew) : Prop :=
  b = { c with chunk := { c.chunk with rsig := b.chunk.rsig, arbs := b.chunk.arbs, pages := b.chunk.pages, met := b.chunk.met } }
    ∧ c.chunk.rsig ⊆ b.chunk.rsig ∧ c.chunk.arbs ⊆ b.chunk.arbs ∧ c.chunk.pages <+: b.chunk.pages ∧ c.chunk.met <:+ b.chunk.met

/-- What an object reference leads to (R101). -/
structure Object where
  addr : Nat
  hdr : BitVec 64
  key : Nat
  grain : Nat
  tagged : Bool

/-- Resolve of a word answers the object, as the crew sees memory (R77). -/
def Resolves (s : State) (ci : Nat) (c : Crew) (w : TWord) (x : Object) : Prop :=
  (s.resolve ci c w).2 = .ok x.addr x.hdr x.key x.grain x.tagged

/-- The field offset of `ldf` and `stf` (R244), an exact number. -/
def fieldAt (s : State) (i : Instr) (c : Crew) (o : MOps) (l : Nat) : Int :=
  o.off.toInt + if o.idx = 255 then 0 else (s.opnd i c l 2).payload.toInt * 2 ^ o.sc.toNat

/-- The lane's field lies in its object, aligned, and its access may proceed (R253). -/
def FieldReaches (s : State) (ci : Nat) (i : Instr) (c : Crew) (a : Acc) (o : MOps) (store : Bool) (l : Nat) (x : Object)
    (p : Spot) : Prop :=
  (s.opnd i c l 1).tag = .ref ∧ (o.idx = 255 ∨ (s.opnd i c l 2).tag = .int ∨ (s.opnd i c l 2).tag = .raw) ∧
  Resolves s ci c (s.opnd i c l 1) x ∧
  (if store then 8 else 0) ≤ fieldAt s i c o l ∧ fieldAt s i c o l + a.bytes ≤ 8 * (x.hdr.toNat / 2 ^ 24 % 2 ^ 16 : Nat) ∧
  fieldAt s i c o l % a.bytes = 0 ∧
  s.globalAddr c (BitVec.ofNat 64 (x.addr + (fieldAt s i c o l).toNat)) a.bytes (!store) store = .ok p.key p.tagged p.grain p.page ∧
  Open s ci p a.bytes

/-- The identity hash that R31 assigns to an object at an address: never 0. -/
def assignedHash (a : Nat) : Nat :=
  let h := a * 0x9E3779B9 / 2 ^ 36 % 2 ^ 20
  if h = 0 then 1 else h

/-- Equal keys (R36): REFs by the addresses Resolve gives, others by their canonical words. -/
def sameKey (a b : HKey) : Bool :=
  if a.word.tag = .ref ∧ b.word.tag = .ref then decide (a.addr = b.addr) else decide (a.canon = b.canon)

/-- The order of `msort` (R231) for keys that are not equal. -/
def keyLess (a b : HKey) : Bool :=
  if a.canon.tag ≠ b.canon.tag then decide (a.canon.tag.toNat < b.canon.tag.toNat)
  else if a.canon.tag = .int then decide (a.canon.payload.toInt < b.canon.payload.toInt)
  else if a.canon.tag = .ref then
    decide (a.canon.payload.toNat < b.canon.payload.toNat ∨ (a.canon.payload = b.canon.payload ∧ a.addr < b.addr))
  else match a.canon.tag.fp? with
    | some t =>
      let x := t.bin.decode (a.canon.payload.toNat % 2 ^ t.bin.width)
      let y := t.bin.decode (b.canon.payload.toNat % 2 ^ t.bin.width)
      (!x.isNan && y.isNan) || ltVal x y
    | none => decide (a.canon.payload.toNat < b.canon.payload.toNat)

/-- The word of `match` and `msort` in a lane, from the lanes' keys. -/
def keyWord (i : Instr) (s : State) (c : Crew) (exe : List Nat) (k : Nat → HKey) (l : Nat) : Option TWord :=
  match i with
  | .matchKeys _ => some ⟨.int, groupMask s c exe l fun j => sameKey (k j) (k l)⟩
  | .msort desc _ =>
    some (intWord ((group s c exe l).filter fun j =>
      (if desc then keyLess (k l) (k j) else keyLess (k j) (k l)) || (sameKey (k j) (k l) && decide (j < l))).length)
  | _ => none

/-- The lanes' allocations in ascending order (R257): each stores its header and NIL words at NBASE, which moves on by the
object's 16-byte granules; the crew and each lane's address. -/
def allocate (s : State) (ci : Nat) (i : Instr) : List Nat → Crew → Option (Crew × List (Nat × BitVec 64))
  | [], c => some (c, [])
  | l :: t, c =>
    let tmpl := (s.opnd i c l 1).payload
    let size := tmpl.toNat / 2 ^ 24 % 2 ^ 16
    let bytes := (8 * size + 15) / 16 * 16
    if (s.opnd i c l 1).tag = .int ∧ size ≠ 0 ∧ c.arch.nbase.toNat % 16 = 0 ∧ c.arch.nbase.toNat + bytes ≤ c.arch.nlimit.toNat then
      match s.storeWords ci c c.arch.nbase (⟨.hdr, BitVec.ofNat 64 (tmpl.toNat / 2 ^ 24 * 2 ^ 24)⟩ :: List.replicate (bytes / 8 - 1) .nil) with
      | .ok c' _ =>
        (allocate s ci i t { c' with arch := { c'.arch with nbase := c.arch.nbase + BitVec.ofNat 64 bytes } }).map fun r =>
          (r.1, (l, c.arch.nbase) :: r.2)
      | _ => none
    else none

/-- The address a lane of `alloc` received. -/
def addressOf (l : Nat) (xs : List (Nat × BitVec 64)) : BitVec 64 := ((xs.find? fun x => x.1 == l).map Prod.snd).getD 0

/-- The image that `spill` writes of a register's 32 words, with its format code (R256): the first format whose test they pass, FULL
in a RAW page (`whole`). -/
def ImageOf (whole : Bool) (row : Nat → TWord) (code : Nat) (im : List TWord) : Prop :=
  let t := (row 0).tag
  let uniform := whole = false ∧ ∀ i < 32, row i = row 0
  let affine (b d : BitVec 64) := whole = false ∧ ∀ i < 32, row i = ⟨.int, b + BitVec.ofNat 64 i * d⟩
  let narrow := whole = false ∧ ∀ i < 32, row i = makeWord t (BitVec.ofInt 64 (signed 16 ((row i).payload.toNat % 2 ^ 16)))
  (uniform ∧ code = 0 ∧ im = [row 0]) ∨
  (¬uniform ∧ ∃ b d, affine b d ∧ code = 1 ∧ im = [⟨.int, b⟩, ⟨.int, d⟩]) ∨
  (¬uniform ∧ (¬∃ b d, affine b d) ∧ narrow ∧ code = 2 ∧ im = (List.range 8).map fun j =>
    ⟨t, BitVec.ofNat 64 ((List.range 4).map fun k => (row (4 * j + k)).payload.toNat % 2 ^ 16 * 2 ^ (16 * k)).sum⟩) ∨
  (¬uniform ∧ (¬∃ b d, affine b d) ∧ ¬narrow ∧ code = 3 ∧
    im = ((List.range 32).map fun i => ⟨.raw, (row i).payload⟩) ++ (List.range 2).map fun m =>
      ⟨.raw, BitVec.ofNat 64 ((List.range 16).map fun j => (row (16 * m + j)).tag.toNat * 2 ^ (4 * j)).sum⟩)

/-- A word of memory with its tag (R2, R24). -/
def Holds (s : State) (k : Nat) (w : TWord) : Prop := Memory.nat s.mem k 8 = w.payload.toNat ∧ Tags.read s.tags (k / 8) = w.tag

/-- The registers of a crew that are live in some lane, ascending (R407). -/
def liveRows (c : Crew) : List Nat := (List.range 224).filter fun r => c.arch.vregs.any fun e => e.1 / 32 = r

/-- Wake kind and WAKE0 to WAKE2 of a record (R408). -/
def WakeSaved (s : State) (base kind : Nat) (c : Crew) : Prop :=
  let put := fun (a b d : Nat) => Holds s (base + 0x08) ⟨.int, BitVec.ofNat 64 a⟩ ∧ Holds s (base + 0x10) ⟨.int, BitVec.ofNat 64 b⟩ ∧
    Holds s (base + 0x18) ⟨.int, BitVec.ofNat 64 d⟩
  let lanesOf := fun (lanes : List Nat) (m : Nat) => m < 2 ^ 64 ∧ ∀ l, m.testBit l = (decide (l < 64) && lanes.contains l)
  match c.wake.or (c.svcLeft.map Prod.snd) with
  | some (.queuePop q core lanes _) => kind = 1 ∧ ∃ m, lanesOf lanes m ∧ put (q + 32 * (core % 4)) m 0
  | some (.queuePush q core items) => kind = 1 ∧ ∃ m, lanesOf (items.map Prod.fst) m ∧ put (q + 32 * (core % 4) + 2 ^ 7) m 0
  | some (.tbar id phase) => kind = 2 ∧ put id phase 0
  | some (.barrier _) | some .obres | some .four | some .svcEvent => kind = 3 ∧ put 0 0 0
  | some (.svcReply ring last dest _) => kind = 4 ∧ put ring last dest.toNat
  | some (.fault n) => kind = 5 ∧ put (((s.faults.find? fun f => f.number == n).bind FaultRec.seq).getD 0) 0 0
  | _ => kind = 0 ∧ put 0 0 0

/-- The record of a crew in memory (R407, R408): every field, and the image of every live register at its place. The SEQ of a fault
whose record is not written yet is the model's 0 (entry 51). -/
def RecordOf (s : State) (base : Nat) (c : Crew) : Prop :=
  let int := fun off (v : Nat) => Holds s (base + off) ⟨.int, BitVec.ofNat 64 v⟩
  let live := liveRows c
  let packed := fun off (code : Nat → Nat) => ∀ k < 7, int (off + 8 * k) ((List.range 32).map fun j => code (32 * k + j) * 4 ^ j).sum
  ∃ (kind : Nat) (code : Nat → Nat) (im : Nat → List TWord),
    (∀ r ∈ live, ImageOf false (c.readV r) (code r) (im r)) ∧ (∀ r, r ∉ live → code r = 0) ∧
    int 0 (c.crewId + c.alloc / 8 * 2 ^ 8 + live.length * 2 ^ 16 + kind * 2 ^ 24) ∧ WakeSaved s base kind c ∧
    (∀ l < 32, int (0x20 + 8 * l) ((c.thread l).pc.toNat % 2 ^ 56 / 8 + (match (c.thread l).st with
        | .active => 0 | .helper => 1 | .parked => 2 | .regroup => 3 | .exited => 4) * 2 ^ 53
        + (if (c.thread l).region then 2 ^ 56 else 0) + (c.thread l).mstep * 2 ^ 57) ∧
      Holds s (base + 0x120 + 8 * l) ⟨.int, (c.thread l).trapInfo⟩ ∧
      Holds s (base + 0x408 + 8 * l) (SMap.get .nil c.replies l)) ∧
    (∀ j < 12, Holds s (base + 0x220 + 8 * j) ⟨.int, [c.arch.nbase, c.arch.nlimit, c.arch.xi, c.arch.fpflags, c.arch.formatflag, c.htab,
      c.svcq, c.hregion, c.chunkn, BitVec.ofNat 64 (c.squashTotal * 256 + c.consec), c.clk0, c.clk1].getD j 0⟩) ∧
    (∀ n < 31, Holds s (base + 0x280 + 8 * n) (c.readS n)) ∧
    (∀ k < 4, ∃ m, m < 2 ^ 64 ∧ int (0x378 + 8 * k) m ∧ ∀ j < 64, m.testBit j = decide (64 * k + j ∈ live)) ∧
    packed 0x398 code ∧ packed 0x3D0 (SMap.get 0 c.arch.spillFmt) ∧
    ∀ r ∈ live, ∀ j < (im r).length, Holds s (base + 0x510 + ((live.filter (· < r)).map fun q => ((im q).length + 1) / 2 * 16).sum + 8 * j)
      ((im r).getD j .nil)

/-- The registers that a crew holds. -/
def SameRegs (a b : Crew) : Prop :=
  (∀ r l, r < 224 → l < 32 → a.readV r l = b.readV r l) ∧ ∀ n, n < 31 → a.readS n = b.readS n

/-- The lane whose address `spill` and `fill` use (R255): the lowest that is no HELPER. -/
def slotLane (c : Crew) (exe : List Nat) : Nat := (exe.find? fun l => (c.thread l).st != .helper).getD 0

/-! ## Far operations, atomics and reductions (R87, R95, R261-R267) -/

/-- The package after far operations are sent, in order (R95). -/
def sent (s : State) (pc : BitVec 64) (xs : List (BitVec 64 × FarBody × FarUse)) : State :=
  xs.foldl (fun s x => s.sendFar x.1 x.2.1 x.2.2 pc) s

/-- Bytes that a store reaches: none lies in the reserved part of the coherent window, which ignores writes (R368). -/
abbrev Lands (k n : Nat) : Prop := k + n ≤ Config.windowBase + 0x2010 ∨ Config.windowBase + 0x10000 ≤ k

/-- The byte that the last host write to an address holds, while the device does not see it yet (R96, R369). -/
def hostByte (s : State) (k : Nat) : Option Byte :=
  ((s.hostStores.filter fun h => decide (h.pa ≤ k ∧ k < h.pa + h.data.length)).getLast?).map fun h => h.data.getD (k - h.pa) 0

/-- Each piece of a host write that waits lies in one line. -/
def HostPieces (s : State) : Prop := ∀ h ∈ s.hostStores, ∀ j < h.data.length, (h.pa + j) / 128 = h.pa / 128

/-- Lines have been brought to DRAM (R96, R260): those of them that were dirty stand there as committed, under what the host has
written there since, and are clean; nothing else of DRAM changes, memory and tags stay, no fetch unit keeps a copy of the lines. -/
def Flushed (s t : State) (line : Nat → Bool) : Prop :=
  t.mem = s.mem ∧ t.tags = s.tags ∧ (∀ l, l ∈ t.unflushed ↔ l ∈ s.unflushed ∧ line l = false) ∧
  (∀ k, Memory.read t.dram k = if line (k / 128) = true ∧ k / 128 ∈ s.unflushed then (hostByte s k).getD (Memory.read s.mem k)
    else Memory.read s.dram k) ∧
  ∀ e, e ∈ t.fetchCache ↔ e ∈ s.fetchCache ∧ line (e.1 % 2 ^ 55 / 128) = false

/-- Pages as the tables give them: of whole 64-KiB pieces, one page for all its addresses, whole pieces unmapped. -/
def WholePages (s : State) (core asid : Nat) : Prop :=
  ∀ v, (∀ p, s.xlate core asid v false false false = .ok p →
      p.base ≤ v ∧ v < p.base + p.size ∧ p.base % 65536 = 0 ∧ p.size % 65536 = 0 ∧ p.pa % 65536 = 0 ∧
        ∀ u, p.base ≤ u → u < p.base + p.size → s.xlate core asid u false false false = .ok p) ∧
    (s.xlate core asid v false false false = .fault 1 →
      ∀ u, u / 65536 = v / 65536 → s.xlate core asid u false false false = .fault 1)

/-- A lane's far access passes its checks (R261): tags, bit 63, alignment. -/
def farChecks (s : State) (i : Instr) (c : Crew) (a : Acc) (o : MOps) (l : Nat) : Prop :=
  addressTags s i c o false l ∧ (mAddress s i c o l).getLsbD 63 = true ∧ (mAddress s i c o l).toNat % a.bytes = 0

/-- The field a far load's reply goes to: a uniform register takes the lowest lane's (R191). -/
def farDest (s : State) (i : Instr) (c : Crew) (exe : List Nat) (l : Nat) : Field :=
  if 224 ≤ s.effSlot i c l 0 ∧ l ≠ exe.headD 0 then 255 else BitVec.ofNat 8 (s.effSlot i c l 0)

/-- `atom` and `acas` with their fields and what they do to a word (R264, R265). -/
def atomForm (s : State) (c : Crew) : Instr → Option (MOps × Atomic)
  | .atom op ty o => some (o, atomOf (.atom op ty o) op ty s c)
  | .acas ty o => some (o, casOf (.acas ty o) ty s c)
  | _ => none

/-- The package after the atomics' groups have been performed, their results, and the numbers of the far ones. -/
def atomRun (i : Instr) (o : MOps) (x : Atomic) (s : State) (ci : Nat) (c : Crew) (exe : List Nat) :
    State × List (Nat × TWord × Flags) × List Nat :=
  let t := atomTarget i o x s c
  runGroups ci c.pc (fun l => if 224 ≤ s.destOf i c l ∧ l ≠ exe.headD 0 then 255 else s.destOf i c l) x t (atomGroups t exe)
    (s.setCrew ci c)

/-- The committed word a lane finds: after the applications of the lower lanes to the same word (R264). -/
def wordBefore (i : Instr) (o : MOps) (x : Atomic) (s : State) (c : Crew) (exe : List Nat) (l : Nat) : State :=
  let t := atomTarget i o x s c
  (homeGroup x t (exe.filter fun k => decide (k < l) && (t k).group == (t l).group) s).1

/-- What a lane of an atomic receives at once: the word before its own application (R264); nothing from a far home. -/
def atomResult (i : Instr) (o : MOps) (x : Atomic) (s : State) (c : Crew) (exe : List Nat) (l : Nat) : LaneResult :=
  match atomTarget i o x s c l with
  | .home k tagged _ _ =>
    let s' := wordBefore i o x s c exe l
    { writes := [(s.destOf i c l, s'.peekAcc x.acc k tagged)], flags := (x.one s' l k tagged).2.2 }
  | _ => {}

/-- The home pages that an atomic's lanes used. -/
def atomPages (i : Instr) (o : MOps) (x : Atomic) (s : State) (c : Crew) (exe : List Nat) (b : Crew) : Crew :=
  exe.foldl (fun b l => match atomTarget i o x s c l with
    | .home _ _ _ page => b.usePage? page
    | _ => b) b

/-- `sato` in ascending lane order: each lane reads what the chunk sees, applies its operation and buffers the result. -/
def satoRun (s : State) (i : Instr) (op : AtomOp) (ty : AtomTy) (p : Nat → Spot) : Crew → List Nat → Crew → Crew × List (Nat × TWord × Flags)
  | _, [], b => (b, [])
  | c, l :: t, b =>
    let a := atomAcc op ty
    let old := (loaded a (p l).tagged false (s.viewTag b ((p l).key / 8)) (s.viewBytes b (p l).key a.bytes)).headD .nil
    let w := applyWord op ty old.payload (s.opnd i c l 2)
    let b' := (b.enterRead (p l).key a.bytes (p l).grain).store a [w.1] (p l).key (p l).tagged (p l).grain
    ((satoRun s i op ty p c t b').1, (l, old, w.2) :: (satoRun s i op ty p c t b').2)

/-- What a lane received. -/
def gotBy (l : Nat) (xs : List (Nat × TWord × Flags)) : TWord × Flags := ((xs.find? fun x => x.1 == l).map Prod.snd).getD (.nil, 0)

/-! ## Barriers (R113-R116) -/

/-- COUNT, ARRIVED and the upper bits of a barrier's word 0 (R113). -/
def countOf (p : BitVec 64) : Int := (p.extractLsb' 0 32).toInt
def arrivedOf (p : BitVec 64) : Nat := p.toNat / 2 ^ 32 % 2 ^ 20
def upperOf (p : BitVec 64) : Nat := p.toNat / 2 ^ 52
/-- A value held within a range. -/
def clamp (lo hi x : Int) : Int := max lo (min hi x)

/-- What the four arrival-barrier instructions do to one barrier, given the lanes that name it. -/
def barrierEvent (i : Instr) (s : State) (c : Crew) : Option (State → Nat → Nat → Nat → List Nat → State) :=
  match i with
  | .abinit _ => some fun s' _ _ k ls =>
    let l := ls.getLastD 0
    (s'.eventPut k ⟨.int, barrierSet (s.opnd i c l 0).payload (countOf (s.opnd i c l 0).payload) 0⟩).eventPut (k + 8) (s.opnd i c l 2)
  | .abexp _ => some fun s' _ _ k ls => ls.foldl (fun s' l =>
    let p := (s'.peekWord k).payload
    s'.eventPut k ⟨.int, barrierSet p (countOf p + (s.opnd i c l 0).payload.toInt) (arrivedOf p)⟩) s'
  | .abarr _ => some fun s' team core k ls => ls.foldl (fun s' _ => s'.countBarrier team core k 1 1) s'
  | _ => none

/-- The barrier that a lane's instruction names, with its checks (R244, R248, R270). -/
def barrierTarget (i : Instr) (s : State) (c : Crew) (l : Nat) : Except Nat (Nat × Nat) :=
  match i with
  | .abinit o =>
    let w0 := s.opnd i c l 0
    let w1 := s.opnd i c l 2
    let core := (scratchCore (s.teamOf c) c.core (atomAddr o (s.opnd i c l 1)).toNat).getD c.core
    barrierLane o true (w0.tag == .int && !w1.isHeader)
      (barrierBad w0 || (barrierAction w0.payload && (qInstance (s.teamOf c) (s.gridOf c) core (barrierQueue w0.payload)).isNone))
      s c (s.opnd i c l 1) .nil
  | .abexp o => barrierLane o false ((s.opnd i c l 0).tag == .int) false s c (s.opnd i c l 1) (s.opnd i c l 2)
  | .abarr o | .abwait o => barrierLane o false true false s c (s.opnd i c l 1) (s.opnd i c l 2)
  | _ => .error 0

/-! ## Queues (R109-R111) -/

/-- Entries that an instance holds, and the one `j` places behind HEAD (R109). -/
def heldIn (s : State) (k : Nat) : Nat := (s.qHead k).tail - (s.qHead k).head
def entryAt (s : State) (k j : Nat) : TWord := (s.peekWords (k + 64 + 8 * (((s.qHead k).head + j) % (s.qHead k).cap)) 1).headD .nil

/-- A crew that waits at an instance, in a wait that a test selects. -/
def Blocked (s : State) (team : Nat) (t : Wake → Bool) (ci : Nat) : Prop :=
  ci < s.crews.length ∧ (s.crew ci).team = team ∧ (s.crew ci).place ≠ .retired ∧ ∃ w, (s.crew ci).wake = some w ∧ t w = true

/-- It is the one that blocked first. -/
def BlockedFirst (s : State) (team : Nat) (t : Wake → Bool) (ci : Nat) : Prop :=
  Blocked s team t ci ∧ ∀ k, Blocked s team t k → k ≠ ci → (s.crew ci).ticket < (s.crew k).ticket

/-- How many of `n` lanes are served where `m` can be: all at one entry where they receive nothing (entry 56). -/
def servedOf (n m : Nat) (dest : Field) : Nat := if dest = 255 then (if m = 0 then 0 else n) else min n m

/-- The instruction of a crew takes its ticket and waits behind the crews that wait already, before anybody is served (R110). -/
def queued (s : State) (ci : Nat) (c : Crew) (w : Wake) : State :=
  { s.setCrew ci { c with wake := some w, ticket := s.tickets } with tickets := s.tickets + 1 }

/-! ## Hash regions (R117-R127) -/

/-- Status words of the hash instructions (R122). -/
def pair (s : State) (i : Instr) (c : Crew) (l : Nat) (st : Nat) (v : TWord) : LaneResult :=
  { writes := [(s.destOf i c l, intWord st), (s.destOf i c l + 1, v)] }

/-- Every lane's key passes Canon (R35), read in the chunk, and the region is held and free to use. -/
def keysPass (s : State) (ci : Nat) (i : Instr) (c : Crew) (exe : List Nat) (k : Nat → HKey) : Prop :=
  (s.region (hregionCore c) c.team).held = true ∧ s.hashBusy ci (hregionCore c) = false ∧
    ∀ l ∈ exe, (s.canon ci c (s.opnd i c l 1)).2 = .ok (k l)

/-- The crew after the lanes' keys have been read. -/
def afterKeys (s : State) (ci : Nat) (i : Instr) (c : Crew) (exe : List Nat) : Crew :=
  (s.hashKeys ci true (fun l => s.opnd i c l 1) (fun _ => true) exe c).1

/-- A hash event on equal-key groups in the order of their lowest lanes (R273): `hins` with values, `hdel`. -/
def hashEvent (i : Instr) (s : State) (c : Crew) (exe : List Nat) (k : Nat → HKey) :
    Option (Except (Nat × Nat) (HashWork × List (Nat × Nat × TWord))) :=
  let old : HashWork := { region := s.region (hregionCore c) c.team }
  match i with
  | .hins _ => some (runKeyGroups (insGroup s c.core (s.asidOf c)) (groupKeys (exe.map fun l => (k l, (l, s.opnd i c l 2)))) old)
  | .hdel _ => some (runKeyGroups (fun w k ls => .ok (delGroup w k ls)) (groupKeys (exe.map fun l => (k l, (l, .nil)))) old)
  | _ => none

/-- C of a key, its home slot among N = 2^b, its probe distance at a slot (R118). -/
def keyNumber (k : HKey) : BitVec 64 := k.canon.payload ^^^ BitVec.ofNat 64 (k.canon.tag.toNat * 2 ^ 56)
def homeSlot (k : HKey) (b : Nat) : Nat :=
  let c := keyNumber k
  (c.extractLsb' 48 16 ^^^ c.extractLsb' 32 16 ^^^ c.extractLsb' 16 16 ^^^ c.extractLsb' 0 16).toNat * 0x9E3D % 2 ^ 16 / 2 ^ (16 - b)
def distanceAt (k : HKey) (b slot : Nat) : Nat := (slot + 2 ^ b - homeSlot k b) % 2 ^ b

/-- Ord of a key stands below that of another (R119). -/
def ordBelow (a b : HKey) : Prop :=
  (keyNumber a).toNat < (keyNumber b).toNat ∨ (keyNumber a = keyNumber b ∧ a.addr < b.addr)

/-- A region holds a key with a value. -/
def HeldAt (r : HRegion) (k : HKey) (v : TWord) : Prop := ∃ slot, SMap.get? r.slots slot = some ⟨k, v⟩

/-- The layout of R119: distances of at most 31; no gap between a key's home and its slot, and along a run the keys ascend by home
slot, then Ord; no key twice; and some slot where a run begins. -/
structure Laid (r : HRegion) : Prop where
  size : 4 ≤ r.b ∧ r.b ≤ 15 ∧ SMap.sorted r.slots = true
  near : ∀ p e, SMap.get? r.slots p = some e → p < 2 ^ r.b ∧ distanceAt e.key r.b p ≤ 31
  runs : ∀ p e, SMap.get? r.slots p = some e → distanceAt e.key r.b p ≠ 0 →
    ∃ x, SMap.get? r.slots ((p + 2 ^ r.b - 1) % 2 ^ r.b) = some x ∧
      (distanceAt e.key r.b p ≤ distanceAt x.key r.b ((p + 2 ^ r.b - 1) % 2 ^ r.b) ∨
        (distanceAt e.key r.b p = distanceAt x.key r.b ((p + 2 ^ r.b - 1) % 2 ^ r.b) + 1 ∧ ¬ordBelow e.key x.key))
  once : ∀ p q e x, SMap.get? r.slots p = some e → SMap.get? r.slots q = some x → sameKey e.key x.key = true → p = q
  start : ∃ p < 2 ^ r.b, ∀ e, SMap.get? r.slots p = some e → distanceAt e.key r.b p = 0

/-- The held keys that equal `k` agree with it in what the hash unit compares: two equal keys have one Ord (R119). -/
def OneOrd (r : HRegion) (k : HKey) : Prop :=
  ∀ x v, HeldAt r x v → sameKey x k = true → x.canon = k.canon ∧ x.addr = k.addr

/-- No held key equals `k`. -/
def NotHeld (r : HRegion) (k : HKey) : Prop := ∀ x v, HeldAt r x v → sameKey x k = false

/-- The layout of the held keys with `k` needs a distance above 31 (R119): the keys that stand before `k` fill the slots from its home
up to distance 31, or in the run of slots from its home on a key that stands behind it is at distance 31 already. -/
def TooFar (r : HRegion) (k : HKey) : Prop :=
  let slot (j : Nat) := (homeSlot k r.b + j) % 2 ^ r.b
  (∀ j ≤ 31, ∃ e, SMap.get? r.slots (slot j) = some e ∧ (j < distanceAt e.key r.b (slot j) ∨ (distanceAt e.key r.b (slot j) = j ∧ ordBelow e.key k))) ∨
  ∃ n e, (∀ j ≤ n, (SMap.get? r.slots (slot j)).isSome = true) ∧ SMap.get? r.slots (slot n) = some e ∧ distanceAt e.key r.b (slot n) = 31 ∧
    (31 < n ∨ (n = 31 ∧ ¬ordBelow e.key k))

/-- What `hins` does with one key of its lanes, lowest first (R122): a held key stays and its value is returned; another one is placed,
keeping the layout, when its home slot is free at least; only where the region is full or the layout would need a distance above 31 does
its record go to the spill log, or the log is full, and the held keys stay as they are (R119, R120). -/
def Inserts (s : State) (core asid : Nat) (w : HashWork) (k : HKey) (l : Nat) (v : TWord) (rest : List (Nat × TWord)) : Prop :=
  (∀ x u, HeldAt w.region x u → sameKey x k = true →
    insGroup s core asid w k ((l, v) :: rest) = .ok (w, ((l, v) :: rest).map fun y => (y.1, 1, u))) ∧
  (NotHeld w.region k → ∀ w' rs, insGroup s core asid w k ((l, v) :: rest) = .ok (w', rs) →
    (SMap.get? w.region.slots (homeSlot k w.region.b) = none → rs.head? = some (l, 0, v)) ∧
    ((rs = (l, 0, v) :: rest.map (fun y => (y.1, 1, v)) ∧ w' = { w with region := w'.region } ∧
        w'.region = { w.region with slots := w'.region.slots } ∧ Laid w'.region ∧
        ∀ x u, HeldAt w'.region x u ↔ HeldAt w.region x u ∨ (x = k ∧ u = v)) ∨
      ((w.region.slots.length = 2 ^ w.region.b ∨ TooFar w.region k) ∧
      ∃ p, s.xlate core asid (w.region.desc + 0x10) true false false = .ok p ∧ w'.region = { w.region with spilled := true } ∧
        let n := s.logCount w (p.key (w.region.desc + 0x10))
        if (w.region.cap : Int) ≤ n.toInt then rs = ((l, v) :: rest).map (fun y => (y.1, 7, v)) ∧ w'.writes = w.writes
        else rs = ((l, v) :: rest).map (fun y => (y.1, 5, v)) ∧
          ∃ q, s.xlate core asid ((BitVec.ofNat 64 w.region.base + n * 16).toNat) false true false = .ok q ∧
            let at' := q.key (BitVec.ofNat 64 w.region.base + n * 16).toNat
            w'.writes = w.writes ++ [⟨at', k.word, q.tagged, q.grain⟩, ⟨at' + 8, v, q.tagged, q.grain⟩,
              ⟨p.key (w.region.desc + 0x10), ⟨.int, n + 1⟩, p.tagged, p.grain⟩])))

/-- What `hdel` does with one key of its lanes: a held key goes, keeping the layout, and the lowest lane receives its value; else,
and for every further lane, ABSENT, or MAYBE once the region has spilled (R119, R122). -/
def Deletes (w : HashWork) (k : HKey) (l : Nat) (rest : List (Nat × TWord)) : Prop :=
  let miss : Nat × TWord := (if w.region.spilled then 6 else 3, .nil)
  (NotHeld w.region k → ∀ v, delGroup w k ((l, v) :: rest) = (w, ((l, v) :: rest).map fun y => (y.1, miss))) ∧
  (∀ x u v, HeldAt w.region x u → sameKey x k = true →
    ∃ slots, delGroup w k ((l, v) :: rest) = ({ w with region := { w.region with slots := slots } }, (l, 4, u) :: rest.map fun y => (y.1, miss)) ∧
      Laid { w.region with slots := slots } ∧
      ∀ y z, HeldAt { w.region with slots := slots } y z ↔ HeldAt w.region y z ∧ sameKey y k = false)

/-- Two words of one tag under an operation of `hacc` (R37, R123): floats round by RNE, a BOOL counts as 0 or 1. -/
def accumulated (op : HaccOp) (a b : TWord) : TWord × Flags :=
  let red : RedOp := match op with
    | .add => .add
    | .min => .min
    | .max => .max
    | .or => .or
    | .and => .and
  match a.tag with
  | .bool => (boolWord (if op = .and then decide (a.payload ≠ 0) && decide (b.payload ≠ 0)
      else decide (a.payload ≠ 0) || decide (b.payload ≠ 0)), 0)
  | t => match t.fp? with
    | some f => (⟨t, (combine red (.f f) .rne a.payload b.payload).1⟩, (combine red (.f f) .rne a.payload b.payload).2)
    | none => (⟨t, (combine red .i64 .rne a.payload b.payload).1⟩, 0)

/-- The status and value of a key that `hprobe` looks for (R122, R273). -/
def probed (r : HRegion) (k : HKey) : Nat × TWord :=
  match (r.probe k).1 with
  | some slot => (2, ((SMap.get? r.slots slot).map HEntry.val).getD .nil)
  | none => (if r.spilled then 6 else 3, .nil)

/-! ## Matrix instructions (R59, R129-R132, R276-R294) -/

/-- The trap that a matrix instruction's own operands raise, if any (R276). -/
def matrixTrap (i : Instr) (s : State) (c : Crew) : Option Nat :=
  let code {α : Type} : Except Nat α → Option Nat
    | .ok _ => none
    | .error n => some n
  match i with
  | .mma p => code (s.prodArgs c i (⟨none, p⟩, false))
  | .mmas t p => code (s.prodArgs c i (⟨some t, p⟩, false))
  | .mlut p => code (s.prodArgs c i (⟨none, p⟩, true))
  | .obrel _ => code (s.handle0 c (s.opnd i c 0 1))
  | .obld bytes o => code (obldArgs i bytes.toNat o s c)
  | .sclld off bytes _ => code (sclldArgs i off.toNat bytes.toNat s c)
  | .nmsel t kl rows _ => code (nmselArgs i t kl.toNat rows.toNat s c)
  | .accz _ => code (accArgs i false 0 (fun _ => 0) s c)
  | .accrd o => code (accArgs i true o.f0.toNat (fun t => (t.rows * t.cols + 31) / 32) s c)
  | .accwr o => code (accArgs i true o.f2.toNat (fun t => (t.rows * t.cols + 31) / 32) s c)
  | .accred _ o => code (accArgs i false o.f0.toNat (fun t => (t.rows + 31) / 32) s c)
  | .accmv rm ty doff _ => code (accmvArgs i rm ty.toNat doff.toNat s c)
  | _ => none

/-- What a matched matrix instruction has done: the package, its crew, the registers freed, the lanes' results. -/
structure MatrixOut where
  state : State
  crew : Crew
  frees : Nat → List Nat
  res : Nat → LaneResult := fun _ => {}

/-- The words of a group: word w in register w ÷ 32 of lane w mod 32, NIL past the end (R292). -/
def groupWords (f n l : Nat) (w : Nat → BitVec 32) : List (Nat × TWord) :=
  (List.range ((n + 31) / 32)).map fun m => (f + m, if 32 * m + l < n then ⟨.f32, (w (32 * m + l)).setWidth 64⟩ else .nil)

/-- The effect of each matrix instruction once its four has matched: products were done at the match. None where it traps,
waits for scratch, scale memory or the quadrant's earlier instructions, or `obres` finds no room. -/
def matrixEffect (i : Instr) (s : State) (ci : Nat) (c : Crew) : Option MatrixOut :=
  let frees := s.lastUses i c
  let onQuad (f : Quad → Quad) : Option MatrixOut := some { state := s.setQuad c.quadNo (f (s.quad c.quadNo)), crew := c, frees := frees }
  let scratch (k n : Nat) (f : List Byte → Option MatrixOut) : Option MatrixOut :=
    if s.mustWait ci k n = false ∧ s.absentIn k n = [] then f (Memory.bytes s.mem k n) else none
  match i with
  | .mma _ | .mmas _ _ | .mlut _ => some { state := s, crew := c, frees := frees }
  | .obres bytes soff b32 fmt _ =>
    (s.newResv c bytes.toNat fmt (if b32 then 32 else 16) soff.toNat).bind fun r =>
      (onQuad fun q => { q with resv := r :: q.resv
                                obuf := q.obuf.filter fun e => decide (e.1 < r.base) || decide (r.base + r.size ≤ e.1) }).map fun x =>
        { x with res := fun l => { writes := [(s.destOf i c l, ⟨.tile, BitVec.ofNat 64 (c.quad * 2 ^ 56 + r.index * 2 ^ 52)⟩)] } }
  | .obrel _ => (s.handle0 c (s.opnd i c 0 1)).toOption.bind fun r =>
    onQuad fun q => { q with resv := q.resv.filter fun x => x.index != r.index }
  | .obld bytes o => (obldArgs i bytes.toNat o s c).toOption.bind fun x =>
    scratch x.2.1 bytes.toNat fun bs => onQuad fun q =>
      { q with obuf := (List.range bs.length).foldl (fun m j => SMap.put 0 m (x.1.base + x.2.2 + j) (bs.getD j 0)) q.obuf }
  | .sclld off bytes _ => (sclldArgs i off.toNat bytes.toNat s c).toOption.bind fun k =>
    if s.scaleBusy c.quadNo then none
    else scratch k bytes.toNat fun bs =>
      some { state := s.pokeBytes (scaleKey + c.quadNo * 2 ^ 14 + off.toNat) bs, crew := c, frees := frees }
  | .nmsel t kl rows _ => (nmselArgs i t kl.toNat rows.toNat s c).toOption.bind fun x =>
    if s.scaleBusy c.quadNo then none else onQuad (s.nmselect c.quadNo t x.1 x.2.1 x.2.2)
  | .accz _ => (accArgs i false 0 (fun _ => 0) s c).toOption.bind fun t => onQuad fun q =>
    { q with acc := q.acc.filter fun e => !(decide (t.row0 ≤ e.1 / 256) && decide (e.1 / 256 < t.row0 + t.rows)
        && decide (t.col0 ≤ e.1 % 256) && decide (e.1 % 256 < t.col0 + t.cols)) }
  | .accrd o => (accArgs i true o.f0.toNat (fun t => (t.rows * t.cols + 31) / 32) s c).toOption.bind fun t =>
    if (s.quad c.quadNo).busy ≠ 0 then none
    else some { state := s, crew := c, frees := frees
                res := fun l => { writes := groupWords o.f0.toNat (t.rows * t.cols) l fun e =>
                  (s.quad c.quadNo).accAt (t.row0 + e / t.cols) (t.col0 + e % t.cols) } }
  | .accwr o => (accArgs i true o.f2.toNat (fun t => (t.rows * t.cols + 31) / 32) s c).toOption.bind fun t =>
    (onQuad fun q => (List.range (t.rows * t.cols)).foldl (fun q e =>
        q.setAcc (t.row0 + e / t.cols) (t.col0 + e % t.cols) ((c.readV (o.f2.toNat + e / 32) (e % 32)).pay.setWidth 32)) q).map fun x =>
      { x with frees := fun l => frees l ++
                 if o.l2 then (List.range ((t.rows * t.cols + 31) / 32)).map fun m => o.f2.toNat + m else [] }
  | .accred max o => (accArgs i false o.f0.toNat (fun t => (t.rows + 31) / 32) s c).toOption.bind fun t =>
    if (s.quad c.quadNo).busy ≠ 0 then none
    else
      let row (n : Nat) := reduceRow max t (s.quad c.quadNo) (t.row0 + n)
      some { state := s, crew := c, frees := frees
             res := fun l => { writes := groupWords o.f0.toNat t.rows l fun n => BitVec.ofNat 32 (row n).1
                               flags := (List.range ((t.rows + 31) / 32)).foldl (fun fl m =>
                                 if 32 * m + l < t.rows then fl ||| (row (32 * m + l)).2 else fl) 0 } }
  | .accmv rm ty doff _ => (accmvArgs i rm ty.toNat doff.toNat s c).toOption.bind fun m =>
    if s.scaleBusy c.quadNo then none
    else
      let r := (List.range m.src.rows).foldl (accmvRow rm ty.toNat doff.toNat m c) (s, 0)
      some { state := r.1, crew := c, frees := frees, res := fun l => { flags := if l = 0 then r.2 else 0 } }
  | _ => none

/-- The four of a crew with its instruction noted, and whether all four stand at this match number with agreeing items. -/
def atMatch (i : Instr) (s : State) (ci : Nat) (c : Crew) : State := s.setCrew ci { c with mreq := some i }
def fourReady (i : Instr) (s : State) (ci : Nat) (c : Crew) : Bool :=
  let s1 := atMatch i s ci c
  let four := s1.fourOf ci
  decide (four.length = 4) && (four.all fun k => (s1.crew k).standsAt c.arch.matrixNo)

/-- Package and crew once the instruction's four has matched: now, if this crew completes it, or earlier. -/
def matched (i : Instr) (s : State) (ci : Nat) (c : Crew) : Option (State × Crew) :=
  if c.arch.matrixNo < c.matched then some (s, c)
  else if matrixTrap i s c = none ∧ fourReady i s ci c = true then
    let s1 := atMatch i s ci c
    if s1.fourAgrees (s1.fourOf ci) then
      let s2 := s1.perform ci (s1.fourOf ci)
      some (s2, s2.crew ci)
    else none
  else none

/-- Products wait until no engine has scale bytes of the four's quadrants to write (R97). -/
def scaleFree (i : Instr) (s : State) (ci : Nat) (c : Crew) : Prop :=
  (Machine.prodOf i).isSome = true → ∀ k ∈ (atMatch i s ci c).fourOf ci, s.scaleBusy ((atMatch i s ci c).crew k).quadNo = false

/-- Element k of width w in an array of bytes at a base (R144). -/
def elementOf (byte : Nat → Byte) (w base k : Nat) : Nat :=
  if 8 ≤ w then number ((List.range (w / 8)).map fun j => byte (base + k * (w / 8) + j))
  else (byte (base + k * w / 8)).toNat / 2 ^ (k * w % 8) % 2 ^ w

/-- An element's value, under its block's scale byte where the format has one (R149, R150). -/
def elementValue (s : State) (quad : Nat) (f : Fmt) (scale bits : Nat) : FVal :=
  if f = .b4 ∨ f = .b8f ∨ f = .b8i then scaledValue f (Memory.read s.mem (scaleKey + quad * 2 ^ 14 + scale)).toNat bits
  else f.value 0 bits

/-- The logical position of element p of a row of A: p itself, or under a pattern N:M its group's position by the row's metadata, none
where its index masks it (R289). -/
def positionOf (q : Quad) (x : Prod) (r : Resv) (rn p : Nat) : Option Nat :=
  match x.pat with
  | none => some p
  | some t =>
    let n := if t = .p24 then 2 else if t = .p48 then 4 else 1
    let m := if t = .p48 then 8 else 4
    let ib := if t = .p48 then 3 else 2
    let index := fun p => ((List.range ib).map fun j =>
      (q.ob (r.moff + rn * ((x.ka * ib + 7) / 8) + (ib * p + j) / 8)).toNat / 2 ^ ((ib * p + j) % 8) % 2 * 2 ^ j).sum
    if m ≤ index p ∨ (p % n ≠ 0 ∧ index p ≤ index (p - 1)) then none else some (p / n * m + index p)

/-- Factors of group g of A's row i and B's column j: unmasked positions below KB in ascending order (R163, R286-R288, R290). -/
def groupFactors (s : State) (quad : Nat) (x : Prod) (r : Resv) (aoff : Nat) (quarter : Nat → Byte) (i j g : Nat) : List (FVal × FVal) :=
  let q := s.quad quad
  let b := matFmt x.p.bfmt
  let wb := x.p.bfmt.bits
  let bb := if x.p.bblen then 32 else 16
  (List.range x.ka).filterMap fun p => (positionOf q x r (aoff / x.rb r + i) p).bind fun k =>
    if k < x.p.kb.toNat + 1 ∧ k / x.p.bfmt.group = g then
      some (elementValue s quad r.fmt (r.soff + (aoff / x.rb r + i) * (x.kLog / r.blen) + k / r.blen)
          (elementOf q.ob r.fmt.elemBits (r.base + (aoff + i * x.rb r)) p),
        elementValue s quad b (x.p.sboff.toNat + j * (x.kLog / bb) + k / bb) (elementOf quarter wb (j % 64 * (x.kLog * wb / 8)) k))
    else none

/-- One accumulator element (R163): group after group, the exact sum rounded to F32, then added; an empty group adds nothing. -/
def accumulate (f32 : Bool) (acc : Nat) (groups : List (List (FVal × FVal))) : Nat :=
  groups.foldl (fun acc ps =>
    let terms := ps.flatMap fun f => if f32 then f32Product f.1 f.2 else [(mulVal f.1 f.2).1]
    if terms = [] then acc
    else
      let gs := (binF32.round .rne (exactSum terms)).bits
      (binF32.round .rne (addVal .rne (binF32.decode acc) (binF32.decode gs)).1).bits) acc

/-- A byte of a crew's quarter of B (R286). -/
def quarterOf (c : Crew) (f2 b : Nat) : Byte := BitVec.ofNat 8 ((c.readV (f2 + b / 256) (b % 256 / 8)).pay.toNat / 256 ^ (b % 8))

/-! ## Engines (R94, R106, R107, R136-R140, R295-R303) -/

/-- The direct engine commands with their operand fields and operation; none where the lane's device number is bad. -/
def engineForm (i : Instr) (s : State) (c : Crew) (l : Nat) : Option (XOps × EngineOp) :=
  match i with
  | .xld mask o => some (o, .xld mask.toNat)
  | .xst o => some (o, .xst)
  | .xsc o => some (o, .xsc)
  | .xfar get o =>
    let w := s.opnd i c l 5
    if w.tag = .int ∧ w.payload.toNat < 2 ^ 21 then some (o, if get then .get w.payload.toNat else .put w.payload.toNat) else none
  | _ => none

/-- Commands handed to the engine of the crew's cluster. -/
def handed (s : State) (c : Crew) (cmds : List EngineCmd) : State :=
  s.setEngine (c.core / 4) { s.engine (c.core / 4) with pend := (s.engine (c.core / 4)).pend ++ cmds }

/-- The records of an `xreq`, by index: their keys in scratch (R300). -/
def reqKeys (k0 cap first count : Nat) : List Nat := (List.range count).map fun j => k0 + 64 * ((first + j) % cap)

/-- A byte under a mask. -/
def masked (old val mask : Nat) : Nat := (old &&& (255 - mask)) ||| (val &&& mask)

/-- A crew's chunk has been squashed: registers and threads are those of the chunk's start, nothing is buffered or pending (R83). -/
def Squashed (c c' : Crew) : Prop := c'.arch = c.chunk.start ∧ c'.chunk = { start := c.chunk.start } ∧ c'.pend = []

/-- Exactly the chunks in flight that a write of some locations meets are squashed, one crew's apart (R80, R87). -/
def SquashedWhere (s t : State) (apart : Option Nat) (locs : List (Nat × Nat)) : Prop :=
  ∀ k, k < s.crews.length →
    if some k ≠ apart ∧ (s.crew k).inFlight = true ∧ writeMeets locs (s.crew k) = true then Squashed (s.crew k) (t.crew k)
    else { t.crew k with wake := (s.crew k).wake } = s.crew k

/-- Every sector that a cluster's fetch unit holds is as memory has it. -/
def NoStale (s : State) (cluster : Nat) : Prop :=
  ∀ sec, 32 * sec < 2 ^ 55 → (SMap.get? s.fetchCache (fetchKey cluster (32 * sec))).isSome = true → s.fetchStale cluster sec = false

/-- Bytes of committed memory at a virtual address, of at most two readable pages, with the tag of the first word: RAW where the page
keeps none (R101, R139). -/
def fetchedBytes (s : State) (c : Crew) (va : BitVec 64) (n : Nat) : Option (List Byte × Tag) :=
  let page (a : Nat) (m : Nat) : Option Page := match s.xlate c.core (s.asidOf c) a true false false with
    | .ok p => if p.key a + m ≤ 2 ^ 55 then some p else none
    | .fault _ => none
  let run (p : Page) (a m : Nat) : List Byte := (List.range m).map fun j => Memory.read s.mem (p.key a + j)
  (page va.toNat n).bind fun p =>
    let tag := if p.tagged then Tags.read s.tags (p.key va.toNat / 8) else .raw
    let m := p.base + p.size - va.toNat
    if n ≤ m then some (run p va.toNat n, tag)
    else
      let va' := va + BitVec.ofNat 64 m
      (page va'.toNat (n - m)).bind fun p' =>
        if n - m ≤ p'.base + p'.size - va'.toNat then some (run p va.toNat m ++ run p' va'.toNat (n - m), tag) else none

/-- An element's bits at a bit address, and its word's tag; of a 6-bit element the low 6 of its byte (R144). `broken` says that its
block is malformed, which traps where the view asks for it (R140). -/
def bitsFetched (s : State) (c : Crew) (v : View) (a : Int) (broken : Bool) : Option Elem :=
  (fetchedBytes s c (BitVec.ofInt 64 (a / 8)) ((v.fmt.elemBits + 7) / 8)).map fun r =>
    { bits := number r.1 / (if v.fmt.elemBits < 8 then 2 ^ (a % 8).toNat else 1) % 2 ^ v.fmt.codeBits, tag := r.2, broken := broken
      traps := broken && v.trapen }

/-- BASE + Σ over d ≥ 1 of c_d × STRIDE_d (R133, R302). -/
def lineAddress (v : View) (cs : List Int) : Int :=
  v.base + ((List.range v.rank).map fun d => if d = 0 then 0 else cs.getD d 0 * v.strides.getD d 0).sum

/-- The element of a view at a coordinate (R301, R302): zero outside it; in COMP 1 the position's place among the bits of its block's
map, up to the length, zero where the bit is clear; in COMP 2 the value of the index that names its position, zero where none does. -/
def elementFetched (s : State) (c : Crew) (v : View) (cs : List Int) : Option Elem :=
  let c0 := (cs.getD 0 0).toNat
  let w := v.fmt.elemBits
  let bit (m j : Nat) : Bool := m / 2 ^ j % 2 = 1
  if ¬ ∀ d ∈ List.range v.rank, 0 ≤ cs.getD d 0 ∧ cs.getD d 0 < v.dims.getD d 1 then some {}
  else if v.comp = 1 then
    let slot := lineAddress v cs + (c0 / 32 * (8 + 4 * w) : Nat)
    (fetchedBytes s c (BitVec.ofInt 64 slot) 8).bind fun r =>
      let map := number (r.1.take 4)
      let len := min 32 (number (r.1.drop 4))
      let below (n : Nat) : Nat := ((List.range n).filter (bit map)).length
      if bit map (c0 % 32) = true ∧ below (c0 % 32) < len then
        bitsFetched s c v (8 * (slot + 8) + (below (c0 % 32) * w : Nat)) (decide (len ≠ below 32))
      else some { broken := decide (len ≠ below 32), traps := decide (len ≠ below 32) && v.trapen }
  else if v.comp = 2 then
    let slot := lineAddress v cs + (c0 / 32 * (4 + 2 * w) : Nat)
    (fetchedBytes s c (BitVec.ofInt 64 slot) 4).bind fun r =>
      let group := c0 % 32 / 4
      let first := number r.1 / 2 ^ (4 * group) % 4
      let second := number r.1 / 2 ^ (4 * group + 2) % 4
      if c0 % 4 = first then bitsFetched s c v (8 * (slot + 4) + (2 * group * w : Nat)) (decide (second ≤ first))
      else if c0 % 4 = second ∧ first < second then bitsFetched s c v (8 * (slot + 4) + ((2 * group + 1) * w : Nat)) false
      else some { broken := decide (second ≤ first), traps := decide (second ≤ first) && v.trapen }
  else bitsFetched s c v (8 * lineAddress v cs + cs.getD 0 0 * w) false

/-- A lane of `fld` delivers a word, and FORMATFLAG where a block is malformed, one of the SCALEVIEW too: the element with its tag, 64
bits of elements side by side, or the value as F32 under its scale byte (R140, R149, R301). None of the blocks traps. The scale byte
is element (c_0 ÷ BLEN, c_1, …) of the SCALEVIEW, whatever its FMT (the model's choices, entries 24 and 51). -/
def Delivered (s : State) (c : Crew) (v : View) (cs : List Int) (mode : FldMode) (x : TWord) (broken : Bool) : Prop :=
  match mode with
  | .elem => ∃ e, elementFetched s c v cs = some e ∧ broken = e.broken ∧ e.traps = false ∧
      x = ⟨if v.fmt = .word then e.tag else v.fmt.tag, BitVec.ofNat 64 (v.fmt.extend e.bits)⟩
  | .pk =>
    let w := v.fmt.elemBits
    v.fmt ≠ .word ∧ w < 64 ∧ ∃ e : Nat → Elem,
      (∀ j < 64 / w, elementFetched s c v ((cs.getD 0 0 + (j : Int)) :: cs.drop 1) = some (e j)) ∧
        broken = ((List.range (64 / w)).any fun j => (e j).broken) ∧ (∀ j < 64 / w, (e j).traps = false) ∧
        x = ⟨.raw, BitVec.ofNat 64 ((List.range (64 / w)).map fun j => (e j).bits * 2 ^ (j * w)).sum⟩
  | .val =>
    (v.fmt.elemBits ≤ 8 ∧ v.fmt ≠ .scale ∨ v.fmt ∈ [Fmt.f16, .bf16, .i16, .u16]) ∧
      ∃ e n, elementFetched s c v cs = some e ∧ e.traps = false ∧ x.tag = .f32 ∧ x.payload.toNat < 2 ^ 32 ∧
        (if v.comp = 3 ∧ v.inside cs = true then
            ∃ bs tag sv y, fetchedBytes s c (BitVec.ofNat 64 v.scale) 128 = some (bs, tag) ∧ parseView bs false = some sv ∧
              elementFetched s c sv ((cs.getD 0 0 / (v.blen : Int)) :: cs.drop 1) = some y ∧ y.traps = false ∧
              broken = (e.broken || y.broken) ∧ n = scaledValue v.fmt y.bits e.bits
          else broken = e.broken ∧ n = v.fmt.value 0 e.bits) ∧
        (n.isNan = true → x.payload = 0x7FC00000) ∧
        (n.isNan = false → (binF32.round .rne n).flags = 0 → x.payload = BitVec.ofNat 64 (binF32.round .rne n).bits)

/-- The lanes' results of a run of `fld`. -/
def outOf (outs : List LaneOut) (l : Nat) : LaneResult :=
  match outs.find? fun o => o.lane == l with
  | some o => { writes := o.writes, flags := o.flags, fmt := o.fmt }
  | none => {}

/-! ## Launches and service calls (R305, R376, R377, R385) -/

/-- What R377 asks of a launch record's own words: every field lies in its column, reserved ones are 0, a gang divides the grid. -/
structure RecordOk (w : Nat → Nat) : Prop where
  code : w 0 % 65536 = 0 ∧ 8 ≤ w 1 / 2 ^ 32 ∧ w 1 / 2 ^ 32 % 8 = 0 ∧ w 1 % 2 ^ 32 % 8 = 0 ∧ w 1 % 2 ^ 32 < w 1 / 2 ^ 32
  tables : w 2 % 8 = 0 ∧ w 3 % 8 = 0 ∧ w 4 % 64 = 0 ∧ w 10 % 64 = 0 ∧ w 14 % 8 = 0 ∧ w 15 ≤ 32
  extent : w 5 < 2 ^ 48 ∧ w 5 % 2 ^ 16 ≠ 0 ∧ w 5 / 2 ^ 16 % 2 ^ 16 ≠ 0 ∧ w 5 / 2 ^ 32 ≠ 0
  gangs : (w 5 % 2 ^ 16) * (w 5 / 2 ^ 16 % 2 ^ 16) * (w 5 / 2 ^ 32) % (w 6 / 2 ^ 8 % 2 ^ 8) = 0
  shape : 1 ≤ w 6 % 2 ^ 8 ∧ w 6 % 2 ^ 8 ≤ 192 ∧ 1 ≤ w 6 / 2 ^ 8 % 2 ^ 8 ∧ w 6 / 2 ^ 8 % 2 ^ 8 ≤ 12 ∧
    24 ≤ w 6 / 2 ^ 16 ∧ w 6 / 2 ^ 16 ≤ 224 ∧ w 6 / 2 ^ 16 % 8 = 0
  memory : w 7 / 2 ^ 40 ≤ 131072 ∧ w 7 / 2 ^ 20 % 2 ^ 20 ≤ 786432 ∧ w 7 % 2 ^ 20 ≤ 786432
  flags : w 8 / 2 ^ 16 ≤ 256 ∧ w 8 / 2 ^ 11 % 2 ^ 5 = 0 ∧ w 8 / 2 ^ 5 % 2 ^ 3 = 0 ∧ w 9 < 2 ^ 16
  four : (w 8).testBit 1 = true → w 6 % 2 ^ 8 % 4 = 0 ∧ (w 8).testBit 0 = false
  done : w 11 / 4 < 32 ∧ w 13 < 2 ^ 52 ∧ (w 11 % 4 = 1 → w 12 % 8 = 0) ∧ (w 11 % 4 = 2 → w 12 < 2 ^ 20 ∧ w 12 % 16 = 0)

/-- A grid has the fields of its launch record (R376). -/
structure GridOf (w : Nat → Nat) (g : Grid) : Prop where
  code : g.asid = w 9 ∧ g.codebase = w 0 ∧ g.codesize = w 1 / 2 ^ 32 ∧ g.entry = w 1 % 2 ^ 32 ∧ g.htabv = BitVec.ofNat 64 (w 2)
  extent : g.ntx = w 5 % 2 ^ 16 ∧ g.nty = w 5 / 2 ^ 16 % 2 ^ 16 ∧ g.ntz = w 5 / 2 ^ 32
  shape : g.crews = w 6 % 2 ^ 8 ∧ g.teams = w 6 / 2 ^ 8 % 2 ^ 8 ∧ g.regs = w 6 / 2 ^ 16
  memory : g.obuf = w 7 / 2 ^ 40 ∧ g.hash = w 7 / 2 ^ 20 % 2 ^ 20 ∧ g.scratch = w 7 % 2 ^ 20
  flags : g.prof = (w 8).testBit 4 ∧ g.idem = (w 8).testBit 2 ∧ g.four = (w 8).testBit 1 ∧ g.c16 = (w 8).testBit 0 ∧
    ((w 8).testBit 3 = true → g.debug = true)
  args : w 10 = 0 → g.args = List.replicate 8 .nil
  done : g.dkind = w 11 % 4 ∧ g.dq = w 11 / 4 ∧ g.daddr = w 12 ∧ g.dtoken = w 13

/-- The record that `svc` writes for a lane stands at a place (R385): service, lane, tag and crew; argument; caller; number; zeros. -/
def ServiceRecord (t : State) (at' n l k : Nat) (a : TWord) (c : Crew) (asid linear : Nat) : Prop :=
  Memory.nat t.mem at' 8 = n + l * 2 ^ 16 + a.tag.toNat * 2 ^ 24 + c.crewId * 2 ^ 32 ∧
  Memory.nat t.mem (at' + 8) 8 = a.payload.toNat ∧
  Memory.nat t.mem (at' + 16) 8 = asid + c.core * 2 ^ 16 + c.quad * 2 ^ 24 + linear % 2 ^ 32 * 2 ^ 32 ∧
  Memory.nat t.mem (at' + 24) 8 = k % 2 ^ 64 ∧
  ∀ j, 32 ≤ j → j < 64 → Memory.read t.mem (at' + j) = 0

/-! ## Threads (R53) -/

/-- The state a thread exits to (R53). -/
def exited (h : Bool) (st : ThreadState) : ThreadState :=
  match st, h with
  | .active, true => .helper
  | .active, false => .exited
  | .helper, _ => .parked
  | st, _ => st

/-! ## Traps (R43-R46, R193) -/

/-- What a lane finds at its handler: v217-v220 (and v216 for `fma` and routed words), TRAPINFO, the PC, macro step 0; its other
registers and thread fields as before (R46, R361). -/
structure Entered (c c' : Crew) (t : TrapReq) (pc : BitVec 64) : Prop where
  v220 : c'.readV 220 t.lane = makeWord .code t.next
  v217 : c'.readV 217 t.lane = t.v217
  v218 : c'.readV 218 t.lane = t.v218
  v219 : c'.readV 219 t.lane = ⟨.int, t.info⟩
  v216 : c'.readV 216 t.lane = t.v216.getD (c.readV 216 t.lane)
  others : ∀ f, f < 216 ∨ (220 < f ∧ f < 224) → c'.readV f t.lane = c.readV f t.lane
  thread : c'.thread t.lane = { c.thread t.lane with pc := pc, mstep := 0, trapInfo := t.info }

/-- The trap that each lane of a trapping instruction takes, with the code. -/
def ownTrap (i : Instr) (s : State) (c : Crew) (l : Nat) : Option TrapReq :=
  match i with
  | .trap code _ => some (s.trapReq i c l code.toNat)
  | .bkpt n => some { s.trapReq i c l 0x11 with v218 := ⟨.int, n.setWidth 64⟩ }
  | .illegalInstruction _ enc => some (s.trapReq i c l (if enc then 0x02 else 0x01))
  | .routedInstruction w =>
    if ((s.gridOf c).routes.find? fun r => r.byte == w.toNat / 2 ^ 56).isNone then some (s.trapReq i c l 0x01) else none
  | _ => none

/-- The bundle completes in some lanes and traps in others (R46, R195, R247): the former get their results, the latter enter their
handlers with none of the instruction's effects. -/
def Mixed (i : Instr) (s : State) (ci : Nat) (c b : Crew) (lanes : List Nat) (r : Nat → LaneResult)
    (q : Nat → Option (TrapReq × BitVec 64)) : Prop :=
  let exe := execLanes i c lanes
  let done := exe.filter fun l => (q l).isNone
  ∃ c', exec i s = .next ((s.setCrew ci c').fillTlb c.core (s.asidOf c) (b.chunk.pages.drop c.chunk.pages.length)) ∧
    (∀ f l, f < 224 → l < 32 → l ∈ done →
      c'.readV f l = (lastWrite (r l).writes f).getD (if f ∈ s.lastUses i c l then .undef else b.readV f l)) ∧
    (∀ f l, f < 224 → l < 32 → l ∉ exe → c'.readV f l = b.readV f l) ∧
    (∀ n, n < 31 → c'.readS n = (lastWrite (done.head?.elim [] fun l => (r l).writes) (224 + n)).getD (b.readS n)) ∧
    (∀ l t pc, l ∈ exe → q l = some (t, pc) → Entered b c' t pc) ∧
    (∀ l, (l ∈ exe → (q l).isNone = true) →
      c'.thread l = if l ∈ lanes then b.nextThread i (b.thread l) (if l ∈ exe then (r l).go else none) else b.thread l) ∧
    c'.arch.fpflags = done.foldl (fun x l => x ||| ((r l).flags).setWidth 64) b.arch.fpflags ∧
    c'.chunk.bytes = b.chunk.bytes ∧ c'.chunk.tags = b.chunk.tags ∧ c'.clk1 = b.clk1 + 1

/-- Why a lane of a generic opcode leaves its class (R37-R39, R205): by its operands' tags, or from class 0 by its numbers. -/
def genericCause (i : Instr) (w : Nat → TWord) : Nat :=
  if genericClass (w 1).tag (if isUnary i then w 1 else w 2).tag ≠ 0 ∨ (isFma i = true ∧ (w 3).tag ≠ .int) then 0x30
  else match i with
    | .truth _ _ => 0x30
    | .shl _ _ | .shr _ _ => if (w 2).payload.toInt < 0 then 0x30 else 0x31
    | .div _ _ => if (w 2).payload = 0 then 0x33 else if ¬ (w 2).payload.toInt ∣ (w 1).payload.toInt then 0x32 else 0x31
    | .rem _ _ => 0x33
    | _ => 0x31

/-- The entry of such a lane: index by opcode and tag pair, operand words in v217 and v218 (and C in v216 for `fma`), the return
address, the destination (R43, R46). -/
def genericEntry (i : Instr) (s : State) (c : Crew) (l : Nat) : TrapReq :=
  let w := s.opnd i c l
  let b : TWord := if isUnary i then .nil else w 2
  { lane := l, code := genericCause i w, v217 := w 1, v218 := b, v216 := if isFma i then some (w 3) else none
    dest := if s.destOf i c l < 224 then s.destOf i c l else 255, op := i.opcode, next := (c.thread l).pc + 8
    generic := some (i.opcode, (w 1).tag.toNat, b.tag.toNat) }

/-- Conversions and control flow whose lanes take TAG where their rule answers nothing. -/
def tagRule (i : Instr) : Option (State → Crew → List Nat → Nat → Option LaneResult) :=
  match i with
  | .cvt (.round _) .. | .cvti .. => (convertResult i).map fun f => fun s c _ l =>
    (f (s.opnd i c l)).map fun x => { writes := [(s.destOf i c l, x.1)], flags := x.2 }
  | .brt _ | .brf _ | .brx _ | .ret _ | .callr _ | .tagchk _ _ => some (controlResult i)
  | _ => none

/-- The trap of a lane of a load: its operands' tags, bit 63 of a global address, its alignment, or what a scratch address raises
(R104, R244, R245, R248). -/
def loadTrap (i : Instr) (s : State) (c : Crew) (scratch nb : Bool) (a : Acc) (o : MOps) (l : Nat) (code : Nat) : Prop :=
  let va := mAddress s i c o l
  (¬ addressTags s i c o nb l ∧ code = 0x08) ∨ (addressTags s i c o nb l ∧
    if scratch then s.scratchAddr c va a.bytes a.bytes = .trap code
    else (va.getLsbD 63 = true ∧ code = 0x0F) ∨ (va.getLsbD 63 = false ∧ va.toNat % a.bytes ≠ 0 ∧ code = 0x0E))

/-! ## Regrouping and macro bodies (R61, R62, R359) -/

/-- A crew with some of its lanes' threads changed. -/
def onLanes (c : Crew) (lanes : List Nat) (f : Thread → Thread) : Crew :=
  { c with arch := { c.arch with threads := (List.range 32).map fun l => if l ∈ lanes then f (c.thread l) else c.thread l } }

/-- The register fields of a word by its format (R180-R182). -/
def regFields (w : BitVec 64) : List Nat :=
  if opFormat (w.toNat / 2 ^ 56) = some .r then [44, 36, 28, 20] else if opFormat (w.toNat / 2 ^ 56) = some .m then [44, 36, 28] else [44, 36]

/-- The last-use and index bits of a word, each behind its field (R180-R182); bit 27 of `ldf` is none (R253). -/
def markBits (w : BitVec 64) : List (Nat × Nat) :=
  if opFormat (w.toNat / 2 ^ 56) = some .r then [(44, 5), (36, 19), (36, 4), (28, 18), (20, 17)]
  else if opFormat (w.toNat / 2 ^ 56) = some .m then (if w.toNat / 2 ^ 56 = 0x92 then [] else [(44, 27)]) ++ [(36, 26), (28, 25)]
  else [(44, 34), (36, 35), (36, 33)]

/-- What a register field becomes under an `mcall` with parameters `p` (R359). -/
def withParam (p : Nat → Nat) (f : Nat) : Nat := if f = 221 then p 0 else if f = 222 then p 1 else if f = 223 then p 2 else f

/-! ## What a commit applies (R92, R123, R243, R264) -/

/-- R264's Apply to a payload. -/
def applied (op : AtomOp) (ty : AtomTy) (old x : BitVec 64) : BitVec 64 × Flags :=
  let t : RedTy := match ty with
    | .i64 => .i64
    | .u64 => .u64
    | .f64 => .f .f64
    | .f32 => .f .f32
  match op with
  | .xchg => (x, 0)
  | .add => combine .add t .rne old x
  | .min => combine .min t .rne old x
  | .max => combine .max t .rne old x
  | .and => combine .and t .rne old x
  | .or => combine .or t .rne old x
  | .xor => combine .xor t .rne old x

/-- The eight bytes and the tag of a word of memory, by its number. -/
def cellAt (s : State) (word : Nat) : List Byte × Tag := (Memory.bytes s.mem (8 * word) 8, Tags.read s.tags word)

/-- A word written into a memory word at a byte of it, under the access type's store row (R27). -/
def putInto (a : Acc) (tagged : Bool) (byte : Nat) (w : TWord) (x : List Byte × Tag) : List Byte × Tag :=
  (x.1.take byte ++ leBytes a.bytes w.payload.toNat ++ x.1.drop (byte + a.bytes),
    if tagged then (match a with
      | .w => w.tag
      | .i64 => .int
      | .f64 => .f64
      | _ => .raw) else x.2)

/-- One lane's application of `atom` or `acas` (R264, R265) to a memory word, at a byte of it: the old word that the lane receives, its
flags, and the word as it stands then. -/
def applyCell (i : Instr) (s : State) (c : Crew) (l byte : Nat) (tagged : Bool) (x : List Byte × Tag) : TWord × Flags × (List Byte × Tag) :=
  let old (a : Acc) : TWord := (loaded a tagged false x.2 ((x.1.drop byte).take a.bytes)).headD .nil
  match i with
  | .atom op ty _ =>
    let a : Acc := if op = .xchg then .w else match ty with
      | .i64 | .u64 => .i64
      | .f64 => .f64
      | .f32 => .f32
    let y := applied op ty (old a).payload (s.opnd i c l 2).pay
    (old a, y.2, putInto a tagged byte (if op = .xchg then s.opnd i c l 2 else ⟨.int, y.1⟩) x)
  | .acas ty _ =>
    let a : Acc := match ty with
      | .i64 => .i64
      | .u64 => .w
      | .f64 => .f64
      | .f32 => .f32
    let cmp := s.opnd i c l 2
    let new := s.opnd i c l 0
    let same : Bool := match ty with
      | .u64 => decide (old a = cmp)
      | .f32 => decide ((old a).payload.toNat = cmp.pay.toNat % 2 ^ 32)
      | _ => decide ((old a).payload = cmp.pay)
    (old a, 0, if same then putInto a tagged byte (if ty = .u64 then new else ⟨.int, new.pay⟩) x else x)
  | _ => (.nil, 0, x)

/-- A memory word after the applications of some lanes to it, in order, `home` telling where each lane's target lies. -/
def cellRun (i : Instr) (s : State) (c : Crew) (home : Nat → Option (Nat × Bool)) (word : Nat) (x : List Byte × Tag) (ls : List Nat) : List Byte × Tag :=
  ls.foldl (fun x l => match home l with
    | some (k, tagged) => if k / 8 = word then (applyCell i s c l (k % 8) tagged x).2.2 else x
    | none => x) x

/-- Memory and flags after the records of one `red`, lane by lane (R92). -/
def applyReds (a : List Host.Cell × Flags) : Deferred → List Host.Cell × Flags
  | .red op ty _ rs => rs.foldl (fun a r =>
    let n := (atomAcc op ty).bytes
    let y := applied op ty (BitVec.ofNat 64 (Memory.nat a.1 r.key n)) r.x
    (Memory.writes a.1 r.key (leBytes n y.1.toNat), a.2 ||| y.2)) a
  | .hacc .. => a

/-- Every record is a `red`, reaches memory and meets no scrub lock. -/
def OnlyReds (s : State) (ds : List Deferred) : Prop :=
  ∀ d ∈ ds, ∃ op ty tagged rs, d = .red op ty tagged rs ∧ op ≠ .xchg ∧
    ∀ r ∈ rs, r.key / 128 ∉ s.locks ∧ Lands r.key (atomAcc op ty).bytes

/-! ## Steps of the machine's own agents -/

/-- The answer of a far operation has been given: the number counts as seen, and the answer stands at the operation itself when
this device issued it, else it goes out on the link (R95, R425). -/
def Answered (s t : State) (f : FarOp) (a : FarAnswer) : Prop :=
  SMap.get 0 t.farSeen f.src = f.pair + 1 ∧ (∀ d, d ≠ f.src → SMap.get 0 t.farSeen d = SMap.get 0 s.farSeen d) ∧
    if f.src = s.devNum then t.linkOut = s.linkOut ∧
      t.far = s.far.map fun x => if x.op.seq = f.seq then { x with answer := some a } else x
    else t.far = s.far ∧ t.linkOut = s.linkOut ++ [(f.src, f.seq, a)]

/-- The window bytes that a far operation of one lane's word touches: offset and length, whether it reads and writes. -/
def farSpan (f : FarOp) : Option (Nat × Nat × Bool × Bool) :=
  match f.body with
  | .read a => some (f.offset, a.bytes, true, false)
  | .write a _ => some (f.offset, a.bytes, false, true)
  | .atomic .. | .cas .. => some (f.offset / 8 * 8, 8, true, true)
  | _ => none

/-- Nothing changes but the counts of the ports (R428). -/
def OnlyCounts (s t : State) : Prop := { t with ports := s.ports, freeCtr := s.freeCtr } = s

/-- A port as it was, but for what it has sent (R428). -/
def SamePort (x y : Port) : Prop := { y with txBytes := x.txBytes, retries := x.retries } = x

/-- A far operation has failed: it is gone, FARLOG holds its number and the reason, its context will be declared dead with the
far address (R427). -/
def FarFailed (s t : State) (f : FarOut) (reason : Nat) : Prop :=
  t.far = s.far.filter (fun x => x.op.seq != f.op.seq) ∧
    (t.bar 0x28F0038).toNat = f.op.pair % 2 ^ 48 + reason % 256 * 2 ^ 48 ∧
    t.dying = s.dying ++ [{ asid := s.asidOf (s.crew f.use.crew), cause := 5, crew := some f.use.crew, pc := f.pc,
                            detail := BitVec.ofNat 64 (2 ^ 63 + f.op.dst % 2 ^ 21 * 2 ^ 42 + f.op.offset % 2 ^ 42) }] ∧
    t.crews = s.crews ∧ t.mem = s.mem

/-- Every fault has its record in the ring, or the ring has no room or no valid size (R398). -/
def RingServed (t : State) : Prop :=
  let n := (t.bar 0x18).toNat / 2 ^ 32 % 16
  (∀ f ∈ t.faults, f.seq ≠ none) ∨ n < 4 ∨ 12 < n ∨ 2 ^ n ≤ t.faultTail - t.faultHead


/-- The canonical form of memory, of what DRAM holds and of the tags: keys strictly rise, and nothing is listed that an unlisted
key reads as. -/
def Canonical (s : State) : Prop :=
  Memory.wf s.mem = true ∧ Memory.wf s.dram = true ∧ SMap.sorted s.tags = true ∧ ∀ e ∈ s.tags, e.2 ≠ tagDefault e.1
/-! ## Registers of the map (R416, R420-R430) -/

/-- Does the part answer a write to the register: in reset never, not ready only in the first block and the mailbox (R416, R420)? -/
def Served (s : State) (a : Nat) : Prop :=
  s.boot.phase = .ready ∨ (s.boot.phase ≠ .inReset ∧ (a < 0x100000 ∨ (0x3000000 ≤ a ∧ a < 0x3800000)))

/-- Registers that only hold what is written. -/
def plainRegisters : List Nat :=
  [0x10, 0x30, 0x38, 0x48, 0x50, 0x60, 0x100000, 0x140000, 0x180000, 0x1C0000, 0x28F0000, 0x28F0008, 0x28F0010, 0x28F0018, 0x28F0030,
    0x3000010, 0x3000018, 0x3800008]

/-- What such a register keeps of a value, by its column; none where the value lies outside it. BAR4 has 2^`log` bytes. -/
def kept (log a : Nat) (v : BitVec 64) : Option (BitVec 64) :=
  let n := v.toNat
  if a = 0x10 then if n % 2 ^ log = 0 then some v else none
  else if a = 0x60 ∨ a = 0x3000010 ∨ a = 0x3000018 then some v
  else if a = 0x28F0000 then some (BitVec.ofNat 64 (n % 2 ^ 21))
  else if a = 0x28F0008 then some (BitVec.ofNat 64 (n % 2 ^ 17))
  else if a = 0x28F0018 then if n % 2 ^ 16 = 0 ∧ n ≤ 2 ^ 42 then some v else none
  else if a = 0x28F0030 then if 1 ≤ n ∧ n ≤ 1000 then some v else none
  else if a = 0x3800008 then if 600 ≤ n ∧ n ≤ 2400 then some v else none
  else if a = 0x100000 ∨ a = 0x140000 ∨ a = 0x180000 ∨ a = 0x1C0000 then if 100 ≤ n ∧ n ≤ 100000 then some v else none
  else if n % 2 ^ 16 = 0 then some v else none

/-! ## Commands of submission queues (R371-R375) -/

/-- Queue `q` gives up its next command: `x` is the queue, `w` the command's words, its opcode is `op`. -/
def Dequeues (s : State) (q op : Nat) (x : SubQ) (w : Nat → Nat) : Prop :=
  s.nextCmd q = some x ∧ s.paUsable (x.base + 64 * (x.head % x.cap)) = true ∧ s.paUsable (x.base + 64 * (x.head % x.cap) + 63) = true ∧
    (∀ off, w off = s.cmdWord x x.head off) ∧ (if 1 ≤ w 0 % 256 ∧ w 0 % 256 ≤ 5 then w 0 % 256 else 1) = op

/-- The command has been dequeued: HEAD is past it, here and in the descriptor, and its status is as given (none while it goes on). -/
def Dequeued (s t : State) (q : Nat) (x : SubQ) (w : Nat → Nat) (st : Option Nat) : Prop :=
  (t.subQ q).head = x.head + 1 ∧ (t.subQ q).done = x.done ∧ t.sqWord q 0x18 = (x.head + 1) % 2 ^ 64 ∧ t.nextQueue = (q + 1) % 64 ∧
    ∃ c ∈ (t.subQ q).cmds, c.k = x.head ∧ c.op = w 0 % 256 ∧ c.cookie.toNat = w 8 % 2 ^ 64 ∧ (c.norec = true ↔ w 0 / 2 ^ 9 % 2 = 1) ∧
      c.status = st ∧ (st ≠ none → c.time = s.clock)

/-- Bytes stand in the coherent window. -/
def written (s : State) (off : Nat) (bs : List Byte) : State := { s with mem := Memory.writes s.mem (Config.windowBase + off) bs }

/-- A write that has reached a queue's descriptor makes the device read it, and a field is bad (R370). -/
abbrev EnablesBad (s : State) (off : Nat) : Prop := off < 0x2000 ∧ s.enableDue (off / 128) = true ∧ s.readSq (off / 128) = none

/-- The package as the command leaves its queue. -/
def taken (s : State) (q : Nat) (x : SubQ) (w : Nat → Nat) : State :=
  (({ s with nextQueue := (q + 1) % 64 } : State).setSubQ { x with head := x.head + 1, fenceQ := none, cmds := x.cmds ++
    [{ k := x.head, op := w 0 % 256, norec := (w 0).testBit 9, cookie := BitVec.ofNat 64 (w 8) }] }).putSq q 0x18 (x.head + 1)

/-- No crew has called a `svc` that the host has not answered, no composite bundle runs, no command of the queue has the number of
the next one. -/
def QuietFor (s : State) (x : SubQ) : Prop :=
  (∀ c ∈ s.crews, c.svcLeft = none ∧ c.homes = []) ∧ ∀ c ∈ x.cmds, c.k ≠ x.head

end Sys2Proof.Claims

open Sys2Proof Sys2Proof.Machine Sys2Proof.Claims

/-! ## Instruction words -/

/-- Every typed integer instruction writes the number that R209-R213 give, computed exactly and reduced by R208; it raises no flag and
changes nothing but its crew's registers, PCs and chunk. -/
def Obligations.TypedIntegerResults : Prop :=
  ∀ i f, integerResult i = some f → ComputesBy i fun w => some (f w, 0)

/-- Every typed float instruction writes what R215-R218 give, element by element, with the flags of all elements. -/
def Obligations.TypedFloatResults : Prop :=
  ∀ i f, floatResult i = some f → ComputesBy i f

/-- Every generic opcode but `ident` writes the result of its lane's class, and the lane of no other class is touched. `ident` says
whether its operands are equal keys; REFs compare by the addresses they resolve to (R36, R207). -/
def Obligations.GenericResults : Prop :=
  (∀ i, isGeneric i = true → ComputesBy i (genericResult i)) ∧
  (∀ rm o s ci c lanes (ka kb : Nat → HKey), Issues s (.ident rm o) ci c lanes →
    (∀ l ∈ execLanes (.ident rm o) c lanes, (s.canon ci c (s.opnd (.ident rm o) c l 1) false).2 = .ok (ka l) ∧
      (s.canon ci c (s.opnd (.ident rm o) c l 2) false).2 = .ok (kb l)) →
    let i : Instr := .ident rm o
    let b := (eachLane (identLane i s ci) (execLanes i c lanes) c).1
    let ws := fun l => [(s.destOf i c l, boolWord (sameKey (ka l) (kb l)))]
    OnlyReads c b ∧
      (Room s ci b (s.changed i c (execLanes i c lanes) ws) → Runs i s s ci c b lanes (fun l => { writes := ws l }) false))

/-- The conversions with one source, `tagof` and `settag` write the converted word with its target's tag. `pack` leaves each converted
element at its position of D's payload and every other bit as it was. `cvt` with error feedback writes the rounded sum of value
and error to vd, then the new error to ve (R157, R220). -/
def Obligations.ConversionResults : Prop :=
  (∀ i f, convertResult i = some f → ComputesBy i f) ∧
  (∀ f rm n index o s ci c lanes (e : Nat → Nat → FRes × Flags), Issues s (.pack f rm n index o) ci c lanes →
    f.packBits.isSome = true → (index.toNat + n.toNat + 1) * f.elemBits ≤ 64 →
    (∀ l ∈ execLanes (.pack f rm n index o) c lanes, ∀ k ≤ n.toNat,
      packElem rm f (s.opnd (.pack f rm n index o) c l) k = some (e l k)) →
    ∃ p : Nat → BitVec 64,
      (∀ l ∈ execLanes (.pack f rm n index o) c lanes, ∀ j, j < 64 / f.elemBits →
        (p l).toNat / 2 ^ (f.elemBits * j) % 2 ^ f.elemBits =
          if index.toNat ≤ j ∧ j ≤ index.toNat + n.toNat then (e l (j - index.toNat)).1.bits % 2 ^ f.elemBits
          else (s.opnd (.pack f rm n index o) c l 0).pay.toNat / 2 ^ (f.elemBits * j) % 2 ^ f.elemBits) ∧
      (Room s ci c (s.changed (.pack f rm n index o) c (execLanes (.pack f rm n index o) c lanes)
          fun l => [(s.destOf (.pack f rm n index o) c l, ⟨.raw, p l⟩)]) →
        Completes (.pack f rm n index o) s ci c c lanes (fun l =>
          { writes := [(s.destOf (.pack f rm n index o) c l, ⟨.raw, p l⟩)],
            flags := (List.range (n.toNat + 1)).foldl (fun fl k => fl ||| (e l k).1.flags ||| (e l k).2) 0 }) false)) ∧
  (∀ dst src o f, dst.bin = some f → ByRule (.cvt .ef dst src o) fun s c _ l =>
    let i : Instr := .cvt .ef dst src o
    (convertSource src (s.opnd i c l 1)).map fun x =>
      let y := convertEF f x (binF32.decode ((s.opnd i c l 2).pay.toNat % 2 ^ 32))
      { writes := [(s.effSlot i c l 0, convertTarget dst y.1), (s.effSlot i c l 2, ⟨.f32, BitVec.ofNat 64 y.2⟩)], flags := y.1.flags })

/-- The collectives that read plain words give each lane the word of R227-R229 and R232. `scan` and `reduce` combine the contributing
lanes' values in ascending lane order (R230). `match` gives each lane the mask of the contributing lanes with its key, `msort` its
rank among them (R231). -/
def Obligations.CollectiveResults : Prop :=
  (∀ i, (∃ s c exe l w, collectiveWord i s c exe l = some w) → ByRule i fun s c exe l =>
    (collectiveWord i s c exe l).map fun w => { writes := [(s.destOf i c l, w)] }) ∧
  (∀ i, (∃ s c exe l w, foldResult i s c exe l = some w) → ByRule i fun s c exe l =>
    (foldResult i s c exe l).map fun x => { writes := [(s.destOf i c l, x.1)], flags := x.2 }) ∧
  (∀ i s ci c lanes (k : Nat → HKey) (w : Nat → TWord), Issues s i ci c lanes →
    (∀ l ∈ lanes, keyWord i s c lanes k l = some (w l)) →
    (∀ l ∈ lanes, (s.canon ci c (s.opnd i c l 1)).2 = .ok (k l)) →
    let b := (s.canonLanes i ci lanes c).1
    OnlyReads c b ∧
      (Room s ci b (s.changed i c lanes (toDest s i c w)) → Runs i s s ci c b lanes (fun l => { writes := toDest s i c w l }) false))

/-- `qswap` takes A of lane L ⊕ k, `qbcast` A of its quad's lane j; a lane that takes no part gives UNDEF, HELPER lanes take part, and
the reserved values of VAR are refused (R228). -/
def Obligations.QuadExchange : Prop :=
  (∀ k o, ByRule (.qswap k o) fun s c _ l =>
    let i : Instr := .qswap k o
    some { writes := [(s.destOf i c l, if (l ^^^ k.toNat) ∈ c.bundle then s.opnd i c (l ^^^ k.toNat) 1 else .undef)] }) ∧
  (∀ j o, ByRule (.qbcast j o) fun s c _ l =>
    let i : Instr := .qbcast j o
    some { writes := [(s.destOf i c l, if 4 * (l / 4) + j.toNat ∈ c.bundle then s.opnd i c (4 * (l / 4) + j.toNat) 1 else .undef)] }) ∧
  (∀ k o c lanes, execLanes (.qswap k o) c lanes = lanes ∧ execLanes (.qbcast k o) c lanes = lanes) ∧
  (∀ w, opByte w = 0x72 → (w / 2 ^ 52 % 16 = 0 ∨ 4 ≤ w / 2 ^ 52 % 16) → decode w = .illegalEncoding 0x72) ∧
  ∀ w, opByte w = 0x73 → 4 ≤ w / 2 ^ 52 % 16 → decode w = .illegalEncoding 0x73

/-- `idiv` and `irem` never trap: division by zero gives all ones within W and A's remainder, the minimum by −1 gives the minimum and
0, and no flag is raised (R210). Where LK is not 0 the result pends under a window of LK instructions (R321, R322); the form in which
it is kept is the model's choice (entry 7). -/
def Obligations.DivisionCorners : Prop :=
  ∀ (i : Instr) v o (quot : Bool), i = (if quot then .idiv v o else .irem v o) →
    ∀ s ci c lanes, Issues s i ci c lanes →
      ∃ r : Nat → TWord,
        (∀ l, ival v (s.opnd i c l 2) = 0 →
          r l = if quot then ⟨.int, BitVec.ofInt 64 (if v.signed then -1 else 2 ^ v.width - 1)⟩ else iword v (ival v (s.opnd i c l 1))) ∧
        (∀ l, v.signed = true → ival v (s.opnd i c l 1) = -2 ^ (v.width - 1) → ival v (s.opnd i c l 2) = -1 →
          r l = if quot then ⟨.int, BitVec.ofInt 64 (-2 ^ (v.width - 1))⟩ else ⟨.int, 0⟩) ∧
        (Room s ci c (s.changed i c (execLanes i c lanes) (toDest s i c r)) →
          if i.lk = 0 then Completes i s ci c c lanes (fun l => { writes := toDest s i c r l, flags := 0 }) false
          else ∃ t, exec i s = .next t ∧ ((∀ l ∈ execLanes i c lanes, s.destOf i c l < 224) →
            (t.crew ci).pend = (execLanes i c lanes).map fun l =>
              { lane := l, opener := c.clk1.toNat, dest := [BitVec.ofNat 8 (s.destOf i c l)]
                writes := [⟨l, BitVec.ofNat 8 (s.destOf i c l), r l⟩], left := i.lk }))

/-- Branches, calls, returns, `rfh`, `tagchk`, `gets`, `clk`, `nop` and `wait` write and go where R47, R223, R234-R236, R241 and R242
say, `gets` the registers of R193 and R194. That `clk` 1 gives the count before its own bundle is added is the model's choice
(entry 51). -/
def Obligations.ControlFlowResults : Prop :=
  ∀ i, (∃ s c exe l r, controlResult i s c exe l = some r) → ByRule i (controlResult i)

/-! ## Memory, atomics -/

/-- `ld`, `lds` and `ldnb` deliver what their chunk sees at the address, by the load columns of R27, and enter the address in the read
signature. `prf` enters a mapped address in the read signature and ignores every other; it writes nothing (R254). -/
def Obligations.LoadsAndPrefetch : Prop :=
  (∀ i scratch nb a o s ci c lanes (p : Nat → Spot), loadForm i = some (scratch, nb, a, o) → Issues s i ci c lanes → atOnce i →
    (∀ l ∈ execLanes i c lanes, addressTags s i c o nb l ∧
      Reaches s c scratch (mAddress s i c o l) a.bytes false (p l) ∧ Open s ci (p l) a.bytes) →
    let b := afterReads c (execLanes i c lanes) p a.bytes
    let ws := fun l => toGroup s i c l (loaded a (p l).tagged nb (s.viewTag c ((p l).key / 8)) (s.viewBytes c (p l).key a.bytes))
    Room s ci b (s.changed i c (execLanes i c lanes) ws) → Runs i s s ci c b lanes (fun l => { writes := ws l }) false) ∧
  (∀ o s ci c lanes, Issues s (.prf o) ci c lanes →
    let i : Instr := .prf o
    let exe := execLanes i c lanes
    let key := fun (p : Page) l => p.key (mAddress s i c o l).toNat
    (∀ l ∈ exe, addressTags s i c o false l ∧ ∀ p, prefetched s i c o l = some p → s.mustWait ci (key p l) 1 = false) →
    let b := exe.foldl (fun b l => match prefetched s i c o l with
      | some p => ((b.enterRead (key p l) 1 p.grain).meet (key p l) false p.tagged).usePage p
      | none => b) c
    (∀ l ∈ exe, ∀ p, prefetched s i c o l = some p → ∀ x ∈ sigBits (locNumber (key p l) p.grain), x ∈ b.chunk.rsig) ∧
      ((∀ l ∈ exe, prefetched s i c o l = none) → b = c) ∧ OnlyReads c b ∧
      (Room s ci b (s.changed i c exe fun _ => []) → Runs i s s ci c b lanes (fun _ => {}) false))

/-- `st`, `sts` and `stnb` buffer their bytes and tags at the address and enter it in the write signature; committed memory does not
change. What a chunk has stored it sees (R77), little-endian, and nothing else changes for it, byte by byte; the reserved bytes of the
coherent window ignore it (R368). -/
def Obligations.StoresAreBufferedAndSeen : Prop :=
  (∀ i scratch nb a o s ci c lanes (p : Nat → Spot), storeForm i = some (scratch, nb, a, o) → Issues s i ci c lanes →
    (∀ l ∈ execLanes i c lanes, addressTags s i c o nb l ∧
      (nb = true ∨ a ≠ .w ∨ ((storeData s i c a l).headD .nil).isHeader = false) ∧
      Reaches s c scratch (mAddress s i c o l) a.bytes true (p l) ∧ Open s ci (p l) a.bytes) →
    let b := afterStores s i c a (execLanes i c lanes) p
    Room s ci b (s.changed i c (execLanes i c lanes) fun _ => []) → Runs i s s ci c b lanes (fun _ => {}) false) ∧
  (∀ (s : State) (c : Crew) (a : Acc) (ws : List TWord) (k : Nat) (tagged : Bool) (grain x : Nat), ws.length = a.regs →
    s.viewByte (c.store a ws k tagged grain) x =
      if k ≤ x ∧ x < k + a.bytes ∧ Lands x 1 then
        if a.regs = 1 then BitVec.ofNat 8 ((ws.headD .nil).payload.toNat / 256 ^ (x - k))
        else BitVec.ofNat 8 ((ws.getD ((x - k) / 8) .nil).payload.toNat / 256 ^ ((x - k) % 8))
      else s.viewByte c x)

/-- `ldf` resolves its object and delivers the field; `ldf.h` also leaves the object's address in BASE (R253). `hdrld` delivers the
header that Resolve finds (R224). -/
def Obligations.ObjectLoads : Prop :=
  (∀ a o s ci c lanes (x : Nat → Object) (p : Nat → Spot), Issues s (.ldf a o) ci c lanes → atOnce (.ldf a o) →
    (∀ l ∈ execLanes (.ldf a o) c lanes, FieldReaches s ci (.ldf a o) c a o false l (x l) (p l)) →
    let i : Instr := .ldf a o
    let b := (eachLane (ldfLane i a o c s ci) (execLanes i c lanes) c).1
    let ws := fun l => toGroup s i c l (loaded a (p l).tagged false (s.viewTag c ((p l).key / 8)) (s.viewBytes c (p l).key a.bytes))
      ++ if o.ld then [(s.effSlot i c l 1, makeWord .ref (BitVec.ofNat 64 (x l).addr))] else []
    OnlyReads c b ∧
      (Room s ci b (s.changed i c (execLanes i c lanes) ws) → Runs i s s ci c b lanes (fun l => { writes := ws l }) false)) ∧
  (∀ o s ci c lanes (x : Nat → Object), Issues s (.hdrld o) ci c lanes → atOnce (.hdrld o) →
    (∀ l ∈ execLanes (.hdrld o) c lanes, Resolves s ci c (s.opnd (.hdrld o) c l 1) (x l)) →
    let i : Instr := .hdrld o
    let b := (eachLane (hdrldLane i s ci) (execLanes i c lanes) c).1
    let ws := fun l => [(s.destOf i c l, (⟨.int, (x l).hdr⟩ : TWord))]
    OnlyReads c b ∧
      (Room s ci b (s.changed i c (execLanes i c lanes) ws) → Runs i s s ci c b lanes (fun l => { writes := ws l }) false))

/-- `stf` resolves its object and buffers the field (R253): the chunk sees the stored bytes, lane by lane upward, and every other byte
as before. `ihash` returns the object's identity hash, and where it has none assigns the one of R31 to it; the header's other bits
stay (R225). The header's page may be mapped at several addresses: then the lanes agree on the address. -/
def Obligations.ObjectStores : Prop :=
  (∀ a o s ci c lanes (x : Nat → Object) (p : Nat → Spot), Issues s (.stf a o) ci c lanes →
    (∀ l ∈ execLanes (.stf a o) c lanes, FieldReaches s ci (.stf a o) c a o true l (x l) (p l) ∧
      (a ≠ .w ∨ ((storeData s (.stf a o) c a l).headD .nil).isHeader = false)) →
    let i : Instr := .stf a o
    let b := (eachLane (stfLane i a o c s ci) (execLanes i c lanes) c).1
    b.arch = c.arch ∧ b.chunk.bytes = (afterStores s i c a (execLanes i c lanes) p).chunk.bytes ∧
      b.chunk.tags = (afterStores s i c a (execLanes i c lanes) p).chunk.tags ∧
      (Room s ci b (s.changed i c (execLanes i c lanes) fun _ => []) → Runs i s s ci c b lanes (fun _ => {}) false)) ∧
  (∀ o s ci c lanes (x : Nat → Object) (p : Nat → Option Page), Issues s (.ihash o) ci c lanes →
    (∀ l ∈ execLanes (.ihash o) c lanes, Resolves s ci c (s.opnd (.ihash o) c l 1) (x l) ∧
      s.globalAddr c (BitVec.ofNat 64 (x l).addr) 8 false true = .ok (x l).key (x l).tagged (x l).grain (p l)) →
    (∀ l ∈ execLanes (.ihash o) c lanes, ∀ k ∈ execLanes (.ihash o) c lanes, (x l).key = (x k).key → (x l).addr = (x k).addr) →
    let i : Instr := .ihash o
    let b := (eachLane (ihashLane i s ci) (execLanes i c lanes) c).1
    let h := fun l => if (x l).hdr.toNat / 16 % 2 ^ 20 = 0 then assignedHash (x l).addr else (x l).hdr.toNat / 16 % 2 ^ 20
    let ws := fun l => [(s.destOf i c l, (⟨.int, BitVec.ofNat 64 (h l)⟩ : TWord))]
    b.arch = c.arch ∧
      (∀ l ∈ execLanes i c lanes, Lands (x l).key 8 → number (s.viewBytes b (x l).key 8) =
        (x l).hdr.toNat / 2 ^ 24 * 2 ^ 24 + h l * 16 + (x l).hdr.toNat % 16) ∧
      (Room s ci b (s.changed i c (execLanes i c lanes) ws) → Runs i s s ci c b lanes (fun l => { writes := ws l }) false))

/-- `spill` buffers the register's image at the slot and keeps its form in the crew; the register stays (R255, R256). `fill` writes
the words of the image to all 32 lanes of its register, whatever the bundle (R255). The image has the first form of R256 whose test
the 32 words pass, and that form's words; what `spill` has stored, `fill` restores in all 32 lanes: the image of a row decodes to the
row (R256). -/
def Obligations.SpillAndFill : Prop :=
  (∀ o s ci c lanes (p : Spot) b ws, Issues s (.spill o) ci c lanes →
    let i : Instr := .spill o
    let l := slotLane c (execLanes i c lanes)
    (∃ k ∈ execLanes i c lanes, (c.thread k).st ≠ .helper) → addressTags s i c o false l →
    (mAddress s i c o l).toNat % 16 = 0 → Reaches s c false (mAddress s i c o l) 8 true p →
    let image := spillImage (!p.tagged) ((List.range 32).map (c.readV o.d.toNat))
    s.storeWords ci c (mAddress s i c o l) image.2 = .ok b ws →
    let b' : Crew := { b with arch := { b.arch with spillFmt := SMap.put 0 b.arch.spillFmt o.d.toNat image.1 } }
    Room s ci b' (s.changed i c (execLanes i c lanes) fun _ => []) → Runs i s s ci c b' lanes (fun _ => {}) false) ∧
  (∀ o s ci c lanes b ws row, Issues s (.fill o) ci c lanes → atOnce (.fill o) →
    let i : Instr := .fill o
    let l := slotLane c lanes
    (∃ k ∈ lanes, (c.thread k).st ≠ .helper) → addressTags s i c o false l →
    (mAddress s i c o l).toNat % 16 = 0 → (mAddress s i c o l).getLsbD 63 = false →
    s.readWords ci c (mAddress s i c o l) (imageWords (SMap.get 0 c.arch.spillFmt o.d.toNat)) = .ok b ws →
    (List.range 32).mapM (imageLane (SMap.get 0 c.arch.spillFmt o.d.toNat) ws) = some row →
    Room s ci b (lanes.flatMap (s.lastUses i c) ++ [o.d.toNat]) →
    ∃ t, exec i s = .next t ∧ t.mem = s.mem ∧ t.tags = s.tags ∧
      (∀ f k, f < 224 → k < 32 → (t.crew ci).readV f k = if f = o.d.toNat then row.getD k .nil
        else if k ∈ lanes ∧ f ∈ s.lastUses i c k then .undef else c.readV f k) ∧
      (∀ n, n < 31 → (t.crew ci).readS n = c.readS n) ∧
      (∀ k, (t.crew ci).thread k = if k ∈ lanes then { c.thread k with pc := (c.thread k).pc + 8 } else c.thread k) ∧
      ∀ k, k ≠ ci → t.crew k = s.crew k) ∧
  (∀ (whole : Bool) (row : List TWord), row.length = 32 →
    ImageOf whole (fun i => row.getD i .nil) (spillImage whole row).1 (spillImage whole row).2) ∧
  (∀ (whole : Bool) (row : List TWord), row.length = 32 → (∀ w ∈ row, makeWord w.tag w.payload = w) →
    (List.range 32).mapM (imageLane (spillImage whole row).1 (spillImage whole row).2) = some row)

/-- `alloc` gives each lane, upward, a fresh object at NBASE: a REF to it, its header of the template's shape and size, its other
words NIL, and NBASE past it (R257). `nurs` returns the room left; its setting form then takes new bounds, aligned and in order,
from its lowest lane (R258). -/
def Obligations.NurseryAllocation : Prop :=
  (∀ o s ci c lanes b xs, Issues s (.alloc o) ci c lanes →
    let i : Instr := .alloc o
    allocate s ci i (execLanes i c lanes) c = some (b, xs) →
    let ws := fun l => [(s.destOf i c l, makeWord .ref (addressOf l xs))]
    Room s ci b (s.changed i c (execLanes i c lanes) ws) → Runs i s s ci c b lanes (fun l => { writes := ws l }) false) ∧
  (∀ get o s ci c lanes, Issues s (.nurs get o) ci c lanes →
    let i : Instr := .nurs get o
    let exe := execLanes i c lanes
    (get = false → ∀ l ∈ exe, (s.opnd i c l 1).tag = .int ∧ (s.opnd i c l 2).tag = .int ∧
      (s.opnd i c l 1).payload.toNat ≤ (s.opnd i c l 2).payload.toNat ∧
      (s.opnd i c l 1).payload.toNat % 16 = 0 ∧ (s.opnd i c l 2).payload.toNat % 16 = 0) →
    let b : Crew := if get then c else { c with arch := { c.arch with
      nbase := (s.opnd i c (exe.headD 0) 1).payload, nlimit := (s.opnd i c (exe.headD 0) 2).payload } }
    let ws := fun l => [(s.destOf i c l, (⟨.int, c.arch.nlimit - c.arch.nbase⟩ : TWord))]
    Room s ci b (s.changed i c exe ws) → Completes i s ci c b lanes (fun l => { writes := ws l }) false)

/-- `fence` waits until every far store, far atomic and `xfar` of the crew is acknowledged, then goes on (R259). `hflush` writes the
mapped lines of its lanes' ranges back to DRAM and drops the fetch units' copies: exactly the lines that a mapped address of a range
lies in, and nothing else in DRAM changes; a page that does not allow reads, or a walk that fails otherwise than by an unmapped page,
is a translation fault (R260, R395). -/
def Obligations.FenceAndHostFlush : Prop :=
  (∀ s ci c lanes, Issues s .fence ci c lanes →
    if s.farPending ci then exec .fence s = .next (s.setCrew ci { c with wake := some .fence })
    else Performs .fence s s ci c c lanes fun _ => {}) ∧
  (∀ o s ci c lanes, Issues s (.hflush o) ci c lanes →
    let i : Instr := .hflush o
    let exe := execLanes i c lanes
    let va := fun l => (mAddress s i c o l).toNat
    let len := fun l => (s.opnd i c l 0).payload.toNat
    (∀ l ∈ exe, addressTags s i c o false l ∧ (s.opnd i c l 0).tag = .int ∧ va l < 2 ^ 63 ∧ len l ≤ 2 ^ 40) →
    let ranges := (exe.filter fun l => decide (0 < len l)).map fun l => (va l / 128 * 128, (va l + len l + 127) / 128 * 128)
    match s.mappedAll c.core (s.asidOf c) ranges with
    | .ok lines => Performs i s (s.flushLines (inRanges lines)) ci c c lanes fun _ => {}
    | .error (a, cause) => exec i s = .next ((s.setCrew ci c.countBundle).faultCrew ci (BitVec.ofNat 64 a) cause false false false true)) ∧
  (∀ (s : State) line, HostPieces s → Flushed s (s.flushLines line) line) ∧
  ∀ (s : State) core asid ranges lines, WholePages s core asid → (∀ r ∈ ranges, r.1 % 128 = 0 ∧ r.2 % 128 = 0) →
    s.mappedAll core asid ranges = .ok lines →
    ∀ l, inRanges lines l = true ↔ ∃ r ∈ ranges, ∃ v p, r.1 ≤ v ∧ v < r.2 ∧ s.xlate core asid v false false false = .ok p ∧ p.key v / 128 = l

/-- `ldfar` and `stfar` send one far operation per lane, upward; the loading crew waits for its replies (R261). An operation that is
sent takes the next number of its pair of devices and the first plane that is up (R95, R424, R425). -/
def Obligations.FarAccess : Prop :=
  (∀ (s : State) (va : BitVec 64) body use pc,
    let d := va.toNat / 2 ^ 42 % 2 ^ 21
    let t := s.sendFar va body use pc
    (∀ e, SMap.get 0 t.farPair e = SMap.get 0 s.farPair e + if e = d then 1 else 0) ∧ t.farSeq = s.farSeq + 1 ∧
      t.far = s.far ++ [{ op := { src := s.devNum, dst := d, seq := s.farSeq, pair := SMap.get 0 s.farPair d, offset := va.toNat % 2 ^ 42, body := body }
                          plane := ((List.range 18).map fun j => (d + j) % 18).find? fun p => s.portUp p && !(SMap.get 0 s.routes d).getLsbD p
                          use := use, pc := pc, since := s.clock.toNat }] ∧
      t.mem = s.mem ∧ t.tags = s.tags ∧ t.crews = s.crews) ∧
  (∀ a o s ci c lanes, Issues s (.ldfar a o) ci c lanes →
    let i : Instr := .ldfar a o
    let exe := execLanes i c lanes
    (∀ l ∈ exe, farChecks s i c a o l) →
    Performs i s (sent s c.pc (exe.map fun l => (mAddress s i c o l, .read a, .regs ci l (farDest s i c exe l) a))) ci c
      { c with wake := some (.far ((List.range exe.length).map fun j => s.farSeq + j)) } lanes fun _ => {}) ∧
  (∀ a o s ci c lanes, Issues s (.stfar a o) ci c lanes →
    let i : Instr := .stfar a o
    let exe := execLanes i c lanes
    (∀ l ∈ exe, farChecks s i c a o l ∧ (a ≠ .w ∨ ((storeData s i c a l).headD .nil).isHeader = false)) →
    Performs i s (sent s c.pc (exe.map fun l => (mAddress s i c o l, .write a (storeData s i c a l), .store ci))) ci c c lanes
      fun _ => {})

/-- `atom` and `acas` apply each lane's operation to committed memory in ascending lane order per word; a lane receives the word
before its own application; a far group's replies are awaited (R87, R93, R263-R265). Every word of memory then holds what the lanes
that name it leave there one after the other, and a word that none names is as before. -/
def Obligations.AtomicResults : Prop :=
  ∀ i o x s ci c lanes, Issues s i ci c lanes → atomForm s c i = some (o, x) →
    let exe := execLanes i c lanes
    (∀ l ∈ exe, match atomTarget i o x s c l with
      | .home k _ _ _ => s.mustWait ci k x.acc.bytes = false
      | .remote _ => True
      | _ => False) →
    let g := atomRun i o x s ci c exe
    let b := atomPages i o x s c exe (g.1.crew ci)
    Performs i s g.1 ci c (if g.2.2.isEmpty then b else { b with wake := some (.far g.2.2) }) lanes (atomResult i o x s c exe) ∧
    ((∀ l ∈ exe, ∀ k tagged grain page, atomTarget i o x s c l = .home k tagged grain page → k % x.acc.bytes = 0 ∧ Lands k x.acc.bytes) →
      let home : Nat → Option (Nat × Bool) := fun l => match atomTarget i o x s c l with
        | .home k tagged _ _ => some (k, tagged)
        | _ => none
      (∀ word, cellAt g.1 word = cellRun i s c home word (cellAt s word) exe) ∧
      ∀ l ∈ exe, ∀ k tagged, home l = some (k, tagged) →
        let y := applyCell i s c l (k % 8) tagged (cellRun i s c home (k / 8) (cellAt s (k / 8)) (exe.filter fun j => decide (j < l)))
        atomResult i o x s c exe l = { writes := [(s.destOf i c l, y.1)], flags := y.2.1 })

/-- `red` appends one deferred record per lane and enters its word in the reduction signature; memory waits for the commit (R92,
R266). `sato` applies its operation to scratch within the chunk, lane by lane upward, and gives each lane the word before (R267). -/
def Obligations.ReductionsAndScratchAtomics : Prop :=
  (∀ op ty o s ci c lanes (p : Nat → Spot), Issues s (.red op ty o) ci c lanes →
    let i : Instr := .red op ty o
    let a := atomAcc op ty
    let va := fun l => (s.opnd i c l 1).payload + o.off.signExtend 64
    (∀ l ∈ execLanes i c lanes, ((s.opnd i c l 1).tag = .int ∨ (s.opnd i c l 1).tag = .raw) ∧
      s.globalAddr c (va l) a.bytes true true = .ok (p l).key (p l).tagged (p l).grain (p l).page ∧
      s.mustWait ci (p l).key a.bytes = false) →
    let b := (execLanes i c lanes).foldl (fun b l =>
      let b := (b.enterRed (p l).key a.bytes (p l).grain).usePage? (p l).page
      { b with chunk := { b.chunk with recs := b.chunk.recs ++ [.red op ty (p l).tagged [⟨l, (p l).key, (s.opnd i c l 0).pay⟩]] } }) c
    Room s ci b (s.changed i c (execLanes i c lanes) fun _ => []) → Runs i s s ci c b lanes (fun _ => {}) false) ∧
  (∀ op ty o s ci c lanes (p : Nat → Spot), Issues s (.sato op ty o) ci c lanes → atOnce (.sato op ty o) →
    let i : Instr := .sato op ty o
    let a := atomAcc op ty
    let va := fun l => (s.opnd i c l 1).payload + o.off.signExtend 64
    (∀ l ∈ execLanes i c lanes, ((s.opnd i c l 1).tag = .int ∨ (s.opnd i c l 1).tag = .raw) ∧
      (op = .xchg → (s.opnd i c l 2).isHeader = false) ∧
      Reaches s c true (va l) a.bytes true (p l) ∧ Open s ci (p l) a.bytes) →
    let r := satoRun s i op ty p c (execLanes i c lanes) c
    let ws := fun l => [(s.destOf i c l, (gotBy l r.2).1)]
    Room s ci r.1 (s.changed i c (execLanes i c lanes) ws) →
      Runs i s s ci c r.1 lanes (fun l => { writes := ws l, flags := (gotBy l r.2).2 }) false)

/-! ## Queues, barriers, hash regions -/

/-- A push puts its word in the slot at TAIL and moves TAIL on, using one of ALLOW when it is a crew's; a pop takes the word at HEAD
and moves HEAD on (R109, R110). Nothing else of the queue changes. The queue instructions complete on a bound instance with a good
header: `qpush` and `qpop` join the queue's waiting crews behind those that wait already and the queue is served, `qtry` takes what
there is without waiting and gives NIL to the lanes beyond, and to all while a crew waits to pop; `qallow` grants (R110, R111, R115,
R268). A service goes to a push that waits without a crew, then to the crew that blocked first at popping, while there are entries:
its lanes get them in order and it goes on once all are served; then to the crew that blocked first at pushing, as far as ALLOW and
room go. With D = 255 an instruction pops one entry (the model's choice, entry 56). -/
def Obligations.TeamQueues : Prop :=
  ((∀ (s : State) k (grant : Bool) w, scratchKey ≤ k → k % 64 = 0 → (s.qHead k).ok = true → (grant = true → (s.qHead k).allow ≠ 0) →
    let h := s.qHead k
    let s' := s.qPut k grant w
    s'.qHead k = { h with tail := (h.tail + 1) % 2 ^ 64, allow := if grant then h.allow - 1 else h.allow } ∧
      ∀ j, j < h.cap → s'.peekWords (k + 64 + 8 * j) 1 = if j = h.tail % h.cap then [w] else s.peekWords (k + 64 + 8 * j) 1) ∧
  (∀ (s : State) k, scratchKey ≤ k → k % 64 = 0 → (s.qHead k).ok = true →
    let h := s.qHead k
    (s.qTake k).2 = (s.peekWords (k + 64 + 8 * (h.head % h.cap)) 1).headD .nil ∧
      (s.qTake k).1.qHead k = { h with head := (h.head + 1) % 2 ^ 64 } ∧
      ∀ j, j < h.cap → (s.qTake k).1.peekWords (k + 64 + 8 * j) 1 = s.peekWords (k + 64 + 8 * j) 1)) ∧
  ((∀ (s : State) k (dest : Field) (lanes : List Nat), scratchKey ≤ k → k % 64 = 0 → (s.qHead k).ok = true → lanes ≠ [] →
    let h := s.qHead k
    let n := servedOf lanes.length (heldIn s k) dest
    let r := s.popInto k dest.toNat lanes
    r.2.2 = lanes.drop n ∧ r.1.qHead k = { h with head := h.head + if dest = 255 then min n 1 else n } ∧
      (dest ≠ 255 → r.2.1 = (List.range n).map fun j => (lanes.getD j 0, entryAt s k j))) ∧
  ∀ (s : State) team core q k, (s.team team).place = .resident → qInstance (s.team team) (s.grid (s.team team).grid) core q = some (core, k) →
    scratchKey ≤ k → k % 64 = 0 → (s.qHead k).ok = true → (core, q) ∉ (s.team team).badQueues →
    let h := s.qHead k
    let room : Prop := (h.tail : Int) - h.head < h.cap
    let waiting := (s.team team).pushes.find? fun p => p.core == core && p.q == q
    (s.serveOnce team core q = none → s.serveQueue team core q = s) ∧
    (∀ s', s.serveOnce team core q = some s' → ∃ n, s.serveQueue team core q = State.serveFuel team core q n s') ∧
    (∀ p, waiting = some p → room → ∃ s', s.serveOnce team core q = some s' ∧ s'.qHead k = { h with tail := (h.tail + 1) % 2 ^ 64 } ∧
      s'.peekWords (k + 64 + 8 * (h.tail % h.cap)) 1 = [p.word] ∧ (s'.team team).pushes = (s.team team).pushes.erase p) ∧
    (∀ ci lanes dest, (waiting = none ∨ ¬room) → 0 < heldIn s k → BlockedFirst s team (isPopOn core q) ci → (s.crew ci).place = .resident →
      (s.crew ci).wake = some (.queuePop q core lanes dest) → lanes ≠ [] → lanes.Nodup → (∀ l ∈ lanes, l < 32) → (s.crew ci).lateFrees = [] →
      (s.crew ci).inFlight = false → (∀ b ∈ s.crews, b.homes = []) →
      ∃ s', s.serveOnce team core q = some s' ∧
        let n := servedOf lanes.length (heldIn s k) dest
        s'.qHead k = { h with head := h.head + if dest = 255 then min n 1 else n } ∧
        (s'.crew ci).wake = (if lanes.length ≤ n then none else some (.queuePop q core (lanes.drop n) dest)) ∧
        (dest.toNat < 224 → ∀ f l, f < 224 → l < 32 → (s'.crew ci).readV f l =
          if f = dest.toNat ∧ l ∈ lanes.take n then entryAt s k (lanes.idxOf l) else (s.crew ci).readV f l)) ∧
    (∀ ci items, waiting = none → room → h.allow ≠ 0 → (heldIn s k = 0 ∨ ∀ j, Blocked s team (isPopOn core q) j → (s.crew j).place ≠ .resident) →
      BlockedFirst s team (isPushOn core q) ci → (s.crew ci).place = .resident → (s.crew ci).wake = some (.queuePush q core items) →
      h.head ≤ h.tail → h.tail + items.length < 2 ^ 64 → (∀ b ∈ s.crews, b.homes = []) →
      ∃ s', s.serveOnce team core q = some s' ∧
        let n := min items.length (min h.allow (h.cap - (h.tail - h.head)))
        s'.qHead k = { h with tail := h.tail + n, allow := h.allow - n } ∧
        (∀ j, j < n → s'.peekWords (k + 64 + 8 * ((h.tail + j) % h.cap)) 1 = [(items.getD j (0, .nil)).2]) ∧
        (s'.crew ci).wake = if items.length ≤ n then none else some (.queuePush q core (items.drop n)))) ∧
  (∀ s ci c lanes q o core k, qInstance (s.teamOf c) (s.gridOf c) c.core (BitVec.toNat q) = some (core, k) → scratchKey ≤ k → k % 64 = 0 →
    (s.qHead k).ok = true → (core, BitVec.toNat q) ∉ (s.teamOf c).badQueues → (∀ g ∈ s.grants, g.1 ≠ arbiterOf k) →
    (Issues s (.qpush q o) ci c lanes → (∀ l ∈ lanes, (s.opnd (.qpush q o) c l 1).isHeader = false) →
      let exe := execLanes (.qpush q o) c lanes
      let s' := (queued s ci c (.queuePush q.toNat core (exe.map fun l => (l, s.opnd (.qpush q o) c l 1)))).serveQueue c.team core q.toNat
      Performs (.qpush q o) s s' ci c (s'.crew ci) lanes fun _ => {}) ∧
    (Issues s (.qpop q o) ci c lanes →
      let exe := execLanes (.qpop q o) c lanes
      let s' := (queued s ci c (.queuePop q.toNat core exe (BitVec.ofNat 8 (s.destOf (.qpop q o) c (exe.headD 0))))).serveQueue c.team core q.toNat
      Performs (.qpop q o) s s' ci c (s'.crew ci) lanes fun _ => {}) ∧
    (Issues s (.qtry q o) ci c lanes →
      let exe := execLanes (.qtry q o) c lanes
      let s0 := s.setCrew ci c
      let waits := s0.firstBlocked c.team (isPopOn core q.toNat) ≠ none
      let s' := (if waits then s0 else (s0.popInto k (s.destOf (.qtry q o) c (exe.headD 0)) exe).1).serveQueue c.team core q.toNat
      let w := fun l => if waits ∨ heldIn s k ≤ exe.idxOf l then TWord.nil else entryAt s k (exe.idxOf l)
      (waits ↔ ∃ j, Blocked s0 c.team (isPopOn core q.toNat) j) ∧ Performs (.qtry q o) s s' ci c (s'.crew ci) lanes fun l => { writes := [(s.destOf (.qtry q o) c l, w l)] }) ∧
    (Issues s (.qallow q o) ci c lanes → (∀ l ∈ lanes, (s.opnd (.qallow q o) c l 1).tag = .int) →
      let exe := execLanes (.qallow q o) c lanes
      let allow : Nat := exe.foldl (fun (a : Nat) l =>
        (max 0 (min (2 ^ 32 - 1) ((a : Int) + (s.opnd (.qallow q o) c l 1).payload.toInt))).toNat) (s.qHead k).allow
      let s' := ((s.setCrew ci c).eventPut (k + 24) ⟨.int, BitVec.ofNat 64 allow⟩).serveQueue c.team core q.toNat
      Performs (.qallow q o) s s' ci c (s'.crew ci) lanes fun _ => {}))

/-- Lanes that arrive at a team barrier close one phase for each COUNT of them, the last arrival's phase being the one its crew waits
for (R116). A phase that lanes have arrived in already keeps the count of its first arrival, and the lanes beyond it open the next with
their own. The crews that wait for a phase that is over go on. `tbar` makes its lanes arrive and its crew wait unless their last phase is over (R116, R269). -/
def Obligations.TeamBarriers : Prop :=
  (∀ (b : TBar) count n, b.arrived = 0 → 0 < count → 0 < n →
    TBar.arrive count n b b.phase = ({ b with phase := b.phase + n / count, arrived := n % count, count := count },
      b.phase + (n - 1) / count)) ∧
  (∀ (b : TBar) count n, 0 < b.arrived → b.arrived < b.count → 0 < count → 0 < n →
    TBar.arrive count n b b.phase =
      let rest := n - (b.count - b.arrived)
      if n < b.count - b.arrived then ({ b with arrived := b.arrived + n }, b.phase)
      else if rest = 0 then ({ b with phase := b.phase + 1, arrived := 0 }, b.phase)
      else ({ b with phase := b.phase + 1 + rest / count, arrived := rest % count, count := count }, b.phase + 1 + (rest - 1) / count)) ∧
  (∀ (s : State) ci id count n, ci < s.crews.length → (s.crew ci).wake = none →
    let old := ((s.teamOf (s.crew ci)).tbars.find? fun b => b.id == id).getD { id := id }
    let r := TBar.arrive count n old old.phase
    let t := s.tbarArrive ci id count n
    (t.crew ci).wake = (if r.2 < r.1.phase then none else some (.tbar id r.2)) ∧
    ∀ k, k ≠ ci → k < s.crews.length → t.crew k =
      if (s.crew k).team = (s.crew ci).team ∧ (s.crew k).place ≠ .retired ∧ ∃ p < r.1.phase, (s.crew k).wake = some (.tbar id p) then
        { s.crew k with wake := none }
      else s.crew k) ∧
  (∀ reg id count o s ci c lanes, Issues s (.tbar reg id count o) ci c lanes →
    let i : Instr := .tbar reg id count o
    let exe := execLanes i c lanes
    let w := s.opnd i c (exe.headD 0) 1
    (reg = true → w.tag = .int) →
    let n := if reg then w.payload.toNat else BitVec.toNat count
    1 ≤ n → n ≤ 6144 →
    let s' := (s.setCrew ci c).tbarArrive ci (BitVec.toNat id) n exe.length
    Performs i s s' ci c (s'.crew ci) lanes fun _ => {})

/-- A count on an arrival barrier lowers COUNT and raises ARRIVED, both saturating, and leaves ACTION and QUEUE; when COUNT passes
from above 0 to 0 or below without ACTION, no crew of the team waits for it any more (R113-R115). `abinit`, `abexp` and `abarr`
perform one event per distinct barrier, in the order of the lowest lanes (R270). `abwait` goes on when no barrier its lanes name
is above 0, and blocks its crew on the others (R115, R270). -/
def Obligations.ArrivalBarriers : Prop :=
  (∀ (s : State) team core k n a, scratchKey ≤ k → k % 16 = 0 → barrierAction (s.peekWord k).payload = false →
    let p := (s.peekWord k).payload
    let t := s.countBarrier team core k n a
    (t.peekWord k).tag = .int ∧ countOf (t.peekWord k).payload = clamp (-2 ^ 31) (2 ^ 31 - 1) (countOf p - n) ∧
      arrivedOf (t.peekWord k).payload = min (arrivedOf p + a) (2 ^ 20 - 1) ∧ upperOf (t.peekWord k).payload = upperOf p ∧
      (∀ j, j ≠ k / 8 → Memory.nat t.mem (8 * j) 8 = Memory.nat s.mem (8 * j) 8) ∧
      (0 < countOf p → countOf p - n ≤ 0 → ∀ c ∈ t.crews, c.team = team → c.place ≠ .retired →
        ∀ ks, c.wake = some (.barrier ks) → k ∉ ks)) ∧
  (∀ i s ci c lanes event, barrierEvent i s c = some event → Issues s i ci c lanes →
    let exe := execLanes i c lanes
    let gs := barrierGroups (barrierTarget i s c) exe
    (∀ l ∈ exe, ∃ b, barrierTarget i s c l = .ok b) → (∀ g ∈ gs, s.mustWait ci g.1.2 16 = false) →
    let s' := gs.foldl (fun s g => event s c.team g.1.1 g.1.2 g.2) (s.setCrew ci c)
    Performs i s s' ci c (s'.crew ci) lanes fun _ => {}) ∧
  (∀ o s ci c lanes, Issues s (.abwait o) ci c lanes → (s.crew ci).wake = none →
    let i : Instr := .abwait o
    let exe := execLanes i c lanes
    let gs := barrierGroups (barrierTarget i s c) exe
    (∀ l ∈ exe, ∃ b, barrierTarget i s c l = .ok b) → (∀ g ∈ gs, s.mustWait ci g.1.2 16 = false) →
    let waits := (gs.map fun g => g.1.2).filter fun k => decide (0 < countOf (s.peekWord k).payload)
    if waits = [] then Performs i s s ci c c lanes fun _ => {}
    else exec i s = .next (s.setCrew ci { c with wake := some (.barrier waits) }))

/-- `hclaim` takes the pool of the selected core as an empty region of N = 2^b slots with its spill log, `hrel` gives it up, `hstat`
reads its status (R117, R120, R125, R272). `hdrain` hands the next held entries at or after the cursor to its lanes, upward, and
the cursor past them (R124, R275). -/
def Obligations.HashRegions : Prop :=
  ((∀ o s ci c lanes b c1 ws, Issues s (.hclaim o) ci c lanes →
    let i : Instr := .hclaim o
    let core := hregionCore c
    let l := (execLanes i c lanes).headD 0
    let a := s.opnd i c l 1
    let d := s.opnd i c l 2
    a.tag = .int → d.tag = .int → 4 ≤ b → b ≤ 15 → a.payload.toNat = 2 ^ b → d.payload.toNat % 32 = 0 →
    d.payload.getLsbD 63 = false → s.hasPool c core = true → (s.region core c.team).held = false →
    16 * 2 ^ b ≤ (s.gridOf c).poolBytes → s.hashBusy ci core = false → s.readWords ci c d.payload 2 = .ok c1 ws →
    let r : HRegion := { core := core, team := c.team, held := true, b := b, desc := d.payload.toNat,
                         base := (ws.getD 0 .nil).payload.toNat, cap := (ws.getD 1 .nil).payload.toInt.toNat }
    let s' := ((s.setCrew ci c1).hashSquash (some ci) core (regionSectors (s.teamOf c) core b) false).setRegion r
    Performs i s s' ci c (s'.crew ci) lanes fun l => { writes := [(s.destOf i c l, intWord (b * 2 ^ 16 + 2 ^ 22 : Nat))] }) ∧
  (∀ s ci c lanes, Issues s .hrel ci c lanes →
    let core := hregionCore c
    let old := s.region core c.team
    old.held = true → s.hashBusy ci core = false →
    let s' := ((s.setCrew ci c).hashSquash (some ci) core (regionSectors (s.teamOf c) core old.b) false).setRegion
      { old with held := false, b := 0, slots := [], desc := 0, base := 0, cap := 0 }
    Performs .hrel s s' ci c (s'.crew ci) lanes fun _ => {}) ∧
  (∀ o s ci c lanes, Issues s (.hstat o) ci c lanes → atOnce (.hstat o) →
    let i : Instr := .hstat o
    let core := hregionCore c
    s.hashBusy ci core = false →
    let b := if s.hasPool c core = false then c
      else c.enterHash core false (if (s.region core c.team).held then lineSectors (s.teamOf c) core [0] else [(s.teamOf c).bucket core 0])
    let w : TWord := ⟨.int, if s.hasPool c core then (s.region core c.team).stat else 0⟩
    Room s ci b (s.changed i c (execLanes i c lanes) (toDest s i c fun _ => w)) →
      Runs i s s ci c b lanes (fun l => { writes := [(s.destOf i c l, w)] }) false)) ∧
  (∀ o s ci c lanes, Issues s (.hdrain o) ci c lanes →
    let i : Instr := .hdrain o
    let exe := execLanes i c lanes
    let core := hregionCore c
    let r := s.region core c.team
    let cur := s.opnd i c (exe.headD 0) 1
    cur.tag = .int → cur.payload.getLsbD 63 = false → r.held = true → s.hashBusy ci core = false →
    let es := (r.slots.filter fun e => decide (cur.payload.toNat ≤ e.1)).take exe.length
    let next : Nat := if es.length < exe.length then 2 ^ r.b else (es.getLast?.map Prod.fst).getD 0 + 1
    let entry := fun l => es[exe.idxOf l]?
    Performs i s s ci c c lanes fun l =>
      { writes := [(s.destOf i c l, ((entry l).map fun e => e.2.key.word).getD .nil),
                   (s.destOf i c l + 1, ((entry l).map fun e => e.2.val).getD .nil), (s.effSlot i c l 1, intWord next)] })

/-- `hins` and `hdel` perform all their lanes' groups as one event of the hash unit and give each lane its status and value (R122,
R126, R273). In a region that stands in the layout of R119, a probe finds the slot of a held key and of no other; one key's
insertion and deletion keep the layout, add or take exactly that key, and give its lanes the statuses and values of R122; a key
goes to the spill log only where the region is full or the layout needs a distance above 31 (R119, R120). -/
def Obligations.HashInsertAndDelete : Prop :=
  (∀ r k, Laid r → OneOrd r k → match (r.probe k).1 with
    | some slot => ∃ e, SMap.get? r.slots slot = some e ∧ sameKey e.key k = true
    | none => NotHeld r k) ∧
  (∀ (s : State) core asid w k l v rest, Laid w.region → OneOrd w.region k → Inserts s core asid w k l v rest) ∧
  (∀ w k l rest, Laid w.region → OneOrd w.region k → Deletes w k l rest) ∧
  ∀ i s ci c lanes k w rs, Issues s i ci c lanes → hashEvent i s c (execLanes i c lanes) k = some (.ok (w, rs)) →
    let exe := execLanes i c lanes
    keysPass s ci i c exe k → (∀ o, i = .hins o → ∀ l ∈ exe, (s.opnd i c l 2).isHeader = false) →
    (∀ x ∈ w.writes, s.mustWait ci x.key 8 = false) →
    let s' := (s.setCrew ci (w.pages.foldl Crew.usePage (afterKeys s ci i c exe))).hashEffect (some ci) (s.teamOf c) (hregionCore c)
      (s.region (hregionCore c) c.team) w false
    Performs i s s' ci c (s'.crew ci) lanes fun l => pair s i c l (laneStatus rs l).1 (laneStatus rs l).2

/-- `hprobe` finds a held key with its value, or answers ABSENT, MAYBE once the region has spilled (R122, R273); it enters the bucket
lines it looked at. `hacc` defers one application per lane to its chunk's commit and enters the keys' home sectors in the
reduction signature (R92, R123, R274); the pages of the spill log that the application would reach are its chunk's (R393). -/
def Obligations.HashProbeAndAccumulate : Prop :=
  (∀ o s ci c lanes (k : Nat → HKey), Issues s (.hprobe o) ci c lanes → atOnce (.hprobe o) →
    let i : Instr := .hprobe o
    let exe := execLanes i c lanes
    keysPass s ci i c exe k →
    let core := hregionCore c
    let r := s.region core c.team
    let lines := exe.flatMap fun l => ((r.probe (k l)).2.map fun slot => slot / 4) ++ (if (r.probe (k l)).1.isNone then [0] else [])
    let b := (afterKeys s ci i c exe).enterHash core false (lineSectors (s.teamOf c) core (unionNat [] lines))
    let res := fun l => pair s i c l (probed r (k l)).1 (probed r (k l)).2
    Room s ci b (s.changed i c exe fun l => (res l).writes) → Runs i s s ci c b lanes res false) ∧
  (∀ op o s ci c lanes (k : Nat → HKey), Issues s (.hacc op o) ci c lanes →
    let i : Instr := .hacc op o
    let exe := execLanes i c lanes
    let x := fun l => s.opnd i c l 2
    keysPass s ci i c exe k → (∀ l ∈ exe, haccTagOk op (x l).tag = true) →
    (∀ l ∈ exe, ∀ j ∈ exe, sameKey (k l) (k j) = true → (x l).tag = (x j).tag) →
    let core := hregionCore c
    let sectors := exe.map fun l =>
      let h := (k l).home (s.region core c.team).b
      (s.teamOf c).bucket core (h / 4) + h % 4 / 2 * 32
    let recs : List HaccRec := exe.map fun l => ⟨l, k l, x l⟩
    ∀ w, s.haccWork (s.logXlate c.core (s.asidOf c)) op (s.region core c.team) recs = .ok w →
      let b := w.pages.foldl Crew.usePage ((afterKeys s ci i c exe).enterHash core true sectors)
      let b' : Crew := { b with chunk := { b.chunk with recs := b.chunk.recs ++ [.hacc op core w.pages recs] } }
      Room s ci b' (s.changed i c exe fun _ => []) → Runs i s s ci c b' lanes (fun _ => {}) false)

/-! ## Matrix, engines, lift, launch -/

/-- A matrix instruction whose four has matched has its effect, takes the next match number, and an irrevocable one stays unfinished
in its array (R59, R277, R279, R281-R294). A crew whose four does not stand yet blocks at its matrix instruction; an open chunk
ends first (R59). Where the four does not agree in what R277 compares, every crew of it takes FOUR_MISMATCH, which is fatal. -/
def Obligations.MatrixInstructions : Prop :=
  (∀ i s ci c lanes s1 c1 x, Issues s i ci c lanes → atOnce i → scaleFree i s ci c → matched i s ci c = some (s1, c1) →
    matrixEffect i s1 ci c1 = some x →
    let b : Crew := { x.crew with arch := { x.crew.arch with matrixNo := x.crew.arch.matrixNo + 1 }, mreq := none }
    if i.cls = .irrevocable then
      PerformsFreeing i s (x.state.setQuad b.quadNo { x.state.quad b.quadNo with busy := (x.state.quad b.quadNo).busy + 1 }) ci c b lanes
        x.frees x.res
    else Room s ci b (s.changed i c (execLanes i c lanes) fun l => (x.res l).writes) → Runs i s x.state ci c b lanes x.res false) ∧
  (∀ i s ci c lanes, Issues s i ci c lanes → opIsMatrix i.opcode = true → c.matched ≤ c.arch.matrixNo →
    matrixTrap i s c = none → fourReady i s ci c = false →
    exec i s = .next (s.setCrew ci (if c.dirty then c.beginCommit else { c with mreq := some i, wake := some .four }))) ∧
  (∀ i s ci c lanes, Issues s i ci c lanes → opIsMatrix i.opcode = true → c.matched ≤ c.arch.matrixNo →
    matrixTrap i s c = none → fourReady i s ci c = true →
    let s1 := atMatch i s ci c
    s1.fourAgrees (s1.fourOf ci) = false →
    ∃ t, exec i s = .next t ∧ t.mem = s.mem ∧ (∀ k, k ∉ s1.fourOf ci → t.crew k = s1.crew k) ∧
      ∀ k ∈ s1.fourOf ci, (s1.crew k).chunk.phase = .running →
        (t.crew k).doom = some { code := 0x07, lanes := laneMask (s1.crew k).bundle, pc := (s1.crew k).pc } ∧ (t.crew k).wake = none)

/-- At a match every crew of the four leaves its wait, and a product has put its sums into its quadrant's accumulators; no memory
changes (R277, R284-R288). Each element below MB and NB is the sum of R163 over A's row and B's column, started from +0 under Z, and
every other element stays (R290). -/
def Obligations.ProductsAtMatch : Prop :=
  ∀ (s : State) (four : List Nat), four.Nodup → (∀ k ∈ four, k < s.crews.length) →
    (∀ k ∈ four, ∀ j ∈ four, (s.crew k).quadNo = (s.crew j).quadNo → k = j) →
    (∀ k ∈ four, ∀ j ∈ four, (s.crew k).quad = (s.crew j).quad → k = j) →
    let t := s.matchFour four
    t.mem = s.mem ∧ t.tags = s.tags ∧ (∀ k, k ∉ four → t.crew k = s.crew k) ∧
      ∀ k ∈ four, (t.crew k).wake = none ∧ (t.crew k).matched = (s.crew k).matched + 1 ∧
        (t.crew k).arch.vregs = (s.crew k).arch.vregs ∧
        ∀ i x r a, (s.crew k).mreq = some i → Machine.prodOf i = some x → s.prodArgs (s.crew k) i x = .ok (r, a) →
          let n := (s.crew k).quadNo
          let row0 := if x.1.p.h then 64 else 0
          t.quad n = (s.product n (s.quad n) x.1 r a (s.quarters four)).1 ∧
            ∀ (h : Nat → Nat) (y : Nat → Prod × Bool), (∀ c < 4, h c ∈ four ∧ (s.crew (h c)).quad = c ∧ (s.crew (h c)).mreq.bind Machine.prodOf = some (y c)) →
              x.1.p.nb.toNat < 256 → ∀ m j, j < 256 →
                (t.quad n).accAt m j =
                  if row0 ≤ m ∧ m ≤ row0 + x.1.p.mb.toNat ∧ m < row0 + 64 ∧ j ≤ x.1.p.nb.toNat then
                    BitVec.ofNat 32 (accumulate (x.1.p.bfmt == .f32) (if x.1.p.z then 0 else ((s.quad n).accAt m j).toNat)
                      ((List.range (x.1.kLog / x.1.p.bfmt.group)).map
                        (groupFactors s n x.1 r a (quarterOf (s.crew (h (j / 64))) (y (j / 64)).1.p.f2.toNat) (m - row0) j)))
                  else (s.quad n).accAt m j

/-- `xld`, `xst`, `xsc` and `xfar` hand one command with the checks of R136 passed to the engine of their cluster; the crew goes on
once it has been issued (R295-R299). `xreq` reads its records from scratch and hands their commands over in order (R138, R300). -/
def Obligations.EngineCommands : Prop :=
  (∀ i s ci c lanes o op cmd pages, Issues s i ci c lanes →
    let l := (execLanes i c lanes).headD 0
    engineForm i s c l = some (o, op) →
    s.prepare ci c op { view := s.opnd i c l 1, coords := coordsOf c l o.f2.toNat, addr := s.opnd i c l 3,
                        bar := if o.f4 = 255 then none else some (s.opnd i c l 4) } = .ok (cmd, pages) →
    Performs i s (handed s c [cmd]) ci c { pages.foldl Crew.usePage c with wake := some .engine } lanes fun _ => {}) ∧
  (∀ count cap o s ci c lanes k0 tg gr pg cmds, Issues s (.xreq count cap o) ci c lanes →
    let i : Instr := .xreq count cap o
    let l := (execLanes i c lanes).headD 0
    let idx := s.opnd i c l 2
    (s.opnd i c l 1).tag = .int → idx.tag = .int → 0 ≤ idx.payload.toInt →
    let last := ((List.range count.toNat).map fun j => (idx.payload.toNat + j) % cap.toNat).foldl max 0
    s.scratchAddr c (s.opnd i c l 1).payload (64 * (last + 1)) 64 = .ok k0 tg gr pg →
    (∀ k ∈ reqKeys k0 cap.toNat idx.payload.toNat count.toNat, s.mustWait ci k 64 = false ∧ s.absentIn k 64 = []) →
    s.reqRun ci c (fun k => .ok (k0 + 64 * (k % cap.toNat)) true 1 none) count.toNat idx.payload.toNat = (cmds, none) →
    Performs i s (handed s c cmds) ci c (if cmds.isEmpty then c else { c with wake := some .engine }) lanes fun _ => {})

/-- The issue event of a waiting command squashes the chunks that met its destination and no other, makes its destination sectors
absent, reads its source, and lets its crew go on when it was the crew's last; a command that may not issue waits (R85, R94, R106,
R107). The engine writes a sector it has read whole: each byte under its mask, nothing else in memory; the chunks that met it are
squashed, its tags are written, it becomes present and is counted on its barrier (R94, R106, R114). A sector on a line under a scrub
lock is parked (R399); one of `xfar` leaves as a far operation on its device's window (R298). A sector goes only after those of every
earlier command that it overlaps (R136); which of the others goes first is the model's choice (entry 4). -/
def Obligations.EngineTransfers : Prop :=
  (∀ cl (s : State), match (s.engine cl).pend with
    | [] => exec (.engineIssueEvent cl) s = .next s
    | q :: rest =>
      if s.canIssue cl q = false then exec (.engineIssueEvent cl) s = .next s
      else ∃ t, exec (.engineIssueEvent cl) s = .next t ∧ t.mem = s.mem ∧ t.tags = s.tags ∧
        (t.engine cl).pend = rest ∧ (t.engine cl).queue = (s.engine cl).queue ++ [s.captureCmd q] ∧
        (∀ k, k ∈ t.absent ↔ k ∈ s.absent ∨ k ∈ q.absents) ∧
        ((t.crew q.crew).wake = some .engine → ∃ x ∈ rest, x.crew = q.crew) ∧
        ((∀ b ∈ s.crews, b.homes = []) →
          SquashedWhere s t none (match q.far with
            | some (_, false) => []
            | _ => q.sectors.flatMap Sector.locs))) ∧
  (∀ cl (s : State), ∃ t, exec (.engineSectorWrite cl) s = .next t ∧ (s.turn cl = none → t = s) ∧
    ∀ n q x xs, s.turn cl = some (n, q) → q.sectors = x :: xs →
      let e := s.engine cl
      let home := x.home.getD 0
      let left : State := { s with freeCtr := s.freeCtr + 1 }
      (e.queue[n]? = some q ∧ ∀ m a, m < n → e.queue[m]? = some a → a.sectors ≠ [] → ∀ k ∈ a.dests, k ∉ q.dests) ∧
      (q.far = none → s.sectorLocked x = true → t = { left with parked := s.parked ++ [⟨lineSlice (home / 128), .sector cl home⟩] }) ∧
      (q.far = none → s.sectorLocked x = false → (x.bytes.map EByte.key).Nodup → (∀ b ∈ x.bytes, Lands b.key 1) →
        ∃ s1 : State,
          (∀ b ∈ x.bytes, b.wants = [] ∧ Memory.read s1.mem b.key = BitVec.ofNat 8 (masked (Memory.read s.mem b.key).toNat b.val b.mask)) ∧
          (∀ k, k ∉ x.bytes.map EByte.key → Memory.read s1.mem k = Memory.read s.mem k) ∧
          (∀ k, k ∉ x.tags.map Prod.fst → Tags.read s1.tags k = Tags.read s.tags k) ∧
          ((x.tags.map Prod.fst).Nodup → ∀ g ∈ x.tags, Tags.read s1.tags g.1 = g.2) ∧
          (∀ k, k ∈ s1.absent ↔ k ∈ s.absent ∧ x.present ≠ some k) ∧
          (s1.engine cl).queue = (if xs = [] then e.queue.eraseIdx n else e.queue.set n { q with sectors := xs }).map s1.captureCmd ∧
          ((∀ b ∈ s.crews, b.homes = []) → SquashedWhere s s1 s.token x.locs) ∧
          match x.barrier with
          | none => t = s1
          | some (core, k) =>
            if barrierBad (s1.peekWord k) then t.mem = s1.mem ∧ t.crews = s1.crews ∧
              t.dying = s1.dying ++ [{ asid := (s1.grid (s1.team q.team).grid).asid, cause := 1, code := 0x0F }]
            else t = s1.countBarrier q.team core k x.count 0) ∧
      ∀ d get, q.far = some (d, get) →
        let gone := left.setEngine cl { e with queue := e.queue.set n { q with sectors := xs } }
        (get = false → x.bytes ≠ [] → t = sent gone q.pc
          [(BitVec.ofNat 64 (2 ^ 63 + d * 2 ^ 42 + firstOffset (x.farBody get) % 2 ^ 42), x.farBody get, .sector q.crew q.team q.asid x)]) ∧
        (get = true → (∃ os, x.farBody get = .readBytes os ∧ os ≠ []) → t = sent gone q.pc
          [(BitVec.ofNat 64 (2 ^ 63 + d * 2 ^ 42 + firstOffset (x.farBody get) % 2 ^ 42), x.farBody get, .sector q.crew q.team q.asid x)]) ∧
        (get = false → x.bytes = [] → x.barrier = none → t.mem = s.mem ∧ t.far = s.far))

/-- `fld` delivers what the fetch unit finds under each lane's view and coordinates (R139). Where the unit's cache holds no stale
copy (R96), that is the element of committed memory at BASE + Σ c_d × STRIDE_d and c_0 elements on, or in a compressed view at its
block's slot, zero outside the view, in the form of its VAR (R140, R141, R301, R302). The value of a scaled element that F32 does not
hold is free (entry 4); which element of the SCALEVIEW scales it (entry 24), and that the record's FMT does not matter (entry 51), are
the model's choices. -/
def Obligations.FetchedElements : Prop :=
  (∀ mode o s ci c lanes s1 b outs, Issues s (.fld mode o) ci c lanes → atOnce (.fld mode o) →
    let i : Instr := .fld mode o
    let exe := execLanes i c lanes
    fldRun mode o i exe s c = ((s1, b), .ok outs) → (∀ x ∈ outs, x.trap = none) →
    s1.mem = s.mem ∧ s1.tags = s.tags ∧
      (Room s ci b (s.changed i c exe fun l => (outOf outs l).writes) → Runs i s s1 ci c b lanes (outOf outs) false)) ∧
  ∀ mode o s ci c lanes (v : Nat → View) (cs : Nat → List Int), Issues s (.fld mode o) ci c lanes → atOnce (.fld mode o) →
    let i : Instr := .fld mode o
    let exe := execLanes i c lanes
    NoStale s (c.core / 4) →
    (∀ l ∈ exe, ∃ a bs tag, viewAddr (s.opnd i c l 1) = .ok a ∧ fetchedBytes s c (BitVec.ofNat 64 a) 128 = some (bs, tag) ∧
      parseView bs false = some (v l) ∧ coordsOf c l o.f2.toNat (v l).rank = .ok (cs l) ∧
      ∃ w broken, Delivered s c (v l) (cs l) mode w broken) →
    ∃ (s1 : State) (b : Crew) (w : Nat → TWord) (broken : Nat → Bool), { s1 with fetchCache := s.fetchCache, freeCtr := s.freeCtr } = s ∧
      { b with chunk := { b.chunk with pages := c.chunk.pages } } = c ∧
      (∀ l ∈ exe, Delivered s c (v l) (cs l) mode (w l) (broken l)) ∧
      (Room s ci b (s.changed i c exe (toDest s i c w)) →
        Runs i s s1 ci c b lanes (fun l => { writes := toDest s i c w l, fmt := broken l }) false)

/-- `wput` appends each lane's two words to the lift of the crew's die while it is bound to the context and has room, and says which
stood; `wget` hands the oldest entries out, NIL past the last (R70-R73, R304). `lnch` checks the record at its address, puts a
valid grid with the record's fields in the device's launch queue with a priority of at most its own grid's, and gives every lane the
status; a grid that no die can hold has ended with LAUNCH_RESOURCE, of any other the first gang waits for its die (R305, R376, R377). -/
def Obligations.LiftAndDeviceLaunch : Prop :=
  ((∀ o s ci c lanes, Issues s (.wput o) ci c lanes →
    let i : Instr := .wput o
    let exe := execLanes i c lanes
    let die := c.core / 48
    let x := s.lift die
    (∀ l ∈ exe, (s.opnd i c l 1).isHeader = false ∧ (s.opnd i c l 2).isHeader = false) →
    let room := if x.serves (s.asidOf c) then 65536 - x.entries.length else 0
    ∃ s' : State, { s' with lifts := s.lifts } = s ∧ (∀ d, d ≠ die → s'.lift d = s.lift d) ∧
      s'.lift die = { x with entries := x.entries ++ (exe.map fun l => (s.opnd i c l 1, s.opnd i c l 2)).take room } ∧
      Performs i s (s'.setCrew ci c) ci c c lanes fun l => { writes := [(s.destOf i c l, boolWord (decide (exe.idxOf l < room)))] }) ∧
  (∀ o s ci c lanes, Issues s (.wget o) ci c lanes →
    let i : Instr := .wget o
    let exe := execLanes i c lanes
    let die := c.core / 48
    let x := s.lift die
    let held := if x.serves (s.asidOf c) then x.entries else []
    ∃ s' : State, { s' with lifts := s.lifts } = s ∧ (∀ d, d ≠ die → s'.lift d = s.lift d) ∧
      s'.lift die = { x with entries := if x.serves (s.asidOf c) then x.entries.drop exe.length else x.entries } ∧
      Performs i s (s'.setCrew ci c) ci c c lanes fun l =>
        let e := (held[exe.idxOf l]?).getD (.nil, .nil)
        { writes := if s.destOf i c l = 255 then [] else [(s.destOf i c l, e.1), (s.destOf i c l + 1, e.2)] })) ∧
  (∀ o s ci c lanes k tg gr pg, Issues s (.lnch o) ci c lanes →
    let i : Instr := .lnch o
    let w := s.opnd i c ((execLanes i c lanes).headD 0) 1
    w.tag = .int → s.globalAddr c w.payload 128 true false = .ok k tg gr pg →
    let grid := s.parseRecord (fun j => Memory.nat s.mem (k + 8 * j) 8) (.device c.team c.core) (some (s.asidOf c))
    let full := 256 ≤ s.lnchWaiting (c.core / 48)
    let s' := if full then s else (grid.map fun g => (s.setCrew ci c).launchGrid { g with prio := min g.prio (s.gridOf c).prio }).getD s
    let st : Nat := if full then 2 else if grid.isNone then 1 else 0
    Performs i s s' ci c (c.usePage? pg) lanes (fun l => { writes := [(s.destOf i c l, intWord st)] }) ∧
      ∀ g, grid = some g →
        let w := fun j => Memory.nat s.mem (k + 8 * j) 8
        RecordOk w ∧ w 9 = s.asidOf c ∧ (∃ x, s.ctxOf (w 9) = some x ∧ x.state = .live) ∧
        (¬full → s'.grids.length = s.grids.length + 1 ∧ s'.mem = s.mem ∧
          let x := s'.grid s.grids.length
          GridOf w x ∧ x.prio = min (w 8 / 2 ^ 8 % 8) (s.gridOf c).prio ∧ x.origin = .device c.team c.core ∧
          ((x.status = some 1 ∧ ∀ y ∈ s'.waiting, y.grid ≠ s.grids.length) ∨
            (x.status = none ∧ ∃ y ∈ s'.waiting, y.grid = s.grids.length ∧ y.gang = 0 ∧ y.die = c.core / 48 ∧ y.prio = x.prio))))

/-- `svc` writes one record per lane to the service ring, with service, lane, argument, caller and number, moves TAIL on, and leaves the
crew waiting for the answers after the instructions its LK allows; without room the crew is saved until the ring's doorbell (R238,
R384-R386). -/
def Obligations.ServiceCalls : Prop :=
  ∀ n lk o s ci c lanes r, Issues s (.svc n lk o) ci c lanes → s.ringAt c.core (s.asidOf c) c.svcq.toNat = some r →
    let i : Instr := .svc n lk o
    let exe := execLanes i c lanes
    if r.room exe.length then
      let s' := (s.setCrew ci c).svcEvent ci c r (BitVec.toNat n) (exe.map fun l => (l, s.opnd i c l 1))
      let wait : Wake := .svcReply c.svcq.toNat (r.tail + exe.length) (BitVec.ofNat 8 (s.destOf i c (exe.headD 0)))
        ((List.range exe.length).map fun j => (exe.getD j 0, r.key + 64 + 64 * ((r.tail + j) % r.cap)))
      Performs i s s' ci c (s'.coveredReplies { s'.crew ci with svcLeft := some (BitVec.toNat lk, wait), replies := [] }) lanes (fun _ => {}) ∧
        (Lands r.key (64 + 64 * r.cap) → c.crewId < 2 ^ 8 → s.asidOf c < 2 ^ 16 → c.core < 2 ^ 8 → c.quad < 4 →
          Memory.nat s'.mem (r.key + 8) 8 = (r.tail + exe.length) % 2 ^ 64 ∧
          (∀ j, j < exe.length → ServiceRecord s' (r.key + 64 + 64 * ((r.tail + j) % r.cap)) (BitVec.toNat n) (exe.getD j 0) (r.tail + j)
            (s.opnd i c (exe.getD j 0) 1) c (s.asidOf c) (s.teamOf c).linear) ∧
          ∀ a, (a < r.key + 8 ∨ r.key + 16 ≤ a) → (∀ j, j < exe.length → a < r.key + 64 + 64 * ((r.tail + j) % r.cap) ∨
            r.key + 128 + 64 * ((r.tail + j) % r.cap) ≤ a) → Memory.read s'.mem a = Memory.read s.mem a)
    else exec i s = .next ((s.setCrew ci { c with wake := some .svcEvent }).saveCrew ci)

/-- The special register that `sets` writes, from the lowest lane: reserved bits read as zero (R193, R241). `prof` leaves one record
of the bundle to its chunk's commit where the grid profiles, and nothing else (R243). -/
def Obligations.SpecialRegistersAndProfile : Prop :=
  (∀ r o s ci c lanes, Issues s (.sets r o) ci c lanes →
    let i : Instr := .sets r o
    let exe := execLanes i c lanes
    let v := (s.opnd i c (exe.headD 0) 1).payload
    (∀ l ∈ exe, (s.opnd i c l 1).tag = .int ∧ (r = .htab → (s.opnd i c l 1).payload.toNat % 8 = 0)) →
    let b : Option Crew := match r with
      | .htab => some { c with htab := v }
      | .svcq => some { c with svcq := v }
      | .hregion => some { c with hregion := BitVec.ofNat 64 (v.toNat % 8) }
      | .nbase => some { c with arch := { c.arch with nbase := v } }
      | .nlimit => some { c with arch := { c.arch with nlimit := v } }
      | .xi => some { c with arch := { c.arch with xi := v } }
      | .fpflags => some { c with arch := { c.arch with fpflags := BitVec.ofNat 64 (v.toNat % 32) } }
      | .formatflag => some { c with arch := { c.arch with formatflag := BitVec.ofNat 64 (v.toNat % 2) } }
      | _ => none
    ∀ b', b = some b' →
      if i.cls = .irrevocable then Performs i s s ci c b' lanes fun _ => {}
      else Room s ci b' (s.changed i c exe fun _ => []) → Completes i s ci c b' lanes (fun _ => {}) false) ∧
  (∀ n s ci c lanes, Issues s (.prof n) ci c lanes →
    let b : Crew := if (s.gridOf c).prof then { c with chunk := { c.chunk with prof := c.chunk.prof ++ [⟨s.clock, n⟩] } } else c
    Room s ci b (s.changed (.prof n) c (execLanes (.prof n) c lanes) fun _ => []) →
      Completes (.prof n) s ci c b lanes (fun _ => {}) false)

/-! ## Threads, chunks, traps -/

/-- `cbrk` ends its chunk; `yield` ends it, or at a chunk's start gives the crew up for one turn (R74, R64, R236). `exit` and `exit.h`
retire the bundle's threads; HELPER and PARKED threads of a quad without an ACTIVE or REGROUP thread go with them, and the crew's
last thread ends its chunk (R53, R236). -/
def Obligations.ThreadsAndChunkEnds : Prop :=
  ((∀ s ci c lanes, Issues s .cbrk ci c lanes → Room s ci c [] → Completes .cbrk s ci c c lanes (fun _ => {}) true) ∧
  (∀ s ci c lanes, Issues s .yield ci c lanes →
    if c.dirty then exec .yield s = .next (s.setCrew ci c.beginCommit)
    else Room s ci c [] → Completes .yield s ci c { c with wake := some .yielded } lanes (fun _ => {}) false)) ∧
  (∀ h s ci c lanes, let i : Instr := if h = true then .exitH else .exit
    Issues s i ci c lanes → s.quad c.quadNo = { s.quad c.quadNo with regroup := [] } →
    let st := fun l => if l ∈ lanes then exited h (c.thread l).st else (c.thread l).st
    let kept := fun l => (List.range 4).any fun j => st (4 * (l / 4) + j) == .active || st (4 * (l / 4) + j) == .regroup
    let final := fun l => if kept l = false ∧ (st l = .helper ∨ st l = .parked) then ThreadState.exited else st l
    ∃ b, (∀ l, l < 32 → b.thread l = { c.thread l with st := final l }) ∧ b.arch.vregs = c.arch.vregs ∧
      (Room s ci b (s.changed i c (execLanes i c lanes) fun _ => []) → Completes i s ci c b lanes (fun _ => {}) ((List.range 32).all fun l => final l == .exited)))

/-- The bundle is the set of runnable threads at the lowest PC, compared unsigned, formed from the threads alone; within a macro body,
where all stand at one PC, those at its earliest step (R54, R360). -/
def Obligations.BundleFormation : Prop :=
  ∀ c : Crew,
    let runs : Nat → Prop := fun l => l < 32 ∧ ((c.thread l).st = .active ∨ (c.thread l).st = .helper)
    (∀ l ∈ c.bundle, runs l ∧ ∀ m, runs m → (c.thread l).pc.toNat * 32 + (c.thread l).mstep ≤ (c.thread m).pc.toNat * 32 + (c.thread m).mstep) ∧
    ((∀ l m, runs l → runs m → (c.thread l).mstep = (c.thread m).mstep) →
      ∀ l, l ∈ c.bundle ↔ runs l ∧ ∀ m, runs m → (c.thread l).pc.toNat ≤ (c.thread m).pc.toNat) ∧
    ∀ c' : Crew, c'.arch.threads = c.arch.threads → c'.bundle = c.bundle

/-- A chunk that has issued its limit of bundles ends: 4,096, or 64 from its third squash in a row on; a composite's is squashed (R74,
R84). A committing chunk acquires its arbiters one at a time in ascending number, each free, and none while another crew holds the
commit token (R80, R84). The commit token: a crew asks at its sixth conflict, and the token goes to the longest waiting crew (R84). That
it goes there only once no chunk holds grants, and that no chunk acquires while another crew holds it, is the model's choice
(entry 35). -/
def Obligations.CommitGrantsAndToken : Prop :=
  (∀ ci (s : State), exec (.chunkLimitReached ci) s = .next (
    if (s.crew ci).chunk.phase = .running ∧ (if 3 ≤ (s.crew ci).consec then 64 else 4096) ≤ (s.crew ci).chunk.bundles then
      if (s.crew ci).isComposite then s.squashCrew ci false else s.setCrew ci (s.crew ci).beginCommit
    else s)) ∧
  (∀ ci (s : State), ∃ t, exec (.commitGrant ci) s = .next t ∧
    ∀ a rest held, (s.crew ci).chunk.phase = .committing (a :: rest) held →
      if s.tokenHeld ci = true ∨ (∃ g ∈ s.grants, g.1 = a) then t = s
      else t.grants = s.grants ++ [(a, ci)] ∧ t.mem = s.mem ∧
        (ci < s.crews.length → (t.crew ci).chunk.phase = .committing rest (held ++ [a]) ∧ (t.crew ci).arch = (s.crew ci).arch) ∧
        ∀ k, k ≠ ci → t.crew k = s.crew k) ∧
  ((∀ ci (s : State), ∃ t, exec (.commitTokenRequest ci) s = .next t ∧
    if (s.crew ci).consec = 6 ∧ (s.crew ci).tokenAsked = false ∧ s.token ≠ some ci then
      t.tokenQueue = s.tokenQueue ++ [ci] ∧ t.token = s.token ∧ t.mem = s.mem else t = s) ∧
  (∀ s : State, exec .commitTokenGrant s = .next (
    if s.token = none ∧ s.grants = [] ∧ s.tokenQueue ≠ [] then
      { s with token := s.tokenQueue.head?, tokenQueue := s.tokenQueue.tail } else s)))

/-- A commit writes the chunk's buffered bytes and nothing else to memory, counts in CHUNKN, ends the crew's run of squashes, gives
its grants back, keeps its registers, and squashes every chunk it conflicts with (R75, R80-R84). Its `red` records are applied to
the committed words in order, its `hacc` operands of equal keys combined and applied once (R92, R123, R264), with their flags in
FPFLAGS; its `prof` record goes to the die's trace ring, or counts as lost (R243, R431). -/
def Obligations.ChunkCommits : Prop :=
  ∀ ci (s : State), ∃ t, exec (.chunkCommit ci) s = .next t ∧
    ∀ held, let c := s.crew ci
      let k := c.chunk
      k.phase = .committing [] held → s.tokenHeld ci = false → s.commitWaits k = false → ci < s.crews.length → c.homes = [] →
      c.svcLeft = none → (k.bytes.map Prod.fst).Nodup → (∀ e ∈ k.bytes, Lands e.1 1) →
      (k.recs = [] → k.prof = [] →
        (∀ a, Memory.read t.mem a = (SMap.get? k.bytes a).getD (Memory.read s.mem a)) ∧
        (∀ g ∈ t.grants, g.2 ≠ ci) ∧ t.token ≠ some ci ∧
        (t.crew ci).chunkn = c.chunkn + 1 ∧ (t.crew ci).consec = 0 ∧ (t.crew ci).chunk.bytes = [] ∧
        (t.crew ci).arch.vregs = c.arch.vregs ∧
        ∀ j, j ≠ ci → j < s.crews.length → (s.crew j).homes = [] → (s.crew j).inFlight = true →
          commitMeets k.wsig k.dsig held (s.crew j) = true →
          (t.crew j).chunk.bytes = [] ∧ (t.crew j).chunk.recs = [] ∧ (t.crew j).arch.vregs = (s.crew j).chunk.start.vregs) ∧
      (k.prof = [] → OnlyReds s k.recs →
        let r := k.recs.foldl applyReds (k.bytes.foldl (fun m e => Memory.write m e.1 e.2) s.mem, 0)
        (∀ a, Memory.read t.mem a = Memory.read r.1 a) ∧ (t.crew ci).arch.fpflags = c.arch.fpflags ||| r.2.setWidth 64) ∧
      (∀ op core pages r0 rest, k.prof = [] → k.bytes = [] → k.tags = [] → k.recs = [.hacc op core pages (r0 :: rest)] → s.parked = [] →
        (∃ l, l < 32 ∧ (c.thread l).st = .active) → (∀ r ∈ r0 :: rest, haccTagOk op r.x.tag = true ∧ r.x.tag = r0.x.tag) →
        (∀ a ∈ r0 :: rest, ∀ b ∈ r0 :: rest, sameKey a.key b.key = true) →
        let g := s.region core c.team
        let g' := t.region core c.team
        Laid g → OneOrd g r0.key →
        let x := rest.foldl (fun a r => ((accumulated op a.1 r.x).1, a.2 ||| (accumulated op a.1 r.x).2)) (r0.x, (0 : Flags))
        (∀ h u, HeldAt g h u → sameKey h r0.key = true →
          let y := accumulated op u x.1
          Laid g' ∧ (∀ j z, HeldAt g' j z ↔ (HeldAt g j z ∧ sameKey j r0.key = false) ∨ (j = h ∧ z = if u.tag = x.1.tag then y.1 else .nil)) ∧
            (g'.mixed = true ↔ g.mixed = true ∨ u.tag ≠ x.1.tag) ∧
            (t.crew ci).arch.fpflags = c.arch.fpflags ||| (x.2 ||| if u.tag = x.1.tag then y.2 else 0).setWidth 64) ∧
        (SMap.get? g.slots (homeSlot r0.key g.b) = none →
          Laid g' ∧ (∀ j z, HeldAt g' j z ↔ HeldAt g j z ∨ (j = r0.key ∧ z = x.1)) ∧
            (t.crew ci).arch.fpflags = c.arch.fpflags ||| x.2.setWidth 64)) ∧
      (∀ p, k.recs = [] → k.bytes = [] → k.tags = [] → k.prof = [p] →
        let reg := 0x3801020 + 0x1000 * (c.core / 48)
        let size := (s.bar (reg + 0x08)).toNat
        let tail := s.bar (reg + 0x10)
        if (tail - s.bar (reg + 0x18)).toNat = size then t.mem = s.mem ∧ t.bar (reg + 0x20) = s.bar (reg + 0x20) + 1 ∧ t.bar (reg + 0x10) = tail
        else
          let a := (s.bar reg).toNat + 16 * (tail.toNat % size)
          Lands a 16 → Memory.nat t.mem a 8 = p.clock.toNat ∧
            Memory.nat t.mem (a + 8) 8 = (p.n.toNat + c.crewId * 2 ^ 16 + c.quad * 2 ^ 24 + c.core % 48 * 2 ^ 26 + s.asidOf c * 2 ^ 32) % 2 ^ 64 ∧
            (∀ j, j < a ∨ a + 16 ≤ j → Memory.read t.mem j = Memory.read s.mem j) ∧ t.bar (reg + 0x10) = tail + 1 ∧
            t.bar (reg + 0x20) = s.bar (reg + 0x20))

/-- No instruction word that is not irrevocable changes committed memory, another crew, or the scratch's presence bits: until a commit
a chunk's effects are its own (R76, R77, R86). A matrix instruction that completes its four ends the partners' wait (R59). -/
def Obligations.ChunksAreIsolated : Prop :=
  ∀ i s ci c lanes t, Issues s i ci c lanes → i.isWord = true → i.cls ≠ .irrevocable → i ≠ .exit → i ≠ .exitH →
    exec i s = .next t → (∀ k ∈ t.faults, k ∈ s.faults) →
    t.mem = s.mem ∧ t.tags = s.tags ∧ t.absent = s.absent ∧
      ∀ k, k ≠ ci → (t.crew k).chunk.bytes = (s.crew k).chunk.bytes ∧ (opIsMatrix i.opcode = false → t.crew k = s.crew k)

/-- A squash puts the crew back to the start of its chunk: threads, registers and special registers, nothing buffered, nothing
pending; every squash counts in TOTAL, a conflict toward the escalation too (R75, R83, R84). -/
def Obligations.SquashRestores : Prop :=
  ∀ (s : State) ci conflict, ci < s.crews.length → (s.crew ci).homes = [] →
    let t := s.squashCrew ci conflict
    let c := s.crew ci
    (t.crew ci).arch = c.chunk.start ∧ (t.crew ci).chunk = { start := c.chunk.start } ∧ (t.crew ci).pend = [] ∧
      (t.crew ci).consec = (if conflict then min 6 (c.consec + 1) else c.consec) ∧
      (t.crew ci).squashTotal = (c.squashTotal + 1) % 2 ^ 56 ∧
      (t.crew ci).chunkn = c.chunkn ∧ (∀ g, g ∈ t.grants ↔ g ∈ s.grants ∧ g.2 ≠ ci) ∧
      t.mem = s.mem ∧ t.tags = s.tags ∧ ∀ k, k ≠ ci → t.crew k = s.crew k

/-- An instruction with LK above 0 writes nothing at once: its results pend with LK instructions left, and the bundle goes on (R321,
R322). A pending result arrives: its words and flags are the crew's, while its window stands to its end; a word that several lanes'
windows share is written once (R191, R321, R324). That nothing is written before the arrival, so that a destination reads its old value
until then, and that the window stands after an early arrival are the model's choices (entry 7). -/
def Obligations.LongLatencyResults : Prop :=
  (∀ i f, ((∃ g, integerResult i = some g ∧ f = fun w => some (g w, 0)) ∨ floatResult i = some f ∨ (isGeneric i = true ∧ f = genericResult i)) →
    i.cls = .speculative → opTakesLk i.opcode = true → i.lk ≠ 0 →
    ∀ s ci c lanes (r : Nat → TWord × Flags), Issues s i ci c lanes →
      (∀ l ∈ execLanes i c lanes, f (s.opnd i c l) = some (r l)) →
      (∀ l ∈ execLanes i c lanes, s.destOf i c l < 224) →
      Room s ci c (s.changed i c (execLanes i c lanes) (toDest s i c fun l => (r l).1)) →
      ∃ t, exec i s = .next t ∧ t.mem = s.mem ∧
        (t.crew ci).pend = (execLanes i c lanes).map (fun l =>
          { lane := l, opener := c.clk1.toNat, dest := [BitVec.ofNat 8 (s.destOf i c l)]
            writes := [⟨l, BitVec.ofNat 8 (s.destOf i c l), (r l).1⟩], flags := (r l).2, left := i.lk }) ∧
        (∀ f l, f < 224 → l < 32 → (t.crew ci).readV f l =
          if l ∈ execLanes i c lanes ∧ f ∈ s.lastUses i c l ∧ f ≠ s.destOf i c l then .undef else c.readV f l) ∧
        (t.crew ci).arch.fpflags = c.arch.fpflags ∧
        ∀ l, (t.crew ci).thread l = if l ∈ lanes then { c.thread l with pc := (c.thread l).pc + 8 } else c.thread l) ∧
  (∀ ci lane k (s : State), ∃ t, exec (.longLatencyResult ci lane k) s = .next t ∧
    ∀ p, ((s.crew ci).pend.filter fun p => p.lane == lane && !p.arrived)[k]? = some p → ci < s.crews.length → (s.crew ci).homes = [] →
      (∀ w ∈ p.writes, w.lane < 32) →
      let shared := fun (q : Pending) (w : LaneWrite) => decide (224 ≤ w.field.toNat) || decide (w.lane ≠ q.lane)
      let arrived := fun (q : Pending) => if q = p then { q with writes := [], flags := 0, fmtFlag := false, arrived := true } else q
      let word := fun (f l : Nat) => (p.writes.reverse.find? fun w => w.field.toNat == f && (decide (224 ≤ f) || w.lane == l)).map LaneWrite.word
      (t.crew ci).pend = ((s.crew ci).pend.map arrived).map (fun q =>
        if p.writes.any (shared p) = true ∧ q.opener = p.opener then { q with writes := q.writes.filter fun w => !shared q w } else q) ∧
      (t.crew ci).arch.fpflags = (s.crew ci).arch.fpflags ||| p.flags.setWidth 64 ∧
      (∀ f l, f < 224 → l < 32 → (t.crew ci).readV f l = (word f l).getD ((s.crew ci).readV f l)) ∧
      (∀ n, n < 31 → (t.crew ci).readS n = (word (224 + n) 0).getD ((s.crew ci).readS n)) ∧
      (t.crew ci).arch.threads = (s.crew ci).arch.threads ∧ ∀ j, j ≠ ci → t.crew j = s.crew j)

/-- Lanes whose handler-table entries lead to handlers enter them (R43, R45, R46); no other lane changes. The Info word of a trap
holds INDEX, NURS, ZDIV, OVF, CAUSE, the operand tags, DEST and OP at the places of R46. Where only some lanes of an ordinary
instruction trap, the others complete it: lanes of a generic opcode that are uncommon or leave their class (R37-R41), lanes of a
conversion or branch with a wrong tag, lanes of a load with a wrong tag or a bad address (R244-R248). -/
def Obligations.HandlerEntry : Prop :=
  (∀ ci (ts : List TrapReq) (s : State) (pc : TrapReq → BitVec 64), ci < s.crews.length →
    let c := s.crew ci
    c.place = .resident → c.chunk.phase = .running → c.doom = none → c.homes = [] → c.pend = [] → c.arch.threads.length = 32 →
    (ts.map TrapReq.lane).Nodup → (∀ t ∈ ts, t.lane < 32 ∧ s.fateIn c t = .enter (pc t)) →
    ∃ c', exec (.handlerEntry ci ts) s = .next (s.setCrew ci c') ∧ (∀ t ∈ ts, Entered c c' t (pc t)) ∧
      (∀ f l, f < 224 → l < 32 → (∀ t ∈ ts, t.lane ≠ l) → c'.readV f l = c.readV f l ∧ c'.thread l = c.thread l) ∧
      c'.arch.sregs = c.arch.sregs ∧ c'.chunk.bytes = c.chunk.bytes ∧ c'.arch.fpflags = c.arch.fpflags) ∧
  (∀ t : TrapReq, t.code < 256 → t.dest < 256 → t.op < 256 → t.index < 2 ^ 14 →
    let n := t.info.toNat
    n / 2 ^ 40 = t.index ∧ n / 2 ^ 35 % 2 ^ 5 = 0 ∧ (n / 2 ^ 34 % 2 = 1 ↔ t.code = 0x0C) ∧ (n / 2 ^ 33 % 2 = 1 ↔ t.code = 0x33) ∧
      (n / 2 ^ 32 % 2 = 1 ↔ t.code = 0x31) ∧ n / 2 ^ 24 % 2 ^ 8 = t.code ∧ n / 2 ^ 20 % 2 ^ 4 = t.v218.tag.toNat ∧
      n / 2 ^ 16 % 2 ^ 4 = t.v217.tag.toNat ∧ n / 2 ^ 8 % 2 ^ 8 = t.dest ∧ n % 2 ^ 8 = t.op ∧
      t.index = t.generic.elim t.code fun g => 0x1000 + g.1 * 256 + g.2.1 * 16 + g.2.2) ∧
  (∀ i s ci c lanes (r : Nat → LaneResult) (q : Nat → Option (TrapReq × BitVec 64)), Issues s i ci c lanes → atOnce i →
    let exe := execLanes i c lanes
    let enters : Nat → TrapReq → Prop := fun l t => ∃ pc, q l = some (t, pc) ∧ s.fateIn c t = .enter pc
    (isGeneric i = true →
      (∀ l ∈ exe, match genericResult i (s.opnd i c l) with
        | some x => r l = { writes := [(s.destOf i c l, x.1)], flags := x.2 } ∧ q l = none
        | none => enters l (genericEntry i s c l)) →
      Room s ci c (s.changed i c exe (fun l => (r l).writes) ++ [220, 217, 218, 219, 216]) → Mixed i s ci c c lanes r q) ∧
    (∀ f, tagRule i = some f →
      (∀ l ∈ exe, match f s c exe l with
        | some x => r l = x ∧ q l = none
        | none => enters l (s.trapReq i c l 0x08)) →
      Room s ci c (s.changed i c exe (fun l => (r l).writes) ++ [220, 217, 218, 219]) → Mixed i s ci c c lanes r q) ∧
    ∀ scratch nb a o (p : Nat → Spot), loadForm i = some (scratch, nb, a, o) →
      (∀ l ∈ exe, (∃ code, loadTrap i s c scratch nb a o l code ∧ enters l (s.trapReq i c l code)) ∨
        (q l = none ∧ addressTags s i c o nb l ∧ Reaches s c scratch (mAddress s i c o l) a.bytes false (p l) ∧ Open s ci (p l) a.bytes ∧
          r l = { writes := toGroup s i c l (loaded a (p l).tagged nb (s.viewTag c ((p l).key / 8)) (s.viewBytes c (p l).key a.bytes)) })) →
      let b := afterReads c (exe.filter fun l => (q l).isNone) p a.bytes
      Room s ci b (s.changed i c exe (fun l => (r l).writes) ++ [220, 217, 218, 219]) → Mixed i s ci c b lanes r q)

/-- `trap`, `bkpt`, illegal words and unbound unassigned words put every executing lane into its handler (R46, R195, R239, R356). A
fatal trap ends the chunk before the instruction: `abort` always, `trap` and the others where no handler stands; the failure
record will name code, lanes, PC and the number of the `abort` (R45, R239, R404). -/
def Obligations.TrapInstructions : Prop :=
  (∀ i s ci c lanes (q : Nat → TrapReq) (pc : Nat → BitVec 64), Issues s i ci c lanes →
    (∀ l ∈ execLanes i c lanes, ownTrap i s c l = some (q l) ∧ s.fateIn c (q l) = .enter (pc l)) →
    Room s ci c ((execLanes i c lanes).flatMap fun _ => [220, 217, 218, 219]) →
    ∃ c', exec i s = .next (s.setCrew ci c') ∧ (∀ l ∈ execLanes i c lanes, Entered c c' (q l) (pc l)) ∧
      (∀ f l, f < 224 → l < 32 → l ∉ execLanes i c lanes → c'.readV f l = c.readV f l) ∧
      (∀ l, l ∉ lanes → c'.thread l = c.thread l) ∧ c'.arch.sregs = c.arch.sregs ∧ c'.chunk.bytes = c.chunk.bytes) ∧
  ((∀ n s ci c lanes, Issues s (.abort n) ci c lanes →
    exec (.abort n) s = .next (s.setCrew ci { c.beginCommit with
      doom := some { code := 0x12, lanes := laneMask (execLanes (.abort n) c lanes), pc := c.pc, detail := n.setWidth 64 } })) ∧
  (∀ i s ci c lanes (q : Nat → TrapReq) code, Issues s i ci c lanes →
    (∀ l ∈ execLanes i c lanes, ownTrap i s c l = some (q l) ∧ s.fateIn c (q l) = .fatal code) →
    exec i s = .next (s.setCrew ci { c.beginCommit with
      doom := some { code := code, lanes := laneMask (execLanes i c lanes), pc := c.pc, detail := 0 } })))

/-- `mcall` puts the operation at its lanes' macro step in hand, each register field that holds 221-223 replaced by P0-P2 and every
other bit as the body has it; the crew executes it next, and the last one frees what LA and LB name (R237, R359, R360). A last-use or
index bit on a field of the body that names a parameter makes the operation ILLEGAL_ENCODING (R190, R192). A routed
word of KIND 0 executes as the `mcall` that its own fields make; one of KIND 1 puts every lane, HELPER lanes included, into its
routine with the word in v216 (R356). That the expansion is a step of its own, after which the operation is in hand for the next step, is
the model's choice (entry 17). -/
def Obligations.MacrosAndRoutedWords : Prop :=
  (∀ m o s ci c lanes b w, s.stand = some (ci, c, lanes) →
    let i : Instr := .mcall m o
    let j := (c.thread (lanes.headD 0)).mstep
    (s.gridOf c).bodies.find? (fun b => b.num == m.toNat) = some b → s.staticTrap i c lanes = none → b.ops[j]? = some w →
    (opFormat (w.toNat / 2 ^ 56) = some .r ∨ opFormat (w.toNat / 2 ^ 56) = some .i ∨ opFormat (w.toNat / 2 ^ 56) = some .m) →
    let p : Nat → Nat := s.effSlot i c (lanes.headD 0)
    ∃ e t, exec i s = .next t ∧ t = s.setCrew ci { c with expansion := some e } ∧
      (e.illegal = false → t.fetch ci = instrOf e.word.toNat) ∧
      (e.illegal = true → t.fetch ci = .illegalInstruction (BitVec.ofNat 8 (e.word.toNat / 2 ^ 56)) true) ∧
      (e.illegal = true ↔ ∃ x ∈ markBits w, w.toNat / 2 ^ x.1 % 256 ∈ [221, 222, 223] ∧ w.getLsbD x.2 = true) ∧
      (e.last = true ↔ j + 1 = b.ops.length) ∧
      (∀ f, f ∈ e.frees ↔ (o.la = true ∧ f = BitVec.ofNat 8 (p 1)) ∨ (o.lb = true ∧ f = o.b)) ∧
      (∀ lo ∈ regFields w, e.word.toNat / 2 ^ lo % 256 = withParam p (w.toNat / 2 ^ lo % 256)) ∧
      ∀ k, (∀ lo ∈ regFields w, k < lo ∨ lo + 8 ≤ k) → e.word.getLsbD k = w.getLsbD k) ∧
  ((∀ w s ci c lanes r, s.stand = some (ci, c, lanes) →
    (s.gridOf c).routes.find? (fun r => r.byte == BitVec.toNat w / 2 ^ 56) = some r → (∀ l ∈ lanes, (c.thread l).region = false) →
    r.sub = false → r.num < 256 →
    let o : ROps := { d := w.extractLsb' 44 8, a := w.extractLsb' 36 8, b := w.extractLsb' 28 8, la := w.getLsbD 19, lb := w.getLsbD 18,
                      xd := w.getLsbD 5, xa := w.getLsbD 4 }
    (Instr.mcall (BitVec.ofNat 8 r.num) o).wellFormed = true →
    exec (.routedInstruction w) s = exec (.mcall (BitVec.ofNat 8 r.num) o) s) ∧
  (∀ w s ci c lanes r, Issues s (.routedInstruction w) ci c lanes →
    (s.gridOf c).routes.find? (fun r => r.byte == BitVec.toNat w / 2 ^ 56) = some r → (∀ l ∈ lanes, (c.thread l).region = false) →
    r.sub = true → Room s ci c [220, 217, 218, 219, 216] →
    let d := w.toNat / 2 ^ 44 % 256
    let q : Nat → TrapReq := fun l =>
      { lane := l, code := 0x01, v216 := some ⟨.raw, w⟩, v217 := s.fieldWord c l (w.toNat / 2 ^ 36 % 256),
        v218 := s.fieldWord c l (w.toNat / 2 ^ 28 % 256), dest := if validV c.alloc d then d else 255, op := w.toNat / 2 ^ 56,
        next := (c.thread l).pc + 8 }
    ∃ c', exec (.routedInstruction w) s = .next (s.setCrew ci c') ∧
      (∀ l ∈ lanes, Entered c c' (q l) (BitVec.ofNat 64 ((s.gridOf c).codebase + r.routine))) ∧
      (∀ f l, f < 224 → l < 32 → l ∉ lanes → c'.readV f l = c.readV f l) ∧ (∀ l, l ∉ lanes → c'.thread l = c.thread l) ∧
      c'.arch.sregs = c.arch.sregs ∧ c'.chunk.bytes = c.chunk.bytes))

/-- `rgw` lets its lanes join the entry of their team and PC in REGROUP, or go on with the region bit set where the table is full;
`rgend` clears the bit (R61, R62). An entry that fires forms a composite bundle: in each lane the waiting thread of the lowest
CREWID, with its registers; the others wait on (R61). -/
def Obligations.Regrouping : Prop :=
  ((∀ s ci c lanes, Issues s .rgw ci c lanes → c.arch.threads.length = 32 →
    let mine := lanes.filter fun l => (c.thread l).st != .helper
    let q := s.quad c.quadNo
    (entryFor q c.team c.pc = none → Performs .rgw s s ci c (onLanes c mine fun t => { t with region := true }) lanes fun _ => {}) ∧
    (∀ e, entryFor q c.team c.pc = some e → mine = [] → Performs .rgw s s ci c c lanes fun _ => {}) ∧
    ∀ e, entryFor q c.team c.pc = some e → mine ≠ [] →
      let b := onLanes c mine fun t => { t with region := true, st := .regroup }
      let x := (SMap.get? q.regroup e).getD { team := c.team, pc := c.pc, since := s.clock.toNat }
      let x' : Regroup := { x with
        since := if x.waiting = [] then s.clock.toNat else x.since, waiting := x.waiting ++ mine.map fun l => (l, ci) }
      let s' := (s.setQuad c.quadNo { q with regroup := SMap.set q.regroup e x' }).setCrew ci b
      Performs .rgw s (s'.fireAll c.quadNo) ci c b lanes fun _ => {}) ∧
  (∀ s ci c lanes, Issues s .rgend ci c lanes → c.arch.threads.length = 32 →
    Performs .rgend s s ci c (onLanes c lanes fun t => { t with region := false }) lanes fun _ => {})) ∧
  (∀ q e (s : State), ∃ t, exec (.regroupTimeout q e) s = .next t ∧ t.mem = s.mem ∧
    ((∀ x, SMap.get? (s.quad q).regroup e = some x → s.fires q x = false) → t = s) ∧
    ∀ x, SMap.get? (s.quad q).regroup e = some x → s.fires q x = true →
      (∀ a ∈ x.waiting, a.1 < 32 ∧ SMap.sorted (s.crew a.2).arch.vregs = true ∧
        ∀ b ∈ x.waiting, a.1 = b.1 → (s.crew a.2).crewId = (s.crew b.2).crewId → a = b) →
      ∃ k, t.crews = s.crews ++ [k] ∧ k.homes ≠ [] ∧ k.team = x.team ∧
        (∀ l h, (l, h) ∈ k.homes ↔ (l, h) ∈ x.waiting ∧ ∀ h', (l, h') ∈ x.waiting → (s.crew h).crewId ≤ (s.crew h').crewId) ∧
        (∀ a ∈ k.homes, k.thread a.1 = { pc := x.pc + 8, st := .active, region := true } ∧
          ∀ f, f < 224 → k.readV f a.1 = (s.crew a.2).readV f a.1) ∧
        (∀ l, (∀ a ∈ k.homes, a.1 ≠ l) → k.thread l = { pc := 0 }) ∧
        SMap.get? (t.quad q).regroup e = some { x with waiting := x.waiting.filter (fun a => !k.homes.contains a), running := some s.crews.length })

/-! ## The machine’s own agents -/

/-- A far operation for this device is performed once, in committed memory, and answered; one for another device does nothing, one
seen before is only answered again, one that must wait is left, one outside the exported window is refused, and one whose page this
device's host may still serve waits on its fault record (R95, R261, R262, R265, R424, R425, R427). A reply reaches the registers of
the lane that asked, an acknowledgement ends a far store; the crew waits on for the others (R95, R261); a refusal or a time-out is a
failure (R427). That a number below the next expected one means seen before (entry 36), and that such a fault record is made and the
operation refused with reason 3 where the context is not live (entry 55), are the model's choices. -/
def Obligations.FarOperations : Prop :=
  (∀ (s : State) off r w,
    let ctl := s.bar 0x28F0008
    let va := (s.bar 0x28F0010).toNat + off
    s.exportAsid = ctl.toNat % 2 ^ 16 ∧
    (ctl.getLsbD 16 = false ∨ (s.bar 0x28F0018).toNat ≤ off → s.exportKey off r w = .error (.refuse 2)) ∧
    (ctl.getLsbD 16 = true → off < (s.bar 0x28F0018).toNat → ∀ x, s.ctxOf (ctl.toNat % 2 ^ 16) = some x →
      (x.state ≠ .live → s.exportKey off r w = .error (.refuse 3)) ∧
      (∀ p, x.state = .live → s.walkNow (ctl.toNat % 2 ^ 16) va r w false = .ok p → (r = true → s.poisonedAt (p.key va) = false) →
        s.exportKey off r w = .ok (p.key va, p.tagged)) ∧
      ∀ cause, x.state = .live → cause ≠ 6 → cause ≠ poisonCause → s.walkNow (ctl.toNat % 2 ^ 16) va r w false = .fault cause →
        s.exportKey off r w = .error (.fault va cause w))) ∧
  (∀ f (s : State), ∃ t, exec (.farOperationArrival f) s = .next t ∧
    (f.dst ≠ s.devNum → t = s) ∧
    (f.dst = s.devNum → f.pair < SMap.get 0 s.farSeen f.src →
      match s.linkOut.find? fun x => x.1 == f.src && x.2.1 == f.seq with
      | none => OnlyCounts s t
      | some (_, _, a) => t.mem = s.mem ∧ t.crews = s.crews ∧ t.farSeen = s.farSeen ∧
        (f.src ≠ s.devNum → t.far = s.far ∧ t.linkOut = s.linkOut ++ [(f.src, f.seq, a)])) ∧
    (f.dst = s.devNum → SMap.get 0 s.farSeen f.src ≤ f.pair → ∀ off n r w, farSpan f = some (off, n, r, w) →
      (∀ e, s.exportKey off r w = .error (.refuse e) → Answered s t f (.refusal e) ∧ t.mem = s.mem ∧ t.crews = s.crews) ∧
      (∀ va cause wr, s.exportKey off r w = .error (.fault va cause wr) →
        t.farSeen = s.farSeen ∧ t.linkOut = s.linkOut ∧ t.far = s.far ∧
          ∃ g ∈ t.faults, g.far = true ∧ g.asid = s.exportAsid ∧ g.va.toNat / 65536 = va / 65536) ∧
      ∀ k tg, s.exportKey off r w = .ok (k, tg) → if s.eventWaits k n then t = s else
        (∀ a, f.body = .read a → t.mem = s.mem ∧ t.crews = s.crews ∧
          Answered s t f (.reply (a.deliver tg false (Tags.read s.tags (k / 8)) (Memory.bytes s.mem k a.bytes)))) ∧
        (∀ a ws, f.body = .write a ws → ws.length = a.regs → Lands k a.bytes →
          Answered s t f .ack ∧ Memory.bytes t.mem k a.bytes = a.storeBytes ws ∧
            ∀ j, j < k ∨ k + a.bytes ≤ j → Memory.read t.mem j = Memory.read s.mem j) ∧
        (∀ op ty j x, f.body = .atomic op ty [(j, x)] →
          let a := atomAcc op ty
          let old := s.peekAcc a (k + j) tg
          Lands (k + j) a.bytes → Answered s t f (.reply [old]) ∧
            Memory.bytes t.mem (k + j) a.bytes = a.storeBytes [(applyWord op ty old.payload x).1] ∧
            ∀ m, m < k + j ∨ k + j + a.bytes ≤ m → Memory.read t.mem m = Memory.read s.mem m) ∧
        ∀ ty j cmp new, f.body = .cas ty [(j, cmp, new)] →
          let a := casAcc ty
          let old := s.peekAcc a (k + j) tg
          Lands (k + j) a.bytes → Answered s t f (.reply [old]) ∧
            (casEqual ty old cmp = true → Memory.bytes t.mem (k + j) a.bytes = a.storeBytes [if ty = .u64 then new else ⟨.int, new.pay⟩]) ∧
            (casEqual ty old cmp = false → t.mem = s.mem) ∧
            ∀ m, m < k + j ∨ k + j + a.bytes ≤ m → Memory.read t.mem m = Memory.read s.mem m)) ∧
  ((∀ seq ws (s : State), ∃ t, exec (.farReply seq ws) s = .next t ∧ (s.farOut? seq = none → OnlyCounts s t) ∧
    ∀ f ci lane dest a, s.farOut? seq = some f → f.use = .regs ci lane dest a → ci < s.crews.length → (s.crew ci).homes = [] →
      lane < 32 → BitVec.toNat dest + ws.length ≤ 224 → (s.crew ci).lateFrees = [] →
      (∀ r l, r < 224 → l < 32 → (t.crew ci).readV r l =
        if l = lane ∧ dest.toNat ≤ r ∧ r < dest.toNat + ws.length then ws.getD (r - dest.toNat) .nil else (s.crew ci).readV r l) ∧
      (t.crew ci).arch.threads = (s.crew ci).arch.threads ∧
      (∀ ns, (s.crew ci).wake = some (.far ns) →
        (t.crew ci).wake = if ns.filter (fun n => n != seq) = [] then none else some (.far (ns.filter fun n => n != seq))) ∧
      t.far = s.far.filter (fun g => g.op.seq != seq) ∧ t.mem = s.mem ∧ ∀ k, k ≠ ci → (t.crew k).arch = (s.crew k).arch) ∧
  (∀ seq (s : State), ∃ t, exec (.farAcknowledge seq) s = .next t ∧ (s.farOut? seq = none → OnlyCounts s t) ∧
    ∀ f ci, s.farOut? seq = some f → f.use = .store ci →
      t.far = s.far.filter (fun g => g.op.seq != seq) ∧ t.mem = s.mem ∧
      ∀ k, k < s.crews.length → t.crew k =
        if (s.crew k).wake = some .fence ∧ t.farPending k = false then { s.crew k with wake := none } else s.crew k) ∧
  (∀ seq reason (s : State), ∃ t, exec (.farRefusal seq reason) s = .next t ∧ (s.farOut? seq = none → OnlyCounts s t) ∧
    ∀ f, s.farOut? seq = some f → FarFailed s t f reason) ∧
  ∀ seq (s : State), ∃ t, exec (.farTimeout seq) s = .next t ∧
    ∀ f, s.farOut? seq = some f → if s.farLate f then FarFailed s t f 4 else t = s)

/-- A crew that meets a translation fault restarts its chunk: it runs on where the tables translate by now, and else waits for the
service of a fault on its page, shared within its die (R83, R396, R397). The driver's answers: a retry lets the fault's crews go
on, a kill notes their context for its death, FAULTHEAD and FAULTRING make room for records that wait; a home's replay ends its
scrub locks and carries out what it parked (R397-R399). That the page's cached translations are dropped at a fault whose walk now
succeeds (entry 61), and which requests a home parks and how it replays them (entry 15), are the model's choices. -/
def Obligations.TranslationFaults : Prop :=
  (∀ ci va cause write fetch engine s c lanes, { s with focus := some ci }.stand = some (ci, c, lanes) → (∀ b ∈ s.crews, b.homes = []) →
    cause ≠ 6 → cause ≠ poisonCause →
    ∃ t, exec (.translationFault ci va cause write fetch engine) s = .next t ∧ (t.crew ci).chunk.bytes = [] ∧ (t.crew ci).pend = [] ∧
      ((∃ p, s.walkNow (s.asidOf c) va.toNat (cause == 2) (cause == 3) (cause == 4) = .ok p) →
        Squashed (s.crew ci) (t.crew ci) ∧ t.mem = s.mem ∧ t.faults = s.faults ∧ (∀ k, k ≠ ci → t.crew k = s.crew k) ∧
        ∀ e ∈ t.tlb, e ∈ s.tlb ∧ ¬(e.asid = s.asidOf c ∧ e.base ≤ va.toNat ∧ va.toNat < e.base + e.size)) ∧
      (∀ n, s.walkNow (s.asidOf c) va.toNat (cause == 2) (cause == 3) (cause == 4) = .fault n →
        (t.crew ci).arch = c.chunk.start ∧
        ∃ f ∈ t.faults, (t.crew ci).wake = some (.fault f.number) ∧ ci ∈ f.crews ∧ f.asid = s.asidOf c ∧ f.die = c.core / 48 ∧
          f.va.toNat / 65536 = va.toNat / 65536 ∧
          ((∀ g ∈ s.faults, g.asid = s.asidOf c → g.die = c.core / 48 → g.va.toNat / 65536 ≠ va.toNat / 65536) →
            f.va = va ∧ f.cause = cause ∧ f.write = write ∧ f.fetch = fetch ∧ f.engine = engine))) ∧
  ((∀ seq (s : State), ∃ t, exec (.faultRetry seq) s = .next t ∧ (s.faultBySeq seq = none → t = s) ∧
    ∀ f, s.faultBySeq seq = some f → t.faults = s.faults.filter (fun g => g.number != f.number) ∧ t.mem = s.mem ∧
      ∀ k, k < s.crews.length → t.crew k = if (s.crew k).wake = some (.fault f.number) then { s.crew k with wake := none } else s.crew k) ∧
  (∀ seq (s : State), ∃ t, exec (.faultKill seq) s = .next t ∧ (s.faultBySeq seq = none → t = s) ∧
    ∀ f, s.faultBySeq seq = some f → t.faults = s.faults.filter (fun g => g.number != f.number) ∧ t.crews = s.crews ∧
      ∃ d, t.dying = s.dying ++ [d] ∧ d.asid = f.asid ∧ d.cause = 4 ∧ d.detail = f.va ∧ d.pc = f.pc ∧
        ∀ k, k ∈ d.teams ↔ ∃ ci ∈ f.crews, (s.crew ci).team = k) ∧
  (∀ v (s : State), ∃ t, exec (.faultheadWrite v) s = .next t ∧
    if v.toNat ≤ s.faultTail then t.faultHead = v.toNat ∧ s.faultTail ≤ t.faultTail ∧ (s.token = none → RingServed t) else t = s) ∧
  (∀ v (s : State), ∃ t, exec (.faultringWrite v) s = .next t ∧ t.faultHead = 0 ∧ (s.token = none → RingServed t) ∧
    t.bar 0x18 = v &&& 0x1FF0F003FFFE0) ∧
  ∀ slice (s : State), ∃ t, exec (.faultQueueReplay slice) s = .next t ∧ (s.token ≠ none → t = s) ∧
    (s.token = none → (∀ p ∈ s.parked, p.slice ≠ slice) → t = { s with locks := s.locks.filter fun l => lineSlice l != slice }) ∧
    ∀ ci op ty tagged r, s.token = none → s.parked = [⟨slice, .red ci op ty tagged r⟩] → op ≠ .xchg →
      let n := (atomAcc op ty).bytes
      let y := applied op ty (BitVec.ofNat 64 (Memory.nat s.mem r.key n)) r.x
      Lands r.key n → t.parked = [] ∧ (∀ l, l ∈ t.locks ↔ l ∈ s.locks ∧ lineSlice l ≠ slice) ∧
        ((s.crew ci).saveAt = none → ci < s.crews.length → (s.crew ci).place ≠ .retired →
          Memory.nat t.mem r.key n = y.1.toNat % 256 ^ n ∧ (∀ j, j < r.key ∨ r.key + n ≤ j → Memory.read t.mem j = Memory.read s.mem j) ∧
            (t.crew ci).arch.fpflags = (s.crew ci).arch.fpflags ||| y.2.setWidth 64 ∧ ∀ k, k ≠ ci → t.crew k = s.crew k))

/-- A soft error restarts the chunks it reached and is counted: the four sectors of a poisoned line are remembered, a clean copy is
dropped (with the translations of its page: entry 53), an error in a register or in storage that no chunk can restore ends the
context or its teams, and changes nothing where no team of the context holds the storage; a corrected one locks its line and may spare
a row (R405). -/
def Obligations.SoftErrors : Prop :=
  (∀ e (s : State), ∃ t, exec (.softErrorDetected e) s = .next t ∧ t.mem = s.mem ∧ t.tags = s.tags ∧
    (∀ ci, e = .speculative ci → ci < s.crews.length → (s.crew ci).homes = [] → (s.crew ci).inFlight = true →
      Squashed (s.crew ci) (t.crew ci) ∧ (t.crew ci).consec = (s.crew ci).consec ∧ t.dying = s.dying) ∧
    (∀ pa, e = .cleanCopy pa → t.dying = s.dying ∧ (∀ x ∈ t.fetchCache, x ∈ s.fetchCache ∧ x.1 % 2 ^ 55 / 128 ≠ pa / 128) ∧
      (∀ x ∈ t.copies, x ∈ s.copies ∧ x.line ≠ pa / 128) ∧
      (∀ x ∈ t.tlb, x ∈ s.tlb ∧ ¬(x.leaf.toNat / 2 ^ 16 % 2 ^ 40 * 2 ^ 16 ≤ pa ∧ pa < x.leaf.toNat / 2 ^ 16 % 2 ^ 40 * 2 ^ 16 + x.size)) ∧
      ∀ k, k < s.crews.length → (∀ c ∈ s.crews, c.homes = []) → (s.crew k).inFlight = true → (s.crew k).hasRead (pa / 128) = true →
        Squashed (s.crew k) (t.crew k)) ∧
    (∀ pa, e = .line pa → if memRegion pa = none then t = s
      else (∀ j, j < 4 → 4 * (pa / 128) + j ∈ t.poisoned) ∧ (∀ l ∈ s.poisoned, l ∈ t.poisoned) ∧ t.bar (uncorrReg (homeDie pa)) = s.bar (uncorrReg (homeDie pa)) + 1 ∧
        ∀ k, k < s.crews.length → (∀ c ∈ s.crews, c.homes = []) → (s.crew k).inFlight = true → (s.crew k).hasRead (pa / 128) = true →
          Squashed (s.crew k) (t.crew k)) ∧
    (∀ ci r, e = .register ci r → ci < s.crews.length → (s.crew ci).place = .resident → (s.crew ci).homes = [] →
      if (s.crew ci).writtenInChunk (BitVec.toNat r) then Squashed (s.crew ci) (t.crew ci) ∧ t.dying = s.dying
      else t.crews = s.crews ∧ ∃ d, t.dying = s.dying ++ [d] ∧ d.asid = s.asidOf (s.crew ci) ∧ d.cause = 3 ∧ d.teams = [(s.crew ci).team]) ∧
    ∀ core asid, e = .storage core asid →
      let there := fun k => k < s.teams.length ∧ (s.grid (s.team k).grid).asid = asid ∧ (s.team k).place = .resident ∧ core ∈ (s.team k).cores
      t.crews = s.crews ∧ ((∀ k, ¬there k) → t = s) ∧ ((∃ k, there k) → ∃ d, t.dying = s.dying ++ [d] ∧ d.asid = asid ∧ d.cause = 3 ∧
        (∀ k, k ∈ d.teams ↔ there k) ∧ t.bar (uncorrReg (core / 48)) = s.bar (uncorrReg (core / 48)) + 1)) ∧
  ∀ pa spare (s : State), ∃ t, exec (.correctedError pa spare) s = .next t ∧ t.mem = s.mem ∧ t.crews = s.crews ∧
    (inWindow pa = true ∨ memRegion pa ≠ none → (∀ l, l ∈ t.locks ↔ l = pa / 128 ∨ l ∈ s.locks) ∧
      t.bar (corrReg (homeDie pa)) = s.bar (corrReg (homeDie pa)) + 1) ∧
    (∀ m ch, memRegion pa = some (m, ch) → spare = true → SMap.get 0 s.spared (16 * m + ch) < 64 →
      SMap.get 0 t.spared (16 * m + ch) = SMap.get 0 s.spared (16 * m + ch) + 1)

/-- A context that dies is DYING first: its crews and teams retire, its failure record is made up, and no other context's crew is
touched; with the next such event it is DEAD, its translations and faults are gone, the record stands at FAILREC and its grids have
ended with status DEAD (R402, R404); this happens when nothing relaunches (R99). The watchdog notes a context whose count has reached
WDQ (R403); in a four whose wait has timed out every crew present takes FOUR_MISMATCH, which is fatal (R44, R59); an accepted matrix
instruction finishes (R279). -/
def Obligations.ContextDeathAndExpiries : Prop :=
  ((∀ asid cause detail (s : State) d x, (s.dying.find? fun d => d.asid == asid && d.cause == cause && d.detail == detail) = some d →
    s.mayDeclare d = true → s.ctxOf asid = some x → x.state = .live → s.relaunches d = false →
    s.paUsable x.failrec = true → s.paUsable (x.failrec + 63) = true →
    ∃ t, exec (.declareDead asid cause detail) s = .next t ∧ t.mem = s.mem ∧
      (∀ y ∈ t.ctxs, y.slot = x.slot → y.state = .dying) ∧
      (∀ k, k < s.crews.length → s.asidOf (s.crew k) = asid → (s.team (s.crew k).team).place ≠ .retired → (s.crew k).team < s.teams.length →
        (t.crew k).place = .retired ∧ (t.crew k).arch = {} ∧ (t.crew k).chunk.bytes = []) ∧
      (∀ k, k < s.crews.length → s.asidOf (s.crew k) ≠ asid → t.crew k = s.crew k) ∧
      (∀ w ∈ t.waiting, (s.grid w.grid).asid ≠ asid) ∧
      ∃ r : List (BitVec 64), t.dying = (s.dying.filter fun e => e.asid != asid) ++ [{ d with record := r }] ∧ r.length = 8 ∧
        (r.getD 0 0).toNat = (d.cause + if d.cause = 1 then d.code * 2 ^ 8 else 0) % 2 ^ 64 ∧ r.getD 2 0 = d.lanes ∧ r.getD 3 0 = d.pc ∧
        r.getD 4 0 = d.detail ∧ r.getD 5 0 = s.clock) ∧
  ∀ asid cause detail (s : State) d x, (s.dying.find? fun d => d.asid == asid && d.cause == cause && d.detail == detail) = some d →
    s.mayDeclare d = true → s.ctxOf asid = some x → x.state = .dying → d.record.length = 8 → Lands x.failrec 64 →
    (∀ c ∈ s.crews, c.homes = []) →
    ∃ t, exec (.declareDead asid cause detail) s = .next t ∧
      (∀ y ∈ t.ctxs, y.slot = x.slot → y.state = .dead) ∧ (∀ e ∈ t.tlb, e.asid ≠ asid) ∧ (∀ f ∈ t.faults, f.asid ≠ asid) ∧
      (∀ g, g < s.grids.length → (s.grid g).asid = asid → (t.grid g).status = (s.grid g).status.or (some 3)) ∧
      (∀ j, j < 8 → Memory.nat t.mem (x.failrec + 8 * j) 8 = (d.record.getD j 0).toNat) ∧
      (∀ k, k < x.failrec ∨ x.failrec + 64 ≤ k → Memory.read t.mem k = Memory.read s.mem k) ∧
      ∀ k, k < s.crews.length →
        ((t.crew k).arch = (s.crew k).arch ∨ (t.crew k).arch = (s.crew k).chunk.start) ∧ (t.crew k).place = (s.crew k).place) ∧
  ((∀ asid (s : State), ∃ t, exec (.watchdogExpiry asid) s = .next t ∧
    ∀ x, s.ctxOf asid = some x → if x.state = .live ∧ x.wdq ≤ x.wdcount then
        t.dying = s.dying ++ [{ asid := asid, cause := 2 }] ∧ t.crews = s.crews ∧ ∀ y ∈ t.ctxs, y.slot = x.slot → y.wdcount = 0
      else t = s) ∧
  (∀ ci (s : State), ∃ t, exec (.fourWaitTimeout ci) s = .next t ∧ (s.fourTimedOut ci = false → t = s) ∧
    (s.fourTimedOut ci = true → s.dying <+: t.dying ∧ ∀ k, k < s.crews.length →
      let c := s.crew k
      let d : Doom := { code := 0x07, lanes := laneMask c.bundle, pc := c.pc }
      if k ∉ s.fourOf ci then t.crew k = c
      else if c.place ≠ .resident then
        t.crew k = c ∧ ∃ e ∈ t.dying, e.asid = s.asidOf c ∧ e.cause = 1 ∧ e.code = 0x07 ∧ e.crew = some k
      else if c.chunk.phase = .running then
        t.crew k = { c.beginCommit with doom := some d, wake := none, mreq := none, expansion := none }
      else t.crew k = { c with doom := c.doom.or (some d) })) ∧
  ∀ quad (s : State), ∃ t, exec (.matrixInstructionComplete quad) s = .next t ∧ (t.quad quad).busy = (s.quad quad).busy - 1 ∧
    (t.quad quad).acc = (s.quad quad).acc ∧ (∀ q, q ≠ quad → t.quad q = s.quad q) ∧ t.mem = s.mem ∧ t.crews = s.crews)

/-- A blocked crew may leave its slot with its registers, into its context's save area, where its whole record then stands; a saved
crew whose wake condition holds comes back to a free slot of its quadrant with the registers of its record, the replies of a `svc`
delivered, and goes on waiting at a queue (R51, R65, R66, R406-R408). How room in the save area is given is the model's choice
(entry 19). -/
def Obligations.CrewsLeaveAndReturn : Prop :=
  (∀ ci (s : State), ∃ t, exec (.crewEvict ci) s = .next t ∧
    let c := s.crew ci
    (¬(ci < s.crews.length ∧ s.evictable ci = true ∧ s.token ≠ some ci) → t = s) ∧
    (ci < s.crews.length → s.evictable ci = true → s.token ≠ some ci → c.pend = [] → (c.dirty = false → c.chunk.bytes = []) →
      let a := match c.wake with
        | some (.sector _) => c.chunk.start
        | _ => c.arch
      let n := { c with arch := a }.saveBytes
      let m := max n { c with arch := a }.recordBytes
      (t.crew ci).arch = a ∧ (t.crew ci).chunk.bytes = [] ∧ (t.crew ci).core = c.core ∧ (t.crew ci).quad = c.quad ∧
      (∀ k, k ≠ ci → t.crew k = s.crew k) ∧
      (s.takeSave (s.asidOf c) n = none → (t.crew ci).place = .resident ∧ t.mem = s.mem) ∧
      ∀ s1 x off, s.takeSave (s.asidOf c) n = some (s1, x, off) → (t.crew ci).place = .saved ∧
        (∃ y ∈ t.ctxs, y.slot = x.slot ∧ y.saveUsed = x.saveUsed + n) ∧
        ((∀ k, c.wake ≠ some (.sector k)) → t.crew ci = { c with
          wake := if c.wake = some .yielded then none else c.wake, place := .saved, saveAt := some (off, n), chunk := { start := c.arch } }) ∧
        ((x.savebase + off) % 16 = 0 → Lands (x.savebase + off) m → SMap.sorted a.spillFmt → (∀ e ∈ a.vregs, e.1 < 7168) →
          (∀ y ∈ a.threads, y.mstep < 32) → RecordOf t (x.savebase + off) (t.crew ci)) ∧
        ∀ k, k < x.savebase + off ∨ x.savebase + off + m ≤ k → Memory.read t.mem k = Memory.read s.mem k)) ∧
  (∀ ci (s : State), ∃ t, exec (.crewRestore ci) s = .next t ∧ (s.restoreDue ci = false → t = s) ∧
    (s.restoreDue ci = true → ci < s.crews.length → (∀ c ∈ s.crews, c.homes = []) →
      let c := s.crew ci
      let c' := t.crew ci
      let queue := fun core q => (∃ ls d, c.wake = some (.queuePop q core ls d)) ∨ ∃ is, c.wake = some (.queuePush q core is)
      (∀ core q, queue core q → ∃ k, qInstance (s.team c.team) (s.grid (s.team c.team).grid) core q = some (core, k) ∧
        s.queueBad c.team core q k = false) →
      (∀ x off n, s.ctxOf (s.asidOf c) = some x → c.saveAt = some (off, n) → RecordOf s (x.savebase + off) c →
        SMap.sorted c.arch.sregs → SMap.sorted c.arch.vregs → (∀ e ∈ c.arch.vregs, e.1 < 7168) →
        (∀ r l, r < 224 → l < 32 → makeWord (c.readV r l).tag (c.readV r l).payload = c.readV r l) → c.lateFrees = [] →
        (c.replies = [] ∨ c.svcLeft = none → ((∀ core q, ¬queue core q) → SameRegs c' c ∧ c'.wake = none) ∧
          ∀ core q, queue core q → ∃ u : State, SameRegs (u.crew ci) c ∧ (u.crew ci).wake = c.wake ∧ t = u.serveQueue c.team core q) ∧
        (∀ m ring last dest lanes, c.svcLeft = some (m, .svcReply ring last dest lanes) → c.replies ≠ [] → (c.replies.map Prod.fst).Nodup →
          (∀ e ∈ c.replies, e.1 < 32) → (∀ core q, ¬queue core q) → c'.svcLeft = none ∧ c'.wake = none ∧
          (∀ r l, r < 224 → l < 32 → c'.readV r l =
            if r = dest.toNat ∧ l ∈ c.replies.map Prod.fst then SMap.get .nil c.replies l else c.readV r l) ∧
          ∀ n, n < 31 → c'.readS n = if dest.toNat = 224 + n then (c.replies.headD (0, .nil)).2 else c.readS n)) ∧
      c'.place = .resident ∧ c'.core = c.core ∧ c'.quad = c.quad ∧ c'.crewId = c.crewId ∧
      (∀ k, k ≠ ci → (t.crew k).place = .resident → (t.crew k).quadNo = c'.quadNo → (t.crew k).slot ≠ c'.slot) ∧
      (t.slotsOf c'.quadNo).length ≤ 12 ∧ ((t.slotsOf c'.quadNo).map Crew.alloc).sum ≤ 1152))

/-- At the end of a quantum the next one is set and each context whose lowest die this is counts, or starts its count again (R382,
R403). Placement puts every team of the first waiting gang on cores of its die, with all its crews resident and at their entry
point, or stops until the quantum ends where the gang does not fit (R50, R52, R376, R381). That the die which counts for a
context is the lowest with a crew of it, or die 0 (entry 40), and that no gang is placed where room is kept for a saved crew
(entry 59), are the model's choices. -/
def Obligations.QuantaAndPlacement : Prop :=
  (∀ die (s : State), ∃ t, exec (.quantumExpiry die) s = .next t ∧
    t.quantumEnd die = s.clock.toNat + s.quantum die * Config.cyclesPerMicrosecond ∧
    (∀ d, d ≠ die → t.quantumEnd d = s.quantumEnd d) ∧
    ((s.ctxs.map Ctx.slot).Nodup → ∀ x ∈ s.ctxs, ∃ y ∈ t.ctxs, y.slot = x.slot ∧ y.asid = x.asid ∧ y.state = x.state ∧
      let mine := s.crews.filter (s.watched x.asid)
      if x.state = .live ∧ (if mine = [] then die = 0 else (∃ c ∈ mine, c.core / 48 = die) ∧ ∀ c ∈ mine, die ≤ c.core / 48) then
        y.wdcount = (if mine ≠ [] ∧ x.progress = false then x.wdcount + 1 else 0) ∧ y.progress = false
      else y.wdcount = x.wdcount ∧ y.progress = x.progress)) ∧
  (∀ die (s : State), ∃ t, exec (.gangPlacement die) s = .next t ∧
    ((s.residents die).filter s.canLeave = [] →
      (die ∈ s.stopped ∨ s.roomKept die = true → t = s) ∧
      (∀ w rest, die ∉ s.stopped → s.roomKept die = false → s.waitOrder die = w :: rest → s.tryPlace w = none →
        t = { s with stopped := insertNat s.stopped die }) ∧
      ∀ w s1, die ∉ s.stopped → s.roomKept die = false → s.waitOrder die = [w] → w.saved = false → s.tryPlace w = some s1 → (∀ k, k < s.teams.length → s.team k = t.team k) ∧
        ∀ j, j < (s.grid w.grid).teams → ∃ n, n < t.teams.length ∧ s.teams.length ≤ n ∧
          let x := t.team n
          x.grid = w.grid ∧ x.linear = w.gang * (s.grid w.grid).teams + j ∧ x.place = .resident ∧ x.cores ≠ [] ∧ (∀ k ∈ x.cores, k / 48 = die) ∧
          ∀ m, m < (s.grid w.grid).crews → ∃ c ∈ t.crews, c.team = n ∧ c.crewId = m ∧ c.place = .resident ∧ c.core ∈ x.cores ∧
            c.quad = m % 4 ∧ c.htab = (s.grid w.grid).htabv ∧
            (∀ l, l < 32 → c.thread l = { pc := BitVec.ofNat 64 ((s.grid w.grid).codebase + (s.grid w.grid).entry), st := .active }) ∧
            ∀ k, k < (s.grid w.grid).args.length → c.readS k = (s.grid w.grid).args.getD k .nil))

/-! ## Host, registers, boot -/

/-- A host write to the coherent window is one event: its bytes stand at once, nothing else changes, and every chunk that met them
restarts; a queue whose EN it sets is read and enabled with it, or has EN 0 again where a field is bad (R370); doorbells
are such writes; a read gives the bytes (R87, R366-R368, R371, R386). A host write through the aperture
reaches DRAM, and the device by the next dequeue at the latest; tags and the committed state do not change at once; each byte of a
read is DRAM's or the device's (R96, R365, R369, R372). -/
def Obligations.HostAccesses : Prop :=
  ((∀ off n v (s : State), ∃ t, exec (.hostWindowWrite off n v) s = .next t ∧
    (s.windowOk off n = false ∨ s.eventWaits (Config.windowBase + off) n = true ∨ windowHosts off = false → t = s) ∧
    (s.windowOk off n = true → s.eventWaits (Config.windowBase + off) n = false → windowHosts off = true →
      (∀ c ∈ s.crews, c.svcLeft = none ∧ c.homes = []) →
      let u := written s off (leBytes n (BitVec.toNat v))
      let q := off / 128
      t.tags = s.tags ∧
      (¬EnablesBad u off → Memory.bytes t.mem (Config.windowBase + off) n = leBytes n (BitVec.toNat v) ∧
        (∀ k, k < Config.windowBase + off ∨ Config.windowBase + off + n ≤ k → Memory.read t.mem k = Memory.read s.mem k) ∧
        ∀ k, k < s.crews.length → if (s.crew k).inFlight && writeMeets (eventLocs (Config.windowBase + off) n) (s.crew k) then
          Squashed (s.crew k) (t.crew k) else t.crew k = s.crew k) ∧
      (EnablesBad u off → t.sqWord q 8 = u.sqWord q 8 - 2 ^ 32 ∧ (t.subQ q).en = false ∧
        ∀ k, k < Config.windowBase + 128 * q + 8 ∨ Config.windowBase + 128 * q + 16 ≤ k → Memory.read t.mem k = Memory.read u.mem k) ∧
      (off < 0x2000 → u.enableDue q = true → ∀ x, u.readSq q = some x → t.subQ q = x) ∧
      (off < 0x2000 → (u.sqWord q 8).testBit 32 = false → (t.subQ q).en = false))) ∧
  (∀ off n (s : State), ∃ t, exec (.hostWindowRead off n) s = .next t ∧ { t with hostRead := s.hostRead } = s ∧
    (s.windowOk off n = false → t.hostRead = List.replicate n 0xFF) ∧
    (s.windowOk off n = true → s.eventWaits (Config.windowBase + off) n = true → t = s) ∧
    (s.windowOk off n = true → s.eventWaits (Config.windowBase + off) n = false →
      t.hostRead = if 0x2010 ≤ off ∧ off < 0x10000 then List.replicate n 0 else Memory.bytes s.mem (Config.windowBase + off) n)) ∧
  (∀ q v s, q < 64 → exec (.sqDoorbell q v) s = exec (.hostWindowWrite (128 * q + 0x10) 8 v) s ∧
    exec (.cqheadWrite q v) s = exec (.hostWindowWrite (128 * q + 0x40) 8 v) s) ∧
  ∀ ring v s, exec (.serviceDoorbell ring v) s = exec (.hostWindowWrite (ring + 0x18) 8 v) s) ∧
  ((∀ off data (s : State), ∃ t, exec (.hostApertureWrite off data) s = .next t ∧ t.mem = s.mem ∧ t.tags = s.tags ∧ t.crews = s.crews ∧
    (s.aperture off data.length = none → t = s) ∧
    ∀ pa, s.aperture off data.length = some pa → ∀ k,
      Memory.read t.dram k = (if pa ≤ k ∧ k < pa + data.length then data.getD (k - pa) 0 else Memory.read s.dram k) ∧
      Memory.read t.coxView.mem k = if pa ≤ k ∧ k < pa + data.length then data.getD (k - pa) 0 else Memory.read s.coxView.mem k) ∧
  ∀ off n (s : State), ∃ t, exec (.hostApertureRead off n) s = .next t ∧ t.hostRead.length = n ∧ t.mem = s.mem ∧ t.dram = s.dram ∧
    (s.aperture off n = none → ∀ b ∈ t.hostRead, b = 0xFF) ∧
    ∀ pa, s.aperture off n = some pa → ∀ j, j < n →
      t.hostRead.getD j 0 = Memory.read s.dram (pa + j) ∨ t.hostRead.getD j 0 = Memory.read s.coxView.mem (pa + j))

/-- The replies of a parked crew are its own once DOORBELL has reached the end of its records: it may wake with the words they hold
(R386). A `svc` that waited for room in its ring is performed when there is room, as the instruction would have been (R238, R386). -/
def Obligations.ServiceRing : Prop :=
  (∀ off v (s : State) ci k ring last dest lanes p, s.windowOk (off + 0x18) 8 = true → s.eventWaits (Config.windowBase + (off + 0x18)) 8 = false →
    windowHosts (off + 0x18) = true → 0x2000 ≤ off → ci < s.crews.length →
    (∀ c ∈ s.crews, c.homes = []) → (∀ j, j ≠ ci → (s.crew j).svcLeft = none) →
    let c := s.crew ci
    c.place = .saved → c.replies = [] → c.inFlight = false → c.svcLeft = some (k, .svcReply ring last dest lanes) →
    c.wake = some (.svcReply ring last dest lanes) →
    let s1 := s.eventWrite none (Config.windowBase + (off + 0x18)) (leBytes 8 (BitVec.toNat v))
    s1.walkNow (s.asidOf c) ring true false false = .ok p → p.key ring = Config.windowBase + off →
    ∃ t, exec (.serviceDoorbell off v) s = .next t ∧
      if last ≤ v.toNat then (t.crew ci).wake = none ∧ (t.crew ci).replies = lanes.map fun l =>
          (l.1, replyWord (Memory.nat s1.mem (l.2 + 0x20) 8) (Memory.nat s1.mem (l.2 + 0x28) 8))
      else t.crew ci = c ∧ t.mem = s1.mem) ∧
  (∀ ci (s : State), ∃ t, exec (.svcRingEvent ci) s = .next t ∧
    let c := s.crew ci
    ((c.wake ≠ some .svcEvent ∨ s.token ≠ none) → t = s) ∧
    ∀ w n lk o r, c.wake = some .svcEvent → s.token = none → ci < s.crews.length → c.place = .saved → (∀ b ∈ s.crews, b.homes = []) →
      c.pend = [] → c.expansion = none →
      s.fetchWord c.core (s.asidOf c) c.pc.toNat = .ok w → instrOf (BitVec.toNat w) = .svc n lk o →
      s.ringAt c.core (s.asidOf c) c.svcq.toNat = some r →
      let i : Instr := .svc n lk o
      let exe := execLanes i c c.bundle
      if r.room exe.length = false then t = s
      else
        let c' := t.crew ci
        let x : Wake := .svcReply c.svcq.toNat (r.tail + exe.length) (BitVec.ofNat 8 (s.destOf i c (exe.headD 0)))
          ((List.range exe.length).map fun j => (exe.getD j 0, r.key + 64 + 64 * ((r.tail + j) % r.cap)))
        c'.svcLeft = some (BitVec.toNat lk, x) ∧ c'.wake = (if lk = 0 ∧ c'.replies = [] then some x else none) ∧ c'.place = .saved ∧ c'.clk1 = c.clk1 + 1 ∧
        (∀ l, c'.thread l = if l ∈ c.bundle then { c.thread l with pc := (c.thread l).pc + 8 } else c.thread l) ∧
        ∀ f l, f < 224 → l < 32 → c'.readV f l = if l ∈ exe ∧ f ∈ s.lastUses i c l then .undef else c.readV f l)

/-- Commands leave their queue in order, one by one, each with its number, cookie and status: FLUSH, COPY, FENCE and SIGNAL do their
work and complete DONE, a LAUNCH enters its grid, a command that breaks a rule completes REFUSED (R371-R374). Enabling a queue
reads a good descriptor, and a bad one leaves EN at 0; a completion writes its record, counts, and DONE moves over all that have
counted (R370, R375). -/
def Obligations.SubmissionQueues : Prop :=
  (∀ q (s : State) x w op, Dequeues s q op x w → QuietFor s x → q < 64 →
    (∀ i, (i = .launch q ∧ op = 1) ∨ (i = .flush q ∧ op = 2) ∨ (∃ d, i = .copy q d ∧ op = 3 ∧ copyHas d s w = true) ∨ (i = .sqFence q ∧ op = 4) ∨
        (i = .signal q ∧ op = 5) → cmdReserved w = true →
      ∃ t, exec i s = .next t ∧ Dequeued s t q x w (some 2) ∧ t.dram = s.dram ∧ t.grids = s.grids) ∧
    (op = 1 → cmdReserved w = false →
      ∃ t, exec (.launch q) s = .next t ∧ t.mem = (taken s q x w).mem ∧
        (w 0x10 % 128 ≠ 0 → Dequeued s t q x w (some 2) ∧ t.grids = s.grids) ∧
        (w 0x10 % 128 = 0 → s.paUsable (w 0x10) = true → s.paUsable (w 0x10 + 127) = true → ∀ s1, s1 = taken s q x w →
          match s1.coxView.parseRecord (fun j => Memory.nat s1.coxView.mem (w 0x10 + 8 * j) 8) (.command q x.head) none with
          | none => Dequeued s t q x w (some 2) ∧ t.grids = s.grids
          | some g => Dequeued s t q x w none ∧ t.grids.length = s.grids.length + 1 ∧
              (t.grid s.grids.length).asid = g.asid ∧ (t.grid s.grids.length).origin = .command q x.head ∧
              (t.grid s.grids.length).codebase = g.codebase)) ∧
    (op = 2 → cmdReserved w = false →
      ∃ t, exec (.flush q) s = .next t ∧
        if 2 ^ 40 < w 0x18 then Dequeued s t q x w (some 2) ∧ t.dram = s.dram
        else Dequeued s t q x w (some 0) ∧ ∀ s1, s1 = taken s q x w →
          let met := fun l => 0 < w 0x18 ∧ 128 * l < w 0x10 + w 0x18 ∧ w 0x10 < 128 * l + 128
          t.tags = s1.tags ∧ (∀ l, l ∈ t.unflushed ↔ l ∈ s.unflushed ∧ ¬met l) ∧
          (∀ e, e ∈ t.fetchCache ↔ e ∈ s1.fetchCache ∧ ¬met (e.1 % 2 ^ 55 / 128)) ∧ (∀ e, e ∈ t.copies ↔ e ∈ s1.copies ∧ ¬met e.line) ∧
          (HostPieces s → ∀ k,
            Memory.read t.mem k = (if met (k / 128) then (hostByte s k).getD (Memory.read s1.mem k) else Memory.read s1.mem k) ∧
            Memory.read t.dram k = if met (k / 128) ∧ k / 128 ∈ s.unflushed then (hostByte s k).getD (Memory.read s1.mem k)
              else Memory.read s.dram k)) ∧
    (op = 3 → cmdReserved w = false → ∀ data, copyHas data s w = true →
      ∃ t, exec (.copy q data) s = .next t ∧ ∀ s1, s1 = taken s q x w →
        let base := Memory.nat s1.mem (Config.windowBase + 0x2000) 8
        let size := Memory.nat s1.mem (Config.windowBase + 0x2008) 8
        let pa := w 0x18
        let n := w 0x20
        if n = 0 ∨ 2 ^ 32 < n ∨ pa < base ∨ base + size < pa + n ∨ s.runUsable pa n = false then
          Dequeued s t q x w (some 2) ∧ t.dram = s.dram
        else Dequeued s t q x w (some 0) ∧
          if w 0x28 % 2 = 0 then
            if inWindow pa = true then t.dram = s.dram ∧
              ∀ j, j < n → Config.windowBase + 0x10000 ≤ pa + j → Memory.read t.mem (pa + j) = data.getD j 0
            else t.mem = s1.mem ∧
              ∀ k, Memory.read t.dram k = if pa ≤ k ∧ k < pa + n then data.getD (k - pa) 0 else Memory.read s.dram k
          else t.dram = s.dram ∧ ∃ bs, t.hostMem = some (w 0x10, bs) ∧ bs.length = n ∧
            ∀ j, j < n → bs.getD j 0 = Memory.read s.dram (pa + j) ∨ bs.getD j 0 = Memory.read s1.coxView.mem (pa + j)) ∧
    (op = 4 → cmdReserved w = false →
      ∃ t, exec (.sqFence q) s = .next t ∧ Dequeued s t q x w (some 0) ∧ (t.subQ q).fenceQ = some (w 0x10, w 0x18) ∧ t.dram = s.dram) ∧
    (op = 5 → cmdReserved w = false →
      ∃ t, exec (.signal q) s = .next t ∧
        if w 0x10 % 8 ≠ 0 ∨ Config.windowBytes ≤ w 0x10 then Dequeued s t q x w (some 2) ∧ t.msix = s.msix
        else t.msix = s.msix ++ (if (w 0x20).testBit 8 then [w 0x20 % 256] else []) ∧
          Dequeued s t q x w (some 0) ∧
          (windowHosts (w 0x10) = true → Memory.nat t.mem (Config.windowBase + w 0x10) 8 = w 0x18 % 2 ^ 64 -
            if w 0x10 % 128 = 8 ∧ EnablesBad (written (taken s q x w) (w 0x10) (leBytes 8 (w 0x18))) (w 0x10) then 2 ^ 32 else 0))) ∧
  ((∀ q (s : State), ∃ t, exec (.sqEnable q) s = .next t ∧ (q < 64 → s.enableDue q = true →
    (∀ x, s.readSq q = some x → t.subQ q = x ∧ x.en = true ∧ x.cap = s.sqWord q 8 % 2 ^ 17 ∧ x.base = s.sqWord q 0 ∧ t.mem = s.mem) ∧
    (s.readSq q = none → (t.sqWord q 8).testBit 32 = false ∧ ∀ p, t.subQ p = s.subQ p)) ∧
    (64 ≤ q ∨ s.enableDue q = false → t = s)) ∧
  ∀ q k (s : State), ∃ t, exec (.commandCompletion q k) s = .next t ∧ (s.completes q k = none → t = s) ∧
    ∀ x c, s.completes q k = some (x, c) → q < 64 → 0x10000 ≤ x.cqoff → x.q = q →
      let a := Config.windowBase + x.cqoff + 32 * (x.cqtail % x.cqcap)
      (c.norec = false → Memory.nat t.mem a 8 = k % 2 ^ 64 ∧ Memory.nat t.mem (a + 8) 8 = c.cookie.toNat ∧
        Memory.nat t.mem (a + 16) 8 = (c.status.getD 0 + c.op * 2 ^ 8) % 2 ^ 64 ∧ Memory.nat t.mem (a + 24) 8 = c.time.toNat ∧
        (t.subQ q).cqtail = x.cqtail + 1 ∧ t.msix = s.msix ++ if x.cirq then [x.vec] else []) ∧
      (c.norec = true → t.msix = s.msix ∧ (t.subQ q).cqtail = x.cqtail) ∧
      x.done ≤ (t.subQ q).done ∧ (∀ j, x.done ≤ j → j < (t.subQ q).done → ∃ y ∈ x.cmds, y.k = j ∧ (y.counted = true ∨ j = k)) ∧
      t.sqWord q 0x20 = (t.subQ q).done % 2 ^ 64)

/-- A write of a context slot's CTL on the four dies binds a context when EN rises and unbinds it when EN falls (R387); LIFTASID
empties the lift unless it names the binding there is (R71). TLBINV drops exactly the translations it names and restarts the
chunks that used them; MIGRATE moves a page's bytes and tags, writes its leaf entry, restarts the chunks that used the page and
performs the requests parked for it in its new place (R394, R400). That the move is one step, that
one with a bad operand moves nothing, and that one waits for the commit token and for scrub locks in the new place is the model's choice
(entry 41). -/
def Obligations.ContextsAndTranslations : Prop :=
  ((∀ slot ctl (s : State), ∃ t, exec (.contextEnable slot ctl) s = .next t ∧ t.mem = s.mem ∧ t.crews = s.crews ∧
    (64 ≤ slot ∨ s.boot.phase ≠ .ready → t = s) ∧
    (slot < 64 → s.boot.phase = .ready →
      (∀ d, d < 4 → t.bar (ctxReg d slot 8) = ctl &&& 0xFFFFFFFF0003FFFF) ∧
      (ctl.getLsbD 16 = true → (∀ x ∈ s.ctxs, x.slot ≠ slot) → ∃ x, t.ctxs = s.ctxs ++ [x] ∧ x.slot = slot ∧ x.state = .live ∧ x.en = true ∧
        x.asid = BitVec.toNat ctl % 2 ^ 16 ∧ x.debug = ctl.getLsbD 17 ∧ x.root = (s.bar (ctxReg 0 slot 0x00)).toNat ∧
        x.savebase = (s.bar (ctxReg 0 slot 0x10)).toNat ∧ x.savesize = (s.bar (ctxReg 0 slot 0x18)).toNat ∧
        x.failrec = (s.bar (ctxReg 0 slot 0x20)).toNat ∧ x.wdq = if ctl.toNat / 2 ^ 32 = 0 then 4096 else ctl.toNat / 2 ^ 32) ∧
      (∀ x ∈ s.ctxs, x.slot = slot → (∀ y ∈ s.ctxs, y.slot = slot → y = x) →
        (ctl.getLsbD 16 = true → x.en = true → t.ctxs = s.ctxs) ∧
        (ctl.getLsbD 16 = false → (x.state = .dead ∨ ∀ g ∈ s.grids, g.asid = x.asid → g.status ≠ none) → ∀ y ∈ t.ctxs, y.slot ≠ slot) ∧
        (ctl.getLsbD 16 = false → x.state ≠ .dead → (∃ g ∈ s.grids, g.asid = x.asid ∧ g.status = none) → { x with en := false } ∈ t.ctxs)))) ∧
  (∀ die v (s : State), ∃ t, exec (.liftasid die v) s = .next t ∧ t.mem = s.mem ∧ t.crews = s.crews ∧
    (4 ≤ die ∨ s.boot.phase ≠ .ready → t = s) ∧
    (die < 4 → s.boot.phase = .ready → (∀ d, d ≠ die → t.lift d = s.lift d) ∧
      (t.lift die).asid = BitVec.toNat v % 2 ^ 16 ∧ (t.lift die).en = v.getLsbD 16 ∧
      (t.lift die).entries = if v.getLsbD 16 = true ∧ (s.lift die).en = true ∧ (s.lift die).asid = v.toNat % 2 ^ 16 then (s.lift die).entries else []))) ∧
  ((∀ v (s : State), ∃ t, exec (.tlbInvalidate v) s = .next t ∧ t.mem = s.mem ∧ t.tags = s.tags ∧
    (s.boot.phase ≠ .ready → t = s) ∧
    (s.boot.phase = .ready → (s.bar 0x28).getLsbD 63 = true → t.tlb = s.tlb ∧ t.crews = s.crews ∧ t.bar 0x28 = s.bar 0x28 ||| BitVec.ofNat 64 (2 ^ 62)) ∧
    (s.boot.phase = .ready → (s.bar 0x28).getLsbD 63 = false →
      let lo := (s.bar 0x30).toNat
      let hit : Nat → Nat → Prop := fun base size =>
        BitVec.getLsbD v 16 = true ∨ base < lo + (s.bar 0x38).toNat ∧ lo < base + size
      (∀ e, e ∈ t.tlb ↔ e ∈ s.tlb ∧ ¬(e.asid = v.toNat % 2 ^ 16 ∧ hit e.base e.size)) ∧ (t.bar 0x28).getLsbD 63 = true ∧
      ∀ k, k < s.crews.length → (∀ c ∈ s.crews, c.homes = []) → s.asidOf (s.crew k) = v.toNat % 2 ^ 16 → (s.crew k).inFlight = true →
        (∃ p ∈ (s.crew k).chunk.pages, hit p.1 p.2) → Squashed (s.crew k) (t.crew k))) ∧
  (∀ v (s : State), ∃ t, exec (.migrate v) s = .next t ∧
    let asid := BitVec.toNat v % 2 ^ 16
    let mva := (s.bar 0x48).toNat
    let mpa := (s.bar 0x50).toNat
    let walk := s.walkNow asid mva false false false
    let locked := fun (p : Page) => ∃ l ∈ s.locks, mpa ≤ 128 * l ∧ 128 * l < mpa + p.size
    (s.boot.phase ≠ .ready → t = s) ∧
    (s.boot.phase = .ready → (s.bar 0x40).getLsbD 63 = true →
      { t with bar0 := s.bar0 } = s ∧ t.bar 0x40 = s.bar 0x40 ||| BitVec.ofNat 64 (2 ^ 62) ∧ ∀ a, a ≠ 0x40 → t.bar a = s.bar a) ∧
    (s.boot.phase = .ready → (s.bar 0x40).getLsbD 63 = false → (s.token ≠ none ∨ ∃ p, walk = .ok p ∧ locked p) →
      t.migration = some (asid, mva, mpa) ∧ t.bar 0x40 = BitVec.ofNat 64 (asid + 2 ^ 63) ∧ { t with bar0 := s.bar0, migration := s.migration } = s) ∧
    ∀ x p, s.boot.phase = .ready → (s.bar 0x40).getLsbD 63 = false → s.token = none → s.ctxOf asid = some x → walk = .ok p → ¬locked p →
      t.migration = none ∧ t.bar 0x40 = BitVec.ofNat 64 asid ∧
      if mpa % p.size ≠ 0 ∨ s.runUsable mpa p.size = false ∨ mpa = p.pa then t.mem = s.mem ∧ t.crews = s.crews ∧ t.tlb = s.tlb
      else
        let a := leafEntry s mva walkLevels x.root
        let inOld := fun k => p.pa ≤ k ∧ k < p.pa + p.size
        let hit := fun (base size : Nat) => base < p.base + p.size ∧ p.base < base + size
        SMap.sorted s.mem = true → SMap.sorted s.tags = true → (a + 8 ≤ mpa ∨ mpa + p.size ≤ a) → (p.pa + p.size ≤ mpa ∨ mpa + p.size ≤ p.pa) →
          Lands a 8 → p.pa % 8 = 0 → p.size % 8 = 0 → (∀ c ∈ s.crews, c.homes = []) →
          (∀ e ∈ t.tlb, ¬(e.asid = asid ∧ hit e.base e.size)) ∧
          ((∀ r ∈ s.parked, ¬inOld r.req.key) →
            t.parked = s.parked ∧
            (∀ j, j < p.size → Memory.read t.mem (mpa + j) = Memory.read s.mem (p.pa + j)) ∧
            (∀ j, 8 * j < p.size → Tags.read t.tags (mpa / 8 + j) = Tags.read s.tags (p.pa / 8 + j)) ∧
            Memory.nat t.mem a 8 = (p.leaf.toNat % 2 ^ 16 + mpa) % 2 ^ 64 ∧
            (∀ k, (k < mpa ∨ mpa + p.size ≤ k) → (k < a ∨ a + 8 ≤ k) → Memory.read t.mem k = Memory.read s.mem k) ∧
            (∀ k, (8 * k < mpa ∨ mpa + p.size ≤ 8 * k) → Tags.read t.tags k = Tags.read s.tags k) ∧
            ∀ k, k < s.crews.length → s.asidOf (s.crew k) = asid → (s.crew k).inFlight = true → (∃ g ∈ (s.crew k).chunk.pages, hit g.1 g.2) →
              Squashed (s.crew k) (t.crew k)) ∧
          ∀ slice ci op ty tagged r, s.parked = [⟨slice, .red ci op ty tagged r⟩] → op ≠ .xchg →
            let n := (atomAcc op ty).bytes
            inOld r.key → r.key + n ≤ p.pa + p.size → Lands (r.key - p.pa + mpa) n → (s.crew ci).saveAt = none → t.parked = [] ∧
              Memory.nat t.mem (r.key - p.pa + mpa) n = (applied op ty (BitVec.ofNat 64 (Memory.nat s.mem r.key n)) r.x).1.toNat % 256 ^ n))

/-- A register write reaches one register, or starts the command its register stands for; what is misaligned or outside a register's
column is ignored, and so is a write to a part that is not ready, but for the first block and the mailbox (R364, R416, R420, R421); a
4-byte write changes the half it names. CTL of a context slot is read on die 0 (R387, R422). CANCEL ends the grid of a command with
status CANCELLED and stops its teams (R375); a route change, a port switched off and a port that loses lanes put what is not
acknowledged on planes that are up and read the route table anew (R423, R426, R428). That a value outside its column changes nothing, that
undefined bits read 0 and that a context slot's CTL is read on die 0 (entry 26), that a 4-byte write keeps the other half as read
(entry 46), and that a CANCEL which finds the commit token held is performed later (entry 41), are the model's choices. -/
def Obligations.RegisterMap : Prop :=
  ((∀ a n v (s : State), ∃ t, exec (.registerWrite a n v) s = .next t ∧
    ((n ≠ 8 ∨ a % 8 ≠ 0) → (n ≠ 4 ∨ a % 4 ≠ 0) → t = s) ∧
    (n = 4 → a % 4 = 0 →
      let old := s.regRead (a / 8 * 8)
      exec (.registerWrite (a / 8 * 8) 8 (BitVec.ofNat 64
        (if a % 8 = 0 then old / 2 ^ 32 * 2 ^ 32 + BitVec.toNat v % 2 ^ 32 else old % 2 ^ 32 + v.toNat % 2 ^ 32 * 2 ^ 32))) s = .next t) ∧
    (n = 8 → a ∈ plainRegisters →
      (¬ Served s a → t = s) ∧ (Served s a → kept s.barLog a v = none → t = s) ∧
      ∀ x, Served s a → kept s.barLog a v = some x → t.bar a = x ∧ (∀ b, b ≠ a → t.bar b = s.bar b) ∧ { t with bar0 := s.bar0 } = s)) ∧
  ∀ v (s : State), s.boot.phase = .ready →
    exec (.registerWrite 0x18 8 v) s = exec (.faultringWrite v) s ∧ exec (.registerWrite 0x28 8 v) s = exec (.tlbInvalidate v) s ∧
    exec (.registerWrite 0x40 8 v) s = exec (.migrate v) s ∧ exec (.registerWrite 0x58 8 v) s = exec (.cancel v) s ∧
    exec (.registerWrite 0x70 8 v) s = exec (.faultheadWrite v) s ∧ exec (.registerWrite 0x28F0028 8 1) s = exec .reroute s ∧
    (BitVec.toNat v / 2 ^ 48 % 4 = 1 → exec (.registerWrite 0x20 8 v) s = exec (.faultRetry (v.toNat % 2 ^ 48)) (s.setBar 0x20 0)) ∧
    (v.toNat / 2 ^ 48 % 4 = 2 → exec (.registerWrite 0x20 8 v) s = exec (.faultKill (v.toNat % 2 ^ 48)) (s.setBar 0x20 0)) ∧
    (∀ p ∈ [(1, Instr.readFailrec), (2, .imageBegin), (3, .imageChunk), (4, .imageCommit), (5, .clearalt), (6, .reset)],
      v.toNat % 256 = p.1 → exec (.registerWrite 0x3000000 8 v) s = exec p.2 s) ∧
    (∀ die, die < 4 → exec (.registerWrite (0x100008 + 0x40000 * die) 8 v) s = exec (.liftasid die v) s) ∧
    ∀ slot, slot < 64 →
      (∃ t u, exec (.registerWrite (ctxReg 0 slot 8) 8 v) s = .next t ∧ exec (.contextEnable slot v) s = .next u ∧ t.ctxs = u.ctxs ∧
        t.bar (ctxReg 0 slot 8) = v &&& 0xFFFFFFFF0003FFFF ∧ (∀ b, b ≠ ctxReg 0 slot 8 → t.bar b = s.bar b) ∧
        { t with bar0 := s.bar0, ctxs := s.ctxs } = s) ∧
      ∀ die, 1 ≤ die → die < 4 →
        exec (.registerWrite (ctxReg die slot 8) 8 v) s = .next (s.setBar (ctxReg die slot 8) (v &&& 0xFFFFFFFF0003FFFF))) ∧
  ((∀ v (s : State), ∃ t, exec (.cancel v) s = .next t ∧ t.mem = s.mem ∧
    (s.boot.phase ≠ .ready → t = s) ∧
    (s.boot.phase = .ready → s.token ≠ none → t = { s with cancels := s.cancels ++ [(BitVec.toNat v % 64, (s.bar 0x60).toNat)] }) ∧
    (∀ gi, s.boot.phase = .ready → s.token = none → s.cancels = [] →
      ((List.range s.grids.length).find? fun g => (s.grid g).origin == .command (BitVec.toNat v % 64) (s.bar 0x60).toNat && (s.grid g).status.isNone) = some gi →
      (t.grid gi).status = some 4 ∧ (∀ w ∈ t.waiting, w.grid ≠ gi) ∧
      (∀ k, k < s.teams.length → (s.team k).grid = gi → (t.team k).place = .retired) ∧
      ∀ c ∈ t.crews, c.team < s.teams.length → (s.team c.team).grid = gi → (s.team c.team).place ≠ .retired → c.place = .retired ∧ c.chunk.bytes = []) ∧
    (s.token = none → s.cancels = [] → ((List.range s.grids.length).find? fun g =>
      (s.grid g).origin == .command (v.toNat % 64) (s.bar 0x60).toNat && (s.grid g).status.isNone) = none → t = s)) ∧
  (∀ s : State, ∃ t, exec .reroute s = .next t ∧ t.mem = s.mem ∧ t.crews = s.crews ∧
    (∀ p, SamePort (SMap.get {} s.ports p) (SMap.get {} t.ports p)) ∧
    (∀ d, d < 2 ^ 21 → SMap.get 0 t.routes d = BitVec.ofNat 32 (Memory.nat s.mem ((s.bar 0x28F0020).toNat + 4 * d) 4)) ∧
    ∀ (j : Nat) (f : FarOut), s.far[j]? = some f → ∃ p, t.far[j]? = some { f with plane := p } ∧
      (f.answer = none → ∀ n, s.planeTo f.op.dst = some n → p = some n) ∧ (f.answer ≠ none → ∀ n, f.plane = some n → p = some n)) ∧
  (∀ port v (s : State), ∃ t, exec (.pctlWrite port v) s = .next t ∧ t.mem = s.mem ∧ t.crews = s.crews ∧ (18 ≤ port → t = s) ∧
    (port < 18 → SamePort { SMap.get {} s.ports port with en := BitVec.getLsbD v 0 } (SMap.get {} t.ports port) ∧
      (∀ p, p ≠ port → SamePort (SMap.get {} s.ports p) (SMap.get {} t.ports p)) ∧
      (s.portUp port = true → v.getLsbD 0 = false → ∀ f ∈ t.far, f.answer = none → f.plane ≠ some port))) ∧
  (∀ port lanes (s : State), ∃ t, exec (.linkPortDown port lanes) s = .next t ∧ t.mem = s.mem ∧ t.crews = s.crews ∧
    (port < 18 → lanes < 8 → SamePort { SMap.get {} s.ports port with lanes := lanes } (SMap.get {} t.ports port) ∧
      (∀ p, p ≠ port → SamePort (SMap.get {} s.ports p) (SMap.get {} t.ports p)) ∧
      (s.portUp port = true → lanes < 4 → t.portUp port = false ∧ ∀ f ∈ t.far, f.answer = none → f.plane ≠ some port))))

/-- After every reset nothing of memory, crews or contexts is left while the flash keeps its image and records; a boot counts, ends in
recovery on a bad image, and with sound parts brings the device up, the engines' microcode loaded; a step that failed last time and
has no alternative leads to the safe state (with step 1 for an example); throttling changes nothing (R413-R416, R418, R419, R432). The
mailbox's commands: a busy one only notes that a command was lost; an upload takes contiguous chunks, and a commit writes a good
image of the announced length to flash, refusing any other (R417-R419). That memory is empty after every reset (entry 3), that a failed
step without alternative leads to the safe state without being run again (entry 20), and that a power loss while an image is written
leaves the empty one (entry 47), are the model's choices. -/
def Obligations.BootAndMailbox : Prop :=
  ((∀ s : State, ∃ t, exec .reset s = .next t ∧ (s.boot.phase = .inReset → t = s) ∧
    (s.boot.phase ≠ .inReset → s.boot.busy = true → t = { s with boot := { s.boot with lost := true } }) ∧
    (s.boot.phase ≠ .inReset → s.boot.busy = false → t.boot.phase = .inReset ∧ t.mem = [] ∧ t.crews = [] ∧ t.ctxs = [] ∧
      t.boot.number = s.boot.number ∧ t.boot.ring = s.boot.ring ∧ t.boot.thermTrip = false ∧ (s.boot.flashing = none → t.boot.image = s.boot.image))) ∧
  (∀ s : State, ∃ t, exec .thermalTrip s = .next t ∧ t.boot.phase = .inReset ∧ t.mem = [] ∧ t.crews = [] ∧ t.ctxs = [] ∧ t.msix = [] ∧
    t.boot.thermTrip = true ∧ t.boot.ring = s.boot.ring) ∧
  (∀ s : State, exec .throttle s = .next s) ∧
  (∀ s : State, ∃ t, exec .powerLoss s = .next t ∧ t.boot.phase = .inReset ∧ t.mem = [] ∧ t.crews = [] ∧ t.ctxs = [] ∧
    (s.boot.phase ≠ .inReset → t.boot.number = s.boot.number ∧ t.boot.ring = s.boot.ring ∧ (s.boot.flashing ≠ none → t.boot.image = .stored [])) ∧
    (s.boot.phase = .inReset → t.boot.number = s.boot.number + 1 ∧ t.boot.image = s.boot.image)) ∧
  ∀ s : State, ∃ t, exec .deviceReset s = .next t ∧ t.boot.number = s.boot.number + 1 ∧ t.boot.clearAlt = false ∧
    (s.boot.phase ≠ .inReset → t.mem = [] ∧ t.crews = [] ∧ t.ctxs = []) ∧
    (s.boot.phase = .inReset → t.mem = s.mem ∧ t.boot.image = s.boot.image ∧
      ((∀ r ∈ s.boot.ring, r.boot ≤ s.boot.number) →
        (s.boot.image.good = false → t.boot.phase = .recovery ∧ t.boot.failed = some (0, 0, 2) ∧ t.microcode = none ∧ t.controlSram = []) ∧
        (s.boot.image.good = true → s.boot.weak = [] → (∀ n step unit, failedIn (s.boot.ring.drop n) s.boot.number step unit = false) →
          t.boot.phase = .ready ∧ t.boot.failed = none ∧ t.microcode = some s.boot.image) ∧
        (s.boot.image.good = true → s.boot.weak = [] → s.boot.clearAlt = false → altsOf s.boot.alts 1 0 = 0 → s.boot.ring.length ≤ 32768 →
          (∀ n, n ≤ 2 → failedIn (s.boot.ring.drop n) s.boot.number 1 0 = true) →
          t.boot.phase = .safe ∧ t.boot.failed = some (1, 0, 1))))) ∧
  (∀ s : State, s.boot.phase ≠ .inReset →
    (∀ i ∈ [Instr.readFailrec, .imageBegin, .imageChunk, .imageCommit, .clearalt], ∃ t, exec i s = .next t ∧ t.mem = s.mem ∧ t.crews = s.crews ∧
      t.boot.phase = s.boot.phase ∧ t.boot.image = s.boot.image ∧
      (s.boot.busy = true → t = { s with boot := { s.boot with lost := true } }) ∧
      (s.boot.busy = false → t.boot.lost = false ∧ t.boot.ring = s.boot.ring ∧
        (i = .readFailrec → t.boot.result = 0 ∧ Memory.bytes t.boot.data 0 s.boot.failRec.length = s.boot.failRec) ∧
        (i = .imageBegin → t.boot.result = 0 ∧ t.boot.upload = some (s.arg 0, [])) ∧
        (i = .imageChunk → (s.boot.upload = none → t.boot.result = 3) ∧ ∀ n bs, s.boot.upload = some (n, bs) →
          if s.arg 0 ≠ bs.length ∨ n < bs.length + s.arg 1 then t.boot.result = 3 ∧ t.boot.upload = none
          else if 65536 < s.arg 1 then t.boot.result = 1 ∧ t.boot.upload = some (n, bs)
          else t.boot.result = 0 ∧ t.boot.upload = some (n, bs ++ Memory.bytes s.boot.data 0 (s.arg 1))) ∧
        (i = .imageCommit → t.boot.upload = none ∧ (s.boot.upload = none → t.boot.result = 3) ∧ ∀ n bs, s.boot.upload = some (n, bs) →
          if bs.length ≠ n then t.boot.result = 2 ∧ t.boot.flashing = s.boot.flashing
          else if s.boot.flashing ≠ none then t.boot.result = 3
          else if imageGood bs then t.boot.result = 0 ∧ t.boot.flashing = some bs ∧ t.boot.busy = true
          else t.boot.result = 2 ∧ t.boot.flashing = none) ∧
        (i = .clearalt → t.boot.result = 0 ∧ t.boot.clearAlt = true))) ∧
    ∀ bs, ∃ t, exec (.pldmFirmwareUpdate bs) s = .next t ∧
      if s.boot.flashing = none ∧ imageGood bs = true then t = { s with boot := { s.boot with flashing := some bs, busy := false } } else t = s)

/-! ## Steps, encoding, invariants -/

/-- A step takes an outside event that is due, else a macro body's next operation, else an event of the machine's own, else an event
of an engine or the selected crew's instruction: the word at its PC, decoded, with the core's instruction cache noting the line; an
illegal word executes as the trap it is (R14, R55, R179, R190, R195, R197). Which comes first among outside events, events of the
machine, engines and bundles is the model’s choice (entries 1, 2 and 4); between an engine's event and a bundle it is free. -/
def Obligations.StepRunsDecoded : Prop :=
  ∀ s s1 : State, s1 = s.tick.housekeep.markReady → s1.clock = s.clock + 1 ∧
    (∀ i rest, s1.takeInbox [] s1.inbox = some (i, rest) → step s = exec i { s1 with inbox := rest }) ∧
    (s1.takeInbox [] s1.inbox = none → s1.boot.phase = .inReset → step s = exec .deviceReset s1) ∧
    (s1.takeInbox [] s1.inbox = none → (s1.boot.phase = .safe ∨ s1.boot.phase = .recovery) → step s = .next s1) ∧
    (s1.takeInbox [] s1.inbox = none → s1.boot.phase = .ready →
      (∀ k e, s1.expanding = some k → (s1.crew k).expansion = some e → step s = exec
        (if e.illegal then .illegalInstruction (BitVec.ofNat 8 (e.word.toNat / 2 ^ 56)) true else instrOf e.word.toNat)
        { s1 with focus := some k }) ∧
      (∀ i, s1.expanding = none → s1.nextEvent? = some i → step s = exec i s1) ∧
      (s1.expanding = none → s1.nextEvent? = none →
        (∀ i, s1.engineDue = some i → (s1.engineFirst = true ∨ ∃ s2, s1.pick = (s2, none)) →
          step s = exec i { s1 with freeCtr := s1.freeCtr + 2, enginesPassed := 0 }) ∧
        (∀ s2, s1.engineDue = none → s1.pick = (s2, none) → step s = .next s2) ∧
        ∀ s2 k, s1.pick = (s2, some k) → (s1.engineDue = none ∨ s1.engineFirst = false) → k < s1.crews.length →
          s2.focus = some k ∧ s2.mem = s1.mem ∧ (∀ j, (s2.crew j).arch = (s1.crew j).arch ∧ (s2.crew j).chunk = (s1.crew j).chunk) ∧
          let c := s2.crew k
          let fetch : BitVec 64 → Except Nat (BitVec 64) := fun a => s2.fetchWord c.core (s2.asidOf c) a.toNat
          ∃ s3 : State, { s3 with copies := s2.copies, freeCtr := s2.freeCtr, enginesPassed := s2.enginesPassed } = s2 ∧
            (s1.engineDue ≠ none → s3.enginesPassed = s1.enginesPassed + 1) ∧
          (∀ w i, fetch c.pc = .ok w → opFormat (w.toNat / 2 ^ 56) ≠ some .x → decode w.toNat = .ok i → step s = exec i s3) ∧
          (∀ w b, fetch c.pc = .ok w → opFormat (w.toNat / 2 ^ 56) ≠ some .x → decode w.toNat = .illegalEncoding b →
            step s = exec (.illegalInstruction b true) s3) ∧
          (∀ w cause, c.pc.toNat + 8 < 2 ^ 64 → fetch c.pc = .ok w → opFormat (w.toNat / 2 ^ 56) = some .x → fetch (c.pc + 8) = .error cause →
            step s = exec (.translationFault k (c.pc + 8) cause false true false) s3) ∧
          (∀ cause, fetch c.pc = .error cause → step s = exec (.translationFault k c.pc cause false true false) s3) ∧
          ∀ w w2 i, c.pc.toNat + 8 < 2 ^ 64 → fetch c.pc = .ok w → opFormat (w.toNat / 2 ^ 56) = some .x → fetch (c.pc + 8) = .ok w2 →
            decode (w.toNat + 2 ^ 64 * w2.toNat) = .ok i → step s = exec i s3))

/-- Words written out from the spec's encodings are the instructions they stand for: one of each format, a reserved bit, an event. -/
def Obligations.DecodeWords : Prop :=
  decode 0x2000101020000000 = .ok (.iadd .i64 { d := 1, a := 1, b := 2 }) ∧
  decode 0x3A00200000000004 = .ok (.movi .i64 4 { d := 2 }) ∧
  decode 0x0B00403020000000 = .ok (.cmplt .rne { d := 4, a := 3, b := 2 }) ∧
  decode 0x4000604050000C40 = .ok (.fadd .f32 .rup { d := 6, a := 4, b := 5 }) ∧
  decode 0x910050AFF0000008 = .ok (.st .w { d := 5, base := 10, off := 8 }) ∧
  decode 0x81004FFFFFFFFFFC = .ok (.brt ⟨4, true, BitVec.ofInt 43 (-4)⟩) ∧
  decode (0xE00000A0C1400006 + 0x15000000 * 2 ^ 64) = .ok (.xld 6 { f1 := 10, f2 := 12, f3 := 20, f4 := 21 }) ∧
  decode 0xB500300002504000 = .illegalEncoding 0xB5 ∧ decode 0 = .ok (.illegalInstruction 0 false) ∧
  decode 0x1600000000000000 = .ok (.routedInstruction 0x1600000000000000)

/-- Every well-formed instruction is read back from its encoding, with every operand at every value the encoding admits; and an
instruction word that decodes has no other bits than its encoding's, so a reserved bit that is set is refused (R180-R185, R195). -/
def Obligations.DecodeEncode : Prop :=
  (∀ i : Instr, i.wellFormed = true → decode (encode i) = .ok i) ∧
  ∀ w i, decode w = .ok i → (opFormat (opByte w)).isSome = true → i.wellFormed = true ∧ encode i = w

/-- Memory, what DRAM holds and the tags keep their canonical form at every step and every instruction, so that states with equal
contents are equal. -/
def Obligations.MemoryStaysCanonical : Prop :=
  (∀ i s t, Canonical s → exec i s = .next t → Canonical t) ∧ ∀ s t, Canonical s → step s = .next t → Canonical t

/-- Right after reset nothing is resident, the lifts are empty and unbound (R71), the quantum of each die is 1 ms (R382), CLOCK is 0
(R193), the part is not ready, and memory is canonical. Memory with nothing listed is the model's choice (entry 3). -/
def Obligations.ResetValues : Prop :=
  let s := State.reset
  Canonical s ∧ s.mem = [] ∧ s.crews = [] ∧ s.teams = [] ∧ s.grids = [] ∧ s.ctxs = [] ∧ s.clock = 0 ∧ s.boot.phase = .inReset ∧
    (∀ d, s.lift d = { entries := [], asid := 0, en := false }) ∧ (∀ d, d < 4 → s.quantum d = 1000) ∧
    s.regRead 0x000 % 2 ^ 32 = 0x09004E47 ∧ s.regRead 0x008 = 0 ∧ s.regRead 0x100 = 0xFFF
end

