-- ==== Sys2Proof/Laws/Encoding.lean ====
section
/-! SUPPORT. Fields of an instruction word: taking apart what was put together gives the fields back (R180-R184). -/

namespace Sys2Proof

-- One declaration at a time: the checks run together would hold too much memory.
set_option Elab.async false

theorem part_of (n lo H f L w : Nat) (hw : w = H * 2 ^ (lo + n) + f * 2 ^ lo + L) (hf : f < 2 ^ n) (hL : L < 2 ^ lo) :
    w / 2 ^ lo % 2 ^ n = f := by
  have : w = L + 2 ^ lo * (H * 2 ^ n + f) := by rw [hw, pow_add]; ring
  rw [this, Nat.add_mul_div_left _ _ (by positivity), Nat.div_eq_of_lt hL, Nat.zero_add, Nat.mul_comm, Nat.mul_add_mod,
    Nat.mod_eq_of_lt hf]

theorem bits_of (n lo H L w : Nat) (b : BitVec n) (hw : w = H * 2 ^ (lo + n) + b.toNat * 2 ^ lo + L) (hL : L < 2 ^ lo) :
    bits n lo w = b := by
  apply BitVec.eq_of_toNat_eq
  rw [bits, BitVec.toNat_ofNat, part_of n lo H b.toNat L w hw b.isLt hL]

theorem bool_lt (b : Bool) : b.toNat < 2 := by cases b <;> decide

theorem bit_of (lo H L w : Nat) (b : Bool) (hw : w = H * 2 ^ (lo + 1) + b.toNat * 2 ^ lo + L) (hL : L < 2 ^ lo) :
    bit lo w = b := by
  rw [bit, show w / 2 ^ lo % 2 = b.toNat from part_of 1 lo H b.toNat L w hw (bool_lt b) hL]; cases b <;> rfl

/-- The opcode of a word taken apart. -/
def Raw.op : Raw → Nat
  | .r op .. | .i op .. | .m op .. | .b op .. | .x op .. => op

/-- The opcode's format is that of the word taken apart. -/
def Raw.fits : Raw → Prop
  | .r op .. => opFormat op = some .r | .i op .. => opFormat op = some .i | .m op .. => opFormat op = some .m
  | .b op .. => opFormat op = some .b | .x op .. => opFormat op = some .x

theorem field_r_var (op : Nat) (var : BitVec 4) (rm : BitVec 3) (ty : BitVec 4) (o : ROps) :
    bits 4 52 (Raw.r op var rm ty o).word = var := by
  have := rm.isLt; have := ty.isLt; have := o.d.isLt; have := o.a.isLt
  have := o.b.isLt; have := o.c.isLt; have := bool_lt o.la; have := bool_lt o.lb
  have := bool_lt o.lc; have := o.lk.isLt; have := bool_lt o.xd; have := bool_lt o.xa
  exact bits_of 4 52
    (op)
    (rm.toNat * 2 ^ 10 + ty.toNat * 2 ^ 6 + o.d.toNat * 2 ^ 44 + o.a.toNat * 2 ^ 36 + o.b.toNat * 2 ^ 28 + o.c.toNat * 2 ^ 20 + o.la.toNat * 2 ^ 19 + o.lb.toNat * 2 ^ 18 + o.lc.toNat * 2 ^ 17 + o.lk.toNat * 2 ^ 13 + o.xd.toNat * 2 ^ 5 + o.xa.toNat * 2 ^ 4) _ _
    (by simp only [Raw.word]; ring) (by omega)

theorem field_r_rm (op : Nat) (var : BitVec 4) (rm : BitVec 3) (ty : BitVec 4) (o : ROps) :
    bits 3 10 (Raw.r op var rm ty o).word = rm := by
  have := ty.isLt; have := bool_lt o.xd; have := bool_lt o.xa
  exact bits_of 3 10
    (var.toNat * 2 ^ 39 + o.d.toNat * 2 ^ 31 + o.a.toNat * 2 ^ 23 + o.b.toNat * 2 ^ 15 + o.c.toNat * 2 ^ 7 + o.la.toNat * 2 ^ 6 + o.lb.toNat * 2 ^ 5 + o.lc.toNat * 2 ^ 4 + o.lk.toNat + op * 2 ^ 43)
    (ty.toNat * 2 ^ 6 + o.xd.toNat * 2 ^ 5 + o.xa.toNat * 2 ^ 4) _ _
    (by simp only [Raw.word]; ring) (by omega)

theorem field_r_ty (op : Nat) (var : BitVec 4) (rm : BitVec 3) (ty : BitVec 4) (o : ROps) :
    bits 4 6 (Raw.r op var rm ty o).word = ty := by
  have := bool_lt o.xd; have := bool_lt o.xa
  exact bits_of 4 6
    (var.toNat * 2 ^ 42 + rm.toNat + o.d.toNat * 2 ^ 34 + o.a.toNat * 2 ^ 26 + o.b.toNat * 2 ^ 18 + o.c.toNat * 2 ^ 10 + o.la.toNat * 2 ^ 9 + o.lb.toNat * 2 ^ 8 + o.lc.toNat * 2 ^ 7 + o.lk.toNat * 2 ^ 3 + op * 2 ^ 46)
    (o.xd.toNat * 2 ^ 5 + o.xa.toNat * 2 ^ 4) _ _
    (by simp only [Raw.word]; ring) (by omega)

theorem field_r_d (op : Nat) (var : BitVec 4) (rm : BitVec 3) (ty : BitVec 4) (o : ROps) :
    bits 8 44 (Raw.r op var rm ty o).word = o.d := by
  have := rm.isLt; have := ty.isLt; have := o.a.isLt; have := o.b.isLt
  have := o.c.isLt; have := bool_lt o.la; have := bool_lt o.lb; have := bool_lt o.lc
  have := o.lk.isLt; have := bool_lt o.xd; have := bool_lt o.xa
  exact bits_of 8 44
    (var.toNat + op * 2 ^ 4)
    (rm.toNat * 2 ^ 10 + ty.toNat * 2 ^ 6 + o.a.toNat * 2 ^ 36 + o.b.toNat * 2 ^ 28 + o.c.toNat * 2 ^ 20 + o.la.toNat * 2 ^ 19 + o.lb.toNat * 2 ^ 18 + o.lc.toNat * 2 ^ 17 + o.lk.toNat * 2 ^ 13 + o.xd.toNat * 2 ^ 5 + o.xa.toNat * 2 ^ 4) _ _
    (by simp only [Raw.word]; ring) (by omega)

theorem field_r_a (op : Nat) (var : BitVec 4) (rm : BitVec 3) (ty : BitVec 4) (o : ROps) :
    bits 8 36 (Raw.r op var rm ty o).word = o.a := by
  have := rm.isLt; have := ty.isLt; have := o.b.isLt; have := o.c.isLt
  have := bool_lt o.la; have := bool_lt o.lb; have := bool_lt o.lc; have := o.lk.isLt
  have := bool_lt o.xd; have := bool_lt o.xa
  exact bits_of 8 36
    (var.toNat * 2 ^ 8 + o.d.toNat + op * 2 ^ 12)
    (rm.toNat * 2 ^ 10 + ty.toNat * 2 ^ 6 + o.b.toNat * 2 ^ 28 + o.c.toNat * 2 ^ 20 + o.la.toNat * 2 ^ 19 + o.lb.toNat * 2 ^ 18 + o.lc.toNat * 2 ^ 17 + o.lk.toNat * 2 ^ 13 + o.xd.toNat * 2 ^ 5 + o.xa.toNat * 2 ^ 4) _ _
    (by simp only [Raw.word]; ring) (by omega)

theorem field_r_b (op : Nat) (var : BitVec 4) (rm : BitVec 3) (ty : BitVec 4) (o : ROps) :
    bits 8 28 (Raw.r op var rm ty o).word = o.b := by
  have := rm.isLt; have := ty.isLt; have := o.c.isLt; have := bool_lt o.la
  have := bool_lt o.lb; have := bool_lt o.lc; have := o.lk.isLt; have := bool_lt o.xd
  have := bool_lt o.xa
  exact bits_of 8 28
    (var.toNat * 2 ^ 16 + o.d.toNat * 2 ^ 8 + o.a.toNat + op * 2 ^ 20)
    (rm.toNat * 2 ^ 10 + ty.toNat * 2 ^ 6 + o.c.toNat * 2 ^ 20 + o.la.toNat * 2 ^ 19 + o.lb.toNat * 2 ^ 18 + o.lc.toNat * 2 ^ 17 + o.lk.toNat * 2 ^ 13 + o.xd.toNat * 2 ^ 5 + o.xa.toNat * 2 ^ 4) _ _
    (by simp only [Raw.word]; ring) (by omega)

theorem field_r_c (op : Nat) (var : BitVec 4) (rm : BitVec 3) (ty : BitVec 4) (o : ROps) :
    bits 8 20 (Raw.r op var rm ty o).word = o.c := by
  have := rm.isLt; have := ty.isLt; have := bool_lt o.la; have := bool_lt o.lb
  have := bool_lt o.lc; have := o.lk.isLt; have := bool_lt o.xd; have := bool_lt o.xa
  exact bits_of 8 20
    (var.toNat * 2 ^ 24 + o.d.toNat * 2 ^ 16 + o.a.toNat * 2 ^ 8 + o.b.toNat + op * 2 ^ 28)
    (rm.toNat * 2 ^ 10 + ty.toNat * 2 ^ 6 + o.la.toNat * 2 ^ 19 + o.lb.toNat * 2 ^ 18 + o.lc.toNat * 2 ^ 17 + o.lk.toNat * 2 ^ 13 + o.xd.toNat * 2 ^ 5 + o.xa.toNat * 2 ^ 4) _ _
    (by simp only [Raw.word]; ring) (by omega)

theorem field_r_la (op : Nat) (var : BitVec 4) (rm : BitVec 3) (ty : BitVec 4) (o : ROps) :
    bit 19 (Raw.r op var rm ty o).word = o.la := by
  have := rm.isLt; have := ty.isLt; have := bool_lt o.lb; have := bool_lt o.lc
  have := o.lk.isLt; have := bool_lt o.xd; have := bool_lt o.xa
  exact bit_of 19
    (var.toNat * 2 ^ 32 + o.d.toNat * 2 ^ 24 + o.a.toNat * 2 ^ 16 + o.b.toNat * 2 ^ 8 + o.c.toNat + op * 2 ^ 36)
    (rm.toNat * 2 ^ 10 + ty.toNat * 2 ^ 6 + o.lb.toNat * 2 ^ 18 + o.lc.toNat * 2 ^ 17 + o.lk.toNat * 2 ^ 13 + o.xd.toNat * 2 ^ 5 + o.xa.toNat * 2 ^ 4) _ _
    (by simp only [Raw.word]; ring) (by omega)

theorem field_r_lb (op : Nat) (var : BitVec 4) (rm : BitVec 3) (ty : BitVec 4) (o : ROps) :
    bit 18 (Raw.r op var rm ty o).word = o.lb := by
  have := rm.isLt; have := ty.isLt; have := bool_lt o.lc; have := o.lk.isLt
  have := bool_lt o.xd; have := bool_lt o.xa
  exact bit_of 18
    (var.toNat * 2 ^ 33 + o.d.toNat * 2 ^ 25 + o.a.toNat * 2 ^ 17 + o.b.toNat * 2 ^ 9 + o.c.toNat * 2 ^ 1 + o.la.toNat + op * 2 ^ 37)
    (rm.toNat * 2 ^ 10 + ty.toNat * 2 ^ 6 + o.lc.toNat * 2 ^ 17 + o.lk.toNat * 2 ^ 13 + o.xd.toNat * 2 ^ 5 + o.xa.toNat * 2 ^ 4) _ _
    (by simp only [Raw.word]; ring) (by omega)

theorem field_r_lc (op : Nat) (var : BitVec 4) (rm : BitVec 3) (ty : BitVec 4) (o : ROps) :
    bit 17 (Raw.r op var rm ty o).word = o.lc := by
  have := rm.isLt; have := ty.isLt; have := o.lk.isLt; have := bool_lt o.xd
  have := bool_lt o.xa
  exact bit_of 17
    (var.toNat * 2 ^ 34 + o.d.toNat * 2 ^ 26 + o.a.toNat * 2 ^ 18 + o.b.toNat * 2 ^ 10 + o.c.toNat * 2 ^ 2 + o.la.toNat * 2 ^ 1 + o.lb.toNat + op * 2 ^ 38)
    (rm.toNat * 2 ^ 10 + ty.toNat * 2 ^ 6 + o.lk.toNat * 2 ^ 13 + o.xd.toNat * 2 ^ 5 + o.xa.toNat * 2 ^ 4) _ _
    (by simp only [Raw.word]; ring) (by omega)

theorem field_r_lk (op : Nat) (var : BitVec 4) (rm : BitVec 3) (ty : BitVec 4) (o : ROps) :
    bits 4 13 (Raw.r op var rm ty o).word = o.lk := by
  have := rm.isLt; have := ty.isLt; have := bool_lt o.xd; have := bool_lt o.xa
  exact bits_of 4 13
    (var.toNat * 2 ^ 35 + o.d.toNat * 2 ^ 27 + o.a.toNat * 2 ^ 19 + o.b.toNat * 2 ^ 11 + o.c.toNat * 2 ^ 3 + o.la.toNat * 2 ^ 2 + o.lb.toNat * 2 ^ 1 + o.lc.toNat + op * 2 ^ 39)
    (rm.toNat * 2 ^ 10 + ty.toNat * 2 ^ 6 + o.xd.toNat * 2 ^ 5 + o.xa.toNat * 2 ^ 4) _ _
    (by simp only [Raw.word]; ring) (by omega)

theorem field_r_xd (op : Nat) (var : BitVec 4) (rm : BitVec 3) (ty : BitVec 4) (o : ROps) :
    bit 5 (Raw.r op var rm ty o).word = o.xd := by
  have := bool_lt o.xa
  exact bit_of 5
    (var.toNat * 2 ^ 46 + rm.toNat * 2 ^ 4 + ty.toNat + o.d.toNat * 2 ^ 38 + o.a.toNat * 2 ^ 30 + o.b.toNat * 2 ^ 22 + o.c.toNat * 2 ^ 14 + o.la.toNat * 2 ^ 13 + o.lb.toNat * 2 ^ 12 + o.lc.toNat * 2 ^ 11 + o.lk.toNat * 2 ^ 7 + op * 2 ^ 50)
    (o.xa.toNat * 2 ^ 4) _ _
    (by simp only [Raw.word]; ring) (by omega)

theorem field_r_xa (op : Nat) (var : BitVec 4) (rm : BitVec 3) (ty : BitVec 4) (o : ROps) :
    bit 4 (Raw.r op var rm ty o).word = o.xa := by
  exact bit_of 4
    (var.toNat * 2 ^ 47 + rm.toNat * 2 ^ 5 + ty.toNat * 2 ^ 1 + o.d.toNat * 2 ^ 39 + o.a.toNat * 2 ^ 31 + o.b.toNat * 2 ^ 23 + o.c.toNat * 2 ^ 15 + o.la.toNat * 2 ^ 14 + o.lb.toNat * 2 ^ 13 + o.lc.toNat * 2 ^ 12 + o.lk.toNat * 2 ^ 8 + o.xd.toNat + op * 2 ^ 51)
    (0) _ _
    (by simp only [Raw.word]; ring) (by omega)

theorem opByte_r (op : Nat) (var : BitVec 4) (rm : BitVec 3) (ty : BitVec 4) (o : ROps) (_h : op < 256) :
    opByte (Raw.r op var rm ty o).word = op := by
  have := var.isLt; have := rm.isLt; have := ty.isLt; have := o.d.isLt
  have := o.a.isLt; have := o.b.isLt; have := o.c.isLt; have := bool_lt o.la
  have := bool_lt o.lb; have := bool_lt o.lc; have := o.lk.isLt; have := bool_lt o.xd
  have := bool_lt o.xa
  exact part_of 8 56 (0) op (var.toNat * 2 ^ 52 + rm.toNat * 2 ^ 10 + ty.toNat * 2 ^ 6 + o.d.toNat * 2 ^ 44 + o.a.toNat * 2 ^ 36 + o.b.toNat * 2 ^ 28 + o.c.toNat * 2 ^ 20 + o.la.toNat * 2 ^ 19 + o.lb.toNat * 2 ^ 18 + o.lc.toNat * 2 ^ 17 + o.lk.toNat * 2 ^ 13 + o.xd.toNat * 2 ^ 5 + o.xa.toNat * 2 ^ 4) _
    (by simp only [Raw.word]; ring) _h (by omega)

theorem parse_r (w : Nat) (op : Nat) (var : BitVec 4) (rm : BitVec 3) (ty : BitVec 4) (o : ROps) (ho : opByte w = op) (hf : opFormat op = some .r)
    (h0 : bits 4 52 w = var)
    (h1 : bits 3 10 w = rm)
    (h2 : bits 4 6 w = ty)
    (h3 : bits 8 44 w = o.d)
    (h4 : bits 8 36 w = o.a)
    (h5 : bits 8 28 w = o.b)
    (h6 : bits 8 20 w = o.c)
    (h7 : bit 19 w = o.la)
    (h8 : bit 18 w = o.lb)
    (h9 : bit 17 w = o.lc)
    (h10 : bits 4 13 w = o.lk)
    (h11 : bit 5 w = o.xd)
    (h12 : bit 4 w = o.xa) :
    Raw.parse w = some (Raw.r op var rm ty o) := by
  simp only [Raw.parse, ho, hf, h0, h1, h2, h3, h4, h5, h6, h7, h8, h9, h10, h11, h12]

theorem field_i_var (op : Nat) (var : BitVec 4) (imm : BitVec 32) (o : IOps) :
    bits 4 52 (Raw.i op var imm o).word = var := by
  have := imm.isLt; have := o.d.isLt; have := o.a.isLt; have := bool_lt o.la
  have := bool_lt o.xd; have := bool_lt o.xa
  exact bits_of 4 52
    (op)
    (imm.toNat + o.d.toNat * 2 ^ 44 + o.a.toNat * 2 ^ 36 + o.la.toNat * 2 ^ 35 + o.xd.toNat * 2 ^ 34 + o.xa.toNat * 2 ^ 33) _ _
    (by simp only [Raw.word]; ring) (by omega)

theorem field_i_imm (op : Nat) (var : BitVec 4) (imm : BitVec 32) (o : IOps) :
    bits 32 0 (Raw.i op var imm o).word = imm := by
  exact bits_of 32 0
    (var.toNat * 2 ^ 20 + o.d.toNat * 2 ^ 12 + o.a.toNat * 2 ^ 4 + o.la.toNat * 2 ^ 3 + o.xd.toNat * 2 ^ 2 + o.xa.toNat * 2 ^ 1 + op * 2 ^ 24)
    (0) _ _
    (by simp only [Raw.word]; ring) (by omega)

theorem field_i_d (op : Nat) (var : BitVec 4) (imm : BitVec 32) (o : IOps) :
    bits 8 44 (Raw.i op var imm o).word = o.d := by
  have := imm.isLt; have := o.a.isLt; have := bool_lt o.la; have := bool_lt o.xd
  have := bool_lt o.xa
  exact bits_of 8 44
    (var.toNat + op * 2 ^ 4)
    (imm.toNat + o.a.toNat * 2 ^ 36 + o.la.toNat * 2 ^ 35 + o.xd.toNat * 2 ^ 34 + o.xa.toNat * 2 ^ 33) _ _
    (by simp only [Raw.word]; ring) (by omega)

theorem field_i_a (op : Nat) (var : BitVec 4) (imm : BitVec 32) (o : IOps) :
    bits 8 36 (Raw.i op var imm o).word = o.a := by
  have := imm.isLt; have := bool_lt o.la; have := bool_lt o.xd; have := bool_lt o.xa
  exact bits_of 8 36
    (var.toNat * 2 ^ 8 + o.d.toNat + op * 2 ^ 12)
    (imm.toNat + o.la.toNat * 2 ^ 35 + o.xd.toNat * 2 ^ 34 + o.xa.toNat * 2 ^ 33) _ _
    (by simp only [Raw.word]; ring) (by omega)

theorem field_i_la (op : Nat) (var : BitVec 4) (imm : BitVec 32) (o : IOps) :
    bit 35 (Raw.i op var imm o).word = o.la := by
  have := imm.isLt; have := bool_lt o.xd; have := bool_lt o.xa
  exact bit_of 35
    (var.toNat * 2 ^ 16 + o.d.toNat * 2 ^ 8 + o.a.toNat + op * 2 ^ 20)
    (imm.toNat + o.xd.toNat * 2 ^ 34 + o.xa.toNat * 2 ^ 33) _ _
    (by simp only [Raw.word]; ring) (by omega)

theorem field_i_xd (op : Nat) (var : BitVec 4) (imm : BitVec 32) (o : IOps) :
    bit 34 (Raw.i op var imm o).word = o.xd := by
  have := imm.isLt; have := bool_lt o.xa
  exact bit_of 34
    (var.toNat * 2 ^ 17 + o.d.toNat * 2 ^ 9 + o.a.toNat * 2 ^ 1 + o.la.toNat + op * 2 ^ 21)
    (imm.toNat + o.xa.toNat * 2 ^ 33) _ _
    (by simp only [Raw.word]; ring) (by omega)

theorem field_i_xa (op : Nat) (var : BitVec 4) (imm : BitVec 32) (o : IOps) :
    bit 33 (Raw.i op var imm o).word = o.xa := by
  have := imm.isLt
  exact bit_of 33
    (var.toNat * 2 ^ 18 + o.d.toNat * 2 ^ 10 + o.a.toNat * 2 ^ 2 + o.la.toNat * 2 ^ 1 + o.xd.toNat + op * 2 ^ 22)
    (imm.toNat) _ _
    (by simp only [Raw.word]; ring) (by omega)

theorem opByte_i (op : Nat) (var : BitVec 4) (imm : BitVec 32) (o : IOps) (_h : op < 256) :
    opByte (Raw.i op var imm o).word = op := by
  have := var.isLt; have := imm.isLt; have := o.d.isLt; have := o.a.isLt
  have := bool_lt o.la; have := bool_lt o.xd; have := bool_lt o.xa
  exact part_of 8 56 (0) op (var.toNat * 2 ^ 52 + imm.toNat + o.d.toNat * 2 ^ 44 + o.a.toNat * 2 ^ 36 + o.la.toNat * 2 ^ 35 + o.xd.toNat * 2 ^ 34 + o.xa.toNat * 2 ^ 33) _
    (by simp only [Raw.word]; ring) _h (by omega)

theorem parse_i (w : Nat) (op : Nat) (var : BitVec 4) (imm : BitVec 32) (o : IOps) (ho : opByte w = op) (hf : opFormat op = some .i)
    (h0 : bits 4 52 w = var)
    (h1 : bits 32 0 w = imm)
    (h2 : bits 8 44 w = o.d)
    (h3 : bits 8 36 w = o.a)
    (h4 : bit 35 w = o.la)
    (h5 : bit 34 w = o.xd)
    (h6 : bit 33 w = o.xa) :
    Raw.parse w = some (Raw.i op var imm o) := by
  simp only [Raw.parse, ho, hf, h0, h1, h2, h3, h4, h5, h6]

theorem field_m_var (op : Nat) (var : BitVec 4) (o : MOps) :
    bits 4 52 (Raw.m op var o).word = var := by
  have := o.d.isLt; have := o.base.isLt; have := o.idx.isLt; have := bool_lt o.ld
  have := bool_lt o.lbase; have := bool_lt o.lidx; have := o.lk.isLt; have := o.sc.isLt
  have := o.off.isLt
  exact bits_of 4 52
    (op)
    (o.d.toNat * 2 ^ 44 + o.base.toNat * 2 ^ 36 + o.idx.toNat * 2 ^ 28 + o.ld.toNat * 2 ^ 27 + o.lbase.toNat * 2 ^ 26 + o.lidx.toNat * 2 ^ 25 + o.lk.toNat * 2 ^ 21 + o.sc.toNat * 2 ^ 19 + o.off.toNat) _ _
    (by simp only [Raw.word]; ring) (by omega)

theorem field_m_d (op : Nat) (var : BitVec 4) (o : MOps) :
    bits 8 44 (Raw.m op var o).word = o.d := by
  have := o.base.isLt; have := o.idx.isLt; have := bool_lt o.ld; have := bool_lt o.lbase
  have := bool_lt o.lidx; have := o.lk.isLt; have := o.sc.isLt; have := o.off.isLt
  exact bits_of 8 44
    (var.toNat + op * 2 ^ 4)
    (o.base.toNat * 2 ^ 36 + o.idx.toNat * 2 ^ 28 + o.ld.toNat * 2 ^ 27 + o.lbase.toNat * 2 ^ 26 + o.lidx.toNat * 2 ^ 25 + o.lk.toNat * 2 ^ 21 + o.sc.toNat * 2 ^ 19 + o.off.toNat) _ _
    (by simp only [Raw.word]; ring) (by omega)

theorem field_m_base (op : Nat) (var : BitVec 4) (o : MOps) :
    bits 8 36 (Raw.m op var o).word = o.base := by
  have := o.idx.isLt; have := bool_lt o.ld; have := bool_lt o.lbase; have := bool_lt o.lidx
  have := o.lk.isLt; have := o.sc.isLt; have := o.off.isLt
  exact bits_of 8 36
    (var.toNat * 2 ^ 8 + o.d.toNat + op * 2 ^ 12)
    (o.idx.toNat * 2 ^ 28 + o.ld.toNat * 2 ^ 27 + o.lbase.toNat * 2 ^ 26 + o.lidx.toNat * 2 ^ 25 + o.lk.toNat * 2 ^ 21 + o.sc.toNat * 2 ^ 19 + o.off.toNat) _ _
    (by simp only [Raw.word]; ring) (by omega)

theorem field_m_idx (op : Nat) (var : BitVec 4) (o : MOps) :
    bits 8 28 (Raw.m op var o).word = o.idx := by
  have := bool_lt o.ld; have := bool_lt o.lbase; have := bool_lt o.lidx; have := o.lk.isLt
  have := o.sc.isLt; have := o.off.isLt
  exact bits_of 8 28
    (var.toNat * 2 ^ 16 + o.d.toNat * 2 ^ 8 + o.base.toNat + op * 2 ^ 20)
    (o.ld.toNat * 2 ^ 27 + o.lbase.toNat * 2 ^ 26 + o.lidx.toNat * 2 ^ 25 + o.lk.toNat * 2 ^ 21 + o.sc.toNat * 2 ^ 19 + o.off.toNat) _ _
    (by simp only [Raw.word]; ring) (by omega)

theorem field_m_ld (op : Nat) (var : BitVec 4) (o : MOps) :
    bit 27 (Raw.m op var o).word = o.ld := by
  have := bool_lt o.lbase; have := bool_lt o.lidx; have := o.lk.isLt; have := o.sc.isLt
  have := o.off.isLt
  exact bit_of 27
    (var.toNat * 2 ^ 24 + o.d.toNat * 2 ^ 16 + o.base.toNat * 2 ^ 8 + o.idx.toNat + op * 2 ^ 28)
    (o.lbase.toNat * 2 ^ 26 + o.lidx.toNat * 2 ^ 25 + o.lk.toNat * 2 ^ 21 + o.sc.toNat * 2 ^ 19 + o.off.toNat) _ _
    (by simp only [Raw.word]; ring) (by omega)

theorem field_m_lbase (op : Nat) (var : BitVec 4) (o : MOps) :
    bit 26 (Raw.m op var o).word = o.lbase := by
  have := bool_lt o.lidx; have := o.lk.isLt; have := o.sc.isLt; have := o.off.isLt
  exact bit_of 26
    (var.toNat * 2 ^ 25 + o.d.toNat * 2 ^ 17 + o.base.toNat * 2 ^ 9 + o.idx.toNat * 2 ^ 1 + o.ld.toNat + op * 2 ^ 29)
    (o.lidx.toNat * 2 ^ 25 + o.lk.toNat * 2 ^ 21 + o.sc.toNat * 2 ^ 19 + o.off.toNat) _ _
    (by simp only [Raw.word]; ring) (by omega)

theorem field_m_lidx (op : Nat) (var : BitVec 4) (o : MOps) :
    bit 25 (Raw.m op var o).word = o.lidx := by
  have := o.lk.isLt; have := o.sc.isLt; have := o.off.isLt
  exact bit_of 25
    (var.toNat * 2 ^ 26 + o.d.toNat * 2 ^ 18 + o.base.toNat * 2 ^ 10 + o.idx.toNat * 2 ^ 2 + o.ld.toNat * 2 ^ 1 + o.lbase.toNat + op * 2 ^ 30)
    (o.lk.toNat * 2 ^ 21 + o.sc.toNat * 2 ^ 19 + o.off.toNat) _ _
    (by simp only [Raw.word]; ring) (by omega)

theorem field_m_lk (op : Nat) (var : BitVec 4) (o : MOps) :
    bits 4 21 (Raw.m op var o).word = o.lk := by
  have := o.sc.isLt; have := o.off.isLt
  exact bits_of 4 21
    (var.toNat * 2 ^ 27 + o.d.toNat * 2 ^ 19 + o.base.toNat * 2 ^ 11 + o.idx.toNat * 2 ^ 3 + o.ld.toNat * 2 ^ 2 + o.lbase.toNat * 2 ^ 1 + o.lidx.toNat + op * 2 ^ 31)
    (o.sc.toNat * 2 ^ 19 + o.off.toNat) _ _
    (by simp only [Raw.word]; ring) (by omega)

theorem field_m_sc (op : Nat) (var : BitVec 4) (o : MOps) :
    bits 2 19 (Raw.m op var o).word = o.sc := by
  have := o.off.isLt
  exact bits_of 2 19
    (var.toNat * 2 ^ 31 + o.d.toNat * 2 ^ 23 + o.base.toNat * 2 ^ 15 + o.idx.toNat * 2 ^ 7 + o.ld.toNat * 2 ^ 6 + o.lbase.toNat * 2 ^ 5 + o.lidx.toNat * 2 ^ 4 + o.lk.toNat + op * 2 ^ 35)
    (o.off.toNat) _ _
    (by simp only [Raw.word]; ring) (by omega)

theorem field_m_off (op : Nat) (var : BitVec 4) (o : MOps) :
    bits 19 0 (Raw.m op var o).word = o.off := by
  exact bits_of 19 0
    (var.toNat * 2 ^ 33 + o.d.toNat * 2 ^ 25 + o.base.toNat * 2 ^ 17 + o.idx.toNat * 2 ^ 9 + o.ld.toNat * 2 ^ 8 + o.lbase.toNat * 2 ^ 7 + o.lidx.toNat * 2 ^ 6 + o.lk.toNat * 2 ^ 2 + o.sc.toNat + op * 2 ^ 37)
    (0) _ _
    (by simp only [Raw.word]; ring) (by omega)

theorem opByte_m (op : Nat) (var : BitVec 4) (o : MOps) (_h : op < 256) :
    opByte (Raw.m op var o).word = op := by
  have := var.isLt; have := o.d.isLt; have := o.base.isLt; have := o.idx.isLt
  have := bool_lt o.ld; have := bool_lt o.lbase; have := bool_lt o.lidx; have := o.lk.isLt
  have := o.sc.isLt; have := o.off.isLt
  exact part_of 8 56 (0) op (var.toNat * 2 ^ 52 + o.d.toNat * 2 ^ 44 + o.base.toNat * 2 ^ 36 + o.idx.toNat * 2 ^ 28 + o.ld.toNat * 2 ^ 27 + o.lbase.toNat * 2 ^ 26 + o.lidx.toNat * 2 ^ 25 + o.lk.toNat * 2 ^ 21 + o.sc.toNat * 2 ^ 19 + o.off.toNat) _
    (by simp only [Raw.word]; ring) _h (by omega)

theorem parse_m (w : Nat) (op : Nat) (var : BitVec 4) (o : MOps) (ho : opByte w = op) (hf : opFormat op = some .m)
    (h0 : bits 4 52 w = var)
    (h1 : bits 8 44 w = o.d)
    (h2 : bits 8 36 w = o.base)
    (h3 : bits 8 28 w = o.idx)
    (h4 : bit 27 w = o.ld)
    (h5 : bit 26 w = o.lbase)
    (h6 : bit 25 w = o.lidx)
    (h7 : bits 4 21 w = o.lk)
    (h8 : bits 2 19 w = o.sc)
    (h9 : bits 19 0 w = o.off) :
    Raw.parse w = some (Raw.m op var o) := by
  simp only [Raw.parse, ho, hf, h0, h1, h2, h3, h4, h5, h6, h7, h8, h9]

theorem field_b_var (op : Nat) (var : BitVec 4) (o : BOps) :
    bits 4 52 (Raw.b op var o).word = var := by
  have := o.a.isLt; have := bool_lt o.la; have := o.off.isLt
  exact bits_of 4 52
    (op)
    (o.a.toNat * 2 ^ 44 + o.la.toNat * 2 ^ 43 + o.off.toNat) _ _
    (by simp only [Raw.word]; ring) (by omega)

theorem field_b_a (op : Nat) (var : BitVec 4) (o : BOps) :
    bits 8 44 (Raw.b op var o).word = o.a := by
  have := bool_lt o.la; have := o.off.isLt
  exact bits_of 8 44
    (var.toNat + op * 2 ^ 4)
    (o.la.toNat * 2 ^ 43 + o.off.toNat) _ _
    (by simp only [Raw.word]; ring) (by omega)

theorem field_b_la (op : Nat) (var : BitVec 4) (o : BOps) :
    bit 43 (Raw.b op var o).word = o.la := by
  have := o.off.isLt
  exact bit_of 43
    (var.toNat * 2 ^ 8 + o.a.toNat + op * 2 ^ 12)
    (o.off.toNat) _ _
    (by simp only [Raw.word]; ring) (by omega)

theorem field_b_off (op : Nat) (var : BitVec 4) (o : BOps) :
    bits 43 0 (Raw.b op var o).word = o.off := by
  exact bits_of 43 0
    (var.toNat * 2 ^ 9 + o.a.toNat * 2 ^ 1 + o.la.toNat + op * 2 ^ 13)
    (0) _ _
    (by simp only [Raw.word]; ring) (by omega)

theorem opByte_b (op : Nat) (var : BitVec 4) (o : BOps) (_h : op < 256) :
    opByte (Raw.b op var o).word = op := by
  have := var.isLt; have := o.a.isLt; have := bool_lt o.la; have := o.off.isLt
  exact part_of 8 56 (0) op (var.toNat * 2 ^ 52 + o.a.toNat * 2 ^ 44 + o.la.toNat * 2 ^ 43 + o.off.toNat) _
    (by simp only [Raw.word]; ring) _h (by omega)

theorem parse_b (w : Nat) (op : Nat) (var : BitVec 4) (o : BOps) (ho : opByte w = op) (hf : opFormat op = some .b)
    (h0 : bits 4 52 w = var)
    (h1 : bits 8 44 w = o.a)
    (h2 : bit 43 w = o.la)
    (h3 : bits 43 0 w = o.off) :
    Raw.parse w = some (Raw.b op var o) := by
  simp only [Raw.parse, ho, hf, h0, h1, h2, h3]

theorem field_x_var (op : Nat) (var : BitVec 4) (flags : BitVec 13) (imm32 : BitVec 32) (imm16 : BitVec 16) (o : XOps) :
    bits 4 52 (Raw.x op var flags imm32 imm16 o).word = var := by
  have := flags.isLt; have := o.f0.isLt; have := o.f1.isLt; have := o.f2.isLt
  have := o.f3.isLt; have := o.lk.isLt; have := bool_lt o.l1; have := bool_lt o.l2
  have := bool_lt o.l3
  exact bits_of 4 52
    (imm32.toNat * 2 ^ 40 + imm16.toNat * 2 ^ 8 + o.f4.toNat * 2 ^ 32 + o.f5.toNat * 2 ^ 24 + op)
    (flags.toNat + o.f0.toNat * 2 ^ 44 + o.f1.toNat * 2 ^ 36 + o.f2.toNat * 2 ^ 28 + o.f3.toNat * 2 ^ 20 + o.lk.toNat * 2 ^ 16 + o.l1.toNat * 2 ^ 15 + o.l2.toNat * 2 ^ 14 + o.l3.toNat * 2 ^ 13) _ _
    (by simp only [Raw.word]; ring) (by omega)

theorem field_x_flags (op : Nat) (var : BitVec 4) (flags : BitVec 13) (imm32 : BitVec 32) (imm16 : BitVec 16) (o : XOps) :
    bits 13 0 (Raw.x op var flags imm32 imm16 o).word = flags := by
  exact bits_of 13 0
    (var.toNat * 2 ^ 39 + imm32.toNat * 2 ^ 83 + imm16.toNat * 2 ^ 51 + o.f0.toNat * 2 ^ 31 + o.f1.toNat * 2 ^ 23 + o.f2.toNat * 2 ^ 15 + o.f3.toNat * 2 ^ 7 + o.f4.toNat * 2 ^ 75 + o.f5.toNat * 2 ^ 67 + o.lk.toNat * 2 ^ 3 + o.l1.toNat * 2 ^ 2 + o.l2.toNat * 2 ^ 1 + o.l3.toNat + op * 2 ^ 43)
    (0) _ _
    (by simp only [Raw.word]; ring) (by omega)

theorem field_x_imm32 (op : Nat) (var : BitVec 4) (flags : BitVec 13) (imm32 : BitVec 32) (imm16 : BitVec 16) (o : XOps) (_h : op < 256) :
    bits 32 96 (Raw.x op var flags imm32 imm16 o).word = imm32 := by
  have := var.isLt; have := flags.isLt; have := imm16.isLt; have := o.f0.isLt
  have := o.f1.isLt; have := o.f2.isLt; have := o.f3.isLt; have := o.f4.isLt
  have := o.f5.isLt; have := o.lk.isLt; have := bool_lt o.l1; have := bool_lt o.l2
  have := bool_lt o.l3
  exact bits_of 32 96
    (0)
    (var.toNat * 2 ^ 52 + flags.toNat + imm16.toNat * 2 ^ 64 + o.f0.toNat * 2 ^ 44 + o.f1.toNat * 2 ^ 36 + o.f2.toNat * 2 ^ 28 + o.f3.toNat * 2 ^ 20 + o.f4.toNat * 2 ^ 88 + o.f5.toNat * 2 ^ 80 + o.lk.toNat * 2 ^ 16 + o.l1.toNat * 2 ^ 15 + o.l2.toNat * 2 ^ 14 + o.l3.toNat * 2 ^ 13 + op * 2 ^ 56) _ _
    (by simp only [Raw.word]; ring) (by omega)

theorem field_x_imm16 (op : Nat) (var : BitVec 4) (flags : BitVec 13) (imm32 : BitVec 32) (imm16 : BitVec 16) (o : XOps) (_h : op < 256) :
    bits 16 64 (Raw.x op var flags imm32 imm16 o).word = imm16 := by
  have := var.isLt; have := flags.isLt; have := o.f0.isLt; have := o.f1.isLt
  have := o.f2.isLt; have := o.f3.isLt; have := o.lk.isLt; have := bool_lt o.l1
  have := bool_lt o.l2; have := bool_lt o.l3
  exact bits_of 16 64
    (imm32.toNat * 2 ^ 16 + o.f4.toNat * 2 ^ 8 + o.f5.toNat)
    (var.toNat * 2 ^ 52 + flags.toNat + o.f0.toNat * 2 ^ 44 + o.f1.toNat * 2 ^ 36 + o.f2.toNat * 2 ^ 28 + o.f3.toNat * 2 ^ 20 + o.lk.toNat * 2 ^ 16 + o.l1.toNat * 2 ^ 15 + o.l2.toNat * 2 ^ 14 + o.l3.toNat * 2 ^ 13 + op * 2 ^ 56) _ _
    (by simp only [Raw.word]; ring) (by omega)

theorem field_x_f0 (op : Nat) (var : BitVec 4) (flags : BitVec 13) (imm32 : BitVec 32) (imm16 : BitVec 16) (o : XOps) :
    bits 8 44 (Raw.x op var flags imm32 imm16 o).word = o.f0 := by
  have := flags.isLt; have := o.f1.isLt; have := o.f2.isLt; have := o.f3.isLt
  have := o.lk.isLt; have := bool_lt o.l1; have := bool_lt o.l2; have := bool_lt o.l3
  exact bits_of 8 44
    (var.toNat + imm32.toNat * 2 ^ 44 + imm16.toNat * 2 ^ 12 + o.f4.toNat * 2 ^ 36 + o.f5.toNat * 2 ^ 28 + op * 2 ^ 4)
    (flags.toNat + o.f1.toNat * 2 ^ 36 + o.f2.toNat * 2 ^ 28 + o.f3.toNat * 2 ^ 20 + o.lk.toNat * 2 ^ 16 + o.l1.toNat * 2 ^ 15 + o.l2.toNat * 2 ^ 14 + o.l3.toNat * 2 ^ 13) _ _
    (by simp only [Raw.word]; ring) (by omega)

theorem field_x_f1 (op : Nat) (var : BitVec 4) (flags : BitVec 13) (imm32 : BitVec 32) (imm16 : BitVec 16) (o : XOps) :
    bits 8 36 (Raw.x op var flags imm32 imm16 o).word = o.f1 := by
  have := flags.isLt; have := o.f2.isLt; have := o.f3.isLt; have := o.lk.isLt
  have := bool_lt o.l1; have := bool_lt o.l2; have := bool_lt o.l3
  exact bits_of 8 36
    (var.toNat * 2 ^ 8 + imm32.toNat * 2 ^ 52 + imm16.toNat * 2 ^ 20 + o.f0.toNat + o.f4.toNat * 2 ^ 44 + o.f5.toNat * 2 ^ 36 + op * 2 ^ 12)
    (flags.toNat + o.f2.toNat * 2 ^ 28 + o.f3.toNat * 2 ^ 20 + o.lk.toNat * 2 ^ 16 + o.l1.toNat * 2 ^ 15 + o.l2.toNat * 2 ^ 14 + o.l3.toNat * 2 ^ 13) _ _
    (by simp only [Raw.word]; ring) (by omega)

theorem field_x_f2 (op : Nat) (var : BitVec 4) (flags : BitVec 13) (imm32 : BitVec 32) (imm16 : BitVec 16) (o : XOps) :
    bits 8 28 (Raw.x op var flags imm32 imm16 o).word = o.f2 := by
  have := flags.isLt; have := o.f3.isLt; have := o.lk.isLt; have := bool_lt o.l1
  have := bool_lt o.l2; have := bool_lt o.l3
  exact bits_of 8 28
    (var.toNat * 2 ^ 16 + imm32.toNat * 2 ^ 60 + imm16.toNat * 2 ^ 28 + o.f0.toNat * 2 ^ 8 + o.f1.toNat + o.f4.toNat * 2 ^ 52 + o.f5.toNat * 2 ^ 44 + op * 2 ^ 20)
    (flags.toNat + o.f3.toNat * 2 ^ 20 + o.lk.toNat * 2 ^ 16 + o.l1.toNat * 2 ^ 15 + o.l2.toNat * 2 ^ 14 + o.l3.toNat * 2 ^ 13) _ _
    (by simp only [Raw.word]; ring) (by omega)

theorem field_x_f3 (op : Nat) (var : BitVec 4) (flags : BitVec 13) (imm32 : BitVec 32) (imm16 : BitVec 16) (o : XOps) :
    bits 8 20 (Raw.x op var flags imm32 imm16 o).word = o.f3 := by
  have := flags.isLt; have := o.lk.isLt; have := bool_lt o.l1; have := bool_lt o.l2
  have := bool_lt o.l3
  exact bits_of 8 20
    (var.toNat * 2 ^ 24 + imm32.toNat * 2 ^ 68 + imm16.toNat * 2 ^ 36 + o.f0.toNat * 2 ^ 16 + o.f1.toNat * 2 ^ 8 + o.f2.toNat + o.f4.toNat * 2 ^ 60 + o.f5.toNat * 2 ^ 52 + op * 2 ^ 28)
    (flags.toNat + o.lk.toNat * 2 ^ 16 + o.l1.toNat * 2 ^ 15 + o.l2.toNat * 2 ^ 14 + o.l3.toNat * 2 ^ 13) _ _
    (by simp only [Raw.word]; ring) (by omega)

theorem field_x_f4 (op : Nat) (var : BitVec 4) (flags : BitVec 13) (imm32 : BitVec 32) (imm16 : BitVec 16) (o : XOps) (_h : op < 256) :
    bits 8 88 (Raw.x op var flags imm32 imm16 o).word = o.f4 := by
  have := var.isLt; have := flags.isLt; have := imm16.isLt; have := o.f0.isLt
  have := o.f1.isLt; have := o.f2.isLt; have := o.f3.isLt; have := o.f5.isLt
  have := o.lk.isLt; have := bool_lt o.l1; have := bool_lt o.l2; have := bool_lt o.l3
  exact bits_of 8 88
    (imm32.toNat)
    (var.toNat * 2 ^ 52 + flags.toNat + imm16.toNat * 2 ^ 64 + o.f0.toNat * 2 ^ 44 + o.f1.toNat * 2 ^ 36 + o.f2.toNat * 2 ^ 28 + o.f3.toNat * 2 ^ 20 + o.f5.toNat * 2 ^ 80 + o.lk.toNat * 2 ^ 16 + o.l1.toNat * 2 ^ 15 + o.l2.toNat * 2 ^ 14 + o.l3.toNat * 2 ^ 13 + op * 2 ^ 56) _ _
    (by simp only [Raw.word]; ring) (by omega)

theorem field_x_f5 (op : Nat) (var : BitVec 4) (flags : BitVec 13) (imm32 : BitVec 32) (imm16 : BitVec 16) (o : XOps) (_h : op < 256) :
    bits 8 80 (Raw.x op var flags imm32 imm16 o).word = o.f5 := by
  have := var.isLt; have := flags.isLt; have := imm16.isLt; have := o.f0.isLt
  have := o.f1.isLt; have := o.f2.isLt; have := o.f3.isLt; have := o.lk.isLt
  have := bool_lt o.l1; have := bool_lt o.l2; have := bool_lt o.l3
  exact bits_of 8 80
    (imm32.toNat * 2 ^ 8 + o.f4.toNat)
    (var.toNat * 2 ^ 52 + flags.toNat + imm16.toNat * 2 ^ 64 + o.f0.toNat * 2 ^ 44 + o.f1.toNat * 2 ^ 36 + o.f2.toNat * 2 ^ 28 + o.f3.toNat * 2 ^ 20 + o.lk.toNat * 2 ^ 16 + o.l1.toNat * 2 ^ 15 + o.l2.toNat * 2 ^ 14 + o.l3.toNat * 2 ^ 13 + op * 2 ^ 56) _ _
    (by simp only [Raw.word]; ring) (by omega)

theorem field_x_lk (op : Nat) (var : BitVec 4) (flags : BitVec 13) (imm32 : BitVec 32) (imm16 : BitVec 16) (o : XOps) :
    bits 4 16 (Raw.x op var flags imm32 imm16 o).word = o.lk := by
  have := flags.isLt; have := bool_lt o.l1; have := bool_lt o.l2; have := bool_lt o.l3
  exact bits_of 4 16
    (var.toNat * 2 ^ 32 + imm32.toNat * 2 ^ 76 + imm16.toNat * 2 ^ 44 + o.f0.toNat * 2 ^ 24 + o.f1.toNat * 2 ^ 16 + o.f2.toNat * 2 ^ 8 + o.f3.toNat + o.f4.toNat * 2 ^ 68 + o.f5.toNat * 2 ^ 60 + op * 2 ^ 36)
    (flags.toNat + o.l1.toNat * 2 ^ 15 + o.l2.toNat * 2 ^ 14 + o.l3.toNat * 2 ^ 13) _ _
    (by simp only [Raw.word]; ring) (by omega)

theorem field_x_l1 (op : Nat) (var : BitVec 4) (flags : BitVec 13) (imm32 : BitVec 32) (imm16 : BitVec 16) (o : XOps) :
    bit 15 (Raw.x op var flags imm32 imm16 o).word = o.l1 := by
  have := flags.isLt; have := bool_lt o.l2; have := bool_lt o.l3
  exact bit_of 15
    (var.toNat * 2 ^ 36 + imm32.toNat * 2 ^ 80 + imm16.toNat * 2 ^ 48 + o.f0.toNat * 2 ^ 28 + o.f1.toNat * 2 ^ 20 + o.f2.toNat * 2 ^ 12 + o.f3.toNat * 2 ^ 4 + o.f4.toNat * 2 ^ 72 + o.f5.toNat * 2 ^ 64 + o.lk.toNat + op * 2 ^ 40)
    (flags.toNat + o.l2.toNat * 2 ^ 14 + o.l3.toNat * 2 ^ 13) _ _
    (by simp only [Raw.word]; ring) (by omega)

theorem field_x_l2 (op : Nat) (var : BitVec 4) (flags : BitVec 13) (imm32 : BitVec 32) (imm16 : BitVec 16) (o : XOps) :
    bit 14 (Raw.x op var flags imm32 imm16 o).word = o.l2 := by
  have := flags.isLt; have := bool_lt o.l3
  exact bit_of 14
    (var.toNat * 2 ^ 37 + imm32.toNat * 2 ^ 81 + imm16.toNat * 2 ^ 49 + o.f0.toNat * 2 ^ 29 + o.f1.toNat * 2 ^ 21 + o.f2.toNat * 2 ^ 13 + o.f3.toNat * 2 ^ 5 + o.f4.toNat * 2 ^ 73 + o.f5.toNat * 2 ^ 65 + o.lk.toNat * 2 ^ 1 + o.l1.toNat + op * 2 ^ 41)
    (flags.toNat + o.l3.toNat * 2 ^ 13) _ _
    (by simp only [Raw.word]; ring) (by omega)

theorem field_x_l3 (op : Nat) (var : BitVec 4) (flags : BitVec 13) (imm32 : BitVec 32) (imm16 : BitVec 16) (o : XOps) :
    bit 13 (Raw.x op var flags imm32 imm16 o).word = o.l3 := by
  have := flags.isLt
  exact bit_of 13
    (var.toNat * 2 ^ 38 + imm32.toNat * 2 ^ 82 + imm16.toNat * 2 ^ 50 + o.f0.toNat * 2 ^ 30 + o.f1.toNat * 2 ^ 22 + o.f2.toNat * 2 ^ 14 + o.f3.toNat * 2 ^ 6 + o.f4.toNat * 2 ^ 74 + o.f5.toNat * 2 ^ 66 + o.lk.toNat * 2 ^ 2 + o.l1.toNat * 2 ^ 1 + o.l2.toNat + op * 2 ^ 42)
    (flags.toNat) _ _
    (by simp only [Raw.word]; ring) (by omega)

theorem opByte_x (op : Nat) (var : BitVec 4) (flags : BitVec 13) (imm32 : BitVec 32) (imm16 : BitVec 16) (o : XOps) (_h : op < 256) :
    opByte (Raw.x op var flags imm32 imm16 o).word = op := by
  have := var.isLt; have := flags.isLt; have := o.f0.isLt; have := o.f1.isLt
  have := o.f2.isLt; have := o.f3.isLt; have := o.lk.isLt; have := bool_lt o.l1
  have := bool_lt o.l2; have := bool_lt o.l3
  exact part_of 8 56 (imm32.toNat * 2 ^ 32 + imm16.toNat + o.f4.toNat * 2 ^ 24 + o.f5.toNat * 2 ^ 16) op (var.toNat * 2 ^ 52 + flags.toNat + o.f0.toNat * 2 ^ 44 + o.f1.toNat * 2 ^ 36 + o.f2.toNat * 2 ^ 28 + o.f3.toNat * 2 ^ 20 + o.lk.toNat * 2 ^ 16 + o.l1.toNat * 2 ^ 15 + o.l2.toNat * 2 ^ 14 + o.l3.toNat * 2 ^ 13) _
    (by simp only [Raw.word]; ring) _h (by omega)

theorem parse_x (w : Nat) (op : Nat) (var : BitVec 4) (flags : BitVec 13) (imm32 : BitVec 32) (imm16 : BitVec 16) (o : XOps) (ho : opByte w = op) (hf : opFormat op = some .x)
    (h0 : bits 4 52 w = var)
    (h1 : bits 13 0 w = flags)
    (h2 : bits 32 96 w = imm32)
    (h3 : bits 16 64 w = imm16)
    (h4 : bits 8 44 w = o.f0)
    (h5 : bits 8 36 w = o.f1)
    (h6 : bits 8 28 w = o.f2)
    (h7 : bits 8 20 w = o.f3)
    (h8 : bits 8 88 w = o.f4)
    (h9 : bits 8 80 w = o.f5)
    (h10 : bits 4 16 w = o.lk)
    (h11 : bit 15 w = o.l1)
    (h12 : bit 14 w = o.l2)
    (h13 : bit 13 w = o.l3) :
    Raw.parse w = some (Raw.x op var flags imm32 imm16 o) := by
  simp only [Raw.parse, ho, hf, h0, h1, h2, h3, h4, h5, h6, h7, h8, h9, h10, h11, h12, h13]

theorem opByte_word (r : Raw) (h : r.op < 256) : opByte r.word = r.op := by
  cases r with
  | r op var rm ty o => exact opByte_r _ _ _ _ _ h
  | i op var imm o => exact opByte_i _ _ _ _ h
  | m op var o => exact opByte_m _ _ _ h
  | b op var o => exact opByte_b _ _ _ h
  | x op var flags imm32 imm16 o => exact opByte_x _ _ _ _ _ _ h

theorem parse_word (r : Raw) (h : r.op < 256) (hf : r.fits) : Raw.parse r.word = some r := by
  cases r with
  | r op var rm ty o =>
    exact parse_r _ _ _ _ _ _ (opByte_r _ _ _ _ _ h) hf
      (field_r_var _ _ _ _ _) (field_r_rm _ _ _ _ _) (field_r_ty _ _ _ _ _) (field_r_d _ _ _ _ _) (field_r_a _ _ _ _ _) (field_r_b _ _ _ _ _) (field_r_c _ _ _ _ _) (field_r_la _ _ _ _ _) (field_r_lb _ _ _ _ _) (field_r_lc _ _ _ _ _) (field_r_lk _ _ _ _ _) (field_r_xd _ _ _ _ _) (field_r_xa _ _ _ _ _)
  | i op var imm o =>
    exact parse_i _ _ _ _ _ (opByte_i _ _ _ _ h) hf
      (field_i_var _ _ _ _) (field_i_imm _ _ _ _) (field_i_d _ _ _ _) (field_i_a _ _ _ _) (field_i_la _ _ _ _) (field_i_xd _ _ _ _) (field_i_xa _ _ _ _)
  | m op var o =>
    exact parse_m _ _ _ _ (opByte_m _ _ _ h) hf
      (field_m_var _ _ _) (field_m_d _ _ _) (field_m_base _ _ _) (field_m_idx _ _ _) (field_m_ld _ _ _) (field_m_lbase _ _ _) (field_m_lidx _ _ _) (field_m_lk _ _ _) (field_m_sc _ _ _) (field_m_off _ _ _)
  | b op var o =>
    exact parse_b _ _ _ _ (opByte_b _ _ _ h) hf
      (field_b_var _ _ _) (field_b_a _ _ _) (field_b_la _ _ _) (field_b_off _ _ _)
  | x op var flags imm32 imm16 o =>
    exact parse_x _ _ _ _ _ _ _ (opByte_x _ _ _ _ _ _ h) hf
      (field_x_var _ _ _ _ _ _) (field_x_flags _ _ _ _ _ _) (field_x_imm32 _ _ _ _ _ _ h) (field_x_imm16 _ _ _ _ _ _ h) (field_x_f0 _ _ _ _ _ _) (field_x_f1 _ _ _ _ _ _) (field_x_f2 _ _ _ _ _ _) (field_x_f3 _ _ _ _ _ _) (field_x_f4 _ _ _ _ _ _ h) (field_x_f5 _ _ _ _ _ _ h) (field_x_lk _ _ _ _ _ _) (field_x_l1 _ _ _ _ _ _) (field_x_l2 _ _ _ _ _ _) (field_x_l3 _ _ _ _ _ _)

/-- An instruction whose fields name it decodes from its encoding. -/
theorem decode_encode_of {i : Instr} {r : Raw} (hr : i.raw = some r) (h : (decide (0 < r.op) && decide (r.op < 256)) = true) (hf : r.fits)
    (ht : r.toInstr = some i) (hw : i.wellFormed = true) : decode (encode i) = .ok i := by
  have ho : 0 < r.op ∧ r.op < 256 := by simpa using h
  have he : encode i = r.word := by simp only [encode, hr]
  have hp := parse_word r ho.2 hf
  have hb := opByte_word r ho.2
  rw [← he] at hp hb
  simp only [decode, hb, hp, ht, hw, Bool.true_and, beq_self_eq_true, if_true]
  rw [if_neg (by omega)]

end Sys2Proof
end

