-- ==== Sys2Proof/Laws/Memory.lean ====
section
/-! SUPPORT. Laws of the sparse maps and of memory: a read after a write, and that every memory operation keeps the canonical
form. -/

namespace Sys2Proof.Machine

-- One declaration at a time: the checks run together would hold too much memory.
set_option Elab.async false

open Sys2Proof

/-! ## Sparse maps -/

theorem SMap.get?_set_same {β : Type} (m : List (Nat × β)) (k : Nat) (v : β) : SMap.get? (SMap.set m k v) k = some v := by
  induction m with
  | nil => simp [SMap.set, SMap.get?]
  | cons e t ih =>
    obtain ⟨a, b⟩ := e
    simp only [SMap.set]
    split
    · simp [SMap.get?]
    · split
      · simp [SMap.get?]
      · rw [SMap.get?, if_neg (by omega)]
        exact ih

theorem SMap.get?_set_other {β : Type} (m : List (Nat × β)) (k j : Nat) (v : β) (h : j ≠ k) :
    SMap.get? (SMap.set m k v) j = SMap.get? m j := by
  induction m with
  | nil => simp [SMap.set, SMap.get?, Ne.symm h]
  | cons e t ih =>
    obtain ⟨a, b⟩ := e
    simp only [SMap.set]
    split
    · rw [SMap.get?, if_neg (Ne.symm h)]
    · split
      · rename_i hk
        rw [SMap.get?, SMap.get?, if_neg (Ne.symm h), if_neg (by omega)]
      · rw [SMap.get?, SMap.get?, ih]

theorem SMap.get?_mem {β : Type} {m : List (Nat × β)} {k : Nat} {v : β} (h : SMap.get? m k = some v) : (k, v) ∈ m := by
  induction m with
  | nil => simp [SMap.get?] at h
  | cons e t ih =>
    rw [SMap.get?] at h
    split at h
    · rename_i hk; cases h; exact hk ▸ List.mem_cons_self
    · exact List.mem_cons_of_mem _ (ih h)

theorem SMap.get?_filter {β : Type} (m : List (Nat × β)) (p : Nat × β → Bool) (j : Nat) (h : ∀ b, p (j, b) = true) :
    SMap.get? (m.filter p) j = SMap.get? m j := by
  induction m with
  | nil => rfl
  | cons e t ih =>
    obtain ⟨a, b⟩ := e
    rw [List.filter_cons]
    by_cases ha : a = j
    · subst ha
      rw [if_pos (h b), SMap.get?, SMap.get?, if_pos rfl, if_pos rfl]
    · split
      · rw [SMap.get?, SMap.get?, if_neg ha, if_neg ha, ih]
      · rw [SMap.get?, if_neg ha, ih]

theorem SMap.get?_del_other {β : Type} (m : List (Nat × β)) (k j : Nat) (h : j ≠ k) :
    SMap.get? (SMap.del m k) j = SMap.get? m j :=
  SMap.get?_filter m _ j fun _ => by simp [h]

theorem SMap.get?_del_same {β : Type} (m : List (Nat × β)) (k : Nat) : SMap.get? (SMap.del m k) k = none := by
  induction m with
  | nil => rfl
  | cons e t ih =>
    obtain ⟨a, b⟩ := e
    unfold SMap.del at ih ⊢
    rw [List.filter_cons]
    split
    · rename_i h
      rw [SMap.get?, if_neg (by simpa using h), ih]
    · exact ih

/-- Every key of the list is at least a bound. -/
theorem SMap.sorted_cons {β : Type} (a : Nat) (b : β) (t : List (Nat × β)) :
    SMap.sorted ((a, b) :: t) = true ↔ (∀ e ∈ t, a < e.1) ∧ SMap.sorted t = true := by
  induction t generalizing a b with
  | nil => simp [SMap.sorted]
  | cons e t ih =>
    obtain ⟨c, d⟩ := e
    simp only [SMap.sorted, Bool.and_eq_true, decide_eq_true_eq, ih c d, List.mem_cons, forall_eq_or_imp]
    constructor
    · rintro ⟨h, h1, h2⟩
      exact ⟨⟨h, fun e he => Nat.lt_trans h (h1 e he)⟩, h1, h2⟩
    · rintro ⟨⟨h, _⟩, h1, h2⟩
      exact ⟨h, h1, h2⟩

theorem SMap.mem_set {β : Type} (m : List (Nat × β)) (k : Nat) (v : β) (e : Nat × β) (h : e ∈ SMap.set m k v) :
    e = (k, v) ∨ e ∈ m := by
  induction m with
  | nil => simpa [SMap.set] using h
  | cons x t ih =>
    obtain ⟨a, b⟩ := x
    simp only [SMap.set] at h
    split at h
    · simpa using h
    · split at h
      · rcases List.mem_cons.1 h with h | h
        · exact .inl h
        · exact .inr (by simp [h])
      · rcases List.mem_cons.1 h with h | h
        · exact .inr (by simp [h])
        · rcases ih h with h | h
          · exact .inl h
          · exact .inr (by simp [h])

theorem SMap.mem_del {β : Type} (m : List (Nat × β)) (k : Nat) (e : Nat × β) (h : e ∈ SMap.del m k) : e ∈ m :=
  (List.mem_filter.1 h).1

theorem SMap.sorted_set {β : Type} (m : List (Nat × β)) (k : Nat) (v : β) (h : SMap.sorted m = true) :
    SMap.sorted (SMap.set m k v) = true := by
  induction m with
  | nil => rfl
  | cons e t ih =>
    obtain ⟨a, b⟩ := e
    have h0 := h
    obtain ⟨h1, h2⟩ := (SMap.sorted_cons a b t).1 h
    simp only [SMap.set]
    split
    · rename_i hk
      refine (SMap.sorted_cons k v _).2 ⟨fun e he => ?_, h0⟩
      rcases List.mem_cons.1 he with he | he
      · simp [he, hk]
      · exact Nat.lt_trans hk (h1 e he)
    · split
      · rename_i hk
        exact (SMap.sorted_cons k v t).2 ⟨fun e he => hk ▸ h1 e he, h2⟩
      · refine (SMap.sorted_cons a b _).2 ⟨fun e he => ?_, ih h2⟩
        rcases SMap.mem_set t k v e he with he | he
        · simp [he]; omega
        · exact h1 e he

theorem SMap.sorted_filter {β : Type} (m : List (Nat × β)) (p : Nat × β → Bool) (h : SMap.sorted m = true) :
    SMap.sorted (m.filter p) = true := by
  induction m with
  | nil => rfl
  | cons e t ih =>
    obtain ⟨a, b⟩ := e
    obtain ⟨h1, h2⟩ := (SMap.sorted_cons a b t).1 h
    rw [List.filter_cons]
    split
    · exact (SMap.sorted_cons a b _).2 ⟨fun e he => h1 e (List.mem_filter.1 he).1, ih h2⟩
    · exact ih h2

theorem SMap.sorted_del {β : Type} (m : List (Nat × β)) (k : Nat) (h : SMap.sorted m = true) : SMap.sorted (SMap.del m k) = true :=
  SMap.sorted_filter m _ h

/-! ## Memory: read after write -/

theorem Memory.read_write_same (m : List Host.Cell) (k : Nat) (b : Byte) : Memory.read (Memory.write m k b) k = b := by
  unfold Memory.read Memory.write SMap.put SMap.get
  split
  · rename_i hb
    rw [SMap.get?_del_same, hb]; rfl
  · rw [SMap.get?_set_same]; rfl

theorem Memory.read_write_other (m : List Host.Cell) (k j : Nat) (b : Byte) (h : j ≠ k) :
    Memory.read (Memory.write m k b) j = Memory.read m j := by
  unfold Memory.read Memory.write SMap.put SMap.get
  split
  · rw [SMap.get?_del_other m k j h]
  · rw [SMap.get?_set_other m k j b h]

/-- A byte outside those written reads as before. -/
theorem Memory.read_writes_other (m : List Host.Cell) (k j : Nat) (bs : List Byte) (h : j < k ∨ k + bs.length ≤ j) :
    Memory.read (Memory.writes m k bs) j = Memory.read m j := by
  induction bs generalizing m k with
  | nil => rfl
  | cons b t ih =>
    rw [Memory.writes, ih _ _ (by simp at h; omega), Memory.read_write_other]
    simp at h
    omega

/-- A byte outside those stored reads as before. -/
theorem Memory.read_stores_other (m : List Host.Cell) (k j : Nat) (bs : List Byte) (h : j < k ∨ k + bs.length ≤ j) :
    Memory.read (Memory.stores m k bs) j = Memory.read m j := by
  induction bs generalizing m k with
  | nil => rfl
  | cons b t ih =>
    rw [List.length_cons] at h
    unfold Memory.stores
    rw [ih _ _ (by omega)]
    split
    · exact Memory.read_write_other _ _ _ _ (by omega)
    · rfl

/-- A store that lands whole writes what it stores. -/
theorem Memory.stores_of_lands (m : List Host.Cell) (k : Nat) (bs : List Byte) (h : ∀ j < bs.length, storeLands (k + j) = true) :
    Memory.stores m k bs = Memory.writes m k bs := by
  induction bs generalizing m k with
  | nil => rfl
  | cons b t ih =>
    have h0 := h 0 (Nat.succ_pos _)
    rw [Nat.add_zero] at h0
    unfold Memory.stores Memory.writes
    rw [if_pos h0]
    refine ih _ _ fun j hj => ?_
    have h1 := h (j + 1) (Nat.succ_lt_succ hj)
    rwa [Nat.add_comm j 1, ← Nat.add_assoc] at h1

/-! ## Every memory operation keeps the canonical form -/

theorem Memory.wf_nil : Memory.wf [] = true := rfl

theorem Memory.wf_write (m : List Host.Cell) (k : Nat) (b : Byte) (h : Memory.wf m = true) : Memory.wf (Memory.write m k b) = true := by
  simp only [Memory.wf, Bool.and_eq_true, List.all_eq_true] at h ⊢
  unfold Memory.write SMap.put
  split
  · exact ⟨SMap.sorted_del m k h.1, fun e he => h.2 e (SMap.mem_del m k e he)⟩
  · rename_i hb
    refine ⟨SMap.sorted_set m k b h.1, fun e he => ?_⟩
    rcases SMap.mem_set m k b e he with he | he
    · simpa [he] using hb
    · exact h.2 e he

theorem Memory.wf_writes (m : List Host.Cell) (k : Nat) (bs : List Byte) (h : Memory.wf m = true) :
    Memory.wf (Memory.writes m k bs) = true := by
  induction bs generalizing m k with
  | nil => exact h
  | cons b t ih => exact ih _ _ (Memory.wf_write m k b h)

theorem Memory.wf_stores (m : List Host.Cell) (k : Nat) (bs : List Byte) (h : Memory.wf m = true) :
    Memory.wf (Memory.stores m k bs) = true := by
  induction bs generalizing m k with
  | nil => exact h
  | cons b t ih =>
    refine ih (if storeLands k then Memory.write m k b else m) (k + 1) ?_
    split
    · exact Memory.wf_write m k b h
    · exact h

theorem Memory.wf_filter (m : List Host.Cell) (p : Host.Cell → Bool) (h : Memory.wf m = true) : Memory.wf (m.filter p) = true := by
  simp only [Memory.wf, Bool.and_eq_true, List.all_eq_true] at h ⊢
  exact ⟨SMap.sorted_filter m p h.1, fun e he => h.2 e (List.mem_filter.1 he).1⟩

/-- A byte that was written reads as written. -/
theorem Memory.read_writes_same (m : List Host.Cell) (k : Nat) (bs : List Byte) (j : Nat) (hj : j < bs.length) :
    Memory.read (Memory.writes m k bs) (k + j) = bs[j] := by
  induction bs generalizing m k j with
  | nil => simp at hj
  | cons b t ih =>
    rw [Memory.writes]
    cases j with
    | zero =>
      rw [Memory.read_writes_other _ _ _ _ (by omega)]
      exact Memory.read_write_same m k b
    | succ j =>
      have := ih (Memory.write m k b) (k + 1) j (by simpa using hj)
      simpa [Nat.add_assoc, Nat.add_comm 1 j] using this

/-! ## Rising lists of numbers -/

theorem mem_insertNat (l : List Nat) (k j : Nat) : j ∈ insertNat l k ↔ j = k ∨ j ∈ l := by
  induction l with
  | nil => simp [insertNat]
  | cons a t ih =>
    simp only [insertNat]
    split
    · simp
    · split
      · rename_i h; simp [h]
      · simp only [List.mem_cons, ih]
        constructor
        · rintro (h | h | h) <;> simp [h]
        · rintro (h | h | h) <;> simp [h]

theorem insertNat_of_mem (l : List Nat) (k : Nat) (hs : l.Pairwise (· < ·)) (h : k ∈ l) : insertNat l k = l := by
  induction l with
  | nil => simp at h
  | cons a t ih =>
    obtain ⟨h1, h2⟩ := List.pairwise_cons.1 hs
    simp only [insertNat]
    rcases List.mem_cons.1 h with h | h
    · rw [if_neg (by omega), if_pos h]
    · have := h1 k h
      rw [if_neg (by omega), if_neg (by omega), ih h2 h]

theorem pairwise_insertNat (l : List Nat) (k : Nat) (hs : l.Pairwise (· < ·)) : (insertNat l k).Pairwise (· < ·) := by
  induction l with
  | nil => simp [insertNat]
  | cons a t ih =>
    obtain ⟨h1, h2⟩ := List.pairwise_cons.1 hs
    simp only [insertNat]
    split
    · rename_i hk
      refine List.pairwise_cons.2 ⟨fun x hx => ?_, hs⟩
      rcases List.mem_cons.1 hx with hx | hx
      · omega
      · exact Nat.lt_trans hk (h1 x hx)
    · split
      · rename_i hk
        exact List.pairwise_cons.2 ⟨fun x hx => hk ▸ h1 x hx, h2⟩
      · refine List.pairwise_cons.2 ⟨fun x hx => ?_, ih h2⟩
        rcases (mem_insertNat t k x).1 hx with hx | hx
        · omega
        · exact h1 x hx

end Sys2Proof.Machine
end

