-- ==== Sys2Proof/Laws/State.lean ====
section
/-! SUPPORT. What the plain updates of State leave alone and what they set, field by field: each by rfl, so that no later
proof unfolds a record update. -/

namespace Sys2Proof.Machine

open Sys2Proof

/-! ## State.setCrew -/

@[simp] theorem State.setCrew_inbox (s : State) (ci : Nat) (c : Crew) : (s.setCrew ci c).inbox = s.inbox := rfl
@[simp] theorem State.setCrew_freeCtr (s : State) (ci : Nat) (c : Crew) : (s.setCrew ci c).freeCtr = s.freeCtr := rfl
@[simp] theorem State.setCrew_focus (s : State) (ci : Nat) (c : Crew) : (s.setCrew ci c).focus = s.focus := rfl
@[simp] theorem State.setCrew_lastQuad (s : State) (ci : Nat) (c : Crew) : (s.setCrew ci c).lastQuad = s.lastQuad := rfl
@[simp] theorem State.setCrew_clock (s : State) (ci : Nat) (c : Crew) : (s.setCrew ci c).clock = s.clock := rfl
@[simp] theorem State.setCrew_quantumAt (s : State) (ci : Nat) (c : Crew) : (s.setCrew ci c).quantumAt = s.quantumAt := rfl
@[simp] theorem State.setCrew_stopped (s : State) (ci : Nat) (c : Crew) : (s.setCrew ci c).stopped = s.stopped := rfl
@[simp] theorem State.setCrew_mem (s : State) (ci : Nat) (c : Crew) : (s.setCrew ci c).mem = s.mem := rfl
@[simp] theorem State.setCrew_tags (s : State) (ci : Nat) (c : Crew) : (s.setCrew ci c).tags = s.tags := rfl
@[simp] theorem State.setCrew_dram (s : State) (ci : Nat) (c : Crew) : (s.setCrew ci c).dram = s.dram := rfl
@[simp] theorem State.setCrew_unflushed (s : State) (ci : Nat) (c : Crew) : (s.setCrew ci c).unflushed = s.unflushed := rfl
@[simp] theorem State.setCrew_hostStores (s : State) (ci : Nat) (c : Crew) : (s.setCrew ci c).hostStores = s.hostStores := rfl
@[simp] theorem State.setCrew_absent (s : State) (ci : Nat) (c : Crew) : (s.setCrew ci c).absent = s.absent := rfl
@[simp] theorem State.setCrew_locks (s : State) (ci : Nat) (c : Crew) : (s.setCrew ci c).locks = s.locks := rfl
@[simp] theorem State.setCrew_poisoned (s : State) (ci : Nat) (c : Crew) : (s.setCrew ci c).poisoned = s.poisoned := rfl
@[simp] theorem State.setCrew_copies (s : State) (ci : Nat) (c : Crew) : (s.setCrew ci c).copies = s.copies := rfl
@[simp] theorem State.setCrew_parked (s : State) (ci : Nat) (c : Crew) : (s.setCrew ci c).parked = s.parked := rfl
@[simp] theorem State.setCrew_teams (s : State) (ci : Nat) (c : Crew) : (s.setCrew ci c).teams = s.teams := rfl
@[simp] theorem State.setCrew_grids (s : State) (ci : Nat) (c : Crew) : (s.setCrew ci c).grids = s.grids := rfl
@[simp] theorem State.setCrew_waiting (s : State) (ci : Nat) (c : Crew) : (s.setCrew ci c).waiting = s.waiting := rfl
@[simp] theorem State.setCrew_tickets (s : State) (ci : Nat) (c : Crew) : (s.setCrew ci c).tickets = s.tickets := rfl
@[simp] theorem State.setCrew_quads (s : State) (ci : Nat) (c : Crew) : (s.setCrew ci c).quads = s.quads := rfl
@[simp] theorem State.setCrew_hash (s : State) (ci : Nat) (c : Crew) : (s.setCrew ci c).hash = s.hash := rfl
@[simp] theorem State.setCrew_engines (s : State) (ci : Nat) (c : Crew) : (s.setCrew ci c).engines = s.engines := rfl
@[simp] theorem State.setCrew_fetchCache (s : State) (ci : Nat) (c : Crew) : (s.setCrew ci c).fetchCache = s.fetchCache := rfl
@[simp] theorem State.setCrew_lifts (s : State) (ci : Nat) (c : Crew) : (s.setCrew ci c).lifts = s.lifts := rfl
@[simp] theorem State.setCrew_grants (s : State) (ci : Nat) (c : Crew) : (s.setCrew ci c).grants = s.grants := rfl
@[simp] theorem State.setCrew_token (s : State) (ci : Nat) (c : Crew) : (s.setCrew ci c).token = s.token := rfl
@[simp] theorem State.setCrew_tokenQueue (s : State) (ci : Nat) (c : Crew) : (s.setCrew ci c).tokenQueue = s.tokenQueue := rfl
@[simp] theorem State.setCrew_far (s : State) (ci : Nat) (c : Crew) : (s.setCrew ci c).far = s.far := rfl
@[simp] theorem State.setCrew_farSeq (s : State) (ci : Nat) (c : Crew) : (s.setCrew ci c).farSeq = s.farSeq := rfl
@[simp] theorem State.setCrew_farPair (s : State) (ci : Nat) (c : Crew) : (s.setCrew ci c).farPair = s.farPair := rfl
@[simp] theorem State.setCrew_farSeen (s : State) (ci : Nat) (c : Crew) : (s.setCrew ci c).farSeen = s.farSeen := rfl
@[simp] theorem State.setCrew_linkOut (s : State) (ci : Nat) (c : Crew) : (s.setCrew ci c).linkOut = s.linkOut := rfl
@[simp] theorem State.setCrew_ports (s : State) (ci : Nat) (c : Crew) : (s.setCrew ci c).ports = s.ports := rfl
@[simp] theorem State.setCrew_routes (s : State) (ci : Nat) (c : Crew) : (s.setCrew ci c).routes = s.routes := rfl
@[simp] theorem State.setCrew_ctxs (s : State) (ci : Nat) (c : Crew) : (s.setCrew ci c).ctxs = s.ctxs := rfl
@[simp] theorem State.setCrew_tlb (s : State) (ci : Nat) (c : Crew) : (s.setCrew ci c).tlb = s.tlb := rfl
@[simp] theorem State.setCrew_faults (s : State) (ci : Nat) (c : Crew) : (s.setCrew ci c).faults = s.faults := rfl
@[simp] theorem State.setCrew_dying (s : State) (ci : Nat) (c : Crew) : (s.setCrew ci c).dying = s.dying := rfl
@[simp] theorem State.setCrew_faultNo (s : State) (ci : Nat) (c : Crew) : (s.setCrew ci c).faultNo = s.faultNo := rfl
@[simp] theorem State.setCrew_faultTail (s : State) (ci : Nat) (c : Crew) : (s.setCrew ci c).faultTail = s.faultTail := rfl
@[simp] theorem State.setCrew_faultHead (s : State) (ci : Nat) (c : Crew) : (s.setCrew ci c).faultHead = s.faultHead := rfl
@[simp] theorem State.setCrew_queues (s : State) (ci : Nat) (c : Crew) : (s.setCrew ci c).queues = s.queues := rfl
@[simp] theorem State.setCrew_nextQueue (s : State) (ci : Nat) (c : Crew) : (s.setCrew ci c).nextQueue = s.nextQueue := rfl
@[simp] theorem State.setCrew_bar0 (s : State) (ci : Nat) (c : Crew) : (s.setCrew ci c).bar0 = s.bar0 := rfl
@[simp] theorem State.setCrew_hostRead (s : State) (ci : Nat) (c : Crew) : (s.setCrew ci c).hostRead = s.hostRead := rfl
@[simp] theorem State.setCrew_msix (s : State) (ci : Nat) (c : Crew) : (s.setCrew ci c).msix = s.msix := rfl
@[simp] theorem State.setCrew_hostMem (s : State) (ci : Nat) (c : Crew) : (s.setCrew ci c).hostMem = s.hostMem := rfl
@[simp] theorem State.setCrew_barLog (s : State) (ci : Nat) (c : Crew) : (s.setCrew ci c).barLog = s.barLog := rfl
@[simp] theorem State.setCrew_migration (s : State) (ci : Nat) (c : Crew) : (s.setCrew ci c).migration = s.migration := rfl
@[simp] theorem State.setCrew_cancels (s : State) (ci : Nat) (c : Crew) : (s.setCrew ci c).cancels = s.cancels := rfl
@[simp] theorem State.setCrew_enginesPassed (s : State) (ci : Nat) (c : Crew) : (s.setCrew ci c).enginesPassed = s.enginesPassed := rfl
@[simp] theorem State.setCrew_boot (s : State) (ci : Nat) (c : Crew) : (s.setCrew ci c).boot = s.boot := rfl
@[simp] theorem State.setCrew_fused (s : State) (ci : Nat) (c : Crew) : (s.setCrew ci c).fused = s.fused := rfl
@[simp] theorem State.setCrew_retired (s : State) (ci : Nat) (c : Crew) : (s.setCrew ci c).retired = s.retired := rfl
@[simp] theorem State.setCrew_spared (s : State) (ci : Nat) (c : Crew) : (s.setCrew ci c).spared = s.spared := rfl
@[simp] theorem State.setCrew_microcode (s : State) (ci : Nat) (c : Crew) : (s.setCrew ci c).microcode = s.microcode := rfl
@[simp] theorem State.setCrew_controlSram (s : State) (ci : Nat) (c : Crew) : (s.setCrew ci c).controlSram = s.controlSram := rfl

/-! ## State.setTeam -/

@[simp] theorem State.setTeam_inbox (s : State) (t : Nat) (x : Team) : (s.setTeam t x).inbox = s.inbox := rfl
@[simp] theorem State.setTeam_freeCtr (s : State) (t : Nat) (x : Team) : (s.setTeam t x).freeCtr = s.freeCtr := rfl
@[simp] theorem State.setTeam_focus (s : State) (t : Nat) (x : Team) : (s.setTeam t x).focus = s.focus := rfl
@[simp] theorem State.setTeam_lastQuad (s : State) (t : Nat) (x : Team) : (s.setTeam t x).lastQuad = s.lastQuad := rfl
@[simp] theorem State.setTeam_clock (s : State) (t : Nat) (x : Team) : (s.setTeam t x).clock = s.clock := rfl
@[simp] theorem State.setTeam_quantumAt (s : State) (t : Nat) (x : Team) : (s.setTeam t x).quantumAt = s.quantumAt := rfl
@[simp] theorem State.setTeam_stopped (s : State) (t : Nat) (x : Team) : (s.setTeam t x).stopped = s.stopped := rfl
@[simp] theorem State.setTeam_mem (s : State) (t : Nat) (x : Team) : (s.setTeam t x).mem = s.mem := rfl
@[simp] theorem State.setTeam_tags (s : State) (t : Nat) (x : Team) : (s.setTeam t x).tags = s.tags := rfl
@[simp] theorem State.setTeam_dram (s : State) (t : Nat) (x : Team) : (s.setTeam t x).dram = s.dram := rfl
@[simp] theorem State.setTeam_unflushed (s : State) (t : Nat) (x : Team) : (s.setTeam t x).unflushed = s.unflushed := rfl
@[simp] theorem State.setTeam_hostStores (s : State) (t : Nat) (x : Team) : (s.setTeam t x).hostStores = s.hostStores := rfl
@[simp] theorem State.setTeam_absent (s : State) (t : Nat) (x : Team) : (s.setTeam t x).absent = s.absent := rfl
@[simp] theorem State.setTeam_locks (s : State) (t : Nat) (x : Team) : (s.setTeam t x).locks = s.locks := rfl
@[simp] theorem State.setTeam_poisoned (s : State) (t : Nat) (x : Team) : (s.setTeam t x).poisoned = s.poisoned := rfl
@[simp] theorem State.setTeam_copies (s : State) (t : Nat) (x : Team) : (s.setTeam t x).copies = s.copies := rfl
@[simp] theorem State.setTeam_parked (s : State) (t : Nat) (x : Team) : (s.setTeam t x).parked = s.parked := rfl
@[simp] theorem State.setTeam_crews (s : State) (t : Nat) (x : Team) : (s.setTeam t x).crews = s.crews := rfl
@[simp] theorem State.setTeam_grids (s : State) (t : Nat) (x : Team) : (s.setTeam t x).grids = s.grids := rfl
@[simp] theorem State.setTeam_waiting (s : State) (t : Nat) (x : Team) : (s.setTeam t x).waiting = s.waiting := rfl
@[simp] theorem State.setTeam_tickets (s : State) (t : Nat) (x : Team) : (s.setTeam t x).tickets = s.tickets := rfl
@[simp] theorem State.setTeam_quads (s : State) (t : Nat) (x : Team) : (s.setTeam t x).quads = s.quads := rfl
@[simp] theorem State.setTeam_hash (s : State) (t : Nat) (x : Team) : (s.setTeam t x).hash = s.hash := rfl
@[simp] theorem State.setTeam_engines (s : State) (t : Nat) (x : Team) : (s.setTeam t x).engines = s.engines := rfl
@[simp] theorem State.setTeam_fetchCache (s : State) (t : Nat) (x : Team) : (s.setTeam t x).fetchCache = s.fetchCache := rfl
@[simp] theorem State.setTeam_lifts (s : State) (t : Nat) (x : Team) : (s.setTeam t x).lifts = s.lifts := rfl
@[simp] theorem State.setTeam_grants (s : State) (t : Nat) (x : Team) : (s.setTeam t x).grants = s.grants := rfl
@[simp] theorem State.setTeam_token (s : State) (t : Nat) (x : Team) : (s.setTeam t x).token = s.token := rfl
@[simp] theorem State.setTeam_tokenQueue (s : State) (t : Nat) (x : Team) : (s.setTeam t x).tokenQueue = s.tokenQueue := rfl
@[simp] theorem State.setTeam_far (s : State) (t : Nat) (x : Team) : (s.setTeam t x).far = s.far := rfl
@[simp] theorem State.setTeam_farSeq (s : State) (t : Nat) (x : Team) : (s.setTeam t x).farSeq = s.farSeq := rfl
@[simp] theorem State.setTeam_farPair (s : State) (t : Nat) (x : Team) : (s.setTeam t x).farPair = s.farPair := rfl
@[simp] theorem State.setTeam_farSeen (s : State) (t : Nat) (x : Team) : (s.setTeam t x).farSeen = s.farSeen := rfl
@[simp] theorem State.setTeam_linkOut (s : State) (t : Nat) (x : Team) : (s.setTeam t x).linkOut = s.linkOut := rfl
@[simp] theorem State.setTeam_ports (s : State) (t : Nat) (x : Team) : (s.setTeam t x).ports = s.ports := rfl
@[simp] theorem State.setTeam_routes (s : State) (t : Nat) (x : Team) : (s.setTeam t x).routes = s.routes := rfl
@[simp] theorem State.setTeam_ctxs (s : State) (t : Nat) (x : Team) : (s.setTeam t x).ctxs = s.ctxs := rfl
@[simp] theorem State.setTeam_tlb (s : State) (t : Nat) (x : Team) : (s.setTeam t x).tlb = s.tlb := rfl
@[simp] theorem State.setTeam_faults (s : State) (t : Nat) (x : Team) : (s.setTeam t x).faults = s.faults := rfl
@[simp] theorem State.setTeam_dying (s : State) (t : Nat) (x : Team) : (s.setTeam t x).dying = s.dying := rfl
@[simp] theorem State.setTeam_faultNo (s : State) (t : Nat) (x : Team) : (s.setTeam t x).faultNo = s.faultNo := rfl
@[simp] theorem State.setTeam_faultTail (s : State) (t : Nat) (x : Team) : (s.setTeam t x).faultTail = s.faultTail := rfl
@[simp] theorem State.setTeam_faultHead (s : State) (t : Nat) (x : Team) : (s.setTeam t x).faultHead = s.faultHead := rfl
@[simp] theorem State.setTeam_queues (s : State) (t : Nat) (x : Team) : (s.setTeam t x).queues = s.queues := rfl
@[simp] theorem State.setTeam_nextQueue (s : State) (t : Nat) (x : Team) : (s.setTeam t x).nextQueue = s.nextQueue := rfl
@[simp] theorem State.setTeam_bar0 (s : State) (t : Nat) (x : Team) : (s.setTeam t x).bar0 = s.bar0 := rfl
@[simp] theorem State.setTeam_hostRead (s : State) (t : Nat) (x : Team) : (s.setTeam t x).hostRead = s.hostRead := rfl
@[simp] theorem State.setTeam_msix (s : State) (t : Nat) (x : Team) : (s.setTeam t x).msix = s.msix := rfl
@[simp] theorem State.setTeam_hostMem (s : State) (t : Nat) (x : Team) : (s.setTeam t x).hostMem = s.hostMem := rfl
@[simp] theorem State.setTeam_barLog (s : State) (t : Nat) (x : Team) : (s.setTeam t x).barLog = s.barLog := rfl
@[simp] theorem State.setTeam_migration (s : State) (t : Nat) (x : Team) : (s.setTeam t x).migration = s.migration := rfl
@[simp] theorem State.setTeam_cancels (s : State) (t : Nat) (x : Team) : (s.setTeam t x).cancels = s.cancels := rfl
@[simp] theorem State.setTeam_enginesPassed (s : State) (t : Nat) (x : Team) : (s.setTeam t x).enginesPassed = s.enginesPassed := rfl
@[simp] theorem State.setTeam_boot (s : State) (t : Nat) (x : Team) : (s.setTeam t x).boot = s.boot := rfl
@[simp] theorem State.setTeam_fused (s : State) (t : Nat) (x : Team) : (s.setTeam t x).fused = s.fused := rfl
@[simp] theorem State.setTeam_retired (s : State) (t : Nat) (x : Team) : (s.setTeam t x).retired = s.retired := rfl
@[simp] theorem State.setTeam_spared (s : State) (t : Nat) (x : Team) : (s.setTeam t x).spared = s.spared := rfl
@[simp] theorem State.setTeam_microcode (s : State) (t : Nat) (x : Team) : (s.setTeam t x).microcode = s.microcode := rfl
@[simp] theorem State.setTeam_controlSram (s : State) (t : Nat) (x : Team) : (s.setTeam t x).controlSram = s.controlSram := rfl

/-! ## State.setGrid -/

@[simp] theorem State.setGrid_inbox (s : State) (g : Nat) (x : Grid) : (s.setGrid g x).inbox = s.inbox := rfl
@[simp] theorem State.setGrid_freeCtr (s : State) (g : Nat) (x : Grid) : (s.setGrid g x).freeCtr = s.freeCtr := rfl
@[simp] theorem State.setGrid_focus (s : State) (g : Nat) (x : Grid) : (s.setGrid g x).focus = s.focus := rfl
@[simp] theorem State.setGrid_lastQuad (s : State) (g : Nat) (x : Grid) : (s.setGrid g x).lastQuad = s.lastQuad := rfl
@[simp] theorem State.setGrid_clock (s : State) (g : Nat) (x : Grid) : (s.setGrid g x).clock = s.clock := rfl
@[simp] theorem State.setGrid_quantumAt (s : State) (g : Nat) (x : Grid) : (s.setGrid g x).quantumAt = s.quantumAt := rfl
@[simp] theorem State.setGrid_stopped (s : State) (g : Nat) (x : Grid) : (s.setGrid g x).stopped = s.stopped := rfl
@[simp] theorem State.setGrid_mem (s : State) (g : Nat) (x : Grid) : (s.setGrid g x).mem = s.mem := rfl
@[simp] theorem State.setGrid_tags (s : State) (g : Nat) (x : Grid) : (s.setGrid g x).tags = s.tags := rfl
@[simp] theorem State.setGrid_dram (s : State) (g : Nat) (x : Grid) : (s.setGrid g x).dram = s.dram := rfl
@[simp] theorem State.setGrid_unflushed (s : State) (g : Nat) (x : Grid) : (s.setGrid g x).unflushed = s.unflushed := rfl
@[simp] theorem State.setGrid_hostStores (s : State) (g : Nat) (x : Grid) : (s.setGrid g x).hostStores = s.hostStores := rfl
@[simp] theorem State.setGrid_absent (s : State) (g : Nat) (x : Grid) : (s.setGrid g x).absent = s.absent := rfl
@[simp] theorem State.setGrid_locks (s : State) (g : Nat) (x : Grid) : (s.setGrid g x).locks = s.locks := rfl
@[simp] theorem State.setGrid_poisoned (s : State) (g : Nat) (x : Grid) : (s.setGrid g x).poisoned = s.poisoned := rfl
@[simp] theorem State.setGrid_copies (s : State) (g : Nat) (x : Grid) : (s.setGrid g x).copies = s.copies := rfl
@[simp] theorem State.setGrid_parked (s : State) (g : Nat) (x : Grid) : (s.setGrid g x).parked = s.parked := rfl
@[simp] theorem State.setGrid_crews (s : State) (g : Nat) (x : Grid) : (s.setGrid g x).crews = s.crews := rfl
@[simp] theorem State.setGrid_teams (s : State) (g : Nat) (x : Grid) : (s.setGrid g x).teams = s.teams := rfl
@[simp] theorem State.setGrid_waiting (s : State) (g : Nat) (x : Grid) : (s.setGrid g x).waiting = s.waiting := rfl
@[simp] theorem State.setGrid_tickets (s : State) (g : Nat) (x : Grid) : (s.setGrid g x).tickets = s.tickets := rfl
@[simp] theorem State.setGrid_quads (s : State) (g : Nat) (x : Grid) : (s.setGrid g x).quads = s.quads := rfl
@[simp] theorem State.setGrid_hash (s : State) (g : Nat) (x : Grid) : (s.setGrid g x).hash = s.hash := rfl
@[simp] theorem State.setGrid_engines (s : State) (g : Nat) (x : Grid) : (s.setGrid g x).engines = s.engines := rfl
@[simp] theorem State.setGrid_fetchCache (s : State) (g : Nat) (x : Grid) : (s.setGrid g x).fetchCache = s.fetchCache := rfl
@[simp] theorem State.setGrid_lifts (s : State) (g : Nat) (x : Grid) : (s.setGrid g x).lifts = s.lifts := rfl
@[simp] theorem State.setGrid_grants (s : State) (g : Nat) (x : Grid) : (s.setGrid g x).grants = s.grants := rfl
@[simp] theorem State.setGrid_token (s : State) (g : Nat) (x : Grid) : (s.setGrid g x).token = s.token := rfl
@[simp] theorem State.setGrid_tokenQueue (s : State) (g : Nat) (x : Grid) : (s.setGrid g x).tokenQueue = s.tokenQueue := rfl
@[simp] theorem State.setGrid_far (s : State) (g : Nat) (x : Grid) : (s.setGrid g x).far = s.far := rfl
@[simp] theorem State.setGrid_farSeq (s : State) (g : Nat) (x : Grid) : (s.setGrid g x).farSeq = s.farSeq := rfl
@[simp] theorem State.setGrid_farPair (s : State) (g : Nat) (x : Grid) : (s.setGrid g x).farPair = s.farPair := rfl
@[simp] theorem State.setGrid_farSeen (s : State) (g : Nat) (x : Grid) : (s.setGrid g x).farSeen = s.farSeen := rfl
@[simp] theorem State.setGrid_linkOut (s : State) (g : Nat) (x : Grid) : (s.setGrid g x).linkOut = s.linkOut := rfl
@[simp] theorem State.setGrid_ports (s : State) (g : Nat) (x : Grid) : (s.setGrid g x).ports = s.ports := rfl
@[simp] theorem State.setGrid_routes (s : State) (g : Nat) (x : Grid) : (s.setGrid g x).routes = s.routes := rfl
@[simp] theorem State.setGrid_ctxs (s : State) (g : Nat) (x : Grid) : (s.setGrid g x).ctxs = s.ctxs := rfl
@[simp] theorem State.setGrid_tlb (s : State) (g : Nat) (x : Grid) : (s.setGrid g x).tlb = s.tlb := rfl
@[simp] theorem State.setGrid_faults (s : State) (g : Nat) (x : Grid) : (s.setGrid g x).faults = s.faults := rfl
@[simp] theorem State.setGrid_dying (s : State) (g : Nat) (x : Grid) : (s.setGrid g x).dying = s.dying := rfl
@[simp] theorem State.setGrid_faultNo (s : State) (g : Nat) (x : Grid) : (s.setGrid g x).faultNo = s.faultNo := rfl
@[simp] theorem State.setGrid_faultTail (s : State) (g : Nat) (x : Grid) : (s.setGrid g x).faultTail = s.faultTail := rfl
@[simp] theorem State.setGrid_faultHead (s : State) (g : Nat) (x : Grid) : (s.setGrid g x).faultHead = s.faultHead := rfl
@[simp] theorem State.setGrid_queues (s : State) (g : Nat) (x : Grid) : (s.setGrid g x).queues = s.queues := rfl
@[simp] theorem State.setGrid_nextQueue (s : State) (g : Nat) (x : Grid) : (s.setGrid g x).nextQueue = s.nextQueue := rfl
@[simp] theorem State.setGrid_bar0 (s : State) (g : Nat) (x : Grid) : (s.setGrid g x).bar0 = s.bar0 := rfl
@[simp] theorem State.setGrid_hostRead (s : State) (g : Nat) (x : Grid) : (s.setGrid g x).hostRead = s.hostRead := rfl
@[simp] theorem State.setGrid_msix (s : State) (g : Nat) (x : Grid) : (s.setGrid g x).msix = s.msix := rfl
@[simp] theorem State.setGrid_hostMem (s : State) (g : Nat) (x : Grid) : (s.setGrid g x).hostMem = s.hostMem := rfl
@[simp] theorem State.setGrid_barLog (s : State) (g : Nat) (x : Grid) : (s.setGrid g x).barLog = s.barLog := rfl
@[simp] theorem State.setGrid_migration (s : State) (g : Nat) (x : Grid) : (s.setGrid g x).migration = s.migration := rfl
@[simp] theorem State.setGrid_cancels (s : State) (g : Nat) (x : Grid) : (s.setGrid g x).cancels = s.cancels := rfl
@[simp] theorem State.setGrid_enginesPassed (s : State) (g : Nat) (x : Grid) : (s.setGrid g x).enginesPassed = s.enginesPassed := rfl
@[simp] theorem State.setGrid_boot (s : State) (g : Nat) (x : Grid) : (s.setGrid g x).boot = s.boot := rfl
@[simp] theorem State.setGrid_fused (s : State) (g : Nat) (x : Grid) : (s.setGrid g x).fused = s.fused := rfl
@[simp] theorem State.setGrid_retired (s : State) (g : Nat) (x : Grid) : (s.setGrid g x).retired = s.retired := rfl
@[simp] theorem State.setGrid_spared (s : State) (g : Nat) (x : Grid) : (s.setGrid g x).spared = s.spared := rfl
@[simp] theorem State.setGrid_microcode (s : State) (g : Nat) (x : Grid) : (s.setGrid g x).microcode = s.microcode := rfl
@[simp] theorem State.setGrid_controlSram (s : State) (g : Nat) (x : Grid) : (s.setGrid g x).controlSram = s.controlSram := rfl

/-! ## State.setQuad -/

@[simp] theorem State.setQuad_inbox (s : State) (q : Nat) (x : Quad) : (s.setQuad q x).inbox = s.inbox := rfl
@[simp] theorem State.setQuad_freeCtr (s : State) (q : Nat) (x : Quad) : (s.setQuad q x).freeCtr = s.freeCtr := rfl
@[simp] theorem State.setQuad_focus (s : State) (q : Nat) (x : Quad) : (s.setQuad q x).focus = s.focus := rfl
@[simp] theorem State.setQuad_lastQuad (s : State) (q : Nat) (x : Quad) : (s.setQuad q x).lastQuad = s.lastQuad := rfl
@[simp] theorem State.setQuad_clock (s : State) (q : Nat) (x : Quad) : (s.setQuad q x).clock = s.clock := rfl
@[simp] theorem State.setQuad_quantumAt (s : State) (q : Nat) (x : Quad) : (s.setQuad q x).quantumAt = s.quantumAt := rfl
@[simp] theorem State.setQuad_stopped (s : State) (q : Nat) (x : Quad) : (s.setQuad q x).stopped = s.stopped := rfl
@[simp] theorem State.setQuad_mem (s : State) (q : Nat) (x : Quad) : (s.setQuad q x).mem = s.mem := rfl
@[simp] theorem State.setQuad_tags (s : State) (q : Nat) (x : Quad) : (s.setQuad q x).tags = s.tags := rfl
@[simp] theorem State.setQuad_dram (s : State) (q : Nat) (x : Quad) : (s.setQuad q x).dram = s.dram := rfl
@[simp] theorem State.setQuad_unflushed (s : State) (q : Nat) (x : Quad) : (s.setQuad q x).unflushed = s.unflushed := rfl
@[simp] theorem State.setQuad_hostStores (s : State) (q : Nat) (x : Quad) : (s.setQuad q x).hostStores = s.hostStores := rfl
@[simp] theorem State.setQuad_absent (s : State) (q : Nat) (x : Quad) : (s.setQuad q x).absent = s.absent := rfl
@[simp] theorem State.setQuad_locks (s : State) (q : Nat) (x : Quad) : (s.setQuad q x).locks = s.locks := rfl
@[simp] theorem State.setQuad_poisoned (s : State) (q : Nat) (x : Quad) : (s.setQuad q x).poisoned = s.poisoned := rfl
@[simp] theorem State.setQuad_copies (s : State) (q : Nat) (x : Quad) : (s.setQuad q x).copies = s.copies := rfl
@[simp] theorem State.setQuad_parked (s : State) (q : Nat) (x : Quad) : (s.setQuad q x).parked = s.parked := rfl
@[simp] theorem State.setQuad_crews (s : State) (q : Nat) (x : Quad) : (s.setQuad q x).crews = s.crews := rfl
@[simp] theorem State.setQuad_teams (s : State) (q : Nat) (x : Quad) : (s.setQuad q x).teams = s.teams := rfl
@[simp] theorem State.setQuad_grids (s : State) (q : Nat) (x : Quad) : (s.setQuad q x).grids = s.grids := rfl
@[simp] theorem State.setQuad_waiting (s : State) (q : Nat) (x : Quad) : (s.setQuad q x).waiting = s.waiting := rfl
@[simp] theorem State.setQuad_tickets (s : State) (q : Nat) (x : Quad) : (s.setQuad q x).tickets = s.tickets := rfl
@[simp] theorem State.setQuad_hash (s : State) (q : Nat) (x : Quad) : (s.setQuad q x).hash = s.hash := rfl
@[simp] theorem State.setQuad_engines (s : State) (q : Nat) (x : Quad) : (s.setQuad q x).engines = s.engines := rfl
@[simp] theorem State.setQuad_fetchCache (s : State) (q : Nat) (x : Quad) : (s.setQuad q x).fetchCache = s.fetchCache := rfl
@[simp] theorem State.setQuad_lifts (s : State) (q : Nat) (x : Quad) : (s.setQuad q x).lifts = s.lifts := rfl
@[simp] theorem State.setQuad_grants (s : State) (q : Nat) (x : Quad) : (s.setQuad q x).grants = s.grants := rfl
@[simp] theorem State.setQuad_token (s : State) (q : Nat) (x : Quad) : (s.setQuad q x).token = s.token := rfl
@[simp] theorem State.setQuad_tokenQueue (s : State) (q : Nat) (x : Quad) : (s.setQuad q x).tokenQueue = s.tokenQueue := rfl
@[simp] theorem State.setQuad_far (s : State) (q : Nat) (x : Quad) : (s.setQuad q x).far = s.far := rfl
@[simp] theorem State.setQuad_farSeq (s : State) (q : Nat) (x : Quad) : (s.setQuad q x).farSeq = s.farSeq := rfl
@[simp] theorem State.setQuad_farPair (s : State) (q : Nat) (x : Quad) : (s.setQuad q x).farPair = s.farPair := rfl
@[simp] theorem State.setQuad_farSeen (s : State) (q : Nat) (x : Quad) : (s.setQuad q x).farSeen = s.farSeen := rfl
@[simp] theorem State.setQuad_linkOut (s : State) (q : Nat) (x : Quad) : (s.setQuad q x).linkOut = s.linkOut := rfl
@[simp] theorem State.setQuad_ports (s : State) (q : Nat) (x : Quad) : (s.setQuad q x).ports = s.ports := rfl
@[simp] theorem State.setQuad_routes (s : State) (q : Nat) (x : Quad) : (s.setQuad q x).routes = s.routes := rfl
@[simp] theorem State.setQuad_ctxs (s : State) (q : Nat) (x : Quad) : (s.setQuad q x).ctxs = s.ctxs := rfl
@[simp] theorem State.setQuad_tlb (s : State) (q : Nat) (x : Quad) : (s.setQuad q x).tlb = s.tlb := rfl
@[simp] theorem State.setQuad_faults (s : State) (q : Nat) (x : Quad) : (s.setQuad q x).faults = s.faults := rfl
@[simp] theorem State.setQuad_dying (s : State) (q : Nat) (x : Quad) : (s.setQuad q x).dying = s.dying := rfl
@[simp] theorem State.setQuad_faultNo (s : State) (q : Nat) (x : Quad) : (s.setQuad q x).faultNo = s.faultNo := rfl
@[simp] theorem State.setQuad_faultTail (s : State) (q : Nat) (x : Quad) : (s.setQuad q x).faultTail = s.faultTail := rfl
@[simp] theorem State.setQuad_faultHead (s : State) (q : Nat) (x : Quad) : (s.setQuad q x).faultHead = s.faultHead := rfl
@[simp] theorem State.setQuad_queues (s : State) (q : Nat) (x : Quad) : (s.setQuad q x).queues = s.queues := rfl
@[simp] theorem State.setQuad_nextQueue (s : State) (q : Nat) (x : Quad) : (s.setQuad q x).nextQueue = s.nextQueue := rfl
@[simp] theorem State.setQuad_bar0 (s : State) (q : Nat) (x : Quad) : (s.setQuad q x).bar0 = s.bar0 := rfl
@[simp] theorem State.setQuad_hostRead (s : State) (q : Nat) (x : Quad) : (s.setQuad q x).hostRead = s.hostRead := rfl
@[simp] theorem State.setQuad_msix (s : State) (q : Nat) (x : Quad) : (s.setQuad q x).msix = s.msix := rfl
@[simp] theorem State.setQuad_hostMem (s : State) (q : Nat) (x : Quad) : (s.setQuad q x).hostMem = s.hostMem := rfl
@[simp] theorem State.setQuad_barLog (s : State) (q : Nat) (x : Quad) : (s.setQuad q x).barLog = s.barLog := rfl
@[simp] theorem State.setQuad_migration (s : State) (q : Nat) (x : Quad) : (s.setQuad q x).migration = s.migration := rfl
@[simp] theorem State.setQuad_cancels (s : State) (q : Nat) (x : Quad) : (s.setQuad q x).cancels = s.cancels := rfl
@[simp] theorem State.setQuad_enginesPassed (s : State) (q : Nat) (x : Quad) : (s.setQuad q x).enginesPassed = s.enginesPassed := rfl
@[simp] theorem State.setQuad_boot (s : State) (q : Nat) (x : Quad) : (s.setQuad q x).boot = s.boot := rfl
@[simp] theorem State.setQuad_fused (s : State) (q : Nat) (x : Quad) : (s.setQuad q x).fused = s.fused := rfl
@[simp] theorem State.setQuad_retired (s : State) (q : Nat) (x : Quad) : (s.setQuad q x).retired = s.retired := rfl
@[simp] theorem State.setQuad_spared (s : State) (q : Nat) (x : Quad) : (s.setQuad q x).spared = s.spared := rfl
@[simp] theorem State.setQuad_microcode (s : State) (q : Nat) (x : Quad) : (s.setQuad q x).microcode = s.microcode := rfl
@[simp] theorem State.setQuad_controlSram (s : State) (q : Nat) (x : Quad) : (s.setQuad q x).controlSram = s.controlSram := rfl

/-! ## State.pokeBytes -/

@[simp] theorem State.pokeBytes_inbox (s : State) (k : Nat) (bs : List Byte) : (s.pokeBytes k bs).inbox = s.inbox := rfl
@[simp] theorem State.pokeBytes_freeCtr (s : State) (k : Nat) (bs : List Byte) : (s.pokeBytes k bs).freeCtr = s.freeCtr := rfl
@[simp] theorem State.pokeBytes_focus (s : State) (k : Nat) (bs : List Byte) : (s.pokeBytes k bs).focus = s.focus := rfl
@[simp] theorem State.pokeBytes_lastQuad (s : State) (k : Nat) (bs : List Byte) : (s.pokeBytes k bs).lastQuad = s.lastQuad := rfl
@[simp] theorem State.pokeBytes_clock (s : State) (k : Nat) (bs : List Byte) : (s.pokeBytes k bs).clock = s.clock := rfl
@[simp] theorem State.pokeBytes_quantumAt (s : State) (k : Nat) (bs : List Byte) : (s.pokeBytes k bs).quantumAt = s.quantumAt := rfl
@[simp] theorem State.pokeBytes_stopped (s : State) (k : Nat) (bs : List Byte) : (s.pokeBytes k bs).stopped = s.stopped := rfl
@[simp] theorem State.pokeBytes_tags (s : State) (k : Nat) (bs : List Byte) : (s.pokeBytes k bs).tags = s.tags := rfl
@[simp] theorem State.pokeBytes_dram (s : State) (k : Nat) (bs : List Byte) : (s.pokeBytes k bs).dram = s.dram := rfl
@[simp] theorem State.pokeBytes_unflushed (s : State) (k : Nat) (bs : List Byte) : (s.pokeBytes k bs).unflushed = s.unflushed := rfl
@[simp] theorem State.pokeBytes_hostStores (s : State) (k : Nat) (bs : List Byte) : (s.pokeBytes k bs).hostStores = s.hostStores := rfl
@[simp] theorem State.pokeBytes_absent (s : State) (k : Nat) (bs : List Byte) : (s.pokeBytes k bs).absent = s.absent := rfl
@[simp] theorem State.pokeBytes_locks (s : State) (k : Nat) (bs : List Byte) : (s.pokeBytes k bs).locks = s.locks := rfl
@[simp] theorem State.pokeBytes_poisoned (s : State) (k : Nat) (bs : List Byte) : (s.pokeBytes k bs).poisoned = s.poisoned := rfl
@[simp] theorem State.pokeBytes_copies (s : State) (k : Nat) (bs : List Byte) : (s.pokeBytes k bs).copies = s.copies := rfl
@[simp] theorem State.pokeBytes_parked (s : State) (k : Nat) (bs : List Byte) : (s.pokeBytes k bs).parked = s.parked := rfl
@[simp] theorem State.pokeBytes_crews (s : State) (k : Nat) (bs : List Byte) : (s.pokeBytes k bs).crews = s.crews := rfl
@[simp] theorem State.pokeBytes_teams (s : State) (k : Nat) (bs : List Byte) : (s.pokeBytes k bs).teams = s.teams := rfl
@[simp] theorem State.pokeBytes_grids (s : State) (k : Nat) (bs : List Byte) : (s.pokeBytes k bs).grids = s.grids := rfl
@[simp] theorem State.pokeBytes_waiting (s : State) (k : Nat) (bs : List Byte) : (s.pokeBytes k bs).waiting = s.waiting := rfl
@[simp] theorem State.pokeBytes_tickets (s : State) (k : Nat) (bs : List Byte) : (s.pokeBytes k bs).tickets = s.tickets := rfl
@[simp] theorem State.pokeBytes_quads (s : State) (k : Nat) (bs : List Byte) : (s.pokeBytes k bs).quads = s.quads := rfl
@[simp] theorem State.pokeBytes_hash (s : State) (k : Nat) (bs : List Byte) : (s.pokeBytes k bs).hash = s.hash := rfl
@[simp] theorem State.pokeBytes_engines (s : State) (k : Nat) (bs : List Byte) : (s.pokeBytes k bs).engines = s.engines := rfl
@[simp] theorem State.pokeBytes_fetchCache (s : State) (k : Nat) (bs : List Byte) : (s.pokeBytes k bs).fetchCache = s.fetchCache := rfl
@[simp] theorem State.pokeBytes_lifts (s : State) (k : Nat) (bs : List Byte) : (s.pokeBytes k bs).lifts = s.lifts := rfl
@[simp] theorem State.pokeBytes_grants (s : State) (k : Nat) (bs : List Byte) : (s.pokeBytes k bs).grants = s.grants := rfl
@[simp] theorem State.pokeBytes_token (s : State) (k : Nat) (bs : List Byte) : (s.pokeBytes k bs).token = s.token := rfl
@[simp] theorem State.pokeBytes_tokenQueue (s : State) (k : Nat) (bs : List Byte) : (s.pokeBytes k bs).tokenQueue = s.tokenQueue := rfl
@[simp] theorem State.pokeBytes_far (s : State) (k : Nat) (bs : List Byte) : (s.pokeBytes k bs).far = s.far := rfl
@[simp] theorem State.pokeBytes_farSeq (s : State) (k : Nat) (bs : List Byte) : (s.pokeBytes k bs).farSeq = s.farSeq := rfl
@[simp] theorem State.pokeBytes_farPair (s : State) (k : Nat) (bs : List Byte) : (s.pokeBytes k bs).farPair = s.farPair := rfl
@[simp] theorem State.pokeBytes_farSeen (s : State) (k : Nat) (bs : List Byte) : (s.pokeBytes k bs).farSeen = s.farSeen := rfl
@[simp] theorem State.pokeBytes_linkOut (s : State) (k : Nat) (bs : List Byte) : (s.pokeBytes k bs).linkOut = s.linkOut := rfl
@[simp] theorem State.pokeBytes_ports (s : State) (k : Nat) (bs : List Byte) : (s.pokeBytes k bs).ports = s.ports := rfl
@[simp] theorem State.pokeBytes_routes (s : State) (k : Nat) (bs : List Byte) : (s.pokeBytes k bs).routes = s.routes := rfl
@[simp] theorem State.pokeBytes_ctxs (s : State) (k : Nat) (bs : List Byte) : (s.pokeBytes k bs).ctxs = s.ctxs := rfl
@[simp] theorem State.pokeBytes_tlb (s : State) (k : Nat) (bs : List Byte) : (s.pokeBytes k bs).tlb = s.tlb := rfl
@[simp] theorem State.pokeBytes_faults (s : State) (k : Nat) (bs : List Byte) : (s.pokeBytes k bs).faults = s.faults := rfl
@[simp] theorem State.pokeBytes_dying (s : State) (k : Nat) (bs : List Byte) : (s.pokeBytes k bs).dying = s.dying := rfl
@[simp] theorem State.pokeBytes_faultNo (s : State) (k : Nat) (bs : List Byte) : (s.pokeBytes k bs).faultNo = s.faultNo := rfl
@[simp] theorem State.pokeBytes_faultTail (s : State) (k : Nat) (bs : List Byte) : (s.pokeBytes k bs).faultTail = s.faultTail := rfl
@[simp] theorem State.pokeBytes_faultHead (s : State) (k : Nat) (bs : List Byte) : (s.pokeBytes k bs).faultHead = s.faultHead := rfl
@[simp] theorem State.pokeBytes_queues (s : State) (k : Nat) (bs : List Byte) : (s.pokeBytes k bs).queues = s.queues := rfl
@[simp] theorem State.pokeBytes_nextQueue (s : State) (k : Nat) (bs : List Byte) : (s.pokeBytes k bs).nextQueue = s.nextQueue := rfl
@[simp] theorem State.pokeBytes_bar0 (s : State) (k : Nat) (bs : List Byte) : (s.pokeBytes k bs).bar0 = s.bar0 := rfl
@[simp] theorem State.pokeBytes_hostRead (s : State) (k : Nat) (bs : List Byte) : (s.pokeBytes k bs).hostRead = s.hostRead := rfl
@[simp] theorem State.pokeBytes_msix (s : State) (k : Nat) (bs : List Byte) : (s.pokeBytes k bs).msix = s.msix := rfl
@[simp] theorem State.pokeBytes_hostMem (s : State) (k : Nat) (bs : List Byte) : (s.pokeBytes k bs).hostMem = s.hostMem := rfl
@[simp] theorem State.pokeBytes_barLog (s : State) (k : Nat) (bs : List Byte) : (s.pokeBytes k bs).barLog = s.barLog := rfl
@[simp] theorem State.pokeBytes_migration (s : State) (k : Nat) (bs : List Byte) : (s.pokeBytes k bs).migration = s.migration := rfl
@[simp] theorem State.pokeBytes_cancels (s : State) (k : Nat) (bs : List Byte) : (s.pokeBytes k bs).cancels = s.cancels := rfl
@[simp] theorem State.pokeBytes_enginesPassed (s : State) (k : Nat) (bs : List Byte) : (s.pokeBytes k bs).enginesPassed = s.enginesPassed := rfl
@[simp] theorem State.pokeBytes_boot (s : State) (k : Nat) (bs : List Byte) : (s.pokeBytes k bs).boot = s.boot := rfl
@[simp] theorem State.pokeBytes_fused (s : State) (k : Nat) (bs : List Byte) : (s.pokeBytes k bs).fused = s.fused := rfl
@[simp] theorem State.pokeBytes_retired (s : State) (k : Nat) (bs : List Byte) : (s.pokeBytes k bs).retired = s.retired := rfl
@[simp] theorem State.pokeBytes_spared (s : State) (k : Nat) (bs : List Byte) : (s.pokeBytes k bs).spared = s.spared := rfl
@[simp] theorem State.pokeBytes_microcode (s : State) (k : Nat) (bs : List Byte) : (s.pokeBytes k bs).microcode = s.microcode := rfl
@[simp] theorem State.pokeBytes_controlSram (s : State) (k : Nat) (bs : List Byte) : (s.pokeBytes k bs).controlSram = s.controlSram := rfl

/-! ## State.pokeTag -/

@[simp] theorem State.pokeTag_inbox (s : State) (w : Nat) (t : Tag) : (s.pokeTag w t).inbox = s.inbox := rfl
@[simp] theorem State.pokeTag_freeCtr (s : State) (w : Nat) (t : Tag) : (s.pokeTag w t).freeCtr = s.freeCtr := rfl
@[simp] theorem State.pokeTag_focus (s : State) (w : Nat) (t : Tag) : (s.pokeTag w t).focus = s.focus := rfl
@[simp] theorem State.pokeTag_lastQuad (s : State) (w : Nat) (t : Tag) : (s.pokeTag w t).lastQuad = s.lastQuad := rfl
@[simp] theorem State.pokeTag_clock (s : State) (w : Nat) (t : Tag) : (s.pokeTag w t).clock = s.clock := rfl
@[simp] theorem State.pokeTag_quantumAt (s : State) (w : Nat) (t : Tag) : (s.pokeTag w t).quantumAt = s.quantumAt := rfl
@[simp] theorem State.pokeTag_stopped (s : State) (w : Nat) (t : Tag) : (s.pokeTag w t).stopped = s.stopped := rfl
@[simp] theorem State.pokeTag_mem (s : State) (w : Nat) (t : Tag) : (s.pokeTag w t).mem = s.mem := rfl
@[simp] theorem State.pokeTag_dram (s : State) (w : Nat) (t : Tag) : (s.pokeTag w t).dram = s.dram := rfl
@[simp] theorem State.pokeTag_unflushed (s : State) (w : Nat) (t : Tag) : (s.pokeTag w t).unflushed = s.unflushed := rfl
@[simp] theorem State.pokeTag_hostStores (s : State) (w : Nat) (t : Tag) : (s.pokeTag w t).hostStores = s.hostStores := rfl
@[simp] theorem State.pokeTag_absent (s : State) (w : Nat) (t : Tag) : (s.pokeTag w t).absent = s.absent := rfl
@[simp] theorem State.pokeTag_locks (s : State) (w : Nat) (t : Tag) : (s.pokeTag w t).locks = s.locks := rfl
@[simp] theorem State.pokeTag_poisoned (s : State) (w : Nat) (t : Tag) : (s.pokeTag w t).poisoned = s.poisoned := rfl
@[simp] theorem State.pokeTag_copies (s : State) (w : Nat) (t : Tag) : (s.pokeTag w t).copies = s.copies := rfl
@[simp] theorem State.pokeTag_parked (s : State) (w : Nat) (t : Tag) : (s.pokeTag w t).parked = s.parked := rfl
@[simp] theorem State.pokeTag_crews (s : State) (w : Nat) (t : Tag) : (s.pokeTag w t).crews = s.crews := rfl
@[simp] theorem State.pokeTag_teams (s : State) (w : Nat) (t : Tag) : (s.pokeTag w t).teams = s.teams := rfl
@[simp] theorem State.pokeTag_grids (s : State) (w : Nat) (t : Tag) : (s.pokeTag w t).grids = s.grids := rfl
@[simp] theorem State.pokeTag_waiting (s : State) (w : Nat) (t : Tag) : (s.pokeTag w t).waiting = s.waiting := rfl
@[simp] theorem State.pokeTag_tickets (s : State) (w : Nat) (t : Tag) : (s.pokeTag w t).tickets = s.tickets := rfl
@[simp] theorem State.pokeTag_quads (s : State) (w : Nat) (t : Tag) : (s.pokeTag w t).quads = s.quads := rfl
@[simp] theorem State.pokeTag_hash (s : State) (w : Nat) (t : Tag) : (s.pokeTag w t).hash = s.hash := rfl
@[simp] theorem State.pokeTag_engines (s : State) (w : Nat) (t : Tag) : (s.pokeTag w t).engines = s.engines := rfl
@[simp] theorem State.pokeTag_fetchCache (s : State) (w : Nat) (t : Tag) : (s.pokeTag w t).fetchCache = s.fetchCache := rfl
@[simp] theorem State.pokeTag_lifts (s : State) (w : Nat) (t : Tag) : (s.pokeTag w t).lifts = s.lifts := rfl
@[simp] theorem State.pokeTag_grants (s : State) (w : Nat) (t : Tag) : (s.pokeTag w t).grants = s.grants := rfl
@[simp] theorem State.pokeTag_token (s : State) (w : Nat) (t : Tag) : (s.pokeTag w t).token = s.token := rfl
@[simp] theorem State.pokeTag_tokenQueue (s : State) (w : Nat) (t : Tag) : (s.pokeTag w t).tokenQueue = s.tokenQueue := rfl
@[simp] theorem State.pokeTag_far (s : State) (w : Nat) (t : Tag) : (s.pokeTag w t).far = s.far := rfl
@[simp] theorem State.pokeTag_farSeq (s : State) (w : Nat) (t : Tag) : (s.pokeTag w t).farSeq = s.farSeq := rfl
@[simp] theorem State.pokeTag_farPair (s : State) (w : Nat) (t : Tag) : (s.pokeTag w t).farPair = s.farPair := rfl
@[simp] theorem State.pokeTag_farSeen (s : State) (w : Nat) (t : Tag) : (s.pokeTag w t).farSeen = s.farSeen := rfl
@[simp] theorem State.pokeTag_linkOut (s : State) (w : Nat) (t : Tag) : (s.pokeTag w t).linkOut = s.linkOut := rfl
@[simp] theorem State.pokeTag_ports (s : State) (w : Nat) (t : Tag) : (s.pokeTag w t).ports = s.ports := rfl
@[simp] theorem State.pokeTag_routes (s : State) (w : Nat) (t : Tag) : (s.pokeTag w t).routes = s.routes := rfl
@[simp] theorem State.pokeTag_ctxs (s : State) (w : Nat) (t : Tag) : (s.pokeTag w t).ctxs = s.ctxs := rfl
@[simp] theorem State.pokeTag_tlb (s : State) (w : Nat) (t : Tag) : (s.pokeTag w t).tlb = s.tlb := rfl
@[simp] theorem State.pokeTag_faults (s : State) (w : Nat) (t : Tag) : (s.pokeTag w t).faults = s.faults := rfl
@[simp] theorem State.pokeTag_dying (s : State) (w : Nat) (t : Tag) : (s.pokeTag w t).dying = s.dying := rfl
@[simp] theorem State.pokeTag_faultNo (s : State) (w : Nat) (t : Tag) : (s.pokeTag w t).faultNo = s.faultNo := rfl
@[simp] theorem State.pokeTag_faultTail (s : State) (w : Nat) (t : Tag) : (s.pokeTag w t).faultTail = s.faultTail := rfl
@[simp] theorem State.pokeTag_faultHead (s : State) (w : Nat) (t : Tag) : (s.pokeTag w t).faultHead = s.faultHead := rfl
@[simp] theorem State.pokeTag_queues (s : State) (w : Nat) (t : Tag) : (s.pokeTag w t).queues = s.queues := rfl
@[simp] theorem State.pokeTag_nextQueue (s : State) (w : Nat) (t : Tag) : (s.pokeTag w t).nextQueue = s.nextQueue := rfl
@[simp] theorem State.pokeTag_bar0 (s : State) (w : Nat) (t : Tag) : (s.pokeTag w t).bar0 = s.bar0 := rfl
@[simp] theorem State.pokeTag_hostRead (s : State) (w : Nat) (t : Tag) : (s.pokeTag w t).hostRead = s.hostRead := rfl
@[simp] theorem State.pokeTag_msix (s : State) (w : Nat) (t : Tag) : (s.pokeTag w t).msix = s.msix := rfl
@[simp] theorem State.pokeTag_hostMem (s : State) (w : Nat) (t : Tag) : (s.pokeTag w t).hostMem = s.hostMem := rfl
@[simp] theorem State.pokeTag_barLog (s : State) (w : Nat) (t : Tag) : (s.pokeTag w t).barLog = s.barLog := rfl
@[simp] theorem State.pokeTag_migration (s : State) (w : Nat) (t : Tag) : (s.pokeTag w t).migration = s.migration := rfl
@[simp] theorem State.pokeTag_cancels (s : State) (w : Nat) (t : Tag) : (s.pokeTag w t).cancels = s.cancels := rfl
@[simp] theorem State.pokeTag_enginesPassed (s : State) (w : Nat) (t : Tag) : (s.pokeTag w t).enginesPassed = s.enginesPassed := rfl
@[simp] theorem State.pokeTag_boot (s : State) (w : Nat) (t : Tag) : (s.pokeTag w t).boot = s.boot := rfl
@[simp] theorem State.pokeTag_fused (s : State) (w : Nat) (t : Tag) : (s.pokeTag w t).fused = s.fused := rfl
@[simp] theorem State.pokeTag_retired (s : State) (w : Nat) (t : Tag) : (s.pokeTag w t).retired = s.retired := rfl
@[simp] theorem State.pokeTag_spared (s : State) (w : Nat) (t : Tag) : (s.pokeTag w t).spared = s.spared := rfl
@[simp] theorem State.pokeTag_microcode (s : State) (w : Nat) (t : Tag) : (s.pokeTag w t).microcode = s.microcode := rfl
@[simp] theorem State.pokeTag_controlSram (s : State) (w : Nat) (t : Tag) : (s.pokeTag w t).controlSram = s.controlSram := rfl

/-! ## State.setBar -/

@[simp] theorem State.setBar_inbox (s : State) (a : Nat) (v : BitVec 64) : (s.setBar a v).inbox = s.inbox := rfl
@[simp] theorem State.setBar_freeCtr (s : State) (a : Nat) (v : BitVec 64) : (s.setBar a v).freeCtr = s.freeCtr := rfl
@[simp] theorem State.setBar_focus (s : State) (a : Nat) (v : BitVec 64) : (s.setBar a v).focus = s.focus := rfl
@[simp] theorem State.setBar_lastQuad (s : State) (a : Nat) (v : BitVec 64) : (s.setBar a v).lastQuad = s.lastQuad := rfl
@[simp] theorem State.setBar_clock (s : State) (a : Nat) (v : BitVec 64) : (s.setBar a v).clock = s.clock := rfl
@[simp] theorem State.setBar_quantumAt (s : State) (a : Nat) (v : BitVec 64) : (s.setBar a v).quantumAt = s.quantumAt := rfl
@[simp] theorem State.setBar_stopped (s : State) (a : Nat) (v : BitVec 64) : (s.setBar a v).stopped = s.stopped := rfl
@[simp] theorem State.setBar_mem (s : State) (a : Nat) (v : BitVec 64) : (s.setBar a v).mem = s.mem := rfl
@[simp] theorem State.setBar_tags (s : State) (a : Nat) (v : BitVec 64) : (s.setBar a v).tags = s.tags := rfl
@[simp] theorem State.setBar_dram (s : State) (a : Nat) (v : BitVec 64) : (s.setBar a v).dram = s.dram := rfl
@[simp] theorem State.setBar_unflushed (s : State) (a : Nat) (v : BitVec 64) : (s.setBar a v).unflushed = s.unflushed := rfl
@[simp] theorem State.setBar_hostStores (s : State) (a : Nat) (v : BitVec 64) : (s.setBar a v).hostStores = s.hostStores := rfl
@[simp] theorem State.setBar_absent (s : State) (a : Nat) (v : BitVec 64) : (s.setBar a v).absent = s.absent := rfl
@[simp] theorem State.setBar_locks (s : State) (a : Nat) (v : BitVec 64) : (s.setBar a v).locks = s.locks := rfl
@[simp] theorem State.setBar_poisoned (s : State) (a : Nat) (v : BitVec 64) : (s.setBar a v).poisoned = s.poisoned := rfl
@[simp] theorem State.setBar_copies (s : State) (a : Nat) (v : BitVec 64) : (s.setBar a v).copies = s.copies := rfl
@[simp] theorem State.setBar_parked (s : State) (a : Nat) (v : BitVec 64) : (s.setBar a v).parked = s.parked := rfl
@[simp] theorem State.setBar_crews (s : State) (a : Nat) (v : BitVec 64) : (s.setBar a v).crews = s.crews := rfl
@[simp] theorem State.setBar_teams (s : State) (a : Nat) (v : BitVec 64) : (s.setBar a v).teams = s.teams := rfl
@[simp] theorem State.setBar_grids (s : State) (a : Nat) (v : BitVec 64) : (s.setBar a v).grids = s.grids := rfl
@[simp] theorem State.setBar_waiting (s : State) (a : Nat) (v : BitVec 64) : (s.setBar a v).waiting = s.waiting := rfl
@[simp] theorem State.setBar_tickets (s : State) (a : Nat) (v : BitVec 64) : (s.setBar a v).tickets = s.tickets := rfl
@[simp] theorem State.setBar_quads (s : State) (a : Nat) (v : BitVec 64) : (s.setBar a v).quads = s.quads := rfl
@[simp] theorem State.setBar_hash (s : State) (a : Nat) (v : BitVec 64) : (s.setBar a v).hash = s.hash := rfl
@[simp] theorem State.setBar_engines (s : State) (a : Nat) (v : BitVec 64) : (s.setBar a v).engines = s.engines := rfl
@[simp] theorem State.setBar_fetchCache (s : State) (a : Nat) (v : BitVec 64) : (s.setBar a v).fetchCache = s.fetchCache := rfl
@[simp] theorem State.setBar_lifts (s : State) (a : Nat) (v : BitVec 64) : (s.setBar a v).lifts = s.lifts := rfl
@[simp] theorem State.setBar_grants (s : State) (a : Nat) (v : BitVec 64) : (s.setBar a v).grants = s.grants := rfl
@[simp] theorem State.setBar_token (s : State) (a : Nat) (v : BitVec 64) : (s.setBar a v).token = s.token := rfl
@[simp] theorem State.setBar_tokenQueue (s : State) (a : Nat) (v : BitVec 64) : (s.setBar a v).tokenQueue = s.tokenQueue := rfl
@[simp] theorem State.setBar_far (s : State) (a : Nat) (v : BitVec 64) : (s.setBar a v).far = s.far := rfl
@[simp] theorem State.setBar_farSeq (s : State) (a : Nat) (v : BitVec 64) : (s.setBar a v).farSeq = s.farSeq := rfl
@[simp] theorem State.setBar_farPair (s : State) (a : Nat) (v : BitVec 64) : (s.setBar a v).farPair = s.farPair := rfl
@[simp] theorem State.setBar_farSeen (s : State) (a : Nat) (v : BitVec 64) : (s.setBar a v).farSeen = s.farSeen := rfl
@[simp] theorem State.setBar_linkOut (s : State) (a : Nat) (v : BitVec 64) : (s.setBar a v).linkOut = s.linkOut := rfl
@[simp] theorem State.setBar_ports (s : State) (a : Nat) (v : BitVec 64) : (s.setBar a v).ports = s.ports := rfl
@[simp] theorem State.setBar_routes (s : State) (a : Nat) (v : BitVec 64) : (s.setBar a v).routes = s.routes := rfl
@[simp] theorem State.setBar_ctxs (s : State) (a : Nat) (v : BitVec 64) : (s.setBar a v).ctxs = s.ctxs := rfl
@[simp] theorem State.setBar_tlb (s : State) (a : Nat) (v : BitVec 64) : (s.setBar a v).tlb = s.tlb := rfl
@[simp] theorem State.setBar_faults (s : State) (a : Nat) (v : BitVec 64) : (s.setBar a v).faults = s.faults := rfl
@[simp] theorem State.setBar_dying (s : State) (a : Nat) (v : BitVec 64) : (s.setBar a v).dying = s.dying := rfl
@[simp] theorem State.setBar_faultNo (s : State) (a : Nat) (v : BitVec 64) : (s.setBar a v).faultNo = s.faultNo := rfl
@[simp] theorem State.setBar_faultTail (s : State) (a : Nat) (v : BitVec 64) : (s.setBar a v).faultTail = s.faultTail := rfl
@[simp] theorem State.setBar_faultHead (s : State) (a : Nat) (v : BitVec 64) : (s.setBar a v).faultHead = s.faultHead := rfl
@[simp] theorem State.setBar_queues (s : State) (a : Nat) (v : BitVec 64) : (s.setBar a v).queues = s.queues := rfl
@[simp] theorem State.setBar_nextQueue (s : State) (a : Nat) (v : BitVec 64) : (s.setBar a v).nextQueue = s.nextQueue := rfl
@[simp] theorem State.setBar_hostRead (s : State) (a : Nat) (v : BitVec 64) : (s.setBar a v).hostRead = s.hostRead := rfl
@[simp] theorem State.setBar_msix (s : State) (a : Nat) (v : BitVec 64) : (s.setBar a v).msix = s.msix := rfl
@[simp] theorem State.setBar_hostMem (s : State) (a : Nat) (v : BitVec 64) : (s.setBar a v).hostMem = s.hostMem := rfl
@[simp] theorem State.setBar_barLog (s : State) (a : Nat) (v : BitVec 64) : (s.setBar a v).barLog = s.barLog := rfl
@[simp] theorem State.setBar_migration (s : State) (a : Nat) (v : BitVec 64) : (s.setBar a v).migration = s.migration := rfl
@[simp] theorem State.setBar_cancels (s : State) (a : Nat) (v : BitVec 64) : (s.setBar a v).cancels = s.cancels := rfl
@[simp] theorem State.setBar_enginesPassed (s : State) (a : Nat) (v : BitVec 64) : (s.setBar a v).enginesPassed = s.enginesPassed := rfl
@[simp] theorem State.setBar_boot (s : State) (a : Nat) (v : BitVec 64) : (s.setBar a v).boot = s.boot := rfl
@[simp] theorem State.setBar_fused (s : State) (a : Nat) (v : BitVec 64) : (s.setBar a v).fused = s.fused := rfl
@[simp] theorem State.setBar_retired (s : State) (a : Nat) (v : BitVec 64) : (s.setBar a v).retired = s.retired := rfl
@[simp] theorem State.setBar_spared (s : State) (a : Nat) (v : BitVec 64) : (s.setBar a v).spared = s.spared := rfl
@[simp] theorem State.setBar_microcode (s : State) (a : Nat) (v : BitVec 64) : (s.setBar a v).microcode = s.microcode := rfl
@[simp] theorem State.setBar_controlSram (s : State) (a : Nat) (v : BitVec 64) : (s.setBar a v).controlSram = s.controlSram := rfl

/-! ## State.sendMsi -/

@[simp] theorem State.sendMsi_inbox (s : State) (v : Nat) : (s.sendMsi v).inbox = s.inbox := rfl
@[simp] theorem State.sendMsi_freeCtr (s : State) (v : Nat) : (s.sendMsi v).freeCtr = s.freeCtr := rfl
@[simp] theorem State.sendMsi_focus (s : State) (v : Nat) : (s.sendMsi v).focus = s.focus := rfl
@[simp] theorem State.sendMsi_lastQuad (s : State) (v : Nat) : (s.sendMsi v).lastQuad = s.lastQuad := rfl
@[simp] theorem State.sendMsi_clock (s : State) (v : Nat) : (s.sendMsi v).clock = s.clock := rfl
@[simp] theorem State.sendMsi_quantumAt (s : State) (v : Nat) : (s.sendMsi v).quantumAt = s.quantumAt := rfl
@[simp] theorem State.sendMsi_stopped (s : State) (v : Nat) : (s.sendMsi v).stopped = s.stopped := rfl
@[simp] theorem State.sendMsi_mem (s : State) (v : Nat) : (s.sendMsi v).mem = s.mem := rfl
@[simp] theorem State.sendMsi_tags (s : State) (v : Nat) : (s.sendMsi v).tags = s.tags := rfl
@[simp] theorem State.sendMsi_dram (s : State) (v : Nat) : (s.sendMsi v).dram = s.dram := rfl
@[simp] theorem State.sendMsi_unflushed (s : State) (v : Nat) : (s.sendMsi v).unflushed = s.unflushed := rfl
@[simp] theorem State.sendMsi_hostStores (s : State) (v : Nat) : (s.sendMsi v).hostStores = s.hostStores := rfl
@[simp] theorem State.sendMsi_absent (s : State) (v : Nat) : (s.sendMsi v).absent = s.absent := rfl
@[simp] theorem State.sendMsi_locks (s : State) (v : Nat) : (s.sendMsi v).locks = s.locks := rfl
@[simp] theorem State.sendMsi_poisoned (s : State) (v : Nat) : (s.sendMsi v).poisoned = s.poisoned := rfl
@[simp] theorem State.sendMsi_copies (s : State) (v : Nat) : (s.sendMsi v).copies = s.copies := rfl
@[simp] theorem State.sendMsi_parked (s : State) (v : Nat) : (s.sendMsi v).parked = s.parked := rfl
@[simp] theorem State.sendMsi_crews (s : State) (v : Nat) : (s.sendMsi v).crews = s.crews := rfl
@[simp] theorem State.sendMsi_teams (s : State) (v : Nat) : (s.sendMsi v).teams = s.teams := rfl
@[simp] theorem State.sendMsi_grids (s : State) (v : Nat) : (s.sendMsi v).grids = s.grids := rfl
@[simp] theorem State.sendMsi_waiting (s : State) (v : Nat) : (s.sendMsi v).waiting = s.waiting := rfl
@[simp] theorem State.sendMsi_tickets (s : State) (v : Nat) : (s.sendMsi v).tickets = s.tickets := rfl
@[simp] theorem State.sendMsi_quads (s : State) (v : Nat) : (s.sendMsi v).quads = s.quads := rfl
@[simp] theorem State.sendMsi_hash (s : State) (v : Nat) : (s.sendMsi v).hash = s.hash := rfl
@[simp] theorem State.sendMsi_engines (s : State) (v : Nat) : (s.sendMsi v).engines = s.engines := rfl
@[simp] theorem State.sendMsi_fetchCache (s : State) (v : Nat) : (s.sendMsi v).fetchCache = s.fetchCache := rfl
@[simp] theorem State.sendMsi_lifts (s : State) (v : Nat) : (s.sendMsi v).lifts = s.lifts := rfl
@[simp] theorem State.sendMsi_grants (s : State) (v : Nat) : (s.sendMsi v).grants = s.grants := rfl
@[simp] theorem State.sendMsi_token (s : State) (v : Nat) : (s.sendMsi v).token = s.token := rfl
@[simp] theorem State.sendMsi_tokenQueue (s : State) (v : Nat) : (s.sendMsi v).tokenQueue = s.tokenQueue := rfl
@[simp] theorem State.sendMsi_far (s : State) (v : Nat) : (s.sendMsi v).far = s.far := rfl
@[simp] theorem State.sendMsi_farSeq (s : State) (v : Nat) : (s.sendMsi v).farSeq = s.farSeq := rfl
@[simp] theorem State.sendMsi_farPair (s : State) (v : Nat) : (s.sendMsi v).farPair = s.farPair := rfl
@[simp] theorem State.sendMsi_farSeen (s : State) (v : Nat) : (s.sendMsi v).farSeen = s.farSeen := rfl
@[simp] theorem State.sendMsi_linkOut (s : State) (v : Nat) : (s.sendMsi v).linkOut = s.linkOut := rfl
@[simp] theorem State.sendMsi_ports (s : State) (v : Nat) : (s.sendMsi v).ports = s.ports := rfl
@[simp] theorem State.sendMsi_routes (s : State) (v : Nat) : (s.sendMsi v).routes = s.routes := rfl
@[simp] theorem State.sendMsi_ctxs (s : State) (v : Nat) : (s.sendMsi v).ctxs = s.ctxs := rfl
@[simp] theorem State.sendMsi_tlb (s : State) (v : Nat) : (s.sendMsi v).tlb = s.tlb := rfl
@[simp] theorem State.sendMsi_faults (s : State) (v : Nat) : (s.sendMsi v).faults = s.faults := rfl
@[simp] theorem State.sendMsi_dying (s : State) (v : Nat) : (s.sendMsi v).dying = s.dying := rfl
@[simp] theorem State.sendMsi_faultNo (s : State) (v : Nat) : (s.sendMsi v).faultNo = s.faultNo := rfl
@[simp] theorem State.sendMsi_faultTail (s : State) (v : Nat) : (s.sendMsi v).faultTail = s.faultTail := rfl
@[simp] theorem State.sendMsi_faultHead (s : State) (v : Nat) : (s.sendMsi v).faultHead = s.faultHead := rfl
@[simp] theorem State.sendMsi_queues (s : State) (v : Nat) : (s.sendMsi v).queues = s.queues := rfl
@[simp] theorem State.sendMsi_nextQueue (s : State) (v : Nat) : (s.sendMsi v).nextQueue = s.nextQueue := rfl
@[simp] theorem State.sendMsi_bar0 (s : State) (v : Nat) : (s.sendMsi v).bar0 = s.bar0 := rfl
@[simp] theorem State.sendMsi_hostRead (s : State) (v : Nat) : (s.sendMsi v).hostRead = s.hostRead := rfl
@[simp] theorem State.sendMsi_hostMem (s : State) (v : Nat) : (s.sendMsi v).hostMem = s.hostMem := rfl
@[simp] theorem State.sendMsi_barLog (s : State) (v : Nat) : (s.sendMsi v).barLog = s.barLog := rfl
@[simp] theorem State.sendMsi_migration (s : State) (v : Nat) : (s.sendMsi v).migration = s.migration := rfl
@[simp] theorem State.sendMsi_cancels (s : State) (v : Nat) : (s.sendMsi v).cancels = s.cancels := rfl
@[simp] theorem State.sendMsi_enginesPassed (s : State) (v : Nat) : (s.sendMsi v).enginesPassed = s.enginesPassed := rfl
@[simp] theorem State.sendMsi_boot (s : State) (v : Nat) : (s.sendMsi v).boot = s.boot := rfl
@[simp] theorem State.sendMsi_fused (s : State) (v : Nat) : (s.sendMsi v).fused = s.fused := rfl
@[simp] theorem State.sendMsi_retired (s : State) (v : Nat) : (s.sendMsi v).retired = s.retired := rfl
@[simp] theorem State.sendMsi_spared (s : State) (v : Nat) : (s.sendMsi v).spared = s.spared := rfl
@[simp] theorem State.sendMsi_microcode (s : State) (v : Nat) : (s.sendMsi v).microcode = s.microcode := rfl
@[simp] theorem State.sendMsi_controlSram (s : State) (v : Nat) : (s.sendMsi v).controlSram = s.controlSram := rfl

/-! ## Crew.setThread -/

@[simp] theorem Crew.setThread_team (c : Crew) (l : Nat) (t : Thread) : (c.setThread l t).team = c.team := rfl
@[simp] theorem Crew.setThread_crewId (c : Crew) (l : Nat) (t : Thread) : (c.setThread l t).crewId = c.crewId := rfl
@[simp] theorem Crew.setThread_alloc (c : Crew) (l : Nat) (t : Thread) : (c.setThread l t).alloc = c.alloc := rfl
@[simp] theorem Crew.setThread_core (c : Crew) (l : Nat) (t : Thread) : (c.setThread l t).core = c.core := rfl
@[simp] theorem Crew.setThread_quad (c : Crew) (l : Nat) (t : Thread) : (c.setThread l t).quad = c.quad := rfl
@[simp] theorem Crew.setThread_slot (c : Crew) (l : Nat) (t : Thread) : (c.setThread l t).slot = c.slot := rfl
@[simp] theorem Crew.setThread_place (c : Crew) (l : Nat) (t : Thread) : (c.setThread l t).place = c.place := rfl
@[simp] theorem Crew.setThread_chunk (c : Crew) (l : Nat) (t : Thread) : (c.setThread l t).chunk = c.chunk := rfl
@[simp] theorem Crew.setThread_htab (c : Crew) (l : Nat) (t : Thread) : (c.setThread l t).htab = c.htab := rfl
@[simp] theorem Crew.setThread_svcq (c : Crew) (l : Nat) (t : Thread) : (c.setThread l t).svcq = c.svcq := rfl
@[simp] theorem Crew.setThread_hregion (c : Crew) (l : Nat) (t : Thread) : (c.setThread l t).hregion = c.hregion := rfl
@[simp] theorem Crew.setThread_chunkn (c : Crew) (l : Nat) (t : Thread) : (c.setThread l t).chunkn = c.chunkn := rfl
@[simp] theorem Crew.setThread_squashTotal (c : Crew) (l : Nat) (t : Thread) : (c.setThread l t).squashTotal = c.squashTotal := rfl
@[simp] theorem Crew.setThread_consec (c : Crew) (l : Nat) (t : Thread) : (c.setThread l t).consec = c.consec := rfl
@[simp] theorem Crew.setThread_clk0 (c : Crew) (l : Nat) (t : Thread) : (c.setThread l t).clk0 = c.clk0 := rfl
@[simp] theorem Crew.setThread_clk1 (c : Crew) (l : Nat) (t : Thread) : (c.setThread l t).clk1 = c.clk1 := rfl
@[simp] theorem Crew.setThread_pend (c : Crew) (l : Nat) (t : Thread) : (c.setThread l t).pend = c.pend := rfl
@[simp] theorem Crew.setThread_wake (c : Crew) (l : Nat) (t : Thread) : (c.setThread l t).wake = c.wake := rfl
@[simp] theorem Crew.setThread_ticket (c : Crew) (l : Nat) (t : Thread) : (c.setThread l t).ticket = c.ticket := rfl
@[simp] theorem Crew.setThread_expansion (c : Crew) (l : Nat) (t : Thread) : (c.setThread l t).expansion = c.expansion := rfl
@[simp] theorem Crew.setThread_lateFrees (c : Crew) (l : Nat) (t : Thread) : (c.setThread l t).lateFrees = c.lateFrees := rfl
@[simp] theorem Crew.setThread_matched (c : Crew) (l : Nat) (t : Thread) : (c.setThread l t).matched = c.matched := rfl
@[simp] theorem Crew.setThread_mreq (c : Crew) (l : Nat) (t : Thread) : (c.setThread l t).mreq = c.mreq := rfl
@[simp] theorem Crew.setThread_mwait (c : Crew) (l : Nat) (t : Thread) : (c.setThread l t).mwait = c.mwait := rfl
@[simp] theorem Crew.setThread_tokenAsked (c : Crew) (l : Nat) (t : Thread) : (c.setThread l t).tokenAsked = c.tokenAsked := rfl
@[simp] theorem Crew.setThread_preempt (c : Crew) (l : Nat) (t : Thread) : (c.setThread l t).preempt = c.preempt := rfl
@[simp] theorem Crew.setThread_svcLeft (c : Crew) (l : Nat) (t : Thread) : (c.setThread l t).svcLeft = c.svcLeft := rfl
@[simp] theorem Crew.setThread_replies (c : Crew) (l : Nat) (t : Thread) : (c.setThread l t).replies = c.replies := rfl
@[simp] theorem Crew.setThread_homes (c : Crew) (l : Nat) (t : Thread) : (c.setThread l t).homes = c.homes := rfl
@[simp] theorem Crew.setThread_entry (c : Crew) (l : Nat) (t : Thread) : (c.setThread l t).entry = c.entry := rfl
@[simp] theorem Crew.setThread_readySince (c : Crew) (l : Nat) (t : Thread) : (c.setThread l t).readySince = c.readySince := rfl
@[simp] theorem Crew.setThread_inRound (c : Crew) (l : Nat) (t : Thread) : (c.setThread l t).inRound = c.inRound := rfl
@[simp] theorem Crew.setThread_doom (c : Crew) (l : Nat) (t : Thread) : (c.setThread l t).doom = c.doom := rfl
@[simp] theorem Crew.setThread_saveAt (c : Crew) (l : Nat) (t : Thread) : (c.setThread l t).saveAt = c.saveAt := rfl

/-! ## Crew.writeS -/

@[simp] theorem Crew.writeS_team (c : Crew) (n : Nat) (w : TWord) : (c.writeS n w).team = c.team := rfl
@[simp] theorem Crew.writeS_crewId (c : Crew) (n : Nat) (w : TWord) : (c.writeS n w).crewId = c.crewId := rfl
@[simp] theorem Crew.writeS_alloc (c : Crew) (n : Nat) (w : TWord) : (c.writeS n w).alloc = c.alloc := rfl
@[simp] theorem Crew.writeS_core (c : Crew) (n : Nat) (w : TWord) : (c.writeS n w).core = c.core := rfl
@[simp] theorem Crew.writeS_quad (c : Crew) (n : Nat) (w : TWord) : (c.writeS n w).quad = c.quad := rfl
@[simp] theorem Crew.writeS_slot (c : Crew) (n : Nat) (w : TWord) : (c.writeS n w).slot = c.slot := rfl
@[simp] theorem Crew.writeS_place (c : Crew) (n : Nat) (w : TWord) : (c.writeS n w).place = c.place := rfl
@[simp] theorem Crew.writeS_chunk (c : Crew) (n : Nat) (w : TWord) :
    (c.writeS n w).chunk = { c.chunk with sset := insertNat c.chunk.sset n } := rfl
@[simp] theorem Crew.writeS_htab (c : Crew) (n : Nat) (w : TWord) : (c.writeS n w).htab = c.htab := rfl
@[simp] theorem Crew.writeS_svcq (c : Crew) (n : Nat) (w : TWord) : (c.writeS n w).svcq = c.svcq := rfl
@[simp] theorem Crew.writeS_hregion (c : Crew) (n : Nat) (w : TWord) : (c.writeS n w).hregion = c.hregion := rfl
@[simp] theorem Crew.writeS_chunkn (c : Crew) (n : Nat) (w : TWord) : (c.writeS n w).chunkn = c.chunkn := rfl
@[simp] theorem Crew.writeS_squashTotal (c : Crew) (n : Nat) (w : TWord) : (c.writeS n w).squashTotal = c.squashTotal := rfl
@[simp] theorem Crew.writeS_consec (c : Crew) (n : Nat) (w : TWord) : (c.writeS n w).consec = c.consec := rfl
@[simp] theorem Crew.writeS_clk0 (c : Crew) (n : Nat) (w : TWord) : (c.writeS n w).clk0 = c.clk0 := rfl
@[simp] theorem Crew.writeS_clk1 (c : Crew) (n : Nat) (w : TWord) : (c.writeS n w).clk1 = c.clk1 := rfl
@[simp] theorem Crew.writeS_pend (c : Crew) (n : Nat) (w : TWord) : (c.writeS n w).pend = c.pend := rfl
@[simp] theorem Crew.writeS_wake (c : Crew) (n : Nat) (w : TWord) : (c.writeS n w).wake = c.wake := rfl
@[simp] theorem Crew.writeS_ticket (c : Crew) (n : Nat) (w : TWord) : (c.writeS n w).ticket = c.ticket := rfl
@[simp] theorem Crew.writeS_expansion (c : Crew) (n : Nat) (w : TWord) : (c.writeS n w).expansion = c.expansion := rfl
@[simp] theorem Crew.writeS_lateFrees (c : Crew) (n : Nat) (w : TWord) : (c.writeS n w).lateFrees = c.lateFrees := rfl
@[simp] theorem Crew.writeS_matched (c : Crew) (n : Nat) (w : TWord) : (c.writeS n w).matched = c.matched := rfl
@[simp] theorem Crew.writeS_mreq (c : Crew) (n : Nat) (w : TWord) : (c.writeS n w).mreq = c.mreq := rfl
@[simp] theorem Crew.writeS_mwait (c : Crew) (n : Nat) (w : TWord) : (c.writeS n w).mwait = c.mwait := rfl
@[simp] theorem Crew.writeS_tokenAsked (c : Crew) (n : Nat) (w : TWord) : (c.writeS n w).tokenAsked = c.tokenAsked := rfl
@[simp] theorem Crew.writeS_preempt (c : Crew) (n : Nat) (w : TWord) : (c.writeS n w).preempt = c.preempt := rfl
@[simp] theorem Crew.writeS_svcLeft (c : Crew) (n : Nat) (w : TWord) : (c.writeS n w).svcLeft = c.svcLeft := rfl
@[simp] theorem Crew.writeS_replies (c : Crew) (n : Nat) (w : TWord) : (c.writeS n w).replies = c.replies := rfl
@[simp] theorem Crew.writeS_homes (c : Crew) (n : Nat) (w : TWord) : (c.writeS n w).homes = c.homes := rfl
@[simp] theorem Crew.writeS_entry (c : Crew) (n : Nat) (w : TWord) : (c.writeS n w).entry = c.entry := rfl
@[simp] theorem Crew.writeS_readySince (c : Crew) (n : Nat) (w : TWord) : (c.writeS n w).readySince = c.readySince := rfl
@[simp] theorem Crew.writeS_inRound (c : Crew) (n : Nat) (w : TWord) : (c.writeS n w).inRound = c.inRound := rfl
@[simp] theorem Crew.writeS_doom (c : Crew) (n : Nat) (w : TWord) : (c.writeS n w).doom = c.doom := rfl
@[simp] theorem Crew.writeS_saveAt (c : Crew) (n : Nat) (w : TWord) : (c.writeS n w).saveAt = c.saveAt := rfl

/-! ## Crew.freshChunk -/

@[simp] theorem Crew.freshChunk_team (c : Crew)  : (c.freshChunk).team = c.team := rfl
@[simp] theorem Crew.freshChunk_crewId (c : Crew)  : (c.freshChunk).crewId = c.crewId := rfl
@[simp] theorem Crew.freshChunk_alloc (c : Crew)  : (c.freshChunk).alloc = c.alloc := rfl
@[simp] theorem Crew.freshChunk_core (c : Crew)  : (c.freshChunk).core = c.core := rfl
@[simp] theorem Crew.freshChunk_quad (c : Crew)  : (c.freshChunk).quad = c.quad := rfl
@[simp] theorem Crew.freshChunk_slot (c : Crew)  : (c.freshChunk).slot = c.slot := rfl
@[simp] theorem Crew.freshChunk_place (c : Crew)  : (c.freshChunk).place = c.place := rfl
@[simp] theorem Crew.freshChunk_arch (c : Crew)  : (c.freshChunk).arch = c.arch := rfl
@[simp] theorem Crew.freshChunk_htab (c : Crew)  : (c.freshChunk).htab = c.htab := rfl
@[simp] theorem Crew.freshChunk_svcq (c : Crew)  : (c.freshChunk).svcq = c.svcq := rfl
@[simp] theorem Crew.freshChunk_hregion (c : Crew)  : (c.freshChunk).hregion = c.hregion := rfl
@[simp] theorem Crew.freshChunk_chunkn (c : Crew)  : (c.freshChunk).chunkn = c.chunkn := rfl
@[simp] theorem Crew.freshChunk_squashTotal (c : Crew)  : (c.freshChunk).squashTotal = c.squashTotal := rfl
@[simp] theorem Crew.freshChunk_consec (c : Crew)  : (c.freshChunk).consec = c.consec := rfl
@[simp] theorem Crew.freshChunk_clk0 (c : Crew)  : (c.freshChunk).clk0 = c.clk0 := rfl
@[simp] theorem Crew.freshChunk_clk1 (c : Crew)  : (c.freshChunk).clk1 = c.clk1 := rfl
@[simp] theorem Crew.freshChunk_pend (c : Crew)  : (c.freshChunk).pend = c.pend := rfl
@[simp] theorem Crew.freshChunk_wake (c : Crew)  : (c.freshChunk).wake = c.wake := rfl
@[simp] theorem Crew.freshChunk_ticket (c : Crew)  : (c.freshChunk).ticket = c.ticket := rfl
@[simp] theorem Crew.freshChunk_expansion (c : Crew)  : (c.freshChunk).expansion = c.expansion := rfl
@[simp] theorem Crew.freshChunk_lateFrees (c : Crew)  : (c.freshChunk).lateFrees = c.lateFrees := rfl
@[simp] theorem Crew.freshChunk_matched (c : Crew)  : (c.freshChunk).matched = c.matched := rfl
@[simp] theorem Crew.freshChunk_mreq (c : Crew)  : (c.freshChunk).mreq = c.mreq := rfl
@[simp] theorem Crew.freshChunk_mwait (c : Crew)  : (c.freshChunk).mwait = c.mwait := rfl
@[simp] theorem Crew.freshChunk_tokenAsked (c : Crew)  : (c.freshChunk).tokenAsked = c.tokenAsked := rfl
@[simp] theorem Crew.freshChunk_preempt (c : Crew)  : (c.freshChunk).preempt = c.preempt := rfl
@[simp] theorem Crew.freshChunk_svcLeft (c : Crew)  : (c.freshChunk).svcLeft = c.svcLeft := rfl
@[simp] theorem Crew.freshChunk_replies (c : Crew)  : (c.freshChunk).replies = c.replies := rfl
@[simp] theorem Crew.freshChunk_homes (c : Crew)  : (c.freshChunk).homes = c.homes := rfl
@[simp] theorem Crew.freshChunk_entry (c : Crew)  : (c.freshChunk).entry = c.entry := rfl
@[simp] theorem Crew.freshChunk_readySince (c : Crew)  : (c.freshChunk).readySince = c.readySince := rfl
@[simp] theorem Crew.freshChunk_inRound (c : Crew)  : (c.freshChunk).inRound = c.inRound := rfl
@[simp] theorem Crew.freshChunk_doom (c : Crew)  : (c.freshChunk).doom = c.doom := rfl
@[simp] theorem Crew.freshChunk_saveAt (c : Crew)  : (c.freshChunk).saveAt = c.saveAt := rfl

/-! ## What the updates set -/

@[simp] theorem State.setCrew_crews (s : State) (ci : Nat) (c : Crew) : (s.setCrew ci c).crews = s.crews.set ci c := rfl
@[simp] theorem State.setTeam_teams (s : State) (t : Nat) (x : Team) : (s.setTeam t x).teams = s.teams.set t x := rfl
@[simp] theorem State.setGrid_grids (s : State) (g : Nat) (x : Grid) : (s.setGrid g x).grids = s.grids.set g x := rfl
@[simp] theorem State.setQuad_quads (s : State) (q : Nat) (x : Quad) : (s.setQuad q x).quads = SMap.set s.quads q x := rfl
@[simp] theorem State.pokeBytes_mem (s : State) (k : Nat) (bs : List Byte) : (s.pokeBytes k bs).mem = Memory.stores s.mem k bs := rfl
@[simp] theorem State.pokeTag_tags (s : State) (w : Nat) (t : Tag) : (s.pokeTag w t).tags = Tags.write s.tags w t := rfl

/-- The crew that was set is the one read, where the number is a crew's. -/
theorem State.crew_setCrew_same (s : State) (ci : Nat) (c : Crew) (h : ci < s.crews.length) : (s.setCrew ci c).crew ci = c := by
  simp [State.crew, List.getD, h]

/-- Every other crew is as before. -/
theorem State.crew_setCrew_other (s : State) (ci k : Nat) (c : Crew) (h : k ≠ ci) : (s.setCrew ci c).crew k = s.crew k := by
  simp [State.crew, List.getD, Ne.symm h]

@[simp] theorem State.team_setCrew (s : State) (ci : Nat) (c : Crew) (t : Nat) : (s.setCrew ci c).team t = s.team t := rfl
@[simp] theorem State.grid_setCrew (s : State) (ci : Nat) (c : Crew) (g : Nat) : (s.setCrew ci c).grid g = s.grid g := rfl
@[simp] theorem State.gridOf_setCrew (s : State) (ci : Nat) (c x : Crew) : (s.setCrew ci c).gridOf x = s.gridOf x := rfl
@[simp] theorem State.asidOf_setCrew (s : State) (ci : Nat) (c x : Crew) : (s.setCrew ci c).asidOf x = s.asidOf x := rfl
@[simp] theorem State.quad_setCrew (s : State) (ci : Nat) (c : Crew) (q : Nat) : (s.setCrew ci c).quad q = s.quad q := rfl

/-- Setting a crew twice keeps the second. -/
@[simp] theorem State.setCrew_setCrew (s : State) (ci : Nat) (c d : Crew) : (s.setCrew ci c).setCrew ci d = s.setCrew ci d := by
  simp [State.setCrew]

/-! ## Threads -/

/-- The thread that was set is the one read. -/
theorem Crew.thread_setThread_same (c : Crew) (l : Nat) (t : Thread) (h : l < c.arch.threads.length) :
    (c.setThread l t).thread l = t := by
  simp [Crew.thread, Crew.setThread, List.getD, h]

/-- Every other thread is as before. -/
theorem Crew.thread_setThread_other (c : Crew) (l k : Nat) (t : Thread) (h : k ≠ l) : (c.setThread l t).thread k = c.thread k := by
  simp [Crew.thread, Crew.setThread, List.getD, Ne.symm h]

@[simp] theorem Crew.setThread_vregs (c : Crew) (l : Nat) (t : Thread) : (c.setThread l t).arch.vregs = c.arch.vregs := rfl
@[simp] theorem Crew.setThread_sregs (c : Crew) (l : Nat) (t : Thread) : (c.setThread l t).arch.sregs = c.arch.sregs := rfl
@[simp] theorem Crew.readV_setThread (c : Crew) (l f k : Nat) (t : Thread) : (c.setThread l t).readV f k = c.readV f k := rfl
@[simp] theorem Crew.readS_setThread (c : Crew) (l n : Nat) (t : Thread) : (c.setThread l t).readS n = c.readS n := rfl

end Sys2Proof.Machine
end

