-- ==== Sys2Proof/Laws/Registers.lean ====
section
/-! SUPPORT. Register files: what reads see after writes and frees (R76, R188-R192), and that writes change nothing else. -/

namespace Sys2Proof.Machine

-- One declaration at a time: the checks run together would hold too much memory.
set_option Elab.async false

open Sys2Proof

/-! ## One write, one free -/

theorem Crew.noteWrite_arch (c : Crew) (f : Nat) : (c.noteWrite f).arch = c.arch := by
  unfold Crew.noteWrite; split <;> rfl

theorem Crew.readV_writeV_same (c : Crew) (f l : Nat) (w : TWord) : (c.writeV f l w).readV f l = w := by
  simp [Crew.readV, Crew.writeV, SMap.get?_set_same]

theorem Crew.readV_writeV_other (c : Crew) (f l g k : Nat) (w : TWord) (hl : l < 32) (hk : k < 32) (h : g ≠ f ∨ k ≠ l) :
    (c.writeV f l w).readV g k = c.readV g k := by
  simp only [Crew.readV, Crew.writeV, Crew.noteWrite_arch]
  rw [SMap.get?_set_other _ _ _ _ (by omega)]

theorem Crew.readV_freeV_same (c : Crew) (f l : Nat) : (c.freeV f l).readV f l = .undef := by
  simp [Crew.readV, Crew.freeV, SMap.get?_del_same]

theorem Crew.readV_freeV_other (c : Crew) (f l g k : Nat) (hl : l < 32) (hk : k < 32) (h : g ≠ f ∨ k ≠ l) :
    (c.freeV f l).readV g k = c.readV g k := by
  simp only [Crew.readV, Crew.freeV, Crew.noteWrite_arch]
  rw [SMap.get?_del_other _ _ _ (by omega)]

@[simp] theorem Crew.readS_writeV (c : Crew) (f l n : Nat) (w : TWord) : (c.writeV f l w).readS n = c.readS n := by
  simp [Crew.readS, Crew.writeV, Crew.noteWrite_arch]

@[simp] theorem Crew.readS_freeV (c : Crew) (f l n : Nat) : (c.freeV f l).readS n = c.readS n := by
  simp [Crew.readS, Crew.freeV, Crew.noteWrite_arch]

theorem Crew.readS_writeS_same (c : Crew) (n : Nat) (w : TWord) : (c.writeS n w).readS n = w := by
  simp [Crew.readS, Crew.writeS, SMap.get?_set_same]

theorem Crew.readS_writeS_other (c : Crew) (n m : Nat) (w : TWord) (h : m ≠ n) : (c.writeS n w).readS m = c.readS m := by
  simp only [Crew.readS, Crew.writeS]
  rw [SMap.get?_set_other _ _ _ _ h]

@[simp] theorem Crew.readV_writeS (c : Crew) (n f l : Nat) (w : TWord) : (c.writeS n w).readV f l = c.readV f l := rfl

/-! ## Sequences of writes and frees -/

/-- A crew with other architectural state and another list of uniform registers written in its chunk. -/
def Crew.withRegs (c : Crew) (a : Arch) (z : List Nat) : Crew := { c with arch := a, chunk := { c.chunk with sset := z } }

/-- A step on one crew that only notes a checkpoint of `f`, where `f` names a v register, or that a uniform register is written, and
changes register files. -/
def RegStep (f : Nat) (c c' : Crew) : Prop :=
  c' = (if f < 224 then c.noteWrite f else c).withRegs { c.arch with vregs := c'.arch.vregs, sregs := c'.arch.sregs } c'.chunk.sset

theorem Crew.noteWrite_eq (c : Crew) (f : Nat) : ∃ k : List Nat, c.noteWrite f = { c with chunk := { c.chunk with ckpt := k } } := by
  unfold Crew.noteWrite
  split
  · exact ⟨_, rfl⟩
  · exact ⟨c.chunk.ckpt, rfl⟩

theorem regStep_writeField (c : Crew) (f l : Nat) (w : TWord) : RegStep f c (c.writeField f l w) := by
  unfold RegStep Crew.writeField
  by_cases h : f < 224
  · simp only [h, if_true]
    simp [Crew.writeV, Crew.noteWrite_arch, Crew.withRegs]
  · simp only [h, if_false]
    split
    · simp [Crew.writeS, Crew.withRegs]
    · rfl

theorem regStep_free (c : Crew) (f l : Nat) : RegStep f c (if f < 224 then c.freeV f l else c) := by
  unfold RegStep
  by_cases h : f < 224
  · simp only [h, if_true]
    simp [Crew.freeV, Crew.noteWrite_arch, Crew.withRegs]
  · simp only [h, if_false]
    rfl

/-- A run of such steps over the fields `fs`, with flags raised in between. -/
inductive RegRun : List Nat → Crew → Crew → Prop
  | nil (c : Crew) : RegRun [] c c
  | flags {fs : List Nat} {c c' : Crew} (x y : BitVec 64) :
    RegRun fs { c with arch := { c.arch with fpflags := x, formatflag := y } } c' → RegRun fs c c'
  | cons {f : Nat} {fs : List Nat} {c c' c'' : Crew} : RegStep f c c' → RegRun fs c' c'' → RegRun (f :: fs) c c''

theorem RegRun.append {fs gs : List Nat} {a b c : Crew} (h : RegRun fs a b) (h' : RegRun gs b c) : RegRun (fs ++ gs) a c := by
  induction h with
  | nil => exact h'
  | flags x y _ ih => exact .flags x y (ih h')
  | cons h1 _ ih => exact .cons h1 (ih h')

/-- Whether a first write is noted depends on the chunk's start and its checkpoints alone. -/
theorem noteWrite_congr (c : Crew) (a : Arch) (z : List Nat) (f : Nat) :
    (c.withRegs a z).noteWrite f = (c.noteWrite f).withRegs a z := by
  unfold Crew.noteWrite Crew.withRegs
  dsimp only
  split <;> rfl

theorem foldl_noteWrite_regs (c : Crew) (a : Arch) (z : List Nat) (fs : List Nat) :
    fs.foldl Crew.noteWrite (c.withRegs a z) = (fs.foldl Crew.noteWrite c).withRegs a z := by
  induction fs generalizing c with
  | nil => rfl
  | cons f t ih => rw [List.foldl_cons, noteWrite_congr, ih, List.foldl_cons]

theorem Crew.withRegs_withRegs (c : Crew) (a b : Arch) (y z : List Nat) : (c.withRegs a y).withRegs b z = c.withRegs b z := rfl

/-- What a run of register steps does outside the register files and flags: checkpoints and written registers are noted, nothing
else. -/
theorem RegRun.eq {fs : List Nat} {c c' : Crew} (h : RegRun fs c c') :
    c' = ((fs.filter fun f => decide (f < 224)).foldl Crew.noteWrite c).withRegs { c.arch with
        vregs := c'.arch.vregs, sregs := c'.arch.sregs
        fpflags := c'.arch.fpflags, formatflag := c'.arch.formatflag } c'.chunk.sset := by
  induction h with
  | nil => rfl
  | @flags fs c c' x y _ ih =>
    have hx : ({ c with arch := { c.arch with fpflags := x, formatflag := y } } : Crew)
      = c.withRegs { c.arch with fpflags := x, formatflag := y } c.chunk.sset := rfl
    rw [ih, hx, foldl_noteWrite_regs]
    rfl
  | @cons f fs c c1 c2 h1 _ ih =>
    rw [ih]
    unfold RegStep at h1
    by_cases hf : f < 224
    · simp only [hf, if_true] at h1
      rw [List.filter_cons_of_pos (by simpa using hf), List.foldl_cons]
      generalize c1.arch.vregs = v at h1
      generalize c1.arch.sregs = u at h1
      generalize c1.chunk.sset = z at h1
      subst h1
      rw [foldl_noteWrite_regs]
      rfl
    · simp only [hf, if_false] at h1
      rw [List.filter_cons_of_neg (by simpa using hf)]
      generalize c1.arch.vregs = v at h1
      generalize c1.arch.sregs = u at h1
      generalize c1.chunk.sset = z at h1
      subst h1
      rw [foldl_noteWrite_regs]
      rfl

/-! ## What the registers hold after frees and writes -/

theorem readV_freeLane (F : List Nat) (c : Crew) (l g k : Nat) (hl : l < 32) (hk : k < 32) (hg : g < 224) :
    (F.foldl (fun c f => if f < 224 then c.freeV f l else c) c).readV g k = if k = l ∧ g ∈ F then .undef else c.readV g k := by
  induction F generalizing c with
  | nil => simp
  | cons f t ih =>
    have hw : (if f < 224 then c.freeV f l else c).readV g k = if k = l ∧ g = f then .undef else c.readV g k := by
      by_cases h : k = l ∧ g = f
      · obtain ⟨rfl, rfl⟩ := h
        rw [if_pos hg, Crew.readV_freeV_same]; simp
      · rw [if_neg h]
        split
        · exact Crew.readV_freeV_other c f l g k hl hk (by omega)
        · rfl
    rw [List.foldl_cons, ih, hw]
    by_cases h : k = l ∧ g ∈ t
    · rw [if_pos h, if_pos ⟨h.1, by simp [h.2]⟩]
    · rw [if_neg h]
      by_cases h2 : k = l ∧ g = f
      · rw [if_pos h2, if_pos ⟨h2.1, by simp [h2.2]⟩]
      · rw [if_neg h2, if_neg (by
          rintro ⟨h3, h4⟩
          rcases List.mem_cons.1 h4 with h4 | h4
          · exact h2 ⟨h3, h4⟩
          · exact h ⟨h3, h4⟩)]

theorem readS_freeLane (F : List Nat) (c : Crew) (l n : Nat) :
    (F.foldl (fun c f => if f < 224 then c.freeV f l else c) c).readS n = c.readS n := by
  induction F generalizing c with
  | nil => rfl
  | cons f t ih =>
    rw [List.foldl_cons, ih]
    split <;> simp

theorem run_freeLane (F : List Nat) (c : Crew) (l : Nat) :
    RegRun F c (F.foldl (fun c f => if f < 224 then c.freeV f l else c) c) := by
  induction F generalizing c with
  | nil => exact .nil c
  | cons f t ih => exact .cons (regStep_free c f l) (ih _)

/-- The frees of the lanes, one lane after another. -/
def freeLanes (fr : Nat → List Nat) (exe : List Nat) (c : Crew) : Crew :=
  exe.foldl (fun c l => (fr l).foldl (fun c f => if f < 224 then c.freeV f l else c) c) c

theorem readV_freeLanes (fr : Nat → List Nat) (exe : List Nat) (c : Crew) (g k : Nat) (hx : ∀ l ∈ exe, l < 32) (hk : k < 32)
    (hg : g < 224) : (freeLanes fr exe c).readV g k = if k ∈ exe ∧ g ∈ fr k then .undef else c.readV g k := by
  unfold freeLanes
  induction exe generalizing c with
  | nil => simp
  | cons l t ih =>
    rw [List.foldl_cons, ih _ (fun x hx' => hx x (by simp [hx'])), readV_freeLane _ _ _ _ _ (hx l (by simp)) hk hg]
    by_cases h1 : k ∈ t ∧ g ∈ fr k
    · rw [if_pos h1, if_pos ⟨by simp [h1.1], h1.2⟩]
    · rw [if_neg h1]
      by_cases h2 : k = l ∧ g ∈ fr l
      · rw [if_pos h2, if_pos ⟨by simp [h2.1], h2.1 ▸ h2.2⟩]
      · rw [if_neg h2, if_neg (by
          rintro ⟨h3, h4⟩
          rcases List.mem_cons.1 h3 with h3 | h3
          · exact h2 ⟨h3, h3 ▸ h4⟩
          · exact h1 ⟨h3, h4⟩)]

theorem readS_freeLanes (fr : Nat → List Nat) (exe : List Nat) (c : Crew) (n : Nat) : (freeLanes fr exe c).readS n = c.readS n := by
  unfold freeLanes
  induction exe generalizing c with
  | nil => rfl
  | cons l t ih => rw [List.foldl_cons, ih, readS_freeLane]

theorem run_freeLanes (fr : Nat → List Nat) (exe : List Nat) (c : Crew) : RegRun (exe.flatMap fr) c (freeLanes fr exe c) := by
  unfold freeLanes
  induction exe generalizing c with
  | nil => exact .nil c
  | cons l t ih => exact (run_freeLane (fr l) c l).append (ih _)

theorem lastWrite_append (a b : List (Nat × TWord)) (f : Nat) : lastWrite (a ++ b) f = (lastWrite b f).or (lastWrite a f) := by
  unfold lastWrite
  rw [List.reverse_append, List.find?_append]
  cases List.find? (fun e => e.1 == f) b.reverse <;> simp

theorem lastWrite_single (g : Nat) (w : TWord) (f : Nat) : lastWrite [(g, w)] f = if g = f then some w else none := by
  unfold lastWrite
  by_cases h : g = f <;> simp [h]

theorem lastWrite_cons (g : Nat) (w : TWord) (t : List (Nat × TWord)) (f : Nat) :
    lastWrite ((g, w) :: t) f = (lastWrite t f).or (if g = f then some w else none) := by
  rw [← lastWrite_single, ← lastWrite_append]; rfl

theorem lastWrite_filter (ws : List (Nat × TWord)) (p : Nat × TWord → Bool) (f : Nat) (h : ∀ w, p (f, w) = true) :
    lastWrite (ws.filter p) f = lastWrite ws f := by
  induction ws with
  | nil => rfl
  | cons e t ih =>
    obtain ⟨g, w⟩ := e
    rw [List.filter_cons, lastWrite_cons, ← ih]
    split
    · rw [lastWrite_cons]
    · rename_i hp
      have : g ≠ f := fun hg => hp (hg ▸ h w)
      simp [this]

theorem lastWrite_filter_none (ws : List (Nat × TWord)) (p : Nat × TWord → Bool) (f : Nat) (h : ∀ w, p (f, w) = false) :
    lastWrite (ws.filter p) f = none := by
  unfold lastWrite
  rw [Option.map_eq_none_iff, List.find?_eq_none]
  intro e he
  obtain ⟨g, w⟩ := e
  have h1 := (List.mem_filter.1 (List.mem_reverse.1 he)).2
  intro hg
  simp at hg
  subst hg
  rw [h w] at h1
  cases h1

/-- The writes of one lane in order. -/
theorem readV_writeLane (ws : List (Nat × TWord)) (c : Crew) (l g k : Nat) (hl : l < 32) (hk : k < 32) (hg : g < 224) :
    (ws.foldl (fun c w => c.writeField w.1 l w.2) c).readV g k =
      if k = l then (lastWrite ws g).getD (c.readV g k) else c.readV g k := by
  induction ws generalizing c with
  | nil => simp [lastWrite]
  | cons e t ih =>
    obtain ⟨f, w⟩ := e
    rw [List.foldl_cons, ih, lastWrite_cons]
    have hw : (c.writeField f l w).readV g k = if k = l ∧ f = g then w else c.readV g k := by
      unfold Crew.writeField
      by_cases hf : f < 224
      · rw [if_pos hf]
        by_cases h : k = l ∧ f = g
        · obtain ⟨rfl, rfl⟩ := h
          rw [if_pos ⟨rfl, rfl⟩, Crew.readV_writeV_same]
        · rw [if_neg h, Crew.readV_writeV_other _ _ _ _ _ _ hl hk (by omega)]
      · rw [if_neg hf, if_neg (show ¬(k = l ∧ f = g) by omega)]
        split <;> simp
    by_cases hk2 : k = l
    · rw [if_pos hk2, if_pos hk2, hw]
      cases lastWrite t g with
      | some x => rfl
      | none =>
        by_cases hfg : f = g
        · simp [hk2, hfg]
        · simp [hfg]
    · rw [if_neg hk2, if_neg hk2, hw, if_neg (by omega)]

theorem readS_writeLane (ws : List (Nat × TWord)) (c : Crew) (l n : Nat) (hn : n < 31) :
    (ws.foldl (fun c w => c.writeField w.1 l w.2) c).readS n =
      (lastWrite ws (224 + n)).getD (c.readS n) := by
  induction ws generalizing c with
  | nil => simp [lastWrite]
  | cons e t ih =>
    obtain ⟨f, w⟩ := e
    rw [List.foldl_cons, ih, lastWrite_cons]
    have hw : (c.writeField f l w).readS n = if f = 224 + n then w else c.readS n := by
      unfold Crew.writeField
      by_cases hf : f < 224
      · rw [if_pos hf, Crew.readS_writeV, if_neg (by omega)]
      · rw [if_neg hf]
        by_cases hf2 : f < 255
        · rw [if_pos hf2]
          by_cases h : f = 224 + n
          · subst h
            simp [Crew.readS_writeS_same]
          · rw [if_neg h, Crew.readS_writeS_other _ _ _ _ (by omega)]
        · rw [if_neg hf2, if_neg (by omega)]
    rw [hw]
    cases lastWrite t (224 + n) with
    | some x => rfl
    | none => by_cases h : f = 224 + n <;> simp [h]

theorem run_writeLane (ws : List (Nat × TWord)) (c : Crew) (l : Nat) :
    RegRun (ws.map Prod.fst) c (ws.foldl (fun c w => c.writeField w.1 l w.2) c) := by
  induction ws generalizing c with
  | nil => exact .nil c
  | cons e t ih => exact .cons (regStep_writeField c e.1 l e.2) (ih _)

end Sys2Proof.Machine
end

