-- ==== Sys2Proof/Laws/Issue.lean ====
section
/-! SUPPORT. What issue comes to for a bundle that executes, and what the completion of an instruction leaves. -/

namespace Sys2Proof.Machine

-- One declaration at a time: the checks run together would hold too much memory.
set_option Elab.async false

open Sys2Proof

/-! ## The bundle -/

theorem deliverDue_nil (c : Crew) (lanes : List Nat) (d : Bool) (h : c.pend = []) : c.deliverDue lanes d = c := by
  unfold Crew.deliverDue Crew.deliverIf
  rw [h]
  cases c
  simp_all

/-- A fold whose every step leaves its value. -/
theorem foldl_fixed {α β : Type} (f : α → β → α) (a : α) (l : List β) (h : ∀ x ∈ l, f a x = a) : l.foldl f a = a := by
  induction l with
  | nil => rfl
  | cons x t ih =>
    rw [List.foldl_cons, h x (by simp)]
    exact ih fun y hy => h y (by simp [hy])

theorem makeRoom_nil (c : Crew) (lanes : List Nat) (h : c.pend = []) : c.makeRoom lanes = c := by
  refine foldl_fixed _ c lanes fun l _ => ?_
  unfold Crew.waitsFor
  rw [h]
  rfl

theorem hazardous_nil (s : State) (i : Instr) (c : Crew) (lead l : Nat) (h : c.pend = []) (hs : c.svcLeft = none) :
    s.hazardous i c lead l = false := by
  simp [State.hazardous, Crew.openDests, h, hs]

theorem stand_crew {s : State} {ci : Nat} {c : Crew} {lanes : List Nat} (h : s.stand = some (ci, c, lanes)) :
    ci < s.crews.length ∧ s.focus = some ci ∧ c = { s.crew ci with wake := none } ∧ lanes = c.bundle ∧ lanes ≠ [] := by
  unfold State.stand at h
  split at h
  · cases h
  · rename_i k hf
    dsimp only at h
    split at h
    · rename_i hc
      simp only [Option.some.injEq] at h
      obtain ⟨rfl, rfl, rfl⟩ := h
      simp only [Bool.and_eq_true, decide_eq_true_eq, Bool.not_eq_true'] at hc
      refine ⟨hc.1.1.1.1.1.1.1.1, hf, rfl, rfl, ?_⟩
      intro hn
      have := hc.1.1.2
      simp_all
    · cases h

theorem runnableLanes_lt (c : Crew) (l : Nat) (h : l ∈ c.runnableLanes) : l < 32 := by
  simp only [Crew.runnableLanes, List.mem_filter, List.mem_range] at h
  exact h.1

theorem bundle_sub (c : Crew) : c.bundle.Sublist c.runnableLanes := by
  unfold Crew.bundle
  split
  · exact List.nil_sublist _
  · exact List.filter_sublist

/-- The lanes of a bundle: rising, below 32, runnable. -/
theorem bundle_sorted (c : Crew) : c.bundle.Pairwise (· < ·) :=
  ((List.pairwise_lt_range).sublist List.filter_sublist).sublist (bundle_sub c)

theorem execLanes_sub (i : Instr) (c : Crew) (lanes : List Nat) : (execLanes i c lanes).Sublist lanes := by
  unfold execLanes
  split
  · exact List.filter_sublist
  · exact List.Sublist.refl _

/-- A runnable lane has its thread. -/
theorem runnable_lt (c : Crew) (l : Nat) (h : l ∈ c.runnableLanes) : l < c.arch.threads.length := by
  simp only [Crew.runnableLanes, List.mem_filter] at h
  by_cases hl : l < c.arch.threads.length
  · exact hl
  · have : c.thread l = {} := by simp [Crew.thread, List.getD, Nat.le_of_not_lt hl]
    rw [this] at h
    exact absurd h.2 (by decide)

theorem leastOf_sorted (x : Nat) (t : List Nat) (h : (x :: t).Pairwise (· < ·)) : leastOf (x :: t) = some x := by
  induction t generalizing x with
  | nil => rfl
  | cons y t ih =>
    obtain ⟨h1, h2⟩ := List.pairwise_cons.1 h
    rw [leastOf, ih y h2]
    have := h1 y (by simp)
    simp; omega

/-! ## What issue comes to -/

/-- A bundle that executes: the body's answer decides. -/
theorem issue_body {s : State} {i : Instr} {ci : Nat} {c : Crew} {lanes : List Nat} (b : Body) (h : Issues s i ci c lanes) :
    issue i b s = (match b s ci c (execLanes i c lanes) with
        | .ok s' c' outs fin => .next (State.conclude i ci s c s' c' lanes outs fin)
        | .xfault va cause write =>
          .next ((s.setCrew ci c.countBundle).faultCrew ci va cause write false (decide (0xE0 ≤ i.opcode ∧ i.opcode ≤ 0xE4))
            (outsideChunk i c))
        | .block s' c' w => .next (s'.blockAt ci (c'.deliverDue lanes true) w)
        | .endChunk => .next (s.setCrew ci { c.beginCommit with expansion := none })
        | .stall => .next (s.stalled ci)
        | .done s' => .next s') := by
  have h1 : c.mustPark i = false := by simp [Crew.mustPark, h.svc]
  have h2 : (i.cls == .irrevocable && !c.isComposite && c.dirty) = false := by
    by_cases hc : i.cls = .irrevocable
    · simp [(h.event hc).1]
    · simp [hc]
  have h3 : (i.cls == .irrevocable && s.tokenHeld ci) = false := by
    by_cases hc : i.cls = .irrevocable
    · simp [(h.event hc).2]
    · simp [hc]
  have h4 : (i.isCollective && c.liveBelow (lanes.headD 0)) = false := by
    by_cases hc : i.isCollective = true
    · simpa [hc] using h.collective hc
    · simp [hc]
  have hz : (execLanes i c lanes).filter (s.hazardous i c ((execLanes i c lanes).headD 0)) = [] := by
    rw [List.filter_eq_nil_iff]; intro l _; rw [hazardous_nil s i c _ l h.pend h.svc]; exact Bool.false_ne_true
  have hz' : (if (s.gridOf c).debug = true then
      (execLanes i c lanes).filter (s.hazardous i c ((execLanes i c lanes).headD 0)) else []) = [] := by
    split
    · exact hz
    · rfl
  have hne : (execLanes i c lanes).isEmpty = false := by
    have := h.someLane
    cases hh : execLanes i c lanes <;> simp_all
  unfold issue
  rw [h.stand]
  simp only [h1, h2, h3, h4, Bool.false_eq_true, if_false, deliverDue_nil c lanes _ h.pend, makeRoom_nil c lanes h.pend,
    ite_self, h.legal, hz', List.contains_nil, Bool.and_false, Bool.not_false, List.filter_true, hne, List.map_nil, List.append_nil]
  try rfl

/-! ## Limits (R74) -/

/-- The limits look at a chunk's signatures, lines and checkpoints alone. -/
theorem overLimits_congr (s : State) (ci : Nat) (a b : Crew) (h1 : a.core = b.core) (h2 : a.quad = b.quad)
    (h3 : a.chunk.rsig = b.chunk.rsig) (h4 : a.chunk.wsig = b.chunk.wsig) (h5 : a.chunk.bytes = b.chunk.bytes)
    (h6 : a.chunk.recs = b.chunk.recs) (h7 : a.chunk.ckpt = b.chunk.ckpt) : s.overLimits ci a = s.overLimits ci b := by
  have hl : a.chunk.lines = b.chunk.lines := by unfold Chunk.lines; rw [h5, h6]
  unfold State.overLimits
  rw [h1, h2, h3, h4, hl, h7]

/-- A chunk within its limits leaves no one short. -/
theorem sharedFull_of_room (s : State) (ci : Nat) (c : Crew) (h : s.overLimits ci c = false) : s.sharedFull ci c = false := by
  unfold State.sharedFull
  have h' : s.overLimits ci { c with chunk := { c.chunk with rsig := [], wsig := [] } } = false := by
    have hl : ({ c.chunk with rsig := [], wsig := [] } : Chunk).lines = c.chunk.lines := rfl
    unfold State.overLimits at h ⊢
    simp only [hl]
    simp only [Bool.or_eq_false_iff] at h ⊢
    exact ⟨⟨⟨⟨⟨rfl, rfl⟩, h.1.1.1.2⟩, h.1.1.2⟩, h.1.2⟩, h.2⟩
  rw [h']
  rfl

/-! ## Completion -/

/-- The results of a bundle in which no lane traps. -/
def cleanOuts (exe : List Nat) (ws : Nat → List (Nat × TWord)) (go : Nat → Option (BitVec 64)) (fl : Nat → Flags)
    (fmt : Nat → Bool) : List LaneOut :=
  exe.map fun l => { lane := l, writes := ws l, flags := fl l, fmt := fmt l, pc := go l }

theorem cleanOuts_notrap (exe : List Nat) (ws go fl fmt) : (cleanOuts exe ws go fl fmt).filterMap LaneOut.trap = [] := by
  simp [cleanOuts]

theorem raise_own (c : Crew) (l : Nat) (fl : BitVec 5) (fmt : Bool) (h : c.homes = []) :
    c.raise l fl fmt = { c with arch := { c.arch with
        fpflags := c.arch.fpflags ||| fl.setWidth 64,
        formatflag := if fmt then c.arch.formatflag ||| 1 else c.arch.formatflag } } := by
  unfold Crew.raise Crew.isComposite
  rw [h]
  rfl

theorem raise_homes (c : Crew) (l : Nat) (fl : BitVec 5) (fmt : Bool) (h : c.homes = []) : (c.raise l fl fmt).homes = [] := by
  rw [raise_own _ _ _ _ h]; exact h

theorem readV_raise (c : Crew) (l : Nat) (fl : BitVec 5) (fmt : Bool) (h : c.homes = []) (g k : Nat) :
    (c.raise l fl fmt).readV g k = c.readV g k := by
  rw [raise_own _ _ _ _ h]; rfl

theorem readS_raise (c : Crew) (l : Nat) (fl : BitVec 5) (fmt : Bool) (h : c.homes = []) (n : Nat) :
    (c.raise l fl fmt).readS n = c.readS n := by
  rw [raise_own _ _ _ _ h]; rfl

theorem RegRun.homes {fs : List Nat} {c c' : Crew} (h : RegRun fs c c') : c'.homes = c.homes := by
  have := h.eq
  rw [this]
  generalize (fs.filter fun f => decide (f < 224)) = gs
  clear this h
  show (gs.foldl Crew.noteWrite c).homes = c.homes
  induction gs generalizing c with
  | nil => rfl
  | cons f t ih =>
    rw [List.foldl_cons, ih]
    obtain ⟨k, hk⟩ := c.noteWrite_eq f
    rw [hk]

/-- The fields that stand among a lane's writes. -/
def standing (lead l : Nat) (ws : List (Nat × TWord)) : List (Nat × TWord) :=
  ws.filter fun w => decide (w.1 < 224) || (decide (w.1 < 255) && l == lead)

/-- The writes and flags of the lanes, one lane after another. -/
def writeLanes (lead : Nat) (ws : Nat → List (Nat × TWord)) (fl : Nat → Flags) (fmt : Nat → Bool) (exe : List Nat) (c : Crew) : Crew :=
  exe.foldl (fun c l => ((standing lead l (ws l)).foldl (fun c w => c.writeField w.1 l w.2) c).raise l (fl l) (fmt l)) c

theorem applyWrites_clean (c : Crew) (lead : Nat) (exe : List Nat) (ws go fl fmt) :
    applyWrites c lead (cleanOuts exe ws go fl fmt) = writeLanes lead ws fl fmt exe c := by
  unfold applyWrites cleanOuts writeLanes
  rw [List.foldl_map]
  rfl

theorem run_writeLanes (lead : Nat) (ws fl fmt) (exe : List Nat) (c : Crew) (h : c.homes = []) :
    RegRun (exe.flatMap fun l => (standing lead l (ws l)).map Prod.fst) c (writeLanes lead ws fl fmt exe c) := by
  unfold writeLanes
  induction exe generalizing c with
  | nil => exact .nil c
  | cons l t ih =>
    rw [List.foldl_cons, List.flatMap_cons]
    have h1 := run_writeLane (standing lead l (ws l)) c l
    refine h1.append ?_
    have h2 := h1.homes.trans h
    rw [raise_own _ _ _ _ h2]
    exact .flags _ _ (ih _ h2)

theorem readV_writeLanes (lead : Nat) (ws fl fmt) (exe : List Nat) (c : Crew) (g k : Nat) (hx : ∀ l ∈ exe, l < 32)
    (hn : exe.Pairwise (· < ·)) (h : c.homes = []) (hk : k < 32) (hg : g < 224) :
    (writeLanes lead ws fl fmt exe c).readV g k =
      if k ∈ exe then (lastWrite (ws k) g).getD (c.readV g k) else c.readV g k := by
  unfold writeLanes
  induction exe generalizing c with
  | nil => simp
  | cons l t ih =>
    obtain ⟨hn1, hn2⟩ := List.pairwise_cons.1 hn
    have h2 := (run_writeLane (standing lead l (ws l)) c l).homes.trans h
    rw [List.foldl_cons, ih _ (fun x hx' => hx x (by simp [hx'])) hn2 (raise_homes _ _ _ _ h2), readV_raise _ _ _ _ h2,
      readV_writeLane _ _ _ _ _ (hx l (by simp)) hk hg]
    have hs : lastWrite (standing lead l (ws l)) g = lastWrite (ws l) g := lastWrite_filter _ _ _ fun w => by simp [hg]
    rw [hs]
    by_cases h1 : k = l
    · subst h1
      have : k ∉ t := fun hm => Nat.lt_irrefl _ (hn1 k hm)
      simp [this]
    · simp [h1]

theorem readS_writeLanes (lead : Nat) (ws fl fmt) (exe : List Nat) (c : Crew) (n : Nat)
    (hn : exe.Pairwise (· < ·)) (h : c.homes = []) (hl : 31 > n) :
    (writeLanes lead ws fl fmt exe c).readS n =
      if lead ∈ exe then (lastWrite (ws lead) (224 + n)).getD (c.readS n) else c.readS n := by
  unfold writeLanes
  induction exe generalizing c with
  | nil => simp
  | cons l t ih =>
    obtain ⟨hn1, hn2⟩ := List.pairwise_cons.1 hn
    have h2 := (run_writeLane (standing lead l (ws l)) c l).homes.trans h
    rw [List.foldl_cons, ih _ hn2 (raise_homes _ _ _ _ h2), readS_raise _ _ _ _ h2, readS_writeLane _ _ _ _ hl]
    by_cases h1 : l = lead
    · subst h1
      have : l ∉ t := fun hm => Nat.lt_irrefl _ (hn1 l hm)
      have hs : lastWrite (standing l l (ws l)) (224 + n) = lastWrite (ws l) (224 + n) := lastWrite_filter _ _ _ fun w => by
        simp; omega
      simp [this, hs]
    · have hs : lastWrite (standing lead l (ws l)) (224 + n) = none := lastWrite_filter_none _ _ _ fun w => by
        simp [h1]
      rw [hs]
      have h3 : (lead ∈ l :: t) = (lead ∈ t) := by simp [Ne.symm h1]
      simp only [h3, Option.getD_none]

theorem flags_writeLanes (lead : Nat) (ws fl fmt) (exe : List Nat) (c : Crew) (h : c.homes = []) :
    (writeLanes lead ws fl fmt exe c).arch.fpflags = exe.foldl (fun x l => x ||| (fl l).setWidth 64) c.arch.fpflags
      ∧ (writeLanes lead ws fl fmt exe c).arch.formatflag = (if exe.any fmt then c.arch.formatflag ||| 1 else c.arch.formatflag) := by
  unfold writeLanes
  induction exe generalizing c with
  | nil => exact ⟨rfl, rfl⟩
  | cons l t ih =>
    have h1 := run_writeLane (standing lead l (ws l)) c l
    have h2 := h1.homes.trans h
    have h3 : ∀ (u : List (Nat × TWord)) (d : Crew), (u.foldl (fun c w => c.writeField w.1 l w.2) d).arch.fpflags = d.arch.fpflags
        ∧ (u.foldl (fun c w => c.writeField w.1 l w.2) d).arch.formatflag = d.arch.formatflag := by
      intro u
      induction u with
      | nil => exact fun d => ⟨rfl, rfl⟩
      | cons e u ihu =>
        intro d
        rw [List.foldl_cons, (ihu _).1, (ihu _).2]
        unfold Crew.writeField
        split
        · simp [Crew.writeV, Crew.noteWrite_arch]
        · split <;> exact ⟨rfl, rfl⟩
    have h4 := ih (Crew.raise ((standing lead l (ws l)).foldl (fun c w => c.writeField w.1 l w.2) c) l (fl l) (fmt l))
      (raise_homes _ _ _ _ h2)
    rw [List.foldl_cons, h4.1, h4.2, raise_own _ _ _ _ h2]
    have h5 := h3 (standing lead l (ws l)) c
    refine ⟨?_, ?_⟩
    · rw [List.foldl_cons]
      dsimp only
      rw [h5.1]
    · dsimp only
      rw [h5.2, List.any_cons]
      cases fmt l <;> cases t.any fmt <;> simp [BitVec.or_assoc]

/-! ### The lanes go on -/

/-- Moving lanes on, one after another, by a function of the thread each has at first. -/
theorem thread_foldl_set (f : Nat → Thread → Thread) (lanes : List Nat) (c : Crew) (hn : lanes.Pairwise (· < ·)) (l : Nat)
    (hl : ∀ x ∈ lanes, x < c.arch.threads.length) :
    (lanes.foldl (fun c l => c.setThread l (f l (c.thread l))) c).thread l = if l ∈ lanes then f l (c.thread l) else c.thread l := by
  induction lanes generalizing c with
  | nil => simp
  | cons x t ih =>
    obtain ⟨h1, h2⟩ := List.pairwise_cons.1 hn
    rw [List.foldl_cons, ih _ h2 (fun y hy => by
      have := hl y (by simp [hy])
      simpa [Crew.setThread] using this)]
    by_cases hx : l = x
    · subst hx
      have : l ∉ t := fun hm => Nat.lt_irrefl _ (h1 l hm)
      rw [if_neg this, if_pos (by simp), Crew.thread_setThread_same _ _ _ (hl l (by simp))]
    · rw [Crew.thread_setThread_other _ _ _ _ hx]
      have : (l ∈ x :: t) = (l ∈ t) := by simp [hx]
      simp only [this]

theorem foldl_setThread_eq (f : Crew → Nat → Thread) (lanes : List Nat) (c : Crew) :
    lanes.foldl (fun c l => c.setThread l (f c l)) c =
      { c with arch := { c.arch with threads := (lanes.foldl (fun c l => c.setThread l (f c l)) c).arch.threads } } := by
  induction lanes generalizing c with
  | nil => rfl
  | cons x t ih => rw [List.foldl_cons, ih]; rfl

theorem find_cleanOuts (exe : List Nat) (ws go fl fmt) (l : Nat) :
    ((cleanOuts exe ws go fl fmt).find? fun o => o.lane == l)
      = if l ∈ exe then some { lane := l, writes := ws l, flags := fl l, fmt := fmt l, pc := go l } else none := by
  unfold cleanOuts
  induction exe with
  | nil => rfl
  | cons x t ih =>
    rw [List.map_cons, List.find?_cons]
    by_cases h : x = l
    · subst h; simp
    · have h' : (l ∈ x :: t) = (l ∈ t) := by simp [Ne.symm h]
      simp only [h', beq_eq_false_iff_ne.2 h]
      exact ih

theorem advance_clean (i : Instr) (c : Crew) (lanes exe : List Nat) (ws go fl fmt) :
    c.advance i lanes (cleanOuts exe ws go fl fmt) =
      lanes.foldl (fun x l => x.setThread l (x.nextThread i (x.thread l) (if l ∈ exe then go l else none))) c := by
  unfold Crew.advance
  congr 1
  funext x l
  rw [find_cleanOuts]
  by_cases h : l ∈ exe <;> simp [h]

theorem nextThread_congr (a b : Crew) (i : Instr) (t : Thread) (go : Option (BitVec 64)) (h : a.expansion = b.expansion) :
    a.nextThread i t go = b.nextThread i t go := by
  unfold Crew.nextThread
  rw [h]

theorem leastOf_head (exe : List Nat) (h : exe.Pairwise (· < ·)) : (leastOf exe).getD 0 = exe.headD 0 := by
  cases exe with
  | nil => rfl
  | cons x t => rw [leastOf_sorted x t h]; rfl

/-! ### The whole completion -/

theorem passWindows_nil (c : Crew) (lanes : List Nat) (h : c.pend = []) : c.passWindows lanes = c := by
  unfold Crew.passWindows
  rw [h]
  cases c
  simp_all

/-- An instruction whose results do not stay pending (R321): it takes no LK, its LK is 0, or it is irrevocable. -/
def lkFree (i : Instr) : Prop := pendsResult i = false

theorem applyFrees_clean (s : State) (i : Instr) (c b : Crew) (exe : List Nat) (ws go fl fmt) (h : lkFree i) :
    s.applyFrees i c b (cleanOuts exe ws go fl fmt) = freeLanes (s.lastUses i c) exe b := by
  unfold lkFree at h
  unfold State.applyFrees cleanOuts freeLanes State.lastUses State.lateDests
  rw [List.foldl_map]
  simp only [h, Bool.false_eq_true, if_false]
  rfl

/-- The standing fields of the lanes' writes. -/
def wroteFields (exe : List Nat) (ws : Nat → List (Nat × TWord)) : List Nat :=
  exe.flatMap fun l => (standing (exe.headD 0) l (ws l)).map Prod.fst

/-- The completion of a bundle in which no lane traps: `x` is the crew after its frees and writes. -/
theorem complete_clean (s : State) (i : Instr) (c b : Crew) (lanes exe : List Nat) (ws go fl fmt)
    (hp : b.pend = []) (he : c.expansion = none) (hs : exe.Sublist lanes) (hn : lanes.Pairwise (· < ·)) (hlk : lkFree i) :
    ∃ x, x = writeLanes (exe.headD 0) ws fl fmt exe (freeLanes (s.lastUses i c) exe b) ∧
      s.complete i c b lanes (cleanOuts exe ws go fl fmt) [] =
        { lanes.foldl (fun y l => y.setThread l (y.nextThread i (y.thread l) (if l ∈ exe then go l else none))) x with
          expansion := none, clk1 := x.clk1 + 1
          chunk := { x.chunk with bundles := x.chunk.bundles + 1 } } := by
  refine ⟨_, rfl, ?_⟩
  have hd : (cleanOuts exe ws go fl fmt).filter (fun o => o.trap.isNone) = cleanOuts exe ws go fl fmt := by
    rw [List.filter_eq_self]
    intro o ho
    simp only [cleanOuts, List.mem_map] at ho
    obtain ⟨l, _, rfl⟩ := ho
    rfl
  have hl : (cleanOuts exe ws go fl fmt).filter (fun o => lanes.contains o.lane) = cleanOuts exe ws go fl fmt := by
    rw [List.filter_eq_self]
    intro o ho
    simp only [cleanOuts, List.mem_map] at ho
    obtain ⟨l, hl, rfl⟩ := ho
    simpa using hs.subset hl
  have hm : (cleanOuts exe ws go fl fmt).map LaneOut.lane = exe := by simp [cleanOuts, Function.comp_def]
  have hlk' : pendsResult i = false := hlk
  unfold State.complete
  simp only [hd, hl, hm, passWindows_nil b lanes hp, hlk', Bool.false_eq_true, if_false, leastOf_head exe (hn.sublist hs),
    applyFrees_clean _ _ _ _ _ _ _ _ _ hlk, applyWrites_clean, List.foldl_nil, Crew.freeParams, he, advance_clean]
  rw [foldl_setThread_eq (fun y l => y.nextThread i (y.thread l) (if l ∈ exe then go l else none))]

theorem flags_freeLane (F : List Nat) (l : Nat) (d : Crew) :
    (F.foldl (fun c f => if f < 224 then c.freeV f l else c) d).arch.fpflags = d.arch.fpflags
      ∧ (F.foldl (fun c f => if f < 224 then c.freeV f l else c) d).arch.formatflag = d.arch.formatflag := by
  induction F generalizing d with
  | nil => exact ⟨rfl, rfl⟩
  | cons f t ih =>
    rw [List.foldl_cons, (ih _).1, (ih _).2]
    split <;> simp [Crew.freeV, Crew.noteWrite_arch]

theorem flags_freeLanes (fr : Nat → List Nat) (exe : List Nat) (d : Crew) :
    (freeLanes fr exe d).arch.fpflags = d.arch.fpflags ∧ (freeLanes fr exe d).arch.formatflag = d.arch.formatflag := by
  unfold freeLanes
  induction exe generalizing d with
  | nil => exact ⟨rfl, rfl⟩
  | cons l t ih =>
    rw [List.foldl_cons, (ih _).1, (ih _).2]
    exact flags_freeLane _ _ _

theorem foldl_noteWrite_eq (fs : List Nat) (c : Crew) :
    fs.foldl Crew.noteWrite c = { c with chunk := { c.chunk with ckpt := (fs.foldl Crew.noteWrite c).chunk.ckpt } } := by
  induction fs generalizing c with
  | nil => rfl
  | cons f t ih =>
    rw [List.foldl_cons, ih]
    obtain ⟨k, hk⟩ := c.noteWrite_eq f
    rw [hk]

/-- The fields among those that may be checkpointed are the v registers that are freed or written. -/
theorem changed_filter (s : State) (i : Instr) (c : Crew) (exe : List Nat) (ws : Nat → List (Nat × TWord)) :
    (exe.flatMap (s.lastUses i c) ++ wroteFields exe ws).filter (fun f => decide (f < 224))
      = (s.changed i c exe ws).filter (fun f => decide (f < 224)) := by
  unfold State.changed wroteFields
  rw [List.filter_append, List.filter_append]
  congr 1
  generalize exe.headD 0 = lead
  induction exe with
  | nil => rfl
  | cons l t ih =>
    rw [List.flatMap_cons, List.flatMap_cons, List.filter_append, List.filter_append, ih]
    congr 1
    unfold standing
    generalize ws l = u
    induction u with
    | nil => rfl
    | cons e u ihu =>
      obtain ⟨f, w⟩ := e
      rw [List.filter_cons, List.map_cons]
      by_cases hf : f < 224
      · simp only [hf, decide_true, Bool.true_or, if_true, List.map_cons]
        rw [List.filter_cons_of_pos (by simpa using hf), List.filter_cons_of_pos (by simpa using hf), ihu]
      · rw [List.filter_cons_of_neg (by simpa using hf)]
        split
        · rw [List.map_cons, List.filter_cons_of_neg (by simpa using hf), ihu]
        · exact ihu

/-- The completion of a bundle in which no lane traps: its effect, and what its chunk holds. -/
theorem complete_effect (s : State) (i : Instr) (c b : Crew) (lanes exe : List Nat) (ws go fl fmt)
    (hp : b.pend = []) (hh : b.homes = []) (he : c.expansion = none) (hb : b.expansion = none) (hs : exe.Sublist lanes)
    (hn : lanes.Pairwise (· < ·)) (hx : ∀ l ∈ lanes, l < 32 ∧ l < b.arch.threads.length) (hne : exe ≠ []) (hlk : lkFree i) :
    Effect i b (s.complete i c b lanes (cleanOuts exe ws go fl fmt) []) lanes exe ws (s.lastUses i c) go fl fmt ∧
    (s.complete i c b lanes (cleanOuts exe ws go fl fmt) []).chunk =
      { b.chunk with bundles := b.chunk.bundles + 1
                     ckpt := (((s.changed i c exe ws).filter fun f => decide (f < 224)).foldl Crew.noteWrite b).chunk.ckpt
                     sset := (s.complete i c b lanes (cleanOuts exe ws go fl fmt) []).chunk.sset } := by
  obtain ⟨x, hx1, hc⟩ := complete_clean s i c b lanes exe ws go fl fmt hp he hs hn hlk
  have hn' : exe.Pairwise (· < ·) := hn.sublist hs
  have hx32 : ∀ l ∈ exe, l < 32 := fun l hl => (hx l (hs.subset hl)).1
  have run1 := run_freeLanes (s.lastUses i c) exe b
  have h1 := run1.homes.trans hh
  have run : RegRun (exe.flatMap (s.lastUses i c) ++ wroteFields exe ws) b x := by
    rw [hx1]
    exact run1.append (run_writeLanes (exe.headD 0) ws fl fmt exe _ h1)
  have hxe := run.eq
  rw [changed_filter] at hxe
  have hkx : x.chunk = { b.chunk with
      ckpt := (((s.changed i c exe ws).filter fun f => decide (f < 224)).foldl Crew.noteWrite b).chunk.ckpt, sset := x.chunk.sset } := by
    conv_lhs => rw [hxe, foldl_noteWrite_eq]
    rfl
  have hxb : x = { b with
      arch := { b.arch with
        vregs := x.arch.vregs, sregs := x.arch.sregs, fpflags := x.arch.fpflags, formatflag := x.arch.formatflag }
      chunk := x.chunk } := by
    conv_lhs => rw [hxe, foldl_noteWrite_eq]
    rw [hkx]
    rfl
  have hxt : x.arch.threads = b.arch.threads := by rw [hxb]
  have hxexp : x.expansion = none := by rw [hxb]; exact hb
  have hnext : ∀ (y : Crew) (t : Thread) (g : Option (BitVec 64)), y.expansion = none → y.nextThread i t g = b.nextThread i t g :=
    fun y t g hy => nextThread_congr y b i t g (hy.trans hb.symm)
  have hfold : ∀ (ls : List Nat) (y : Crew), y.expansion = none →
      ls.foldl (fun y l => y.setThread l (y.nextThread i (y.thread l) (if l ∈ exe then go l else none))) y =
      ls.foldl (fun y l => y.setThread l (b.nextThread i (y.thread l) (if l ∈ exe then go l else none))) y := by
    intro ls
    induction ls with
    | nil => intro y _; rfl
    | cons l t ih =>
      intro y hy
      rw [List.foldl_cons, List.foldl_cons, hnext y _ _ hy]
      exact ih _ hy
  rw [hfold _ _ hxexp] at hc
  have hth := fun l => thread_foldl_set (fun l t => b.nextThread i t (if l ∈ exe then go l else none)) lanes x hn l
    (fun y hy => by rw [hxt]; exact (hx y hy).2)
  have hset := foldl_setThread_eq (fun y l => b.nextThread i (y.thread l) (if l ∈ exe then go l else none)) lanes x
  generalize hz : lanes.foldl (fun y l => y.setThread l (b.nextThread i (y.thread l) (if l ∈ exe then go l else none))) x = z at *
  have hxthread : ∀ l, x.thread l = b.thread l := fun l => by unfold Crew.thread; rw [hxt]
  have hV : ∀ f l, (s.complete i c b lanes (cleanOuts exe ws go fl fmt) []).readV f l = x.readV f l := fun f l => by
    rw [hc, hset]; rfl
  have hS : ∀ n, (s.complete i c b lanes (cleanOuts exe ws go fl fmt) []).readS n = x.readS n := fun n => by
    rw [hc, hset]; rfl
  have hF := flags_writeLanes (exe.headD 0) ws fl fmt exe (freeLanes (s.lastUses i c) exe b) h1
  have hfl := flags_freeLanes (s.lastUses i c) exe b
  refine ⟨⟨?_, ?_, ?_, ?_, ?_, ?_⟩, ?_⟩
  · intro f l hf hl
    rw [hV, hx1, readV_writeLanes _ _ _ _ _ _ _ _ hx32 hn' h1 hl hf, readV_freeLanes _ _ _ _ _ hx32 hl hf]
    by_cases hm : l ∈ exe <;> simp [hm]
  · intro n hl
    rw [hS, hx1, readS_writeLanes _ _ _ _ _ _ _ hn' h1 hl, readS_freeLanes]
    rw [if_pos]
    cases exe with
    | nil => exact absurd rfl hne
    | cons y t => simp
  · intro l
    have h3 : (s.complete i c b lanes (cleanOuts exe ws go fl fmt) []).thread l = z.thread l := by rw [hc]; rfl
    rw [h3, hth, hxthread]
  · have h3 : (s.complete i c b lanes (cleanOuts exe ws go fl fmt) []).arch.fpflags = x.arch.fpflags := by rw [hc, hset]
    rw [h3, hx1, hF.1, hfl.1]
  · have h3 : (s.complete i c b lanes (cleanOuts exe ws go fl fmt) []).arch.formatflag = x.arch.formatflag := by rw [hc, hset]
    rw [h3, hx1, hF.2, hfl.2]
  · rw [hc, hset, hxb]
    simp only [hb]
  · have h3 : (s.complete i c b lanes (cleanOuts exe ws go fl fmt) []).chunk = { x.chunk with bundles := x.chunk.bundles + 1 } := by rw [hc]
    rw [h3, hkx]

/-! ## A bundle that completes -/

/-- The crew that a body hands on: what completion needs of it. -/
structure BodyCrew (c b : Crew) : Prop where
  homes : b.homes = []
  pend : b.pend = []
  plain : b.expansion = none
  threads : b.arch.threads.length = c.arch.threads.length

theorem BodyCrew.self {s : State} {i : Instr} {ci : Nat} {c : Crew} {lanes : List Nat} (h : Issues s i ci c lanes) : BodyCrew c c :=
  ⟨h.own, h.pend, h.plain, rfl⟩

theorem Issues.lanes_sorted {s : State} {i : Instr} {ci : Nat} {c : Crew} {lanes : List Nat} (h : Issues s i ci c lanes) :
    lanes.Pairwise (· < ·) ∧ (∀ l ∈ lanes, l < 32 ∧ l < c.arch.threads.length) := by
  obtain ⟨_, _, hc, hl, _⟩ := stand_crew h.stand
  have h1 : lanes = c.bundle := by rw [hl]
  rw [h1]
  exact ⟨bundle_sorted c, fun l hm => ⟨runnableLanes_lt c l ((bundle_sub c).subset hm), runnable_lt c l ((bundle_sub c).subset hm)⟩⟩

theorem cleanOuts_done (exe : List Nat) (ws go fl fmt) (h : exe ≠ []) :
    ((cleanOuts exe ws go fl fmt).filter fun o => o.trap.isNone).isEmpty = false := by
  cases exe with
  | nil => exact absurd rfl h
  | cons x t => rfl

theorem homeCrew_own (s : State) (c : Crew) (l : Nat) (h : c.homes = []) : s.homeCrew c l = c := by
  unfold State.homeCrew
  rw [h]
  rfl

/-- A crew's own bundle frees the same registers whatever the package's state. -/
theorem lastUses_own (s s' : State) (i : Instr) (c : Crew) (h : c.homes = []) : s'.lastUses i c = s.lastUses i c := by
  funext l
  unfold State.lastUses State.freesOf State.lateDests State.destOf State.effSlot
  simp only [homeCrew_own _ c _ h]

/-- A speculative or deferred instruction in whose bundle no lane traps, with room in its chunk: it completes. -/
theorem conclude_speculative {s s' : State} {i : Instr} {ci : Nat} {c b : Crew} {lanes : List Nat} (h : Issues s i ci c lanes)
    (hb : BodyCrew c b) (ws go fl fmt) (fin : Bool) (hcls : i.cls ≠ .irrevocable) (hlk : lkFree i)
    (hroom : Room s ci b (s.changed i c (execLanes i c lanes) ws)) :
    ∃ c', Effect i b c' lanes (execLanes i c lanes) ws (s.lastUses i c) go fl fmt ∧ GoesOn b c' ∧
      State.conclude i ci s c s' b lanes (cleanOuts (execLanes i c lanes) ws go fl fmt) fin =
        (s'.setCrew ci (if fin then c'.beginCommit else c')).fillTlb c.core (s'.asidOf c) (b.chunk.pages.drop c.chunk.pages.length) := by
  obtain ⟨hn, hx⟩ := h.lanes_sorted
  obtain ⟨he, hk⟩ := complete_effect s' i c b lanes (execLanes i c lanes) ws go fl fmt hb.pend hb.homes h.plain hb.plain
    (execLanes_sub i c lanes) hn (fun l hl => ⟨(hx l hl).1, hb.threads ▸ (hx l hl).2⟩) h.someLane hlk
  have hown := lastUses_own s s' i c h.own
  have hch : s'.changed i c (execLanes i c lanes) ws = s.changed i c (execLanes i c lanes) ws := by unfold State.changed; rw [hown]
  rw [hown] at he
  rw [hch] at hk
  refine ⟨_, he, ?_, ?_⟩
  · unfold GoesOn
    rw [hk]
  · have hev : outsideChunk i b = false := by simp [outsideChunk, hcls]
    have hlim : s.overLimits ci (s'.complete i c b lanes (cleanOuts (execLanes i c lanes) ws go fl fmt) []) = false := by
      unfold Room at hroom
      rw [← hroom]
      have hr := he.rest
      have hz := foldl_noteWrite_eq ((s.changed i c (execLanes i c lanes) ws).filter fun f => decide (f < 224)) b
      apply overLimits_congr
      · rw [hr, hz]
      · rw [hr, hz]
      · rw [hk, hz]
      · rw [hk, hz]
      · rw [hk, hz]
      · rw [hk, hz]
      · rw [hk]
    unfold State.conclude
    simp only [cleanOuts_notrap, List.map_nil, List.filterMap_nil, lowestDeath, hev, Bool.not_false, Bool.true_and, hlim, Bool.false_and,
      Bool.false_eq_true, if_false, sharedFull_of_room s ci _ hlim]
    rw [hk]

/-- An irrevocable instruction in whose bundle no lane traps: it completes, and a chunk begins after it. -/
theorem conclude_event {s s' : State} {i : Instr} {ci : Nat} {c b : Crew} {lanes : List Nat} (h : Issues s i ci c lanes)
    (hb : BodyCrew c b) (ws go fl fmt) (hcls : i.cls = .irrevocable) :
    ∃ c1, Effect i b c1 lanes (execLanes i c lanes) ws (s.lastUses i c) go fl fmt ∧
      State.conclude i ci s c s' b lanes (cleanOuts (execLanes i c lanes) ws go fl fmt) false =
        ((s'.noteEvent c1).setCrew ci c1.freshChunk).fillTlb c.core ((s'.noteEvent c1).asidOf c) (b.chunk.pages.drop c.chunk.pages.length) := by
  obtain ⟨hn, hx⟩ := h.lanes_sorted
  have hlk : lkFree i := by unfold lkFree pendsResult; simp [hcls]
  obtain ⟨he, hk⟩ := complete_effect s' i c b lanes (execLanes i c lanes) ws go fl fmt hb.pend hb.homes h.plain hb.plain
    (execLanes_sub i c lanes) hn (fun l hl => ⟨(hx l hl).1, hb.threads ▸ (hx l hl).2⟩) h.someLane hlk
  rw [lastUses_own s s' i c h.own] at he
  refine ⟨_, he, ?_⟩
  have hev : outsideChunk i b = true := by simp [outsideChunk, hcls, Crew.isComposite, hb.homes]
  unfold State.conclude
  simp only [cleanOuts_notrap, List.map_nil, List.filterMap_nil, lowestDeath, hev, Bool.not_true, Bool.false_and, Bool.true_and,
    Bool.false_eq_true, if_false, cleanOuts_done _ _ _ _ _ h.someLane, Bool.not_false, if_true]
  rw [hk]

end Sys2Proof.Machine
end

