-- ==== Sys2Proof/Laws/PerInstr.lean ====
section
/-! SUPPORT. For every constructor of Instr: a well-formed instruction is read back from its encoding. -/

namespace Sys2Proof.Laws

-- One declaration at a time: the checks run together would hold too much memory.
set_option Elab.async false

theorem field_eq {n : Nat} (k : BitVec n) (x : Nat) (h : x % 2 ^ n = k.toNat) : BitVec.ofNat n x = k := by
  apply BitVec.eq_of_toNat_eq; rw [BitVec.toNat_ofNat, h]

theorem fmtOf_code (f : Fmt) : fmtOf f.code = some f := by cases f <;> rfl
theorem fmt_lt (f : Fmt) : f.code < 64 := by cases f <;> decide
theorem mfmtOf_code (f : MFmt) : mfmtOf f.code = some f := by cases f <;> rfl
theorem mfmt_lt (f : MFmt) : f.code < 16 := by cases f <;> decide
theorem rmodeOf_code (r : RMode) : rmodeOf r.code = some r := by cases r <;> rfl
theorem rmode_lt (r : RMode) : r.code < 8 := by cases r <;> decide
theorem cvtModeOf_code (r : CvtMode) : cvtModeOf r.code = some r := by
  cases r with
  | ef => rfl
  | round r => cases r <;> rfl
theorem cvtMode_lt (r : CvtMode) : r.code < 8 := by
  cases r with
  | ef => decide
  | round r => exact rmode_lt r

theorem bit_eq (k x : Nat) (b : Bool) (h : x / 2 ^ k % 2 = b.toNat) : bit k x = b := by
  rw [bit, h]; cases b <;> rfl

/-- A register field C that an entry does not use is zero (R185). -/
theorem zero_c (d a b : Role) (o : ROps) (h : (Slots.r o d a b .zero).all Slot.ok = true) : o.c = 0 := by
  simp only [Slots.r, List.all_cons, Slot.ok, Bool.and_eq_true, beq_iff_eq] at h
  exact h.2.2.2.1.1.1

/-- A product's fields are read back (R284). -/
theorem prodOf_raw (p : ProdOps) :
    prodOf (BitVec.ofNat 13 (p.bblen.toNat * 64 + p.z.toNat * 32 + p.h.toNat * 16 + p.bfmt.code)).toNat
      (BitVec.ofNat 32 (p.mb.toNat * 2 ^ 24 + p.nb.toNat * 2 ^ 15 + p.kb.toNat * 2 ^ 6)).toNat
      (BitVec.ofNat 16 p.sboff.toNat).toNat ⟨0, p.f1, p.f2, p.f3, 0, 0, 0, p.l1, p.l2, p.l3⟩ = some p := by
  obtain ⟨f1, f2, f3, l1, l2, l3, bblen, z, hh, bfmt, mb, nb, kb, sboff⟩ := p
  have := bool_lt bblen; have := bool_lt z; have := bool_lt hh; have := mfmt_lt bfmt; have := mb.isLt
  have := nb.isLt; have := kb.isLt; have := sboff.isLt
  have e1 : bit 6 (BitVec.ofNat 13 (bblen.toNat * 64 + z.toNat * 32 + hh.toNat * 16 + bfmt.code)).toNat = bblen :=
    bit_eq _ _ _ (by rw [BitVec.toNat_ofNat]; omega)
  have e2 : bit 5 (BitVec.ofNat 13 (bblen.toNat * 64 + z.toNat * 32 + hh.toNat * 16 + bfmt.code)).toNat = z :=
    bit_eq _ _ _ (by rw [BitVec.toNat_ofNat]; omega)
  have e3 : bit 4 (BitVec.ofNat 13 (bblen.toNat * 64 + z.toNat * 32 + hh.toNat * 16 + bfmt.code)).toNat = hh :=
    bit_eq _ _ _ (by rw [BitVec.toNat_ofNat]; omega)
  have e4 : (BitVec.ofNat 13 (bblen.toNat * 64 + z.toNat * 32 + hh.toNat * 16 + bfmt.code)).toNat % 16 = bfmt.code := by
    rw [BitVec.toNat_ofNat]; omega
  have e5 : bits 6 24 (BitVec.ofNat 32 (mb.toNat * 2 ^ 24 + nb.toNat * 2 ^ 15 + kb.toNat * 2 ^ 6)).toNat = mb :=
    field_eq _ _ (by rw [BitVec.toNat_ofNat]; omega)
  have e6 : bits 8 15 (BitVec.ofNat 32 (mb.toNat * 2 ^ 24 + nb.toNat * 2 ^ 15 + kb.toNat * 2 ^ 6)).toNat = nb :=
    field_eq _ _ (by rw [BitVec.toNat_ofNat]; omega)
  have e7 : bits 8 6 (BitVec.ofNat 32 (mb.toNat * 2 ^ 24 + nb.toNat * 2 ^ 15 + kb.toNat * 2 ^ 6)).toNat = kb :=
    field_eq _ _ (by rw [BitVec.toNat_ofNat]; omega)
  have e8 : bits 14 0 (BitVec.ofNat 16 sboff.toNat).toNat = sboff := field_eq _ _ (by rw [BitVec.toNat_ofNat]; omega)
  simp only [prodOf, e1, e2, e3, e4, e5, e6, e7, e8, mfmtOf_code]; rfl

/-- Decoding the encoding of a well-formed instruction gives it back. -/
def RoundTrip.Statement (i : Instr) : Prop := i.wellFormed = true → decode (encode i) = .ok i

theorem RoundTrip.add (rm : RMode) (o : ROps) :
    RoundTrip.Statement (.add rm o) := fun h =>
  decode_encode_of rfl rfl rfl (by cases rm <;> rfl) h

theorem RoundTrip.sub (rm : RMode) (o : ROps) :
    RoundTrip.Statement (.sub rm o) := fun h =>
  decode_encode_of rfl rfl rfl (by cases rm <;> rfl) h

theorem RoundTrip.mul (rm : RMode) (o : ROps) :
    RoundTrip.Statement (.mul rm o) := fun h =>
  decode_encode_of rfl rfl rfl (by cases rm <;> rfl) h

theorem RoundTrip.div (rm : RMode) (o : ROps) :
    RoundTrip.Statement (.div rm o) := fun h =>
  decode_encode_of rfl rfl rfl (by cases rm <;> rfl) h

theorem RoundTrip.rem (rm : RMode) (o : ROps) :
    RoundTrip.Statement (.rem rm o) := fun h =>
  decode_encode_of rfl rfl rfl (by cases rm <;> rfl) h

theorem RoundTrip.neg (rm : RMode) (o : ROps) :
    RoundTrip.Statement (.neg rm o) := fun h =>
  decode_encode_of rfl rfl rfl (by cases rm <;> rfl) h

theorem RoundTrip.abs (rm : RMode) (o : ROps) :
    RoundTrip.Statement (.abs rm o) := fun h =>
  decode_encode_of rfl rfl rfl (by cases rm <;> rfl) h

theorem RoundTrip.min (rm : RMode) (o : ROps) :
    RoundTrip.Statement (.min rm o) := fun h =>
  decode_encode_of rfl rfl rfl (by cases rm <;> rfl) h

theorem RoundTrip.max (rm : RMode) (o : ROps) :
    RoundTrip.Statement (.max rm o) := fun h =>
  decode_encode_of rfl rfl rfl (by cases rm <;> rfl) h

theorem RoundTrip.cmpeq (rm : RMode) (o : ROps) :
    RoundTrip.Statement (.cmpeq rm o) := fun h =>
  decode_encode_of rfl rfl rfl (by cases rm <;> rfl) h

theorem RoundTrip.cmplt (rm : RMode) (o : ROps) :
    RoundTrip.Statement (.cmplt rm o) := fun h =>
  decode_encode_of rfl rfl rfl (by cases rm <;> rfl) h

theorem RoundTrip.cmple (rm : RMode) (o : ROps) :
    RoundTrip.Statement (.cmple rm o) := fun h =>
  decode_encode_of rfl rfl rfl (by cases rm <;> rfl) h

theorem RoundTrip.and (rm : RMode) (o : ROps) :
    RoundTrip.Statement (.and rm o) := fun h =>
  decode_encode_of rfl rfl rfl (by cases rm <;> rfl) h

theorem RoundTrip.or (rm : RMode) (o : ROps) :
    RoundTrip.Statement (.or rm o) := fun h =>
  decode_encode_of rfl rfl rfl (by cases rm <;> rfl) h

theorem RoundTrip.xor (rm : RMode) (o : ROps) :
    RoundTrip.Statement (.xor rm o) := fun h =>
  decode_encode_of rfl rfl rfl (by cases rm <;> rfl) h

theorem RoundTrip.not (rm : RMode) (o : ROps) :
    RoundTrip.Statement (.not rm o) := fun h =>
  decode_encode_of rfl rfl rfl (by cases rm <;> rfl) h

theorem RoundTrip.shl (rm : RMode) (o : ROps) :
    RoundTrip.Statement (.shl rm o) := fun h =>
  decode_encode_of rfl rfl rfl (by cases rm <;> rfl) h

theorem RoundTrip.shr (rm : RMode) (o : ROps) :
    RoundTrip.Statement (.shr rm o) := fun h =>
  decode_encode_of rfl rfl rfl (by cases rm <;> rfl) h

theorem RoundTrip.fma (rm : RMode) (o : ROps) :
    RoundTrip.Statement (.fma rm o) := fun h =>
  decode_encode_of rfl rfl rfl (by cases rm <;> rfl) h

theorem RoundTrip.ident (rm : RMode) (o : ROps) :
    RoundTrip.Statement (.ident rm o) := fun h =>
  decode_encode_of rfl rfl rfl (by cases rm <;> rfl) h

theorem RoundTrip.truth (rm : RMode) (o : ROps) :
    RoundTrip.Statement (.truth rm o) := fun h =>
  decode_encode_of rfl rfl rfl (by cases rm <;> rfl) h

theorem RoundTrip.iadd (v : IVar) (o : ROps) :
    RoundTrip.Statement (.iadd v o) := fun h =>
  decode_encode_of rfl rfl rfl (by cases v <;> rfl) h

theorem RoundTrip.isub (v : IVar) (o : ROps) :
    RoundTrip.Statement (.isub v o) := fun h =>
  decode_encode_of rfl rfl rfl (by cases v <;> rfl) h

theorem RoundTrip.imul (v : IVar) (o : ROps) :
    RoundTrip.Statement (.imul v o) := fun h =>
  decode_encode_of rfl rfl rfl (by cases v <;> rfl) h

theorem RoundTrip.imulh (v : IVar) (o : ROps) :
    RoundTrip.Statement (.imulh v o) := fun h =>
  decode_encode_of rfl rfl rfl (by cases v <;> rfl) h

theorem RoundTrip.idiv (v : IVar) (o : ROps) :
    RoundTrip.Statement (.idiv v o) := fun h =>
  decode_encode_of rfl rfl rfl (by cases v <;> rfl) h

theorem RoundTrip.irem (v : IVar) (o : ROps) :
    RoundTrip.Statement (.irem v o) := fun h =>
  decode_encode_of rfl rfl rfl (by cases v <;> rfl) h

theorem RoundTrip.ineg (v : IVar) (o : ROps) :
    RoundTrip.Statement (.ineg v o) := fun h =>
  decode_encode_of rfl rfl rfl (by cases v <;> rfl) h

theorem RoundTrip.iabs (v : IVar) (o : ROps) :
    RoundTrip.Statement (.iabs v o) := fun h =>
  decode_encode_of rfl rfl rfl (by cases v <;> rfl) h

theorem RoundTrip.imin (v : IVar) (o : ROps) :
    RoundTrip.Statement (.imin v o) := fun h =>
  decode_encode_of rfl rfl rfl (by cases v <;> rfl) h

theorem RoundTrip.imax (v : IVar) (o : ROps) :
    RoundTrip.Statement (.imax v o) := fun h =>
  decode_encode_of rfl rfl rfl (by cases v <;> rfl) h

theorem RoundTrip.iand (v : IVar) (o : ROps) :
    RoundTrip.Statement (.iand v o) := fun h =>
  decode_encode_of rfl rfl rfl (by cases v <;> rfl) h

theorem RoundTrip.ior (v : IVar) (o : ROps) :
    RoundTrip.Statement (.ior v o) := fun h =>
  decode_encode_of rfl rfl rfl (by cases v <;> rfl) h

theorem RoundTrip.ixor (v : IVar) (o : ROps) :
    RoundTrip.Statement (.ixor v o) := fun h =>
  decode_encode_of rfl rfl rfl (by cases v <;> rfl) h

theorem RoundTrip.inot (v : IVar) (o : ROps) :
    RoundTrip.Statement (.inot v o) := fun h =>
  decode_encode_of rfl rfl rfl (by cases v <;> rfl) h

theorem RoundTrip.ishl (v : IVar) (o : ROps) :
    RoundTrip.Statement (.ishl v o) := fun h =>
  decode_encode_of rfl rfl rfl (by cases v <;> rfl) h

theorem RoundTrip.ishr (v : IVar) (o : ROps) :
    RoundTrip.Statement (.ishr v o) := fun h =>
  decode_encode_of rfl rfl rfl (by cases v <;> rfl) h

theorem RoundTrip.popc (v : IVar) (o : ROps) :
    RoundTrip.Statement (.popc v o) := fun h =>
  decode_encode_of rfl rfl rfl (by cases v <;> rfl) h

theorem RoundTrip.clz (v : IVar) (o : ROps) :
    RoundTrip.Statement (.clz v o) := fun h =>
  decode_encode_of rfl rfl rfl (by cases v <;> rfl) h

theorem RoundTrip.ctz (v : IVar) (o : ROps) :
    RoundTrip.Statement (.ctz v o) := fun h =>
  decode_encode_of rfl rfl rfl (by cases v <;> rfl) h

theorem RoundTrip.brev (v : IVar) (o : ROps) :
    RoundTrip.Statement (.brev v o) := fun h =>
  decode_encode_of rfl rfl rfl (by cases v <;> rfl) h

theorem RoundTrip.bfx (v : IVar) (o : ROps) :
    RoundTrip.Statement (.bfx v o) := fun h =>
  decode_encode_of rfl rfl rfl (by cases v <;> rfl) h

theorem RoundTrip.bfi (v : IVar) (o : ROps) :
    RoundTrip.Statement (.bfi v o) := fun h =>
  decode_encode_of rfl rfl rfl (by cases v <;> rfl) h

theorem RoundTrip.icmp (v : IVar) (cc : ICond) (o : ROps) :
    RoundTrip.Statement (.icmp v cc o) := fun h =>
  decode_encode_of rfl rfl rfl (by cases v <;> cases cc <;> rfl) h

theorem RoundTrip.sel (o : ROps) :
    RoundTrip.Statement (.sel o) := fun h =>
  decode_encode_of rfl rfl rfl (rfl) h

theorem RoundTrip.lea (v : IVar) (k : BitVec 2) (o : ROps) :
    RoundTrip.Statement (.lea v k o) := fun h =>
  decode_encode_of rfl rfl rfl (by
    have e : BitVec.ofNat 2 (BitVec.ofNat 4 k.toNat).toNat = k :=
      field_eq _ _ (by have := k.isLt; simp only [BitVec.toNat_ofNat]; omega)
    have : ∀ k', k' = k → (do some (Instr.lea v k' o) : Option Instr) = some (.lea v k o) := by rintro _ rfl; rfl
    cases v <;> exact this _ e) h

theorem RoundTrip.mov (o : ROps) :
    RoundTrip.Statement (.mov o) := fun h =>
  decode_encode_of rfl rfl rfl (rfl) h

theorem RoundTrip.movi (v : IVar) (imm : BitVec 32) (o : IOps) :
    RoundTrip.Statement (.movi v imm o) := fun h =>
  decode_encode_of rfl rfl rfl (by
    cases v <;> simp [Raw.toInstr, iOf, ivarOf, IVar.code]) h

theorem RoundTrip.movh (v : IVar) (imm : BitVec 32) (o : IOps) :
    RoundTrip.Statement (.movh v imm o) := fun h =>
  decode_encode_of rfl rfl rfl (by
    cases v <;> simp [Raw.toInstr, iOf, ivarOf, IVar.code]) h

theorem RoundTrip.iaddi (v : IVar) (imm : BitVec 32) (o : IOps) :
    RoundTrip.Statement (.iaddi v imm o) := fun h =>
  decode_encode_of rfl rfl rfl (by
    cases v <;> simp [Raw.toInstr, iOf, ivarOf, IVar.code]) h

theorem RoundTrip.icmpi (v : IVar) (cc : ICond) (imm : BitVec 28) (o : IOps) :
    RoundTrip.Statement (.icmpi v cc imm o) := fun h =>
  decode_encode_of rfl rfl rfl (by
    have := imm.isLt
    have e1 : (BitVec.ofNat 32 (cc.code * 2 ^ 28 + imm.toNat)).toNat / 2 ^ 28 = cc.code := by
      rw [BitVec.toNat_ofNat]; cases cc <;> simp only [ICond.code] <;> omega
    have e2 : BitVec.ofNat 28 (BitVec.ofNat 32 (cc.code * 2 ^ 28 + imm.toNat)).toNat = imm := field_eq _ _ (by
      rw [BitVec.toNat_ofNat]; cases cc <;> simp only [ICond.code] <;> omega)
    simp only [Raw.toInstr, iOf, e1, e2]
    cases v <;> cases cc <;> rfl) h

theorem RoundTrip.fadd (ty : FTy) (rm : RMode) (o : ROps) :
    RoundTrip.Statement (.fadd ty rm o) := fun h =>
  decode_encode_of rfl rfl rfl (by cases ty <;> cases rm <;> rfl) h

theorem RoundTrip.fsub (ty : FTy) (rm : RMode) (o : ROps) :
    RoundTrip.Statement (.fsub ty rm o) := fun h =>
  decode_encode_of rfl rfl rfl (by cases ty <;> cases rm <;> rfl) h

theorem RoundTrip.fmul (ty : FTy) (rm : RMode) (o : ROps) :
    RoundTrip.Statement (.fmul ty rm o) := fun h =>
  decode_encode_of rfl rfl rfl (by cases ty <;> cases rm <;> rfl) h

theorem RoundTrip.ffma (ty : FTy) (rm : RMode) (o : ROps) :
    RoundTrip.Statement (.ffma ty rm o) := fun h =>
  decode_encode_of rfl rfl rfl (by cases ty <;> cases rm <;> rfl) h

theorem RoundTrip.fdiv (ty : FTy) (rm : RMode) (o : ROps) :
    RoundTrip.Statement (.fdiv ty rm o) := fun h =>
  decode_encode_of rfl rfl rfl (by cases ty <;> cases rm <;> rfl) h

theorem RoundTrip.fsqrt (ty : FTy) (rm : RMode) (o : ROps) :
    RoundTrip.Statement (.fsqrt ty rm o) := fun h =>
  decode_encode_of rfl rfl rfl (by cases ty <;> cases rm <;> rfl) h

theorem RoundTrip.frsq (ty : FTy) (rm : RMode) (o : ROps) :
    RoundTrip.Statement (.frsq ty rm o) := fun h =>
  decode_encode_of rfl rfl rfl (by cases ty <;> cases rm <;> rfl) h

theorem RoundTrip.fexp2 (ty : FTy) (rm : RMode) (o : ROps) :
    RoundTrip.Statement (.fexp2 ty rm o) := fun h =>
  decode_encode_of rfl rfl rfl (by cases ty <;> cases rm <;> rfl) h

theorem RoundTrip.flog2 (ty : FTy) (rm : RMode) (o : ROps) :
    RoundTrip.Statement (.flog2 ty rm o) := fun h =>
  decode_encode_of rfl rfl rfl (by cases ty <;> cases rm <;> rfl) h

theorem RoundTrip.frcp (ty : FTy) (rm : RMode) (o : ROps) :
    RoundTrip.Statement (.frcp ty rm o) := fun h =>
  decode_encode_of rfl rfl rfl (by cases ty <;> cases rm <;> rfl) h

theorem RoundTrip.fmin (ty : FTy) (o : ROps) :
    RoundTrip.Statement (.fmin ty o) := fun h =>
  decode_encode_of rfl rfl rfl (by cases ty <;> rfl) h

theorem RoundTrip.fmax (ty : FTy) (o : ROps) :
    RoundTrip.Statement (.fmax ty o) := fun h =>
  decode_encode_of rfl rfl rfl (by cases ty <;> rfl) h

theorem RoundTrip.fabs (ty : FTy) (o : ROps) :
    RoundTrip.Statement (.fabs ty o) := fun h =>
  decode_encode_of rfl rfl rfl (by cases ty <;> rfl) h

theorem RoundTrip.fneg (ty : FTy) (o : ROps) :
    RoundTrip.Statement (.fneg ty o) := fun h =>
  decode_encode_of rfl rfl rfl (by cases ty <;> rfl) h

theorem RoundTrip.fcmp (ty : FTy) (cc : FCond) (o : ROps) :
    RoundTrip.Statement (.fcmp ty cc o) := fun h =>
  decode_encode_of rfl rfl rfl (by cases ty <;> cases cc <;> rfl) h

theorem RoundTrip.fclass (ty : FTy) (o : ROps) :
    RoundTrip.Statement (.fclass ty o) := fun h =>
  decode_encode_of rfl rfl rfl (by cases ty <;> rfl) h

theorem RoundTrip.fround (ty : FTy) (rm : RMode) (o : ROps) :
    RoundTrip.Statement (.fround ty rm o) := fun h =>
  decode_encode_of rfl rfl rfl (by cases ty <;> cases rm <;> rfl) h

theorem RoundTrip.fscale (ty : FTy) (rm : RMode) (o : ROps) :
    RoundTrip.Statement (.fscale ty rm o) := fun h =>
  decode_encode_of rfl rfl rfl (by cases ty <;> cases rm <;> rfl) h

theorem RoundTrip.fdot2 (ty : FTy) (rm : RMode) (o : ROps) :
    RoundTrip.Statement (.fdot2 ty rm o) := fun h =>
  decode_encode_of rfl rfl rfl (by cases ty <;> cases rm <;> rfl) h

theorem RoundTrip.cvt (rm : CvtMode) (dst : Fmt) (src : Fmt) (o : XOps) :
    RoundTrip.Statement (.cvt rm dst src o) := fun h =>
  decode_encode_of rfl rfl rfl (by
    have := fmt_lt dst; have := fmt_lt src
    have e1 : (BitVec.ofNat 16 (dst.code * 256 + src.code)).toNat / 256 % 64 = dst.code := by
      rw [BitVec.toNat_ofNat]; omega
    have e2 : (BitVec.ofNat 16 (dst.code * 256 + src.code)).toNat % 64 = src.code := by
      rw [BitVec.toNat_ofNat]; omega
    have e3 : cvtModeOf ((BitVec.ofNat 13 rm.code).toNat % 8) = some rm := by
      cases rm with
      | ef => rfl
      | round r => cases r <;> rfl
    simp only [Raw.toInstr, xOf, e1, e2, e3, fmtOf_code]; rfl) h

theorem RoundTrip.cvti (rm : RMode) (dst : Fmt) (src : Fmt) (s : BitVec 32) (o : XOps) :
    RoundTrip.Statement (.cvti rm dst src s o) := fun h =>
  decode_encode_of rfl rfl rfl (by
    have := fmt_lt dst; have := fmt_lt src
    have e1 : (BitVec.ofNat 16 (dst.code * 256 + src.code)).toNat / 256 % 64 = dst.code := by
      rw [BitVec.toNat_ofNat]; omega
    have e2 : (BitVec.ofNat 16 (dst.code * 256 + src.code)).toNat % 64 = src.code := by
      rw [BitVec.toNat_ofNat]; omega
    have e3 : rmodeOf ((BitVec.ofNat 13 rm.code).toNat % 8) = some rm := by cases rm <;> rfl
    have e4 : BitVec.ofNat 32 s.toNat = s := by simp
    simp only [Raw.toInstr, xOf, e1, e2, e3, e4, fmtOf_code]; rfl) h

theorem RoundTrip.pack (fmt : Fmt) (rm : RMode) (n : BitVec 2) (index : BitVec 8) (o : XOps) :
    RoundTrip.Statement (.pack fmt rm n index o) := fun h =>
  decode_encode_of rfl rfl rfl (by
    have := fmt_lt fmt; have := n.isLt; have := index.isLt; have := rmode_lt rm
    have e1 : (BitVec.ofNat 16 (fmt.code * 256 + index.toNat)).toNat / 256 % 64 = fmt.code := by
      rw [BitVec.toNat_ofNat]; omega
    have e2 : BitVec.ofNat 8 (BitVec.ofNat 16 (fmt.code * 256 + index.toNat)).toNat = index := field_eq _ _ (by
      rw [BitVec.toNat_ofNat]; omega)
    have e3 : (BitVec.ofNat 13 (n.toNat * 8 + rm.code)).toNat % 8 = rm.code := by rw [BitVec.toNat_ofNat]; omega
    have e4 : BitVec.ofNat 2 ((BitVec.ofNat 13 (n.toNat * 8 + rm.code)).toNat / 8) = n := field_eq _ _ (by
      rw [BitVec.toNat_ofNat]; omega)
    simp only [Raw.toInstr, xOf, e1, e2, e3, e4, fmtOf_code, rmodeOf_code]; rfl) h

theorem RoundTrip.unpack (fmt : Fmt) (index : BitVec 8) (o : XOps) :
    RoundTrip.Statement (.unpack fmt index o) := fun h =>
  decode_encode_of rfl rfl rfl (by
    have := fmt_lt fmt; have := index.isLt
    have e1 : (BitVec.ofNat 16 (fmt.code * 256 + index.toNat)).toNat / 256 % 64 = fmt.code := by
      rw [BitVec.toNat_ofNat]; omega
    have e2 : BitVec.ofNat 8 (BitVec.ofNat 16 (fmt.code * 256 + index.toNat)).toNat = index := field_eq _ _ (by
      rw [BitVec.toNat_ofNat]; omega)
    simp only [Raw.toInstr, xOf, e1, e2, fmtOf_code]; rfl) h

theorem RoundTrip.tagof (o : ROps) :
    RoundTrip.Statement (.tagof o) := fun h =>
  decode_encode_of rfl rfl rfl (rfl) h

theorem RoundTrip.settag (t : Tag) (o : IOps) :
    RoundTrip.Statement (.settag t o) := fun h =>
  decode_encode_of rfl rfl rfl (by cases t <;> rfl) h

theorem RoundTrip.tagchk (mask : BitVec 16) (o : IOps) :
    RoundTrip.Statement (.tagchk mask o) := fun h =>
  decode_encode_of rfl rfl rfl (by
    have e : BitVec.ofNat 16 (BitVec.ofNat 32 mask.toNat).toNat = mask :=
      field_eq _ _ (by have := mask.isLt; rw [BitVec.toNat_ofNat]; omega)
    simp only [Raw.toInstr, iOf, e]) h

theorem RoundTrip.hdrld (o : MOps) :
    RoundTrip.Statement (.hdrld o) := fun h =>
  decode_encode_of rfl rfl rfl (rfl) h

theorem RoundTrip.ihash (o : ROps) :
    RoundTrip.Statement (.ihash o) := fun h =>
  decode_encode_of rfl rfl rfl (rfl) h

theorem RoundTrip.shfl (mode : ShflMode) (immB : Bool) (o : ROps) :
    RoundTrip.Statement (.shfl mode immB o) := fun h =>
  decode_encode_of rfl rfl rfl (by cases mode <;> cases immB <;> rfl) h

theorem RoundTrip.vote (op : VoteOp) (o : ROps) :
    RoundTrip.Statement (.vote op o) := fun h =>
  decode_encode_of rfl rfl rfl (by cases op <;> rfl) h

theorem RoundTrip.qswap (k : BitVec 2) (o : ROps) :
    RoundTrip.Statement (.qswap k o) := fun h =>
  decode_encode_of rfl rfl rfl (by
    have e : BitVec.ofNat 2 (BitVec.ofNat 4 k.toNat).toNat = k :=
      field_eq _ _ (by have := k.isLt; rw [BitVec.toNat_ofNat]; omega)
    exact congrArg (fun k' => some (Instr.qswap k' o)) e) h

theorem RoundTrip.qbcast (j : BitVec 2) (o : ROps) :
    RoundTrip.Statement (.qbcast j o) := fun h =>
  decode_encode_of rfl rfl rfl (by
    have e : BitVec.ofNat 2 (BitVec.ofNat 4 j.toNat).toNat = j :=
      field_eq _ _ (by have := j.isLt; rw [BitVec.toNat_ofNat]; omega)
    exact congrArg (fun k' => some (Instr.qbcast k' o)) e) h

theorem RoundTrip.matchKeys (o : ROps) :
    RoundTrip.Statement (.matchKeys o) := fun h =>
  decode_encode_of rfl rfl rfl (rfl) h

theorem RoundTrip.msort (desc : Bool) (o : ROps) :
    RoundTrip.Statement (.msort desc o) := fun h =>
  decode_encode_of rfl rfl rfl (by cases desc <;> rfl) h

theorem RoundTrip.perm (o : ROps) :
    RoundTrip.Statement (.perm o) := fun h =>
  decode_encode_of rfl rfl rfl (rfl) h

theorem RoundTrip.scan (op : RedOp) (ex : Bool) (ty : RedTy) (rm : RMode) (o : ROps) :
    RoundTrip.Statement (.scan op ex ty rm o) := by
  cases ty with
  | f t => cases t <;>
      exact fun h => decode_encode_of rfl rfl rfl (by cases op <;> cases ex <;> cases rm <;> rfl) h
  | _ => exact fun h => decode_encode_of rfl rfl rfl (by cases op <;> cases ex <;> cases rm <;> rfl) h

theorem RoundTrip.reduce (op : RedOp) (ty : RedTy) (rm : RMode) (o : ROps) :
    RoundTrip.Statement (.reduce op ty rm o) := by
  cases ty with
  | f t => cases t <;>
      exact fun h => decode_encode_of rfl rfl rfl (by cases op <;> cases rm <;> rfl) h
  | _ => exact fun h => decode_encode_of rfl rfl rfl (by cases op <;> cases rm <;> rfl) h

theorem RoundTrip.elect (o : ROps) :
    RoundTrip.Statement (.elect o) := fun h =>
  decode_encode_of rfl rfl rfl (rfl) h

theorem RoundTrip.rgw : RoundTrip.Statement (.rgw) := fun h =>
  decode_encode_of rfl rfl rfl (rfl) h

theorem RoundTrip.regroupTimeout (quad : Nat) (entry : Nat) :
    RoundTrip.Statement (.regroupTimeout quad entry) := fun h =>
  absurd (show false = true from h) (by decide)

theorem RoundTrip.rgend : RoundTrip.Statement (.rgend) := fun h =>
  decode_encode_of rfl rfl rfl (rfl) h

theorem RoundTrip.bra (off : BitVec 43) :
    RoundTrip.Statement (.bra off) := fun h =>
  decode_encode_of rfl rfl rfl (rfl) h

theorem RoundTrip.brt (o : BOps) :
    RoundTrip.Statement (.brt o) := fun h =>
  decode_encode_of rfl rfl rfl (rfl) h

theorem RoundTrip.brf (o : BOps) :
    RoundTrip.Statement (.brf o) := fun h =>
  decode_encode_of rfl rfl rfl (rfl) h

theorem RoundTrip.brx (o : ROps) :
    RoundTrip.Statement (.brx o) := fun h =>
  decode_encode_of rfl rfl rfl (rfl) h

theorem RoundTrip.call (off : BitVec 43) :
    RoundTrip.Statement (.call off) := fun h =>
  decode_encode_of rfl rfl rfl (rfl) h

theorem RoundTrip.callr (o : ROps) :
    RoundTrip.Statement (.callr o) := fun h =>
  decode_encode_of rfl rfl rfl (rfl) h

theorem RoundTrip.ret (o : ROps) :
    RoundTrip.Statement (.ret o) := fun h =>
  decode_encode_of rfl rfl rfl (rfl) h

theorem RoundTrip.exit : RoundTrip.Statement (.exit) := fun h =>
  decode_encode_of rfl rfl rfl (rfl) h

theorem RoundTrip.exitH : RoundTrip.Statement (.exitH) := fun h =>
  decode_encode_of rfl rfl rfl (rfl) h

theorem RoundTrip.cbrk : RoundTrip.Statement (.cbrk) := fun h =>
  decode_encode_of rfl rfl rfl (rfl) h

theorem RoundTrip.nop : RoundTrip.Statement (.nop) := fun h =>
  decode_encode_of rfl rfl rfl (rfl) h

theorem RoundTrip.wait : RoundTrip.Statement (.wait) := fun h =>
  decode_encode_of rfl rfl rfl (rfl) h

theorem RoundTrip.mcall (m : BitVec 8) (o : ROps) :
    RoundTrip.Statement (.mcall m o) := fun h =>
  decode_encode_of rfl rfl rfl (by
    have := m.isLt
    have e : BitVec.ofNat 8 ((BitVec.ofNat 4 (m.toNat / 16)).toNat * 16 + (BitVec.ofNat 4 (m.toNat % 16)).toNat) = m :=
      field_eq _ _ (by rw [BitVec.toNat_ofNat, BitVec.toNat_ofNat]; omega)
    exact congrArg (fun m' => some (Instr.mcall m' o)) e) h

theorem RoundTrip.yield : RoundTrip.Statement (.yield) := fun h =>
  decode_encode_of rfl rfl rfl (rfl) h

theorem RoundTrip.illegalInstruction (byte : BitVec 8) (enc : Bool) :
    RoundTrip.Statement (.illegalInstruction byte enc) := by
  intro h
  exact absurd h (by simp [Instr.wellFormed, Instr.isWord])

theorem RoundTrip.routedInstruction (w : BitVec 64) :
    RoundTrip.Statement (.routedInstruction w) := by
  intro h
  exact absurd h (by simp [Instr.wellFormed, Instr.isWord])

theorem RoundTrip.ld (acc : Acc) (o : MOps) :
    RoundTrip.Statement (.ld acc o) := fun h =>
  decode_encode_of rfl rfl rfl (by cases acc <;> rfl) h

theorem RoundTrip.st (acc : Acc) (o : MOps) :
    RoundTrip.Statement (.st acc o) := fun h =>
  decode_encode_of rfl rfl rfl (by cases acc <;> rfl) h

theorem RoundTrip.ldf (acc : Acc) (o : MOps) :
    RoundTrip.Statement (.ldf acc o) := fun h =>
  decode_encode_of rfl rfl rfl (by cases acc <;> rfl) h

theorem RoundTrip.stf (acc : Acc) (o : MOps) :
    RoundTrip.Statement (.stf acc o) := fun h =>
  decode_encode_of rfl rfl rfl (by cases acc <;> rfl) h

theorem RoundTrip.ldnb (o : MOps) :
    RoundTrip.Statement (.ldnb o) := fun h =>
  decode_encode_of rfl rfl rfl (rfl) h

theorem RoundTrip.stnb (o : MOps) :
    RoundTrip.Statement (.stnb o) := fun h =>
  decode_encode_of rfl rfl rfl (rfl) h

theorem RoundTrip.lds (acc : Acc) (o : MOps) :
    RoundTrip.Statement (.lds acc o) := fun h =>
  decode_encode_of rfl rfl rfl (by cases acc <;> rfl) h

theorem RoundTrip.sts (acc : Acc) (o : MOps) :
    RoundTrip.Statement (.sts acc o) := fun h =>
  decode_encode_of rfl rfl rfl (by cases acc <;> rfl) h

theorem RoundTrip.prf (o : MOps) :
    RoundTrip.Statement (.prf o) := fun h =>
  decode_encode_of rfl rfl rfl (rfl) h

theorem RoundTrip.alloc (o : ROps) :
    RoundTrip.Statement (.alloc o) := fun h =>
  decode_encode_of rfl rfl rfl (rfl) h

theorem RoundTrip.nurs (get : Bool) (o : ROps) :
    RoundTrip.Statement (.nurs get o) := fun h =>
  decode_encode_of rfl rfl rfl (by cases get <;> rfl) h

theorem RoundTrip.fence : RoundTrip.Statement (.fence) := fun h =>
  decode_encode_of rfl rfl rfl (rfl) h

theorem RoundTrip.ldfar (acc : Acc) (o : MOps) :
    RoundTrip.Statement (.ldfar acc o) := fun h =>
  decode_encode_of rfl rfl rfl (by cases acc <;> rfl) h

theorem RoundTrip.stfar (acc : Acc) (o : MOps) :
    RoundTrip.Statement (.stfar acc o) := fun h =>
  decode_encode_of rfl rfl rfl (by cases acc <;> rfl) h

theorem RoundTrip.spill (o : MOps) :
    RoundTrip.Statement (.spill o) := fun h =>
  decode_encode_of rfl rfl rfl (rfl) h

theorem RoundTrip.fill (o : MOps) :
    RoundTrip.Statement (.fill o) := fun h =>
  decode_encode_of rfl rfl rfl (rfl) h

theorem RoundTrip.hflush (o : MOps) :
    RoundTrip.Statement (.hflush o) := fun h =>
  decode_encode_of rfl rfl rfl (rfl) h

theorem RoundTrip.atom (op : AtomOp) (ty : AtomTy) (o : MOps) :
    RoundTrip.Statement (.atom op ty o) := fun h =>
  decode_encode_of rfl rfl rfl (by
    have hs : o.sc = 0 := by
      simp only [Instr.wellFormed, Instr.extraOk, Bool.and_eq_true, beq_iff_eq] at h; exact h.2.2
    have ho : { o with sc := 0 } = o := by rw [← hs]
    have : ∀ o', o' = o → (do some (Instr.atom op ty o') : Option Instr) = some (.atom op ty o) := by rintro _ rfl; rfl
    cases op <;> cases ty <;> exact this _ ho) h

theorem RoundTrip.acas (ty : AtomTy) (o : MOps) :
    RoundTrip.Statement (.acas ty o) := fun h =>
  decode_encode_of rfl rfl rfl (by
    have hs : o.sc = 0 := by
      simp only [Instr.wellFormed, Instr.extraOk, Bool.and_eq_true, beq_iff_eq] at h; exact h.2
    have ho : { o with sc := 0 } = o := by rw [← hs]
    have : ∀ o', o' = o → (do some (Instr.acas ty o') : Option Instr) = some (.acas ty o) := by rintro _ rfl; rfl
    cases ty <;> exact this _ ho) h

theorem RoundTrip.red (op : AtomOp) (ty : AtomTy) (o : MOps) :
    RoundTrip.Statement (.red op ty o) := fun h =>
  decode_encode_of rfl rfl rfl (by
    have hs : o.sc = 0 := by
      simp only [Instr.wellFormed, Instr.extraOk, Bool.and_eq_true, beq_iff_eq] at h; exact h.2.2
    have ho : { o with sc := 0 } = o := by rw [← hs]
    have : ∀ o', o' = o → (do some (Instr.red op ty o') : Option Instr) = some (.red op ty o) := by rintro _ rfl; rfl
    cases op <;> cases ty <;> exact this _ ho) h

theorem RoundTrip.sato (op : AtomOp) (ty : AtomTy) (o : MOps) :
    RoundTrip.Statement (.sato op ty o) := fun h =>
  decode_encode_of rfl rfl rfl (by
    have hs : o.sc = 0 := by
      simp only [Instr.wellFormed, Instr.extraOk, Bool.and_eq_true, beq_iff_eq] at h; exact h.2.2
    have ho : { o with sc := 0 } = o := by rw [← hs]
    have : ∀ o', o' = o → (do some (Instr.sato op ty o') : Option Instr) = some (.sato op ty o) := by rintro _ rfl; rfl
    cases op <;> cases ty <;> exact this _ ho) h

theorem RoundTrip.qpush (q : BitVec 5) (o : ROps) :
    RoundTrip.Statement (.qpush q o) := fun h =>
  decode_encode_of rfl rfl rfl (by
    have hc : o.c = 0 := zero_c _ _ _ o (Bool.and_eq_true_iff.1 (Bool.and_eq_true_iff.1 (Bool.and_eq_true_iff.1 h).1).1).2
    have ho : { o with c := 0 } = o := by rw [← hc]
    have e2 : BitVec.ofNat 5 (BitVec.ofNat 8 q.toNat).toNat = q :=
      field_eq _ _ (by have := q.isLt; rw [BitVec.toNat_ofNat]; omega)
    have : ∀ q' o', q' = q → o' = o → some (Instr.qpush q' o') = some (.qpush q o) := by rintro _ _ rfl rfl; rfl
    exact this _ _ e2 ho) h

theorem RoundTrip.qpop (q : BitVec 5) (o : ROps) :
    RoundTrip.Statement (.qpop q o) := fun h =>
  decode_encode_of rfl rfl rfl (by
    have hc : o.c = 0 := zero_c _ _ _ o (Bool.and_eq_true_iff.1 (Bool.and_eq_true_iff.1 (Bool.and_eq_true_iff.1 h).1).1).2
    have ho : { o with c := 0 } = o := by rw [← hc]
    have e2 : BitVec.ofNat 5 (BitVec.ofNat 8 q.toNat).toNat = q :=
      field_eq _ _ (by have := q.isLt; rw [BitVec.toNat_ofNat]; omega)
    have : ∀ q' o', q' = q → o' = o → some (Instr.qpop q' o') = some (.qpop q o) := by rintro _ _ rfl rfl; rfl
    exact this _ _ e2 ho) h

theorem RoundTrip.qallow (q : BitVec 5) (o : ROps) :
    RoundTrip.Statement (.qallow q o) := fun h =>
  decode_encode_of rfl rfl rfl (by
    have hc : o.c = 0 := zero_c _ _ _ o (Bool.and_eq_true_iff.1 (Bool.and_eq_true_iff.1 (Bool.and_eq_true_iff.1 h).1).1).2
    have ho : { o with c := 0 } = o := by rw [← hc]
    have e2 : BitVec.ofNat 5 (BitVec.ofNat 8 q.toNat).toNat = q :=
      field_eq _ _ (by have := q.isLt; rw [BitVec.toNat_ofNat]; omega)
    have : ∀ q' o', q' = q → o' = o → some (Instr.qallow q' o') = some (.qallow q o) := by rintro _ _ rfl rfl; rfl
    exact this _ _ e2 ho) h

theorem RoundTrip.qtry (q : BitVec 5) (o : ROps) :
    RoundTrip.Statement (.qtry q o) := fun h =>
  decode_encode_of rfl rfl rfl (by
    have hc : o.c = 0 := zero_c _ _ _ o (Bool.and_eq_true_iff.1 (Bool.and_eq_true_iff.1 (Bool.and_eq_true_iff.1 h).1).1).2
    have ho : { o with c := 0 } = o := by rw [← hc]
    have e2 : BitVec.ofNat 5 (BitVec.ofNat 8 q.toNat).toNat = q :=
      field_eq _ _ (by have := q.isLt; rw [BitVec.toNat_ofNat]; omega)
    have : ∀ q' o', q' = q → o' = o → some (Instr.qtry q' o') = some (.qtry q o) := by rintro _ _ rfl rfl; rfl
    exact this _ _ e2 ho) h

theorem RoundTrip.tbar (reg : Bool) (id : BitVec 4) (count : BitVec 13) (o : IOps) :
    RoundTrip.Statement (.tbar reg id count o) := fun h =>
  decode_encode_of rfl rfl rfl (by
    have := id.isLt; have := count.isLt
    have e1 : BitVec.ofNat 4 (BitVec.ofNat 32 (count.toNat * 2 ^ 16 + id.toNat)).toNat = id :=
      field_eq _ _ (by rw [BitVec.toNat_ofNat]; omega)
    have e2 : BitVec.ofNat 13 ((BitVec.ofNat 32 (count.toNat * 2 ^ 16 + id.toNat)).toNat / 2 ^ 16) = count :=
      field_eq _ _ (by rw [BitVec.toNat_ofNat]; omega)
    cases reg <;> simp only [Raw.toInstr, iOf, e1, e2] <;> rfl) h

theorem RoundTrip.abinit (o : MOps) :
    RoundTrip.Statement (.abinit o) := fun h =>
  decode_encode_of rfl rfl rfl (rfl) h

theorem RoundTrip.abexp (o : MOps) :
    RoundTrip.Statement (.abexp o) := fun h =>
  decode_encode_of rfl rfl rfl (rfl) h

theorem RoundTrip.abwait (o : MOps) :
    RoundTrip.Statement (.abwait o) := fun h =>
  decode_encode_of rfl rfl rfl (rfl) h

theorem RoundTrip.abarr (o : MOps) :
    RoundTrip.Statement (.abarr o) := fun h =>
  decode_encode_of rfl rfl rfl (rfl) h

theorem RoundTrip.hclaim (o : ROps) :
    RoundTrip.Statement (.hclaim o) := fun h =>
  decode_encode_of rfl rfl rfl (rfl) h

theorem RoundTrip.hins (o : ROps) :
    RoundTrip.Statement (.hins o) := fun h =>
  decode_encode_of rfl rfl rfl (rfl) h

theorem RoundTrip.hprobe (o : ROps) :
    RoundTrip.Statement (.hprobe o) := fun h =>
  decode_encode_of rfl rfl rfl (rfl) h

theorem RoundTrip.hdel (o : ROps) :
    RoundTrip.Statement (.hdel o) := fun h =>
  decode_encode_of rfl rfl rfl (rfl) h

theorem RoundTrip.hacc (op : HaccOp) (o : ROps) :
    RoundTrip.Statement (.hacc op o) := fun h =>
  decode_encode_of rfl rfl rfl (by cases op <;> rfl) h

theorem RoundTrip.hdrain (o : ROps) :
    RoundTrip.Statement (.hdrain o) := fun h =>
  decode_encode_of rfl rfl rfl (rfl) h

theorem RoundTrip.hrel : RoundTrip.Statement (.hrel) := fun h =>
  decode_encode_of rfl rfl rfl (rfl) h

theorem RoundTrip.hstat (o : ROps) :
    RoundTrip.Statement (.hstat o) := fun h =>
  decode_encode_of rfl rfl rfl (rfl) h

theorem RoundTrip.obres (bytes : BitVec 18) (soff : BitVec 14) (blen32 : Bool) (fmt : Fmt) (f0 : Field) :
    RoundTrip.Statement (.obres bytes soff blen32 fmt f0) := fun h =>
  decode_encode_of rfl rfl rfl (by
    have := bytes.isLt; have := soff.isLt; have := fmt_lt fmt; have := Bool.toNat_lt blen32
    have e1 : BitVec.ofNat 18 (BitVec.ofNat 32 (soff.toNat * 2 ^ 18 + bytes.toNat)).toNat = bytes :=
      field_eq _ _ (by rw [BitVec.toNat_ofNat]; omega)
    have e2 : BitVec.ofNat 14 ((BitVec.ofNat 32 (soff.toNat * 2 ^ 18 + bytes.toNat)).toNat / 2 ^ 18) = soff :=
      field_eq _ _ (by rw [BitVec.toNat_ofNat]; omega)
    have e3 : bit 6 (BitVec.ofNat 16 (blen32.toNat * 64 + fmt.code)).toNat = blen32 := by
      rw [bit, show (BitVec.ofNat 16 (blen32.toNat * 64 + fmt.code)).toNat / 2 ^ 6 % 2 = blen32.toNat by
        rw [BitVec.toNat_ofNat]; omega]
      cases blen32 <;> rfl
    have e4 : (BitVec.ofNat 16 (blen32.toNat * 64 + fmt.code)).toNat % 64 = fmt.code := by rw [BitVec.toNat_ofNat]; omega
    simp only [Raw.toInstr, xOf, e1, e2, e3, e4, fmtOf_code]; rfl) h

theorem RoundTrip.obrel (o : XOps) :
    RoundTrip.Statement (.obrel o) := fun h =>
  decode_encode_of rfl rfl rfl (rfl) h

theorem RoundTrip.obld (bytes : BitVec 18) (o : XOps) :
    RoundTrip.Statement (.obld bytes o) := fun h =>
  decode_encode_of rfl rfl rfl (by
    have e : BitVec.ofNat 18 (BitVec.ofNat 32 bytes.toNat).toNat = bytes :=
      field_eq _ _ (by have := bytes.isLt; rw [BitVec.toNat_ofNat]; omega)
    simp only [Raw.toInstr, xOf, e]) h

theorem RoundTrip.mma (p : ProdOps) :
    RoundTrip.Statement (.mma p) := fun h =>
  decode_encode_of rfl rfl rfl (by
    simp only [Raw.toInstr, ProdOps.raw, xOf, prodOf_raw]; rfl) h

theorem RoundTrip.mmas (pat : NMPat) (p : ProdOps) :
    RoundTrip.Statement (.mmas pat p) := fun h =>
  decode_encode_of rfl rfl rfl (by
    have e : nmOf (BitVec.ofNat 4 pat.code).toNat = some pat := by cases pat <;> rfl
    simp only [Raw.toInstr, ProdOps.raw, xOf, prodOf_raw, e]; rfl) h

theorem RoundTrip.mlut (p : ProdOps) :
    RoundTrip.Statement (.mlut p) := fun h =>
  decode_encode_of rfl rfl rfl (by
    simp only [Raw.toInstr, ProdOps.raw, xOf, prodOf_raw]; rfl) h

theorem RoundTrip.nmsel (pat : NMPat) (kl : BitVec 16) (rows : BitVec 16) (o : XOps) :
    RoundTrip.Statement (.nmsel pat kl rows o) := fun h =>
  decode_encode_of rfl rfl rfl (by
    have := kl.isLt; have := rows.isLt
    have e : nmOf (BitVec.ofNat 4 pat.code).toNat = some pat := by cases pat <;> rfl
    have e1 : BitVec.ofNat 16 ((BitVec.ofNat 32 (kl.toNat * 2 ^ 16 + rows.toNat)).toNat / 2 ^ 16) = kl :=
      field_eq _ _ (by rw [BitVec.toNat_ofNat]; omega)
    have e2 : BitVec.ofNat 16 (BitVec.ofNat 32 (kl.toNat * 2 ^ 16 + rows.toNat)).toNat = rows :=
      field_eq _ _ (by rw [BitVec.toNat_ofNat]; omega)
    simp only [Raw.toInstr, xOf, e, e1, e2]; rfl) h

theorem RoundTrip.accz (o : XOps) :
    RoundTrip.Statement (.accz o) := fun h =>
  decode_encode_of rfl rfl rfl (rfl) h

theorem RoundTrip.accrd (o : XOps) :
    RoundTrip.Statement (.accrd o) := fun h =>
  decode_encode_of rfl rfl rfl (rfl) h

theorem RoundTrip.accwr (o : XOps) :
    RoundTrip.Statement (.accwr o) := fun h =>
  decode_encode_of rfl rfl rfl (rfl) h

theorem RoundTrip.accmv (rm : CvtMode) (t : BitVec 2) (doff : BitVec 32) (o : XOps) :
    RoundTrip.Statement (.accmv rm t doff o) := fun h =>
  decode_encode_of rfl rfl rfl (by
    have := t.isLt; have := cvtMode_lt rm
    have e1 : (BitVec.ofNat 13 (t.toNat * 8 + rm.code)).toNat % 8 = rm.code := by rw [BitVec.toNat_ofNat]; omega
    have e2 : BitVec.ofNat 2 ((BitVec.ofNat 13 (t.toNat * 8 + rm.code)).toNat / 8) = t :=
      field_eq _ _ (by rw [BitVec.toNat_ofNat]; omega)
    have e3 : BitVec.ofNat 32 doff.toNat = doff := by simp
    simp only [Raw.toInstr, xOf, e1, e2, e3, cvtModeOf_code]; rfl) h

theorem RoundTrip.sclld (off : BitVec 14) (bytes : BitVec 16) (o : XOps) :
    RoundTrip.Statement (.sclld off bytes o) := fun h =>
  decode_encode_of rfl rfl rfl (by
    have e : BitVec.ofNat 14 (BitVec.ofNat 32 off.toNat).toNat = off :=
      field_eq _ _ (by have := off.isLt; rw [BitVec.toNat_ofNat]; omega)
    have e2 : BitVec.ofNat 16 bytes.toNat = bytes := by simp
    simp only [Raw.toInstr, xOf, e, e2]) h

theorem RoundTrip.accred (max : Bool) (o : XOps) :
    RoundTrip.Statement (.accred max o) := fun h =>
  decode_encode_of rfl rfl rfl (by cases max <;> rfl) h

theorem RoundTrip.xld (mask : BitVec 4) (o : XOps) :
    RoundTrip.Statement (.xld mask o) := fun h =>
  decode_encode_of rfl rfl rfl (by
    have e : BitVec.ofNat 4 (BitVec.ofNat 13 mask.toNat).toNat = mask :=
      field_eq _ _ (by have := mask.isLt; rw [BitVec.toNat_ofNat]; omega)
    simp only [Raw.toInstr, xOf, e]) h

theorem RoundTrip.xst (o : XOps) :
    RoundTrip.Statement (.xst o) := fun h =>
  decode_encode_of rfl rfl rfl (rfl) h

theorem RoundTrip.xsc (o : XOps) :
    RoundTrip.Statement (.xsc o) := fun h =>
  decode_encode_of rfl rfl rfl (rfl) h

theorem RoundTrip.xreq (count : BitVec 32) (cap : BitVec 16) (o : XOps) :
    RoundTrip.Statement (.xreq count cap o) := fun h =>
  decode_encode_of rfl rfl rfl (by
    have e : BitVec.ofNat 32 count.toNat = count := by simp
    have e2 : BitVec.ofNat 16 cap.toNat = cap := by simp
    simp only [Raw.toInstr, xOf, e, e2]) h

theorem RoundTrip.xfar (get : Bool) (o : XOps) :
    RoundTrip.Statement (.xfar get o) := fun h =>
  decode_encode_of rfl rfl rfl (by cases get <;> rfl) h

theorem RoundTrip.fld (mode : FldMode) (o : XOps) :
    RoundTrip.Statement (.fld mode o) := fun h =>
  decode_encode_of rfl rfl rfl (by cases mode <;> rfl) h

theorem RoundTrip.wput (o : XOps) :
    RoundTrip.Statement (.wput o) := fun h =>
  decode_encode_of rfl rfl rfl (rfl) h

theorem RoundTrip.wget (o : XOps) :
    RoundTrip.Statement (.wget o) := fun h =>
  decode_encode_of rfl rfl rfl (rfl) h

theorem RoundTrip.lnch (o : XOps) :
    RoundTrip.Statement (.lnch o) := fun h =>
  decode_encode_of rfl rfl rfl (rfl) h

theorem RoundTrip.svc (n : BitVec 16) (lk : BitVec 4) (o : IOps) :
    RoundTrip.Statement (.svc n lk o) := fun h =>
  decode_encode_of rfl rfl rfl (by
    have := lk.isLt; have := n.isLt
    have e1 : BitVec.ofNat 16 (BitVec.ofNat 32 (lk.toNat * 2 ^ 28 + n.toNat)).toNat = n :=
      field_eq _ _ (by rw [BitVec.toNat_ofNat]; omega)
    have e2 : BitVec.ofNat 4 ((BitVec.ofNat 32 (lk.toNat * 2 ^ 28 + n.toNat)).toNat / 2 ^ 28) = lk :=
      field_eq _ _ (by rw [BitVec.toNat_ofNat]; omega)
    simp only [Raw.toInstr, iOf, e1, e2]) h

theorem RoundTrip.trap (code : BitVec 8) (o : IOps) :
    RoundTrip.Statement (.trap code o) := fun h =>
  decode_encode_of rfl rfl rfl (by
    have e : BitVec.ofNat 8 (BitVec.ofNat 32 code.toNat).toNat = code :=
      field_eq _ _ (by have := code.isLt; rw [BitVec.toNat_ofNat]; omega)
    simp only [Raw.toInstr, iOf, e]) h

theorem RoundTrip.rfh : RoundTrip.Statement (.rfh) := fun h =>
  decode_encode_of rfl rfl rfl (rfl) h

theorem RoundTrip.gets (r : SReg) (o : IOps) :
    RoundTrip.Statement (.gets r o) := fun h =>
  decode_encode_of rfl rfl rfl (by cases r <;> rfl) h

theorem RoundTrip.sets (r : SReg) (o : IOps) :
    RoundTrip.Statement (.sets r o) := fun h =>
  decode_encode_of rfl rfl rfl (by cases r <;> rfl) h

theorem RoundTrip.bkpt (n : BitVec 16) :
    RoundTrip.Statement (.bkpt n) := fun h =>
  decode_encode_of rfl rfl rfl (by
    have e : BitVec.ofNat 16 (BitVec.ofNat 32 n.toNat).toNat = n :=
      field_eq _ _ (by have := n.isLt; rw [BitVec.toNat_ofNat]; omega)
    simp only [Raw.toInstr, iOf, e]) h

theorem RoundTrip.clk (bundles : Bool) (o : IOps) :
    RoundTrip.Statement (.clk bundles o) := fun h =>
  decode_encode_of rfl rfl rfl (by cases bundles <;> rfl) h

theorem RoundTrip.prof (n : BitVec 16) :
    RoundTrip.Statement (.prof n) := fun h =>
  decode_encode_of rfl rfl rfl (by
    have e : BitVec.ofNat 16 (BitVec.ofNat 32 n.toNat).toNat = n :=
      field_eq _ _ (by have := n.isLt; rw [BitVec.toNat_ofNat]; omega)
    simp only [Raw.toInstr, iOf, e]) h

theorem RoundTrip.abort (n : BitVec 16) :
    RoundTrip.Statement (.abort n) := fun h =>
  decode_encode_of rfl rfl rfl (by
    have e : BitVec.ofNat 16 (BitVec.ofNat 32 n.toNat).toNat = n :=
      field_eq _ _ (by have := n.isLt; rw [BitVec.toNat_ofNat]; omega)
    simp only [Raw.toInstr, iOf, e]) h

theorem RoundTrip.handlerEntry (crew : Nat) (ts : List TrapReq) :
    RoundTrip.Statement (.handlerEntry crew ts) := fun h =>
  absurd (show false = true from h) (by decide)

theorem RoundTrip.longLatencyResult (crew : Nat) (lane : Nat) (k : Nat) :
    RoundTrip.Statement (.longLatencyResult crew lane k) := fun h =>
  absurd (show false = true from h) (by decide)

theorem RoundTrip.chunkLimitReached (crew : Nat) :
    RoundTrip.Statement (.chunkLimitReached crew) := fun h =>
  absurd (show false = true from h) (by decide)

theorem RoundTrip.commitGrant (crew : Nat) :
    RoundTrip.Statement (.commitGrant crew) := fun h =>
  absurd (show false = true from h) (by decide)

theorem RoundTrip.chunkCommit (crew : Nat) :
    RoundTrip.Statement (.chunkCommit crew) := fun h =>
  absurd (show false = true from h) (by decide)

theorem RoundTrip.commitTokenRequest (crew : Nat) :
    RoundTrip.Statement (.commitTokenRequest crew) := fun h =>
  absurd (show false = true from h) (by decide)

theorem RoundTrip.commitTokenGrant : RoundTrip.Statement (.commitTokenGrant) := fun h =>
  absurd (show false = true from h) (by decide)

theorem RoundTrip.engineIssueEvent (cluster : Nat) :
    RoundTrip.Statement (.engineIssueEvent cluster) := fun h =>
  absurd (show false = true from h) (by decide)

theorem RoundTrip.engineSectorWrite (cluster : Nat) :
    RoundTrip.Statement (.engineSectorWrite cluster) := fun h =>
  absurd (show false = true from h) (by decide)

theorem RoundTrip.farOperationArrival (f : FarOp) :
    RoundTrip.Statement (.farOperationArrival f) := fun h =>
  absurd (show false = true from h) (by decide)

theorem RoundTrip.farReply (seq : Nat) (ws : List TWord) :
    RoundTrip.Statement (.farReply seq ws) := fun h =>
  absurd (show false = true from h) (by decide)

theorem RoundTrip.farAcknowledge (seq : Nat) :
    RoundTrip.Statement (.farAcknowledge seq) := fun h =>
  absurd (show false = true from h) (by decide)

theorem RoundTrip.farRefusal (seq : Nat) (reason : Nat) :
    RoundTrip.Statement (.farRefusal seq reason) := fun h =>
  absurd (show false = true from h) (by decide)

theorem RoundTrip.farTimeout (seq : Nat) :
    RoundTrip.Statement (.farTimeout seq) := fun h =>
  absurd (show false = true from h) (by decide)

theorem RoundTrip.faultQueueReplay (slice : Nat) :
    RoundTrip.Statement (.faultQueueReplay slice) := fun h =>
  absurd (show false = true from h) (by decide)

theorem RoundTrip.translationFault (crew : Nat) (va : BitVec 64) (cause : Nat) (write : Bool) (fetch : Bool) (engine : Bool) :
    RoundTrip.Statement (.translationFault crew va cause write fetch engine) := fun h =>
  absurd (show false = true from h) (by decide)

theorem RoundTrip.softErrorDetected (e : SoftErr) :
    RoundTrip.Statement (.softErrorDetected e) := fun h =>
  absurd (show false = true from h) (by decide)

theorem RoundTrip.correctedError (pa : Nat) (spare : Bool) :
    RoundTrip.Statement (.correctedError pa spare) := fun h =>
  absurd (show false = true from h) (by decide)

theorem RoundTrip.declareDead (asid : Nat) (cause : Nat) (detail : BitVec 64) :
    RoundTrip.Statement (.declareDead asid cause detail) := fun h =>
  absurd (show false = true from h) (by decide)

theorem RoundTrip.watchdogExpiry (asid : Nat) :
    RoundTrip.Statement (.watchdogExpiry asid) := fun h =>
  absurd (show false = true from h) (by decide)

theorem RoundTrip.fourWaitTimeout (crew : Nat) :
    RoundTrip.Statement (.fourWaitTimeout crew) := fun h =>
  absurd (show false = true from h) (by decide)

theorem RoundTrip.quantumExpiry (die : Nat) :
    RoundTrip.Statement (.quantumExpiry die) := fun h =>
  absurd (show false = true from h) (by decide)

theorem RoundTrip.gangPlacement (die : Nat) :
    RoundTrip.Statement (.gangPlacement die) := fun h =>
  absurd (show false = true from h) (by decide)

theorem RoundTrip.crewEvict (crew : Nat) :
    RoundTrip.Statement (.crewEvict crew) := fun h =>
  absurd (show false = true from h) (by decide)

theorem RoundTrip.crewRestore (crew : Nat) :
    RoundTrip.Statement (.crewRestore crew) := fun h =>
  absurd (show false = true from h) (by decide)

theorem RoundTrip.hostWindowWrite (off : Nat) (bytes : Nat) (v : BitVec 64) :
    RoundTrip.Statement (.hostWindowWrite off bytes v) := fun h =>
  absurd (show false = true from h) (by decide)

theorem RoundTrip.hostWindowRead (off : Nat) (bytes : Nat) :
    RoundTrip.Statement (.hostWindowRead off bytes) := fun h =>
  absurd (show false = true from h) (by decide)

theorem RoundTrip.hostApertureWrite (off : Nat) (data : List Byte) :
    RoundTrip.Statement (.hostApertureWrite off data) := fun h =>
  absurd (show false = true from h) (by decide)

theorem RoundTrip.hostApertureRead (off : Nat) (bytes : Nat) :
    RoundTrip.Statement (.hostApertureRead off bytes) := fun h =>
  absurd (show false = true from h) (by decide)

theorem RoundTrip.sqDoorbell (q : Nat) (tail : BitVec 64) :
    RoundTrip.Statement (.sqDoorbell q tail) := fun h =>
  absurd (show false = true from h) (by decide)

theorem RoundTrip.sqEnable (q : Nat) :
    RoundTrip.Statement (.sqEnable q) := fun h =>
  absurd (show false = true from h) (by decide)

theorem RoundTrip.launch (q : Nat) :
    RoundTrip.Statement (.launch q) := fun h =>
  absurd (show false = true from h) (by decide)

theorem RoundTrip.flush (q : Nat) :
    RoundTrip.Statement (.flush q) := fun h =>
  absurd (show false = true from h) (by decide)

theorem RoundTrip.copy (q : Nat) (data : List Byte) :
    RoundTrip.Statement (.copy q data) := fun h =>
  absurd (show false = true from h) (by decide)

theorem RoundTrip.sqFence (q : Nat) :
    RoundTrip.Statement (.sqFence q) := fun h =>
  absurd (show false = true from h) (by decide)

theorem RoundTrip.signal (q : Nat) :
    RoundTrip.Statement (.signal q) := fun h =>
  absurd (show false = true from h) (by decide)

theorem RoundTrip.commandCompletion (q : Nat) (k : Nat) :
    RoundTrip.Statement (.commandCompletion q k) := fun h =>
  absurd (show false = true from h) (by decide)

theorem RoundTrip.cqheadWrite (q : Nat) (v : BitVec 64) :
    RoundTrip.Statement (.cqheadWrite q v) := fun h =>
  absurd (show false = true from h) (by decide)

theorem RoundTrip.serviceDoorbell (ring : Nat) (v : BitVec 64) :
    RoundTrip.Statement (.serviceDoorbell ring v) := fun h =>
  absurd (show false = true from h) (by decide)

theorem RoundTrip.svcRingEvent (crew : Nat) :
    RoundTrip.Statement (.svcRingEvent crew) := fun h =>
  absurd (show false = true from h) (by decide)

theorem RoundTrip.contextEnable (slot : Nat) (ctl : BitVec 64) :
    RoundTrip.Statement (.contextEnable slot ctl) := fun h =>
  absurd (show false = true from h) (by decide)

theorem RoundTrip.liftasid (die : Nat) (v : BitVec 64) :
    RoundTrip.Statement (.liftasid die v) := fun h =>
  absurd (show false = true from h) (by decide)

theorem RoundTrip.tlbInvalidate (v : BitVec 64) :
    RoundTrip.Statement (.tlbInvalidate v) := fun h =>
  absurd (show false = true from h) (by decide)

theorem RoundTrip.migrate (v : BitVec 64) :
    RoundTrip.Statement (.migrate v) := fun h =>
  absurd (show false = true from h) (by decide)

theorem RoundTrip.faultRetry (seq : Nat) :
    RoundTrip.Statement (.faultRetry seq) := fun h =>
  absurd (show false = true from h) (by decide)

theorem RoundTrip.faultKill (seq : Nat) :
    RoundTrip.Statement (.faultKill seq) := fun h =>
  absurd (show false = true from h) (by decide)

theorem RoundTrip.faultheadWrite (v : BitVec 64) :
    RoundTrip.Statement (.faultheadWrite v) := fun h =>
  absurd (show false = true from h) (by decide)

theorem RoundTrip.faultringWrite (v : BitVec 64) :
    RoundTrip.Statement (.faultringWrite v) := fun h =>
  absurd (show false = true from h) (by decide)

theorem RoundTrip.cancel (v : BitVec 64) :
    RoundTrip.Statement (.cancel v) := fun h =>
  absurd (show false = true from h) (by decide)

theorem RoundTrip.reroute : RoundTrip.Statement (.reroute) := fun h =>
  absurd (show false = true from h) (by decide)

theorem RoundTrip.pctlWrite (port : Nat) (v : BitVec 64) :
    RoundTrip.Statement (.pctlWrite port v) := fun h =>
  absurd (show false = true from h) (by decide)

theorem RoundTrip.linkPortDown (port : Nat) (lanes : Nat) :
    RoundTrip.Statement (.linkPortDown port lanes) := fun h =>
  absurd (show false = true from h) (by decide)

theorem RoundTrip.registerWrite (addr : Nat) (bytes : Nat) (v : BitVec 64) :
    RoundTrip.Statement (.registerWrite addr bytes v) := fun h =>
  absurd (show false = true from h) (by decide)

theorem RoundTrip.readFailrec : RoundTrip.Statement (.readFailrec) := fun h =>
  absurd (show false = true from h) (by decide)

theorem RoundTrip.imageBegin : RoundTrip.Statement (.imageBegin) := fun h =>
  absurd (show false = true from h) (by decide)

theorem RoundTrip.imageChunk : RoundTrip.Statement (.imageChunk) := fun h =>
  absurd (show false = true from h) (by decide)

theorem RoundTrip.imageCommit : RoundTrip.Statement (.imageCommit) := fun h =>
  absurd (show false = true from h) (by decide)

theorem RoundTrip.clearalt : RoundTrip.Statement (.clearalt) := fun h =>
  absurd (show false = true from h) (by decide)

theorem RoundTrip.reset : RoundTrip.Statement (.reset) := fun h =>
  absurd (show false = true from h) (by decide)

theorem RoundTrip.deviceReset : RoundTrip.Statement (.deviceReset) := fun h =>
  absurd (show false = true from h) (by decide)

theorem RoundTrip.powerLoss : RoundTrip.Statement (.powerLoss) := fun h =>
  absurd (show false = true from h) (by decide)

theorem RoundTrip.throttle : RoundTrip.Statement (.throttle) := fun h =>
  absurd (show false = true from h) (by decide)

theorem RoundTrip.thermalTrip : RoundTrip.Statement (.thermalTrip) := fun h =>
  absurd (show false = true from h) (by decide)

theorem RoundTrip.matrixInstructionComplete (quad : Nat) :
    RoundTrip.Statement (.matrixInstructionComplete quad) := fun h =>
  absurd (show false = true from h) (by decide)

theorem RoundTrip.pldmFirmwareUpdate (image : List Byte) :
    RoundTrip.Statement (.pldmFirmwareUpdate image) := fun h =>
  absurd (show false = true from h) (by decide)

end Sys2Proof.Laws
end

