-- ==== Sys2Proof/Tests/Bench.lean ====
section
/-! SUPPORT. A small package for the tests: one crew with a few active lanes, a TAGGED and a RAW page, a scratch window. -/

namespace Sys2Proof.Tests

-- One declaration at a time: the checks run together would hold too much memory.
set_option Elab.async false

open Sys2Proof Sys2Proof.Machine Sys2Proof.Claims

/-- The first `n` lanes ACTIVE at the code's start, the others EXITED. -/
def firstLanes (n : Nat) : List Thread :=
  (List.range 32).map fun l => { pc := 0x1000000, st := if l < n then .active else .exited }

/-- Words of consecutive lanes in a v register. -/
def row (f : Nat) (ws : List TWord) : List (Nat × TWord) := (List.range ws.length).map fun l => (32 * f + l, ws.getD l .nil)

/-- A crew at the start of a chunk. -/
def crewOf (n : Nat) (v : List (Nat × TWord)) (u : List (Nat × TWord) := []) : Crew :=
  let a : Arch := { threads := firstLanes n, vregs := v, sregs := u }
  { alloc := 224, arch := a, chunk := { start := a } }

/-- The context of the tests. -/
def benchCtx : Ctx :=
  { slot := 0, root := 0x100000, asid := 1, savebase := 0x800000, savesize := 0x100000, failrec := 0x700000, state := .live }

/-- A package in which one crew stands at its next instruction: code at VA 0x1000000 (PA 0x200000), a TAGGED page at 0x2000000
(PA 0x300000), a RAW one at 0x3000000 (PA 0x400000), 4 KiB of scratch on core 0. -/
def bench (c : Crew) : State :=
  { focus := some 0
    crews := [c]
    teams := [{ cores := [0], place := .resident }]
    grids := [{ asid := 1, codebase := 0x1000000, codesize := 0x1000, regs := 224, nextGang := 1, scratch := 0x1000 }]
    ctxs := [benchCtx]
    tlb := [⟨0, 1, 0x1000000, 65536, 0x200017⟩, ⟨0, 1, 0x2000000, 65536, 0x30002F⟩, ⟨0, 1, 0x3000000, 65536, 0x40000F⟩]
    boot := { phase := .ready } }

def int (n : Nat) : TWord := ⟨.int, BitVec.ofNat 64 n⟩
def f32 (n : Nat) : TWord := ⟨.f32, BitVec.ofNat 64 n⟩

/-- The conditions of `Issues`, tested. -/
def issuesB (s : State) (i : Instr) (ci : Nat) (c : Crew) (lanes : List Nat) : Bool :=
  decide (c.homes = []) && decide (c.pend = []) && decide (c.svcLeft = none) && decide (c.expansion = none)
    && (decide (i.cls ≠ .irrevocable) || (decide (c.dirty = false) && decide (s.tokenHeld ci = false)))
    && (decide (i.isCollective = false) || decide (c.liveBelow (lanes.headD 0) = false))
    && decide (s.staticTrap i c (execLanes i c lanes) = none) && decide (execLanes i c lanes ≠ [])

theorem issues_of {s : State} {i : Instr} {ci : Nat} {c : Crew} {lanes : List Nat} (hs : s.stand = some (ci, c, lanes))
    (h : issuesB s i ci c lanes = true) : Issues s i ci c lanes := by
  simp only [issuesB, Bool.and_eq_true, Bool.or_eq_true, decide_eq_true_eq] at h
  obtain ⟨⟨⟨⟨⟨⟨⟨h1, h2⟩, h3⟩, h4⟩, h5⟩, h6⟩, h7⟩, h8⟩ := h
  exact ⟨hs, h1, h2, h3, h4, fun hi => h5.resolve_left fun k => k hi,
    fun hc => h6.resolve_left (by simp [hc]), h7, h8⟩

/-- The crew, its lanes and the executing ones of the crew in focus. -/
def theCrew (s : State) : Crew := (s.stand.map fun x => x.2.1).getD {}
def theLanes (s : State) : List Nat := (s.stand.map fun x => x.2.2).getD []
def theExe (s : State) (i : Instr) : List Nat := execLanes i (theCrew s) (theLanes s)

/-- The instruction is ready to execute in crew 0. -/
def readyB (s : State) (i : Instr) : Bool :=
  decide (s.stand = some (0, theCrew s, theLanes s)) && issuesB s i 0 (theCrew s) (theLanes s)

theorem issues_of_ready {s : State} {i : Instr} (h : readyB s i = true) : Issues s i 0 (theCrew s) (theLanes s) := by
  simp only [readyB, Bool.and_eq_true, decide_eq_true_eq] at h
  exact issues_of h.1 h.2

/-- The conditions of `ByRule`, tested. -/
def ruleB (i : Instr) (f : State → Crew → List Nat → Nat → Option LaneResult) (s : State) : Bool :=
  let exe := theExe s i
  let r (l : Nat) : LaneResult := (f s (theCrew s) exe l).getD {}
  readyB s i && (decide (i.cls ≠ .speculative) || !opTakesLk i.opcode || decide (i.lk = 0))
    && exe.all (fun l => (f s (theCrew s) exe l).isSome)
    && !s.overLimits 0 (((s.changed i (theCrew s) exe fun l => (r l).writes).filter fun f => decide (f < 224)).foldl Crew.noteWrite (theCrew s))

/-- Some state and operands meet what `ByRule i f` asks. -/
def Meets (i : Instr) (f : State → Crew → List Nat → Nat → Option LaneResult) : Prop :=
  ∃ s ci c lanes, ∃ r : Nat → LaneResult, Issues s i ci c lanes ∧ atOnce i ∧
    (∀ l ∈ execLanes i c lanes, f s c (execLanes i c lanes) l = some (r l)) ∧
    Room s ci c (s.changed i c (execLanes i c lanes) fun l => (r l).writes)

theorem rule_met {i : Instr} {f : State → Crew → List Nat → Nat → Option LaneResult} (s : State) (h : ruleB i f s = true) : Meets i f := by
  simp only [ruleB, Bool.and_eq_true, Bool.or_eq_true, decide_eq_true_eq, Bool.not_eq_true', List.all_eq_true] at h
  obtain ⟨⟨⟨h1, h2⟩, h3⟩, h4⟩ := h
  refine ⟨s, 0, theCrew s, theLanes s, fun l => (f s (theCrew s) (theExe s i) l).getD {}, issues_of_ready h1, ?_, ?_, h4⟩
  · intro hs ht
    rcases h2 with (h2 | h2) | h2
    · exact absurd hs h2
    · exact absurd ht (by simp [h2])
    · exact h2
  · intro l hl
    obtain ⟨x, hx⟩ := Option.isSome_iff_exists.1 (h3 l hl)
    simp only [theExe] at hx ⊢
    simp [hx]

/-- Some state and operands meet what `ComputesBy i f` asks. -/
def MeetsBy (i : Instr) (f : (Nat → TWord) → Option (TWord × Flags)) : Prop :=
  Meets i fun s c _ l => (f (s.opnd i c l)).map fun x => { writes := [(s.destOf i c l, x.1)], flags := x.2 }

/-- Three lanes with words in v1 to v3, other registers and uniform registers. -/
def three (a b c : List TWord) (more : List (Nat × TWord) := []) (u : List (Nat × TWord) := []) : State :=
  bench (crewOf 3 (row 1 a ++ row 2 b ++ row 3 c ++ more) u)

theorem atOnce_of {i : Instr} (h : (decide (i.cls ≠ .speculative) || !opTakesLk i.opcode || decide (i.lk = 0)) = true) : atOnce i := by
  simp only [Bool.or_eq_true, decide_eq_true_eq, Bool.not_eq_true'] at h
  intro hs ht
  rcases h with (h | h) | h
  · exact absurd hs h
  · exact absurd ht (by simp [h])
  · exact h

/-- The crew and the words of an access that went well. -/
def wordsCrew : WordsGot → Crew
  | .ok c _ => c
  | _ => {}
def wordsList : WordsGot → List TWord
  | .ok _ ws => ws
  | _ => []
def wordsOk : WordsGot → Bool
  | .ok _ _ => true
  | _ => false

theorem words_of {x : WordsGot} (h : wordsOk x = true) : x = .ok (wordsCrew x) (wordsList x) := by
  cases x <;> first | rfl | exact absurd h (by simp [wordsOk])

theorem some_pair {α β : Type} {x : Option (α × β)} {d : α × β} (h : x.isSome = true) : x = some ((x.getD d).1, (x.getD d).2) := by
  cases x <;> simp_all

theorem some_of {α : Type} {x : Option α} {d : α} (h : x.isSome = true) : x = some (x.getD d) := by
  cases x <;> simp_all

end Sys2Proof.Tests
end

