-- ==== Sys2Proof/Tests/Slice0.lean ====
section
/-! SUPPORT. The model's own tests: ill-formed terms for each check, and words worked out in the spec's listings. -/

namespace Sys2Proof.Tests

-- One declaration at a time: the checks run together would hold too much memory.
set_option Elab.async false

/-! ## Ill-formed instructions are refused (R185, R190, R192, R40, R200, R246) -/

theorem test_wf_reserved_field : (Instr.neg .rne { d := 5, a := 3, b := 4 }).wellFormed = false := by decide
theorem test_wf_lastuse_on_s : (Instr.iadd .i64 { d := 5, a := 230, b := 4, la := true }).wellFormed = false := by decide
theorem test_wf_index_on_nil : (Instr.mov { d := 5, a := 255, xa := true }).wellFormed = false := by decide
theorem test_wf_generic_s_dest : (Instr.add .rne { d := 224, a := 3, b := 4 }).wellFormed = false := by decide
theorem test_wf_lk_not_taken : (Instr.iadd .i64 { d := 5, a := 3, b := 4, lk := 2 }).wellFormed = false := by decide
theorem test_wf_lk_taken : (Instr.idiv .i64 { d := 5, a := 3, b := 4, lk := 2 }).wellFormed = true := by decide
theorem test_wf_v32_group : (Instr.ld .v32 { d := 6, base := 2 }).wellFormed = false := by decide
theorem test_wf_atom_no_operand : (Instr.atom .add .i64 { d := 3, base := 2, idx := 255 }).wellFormed = false := by decide
theorem test_wf_red_index : (Instr.red .add .i64 { d := 3, base := 2, idx := 4 }).wellFormed = false := by decide
theorem test_wf_trap_code : (Instr.trap 0x3F { a := 2 }).wellFormed = false := by decide
theorem test_wf_sets_readonly : (Instr.sets .laneid { a := 2 }).wellFormed = false := by decide
theorem test_wf_mma_kb : (Instr.mma { f1 := 2, f2 := 32, f3 := 3, bfmt := .bf16, kb := 32 }).wellFormed = false := by decide
theorem test_wf_pair_223 : (Instr.hprobe { d := 223, a := 4 }).wellFormed = false := by decide
theorem test_wf_event : Instr.powerLoss.wellFormed = false := by decide

/-! ## Words of the spec's listings decode to their instructions -/

/-- R198: `iadd v1, v1, v2`. -/
theorem test_decode_iadd : decode 0x2000101020000000 = .ok (.iadd .i64 { d := 1, a := 1, b := 2 }) := by decide
/-- R198: `movi v2, 4`. -/
theorem test_decode_movi : decode 0x3A00200000000004 = .ok (.movi .i64 4 { d := 2 }) := by decide
/-- R198: `cmplt v4, v3, v2`. -/
theorem test_decode_cmplt : decode 0x0B00403020000000 = .ok (.cmplt .rne { d := 4, a := 3, b := 2 }) := by decide
/-- R198: `brt v4!, loop` with offset -4. -/
theorem test_decode_brt : decode 0x81004FFFFFFFFFFC = .ok (.brt ⟨4, true, BitVec.ofInt 43 (-4)⟩) := by decide
/-- R198: `ld.f32 v4, [v2 + v3! << 2 + 16], lk=2`. -/
theorem test_decode_ld : decode 0x90A0402032500010 =
    .ok (.ld .f32 { d := 4, base := 2, idx := 3, lidx := true, lk := 2, sc := 2, off := 16 }) := by decide
/-- R198: `iaddi v9, v(xi+2), -1`. -/
theorem test_decode_iaddi_xi : decode 0x3C009022FFFFFFFF = .ok (.iaddi .i64 0xFFFFFFFF { d := 9, a := 2, xa := true }) := by
  decide
/-- Chapter 8: `fadd.f32.rup v6, v4, v5`. -/
theorem test_decode_fadd : decode 0x4000604050000C40 = .ok (.fadd .f32 .rup { d := 6, a := 4, b := 5 }) := by decide
/-- Chapter 8: `icmpi.lt v4, v1, -7`. -/
theorem test_decode_icmpi : decode 0x3D0040102FFFFFF9 = .ok (.icmpi .i64 .lt 0xFFFFFF9 { d := 4, a := 1 }) := by decide
/-- Chapter 8: `shfl.down v4, v3, 4`. -/
theorem test_decode_shfl : decode 0x70A0403040000000 = .ok (.shfl .down true { d := 4, a := 3, b := 4 }) := by decide
/-- Chapter 8: `scan.add.i64 v3, v2`. -/
theorem test_decode_scan : decode 0x7700302000000200 = .ok (.scan .add false .i64 .rne { d := 3, a := 2 }) := by decide
/-- Chapter 8: `reduce.max.i64 v5, v3`. -/
theorem test_decode_reduce : decode 0x7820503000000200 = .ok (.reduce .max .i64 .rne { d := 5, a := 3 }) := by decide
/-- Chapter 8: `cvt.bf16.f32.ef v5, v4, v6`, both words. -/
theorem test_decode_cvt_ef : decode (0x6000504060000005 + 0x0A0B * 2 ^ 64) =
    .ok (.cvt .ef .bf16 .f32 { f0 := 5, f1 := 4, f2 := 6 }) := by decide
/-- Chapter 8: `gets v3, LANEID`; `trap v2, 0x41`; `ret`. -/
theorem test_decode_gets : decode 0xF300300000000000 = .ok (.gets .laneid { d := 3 }) := by decide
theorem test_decode_trap : decode 0xF100002000000041 = .ok (.trap 0x41 { a := 2 }) := by decide
theorem test_decode_ret : decode 0x86000D7000000000 = .ok (.ret { a := 215 }) := by decide
/-- Chapter 9: `st.w [v10 + 8], v5`; `lds.i32 v6, [sp: v1 + 0x40], lk=1`; `ldf.h v7, [v8 + 16]`. -/
theorem test_decode_st : decode 0x910050AFF0000008 = .ok (.st .w { d := 5, base := 10, off := 8 }) := by decide
theorem test_decode_lds : decode 0x9630601FF0200040 = .ok (.lds .i32 { d := 6, base := 1, lk := 1, off := 0x40 }) := by decide
theorem test_decode_ldf_h : decode 0x9200708FF8000010 = .ok (.ldf .w { d := 7, base := 8, ld := true, off := 16 }) := by decide
/-- Chapter 9: `alloc v6, v5`; `spill [v209 + 0x110], v30`; `atom.add.i64 v3, [v2], v4, lk=3`. -/
theorem test_decode_alloc : decode 0x9900605000000000 = .ok (.alloc { d := 6, a := 5 }) := by decide
theorem test_decode_spill : decode 0x9E01ED1FF0000110 = .ok (.spill { d := 30, base := 209, off := 0x110 }) := by decide
theorem test_decode_atom : decode 0xB000302040600000 = .ok (.atom .add .i64 { d := 3, base := 2, idx := 4, lk := 3 }) := by
  decide
/-- Chapter 9: `acas.w v5, [v2 + 8], v6`; `red.add.f32 [v10 + 4], v9`; `qpush 5, v7`; `qpop v3, 5, lk=2`. -/
theorem test_decode_acas : decode 0xB100502060080008 = .ok (.acas .u64 { d := 5, base := 2, idx := 6, off := 8 }) := by decide
theorem test_decode_red : decode 0xB20090AFF0180004 = .ok (.red .add .f32 { d := 9, base := 10, off := 4 }) := by decide
theorem test_decode_qpush : decode 0xB400007000500000 = .ok (.qpush 5 { a := 7 }) := by decide
theorem test_decode_qpop : decode 0xB500300000504000 = .ok (.qpop 5 { d := 3, lk := 2 }) := by decide
/-- R268: the same `qpop` with C = 0x25 raises ILLEGAL_ENCODING. -/
theorem test_decode_qpop_37 : decode 0xB500300002504000 = .illegalEncoding 0xB5 := by decide
/-- Chapter 9: `tbar 2, 64`; `hins v10, v4, v5, lk=1`; `hacc.add v4, v5`; `hdrain v10, s3`. -/
theorem test_decode_tbar : decode 0xB800000000400002 = .ok (.tbar false 2 64 {}) := by decide
theorem test_decode_hins : decode 0xC100A04050002000 = .ok (.hins { d := 10, a := 4, b := 5, lk := 1 }) := by decide
theorem test_decode_hacc : decode 0xC400004050000000 = .ok (.hacc .add { a := 4, b := 5 }) := by decide
theorem test_decode_hdrain : decode 0xC500AE3000000000 = .ok (.hdrain { d := 10, a := 227 }) := by decide
/-- Chapter 10: `obres v2, 8192, bf16, 16, 0`; `mma.bf16 v2, v32, v3`; `accrd v40, v3, lk=4`. -/
theorem test_decode_obres : decode (0xC800200000000000 + 0x000020000000000A * 2 ^ 64) =
    .ok (.obres 0x2000 0 false .bf16 2) := by decide
theorem test_decode_mma : decode (0xCB00002200300002 + 0x3F7F87C000000000 * 2 ^ 64) =
    .ok (.mma { f1 := 2, f2 := 32, f3 := 3, bfmt := .bf16, mb := 63, nb := 255, kb := 31 }) := by decide
/-- R285: the same `mma` with KB 33 raises ILLEGAL_ENCODING. -/
theorem test_decode_mma_kb33 : decode (0xCB00002200300002 + 0x3F7F880000000000 * 2 ^ 64) =
    .illegalEncoding 0xCB := by decide
theorem test_decode_accrd : decode 0xD002803000040000 = .ok (.accrd { f0 := 40, f1 := 3, lk := 4 }) := by decide
/-- Chapter 10: `xld v10, v12, v20, v21, 0b0110`; `fld v5, v10, v12, lk=2`; `wput v8, v10, v11`; `wget v8, lk=1`. -/
theorem test_decode_xld : decode (0xE00000A0C1400006 + 0x15000000 * 2 ^ 64) =
    .ok (.xld 6 { f1 := 10, f2 := 12, f3 := 20, f4 := 21 }) := by decide
theorem test_decode_fld : decode 0xE50050A0C0020000 = .ok (.fld .elem { f0 := 5, f1 := 10, f2 := 12, lk := 2 }) := by decide
theorem test_decode_wput : decode 0xE60080A0B0000000 = .ok (.wput { f0 := 8, f1 := 10, f2 := 11 }) := by decide
theorem test_decode_wget : decode 0xE700800000010000 = .ok (.wget { f0 := 8, lk := 1 }) := by decide
/-- R195: byte 0x00, and an unassigned byte. -/
theorem test_decode_zero : decode 0 = .ok (.illegalInstruction 0 false) := by decide
theorem test_decode_unassigned : decode 0x1600000000000000 = .ok (.routedInstruction 0x1600000000000000) := by decide

end Sys2Proof.Tests
end

