-- ==== Sys2Proof/Tests/WitnessSync.lean ====
section
/-! SUPPORT. For the statements about queues, barriers, hash regions, the matrix unit and engines: states that meet their hypotheses. -/

namespace Sys2Proof.Tests

-- One declaration at a time: the checks run together would hold too much memory.
set_option Elab.async false

open Sys2Proof Sys2Proof.Machine Sys2Proof.Claims

theorem except_of {α β : Type} {x : Except α β} {d : β} (h : x.toBool = true) : x = .ok ((x.toOption).getD d) := by
  cases x <;> simp_all [Except.toBool, Except.toOption]

/-- Words in the scratch of core 0. -/
def inScratch (s : State) (ws : List (Nat × TWord)) : State :=
  ws.foldl (fun s w => (s.pokeBytes (2 ^ 56 + w.1) (leBytes 8 w.2.pay.toNat)).pokeTag ((2 ^ 56 + w.1) / 8) w.2.tag) s

/-- Queue 3 at scratch address 0x40: CAP 4, HEAD, TAIL, ALLOW, and the words 10, 11, 12, 13 in its slots. -/
def withQueue (s : State) (head tail allow : Nat) : State :=
  inScratch { s with grids := s.grids.map fun g => { g with binds := [⟨3, 0x40, 4, allow⟩] } }
    [(0x40, int 4), (0x48, int head), (0x50, int tail), (0x58, int allow), (0x80, int 10), (0x88, int 11), (0x90, int 12), (0x98, int 13)]

def queueKey : Nat := 2 ^ 56 + 0x40

/-- At the counters' last value, with one free slot. -/
theorem meets_TeamQueues_put : ∃ (s : State) (k : Nat), scratchKey ≤ k ∧ k % 64 = 0 ∧ (s.qHead k).ok = true ∧ (true = true → (s.qHead k).allow ≠ 0) :=
  ⟨withQueue (three [] [] []) (2 ^ 64 - 3) (2 ^ 64 - 1) 1, queueKey, by decide, by decide, by decide +kernel, by decide +kernel⟩

theorem meets_TeamQueues_take : ∃ (s : State) (k : Nat), scratchKey ≤ k ∧ k % 64 = 0 ∧ (s.qHead k).ok = true :=
  ⟨withQueue (three [] [] []) (2 ^ 64 - 1) 1 0, queueKey, by decide, by decide, by decide +kernel⟩

theorem meets_TeamQueues_pop : ∃ (s : State) (k : Nat) (lanes : List Nat), scratchKey ≤ k ∧ k % 64 = 0 ∧ (s.qHead k).ok = true ∧ lanes ≠ [] :=
  ⟨withQueue (three [] [] []) 1 3 0, queueKey, [0, 5], by decide, by decide, by decide +kernel, by decide⟩

/-- A bound queue with a good header, as it is served. -/
def PopServed (s : State) : Prop := (s.team 0).place = .resident ∧ qInstance (s.team 0) (s.grid (s.team 0).grid) 0 3 = some (0, queueKey) ∧
  (s.qHead queueKey).ok = true ∧ (0, 3) ∉ (s.team 0).badQueues

theorem blocked_first {s : State} {team : Nat} {t : Wake → Bool} (n : s.crews.length = 1) (h : Blocked s team t 0) : BlockedFirst s team t 0 :=
  ⟨h, fun k hk hne => absurd hk.1 (by omega)⟩

/-- A push without a crew, and room. -/
theorem meets_TeamQueues_pushed : ∃ (s : State) (p : QueuedPush), PopServed s ∧ ((s.team 0).pushes.find? fun p => p.core == 0 && p.q == 3) = some p ∧
    ((s.qHead queueKey).tail : Int) - (s.qHead queueKey).head < (s.qHead queueKey).cap :=
  ⟨let s := withQueue (three [] [] []) 1 4 0
   { s with teams := s.teams.map fun t => { t with pushes := [⟨0, 3, int 9, false⟩] } }, _, by unfold PopServed; decide +kernel, rfl, by decide +kernel⟩

/-- Three lanes wait at two entries. -/
def popper : State := withQueue (bench { crewOf 3 [] with wake := some (.queuePop 3 0 [0, 1, 2] 5) }) 1 3 0
theorem meets_TeamQueues_popper : PopServed popper ∧ ((popper.team 0).pushes.find? fun p => p.core == 0 && p.q == 3) = none ∧
    0 < heldIn popper queueKey ∧ BlockedFirst popper 0 (isPopOn 0 3) 0 ∧ (popper.crew 0).place = .resident ∧ (popper.crew 0).lateFrees = [] ∧
    (popper.crew 0).inFlight = false ∧ (∀ b ∈ popper.crews, b.homes = []) :=
  ⟨by unfold PopServed; decide +kernel, by decide, by decide +kernel, blocked_first rfl ⟨by decide, by decide, by decide, _, rfl, by decide⟩, by decide, by decide,
    by decide, by decide⟩

/-- Three words wait for two places and a grant of one. -/
def pusher : State := withQueue (bench { crewOf 3 [] with wake := some (.queuePush 3 0 [(0, int 7), (1, int 8), (2, int 9)]) }) 2 4 1
theorem meets_TeamQueues_pusher : PopServed pusher ∧ ((pusher.team 0).pushes.find? fun p => p.core == 0 && p.q == 3) = none ∧
    ((pusher.qHead queueKey).tail : Int) - (pusher.qHead queueKey).head < (pusher.qHead queueKey).cap ∧ (pusher.qHead queueKey).allow ≠ 0 ∧
    (∀ j, Blocked pusher 0 (isPopOn 0 3) j → (pusher.crew j).place ≠ .resident) ∧ BlockedFirst pusher 0 (isPushOn 0 3) 0 ∧
    (pusher.qHead queueKey).head ≤ (pusher.qHead queueKey).tail ∧ (pusher.qHead queueKey).tail + 3 < 2 ^ 64 ∧ (∀ b ∈ pusher.crews, b.homes = []) := by
  refine ⟨by unfold PopServed; decide +kernel, by decide, by decide +kernel, by decide +kernel, ?_, blocked_first rfl ⟨by decide, by decide, by decide, _, rfl, by decide⟩,
    by decide +kernel, by decide +kernel, by decide⟩
  rintro j ⟨hj, _, _, w, hw, ht⟩
  have : j = 0 := by have : pusher.crews.length = 1 := rfl; omega
  subst this
  cases hw
  exact absurd ht (by decide)

/-- Two free places for three words; two entries for three lanes; a grant to each of three lanes, one of them negative. -/
theorem meets_TeamQueues : ∃ s ci c lanes q o core k, qInstance (s.teamOf c) (s.gridOf c) c.core (BitVec.toNat q) = some (core, k) ∧
    (s.qHead k).ok = true ∧ (core, BitVec.toNat q) ∉ (s.teamOf c).badQueues ∧ (∀ g ∈ s.grants, g.1 ≠ arbiterOf k) ∧
    (Issues s (.qpush q o) ci c lanes ∧ (∀ l ∈ lanes, (s.opnd (.qpush q o) c l 1).isHeader = false)) ∧
    Issues s (.qpop q o) ci c lanes ∧ Issues s (.qtry q o) ci c lanes ∧
    (Issues s (.qallow q o) ci c lanes ∧ (∀ l ∈ lanes, (s.opnd (.qallow q o) c l 1).tag = .int)) :=
  ⟨withQueue (three [int 1, int (2 ^ 64 - 7), int (2 ^ 40)] [] []) 0 2 5, 0, _, _, 3, { d := 5, a := 1 }, 0, queueKey,
    by decide, by decide +kernel, by decide, by decide, ⟨issues_of_ready (by decide), by decide⟩, issues_of_ready (by decide),
    issues_of_ready (by decide), issues_of_ready (by decide), by decide⟩

theorem meets_TeamBarriers_phases : ∃ (b : TBar) (count n : Nat), b.arrived = 0 ∧ 0 < count ∧ 0 < n := ⟨{ id := 15, phase := 7 }, 3, 32, by decide, by decide, by decide⟩

/-- A phase that two of five have arrived in. -/
theorem meets_TeamBarriers_partly : ∃ (b : TBar) (count n : Nat), 0 < b.arrived ∧ b.arrived < b.count ∧ 0 < count ∧ 0 < n :=
  ⟨{ id := 15, phase := 7, arrived := 2, count := 5 }, 3, 32, by decide, by decide, by decide, by decide⟩

theorem meets_TeamBarriers_arrive : ∃ (s : State) (ci : Nat), ci < s.crews.length ∧ (s.crew ci).wake = none :=
  ⟨{ bench {} with crews := [{}, { wake := some (.tbar 2 0) }] }, 0, by decide, rfl⟩

theorem meets_TeamBarriers : ∃ reg id count o s ci c lanes, Issues s (.tbar reg id count o) ci c lanes ∧
    let i : Instr := .tbar reg id count o
    let w := s.opnd i c ((execLanes i c lanes).headD 0) 1
    (reg = true → w.tag = .int) ∧
    let n := if reg then w.payload.toNat else BitVec.toNat count
    1 ≤ n ∧ n ≤ 6144 :=
  ⟨false, 2, 6144, {}, three [] [] [], 0, _, _, issues_of_ready (by decide), by decide, by decide, by decide⟩

theorem meets_TeamBarriers_register : ∃ reg id count o s ci c lanes, reg = true ∧ Issues s (.tbar reg id count o) ci c lanes ∧
    let i : Instr := .tbar reg id count o
    let w := s.opnd i c ((execLanes i c lanes).headD 0) 1
    (reg = true → w.tag = .int) ∧
    let n := if reg then w.payload.toNat else BitVec.toNat count
    1 ≤ n ∧ n ≤ 6144 :=
  ⟨true, 15, 0, { a := 225 }, three [] [] [] [] [(1, int 1)], 0, _, _, rfl, issues_of_ready (by decide), by decide, by decide, by decide⟩

/-- An arrival barrier at scratch address 0x200 with COUNT 2 and one at 0x210 with COUNT 0. -/
def withBarriers (s : State) : State := inScratch s [(0x200, int 2), (0x208, int 9), (0x210, int 0)]

theorem meets_ArrivalBarriers_counts : ∃ (s : State) (k : Nat) (n : Int), scratchKey ≤ k ∧ k % 16 = 0 ∧ barrierAction (s.peekWord k).payload = false ∧
    0 < countOf (s.peekWord k).payload ∧ countOf (s.peekWord k).payload - n ≤ 0 ∧
    ∃ c ∈ s.crews, c.team = 0 ∧ c.place ≠ .retired ∧ ∃ ks, c.wake = some (.barrier ks) :=
  ⟨withBarriers (bench { crewOf 3 [] with wake := some (.barrier [2 ^ 56 + 0x200]) }), 2 ^ 56 + 0x200, 2, by decide, by decide, by decide, by decide, by decide,
    _, List.mem_cons_self, by decide, by decide, _, rfl⟩

/-- The hypotheses about the three instructions that change barriers, for one of them. -/
def BarriersMet (i : Instr) : Prop := ∃ s ci c lanes event, barrierEvent i s c = some event ∧ Issues s i ci c lanes ∧
  (∀ l ∈ execLanes i c lanes, ∃ b, barrierTarget i s c l = .ok b) ∧
  ∀ g ∈ barrierGroups (barrierTarget i s c) (execLanes i c lanes), s.mustWait ci g.1.2 16 = false

def okB {α : Type} : Except Nat α → Bool
  | .ok _ => true
  | .error _ => false
theorem ok_of {α : Type} {x : Except Nat α} (h : okB x = true) : ∃ b, x = .ok b := by cases x <;> simp_all [okB]

/-- Two lanes at one barrier, one at the other. -/
def atBarriers : State := withBarriers (three [int 0x200, int 0x200, int 0x210] [int 5, int 2, int (2 ^ 31 - 1)] [int 3, .nil, f32 1])

theorem meets_ArrivalBarriers_abinit : BarriersMet (.abinit { d := 2, base := 1, idx := 3 }) :=
  ⟨atBarriers, 0, _, _, _, rfl, issues_of_ready (by decide), fun l hl => ok_of (by revert l; decide), by decide⟩
theorem meets_ArrivalBarriers_abexp : BarriersMet (.abexp { d := 2, base := 1 }) :=
  ⟨atBarriers, 0, _, _, _, rfl, issues_of_ready (by decide), fun l hl => ok_of (by revert l; decide), by decide⟩
theorem meets_ArrivalBarriers_abarr : BarriersMet (.abarr { base := 1 }) :=
  ⟨atBarriers, 0, _, _, _, rfl, issues_of_ready (by decide), fun l hl => ok_of (by revert l; decide), by decide⟩

/-- `abwait`: `w` says whether some barrier is still above 0. -/
def WaitMet (w : Bool) : Prop := ∃ o s ci c lanes, let i : Instr := .abwait o
  let gs := barrierGroups (barrierTarget i s c) (execLanes i c lanes)
  Issues s i ci c lanes ∧ (s.crew ci).wake = none ∧
  (∀ l ∈ execLanes i c lanes, ∃ b, barrierTarget i s c l = .ok b) ∧ (∀ g ∈ gs, s.mustWait ci g.1.2 16 = false) ∧
  ((gs.map fun g => g.1.2).any fun k => decide (0 < countOf (s.peekWord k).payload)) = w

theorem meets_ArrivalBarriers_abwait_blocks : WaitMet true :=
  ⟨{ base := 1 }, atBarriers, 0, _, _, issues_of_ready (by decide), by decide, fun l hl => ok_of (by revert l; decide), by decide, by decide⟩
theorem meets_ArrivalBarriers_abwait_goes_on : WaitMet false :=
  ⟨{ base := 3 }, withBarriers (three [] [] [int 0x210, int 0x210, int 0x210]), 0, _, _, issues_of_ready (by decide), by decide,
    fun l hl => ok_of (by revert l; decide), by decide, by decide⟩

/-! ## Hash regions -/

/-- A core whose team has a 4 KiB pool, the region held or not, and the descriptor of a spill log at 0x3000040. -/
def withPool (s : State) (r : HRegion) : State :=
  let s : State := { s with grids := s.grids.map fun g => { g with hash := 4 }, hash := [r] }
  s.pokeBytes 0x400040 (leBytes 8 0x3000100 ++ leBytes 8 64)
def freeRegion : HRegion := { core := 0, team := 0 }
def keyOf (n : Nat) : HKey := ⟨int n, int n, 0⟩
/-- N = 16; keys 3 and 24 of home slot 1, and 6 of home slot 15. -/
def heldRegion : HRegion := { core := 0, team := 0, held := true, b := 4,
                              slots := [(1, ⟨keyOf 3, int 33⟩), (2, ⟨keyOf 24, f32 5⟩), (15, ⟨keyOf 6, .nil⟩)] }

theorem meets_HashRegions_hclaim : ∃ o s ci c lanes b c1 ws, Issues s (.hclaim o) ci c lanes ∧
    let i : Instr := .hclaim o
    let core := hregionCore c
    let l := (execLanes i c lanes).headD 0
    let a := s.opnd i c l 1
    let d := s.opnd i c l 2
    a.tag = .int ∧ d.tag = .int ∧ 4 ≤ b ∧ b ≤ 15 ∧ a.payload.toNat = 2 ^ b ∧ d.payload.toNat % 32 = 0 ∧
    d.payload.getLsbD 63 = false ∧ s.hasPool c core = true ∧ (s.region core c.team).held = false ∧
    16 * 2 ^ b ≤ (s.gridOf c).poolBytes ∧ s.hashBusy ci core = false ∧ s.readWords ci c d.payload 2 = .ok c1 ws := by
  refine ⟨{ d := 3, a := 225, b := 226 }, withPool (three [] [] [] [] [(1, int 256), (2, int 0x3000040)]) freeRegion, 0, _, _, 8, _, _,
    issues_of_ready (by decide), by decide, by decide, by decide, by decide, by decide, by decide, by decide, by decide, by decide, by decide, by decide,
    words_of (by decide +kernel)⟩

theorem meets_HashRegions_hrel : ∃ s ci c lanes, Issues s .hrel ci c lanes ∧
    (s.region (hregionCore c) c.team).held = true ∧ s.hashBusy ci (hregionCore c) = false :=
  ⟨withPool (three [] [] []) heldRegion, 0, _, _, issues_of_ready (by decide), by decide, by decide⟩

/-- With a held region and without a pool. -/
theorem meets_HashRegions_hstat : ∀ n ∈ [0, 4], ∃ o s ci c lanes, (s.gridOf c).hash = n ∧ Issues s (.hstat o) ci c lanes ∧ atOnce (.hstat o) ∧
    let i : Instr := .hstat o
    let core := hregionCore c
    s.hashBusy ci core = false ∧
    let b := if s.hasPool c core = false then c
      else c.enterHash core false (if (s.region core c.team).held then lineSectors (s.teamOf c) core [0] else [(s.teamOf c).bucket core 0])
    let w : TWord := ⟨.int, if s.hasPool c core then (s.region core c.team).stat else 0⟩
    Room s ci b (s.changed i c (execLanes i c lanes) (toDest s i c fun _ => w)) := by
  intro n hn
  simp only [List.mem_cons, List.not_mem_nil, or_false] at hn
  rcases hn with rfl | rfl
  · exact ⟨{ d := 3 }, three [] [] [], 0, _, _, rfl, issues_of_ready (by decide), atOnce_of (by decide), by decide, by unfold Room toDest; decide⟩
  · exact ⟨{ d := 3 }, withPool (three [] [] []) heldRegion, 0, _, _, rfl, issues_of_ready (by decide), atOnce_of (by decide), by decide,
      by unfold Room toDest; decide⟩

theorem meets_HashRegions_hdrain : ∃ o s ci c lanes, Issues s (.hdrain o) ci c lanes ∧
    let i : Instr := .hdrain o
    let r := s.region (hregionCore c) c.team
    let cur := s.opnd i c ((execLanes i c lanes).headD 0) 1
    cur.tag = .int ∧ cur.payload.getLsbD 63 = false ∧ r.held = true ∧ s.hashBusy ci (hregionCore c) = false :=
  ⟨{ d := 4, a := 1 }, withPool (three [int 2, int 2, int 2] [] []) heldRegion, 0, _, _, issues_of_ready (by decide), by decide, by decide, by decide, by decide⟩

theorem heldRegion_entries {p : Nat} {e : HEntry} (h : SMap.get? heldRegion.slots p = some e) :
    (p = 1 ∧ e = ⟨keyOf 3, int 33⟩) ∨ (p = 2 ∧ e = ⟨keyOf 24, f32 5⟩) ∨ (p = 15 ∧ e = ⟨keyOf 6, .nil⟩) := by
  have := SMap.get?_mem h
  simpa [heldRegion] using this

theorem heldRegion_laid : Laid heldRegion where
  size := by decide
  near p e h := by rcases heldRegion_entries h with ⟨rfl, rfl⟩ | ⟨rfl, rfl⟩ | ⟨rfl, rfl⟩ <;> decide
  runs p e h hd := by
    rcases heldRegion_entries h with ⟨rfl, rfl⟩ | ⟨rfl, rfl⟩ | ⟨rfl, rfl⟩
    · exact absurd hd (by decide)
    · exact ⟨_, rfl, .inr ⟨by decide, by unfold ordBelow; decide⟩⟩
    · exact absurd hd (by decide)
  once p q e x hp hq h := by
    revert h
    rcases heldRegion_entries hp with ⟨rfl, rfl⟩ | ⟨rfl, rfl⟩ | ⟨rfl, rfl⟩ <;>
      rcases heldRegion_entries hq with ⟨rfl, rfl⟩ | ⟨rfl, rfl⟩ | ⟨rfl, rfl⟩ <;> decide
  start := ⟨1, by decide, fun e h => by rcases heldRegion_entries h with ⟨_, rfl⟩ | ⟨h, _⟩ | ⟨h, _⟩ <;> first | decide | exact absurd h (by decide)⟩

/-- A held key, and one that is not. -/
theorem meets_HashInsertAndDelete_layout : ∀ k ∈ [keyOf 24, keyOf 37], ∃ w : HashWork, Laid w.region ∧ OneOrd w.region k := by
  intro k hk
  refine ⟨{ region := heldRegion }, heldRegion_laid, ?_⟩
  rintro x v ⟨p, hx⟩ hs
  revert hs
  simp only [List.mem_cons, List.not_mem_nil, or_false] at hk
  rcases hk with rfl | rfl <;> rcases heldRegion_entries hx with ⟨_, h⟩ | ⟨_, h⟩ | ⟨_, h⟩ <;> cases h <;> decide

/-- Three lanes, the first two with one key. -/
def keyed : State := withPool (three [int 3, int 3, int 9] [int 70, int 71, int 72] []) heldRegion
def laneKeys (l : Nat) : HKey := keyOf (if l = 2 then 9 else 3)

def hashOut (x : Option (Except (Nat × Nat) (HashWork × List (Nat × Nat × TWord)))) : Option (HashWork × List (Nat × Nat × TWord)) :=
  x.bind fun y => match y with
    | .ok r => some r
    | .error _ => none
theorem hash_out {x : Option (Except (Nat × Nat) (HashWork × List (Nat × Nat × TWord)))} {w : HashWork} {rs : List (Nat × Nat × TWord)}
    (h : hashOut x = some (w, rs)) : x = some (.ok (w, rs)) := by
  rcases x with _ | (_ | ⟨_, _⟩) <;> simp_all [hashOut]

/-- The hypotheses about `hins` and `hdel`, for one of them. -/
def HashEventMet (i : Instr) : Prop := ∃ s ci c lanes k w rs, Issues s i ci c lanes ∧
  hashEvent i s c (execLanes i c lanes) k = some (.ok (w, rs)) ∧ keysPass s ci i c (execLanes i c lanes) k ∧
  (∀ o, i = .hins o → ∀ l ∈ execLanes i c lanes, (s.opnd i c l 2).isHeader = false) ∧ (∀ x ∈ w.writes, s.mustWait ci x.key 8 = false)

theorem meets_HashInsertAndDelete_hins : HashEventMet (.hins { d := 4, a := 1, b := 2 }) := by
  refine ⟨keyed, 0, _, _, laneKeys, _, _, issues_of_ready (by decide), hash_out (some_pair (d := (({ region := heldRegion } : HashWork), ([] : List (Nat × Nat × TWord)))) (by decide +kernel)),
    by unfold keysPass; decide, fun o h => ?_, ?_⟩
  · cases h; decide
  · decide +kernel

theorem meets_HashInsertAndDelete_hdel : HashEventMet (.hdel { d := 4, a := 1 }) := by
  refine ⟨keyed, 0, _, _, laneKeys, _, _, issues_of_ready (by decide), hash_out (some_pair (d := (({ region := heldRegion } : HashWork), ([] : List (Nat × Nat × TWord)))) (by decide +kernel)),
    by unfold keysPass; decide, fun o h => ?_, ?_⟩
  · cases h
  · decide +kernel

theorem meets_HashProbe : ∃ o s ci c lanes, ∃ k : Nat → HKey, Issues s (.hprobe o) ci c lanes ∧ atOnce (.hprobe o) ∧
    let i : Instr := .hprobe o
    let exe := execLanes i c lanes
    keysPass s ci i c exe k ∧
    let core := hregionCore c
    let r := s.region core c.team
    let lines := exe.flatMap fun l => ((r.probe (k l)).2.map fun slot => slot / 4) ++ (if (r.probe (k l)).1.isNone then [0] else [])
    let b := (afterKeys s ci i c exe).enterHash core false (lineSectors (s.teamOf c) core (unionNat [] lines))
    let res := fun l => pair s i c l (probed r (k l)).1 (probed r (k l)).2
    Room s ci b (s.changed i c exe fun l => (res l).writes) :=
  ⟨{ d := 4, a := 1 }, keyed, 0, _, _, laneKeys, issues_of_ready (by decide), atOnce_of (by decide), by unfold keysPass; decide,
    by unfold Room pair; decide +kernel⟩

theorem meets_HashAccumulate : ∃ op o s ci c lanes, ∃ k : Nat → HKey, Issues s (.hacc op o) ci c lanes ∧
    let i : Instr := .hacc op o
    let exe := execLanes i c lanes
    let x := fun l => s.opnd i c l 2
    keysPass s ci i c exe k ∧ (∀ l ∈ exe, haccTagOk op (x l).tag = true) ∧
    (∀ l ∈ exe, ∀ j ∈ exe, sameKey (k l) (k j) = true → (x l).tag = (x j).tag) ∧
    let core := hregionCore c
    let sectors := exe.map fun l =>
      let h := (k l).home (s.region core c.team).b
      (s.teamOf c).bucket core (h / 4) + h % 4 / 2 * 32
    let recs : List HaccRec := exe.map fun l => ⟨l, k l, x l⟩
    ∃ w, s.haccWork (s.logXlate c.core (s.asidOf c)) op (s.region core c.team) recs = .ok w ∧
      let b := w.pages.foldl Crew.usePage ((afterKeys s ci i c exe).enterHash core true sectors)
      let b' : Crew := { b with chunk := { b.chunk with recs := b.chunk.recs ++ [.hacc op core w.pages recs] } }
      Room s ci b' (s.changed i c exe fun _ => []) := by
  refine ⟨.add, { a := 1, b := 2 }, keyed, 0, _, _, laneKeys, issues_of_ready (by decide), by unfold keysPass; decide, by decide, by decide,
    _, except_of (d := { region := {core := 0, team := 0 } }) (by decide +kernel), by unfold Room; decide +kernel⟩

/-! ## The matrix unit -/

def tileWord (n : Nat) : TWord := ⟨.tile, BitVec.ofNat 64 n⟩

/-- Quadrant `q` of core 0 holds three ranges of 8 KiB. -/
def threeRanges : Quad :=
  { resv := [{ index := 0, team := 0, base := 0, size := 8192, fmt := .bf16, blen := 16, soff := 0, moff := 4096 },
             { index := 1, team := 0, base := 8192, size := 8192, fmt := .bf16, blen := 16, soff := 0, moff := 12288 },
             { index := 5, team := 0, base := 16384, size := 8192, fmt := .f32, blen := 16, soff := 0, moff := 16384 }] }

/-- Operands of the crew of quadrant `q`: v1 a tile of 3 rows and 16 columns, v2 and v3 the first two ranges, v4 the third, v5 a
scratch address, v6 an offset, v8 to v9 data. -/
def matrixRegs (q : Nat) : List (Nat × TWord) :=
  row 1 (List.replicate 3 (tileWord (2 ^ 60 + q * 2 ^ 56 + 3 * 2 ^ 40 + 16 * 2 ^ 23))) ++ row 2 (List.replicate 3 (tileWord (q * 2 ^ 56)))
    ++ row 3 (List.replicate 3 (tileWord (q * 2 ^ 56 + 2 ^ 52))) ++ row 4 (List.replicate 3 (tileWord (q * 2 ^ 56 + 5 * 2 ^ 52)))
    ++ row 5 [int 64, int 64, int 64] ++ row 6 [int 32, int 32, int 32] ++ row 8 [f32 0x3F800000, f32 0x40000000, int 7] ++ row 9 [f32 0xFFFFFFFF00000001, .nil, .undef]

/-- The four crews of a team on core 0, at match number 0; the crews from 1 up to `n` stand at the instruction. -/
def fourCrews (i : Instr) (n : Nat) : State :=
  { bench {} with
    crews := (List.range 4).map fun k => { crewOf 32 (matrixRegs k) with
      crewId := k, quad := k, mreq := if 1 ≤ k ∧ k ≤ n then some i else none, wake := if 1 ≤ k ∧ k ≤ n then some .four else none }
    grids := [{ asid := 1, codebase := 0x1000000, codesize := 0x1000, regs := 224, nextGang := 1, scratch := 0x1000, crews := 4, obuf := 65536, four := true }]
    quads := (List.range 4).map fun k => (k, threeRanges) }

/-- The hypotheses about an instruction whose four has matched. -/
def MatrixMet (i : Instr) : Prop := ∃ s ci c lanes s1 c1 x, Issues s i ci c lanes ∧ atOnce i ∧ scaleFree i s ci c ∧
  matched i s ci c = some (s1, c1) ∧ matrixEffect i s1 ci c1 = some x ∧
  let b : Crew := { x.crew with arch := { x.crew.arch with matrixNo := x.crew.arch.matrixNo + 1 }, mreq := none }
  (i.cls = .irrevocable ∨ Room s ci b (s.changed i c (execLanes i c lanes) fun l => (x.res l).writes))

def matrixB (i : Instr) (s : State) : Bool :=
  let c := theCrew s
  let m := (matched i s 0 c).getD (s, c)
  let x := (matrixEffect i m.1 0 m.2).getD { state := s, crew := c, frees := fun _ => [] }
  readyB s i && (decide (i.cls ≠ .speculative) || !opTakesLk i.opcode || decide (i.lk = 0)) && ((atMatch i s 0 c).fourOf 0).all (fun k => !s.scaleBusy ((atMatch i s 0 c).crew k).quadNo) &&
    (matched i s 0 c).isSome && (matrixEffect i m.1 0 m.2).isSome &&
    (decide (i.cls = .irrevocable) || !s.overLimits 0 (((s.changed i c (theExe s i) fun l => (x.res l).writes).filter fun f => decide (f < 224)).foldl
      Crew.noteWrite { x.crew with arch := { x.crew.arch with matrixNo := x.crew.arch.matrixNo + 1 }, mreq := none }))

theorem matrix_met {i : Instr} (s : State) (h : matrixB i s = true) : MatrixMet i := by
  simp only [matrixB, Bool.and_eq_true, Bool.not_eq_true', List.all_eq_true] at h
  obtain ⟨⟨⟨⟨⟨h1, h2⟩, h3⟩, h4⟩, h5⟩, h6⟩ := h
  refine ⟨s, 0, theCrew s, theLanes s, _, _, _, issues_of_ready h1, atOnce_of h2, fun _ => h3,
    some_pair (d := (s, theCrew s)) h4, some_of (d := { state := s, crew := theCrew s, frees := fun _ => [] }) h5, ?_⟩
  simpa [Room, theExe] using h6

theorem meets_MatrixInstructions_obres : MatrixMet (.obres 700 0 false .b4 7) := matrix_met (fourCrews (.obres 700 0 false .b4 7) 3) (by decide +kernel)
theorem meets_MatrixInstructions_obrel : MatrixMet (.obrel { f1 := 2 }) := matrix_met (fourCrews (.obrel { f1 := 2 }) 3) (by decide +kernel)
theorem meets_MatrixInstructions_obld : MatrixMet (.obld 64 { f1 := 2, f2 := 5, f3 := 6 }) :=
  matrix_met (fourCrews (.obld 64 { f1 := 2, f2 := 5, f3 := 6 }) 3) (by decide +kernel)
theorem meets_MatrixInstructions_sclld : MatrixMet (.sclld 16320 64 { f1 := 5 }) :=
  matrix_met (fourCrews (.sclld 16320 64 { f1 := 5 }) 3) (by decide +kernel)
theorem meets_MatrixInstructions_nmsel : MatrixMet (.nmsel .p24 16 2 { f1 := 2, f2 := 3 }) :=
  matrix_met (fourCrews (.nmsel .p24 16 2 { f1 := 2, f2 := 3 }) 3) (by decide +kernel)
theorem meets_MatrixInstructions_accz : MatrixMet (.accz { f1 := 1 }) := matrix_met (fourCrews (.accz { f1 := 1 }) 3) (by decide +kernel)
theorem meets_MatrixInstructions_accrd : MatrixMet (.accrd { f0 := 8, f1 := 1 }) := matrix_met (fourCrews (.accrd { f0 := 8, f1 := 1 }) 3) (by decide +kernel)
theorem meets_MatrixInstructions_accwr : MatrixMet (.accwr { f1 := 1, f2 := 8, l2 := true }) :=
  matrix_met (fourCrews (.accwr { f1 := 1, f2 := 8, l2 := true }) 3) (by decide +kernel)
theorem meets_MatrixInstructions_accred : MatrixMet (.accred true { f0 := 8, f1 := 1 }) :=
  matrix_met (fourCrews (.accred true { f0 := 8, f1 := 1 }) 3) (by decide +kernel)
theorem meets_MatrixInstructions_accmv : MatrixMet (.accmv (.round .rne) 0 64 { f1 := 1, f2 := 4, f3 := 255 }) :=
  matrix_met (fourCrews (.accmv (.round .rne) 0 64 { f1 := 1, f2 := 4, f3 := 255 }) 3) (by decide +kernel)
theorem meets_MatrixInstructions_mma : MatrixMet (.mma { f1 := 2, f2 := 8, bfmt := .bf16, mb := 0, nb := 0, kb := 1 }) :=
  matrix_met (fourCrews (.mma { f1 := 2, f2 := 8, bfmt := .bf16, mb := 0, nb := 0, kb := 1 }) 3) (by decide +kernel)
theorem meets_MatrixInstructions_mmas : MatrixMet (.mmas .p48 { f1 := 2, f2 := 8, bfmt := .bf16, z := true, h := true }) :=
  matrix_met (fourCrews (.mmas .p48 { f1 := 2, f2 := 8, bfmt := .bf16, z := true, h := true }) 3) (by decide +kernel)
theorem meets_MatrixInstructions_mlut : MatrixMet (.mlut { f1 := 2, f2 := 8, bfmt := .bf16, mb := 0 }) :=
  matrix_met (fourCrews (.mlut { f1 := 2, f2 := 8, bfmt := .bf16, mb := 0 }) 3) (by decide +kernel)

/-- One crew of the four has not come yet. -/
theorem meets_MatrixInstructions_waits : ∃ i s ci c lanes, Issues s i ci c lanes ∧ opIsMatrix i.opcode = true ∧
    c.matched ≤ c.arch.matrixNo ∧ matrixTrap i s c = none ∧ fourReady i s ci c = false :=
  ⟨.accz { f1 := 1 }, fourCrews (.accz { f1 := 1 }) 2, 0, _, _, issues_of_ready (by decide), by decide, by decide, by decide,
    by decide⟩

/-- All four stand at the instruction; the third has another one. -/
theorem meets_MatrixInstructions_mismatch : ∃ i s ci c lanes, Issues s i ci c lanes ∧ opIsMatrix i.opcode = true ∧
    c.matched ≤ c.arch.matrixNo ∧ matrixTrap i s c = none ∧ fourReady i s ci c = true ∧
    (atMatch i s ci c).fourAgrees ((atMatch i s ci c).fourOf ci) = false ∧
    ∀ k ∈ (atMatch i s ci c).fourOf ci, ((atMatch i s ci c).crew k).chunk.phase = .running :=
  ⟨.accz { f1 := 1 }, let s := fourCrews (.accz { f1 := 1 }) 3
    { s with crews := s.crews.set 2 { s.crew 2 with mreq := some (.obrel { f1 := 2 }) } }, 0, _, _,
    issues_of_ready (by decide), by decide, by decide, by decide, by decide, by decide, by decide⟩

/-- The four with the instruction in hand in each crew. -/
def fourAtProduct : State :=
  let s := fourCrews (.mma { f1 := 2, f2 := 8, bfmt := .bf16 }) 3
  { s with crews := s.crews.map fun c => { c with mreq := some (.mma { f1 := 2, f2 := 8, bfmt := .bf16 }) } }

theorem meets_ProductsAtMatch : ∃ (s : State) (four : List Nat), four.Nodup ∧ (∀ k ∈ four, k < s.crews.length) ∧
    (∀ k ∈ four, ∀ j ∈ four, (s.crew k).quadNo = (s.crew j).quadNo → k = j) ∧
    (∀ k ∈ four, ∀ j ∈ four, (s.crew k).quad = (s.crew j).quad → k = j) ∧
    (∃ k ∈ four, ∃ i x r a, (s.crew k).mreq = some i ∧ Machine.prodOf i = some x ∧ s.prodArgs (s.crew k) i x = .ok (r, a) ∧ x.1.p.nb.toNat < 256) ∧
    ∃ (h : Nat → Nat) (y : Nat → Prod × Bool), ∀ c < 4, h c ∈ four ∧ (s.crew (h c)).quad = c ∧ (s.crew (h c)).mreq.bind Machine.prodOf = some (y c) :=
  ⟨fourAtProduct, [0, 1, 2, 3], by decide, by decide, by decide, by decide, ⟨1, by decide, _, _, _, _, rfl, rfl, by rfl, by decide⟩,
    fun c => c, fun _ => (⟨none, { f1 := 2, f2 := 8, bfmt := .bf16 }⟩, false), by decide⟩

/-! ## Tile-walk engines -/

/-- Bytes in the RAW page at 0x3000000 + `off`. -/
def inRaw (s : State) (off : Nat) (bs : List Byte) : State := s.pokeBytes (0x400000 + off) bs

/-- A view record at 0x3000100 of 40 U8 elements at 0x3000200 with a box of 32, one of 40 scales at 0x3000180. -/
def withViews (s : State) : State :=
  let view (fmt : Nat) : List Byte := leBytes 8 0x3000200 ++ leBytes 8 (fmt + 2 ^ 8) ++ leBytes 4 40 ++ List.replicate 60 0 ++ leBytes 2 32 ++ List.replicate 46 0
  inRaw (inRaw (inRaw s 0x100 (view 5)) 0x180 (view 0x20)) 0x200 ((List.range 40).map fun j => BitVec.ofNat 8 (j + 1))
def viewWord (a : Nat) : TWord := tileWord (3 * 2 ^ 60 + a)

/-- v1 the view, v2 coordinates, v3 a scratch address, v4 a barrier, v5 a device, v6 the scale view. -/
def engineBench : State :=
  let s := three [viewWord 0x3000100] [int 8] [int 64] (row 4 [int 0x200] ++ row 5 [int 6] ++ row 6 [viewWord 0x3000180])
  withViews { inScratch s [(0x200, int 32), (0x208, .nil)] with grids := s.grids.map fun g => { g with four := true } }

/-- The hypotheses about a direct engine command. -/
def EngineMet (i : Instr) : Prop := ∃ s ci c lanes o op cmd pages, Issues s i ci c lanes ∧
  let l := (execLanes i c lanes).headD 0
  engineForm i s c l = some (o, op) ∧
  s.prepare ci c op { view := s.opnd i c l 1, coords := coordsOf c l o.f2.toNat, addr := s.opnd i c l 3,
                      bar := if o.f4 = 255 then none else some (s.opnd i c l 4) } = .ok (cmd, pages)

def emptyCmd : EngineCmd := { crew := 0, team := 0, asid := 0, pc := 0, sectors := [] }

def argsIn (s : State) (i : Instr) (o : XOps) (c : Crew) (l : Nat) : EngineArgs :=
  { view := s.opnd i c l 1, coords := coordsOf c l o.f2.toNat, addr := s.opnd i c l 3
    bar := if o.f4 = 255 then none else some (s.opnd i c l 4) }

theorem engine_met {i : Instr} (s : State) (o : XOps) (op : EngineOp) (h1 : readyB s i = true)
    (h2 : engineForm i s (theCrew s) ((theExe s i).headD 0) = some (o, op))
    (h3 : (s.prepare 0 (theCrew s) op (argsIn s i o (theCrew s) ((theExe s i).headD 0))).toBool = true) : EngineMet i :=
  ⟨s, 0, theCrew s, theLanes s, o, op, _, _, issues_of_ready h1, h2, except_of (d := (emptyCmd, [])) h3⟩

theorem meets_EngineCommands_xld : EngineMet (.xld 1 { f1 := 1, f2 := 2, f3 := 3, f4 := 4 }) :=
  engine_met engineBench _ (.xld 1) (by decide) rfl (by decide +kernel)
theorem meets_EngineCommands_xst : EngineMet (.xst { f1 := 1, f2 := 2, f3 := 3, f4 := 255 }) :=
  engine_met engineBench _ .xst (by decide) rfl (by decide +kernel)
theorem meets_EngineCommands_xsc : EngineMet (.xsc { f1 := 6, f2 := 2, f3 := 3, f4 := 4 }) :=
  engine_met engineBench _ .xsc (by decide) rfl (by decide +kernel)
theorem meets_EngineCommands_get : EngineMet (.xfar true { f1 := 1, f2 := 2, f3 := 3, f4 := 4, f5 := 5 }) :=
  engine_met engineBench { f1 := 1, f2 := 2, f3 := 3, f4 := 4, f5 := 5 } (.get 6) (by decide) (by decide) (by decide +kernel)
theorem meets_EngineCommands_put : EngineMet (.xfar false { f1 := 1, f2 := 2, f3 := 3, f4 := 4, f5 := 5 }) :=
  engine_met engineBench { f1 := 1, f2 := 2, f3 := 3, f4 := 4, f5 := 5 } (.put 6) (by decide) (by decide) (by decide +kernel)

/-- A request buffer of two records at scratch address 0x400: an `xst` in the second, an `xld` in the first. -/
def requests : State :=
  inScratch engineBench [(0x400, viewWord 0x3000100), (0x408, int 0x1E0), (0x410, int 0), (0x418, int 0), (0x420, int 0), (0x428, int 0x80),
    (0x430, int 0x200), (0x438, int 0), (0x440, viewWord 0x3000100), (0x448, int 0xE1), (0x450, int 0), (0x458, int 0), (0x460, int 0),
    (0x468, int 0x80), (0x470, int 0x200), (0x478, int 0)]
def requester : State := { requests with crews := (three [] [] [] (row 7 [int 0x400] ++ row 8 [int 3])).crews }

theorem meets_EngineCommands_xreq : ∃ count cap o s ci c lanes k0 tg gr pg cmds, Issues s (.xreq count cap o) ci c lanes ∧
    let i : Instr := .xreq count cap o
    let l := (execLanes i c lanes).headD 0
    let idx := s.opnd i c l 2
    (s.opnd i c l 1).tag = .int ∧ idx.tag = .int ∧ 0 ≤ idx.payload.toInt ∧
    let last := ((List.range count.toNat).map fun j => (idx.payload.toNat + j) % cap.toNat).foldl max 0
    s.scratchAddr c (s.opnd i c l 1).payload (64 * (last + 1)) 64 = .ok k0 tg gr pg ∧
    (∀ k ∈ reqKeys k0 cap.toNat idx.payload.toNat count.toNat, s.mustWait ci k 64 = false ∧ s.absentIn k 64 = []) ∧
    s.reqRun ci c (fun k => .ok (k0 + 64 * (k % cap.toNat)) true 1 none) count.toNat idx.payload.toNat = (cmds, none) :=
  ⟨2, 2, { f1 := 7, f2 := 8 }, requester, 0, _, _, 2 ^ 56 + 0x400, true, 1, none,
    (requester.reqRun 0 (theCrew requester) (fun k => .ok (2 ^ 56 + 0x400 + 64 * (k % 2)) true 1 none) 2 3).1,
    issues_of_ready (by decide), by decide, by decide, by decide, by decide, by decide, Prod.ext rfl (by decide +kernel)⟩

/-- The same bench with another coordinate. -/
def engineAt (n : Nat) : State :=
  { engineBench with crews := (three [viewWord 0x3000100] [int n] [int 64] (row 4 [int 0x200] ++ row 5 [int 6] ++ row 6 [viewWord 0x3000180])).crews }
/-- A command as the instruction hands it over, waiting in cluster 0's queue. -/
def waitingAt (n : Nat) (i : Instr) : State := match exec i (engineAt n) with
  | .next t => t
  | _ => engineBench
def waitingLoad : State := waitingAt 8 (.xld 1 { f1 := 1, f2 := 2, f3 := 3, f4 := 255 })
/-- The same once it has been issued. -/
def issuedAt (n : Nat) (i : Instr) : State := match execEngineIssueEvent 0 (waitingAt n i) with
  | .next t => t
  | _ => engineBench

theorem meets_EngineTransfers_issue : ∃ (cl : Nat) (s : State) (q : EngineCmd) (rest : List EngineCmd),
    (s.engine cl).pend = q :: rest ∧ s.canIssue cl q = true ∧ q.absents ≠ [] ∧ (s.crew q.crew).wake = some .engine := by
  have h : ((waitingLoad.engine 0).pend.length == 1 && waitingLoad.canIssue 0 ((waitingLoad.engine 0).pend.headD emptyCmd)
      && !((waitingLoad.engine 0).pend.headD emptyCmd).absents.isEmpty
      && (waitingLoad.crew ((waitingLoad.engine 0).pend.headD emptyCmd).crew).wake == some .engine) = true := by decide +kernel
  simp only [Bool.and_eq_true, beq_iff_eq, Bool.not_eq_true', List.isEmpty_eq_false_iff] at h
  obtain ⟨⟨⟨h1, h2⟩, h3⟩, h4⟩ := h
  obtain ⟨q, hp⟩ := List.length_eq_one_iff.1 h1
  rw [hp] at h2 h3 h4
  exact ⟨0, waitingLoad, q, [], hp, h2, h3, h4⟩

theorem meets_EngineTransfers_waits : ∃ (cl : Nat) (s : State) (q : EngineCmd) (rest : List EngineCmd),
    (s.engine cl).pend = q :: rest ∧ s.canIssue cl q = false :=
  ⟨0, { three [] [] [] with token := some 5, engines := [(0, { pend := [emptyCmd] })] }, emptyCmd, [], rfl, by decide⟩

/-- The only command of cluster 0's engine, and its next sector. -/
def firstCmd (s : State) : EngineCmd := (s.engine 0).queue.headD emptyCmd
def firstSector (s : State) : Sector := (firstCmd s).sectors.headD {}

theorem turn_first {s : State} (h : (decide (s.turns 0 = [0]) && !(s.engine 0).queue.isEmpty && !(firstCmd s).sectors.isEmpty) = true) :
    s.turn 0 = some (0, firstCmd s) ∧ (firstCmd s).sectors = firstSector s :: (firstCmd s).sectors.drop 1 := by
  simp only [Bool.and_eq_true, decide_eq_true_eq, Bool.not_eq_true', List.isEmpty_eq_false_iff] at h
  obtain ⟨⟨h1, h2⟩, h3⟩ := h
  constructor
  · obtain ⟨q, rest, hq⟩ := List.exists_cons_of_ne_nil h2
    simp [State.turn, h1, hq, firstCmd, Nat.mod_one]
  · obtain ⟨x, xs, hx⟩ := List.exists_cons_of_ne_nil h3
    simp [firstSector, hx]

/-- A sector whose turn has come, with something said of it and its command. -/
def TurnWith (p : State → EngineCmd → Sector → Bool) : Prop := ∃ (cl : Nat) (s : State) (n : Nat) (q : EngineCmd) (x : Sector) (xs : List Sector),
  s.turn cl = some (n, q) ∧ q.sectors = x :: xs ∧ p s q x = true

theorem turn_with {p : State → EngineCmd → Sector → Bool} (s : State)
    (h : (decide (s.turns 0 = [0]) && !(s.engine 0).queue.isEmpty && !(firstCmd s).sectors.isEmpty) = true)
    (hp : p s (firstCmd s) (firstSector s) = true) : TurnWith p := ⟨0, s, 0, _, _, _, (turn_first h).1, (turn_first h).2, hp⟩

/-- What the statement asks of a sector that is written. -/
def writable (s : State) (q : EngineCmd) (x : Sector) : Bool :=
  q.far.isNone && !s.sectorLocked x && decide (x.bytes.map EByte.key).Nodup && !x.bytes.isEmpty &&
    x.bytes.all fun b => decide (b.key + 1 ≤ Config.windowBase + 0x2010) || decide (Config.windowBase + 0x10000 ≤ b.key)

theorem meets_EngineTransfers_write : TurnWith fun s q x => writable s q x && x.present.isSome && x.barrier.isNone :=
  turn_with (issuedAt 8 (.xld 1 { f1 := 1, f2 := 2, f3 := 3, f4 := 255 })) (by decide +kernel) (by decide +kernel)

theorem meets_EngineTransfers_barrier : TurnWith fun s q x => writable s q x && x.barrier.isSome :=
  turn_with (issuedAt 8 (.xld 1 { f1 := 1, f2 := 2, f3 := 3, f4 := 4 })) (by decide +kernel) (by decide +kernel)

theorem meets_EngineTransfers_locked : TurnWith fun s q x => q.far.isNone && s.sectorLocked x :=
  turn_with { issuedAt 8 (.xst { f1 := 1, f2 := 2, f3 := 3, f4 := 255 }) with locks := [0x400208 / 128] } (by decide +kernel) (by decide +kernel)

theorem meets_EngineTransfers_put : TurnWith fun _ q x => decide (q.far = some (6, false)) && !x.bytes.isEmpty :=
  turn_with (issuedAt 8 (.xfar false { f1 := 1, f2 := 2, f3 := 3, f4 := 255, f5 := 5 })) (by decide +kernel) (by decide +kernel)

theorem meets_EngineTransfers_get : TurnWith fun _ q x => decide (q.far = some (6, true)) && (match x.farBody true with
    | .readBytes os => !os.isEmpty
    | _ => false) :=
  turn_with (issuedAt 8 (.xfar true { f1 := 1, f2 := 2, f3 := 3, f4 := 255, f5 := 5 })) (by decide +kernel) (by decide +kernel)

/-- A box outside the view. -/
theorem meets_EngineTransfers_nothing : TurnWith fun _ q x => decide (q.far = some (6, false)) && x.bytes.isEmpty && x.barrier.isNone :=
  turn_with (issuedAt 40 (.xfar false { f1 := 1, f2 := 2, f3 := 3, f4 := 255, f5 := 5 })) (by decide +kernel) (by decide +kernel)

/-- An element, the last one and one past the end. -/
def fetchBench : State := withViews (three (List.replicate 3 (viewWord 0x3000100)) [int 0, int 39, int 40] [])
def fetched : (State × Crew) × Except Bad (List LaneOut) :=
  fldRun .elem { f0 := 7, f1 := 1, f2 := 2 } (.fld .elem { f0 := 7, f1 := 1, f2 := 2 }) [0, 1, 2] fetchBench (theCrew fetchBench)

theorem fetched_ok {α β γ δ : Type} {x : (α × β) × Except γ δ} {d : δ} (h : x.2.toBool = true) : x = ((x.1.1, x.1.2), .ok (x.2.toOption.getD d)) :=
  Prod.ext rfl (except_of h)

theorem meets_FetchedElements : ∃ mode o s ci c lanes s1 b outs, Issues s (.fld mode o) ci c lanes ∧ atOnce (.fld mode o) ∧
    let i : Instr := .fld mode o
    let exe := execLanes i c lanes
    fldRun mode o i exe s c = ((s1, b), .ok outs) ∧ (∀ x ∈ outs, x.trap = none) ∧
    Room s ci b (s.changed i c exe fun l => (outOf outs l).writes) := by
  refine ⟨.elem, { f0 := 7, f1 := 1, f2 := 2 }, fetchBench, 0, _, _, fetched.1.1, fetched.1.2, fetched.2.toOption.getD [],
    issues_of_ready (by decide), atOnce_of (by decide), fetched_ok (x := fetched) (by decide +kernel), by decide +kernel, by unfold Room; decide +kernel⟩

/-- The view of the bench, as its lanes find it. -/
def benchView : View :=
  ((fetchedBytes fetchBench (theCrew fetchBench) 0x3000100 128).bind fun r => parseView r.1 false).getD ⟨0, .u8, 0, 0, false, 0, [], [], [], 0⟩
def benchCoord (l : Nat) : List Int := [if l = 0 then 0 else if l = 1 then 39 else 40]

theorem meets_FetchedElements_memory : ∃ mode o s ci c lanes, ∃ (v : Nat → View) (cs : Nat → List Int), Issues s (.fld mode o) ci c lanes ∧
    atOnce (.fld mode o) ∧
    let i : Instr := .fld mode o
    let exe := execLanes i c lanes
    NoStale s (c.core / 4) ∧
    (∀ l ∈ exe, ∃ a bs tag, viewAddr (s.opnd i c l 1) = .ok a ∧ fetchedBytes s c (BitVec.ofNat 64 a) 128 = some (bs, tag) ∧
      parseView bs false = some (v l) ∧ coordsOf c l o.f2.toNat (v l).rank = .ok (cs l) ∧
      ∃ w broken, Delivered s c (v l) (cs l) mode w broken) := by
  refine ⟨.elem, { f0 := 7, f1 := 1, f2 := 2 }, fetchBench, 0, theCrew fetchBench, theLanes fetchBench, fun _ => benchView, benchCoord,
    issues_of_ready (by decide), atOnce_of (by decide), fun sec _ h => absurd h (by simp [fetchBench, withViews, inRaw, three, bench, State.pokeBytes, SMap.get?]), ?_⟩
  have key : ∀ l ∈ [0, 1, 2], viewAddr (fetchBench.opnd (.fld .elem { f0 := 7, f1 := 1, f2 := 2 }) (theCrew fetchBench) l 1) = .ok 0x3000100 ∧
      (fetchedBytes fetchBench (theCrew fetchBench) 0x3000100 128).isSome = true ∧
      ((fetchedBytes fetchBench (theCrew fetchBench) 0x3000100 128).bind fun r => parseView r.1 false).isSome = true ∧
      coordsOf (theCrew fetchBench) l 2 benchView.rank = .ok (benchCoord l) ∧
      ((elementFetched fetchBench (theCrew fetchBench) benchView (benchCoord l)).any fun e => !e.traps) = true := by decide +kernel
  intro l hl
  obtain ⟨h1, h2, h3, h4, h5⟩ := key l hl
  obtain ⟨⟨bs, tag⟩, hb⟩ := Option.isSome_iff_exists.1 h2
  obtain ⟨e, he, ht⟩ := (Option.any_eq_true _ _).1 h5
  have hv : parseView bs false = some benchView := by
    rw [hb] at h3
    obtain ⟨v, hv⟩ := Option.isSome_iff_exists.1 h3
    simp only [Option.bind_some] at hv
    unfold benchView
    rw [hb, Option.bind_some, hv, Option.getD_some]
  exact ⟨_, bs, tag, h1, hb, hv, h4, _, _, ⟨e, he, rfl, by simpa using ht, rfl⟩⟩

/-! ## The lift, device launch, services -/

def withLift (s : State) (n : Nat) (en : Bool) : State :=
  { s with lifts := [(0, { entries := (List.range n).map fun j => (int j, f32 j), asid := 1, en := en })] }

theorem meets_LiftAndDeviceLaunch_wput : ∃ o s ci c lanes, let i : Instr := .wput o
    Issues s i ci c lanes ∧ (∀ l ∈ execLanes i c lanes, (s.opnd i c l 1).isHeader = false ∧ (s.opnd i c l 2).isHeader = false) :=
  ⟨{ f0 := 7, f1 := 1, f2 := 2 }, withLift (three [int 1, int 2, .nil] [f32 1, .undef, int 3] []) 2 true, 0, _, _, issues_of_ready (by decide), by decide⟩

theorem meets_LiftAndDeviceLaunch_wget : ∃ o s ci c lanes, Issues s (.wget o) ci c lanes :=
  ⟨{ f0 := 7 }, withLift (three [] [] []) 2 true, 0, _, _, issues_of_ready (by decide)⟩

/-- A launch record at 0x3000300: a grid of 1 × 1 × 1 teams of 1 crew. -/
def withRecord (s : State) : State :=
  inRaw s 0x300 (leBytes 8 0x1000000 ++ leBytes 8 (0x1000 * 2 ^ 32) ++ List.replicate 24 0 ++ leBytes 8 (2 ^ 32 + 2 ^ 16 + 1)
    ++ leBytes 8 (24 * 2 ^ 16 + 2 ^ 8 + 1) ++ leBytes 8 0x1000 ++ leBytes 8 (5 * 2 ^ 8) ++ leBytes 8 1 ++ List.replicate 48 0)

theorem meets_LiftAndDeviceLaunch_lnch : ∃ o s ci c lanes k tg gr pg, Issues s (.lnch o) ci c lanes ∧
    let i : Instr := .lnch o
    let w := s.opnd i c ((execLanes i c lanes).headD 0) 1
    w.tag = .int ∧ s.globalAddr c w.payload 128 true false = .ok k tg gr pg ∧
    (s.parseRecord (fun j => Memory.nat s.mem (k + 8 * j) 8) (.device c.team c.core) (some (s.asidOf c))).isSome = true :=
  ⟨{ f0 := 7, f1 := 1 }, withRecord (three [int 0x3000300] [] []), 0, _, _, 0x400300, false, 0, some ⟨0x3000000, 65536, 0x40000F⟩,
    issues_of_ready (by decide +kernel), by decide +kernel, by decide +kernel, by decide +kernel⟩

/-- A service ring of 32 records at 0x4000000, in the coherent window, with TAIL and HEAD. -/
def withRing (s : State) (tail head : Nat) : State :=
  { s.pokeBytes 0xF000000000 (leBytes 8 32 ++ leBytes 8 tail ++ leBytes 8 head ++ List.replicate 8 0 ++ leBytes 8 0x107 ++ List.replicate 24 0) with
    tlb := s.tlb ++ [⟨0, 1, 0x4000000, 65536, 0xF00000000F⟩]
    crews := s.crews.map fun c => { c with svcq := 0x4000000 } }

/-- Room for three records, and for two only. -/
theorem meets_ServiceCalls : ∀ tail ∈ [29, 30], ∃ n lk o s ci c lanes r, Issues s (.svc n lk o) ci c lanes ∧
    s.ringAt c.core (s.asidOf c) c.svcq.toNat = some r ∧ r.room (execLanes (.svc n lk o) c lanes).length = decide (tail = 29) := by
  intro tail h
  simp only [List.mem_cons, List.not_mem_nil, or_false] at h
  rcases h with rfl | rfl
  · exact ⟨5, 2, { d := 7, a := 1 }, withRing (three [int 1, f32 2, .nil] [] []) 29 0, 0, _, _, ⟨0xF000000000, 32, 29, 0, 0x107⟩,
      issues_of_ready (by decide), by decide +kernel, by decide⟩
  · exact ⟨5, 2, { d := 7, a := 1 }, withRing (three [int 1, f32 2, .nil] [] []) 30 0, 0, _, _, ⟨0xF000000000, 32, 30, 0, 0x107⟩,
      issues_of_ready (by decide), by decide +kernel, by decide⟩

/-! ## Special registers -/

/-- `sets` of every register it may name, with the lowest lane's word. -/
theorem meets_SpecialRegisters : ∀ r ∈ [SReg.htab, .svcq, .hregion, .nbase, .nlimit, .xi, .fpflags, .formatflag], ∃ o s ci c lanes,
    let i : Instr := .sets r o
    let exe := execLanes i c lanes
    Issues s i ci c lanes ∧ (∀ l ∈ exe, (s.opnd i c l 1).tag = .int ∧ (r = .htab → (s.opnd i c l 1).payload.toNat % 8 = 0)) ∧
    Room s ci c (s.changed i c exe fun _ => []) := by
  intro r _
  refine ⟨{ a := 1 }, three [int 0x48, int 0x50, int 0] [] [], 0, _, _, issues_of_ready ?_, ?_, ?_⟩
  · cases r <;> decide
  · cases r <;> decide
  · unfold Room; cases r <;> decide

theorem meets_SpecialRegistersAndProfile_prof : ∃ n s ci c lanes, Issues s (.prof n) ci c lanes ∧ (s.gridOf c).prof = true ∧
    Room s ci { c with chunk := { c.chunk with prof := c.chunk.prof ++ [⟨s.clock, n⟩] } } (s.changed (.prof n) c (execLanes (.prof n) c lanes) fun _ => []) :=
  ⟨7, { three [] [] [] with grids := (three [] [] []).grids.map fun g => { g with prof := true } }, 0, _, _, issues_of_ready (by decide), by decide,
    by unfold Room; decide⟩

/-- Its ring may stand anywhere that stores reach; the crew's numbers fit their fields. -/
theorem meets_ServiceCalls_record : let c := (withRing (three [] [] []) 29 0).crew 0
    Lands 0xF000000000 (64 + 64 * 32) ∧ c.crewId < 2 ^ 8 ∧ (withRing (three [] [] []) 29 0).asidOf c < 2 ^ 16 ∧ c.core < 2 ^ 8 ∧ c.quad < 4 := by
  unfold Lands; decide +kernel

end Sys2Proof.Tests
end

