-- ==== Sys2Proof/Tests/WitnessWords.lean ====
section
/-! SUPPORT. For the statements about instruction words: states and operands that meet all their hypotheses together. -/

namespace Sys2Proof.Tests

-- One declaration at a time: the checks run together would hold too much memory.
set_option Elab.async false

open Sys2Proof Sys2Proof.Machine Sys2Proof.Claims

/-! ## Typed and generic words: a wrap at the edge of the format, lanes of different classes, infinities of both signs -/

theorem meets_TypedIntegerResults : ∃ f, integerResult (.iadd .i32 { d := 1, a := 1, b := 2 }) = some f ∧
    MeetsBy (.iadd .i32 { d := 1, a := 1, b := 2 }) (fun w => some (f w, 0)) :=
  ⟨_, rfl, rule_met (three [int 0x7FFFFFFF, .undef, int 5] [int 1, int 2, int 3] []) (by decide)⟩

theorem meets_TypedFloatResults : ∃ f, floatResult (.fadd .f32 .rup { d := 3, a := 1, b := 2 }) = some f ∧
    MeetsBy (.fadd .f32 .rup { d := 3, a := 1, b := 2 }) f :=
  ⟨_, rfl, rule_met (three [f32 0x3F800000, f32 0x7F800000, f32 1] [f32 1, f32 0xFF800000, f32 0x80000001] []) (by decide)⟩

theorem meets_GenericResults : isGeneric (.add .rne { d := 3, a := 1, b := 2 }) = true ∧
    MeetsBy (.add .rne { d := 3, a := 1, b := 2 }) (genericResult (.add .rne { d := 3, a := 1, b := 2 })) :=
  ⟨rfl, rule_met (three [int (2 ^ 63 - 2), f32 0x3F800000, int 4] [int 1, f32 0x40000000, int 5] []) (by decide)⟩

theorem meets_GenericResults_ident : ∃ s ci c lanes, ∃ ka kb : Nat → HKey, let i : Instr := .ident .rne { d := 3, a := 1, b := 2 }
    Issues s i ci c lanes ∧
    (∀ l ∈ execLanes i c lanes, (s.canon ci c (s.opnd i c l 1) false).2 = .ok (ka l) ∧ (s.canon ci c (s.opnd i c l 2) false).2 = .ok (kb l)) ∧
    let b := (eachLane (identLane i s ci) (execLanes i c lanes) c).1
    Room s ci b (s.changed i c (execLanes i c lanes) fun l => [(s.destOf i c l, boolWord (sameKey (ka l) (kb l)))]) :=
  ⟨three [int 3, int 4, int 5] [int 3, int 0, int 5] [], 0, _, _, fun l => ⟨int (3 + l), int (3 + l), 0⟩,
    fun l => if l = 1 then ⟨int 0, int 0, 0⟩ else ⟨int (3 + l), int (3 + l), 0⟩, issues_of_ready (by decide), by decide, by unfold Room; decide⟩

/-! ## Conversions -/

theorem meets_ConversionResults : ∃ f, convertResult (.cvt (.round .rz) .i8 .f32 { f0 := 3, f1 := 1 }) = some f ∧
    MeetsBy (.cvt (.round .rz) .i8 .f32 { f0 := 3, f1 := 1 }) f :=
  ⟨_, rfl, rule_met (three [f32 0x43000000, f32 0x7FC00000, f32 0xBF800000] [] []) (by decide)⟩

theorem meets_ConversionResults_pack : ∃ s ci c lanes, ∃ e : Nat → Nat → FRes × Flags, let i : Instr := .pack .i8 .rne 1 2 { f0 := 3, f1 := 1, f2 := 2 }
    Issues s i ci c lanes ∧ Fmt.packBits .i8 ≠ none ∧ (2 + 1 + 1) * Fmt.elemBits .i8 ≤ 64 ∧
    (∀ l ∈ execLanes i c lanes, ∀ k ≤ 1, packElem .rne .i8 (s.opnd i c l) k = some (e l k)) ∧
    Room s ci c (s.changed i c (execLanes i c lanes) fun l => [(s.destOf i c l, .nil)]) :=
  ⟨three [int 3, int 4, int 5] [int 300, int 0, int 5] [int 0, int 1, int 2], 0, _, _,
    fun l k => (packElem .rne .i8 (fun n => if n = 1 then int (3 + l) else if l = 0 then int 300 else if l = 1 then int 0 else int 5) k).getD (⟨0, 0⟩, 0),
    issues_of_ready (by decide), by decide, by decide, by decide, by unfold Room; decide⟩

theorem meets_ConversionResults_ef : ∃ f, Fmt.bin .f16 = some f ∧ Meets (.cvt .ef .f16 .f32 { f0 := 3, f1 := 1, f2 := 2 }) (fun s c _ l =>
    let i : Instr := .cvt .ef .f16 .f32 { f0 := 3, f1 := 1, f2 := 2 }
    (convertSource .f32 (s.opnd i c l 1)).map fun x =>
      let y := convertEF f x (binF32.decode ((s.opnd i c l 2).pay.toNat % 2 ^ 32))
      { writes := [(s.effSlot i c l 0, convertTarget .f16 y.1), (s.effSlot i c l 2, ⟨.f32, BitVec.ofNat 64 y.2⟩)], flags := y.1.flags }) :=
  ⟨_, rfl, rule_met (three [f32 0x3F800001] [f32 0x33000000] []) (by decide)⟩

/-! ## Collectives, control flow -/

theorem meets_CollectiveResults : Meets (.shfl .down true { d := 3, a := 1, b := 1 }) fun s c exe l =>
    (collectiveWord (.shfl .down true { d := 3, a := 1, b := 1 }) s c exe l).map fun w =>
      { writes := [(s.destOf (.shfl .down true { d := 3, a := 1, b := 1 }) c l, w)] } :=
  rule_met (three [int 10, int 11, int 12] [] []) (by decide)

theorem meets_CollectiveResults_scan : Meets (.scan .add false .i64 .rne { d := 3, a := 1 }) fun s c exe l =>
    (foldResult (.scan .add false .i64 .rne { d := 3, a := 1 }) s c exe l).map fun x =>
      { writes := [(s.destOf (.scan .add false .i64 .rne { d := 3, a := 1 }) c l, x.1)], flags := x.2 } :=
  rule_met (three [int 10, int 11, int 12] [] []) (by decide)

theorem meets_CollectiveResults_keys : ∃ s ci c lanes, ∃ (k : Nat → HKey) (w : Nat → TWord), let i : Instr := .matchKeys { d := 3, a := 1 }
    Issues s i ci c lanes ∧ (∀ l ∈ lanes, keyWord i s c lanes k l = some (w l)) ∧
    (∀ l ∈ lanes, (s.canon ci c (s.opnd i c l 1)).2 = .ok (k l)) ∧
    Room s ci (s.canonLanes i ci lanes c).1 (s.changed i c lanes (toDest s i c w)) :=
  ⟨three [int 7, int 8, int 7] [] [], 0, _, _, fun l => if l = 1 then ⟨int 8, int 8, 0⟩ else ⟨int 7, int 7, 0⟩,
    fun l => if l = 1 then int 2 else int 5, issues_of_ready (by decide), by decide, by decide, by unfold Room toDest; decide⟩

theorem meets_QuadExchange : Meets (.qswap 3 { d := 2, a := 1 }) fun s c _ l =>
    some { writes := [(s.destOf (.qswap 3 { d := 2, a := 1 }) c l,
      if (l ^^^ (3 : BitVec 2).toNat) ∈ c.bundle then s.opnd (.qswap 3 { d := 2, a := 1 }) c (l ^^^ (3 : BitVec 2).toNat) 1 else .undef)] } :=
  rule_met (three [int 10, int 11, int 12] [] []) (by decide)

theorem meets_QuadExchange_broadcast : Meets (.qbcast 3 { d := 2, a := 1 }) fun s c _ l =>
    some { writes := [(s.destOf (.qbcast 3 { d := 2, a := 1 }) c l,
      if 4 * (l / 4) + (3 : BitVec 2).toNat ∈ c.bundle then s.opnd (.qbcast 3 { d := 2, a := 1 }) c (4 * (l / 4) + (3 : BitVec 2).toNat) 1 else .undef)] } :=
  rule_met (three [int 10, int 11, int 12] [] []) (by decide)

theorem meets_QuadExchange_reserved : opByte 0x7200200010000000 = 0x72 ∧ 0x7200200010000000 / 2 ^ 52 % 16 = 0 ∧
    opByte 0x7340200010000000 = 0x73 ∧ 4 ≤ 0x7340200010000000 / 2 ^ 52 % 16 := by decide

/-- Division by zero, the minimum by −1, in both operations. -/
theorem meets_DivisionCorners : ∃ s ci c lanes, let i : Instr := .idiv .i32 { d := 3, a := 1, b := 2 }
    Issues s i ci c lanes ∧ ival .i32 (s.opnd i c 0 2) = 0 ∧ IVar.signed .i32 = true ∧
    ival .i32 (s.opnd i c 1 1) = -2 ^ (IVar.width .i32 - 1) ∧ ival .i32 (s.opnd i c 1 2) = -1 ∧
    Room s ci c (s.changed i c (execLanes i c lanes) (toDest s i c fun _ => .nil)) :=
  ⟨three [int 7, int 0x80000000, int 7] [int 0, int 0xFFFFFFFF, int 2] [], 0, _, _, issues_of_ready (by decide), by decide, by decide,
    by decide, by decide, by unfold Room toDest; decide⟩

/-- The same with a window: the result pends in a v register. -/
theorem meets_DivisionCorners_window : ∃ s ci c lanes, let i : Instr := .irem .u64 { d := 3, a := 1, b := 2, lk := 2 }
    Issues s i ci c lanes ∧ ival .u64 (s.opnd i c 0 2) = 0 ∧ i.lk ≠ 0 ∧ (∀ l ∈ execLanes i c lanes, s.destOf i c l < 224) ∧
    Room s ci c (s.changed i c (execLanes i c lanes) (toDest s i c fun _ => .nil)) :=
  ⟨three [int 7, int 8, int 7] [int 0, int 3, int 2] [], 0, _, _, issues_of_ready (by decide), by decide, by decide, by decide,
    by unfold Room toDest; decide⟩

theorem meets_ControlFlowResults : Meets (.brt ⟨1, false, 5⟩) (controlResult (.brt ⟨1, false, 5⟩)) :=
  rule_met (three [int 1, int 0, boolWord true] [] []) (by decide)

/-! ## Memory -/

/-- A byte access in the TAGGED page, in the RAW page and in scratch. -/
def tagSpot (off : Nat) : Spot := ⟨0x300000 + off, true, 0, some ⟨0x2000000, 65536, 0x30002F⟩⟩
def rawSpot (off : Nat) : Spot := ⟨0x400000 + off, false, 0, some ⟨0x3000000, 65536, 0x40000F⟩⟩
def scratchSpot (off : Nat) : Spot := ⟨2 ^ 56 + off, true, 1, none⟩

def addrs (base : Nat) : List TWord := [int base, int (base + 8), int (base + 16)]

theorem meets_LoadsAndPrefetch : ∃ i a o s ci c lanes, ∃ p : Nat → Spot, loadForm i = some (false, false, a, o) ∧ Issues s i ci c lanes ∧ atOnce i ∧
    (∀ l ∈ execLanes i c lanes, addressTags s i c o false l ∧ Reaches s c false (mAddress s i c o l) a.bytes false (p l) ∧ Open s ci (p l) a.bytes) ∧
    Room s ci (afterReads c (execLanes i c lanes) p a.bytes) (s.changed i c (execLanes i c lanes) fun l => toGroup s i c l [.nil]) :=
  ⟨.ld .w { d := 3, base := 1, off := 8 }, .w, { d := 3, base := 1, off := 8 }, three (addrs 0x2000000) [] [], 0, _, _, fun l => tagSpot (8 * l + 8),
    rfl, issues_of_ready (by decide), atOnce_of (by decide), by unfold addressTags Reaches Open; decide, by unfold Room; decide⟩

theorem meets_LoadsAndPrefetch_scratch : ∃ i a o s ci c lanes, ∃ p : Nat → Spot, loadForm i = some (true, false, a, o) ∧ Issues s i ci c lanes ∧ atOnce i ∧
    (∀ l ∈ execLanes i c lanes, addressTags s i c o false l ∧ Reaches s c true (mAddress s i c o l) a.bytes false (p l) ∧ Open s ci (p l) a.bytes) ∧
    Room s ci (afterReads c (execLanes i c lanes) p a.bytes) (s.changed i c (execLanes i c lanes) fun l => toGroup s i c l [.nil]) :=
  ⟨.lds .i8 { d := 3, base := 1 }, .i8, { d := 3, base := 1 }, three [int 0, int 0x7FF, int 0xFFF] [] [], 0, _, _,
    fun l => scratchSpot (if l = 0 then 0 else if l = 1 then 0x7FF else 0xFFF),
    rfl, issues_of_ready (by decide), atOnce_of (by decide), by unfold addressTags Reaches Open; decide, by unfold Room; decide⟩

/-- A mapped address, one that is not mapped and a far one. -/
theorem meets_LoadsAndPrefetch_prf : ∃ o s ci c lanes, let i : Instr := .prf o
    Issues s i ci c lanes ∧
    let key := fun (p : Page) l => p.key (mAddress s i c o l).toNat
    (∀ l ∈ execLanes i c lanes, addressTags s i c o false l ∧ ∀ p, prefetched s i c o l = some p → s.mustWait ci (key p l) 1 = false) ∧
    let b := (execLanes i c lanes).foldl (fun b l => match prefetched s i c o l with
      | some p => ((b.enterRead (key p l) 1 p.grain).meet (key p l) false p.tagged).usePage p
      | none => b) c
    b ≠ c ∧ Room s ci b (s.changed i c (execLanes i c lanes) fun _ => []) :=
  ⟨{ base := 1 }, three [int 0x2000001, int 0x9000000, int (2 ^ 63)] [] [], 0, _, _, issues_of_ready (by decide), by
      intro l hl
      have : l = 0 ∨ l = 1 ∨ l = 2 := by
        have : l ∈ [0, 1, 2] := hl
        simpa using this
      refine ⟨?_, fun pg _ => ?_⟩
      · unfold addressTags; rcases this with rfl | rfl | rfl <;> decide
      · rfl, by decide, by unfold Room; decide⟩

theorem meets_StoresAreBufferedAndSeen : ∃ i a o s ci c lanes, ∃ p : Nat → Spot, storeForm i = some (false, false, a, o) ∧ Issues s i ci c lanes ∧
    (∀ l ∈ execLanes i c lanes, addressTags s i c o false l ∧ (a ≠ .w ∨ ((storeData s i c a l).headD .nil).isHeader = false) ∧
      Reaches s c false (mAddress s i c o l) a.bytes true (p l) ∧ Open s ci (p l) a.bytes) ∧
    Room s ci (afterStores s i c a (execLanes i c lanes) p) (s.changed i c (execLanes i c lanes) fun _ => []) :=
  ⟨.st .w { d := 2, base := 1 }, .w, { d := 2, base := 1 }, three (addrs 0x3000000) [int 1, f32 2, .nil] [], 0, _, _, fun l => rawSpot (8 * l),
    rfl, issues_of_ready (by decide), by unfold addressTags Reaches Open; decide, by unfold Room; decide⟩

theorem meets_StoresAreBufferedAndSeen_scratch : ∃ i a o s ci c lanes, ∃ p : Nat → Spot, storeForm i = some (true, false, a, o) ∧ Issues s i ci c lanes ∧
    (∀ l ∈ execLanes i c lanes, addressTags s i c o false l ∧ (a ≠ .w ∨ ((storeData s i c a l).headD .nil).isHeader = false) ∧
      Reaches s c true (mAddress s i c o l) a.bytes true (p l) ∧ Open s ci (p l) a.bytes) ∧
    Room s ci (afterStores s i c a (execLanes i c lanes) p) (s.changed i c (execLanes i c lanes) fun _ => []) :=
  ⟨.sts .v16 { d := 2, base := 1 }, .v16, { d := 2, base := 1 }, three [int 0, int 16, int 0xFF0] [int 1, int 2, int 3] [int 4, int 5, int 6], 0, _, _,
    fun l => scratchSpot (if l = 2 then 0xFF0 else 16 * l),
    rfl, issues_of_ready (by decide), by unfold addressTags Reaches Open; decide, by unfold Room; decide⟩

/-- Objects at 0x2000000, 0x2000020, 0x2000040: SHAPE 1, SIZE 4; the third has an identity hash. -/
def withObjects (s : State) : State :=
  let put (s : State) (j : Nat) (hash : Nat) : State :=
    (s.pokeBytes (0x300000 + 32 * j) (leBytes 8 (2 ^ 40 + 4 * 2 ^ 24 + hash * 16))).pokeTag ((0x300000 + 32 * j) / 8) .hdr
  put (put (put s 0 0) 1 0) 2 0x77
def refs : List TWord := [⟨.ref, 0x2000000⟩, ⟨.ref, 0x2000020⟩, ⟨.ref, 0x2000040⟩]
def objectAt (l : Nat) : Object :=
  { addr := 0x2000000 + 32 * l, hdr := BitVec.ofNat 64 (2 ^ 40 + 4 * 2 ^ 24 + if l = 2 then 0x770 else 0), key := 0x300000 + 32 * l, grain := 0, tagged := true }

theorem meets_ObjectLoads : ∃ a o s ci c lanes, ∃ (x : Nat → Object) (p : Nat → Spot), let i : Instr := .ldf a o
    Issues s i ci c lanes ∧ atOnce i ∧ (∀ l ∈ execLanes i c lanes, FieldReaches s ci i c a o false l (x l) (p l)) ∧
    Room s ci (eachLane (ldfLane i a o c s ci) (execLanes i c lanes) c).1
      (s.changed i c (execLanes i c lanes) fun l => toGroup s i c l [.nil] ++ [(s.effSlot i c l 1, .nil)]) :=
  ⟨.w, { d := 3, base := 1, off := 24, ld := true }, withObjects (three refs [] []), 0, _, _, objectAt, fun l => tagSpot (32 * l + 24),
    issues_of_ready (by decide), atOnce_of (by decide), by unfold FieldReaches Resolves Open; decide, by unfold Room; decide⟩

theorem meets_ObjectLoads_hdrld : ∃ o s ci c lanes, ∃ x : Nat → Object, let i : Instr := .hdrld o
    Issues s i ci c lanes ∧ atOnce i ∧ (∀ l ∈ execLanes i c lanes, Resolves s ci c (s.opnd i c l 1) (x l)) ∧
    Room s ci (eachLane (hdrldLane i s ci) (execLanes i c lanes) c).1 (s.changed i c (execLanes i c lanes) fun l => [(s.destOf i c l, .nil)]) :=
  ⟨{ d := 3, base := 1 }, withObjects (three refs [] []), 0, _, _, objectAt,
    issues_of_ready (by decide), atOnce_of (by decide), by unfold Resolves; decide, by unfold Room; decide⟩

theorem meets_ObjectStores : ∃ a o s ci c lanes, ∃ (x : Nat → Object) (p : Nat → Spot), let i : Instr := .stf a o
    Issues s i ci c lanes ∧ (∀ l ∈ execLanes i c lanes, FieldReaches s ci i c a o true l (x l) (p l) ∧
      (a ≠ .w ∨ ((storeData s i c a l).headD .nil).isHeader = false)) ∧
    Room s ci (eachLane (stfLane i a o c s ci) (execLanes i c lanes) c).1 (s.changed i c (execLanes i c lanes) fun _ => []) :=
  ⟨.i8, { d := 2, base := 1, off := 31 }, withObjects (three refs [int 1, int 2, int 3] []), 0, _, _, objectAt, fun l => tagSpot (32 * l + 31),
    issues_of_ready (by decide), by unfold FieldReaches Resolves Open; decide, by unfold Room; decide⟩

theorem meets_ObjectStores_ihash : ∃ o s ci c lanes, ∃ (x : Nat → Object) (p : Nat → Option Page), let i : Instr := .ihash o
    Issues s i ci c lanes ∧
    (∀ l ∈ execLanes i c lanes, Resolves s ci c (s.opnd i c l 1) (x l) ∧
      s.globalAddr c (BitVec.ofNat 64 (x l).addr) 8 false true = .ok (x l).key (x l).tagged (x l).grain (p l)) ∧
    (∀ l ∈ execLanes i c lanes, ∀ k ∈ execLanes i c lanes, (x l).key = (x k).key → (x l).addr = (x k).addr) ∧
    Room s ci (eachLane (ihashLane i s ci) (execLanes i c lanes) c).1 (s.changed i c (execLanes i c lanes) fun l => [(s.destOf i c l, .nil)]) :=
  ⟨{ d := 3, a := 1 }, withObjects (three refs [] []), 0, _, _, objectAt, fun _ => some ⟨0x2000000, 65536, 0x30002F⟩,
    issues_of_ready (by decide), by unfold Resolves; decide, by decide, by unfold Room; decide⟩

/-! ## Spilling, allocation -/

theorem meets_SpillAndFill_spill : ∃ o s ci c lanes, ∃ (p : Spot) (b : Crew) (ws : List TWord), let i : Instr := .spill o
    let l := slotLane c (execLanes i c lanes)
    let image := spillImage (!p.tagged) ((List.range 32).map (c.readV o.d.toNat))
    Issues s i ci c lanes ∧ (∃ k ∈ execLanes i c lanes, (c.thread k).st ≠ .helper) ∧ addressTags s i c o false l ∧
    (mAddress s i c o l).toNat % 16 = 0 ∧ Reaches s c false (mAddress s i c o l) 8 true p ∧
    s.storeWords ci c (mAddress s i c o l) image.2 = .ok b ws ∧
    Room s ci { b with arch := { b.arch with spillFmt := SMap.put 0 b.arch.spillFmt o.d.toNat image.1 } } (s.changed i c (execLanes i c lanes) fun _ => []) := by
  refine ⟨{ d := 2, base := 1 }, three (addrs 0x2000100) [int 1, int 2, int 3] [], 0, _, _, tagSpot 0x100, _, _, issues_of_ready (by decide),
    by decide, by unfold addressTags; decide, by decide, by unfold Reaches; decide, words_of (by decide), by unfold Room; decide +kernel⟩

theorem meets_SpillAndFill_image : ∃ row : List TWord, row.length = 32 ∧ (∀ w ∈ row, makeWord w.tag w.payload = w) :=
  ⟨(List.range 32).map fun l => if l = 7 then .undef else int l, by decide, by decide⟩

theorem meets_SpillAndFill_fill : ∃ o s ci c lanes b ws row, let i : Instr := .fill o
    let l := slotLane c lanes
    Issues s i ci c lanes ∧ atOnce i ∧ (∃ k ∈ lanes, (c.thread k).st ≠ .helper) ∧ addressTags s i c o false l ∧
    (mAddress s i c o l).toNat % 16 = 0 ∧ (mAddress s i c o l).getLsbD 63 = false ∧
    s.readWords ci c (mAddress s i c o l) (imageWords (SMap.get 0 c.arch.spillFmt o.d.toNat)) = .ok b ws ∧
    (List.range 32).mapM (imageLane (SMap.get 0 c.arch.spillFmt o.d.toNat) ws) = some row ∧
    Room s ci b (lanes.flatMap (s.lastUses i c) ++ [o.d.toNat]) := by
  refine ⟨{ d := 2, base := 1 }, three (addrs 0x2000100) [int 1, int 2, int 3] [], 0, _, _, _, _, _, issues_of_ready (by decide),
    atOnce_of (by decide), by decide, by unfold addressTags; decide, by decide, by decide, words_of (by decide), some_of (d := []) (by decide), by unfold Room; decide⟩

/-- A package whose crew has a nursery. -/
def withNursery (s : State) (base limit : Nat) : State :=
  { s with crews := s.crews.map fun c =>
      let a : Arch := { c.arch with nbase := BitVec.ofNat 64 base, nlimit := BitVec.ofNat 64 limit }
      { c with arch := a, chunk := { start := a } } }

theorem meets_NurseryAllocation : ∃ o s ci c lanes b xs, let i : Instr := .alloc o
    Issues s i ci c lanes ∧ allocate s ci i (execLanes i c lanes) c = some (b, xs) ∧
    Room s ci b (s.changed i c (execLanes i c lanes) fun l => [(s.destOf i c l, makeWord .ref (addressOf l xs))]) := by
  refine ⟨{ d := 3, a := 1 }, withNursery (three [int (0x42 * 2 ^ 40 + 3 * 2 ^ 24), int (2 ^ 24), int (2 ^ 24 + 5)] [] []) 0x2000100 0x2000140, 0, _, _, _, _,
    issues_of_ready (by decide), some_pair (d := ({}, [])) (by decide +kernel), by unfold Room; decide +kernel⟩

theorem meets_NurseryAllocation_nurs : ∃ o s ci c lanes, let i : Instr := .nurs false o
    let exe := execLanes i c lanes
    Issues s i ci c lanes ∧
    (∀ l ∈ exe, (s.opnd i c l 1).tag = .int ∧ (s.opnd i c l 2).tag = .int ∧ (s.opnd i c l 1).payload.toNat ≤ (s.opnd i c l 2).payload.toNat ∧
      (s.opnd i c l 1).payload.toNat % 16 = 0 ∧ (s.opnd i c l 2).payload.toNat % 16 = 0) ∧
    Room s ci c (s.changed i c exe fun l => [(s.destOf i c l, .nil)]) :=
  ⟨{ d := 3, a := 1, b := 2 }, three [int 0x2000100, int 16, int 0] [int 0x2000100, int 32, int 0] [], 0, _, _,
    issues_of_ready (by decide), by decide, by unfold Room; decide⟩

theorem meets_NurseryAllocation_get : ∃ o s ci c lanes, let i : Instr := .nurs true o
    Issues s i ci c lanes ∧ Room s ci c (s.changed i c (execLanes i c lanes) fun l => [(s.destOf i c l, .nil)]) :=
  ⟨{ d := 3 }, three [] [] [], 0, _, _, issues_of_ready (by decide), by unfold Room; decide⟩

/-! ## Far operations, atomics, reductions -/

theorem meets_FenceAndHostFlush : ∃ s ci c lanes, Issues s .fence ci c lanes ∧ s.farPending ci = false :=
  ⟨three [] [] [], 0, _, _, issues_of_ready (by decide), by decide⟩

/-- One far store is not acknowledged. -/
theorem meets_FenceAndHostFlush_waits : ∃ s ci c lanes, Issues s .fence ci c lanes ∧ s.farPending ci = true :=
  ⟨{ three [] [] [] with far := [{ op := ⟨0, 5, 0, 0, 0, .write .i64 [int 1]⟩, plane := none, use := .store 0 }] }, 0, _, _,
    issues_of_ready (by decide), by decide⟩

theorem meets_FenceAndHostFlush_hflush : ∃ o s ci c lanes, let i : Instr := .hflush o
    Issues s i ci c lanes ∧ ∀ l ∈ execLanes i c lanes, addressTags s i c o false l ∧ (s.opnd i c l 0).tag = .int ∧
      (mAddress s i c o l).toNat < 2 ^ 63 ∧ (s.opnd i c l 0).payload.toNat ≤ 2 ^ 40 :=
  ⟨{ d := 2, base := 1 }, { three (addrs 0x3000000) [int 0, int 8, int (2 ^ 40)] [] with unflushed := [0x400000 / 128] }, 0, _, _,
    issues_of_ready (by decide), by unfold addressTags; decide⟩

/-- A page that may be written and not read. -/
theorem meets_FenceAndHostFlush_perm : ∃ o s ci c lanes a cause, let i : Instr := .hflush o
    Issues s i ci c lanes ∧ (∀ l ∈ execLanes i c lanes, addressTags s i c o false l ∧ (s.opnd i c l 0).tag = .int ∧
      (mAddress s i c o l).toNat < 2 ^ 63 ∧ (s.opnd i c l 0).payload.toNat ≤ 2 ^ 40) ∧
    s.mappedAll c.core (s.asidOf c) [(0x3000000, 0x3000080)] = .error (a, cause) :=
  ⟨{ d := 2, base := 1 }, { three (addrs 0x3000000) [int 8, int 0, int 0] [] with tlb := [⟨0, 1, 0x1000000, 65536, 0x200017⟩, ⟨0, 1, 0x3000000, 65536, 0x40000B⟩] },
    0, _, _, 0x3000000, 2, issues_of_ready (by decide), by unfold addressTags; decide, by decide⟩

/-- A host write of two words in one line. -/
theorem meets_FenceAndHostFlush_pieces : ∃ s : State, HostPieces s ∧ s.hostStores.length = 2 :=
  ⟨{ bench {} with hostStores := [⟨0x300000, leBytes 8 5⟩, ⟨0x300008, leBytes 8 6⟩] }, by unfold HostPieces; decide, rfl⟩

/-- One page of 64 KiB that the die has cached, and no tables. -/
theorem meets_FenceAndHostFlush_pages : ∃ (s : State) (core asid : Nat) (ranges : List (Nat × Nat)), WholePages s core asid ∧
    (∀ r ∈ ranges, r.1 % 128 = 0 ∧ r.2 % 128 = 0) ∧ (s.mappedAll core asid ranges).toBool = true := by
  let s : State := { tlb := [⟨0, 1, 0x2000000, 65536, 0x30000F⟩] }
  have at' (v : Nat) : s.xlate 0 1 v false false false =
      if 2 ^ 56 ≤ v then .fault 6 else if 0x2000000 ≤ v ∧ v < 0x2010000 then .ok ⟨0x2000000, 65536, 0x30000F⟩ else .fault 1 := by
    have u : (0 : Nat) ∈ tlbUnits 0 := by decide
    have find : s.tlb.find? (fun e => decide (e.asid = 1 ∧ e.base ≤ v ∧ v < e.base + e.size ∧ e.unit ∈ tlbUnits 0)) =
        if 0x2000000 ≤ v ∧ v < 0x2010000 then some ⟨0, 1, 0x2000000, 65536, 0x30000F⟩ else none := by
      by_cases h : 0x2000000 ≤ v ∧ v < 0x2010000
      · simp [s, List.find?, u, h]
      · have h' : ¬(0x2000000 ≤ v ∧ v < 0x2000000 + 65536) := h
        rw [if_neg h]
        simp only [s, List.find?, true_and, u, and_true, decide_eq_false h']
    have page : s.pageOf 0 1 v = if 0x2000000 ≤ v ∧ v < 0x2010000 then .ok ⟨0x2000000, 65536, 0x30000F⟩ else .fault 1 := by
      unfold State.pageOf
      rw [find]
      by_cases h : 0x2000000 ≤ v ∧ v < 0x2010000
      · rw [if_pos h, if_pos h]
      · rw [if_neg h, if_neg h]
        rfl
    unfold State.xlate
    rw [page]
    by_cases h : 0x2000000 ≤ v ∧ v < 0x2010000
    · rw [if_pos h]
      rfl
    · rw [if_neg h]
  refine ⟨s, 0, 1, [(0x2000080, 0x2000100), (0x3000000, 0x3000080)], ?_, by decide, by decide +kernel⟩
  intro v
  rw [at']
  split
  · exact ⟨fun p hp => (nomatch hp), fun k => (nomatch k)⟩
  · split
    · rename_i h
      refine ⟨fun p hp => ?_, fun k => (nomatch k)⟩
      cases hp
      refine ⟨h.1, h.2, by decide, by decide, by decide, fun u h1 h2 => ?_⟩
      have h2' : u < 0x2010000 := h2
      rw [at', if_neg (by omega), if_pos ⟨h1, h2'⟩]
    · exact ⟨fun p hp => (nomatch hp), fun _ u hu => by rw [at', if_neg (by omega), if_neg (by omega)]⟩

theorem meets_FarAccess : ∃ a o s ci c lanes, let i : Instr := .ldfar a o
    Issues s i ci c lanes ∧ ∀ l ∈ execLanes i c lanes, farChecks s i c a o l :=
  ⟨.v16, { d := 4, base := 1 }, three [int (2 ^ 63), int (2 ^ 63 + 2 ^ 42 + 16), int (2 ^ 63 + 32)] [] [], 0, _, _,
    issues_of_ready (by decide), by unfold farChecks addressTags; decide⟩

theorem meets_FarAccess_stfar : ∃ a o s ci c lanes, let i : Instr := .stfar a o
    Issues s i ci c lanes ∧ ∀ l ∈ execLanes i c lanes, farChecks s i c a o l ∧ (a ≠ .w ∨ ((storeData s i c a l).headD .nil).isHeader = false) :=
  ⟨.w, { d := 2, base := 1 }, three [int (2 ^ 63), int (2 ^ 63 + 2 ^ 42 + 16), int (2 ^ 63 + 32)] [int 1, .nil, f32 1] [], 0, _, _,
    issues_of_ready (by decide), by unfold farChecks addressTags; decide⟩

/-- Two lanes on one word of the TAGGED page, one far. -/
theorem meets_AtomicResults : ∃ i o x s ci c lanes, Issues s i ci c lanes ∧ atomForm s c i = some (o, x) ∧
    ∀ l ∈ execLanes i c lanes, match atomTarget i o x s c l with
      | .home k _ _ _ => s.mustWait ci k x.acc.bytes = false
      | .remote _ => True
      | _ => False := by
  refine ⟨.atom .add .i64 { d := 3, base := 1, idx := 2 }, { d := 3, base := 1, idx := 2 }, _,
    three [int 0x2000008, int 0x2000008, int (2 ^ 63 + 8)] [int 1, int 2, int 3] [], 0, _, _, issues_of_ready (by decide), rfl, ?_⟩
  intro l hl
  have : l ∈ [0, 1, 2] := hl
  simp only [List.mem_cons, List.not_mem_nil, or_false] at this
  rcases this with rfl | rfl | rfl
  · exact show State.mustWait _ _ _ _ = false from by decide
  · exact show State.mustWait _ _ _ _ = false from by decide
  · trivial

/-- Every lane's home target is aligned and lands. -/
theorem meets_AtomicResults_memory : ∃ i o x s c, atomForm s c i = some (o, x) ∧ theExe s i ≠ [] ∧
    ∀ l ∈ theExe s i, ∀ k tagged grain page, atomTarget i o x s c l = .home k tagged grain page → k % x.acc.bytes = 0 ∧ Lands k x.acc.bytes := by
  refine ⟨.atom .add .i64 { d := 3, base := 1, idx := 2 }, { d := 3, base := 1, idx := 2 }, _,
    three [int 0x2000008, int 0x2000008, int (2 ^ 63 + 8)] [int 1, int 2, int 3] [],
    theCrew (three [int 0x2000008, int 0x2000008, int (2 ^ 63 + 8)] [int 1, int 2, int 3] []), rfl, by decide, ?_⟩
  intro l hl
  have : l ∈ [0, 1, 2] := hl
  simp only [List.mem_cons, List.not_mem_nil, or_false] at this
  rcases this with rfl | rfl | rfl
  · intro k tagged grain page h
    cases h
    decide
  · intro k tagged grain page h
    cases h
    decide
  · intro k tagged grain page h
    exact nomatch h

theorem meets_ReductionsAndScratchAtomics : ∃ op ty o s ci c lanes, ∃ p : Nat → Spot, let i : Instr := .red op ty o
    let a := atomAcc op ty
    let va := fun l => (s.opnd i c l 1).payload + o.off.signExtend 64
    Issues s i ci c lanes ∧
    (∀ l ∈ execLanes i c lanes, ((s.opnd i c l 1).tag = .int ∨ (s.opnd i c l 1).tag = .raw) ∧
      s.globalAddr c (va l) a.bytes true true = .ok (p l).key (p l).tagged (p l).grain (p l).page ∧ s.mustWait ci (p l).key a.bytes = false) ∧
    Room s ci ((execLanes i c lanes).foldl (fun b l =>
      let b := (b.enterRed (p l).key a.bytes (p l).grain).usePage? (p l).page
      { b with chunk := { b.chunk with recs := b.chunk.recs ++ [.red op ty (p l).tagged [⟨l, (p l).key, (s.opnd i c l 0).pay⟩]] } }) c)
      (s.changed i c (execLanes i c lanes) fun _ => []) :=
  ⟨.add, .f32, { d := 2, base := 1, off := 4 }, three [int 0x3000000, int 0x3000000, int 0x3000008] [f32 1, f32 2, f32 3] [], 0, _, _,
    fun l => rawSpot (if l = 2 then 12 else 4), issues_of_ready (by decide), by decide, by unfold Room; decide⟩

theorem meets_ReductionsAndScratchAtomics_sato : ∃ op ty o s ci c lanes, ∃ p : Nat → Spot, let i : Instr := .sato op ty o
    let a := atomAcc op ty
    let va := fun l => (s.opnd i c l 1).payload + o.off.signExtend 64
    Issues s i ci c lanes ∧ atOnce i ∧
    (∀ l ∈ execLanes i c lanes, ((s.opnd i c l 1).tag = .int ∨ (s.opnd i c l 1).tag = .raw) ∧ (op = .xchg → (s.opnd i c l 2).isHeader = false) ∧
      Reaches s c true (va l) a.bytes true (p l) ∧ Open s ci (p l) a.bytes) ∧
    Room s ci (satoRun s i op ty p c (execLanes i c lanes) c).1 (s.changed i c (execLanes i c lanes) fun l => [(s.destOf i c l, .nil)]) :=
  ⟨.xchg, .i64, { d := 3, base := 1, idx := 2 }, three [int 8, int 8, int 0xFF8] [int 1, .nil, f32 3] [], 0, _, _,
    fun l => scratchSpot (if l = 2 then 0xFF8 else 8), issues_of_ready (by decide), atOnce_of (by decide), by unfold Reaches Open; decide,
    by unfold Room; decide⟩

end Sys2Proof.Tests
end

