-- ==== Sys2Proof/Tests/WitnessChunks.lean ====
section
/-! SUPPORT. For the statements about chunks, traps, macro bodies and regrouping: states that meet their hypotheses. -/

namespace Sys2Proof.Tests

-- One declaration at a time: the checks run together would hold too much memory.
set_option Elab.async false

open Sys2Proof Sys2Proof.Machine Sys2Proof.Claims

/-- The state an instruction answers. -/
def nextOf (d : State) : Out → State
  | .next t => t
  | _ => d
def isNext : Out → Bool
  | .next _ => true
  | _ => false
theorem next_of {x : Out} {d : State} (h : isNext x = true) : x = .next (nextOf d x) := by cases x <;> simp_all [isNext, nextOf]

/-! ## Threads and chunks -/

/-- The crew has issued a bundle in its chunk. -/
def dirtied (s : State) : State := { s with crews := s.crews.map fun c => { c with chunk := { c.chunk with bundles := 1 } } }

theorem meets_ThreadsAndChunkEnds_cbrk : ∃ s ci c lanes, Issues s .cbrk ci c lanes ∧ Room s ci c [] :=
  ⟨dirtied (three [] [] []), 0, _, _, issues_of_ready (by decide), by unfold Room; decide⟩
theorem meets_ThreadsAndChunkEnds_yield : ∀ d : Bool, ∃ s ci c lanes, Issues s .yield ci c lanes ∧ c.dirty = d ∧ Room s ci c []
  | true => ⟨dirtied (three [] [] []), 0, _, _, issues_of_ready (by decide), by decide, by unfold Room; decide⟩
  | false => ⟨three [] [] [], 0, _, _, issues_of_ready (by decide), by decide, by unfold Room; decide⟩

/-- Lanes 0 and 1 stand at the exit; lane 2, of their quad, is HELPER at another place; lane 4 runs on. -/
def exiting : State :=
  let ts : List Thread := (List.range 32).map fun l =>
    { pc := if l = 2 then 0x1000010 else if l = 4 then 0x1000018 else 0x1000000
      st := if l < 2 ∨ l = 4 then .active else if l = 2 then .helper else .exited }
  let a : Arch := { threads := ts }
  bench { alloc := 224, arch := a, chunk := { start := a } }

theorem meets_ThreadsAndChunkEnds_exit : ∀ h : Bool, ∃ s ci c lanes, let i : Instr := if h = true then .exitH else .exit
    Issues s i ci c lanes ∧ s.quad c.quadNo = { s.quad c.quadNo with regroup := [] } ∧ lanes = [0, 1]
  | true => ⟨exiting, 0, _, _, issues_of_ready (i := .exitH) (by decide), by decide, by decide⟩
  | false => ⟨exiting, 0, _, _, issues_of_ready (i := .exit) (by decide), by decide, by decide⟩

theorem meets_BundleFormation : ∃ c : Crew, (∃ l m, l < 32 ∧ m < 32 ∧ (c.thread l).pc ≠ (c.thread m).pc ∧ (c.thread l).live = true ∧ (c.thread m).live = true) ∧
    ∀ l m, (l < 32 ∧ ((c.thread l).st = .active ∨ (c.thread l).st = .helper)) → (m < 32 ∧ ((c.thread m).st = .active ∨ (c.thread m).st = .helper)) →
      (c.thread l).mstep = (c.thread m).mstep :=
  ⟨theCrew exiting, ⟨0, 2, by decide, by decide, by decide, by decide, by decide⟩, fun l m hl hm => by
    have h : ∀ n, n < 32 → ((theCrew exiting).thread n).mstep = 0 := by decide
    rw [h l hl.1, h m hm.1]⟩

/-- A chunk at its limit of bundles, after no squash and after three. -/
def longChunk (consec bundles : Nat) : State :=
  let s := three [] [] []
  { s with crews := s.crews.map fun c => { c with consec := consec, chunk := { c.chunk with bundles := bundles } } }
theorem meets_CommitGrantsAndToken_limit : ∀ p ∈ [(0, 4096), (3, 64)], ((longChunk p.1 p.2).crew 0).chunk.phase = .running ∧
    (if 3 ≤ ((longChunk p.1 p.2).crew 0).consec then 64 else 4096) ≤ ((longChunk p.1 p.2).crew 0).chunk.bundles := by decide

/-- Crew 0 commits: it needs arbiter 300 and holds 5. Crew 1 has asked for the token. -/
def committing (s : State) (needed held : List Nat) : State :=
  { s with
    crews := (s.crews.map fun c => { c with chunk := { c.chunk with phase := .committing needed held } }) ++ [{ (crewOf 1 []) with crewId := 1, quad := 1, consec := 6 }]
    grants := held.map fun a => (a, 0) }
theorem meets_CommitGrantsAndToken_grant : ∀ b : Bool, ∃ (s : State) (ci a : Nat) (rest held : List Nat), (s.crew ci).chunk.phase = .committing (a :: rest) held ∧
    ((s.tokenHeld ci = true ∨ (∃ g ∈ s.grants, g.1 = a)) ↔ b = true)
  | true => ⟨{ committing (three [] [] []) [300, 301] [5] with token := some 1 }, 0, 300, [301], [5], by decide, by decide⟩
  | false => ⟨committing (three [] [] []) [300, 301] [5], 0, 300, [301], [5], by decide, by decide⟩
theorem meets_CommitGrantsAndToken_request : ∃ (s : State) (ci : Nat), (s.crew ci).consec = 6 ∧ (s.crew ci).tokenAsked = false ∧ s.token ≠ some ci :=
  ⟨committing (three [] [] []) [300] [5], 1, by decide, by decide, by decide⟩
theorem meets_CommitGrantsAndToken_token : ∃ s : State, s.token = none ∧ s.grants = [] ∧ s.tokenQueue ≠ [] :=
  ⟨{ three [] [] [] with tokenQueue := [1, 0] }, by decide, by decide, by decide⟩

/-- The state of crew 0 after a store of three words, all its arbiters granted, with crew 1 having read one of those words. -/
def storing : State := three (addrs 0x2000000) [int 1, f32 2, .nil] []
def stored : State := nextOf storing (execSt .w { d := 2, base := 1 } storing)
def reader : State := nextOf storing (execLd .w { d := 3, base := 1 } (three [int 0x2000008, int 0x2000008, int 0x2000008] [] []))
def atCommit : State :=
  let held := (stored.crew 0).chunk.arbs
  { stored with
    crews := [{ stored.crew 0 with chunk := { (stored.crew 0).chunk with phase := .committing [] held } }, { reader.crew 0 with crewId := 1, quad := 1 }]
    grants := held.map fun a => (a, 0) }

/-- What every clause about a commit asks of the chunk. -/
def CommitMet (s : State) (ci : Nat) (held : List Nat) : Prop :=
  (s.crew ci).chunk.phase = .committing [] held ∧ s.tokenHeld ci = false ∧ s.commitWaits (s.crew ci).chunk = false ∧ ci < s.crews.length ∧
    (s.crew ci).homes = [] ∧ (s.crew ci).svcLeft = none ∧ ((s.crew ci).chunk.bytes.map Prod.fst).Nodup ∧
    ∀ e ∈ (s.crew ci).chunk.bytes, Lands e.1 1

theorem meets_ChunkCommits : ∃ (s : State) (ci : Nat) (held : List Nat), CommitMet s ci held ∧ (s.crew ci).chunk.recs = [] ∧
    (s.crew ci).chunk.prof = [] ∧ (s.crew ci).chunk.bytes ≠ [] ∧
    ∃ j, j ≠ ci ∧ j < s.crews.length ∧ (s.crew j).homes = [] ∧ (s.crew j).inFlight = true ∧
      commitMeets (s.crew ci).chunk.wsig (s.crew ci).chunk.dsig held (s.crew j) = true := by
  refine ⟨atCommit, 0, (stored.crew 0).chunk.arbs, ?_, ?_, ?_, ?_, 1, ?_, ?_, ?_, ?_, ?_⟩
  · unfold CommitMet Lands; decide +kernel
  all_goals decide +kernel

/-- Crew 0 commits a chunk that holds nothing but the records given. -/
def withRecords (s : State) (recs : List Deferred) (prof : List ProfRec) : State :=
  { s with crews := s.crews.map fun c => { c with chunk := { c.chunk with phase := .committing [] [], recs := recs, prof := prof } } }

/-- Two records of one word, and one of another. -/
theorem meets_ChunkCommits_red : ∃ (s : State) (ci : Nat) (held : List Nat), CommitMet s ci held ∧ (s.crew ci).chunk.prof = [] ∧
    OnlyReds s (s.crew ci).chunk.recs ∧ (s.crew ci).chunk.recs ≠ [] := by
  refine ⟨withRecords (three [] [] []) [.red .add .f32 false [⟨0, 0x400004, 0x3F800000⟩, ⟨1, 0x400004, 0x40000000⟩], .red .min .i64 true [⟨2, 0x300000, 5⟩]] [],
    0, [], by unfold CommitMet Lands; decide, rfl, ?_, by decide⟩
  intro d hd
  simp only [withRecords, three, bench, State.crew, List.map_cons, List.getD_cons_zero, List.mem_cons, List.not_mem_nil, or_false] at hd
  rcases hd with rfl | rfl
  · exact ⟨_, _, _, _, rfl, by decide, by unfold Lands; decide⟩
  · exact ⟨_, _, _, _, rfl, by decide, by unfold Lands; decide⟩

/-- The hypotheses about two `hacc` operands of the key of INT `n`. -/
def HaccMet (n : Nat) (s : State) : Prop := ∃ op core pages r0 rest held, CommitMet s 0 held ∧ (s.crew 0).chunk.prof = [] ∧ (s.crew 0).chunk.bytes = [] ∧
  (s.crew 0).chunk.tags = [] ∧ (s.crew 0).chunk.recs = [.hacc op core pages (r0 :: rest)] ∧ s.parked = [] ∧ (∃ l, l < 32 ∧ ((s.crew 0).thread l).st = .active) ∧
  (∀ r ∈ r0 :: rest, haccTagOk op r.x.tag = true ∧ r.x.tag = r0.x.tag) ∧ (∀ a ∈ r0 :: rest, ∀ b ∈ r0 :: rest, sameKey a.key b.key = true) ∧
  r0.key = keyOf n ∧ Laid (s.region core (s.crew 0).team) ∧ OneOrd (s.region core (s.crew 0).team) r0.key

def accumulating (n : Nat) : State :=
  withRecords (withPool (three [] [] []) heldRegion) [.hacc .add 0 [] [⟨0, keyOf n, f32 0x3F800000⟩, ⟨2, keyOf n, f32 0x40000000⟩]] []

theorem oneOrd_of (n : Nat) (hn : n = 24 ∨ n = 3 ∨ n = 9) : OneOrd heldRegion (keyOf n) := by
  rintro x v ⟨p, hx⟩ hs
  revert hs
  rcases hn with rfl | rfl | rfl <;> rcases heldRegion_entries hx with ⟨_, h⟩ | ⟨_, h⟩ | ⟨_, h⟩ <;> cases h <;> decide

theorem hacc_met (n : Nat) (hn : n = 24 ∨ n = 3 ∨ n = 9) : HaccMet n (accumulating n) := by
  refine ⟨.add, 0, [], _, _, [], ?_, rfl, rfl, rfl, rfl, rfl, ⟨0, by decide, rfl⟩, ?_, ?_, rfl, heldRegion_laid, oneOrd_of n hn⟩ <;>
    rcases hn with rfl | rfl | rfl <;> first | decide | (unfold CommitMet Lands; decide)

/-- A key held with a value of that tag, one held with another tag, and one whose home slot is free. -/
theorem meets_ChunkCommits_held : ∀ n ∈ [24, 3], HaccMet n (accumulating n) ∧ ∃ h u, HeldAt ((accumulating n).region 0 0) h u ∧ sameKey h (keyOf n) = true := by
  intro n hn
  simp only [List.mem_cons, List.not_mem_nil, or_false] at hn
  rcases hn with rfl | rfl
  · exact ⟨hacc_met _ (.inl rfl), _, _, ⟨2, rfl⟩, by decide⟩
  · exact ⟨hacc_met _ (.inr (.inl rfl)), _, _, ⟨1, rfl⟩, by decide⟩
theorem meets_ChunkCommits_placed : HaccMet 9 (accumulating 9) ∧
    SMap.get? ((accumulating 9).region 0 0).slots (homeSlot (keyOf 9) ((accumulating 9).region 0 0).b) = none := ⟨hacc_met _ (.inr (.inr rfl)), by decide⟩

/-- The trace ring of die 0 has 2 records, of which `n` wait. -/
def tracing (n : Nat) : State :=
  { withRecords (three [] [] []) [] [⟨77, 5⟩] with
    bar0 := [(0x3801020, 0x500000), (0x3801028, 2), (0x3801030, BitVec.ofNat 64 (8 + n)), (0x3801038, 8)] }
theorem meets_ChunkCommits_prof : ∀ n ∈ [1, 2], ∃ (ci : Nat) (held : List Nat) (p : ProfRec), CommitMet (tracing n) ci held ∧
    ((tracing n).crew ci).chunk.recs = [] ∧ ((tracing n).crew ci).chunk.bytes = [] ∧ ((tracing n).crew ci).chunk.tags = [] ∧
    ((tracing n).crew ci).chunk.prof = [p] ∧
    (((tracing n).bar 0x3801030 - (tracing n).bar 0x3801038).toNat = ((tracing n).bar 0x3801028).toNat ↔ n = 2) ∧
    Lands (((tracing n).bar 0x3801020).toNat + 16 * (((tracing n).bar 0x3801030).toNat % ((tracing n).bar 0x3801028).toNat)) 16 := by
  intro n hn
  simp only [List.mem_cons, List.not_mem_nil, or_false] at hn
  rcases hn with rfl | rfl <;> exact ⟨0, [], _, by unfold CommitMet Lands; decide, rfl, rfl, rfl, rfl, by decide, by unfold Lands; decide⟩

theorem meets_ChunksAreIsolated : ∃ i s ci c lanes t, Issues s i ci c lanes ∧ i.isWord = true ∧ i.cls ≠ .irrevocable ∧ i ≠ .exit ∧ i ≠ .exitH ∧
    exec i s = .next t ∧ (∀ k ∈ t.faults, k ∈ s.faults) :=
  ⟨.st .w { d := 2, base := 1 }, storing, 0, _, _, stored, issues_of_ready (by decide), by decide, by decide, by decide, by decide,
    next_of (by decide +kernel), by decide +kernel⟩

theorem meets_SquashRestores : ∃ (s : State) (ci : Nat), ci < s.crews.length ∧ (s.crew ci).homes = [] ∧ (s.crew ci).dirty = true ∧
    (s.crew ci).chunk.bytes ≠ [] := ⟨stored, 0, by decide +kernel, by decide +kernel, by decide +kernel, by decide +kernel⟩

/-! ## Long-latency results -/

theorem meets_LongLatencyResults : ∃ i f s ci c lanes, ∃ r : Nat → TWord × Flags,
    ((∃ g, integerResult i = some g ∧ f = fun w => some (g w, 0)) ∨ floatResult i = some f ∨ (isGeneric i = true ∧ f = genericResult i)) ∧
    i.cls = .speculative ∧ opTakesLk i.opcode = true ∧ i.lk ≠ 0 ∧ Issues s i ci c lanes ∧
    (∀ l ∈ execLanes i c lanes, f (s.opnd i c l) = some (r l)) ∧ (∀ l ∈ execLanes i c lanes, s.destOf i c l < 224) ∧
    Room s ci c (s.changed i c (execLanes i c lanes) (toDest s i c fun l => (r l).1)) := by
  refine ⟨.idiv .i32 { d := 1, a := 1, b := 2, lb := true, lk := 15 }, _, three [int 7, int 0x80000000, int 9] [int 2, int 5, int 3] [], 0, _, _, _,
    Or.inl ⟨_, rfl, rfl⟩, by decide, by decide, by decide, issues_of_ready (by decide), fun l _ => rfl, by decide, by unfold Room toDest; decide⟩

/-- Results of one lane: one with a register twice and a uniform register, one of a fill. -/
def pendingCrew : State :=
  let s := three [int 1] [] []
  { s with crews := s.crews.map fun c => { c with pend :=
      [{ lane := 1, opener := 7, dest := [9, 10, 225], writes := [⟨1, 9, int 5⟩, ⟨1, 9, int 6⟩, ⟨1, 10, .nil⟩, ⟨0, 225, int 2⟩], flags := 3, left := 4 },
       { lane := 0, opener := 7, dest := [9, 225], writes := [⟨0, 9, int 7⟩, ⟨0, 225, int 2⟩], left := 2 }] } }
theorem meets_LongLatencyResults_arrive : ∃ (s : State) (ci lane k : Nat) (p : Pending),
    ((s.crew ci).pend.filter fun p => p.lane == lane && !p.arrived)[k]? = some p ∧
    ci < s.crews.length ∧ (s.crew ci).homes = [] ∧ ∀ w ∈ p.writes, w.lane < 32 :=
  ⟨pendingCrew, 0, 1, 0, _, rfl, by decide, by decide, by decide⟩

/-! ## Traps -/

/-- The table's index for the sum of two INTs that leaves their class. -/
def sumIndex : Nat := 0x1000 + (Instr.add .rne {}).opcode * 256 + Tag.int.toNat * 16 + Tag.int.toNat

/-- A handler table at 0x3000400 with the handlers that the tests need. -/
def withHandlers (s : State) : State :=
  let s := { s with crews := s.crews.map fun c => { c with htab := 0x3000400 } }
  [0x01, 0x02, 0x07, 0x08, 0x0E, 0x0F, 0x11, 0x31, 0x33, 0x45, sumIndex].foldl (fun s k => inRaw s (0x400 + 8 * k) (leBytes 8 (0x1000800 + 8 * k))) s

def trapOf (l : Nat) : TrapReq := { lane := l, code := 0x33, v217 := int 1, v218 := f32 2, dest := 7, op := 0x20, next := 0x1000008 }

def entersB (s : State) (c : Crew) (t : TrapReq) : Bool := match s.fateIn c t with
  | .enter _ => true
  | _ => false
def enterPc (s : State) (c : Crew) (t : TrapReq) : BitVec 64 := match s.fateIn c t with
  | .enter pc => pc
  | _ => 0
theorem enters_of {s : State} {c : Crew} {t : TrapReq} (h : entersB s c t = true) : s.fateIn c t = .enter (enterPc s c t) := by
  unfold entersB at h; unfold enterPc; cases hf : s.fateIn c t <;> simp_all

theorem meets_HandlerEntry : ∃ (ci : Nat) (ts : List TrapReq) (s : State) (pc : TrapReq → BitVec 64), ts ≠ [] ∧ ci < s.crews.length ∧
    let c := s.crew ci
    c.place = .resident ∧ c.chunk.phase = .running ∧ c.doom = none ∧ c.homes = [] ∧ c.pend = [] ∧ c.arch.threads.length = 32 ∧
    (ts.map TrapReq.lane).Nodup ∧ ∀ t ∈ ts, t.lane < 32 ∧ s.fateIn c t = .enter (pc t) :=
  ⟨0, [trapOf 2, trapOf 0], withHandlers (three [] [] []), enterPc (withHandlers (three [] [] [])) ((withHandlers (three [] [] [])).crew 0), by decide, by decide,
    by decide, by decide, by decide, by decide, by decide, by decide, by decide, fun t ht => ⟨by revert t; decide, enters_of (by revert t; decide +kernel)⟩⟩

theorem meets_HandlerEntry_info : ∀ code ∈ [0x0C, 0x31, 0x33, 0xFF], ∃ t : TrapReq, t.code = code ∧ t.code < 256 ∧ t.dest < 256 ∧ t.op < 256 ∧ t.index < 2 ^ 14 :=
  fun code h => ⟨{ trapOf 0 with code := code, dest := 255, op := 255 }, rfl, by revert code; decide, by revert code; decide, by revert code; decide, by revert code; decide⟩

/-- A lane's result where `f` answers one; its entry into the handler of `t` elsewhere. -/
def mixedResult (f : Nat → Option LaneResult) (l : Nat) : LaneResult := (f l).getD {}
def mixedEntry (s : State) (c : Crew) (f : Nat → Option LaneResult) (t : Nat → TrapReq) (l : Nat) : Option (TrapReq × BitVec 64) :=
  if (f l).isSome then none else some (t l, enterPc s c (t l))

theorem mixed_of {s : State} {c : Crew} {f : Nat → Option LaneResult} {t : Nat → TrapReq} {exe : List Nat}
    (h : ∀ l ∈ exe, (f l).isSome = false → entersB s c (t l) = true) : ∀ l ∈ exe, match f l with
      | some x => mixedResult f l = x ∧ mixedEntry s c f t l = none
      | none => ∃ pc, mixedEntry s c f t l = some (t l, pc) ∧ s.fateIn c (t l) = .enter pc := by
  intro l hl
  cases hf : f l with
  | some x => simp [mixedResult, mixedEntry, hf]
  | none => exact ⟨enterPc s c (t l), by simp [mixedEntry, hf], enters_of (h l hl (by simp [hf]))⟩

/-- A sum within INT, one beyond it, and one of INT and F32. -/
def sums : State := withHandlers (three [int 1, int (2 ^ 63 - 1), int 1] [int 2, int 1, f32 0] [])
def sumOf (l : Nat) : Option LaneResult :=
  (genericResult (.add .rne { d := 4, a := 1, b := 2 }) (sums.opnd (.add .rne { d := 4, a := 1, b := 2 }) (theCrew sums) l)).map fun x =>
    { writes := [(sums.destOf (.add .rne { d := 4, a := 1, b := 2 }) (theCrew sums) l, x.1)], flags := x.2 }

theorem meets_HandlerEntry_generic : ∃ i s ci c lanes, ∃ (r : Nat → LaneResult) (q : Nat → Option (TrapReq × BitVec 64)), Issues s i ci c lanes ∧ atOnce i ∧
    isGeneric i = true ∧
    let exe := execLanes i c lanes
    (∀ l ∈ exe, match genericResult i (s.opnd i c l) with
      | some x => r l = { writes := [(s.destOf i c l, x.1)], flags := x.2 } ∧ q l = none
      | none => ∃ pc, q l = some (genericEntry i s c l, pc) ∧ s.fateIn c (genericEntry i s c l) = .enter pc) ∧
    Room s ci c (s.changed i c exe (fun l => (r l).writes) ++ [220, 217, 218, 219, 216]) ∧ exe.map (fun l => (q l).isSome) = [false, true, false] := by
  have h := mixed_of (s := sums) (c := theCrew sums) (f := sumOf) (t := genericEntry (.add .rne { d := 4, a := 1, b := 2 }) sums (theCrew sums))
    (exe := theExe sums (.add .rne { d := 4, a := 1, b := 2 })) (by decide +kernel)
  refine ⟨.add .rne { d := 4, a := 1, b := 2 }, sums, 0, _, _, mixedResult sumOf,
    mixedEntry sums (theCrew sums) sumOf (genericEntry (.add .rne { d := 4, a := 1, b := 2 }) sums (theCrew sums)), issues_of_ready (by decide), atOnce_of (by decide), rfl, (fun l hl => ?_ : ∀ l ∈ theExe sums _, _), ?_, ?_⟩
  · have := h l hl
    cases hg : genericResult (.add .rne { d := 4, a := 1, b := 2 }) (sums.opnd (.add .rne { d := 4, a := 1, b := 2 }) (theCrew sums) l) <;>
      simpa only [sumOf, hg, Option.map] using this
  · unfold Room; decide +kernel
  · decide +kernel

/-- A branch on a BOOL, on an F32 and on a NIL. -/
def branching : State := withHandlers (three [boolWord true, f32 1, .nil] [] [])
def branchOf (l : Nat) : Option LaneResult := controlResult (.brt ⟨1, false, 5⟩) branching (theCrew branching) (theExe branching (.brt ⟨1, false, 5⟩)) l

theorem meets_HandlerEntry_tag : ∃ i s ci c lanes f, ∃ (r : Nat → LaneResult) (q : Nat → Option (TrapReq × BitVec 64)), Issues s i ci c lanes ∧ atOnce i ∧
    tagRule i = some f ∧
    let exe := execLanes i c lanes
    (∀ l ∈ exe, match f s c exe l with
      | some x => r l = x ∧ q l = none
      | none => ∃ pc, q l = some (s.trapReq i c l 0x08, pc) ∧ s.fateIn c (s.trapReq i c l 0x08) = .enter pc) ∧
    Room s ci c (s.changed i c exe (fun l => (r l).writes) ++ [220, 217, 218, 219]) ∧ exe.map (fun l => (q l).isSome) = [false, true, true] :=
  ⟨.brt ⟨1, false, 5⟩, branching, 0, _, _, _, mixedResult branchOf,
    mixedEntry branching (theCrew branching) branchOf fun l => branching.trapReq (.brt ⟨1, false, 5⟩) (theCrew branching) l 0x08,
    issues_of_ready (by decide), atOnce_of (by decide), rfl, mixed_of (by decide +kernel), by unfold Room; decide +kernel, by decide +kernel⟩

/-- A load from a good address, from one not aligned, from a far one, and with a base that is no address. -/
def loadCode (l : Nat) : Nat := if l = 0 then 0x0E else if l = 1 then 0x0F else 0x08
def loading (lane : Nat) (w : TWord) : State := withHandlers (three ((addrs 0x2000000).set lane w) [] [])

def theLoad : Instr := .ld .w { d := 3, base := 1 }
def loadRead (s : State) (l : Nat) : LaneResult :=
  { writes := toGroup s theLoad (theCrew s) l (loaded .w true false (s.viewTag (theCrew s) ((tagSpot (8 * l)).key / 8)) (s.viewBytes (theCrew s) (tagSpot (8 * l)).key 8)) }
def loadEntry (s : State) (x l : Nat) : Option (TrapReq × BitVec 64) :=
  if l = x then some (s.trapReq theLoad (theCrew s) l (loadCode l), enterPc s (theCrew s) (s.trapReq theLoad (theCrew s) l (loadCode l))) else none

theorem meets_HandlerEntry_load : ∀ x ∈ [(0, int 0x2000004), (1, int (2 ^ 63)), (2, f32 0x2000000)],
    ∃ i a o s ci c lanes, ∃ (r : Nat → LaneResult) (q : Nat → Option (TrapReq × BitVec 64)) (p : Nat → Spot), Issues s i ci c lanes ∧ atOnce i ∧
      loadForm i = some (false, false, a, o) ∧
      let exe := execLanes i c lanes
      (∀ l ∈ exe, (∃ code, loadTrap i s c false false a o l code ∧ ∃ pc, q l = some (s.trapReq i c l code, pc) ∧ s.fateIn c (s.trapReq i c l code) = .enter pc) ∨
        (q l = none ∧ addressTags s i c o false l ∧ Reaches s c false (mAddress s i c o l) a.bytes false (p l) ∧ Open s ci (p l) a.bytes ∧
          r l = { writes := toGroup s i c l (loaded a (p l).tagged false (s.viewTag c ((p l).key / 8)) (s.viewBytes c (p l).key a.bytes)) })) ∧
      Room s ci (afterReads c (exe.filter fun l => (q l).isNone) p a.bytes) (s.changed i c exe (fun l => (r l).writes) ++ [220, 217, 218, 219]) ∧
      exe.filter (fun l => (q l).isSome) = [x.1] := by
  intro x hx
  simp only [List.mem_cons, List.not_mem_nil, or_false] at hx
  refine ⟨theLoad, .w, { d := 3, base := 1 }, loading x.1 x.2, 0, theCrew (loading x.1 x.2), theLanes (loading x.1 x.2), loadRead (loading x.1 x.2),
    loadEntry (loading x.1 x.2) x.1, fun l => tagSpot (8 * l), issues_of_ready ?_, atOnce_of (by decide), rfl, ?_, ?_, ?_⟩
  · rcases hx with rfl | rfl | rfl <;> decide
  · intro l hl
    have hm : l ∈ [0, 1, 2] := by rcases hx with rfl | rfl | rfl <;> exact hl
    simp only [List.mem_cons, List.not_mem_nil, or_false] at hm
    clear hl
    rcases hx with rfl | rfl | rfl <;> rcases hm with rfl | rfl | rfl
    all_goals first
      | exact .inl ⟨loadCode _, by unfold loadTrap addressTags; decide, _, rfl, enters_of (by decide +kernel)⟩
      | exact .inr ⟨rfl, by unfold addressTags; decide, by unfold Reaches; decide, by unfold Open; decide, rfl⟩
  · rcases hx with rfl | rfl | rfl <;> (unfold Room; decide +kernel)
  · rcases hx with rfl | rfl | rfl <;> decide +kernel

/-- The hypotheses about an instruction whose own effect is a trap. -/
def TrapMet (i : Instr) : Prop := ∃ s ci c lanes, ∃ (q : Nat → TrapReq) (pc : Nat → BitVec 64), Issues s i ci c lanes ∧
  (∀ l ∈ execLanes i c lanes, ownTrap i s c l = some (q l) ∧ s.fateIn c (q l) = .enter (pc l)) ∧
  Room s ci c ((execLanes i c lanes).flatMap fun _ => [220, 217, 218, 219])

def trapOn (i : Instr) (s : State) (l : Nat) : TrapReq := (ownTrap i s (theCrew s) l).getD (trapOf l)

theorem trap_met {i : Instr} (s : State) (h1 : readyB s i = true)
    (h2 : ∀ l ∈ theExe s i, (ownTrap i s (theCrew s) l).isSome = true ∧ entersB s (theCrew s) (trapOn i s l) = true)
    (h3 : Room s 0 (theCrew s) ((theExe s i).flatMap fun _ => [220, 217, 218, 219])) : TrapMet i :=
  ⟨s, 0, theCrew s, theLanes s, trapOn i s, fun l => enterPc s (theCrew s) (trapOn i s l), issues_of_ready h1,
    fun l hl => ⟨some_of (h2 l hl).1, enters_of (h2 l hl).2⟩, h3⟩

def handled : State := withHandlers (three [int 1, int 2, int 3] [] [])

theorem meets_TrapInstructions_trap : TrapMet (.trap 0x45 { d := 255, a := 1 }) :=
  trap_met handled (by decide) (by decide +kernel) (by unfold Room; decide)
theorem meets_TrapInstructions_bkpt : TrapMet (.bkpt 7) := trap_met handled (by decide) (by decide +kernel) (by unfold Room; decide)
theorem meets_TrapInstructions_illegal : TrapMet (.illegalInstruction 0x20 true) :=
  trap_met handled (by decide) (by decide +kernel) (by unfold Room; decide)
theorem meets_TrapInstructions_routed : TrapMet (.routedInstruction 0x1600000000000000) :=
  trap_met handled (by decide) (by decide +kernel) (by unfold Room; decide)

theorem meets_TrapInstructions_abort : ∃ n s ci c lanes, Issues s (.abort n) ci c lanes :=
  ⟨0xFFFF, handled, 0, _, _, issues_of_ready (by decide)⟩

def fatalB (s : State) (c : Crew) (t : TrapReq) : Option Nat := match s.fateIn c t with
  | .fatal n => some n
  | _ => none
theorem fatal_of {s : State} {c : Crew} {t : TrapReq} {n : Nat} (h : fatalB s c t = some n) : s.fateIn c t = .fatal n := by
  unfold fatalB at h; cases hf : s.fateIn c t <;> simp_all

theorem meets_TrapInstructions_fatal : ∃ i s ci c lanes, ∃ (q : Nat → TrapReq) (code : Nat), Issues s i ci c lanes ∧
    ∀ l ∈ execLanes i c lanes, ownTrap i s c l = some (q l) ∧ s.fateIn c (q l) = .fatal code :=
  ⟨.trap 0x45 { d := 255, a := 1 }, three [] [] [], 0, _, _, trapOn (.trap 0x45 { d := 255, a := 1 }) (three [] [] []), 0x45, issues_of_ready (by decide),
    fun l hl => ⟨some_of rfl, fatal_of (by revert l; decide)⟩⟩

/-! ## Macro bodies and routed words -/

/-- Macro 9 holds `iadd.i64 v221, v222, v223` and `st.w` of v221; byte 0x16 is routed to it, byte 0x17 to a routine at 0x40. -/
def withMacro (s : State) : State :=
  { s with grids := s.grids.map fun g => { g with
      bodies := [⟨9, [0x200DDDEDF0000000, 0x910DDDEFF0000008]⟩, ⟨3, [0x200DDDEDF0000000]⟩]
      routes := [⟨0x16, false, 3, 0⟩, ⟨0x17, true, 0, 0x40⟩] } }

def macroBench : State := withMacro (three [] [] [])

def macroSecond : State :=
  { macroBench with crews := macroBench.crews.map fun c => { c with arch := { c.arch with threads := c.arch.threads.map fun t => { t with mstep := 1 } } } }

theorem meets_Macros : ∀ j ∈ [0, 1], ∃ m o, ∃ (s : State) (ci : Nat) (c : Crew) (lanes : List Nat) (b : MacroBody) (w : BitVec 64), s.stand = some (ci, c, lanes) ∧
    let i : Instr := .mcall m o
    (c.thread (lanes.headD 0)).mstep = j ∧
    (s.gridOf c).bodies.find? (fun b => b.num == m.toNat) = some b ∧ s.staticTrap i c lanes = none ∧ b.ops[j]? = some w ∧
    (opFormat (w.toNat / 2 ^ 56) = some .r ∨ opFormat (w.toNat / 2 ^ 56) = some .i ∨ opFormat (w.toNat / 2 ^ 56) = some .m) := by
  intro j hj
  simp only [List.mem_cons, List.not_mem_nil, or_false] at hj
  rcases hj with rfl | rfl
  · exact ⟨9, { d := 4, a := 1, b := 2, la := true }, macroBench, 0, theCrew macroBench, theLanes macroBench, _, 0x200DDDEDF0000000,
      by decide, by decide, rfl, by decide, rfl, by decide⟩
  · exact ⟨9, { d := 4, a := 1, b := 2, la := true }, macroSecond, 0, theCrew macroSecond, theLanes macroSecond, _, 0x910DDDEFF0000008,
      by decide, by decide, rfl, by decide, rfl, by decide⟩

/-- A body whose operation marks a parameter as last used: the first source, here. -/
theorem meets_Macros_illegal : ∃ w : BitVec 64, opFormat (w.toNat / 2 ^ 56) = some .r ∧
    ∃ x ∈ markBits w, w.toNat / 2 ^ x.1 % 256 ∈ [221, 222, 223] ∧ w.getLsbD x.2 = true := ⟨0x200DDDEDF0080000, by decide, by decide⟩

theorem meets_RoutedWords_macro : ∃ w : BitVec 64, ∃ (s : State) (ci : Nat) (c : Crew) (lanes : List Nat) (r : Route), s.stand = some (ci, c, lanes) ∧
    (s.gridOf c).routes.find? (fun r => r.byte == BitVec.toNat w / 2 ^ 56) = some r ∧ (∀ l ∈ lanes, (c.thread l).region = false) ∧
    r.sub = false ∧ r.num < 256 ∧
    let o : ROps := { d := w.extractLsb' 44 8, a := w.extractLsb' 36 8, b := w.extractLsb' 28 8, la := w.getLsbD 19, lb := w.getLsbD 18,
                      xd := w.getLsbD 5, xa := w.getLsbD 4 }
    (Instr.mcall (BitVec.ofNat 8 r.num) o).wellFormed = true :=
  ⟨0x1600401020080000, macroBench, 0, theCrew macroBench, theLanes macroBench, ⟨0x16, false, 3, 0⟩, by decide, by decide, by decide, by decide, by decide, by decide⟩

theorem meets_RoutedWords_routine : ∃ w s ci c lanes r, Issues s (.routedInstruction w) ci c lanes ∧
    (s.gridOf c).routes.find? (fun r => r.byte == BitVec.toNat w / 2 ^ 56) = some r ∧ (∀ l ∈ lanes, (c.thread l).region = false) ∧
    r.sub = true ∧ Room s ci c [220, 217, 218, 219, 216] :=
  ⟨0x17FFFFF01FFFFFFF, macroBench, 0, _, _, ⟨0x17, true, 0, 0x40⟩, issues_of_ready (by decide), by decide, by decide, by decide, by unfold Room; decide⟩

/-! ## Regrouping -/

/-- Quadrant 0 with regrouping entries for the PCs given. -/
def withEntries (s : State) (pcs : List (BitVec 64)) : State :=
  { s with quads := [(0, { regroup := (List.range pcs.length).map fun k => (k, { team := 0, pc := pcs.getD k 0 }) })] }

theorem meets_Regrouping_full : ∃ s ci c lanes, Issues s .rgw ci c lanes ∧ c.arch.threads.length = 32 ∧ entryFor (s.quad c.quadNo) c.team c.pc = none :=
  ⟨withEntries (three [] [] []) [8, 16, 24, 32], 0, _, _, issues_of_ready (by decide), by decide, by decide⟩
theorem meets_Regrouping_joins : ∃ s ci c lanes e, Issues s .rgw ci c lanes ∧ c.arch.threads.length = 32 ∧ entryFor (s.quad c.quadNo) c.team c.pc = some e ∧
    lanes.filter (fun l => (c.thread l).st != .helper) ≠ [] :=
  ⟨withEntries (three [] [] []) [8, 0x1000000, 24, 32], 0, _, _, 1, issues_of_ready (by decide), by decide, by decide, by decide⟩
/-- Where only HELPER lanes arrive, none joins. -/
theorem meets_Regrouping_helpers : ∃ s ci c lanes e, Issues s .rgw ci c lanes ∧ c.arch.threads.length = 32 ∧ entryFor (s.quad c.quadNo) c.team c.pc = some e ∧
    lanes.filter (fun l => (c.thread l).st != .helper) = [] := by
  let a : Arch := { threads := (List.range 32).map fun l => { pc := if l = 0 then 0x1000010 else 0x1000000, st := if l = 0 then .active else if l < 4 then .helper else .exited } }
  exact ⟨withEntries (bench { alloc := 224, arch := a, chunk := { start := a } }) [8, 0x1000000], 0, _, _, 1, issues_of_ready (by decide), by decide, by decide, by decide⟩
theorem meets_Regrouping_end : ∃ s ci c lanes, Issues s .rgend ci c lanes ∧ c.arch.threads.length = 32 :=
  ⟨three [] [] [], 0, _, _, issues_of_ready (by decide), by decide⟩

/-- Two crews wait at one entry; lane 0 of both, lane 1 of the second. -/
def regrouping : State :=
  let waiting (k : Nat) : Crew :=
    let a : Arch := { threads := (List.range 32).map fun l => { pc := 0x1000000, st := if l < 2 then .regroup else .exited }
                      vregs := [(32, int (10 * k)), (33, int (10 * k + 1))] }
    { alloc := 224, crewId := k, slot := k, arch := a, chunk := { start := a } }
  { bench {} with
    crews := [waiting 4, waiting 8]
    quads := [(0, { regroup := [(2, { team := 0, pc := 0x1000000, waiting := [(0, 1), (1, 1), (0, 0)] })] })] }

theorem meets_Regrouping_fires : ∃ (q e : Nat) (s : State) (x : Regroup), SMap.get? (s.quad q).regroup e = some x ∧ s.fires q x = true ∧
    ∀ a ∈ x.waiting, a.1 < 32 ∧ SMap.sorted (s.crew a.2).arch.vregs = true ∧
      ∀ b ∈ x.waiting, a.1 = b.1 → (s.crew a.2).crewId = (s.crew b.2).crewId → a = b :=
  ⟨0, 2, regrouping, _, rfl, by decide, by decide⟩

/-- One that only one thread waits at, while others of its team can still come, does not fire. -/
theorem meets_Regrouping_waits : ∃ (q e : Nat) (s : State), ∀ x, SMap.get? (s.quad q).regroup e = some x → s.fires q x = false :=
  ⟨0, 2, { regrouping with
    quads := [(0, { regroup := [(2, { team := 0, pc := 0x1000000, waiting := [(0, 1)] })] })]
    crews := regrouping.crews ++ [theCrew (three [] [] [])] }, fun x h => by cases h; decide⟩

end Sys2Proof.Tests
end

