-- ==== Sys2Proof/Tests/WitnessMachine.lean ====
section
/-! SUPPORT. For the statements about the machine's own agents and the host: states that meet their hypotheses. -/

namespace Sys2Proof.Tests

-- One declaration at a time: the checks run together would hold too much memory.
set_option Elab.async false

open Sys2Proof Sys2Proof.Machine Sys2Proof.Claims

/-! ## Far operations -/

/-- Page tables that map VA 0x3000000 to the RAW page at PA 0x400000, as the cached translation has it. -/
def withTables (s : State) : State :=
  (((s.pokeBytes 0x100000 (leBytes 8 0x110001)).pokeBytes 0x110000 (leBytes 8 0x112001)).pokeBytes (0x112000 + 8 * 24) (leBytes 8 0x113001)).pokeBytes
    0x113000 (leBytes 8 0x40000F)

/-- Device 7 exports 64 KiB at VA 0x3000000 of context 1; device 9 sends. -/
def exporting : State :=
  ((((withTables (three [] [] [])).setBar 0x28F0000 7).setBar 0x28F0008 0x10001).setBar 0x28F0010 0x3000000).setBar 0x28F0018 0x10000

/-- Number 5 of device 9, its fourth to device 7. -/
def farOp (offset : Nat) (body : FarBody) : FarOp := ⟨9, 7, 5, 4, offset, body⟩

/-- What `exportKey` answers, with its context: disabled, beyond the window, not live, mapped, not mapped. -/
theorem meets_FarOperations_export : ∃ (s : State) (off : Nat) (x : Ctx) (p : Page), let ctl := s.bar 0x28F0008
    ctl.getLsbD 16 = true ∧ off < (s.bar 0x28F0018).toNat ∧ s.ctxOf (ctl.toNat % 2 ^ 16) = some x ∧ x.state = .live ∧
    s.walkNow (ctl.toNat % 2 ^ 16) ((s.bar 0x28F0010).toNat + off) true true false = .ok p ∧ s.poisonedAt (p.key ((s.bar 0x28F0010).toNat + off)) = false :=
  ⟨exporting, 0xFFF8, benchCtx, ⟨0x3000000, 65536, 0x40000F⟩, by decide +kernel, by decide +kernel, by decide +kernel, rfl, by decide +kernel, by decide +kernel⟩
theorem meets_FarOperations_export_off : ∃ (s : State) (off : Nat), (s.bar 0x28F0008).getLsbD 16 = false ∨ (s.bar 0x28F0018).toNat ≤ off :=
  ⟨exporting, 0x10000, .inr (by decide +kernel)⟩
/-- The window reaches a page that is not mapped. -/
def exportingMore : State := exporting.setBar 0x28F0018 0x20000
theorem meets_FarOperations_export_fault : ∃ (s : State) (off : Nat) (x : Ctx) (cause : Nat), let ctl := s.bar 0x28F0008
    ctl.getLsbD 16 = true ∧ off < (s.bar 0x28F0018).toNat ∧ s.ctxOf (ctl.toNat % 2 ^ 16) = some x ∧ x.state = .live ∧
    s.walkNow (ctl.toNat % 2 ^ 16) ((s.bar 0x28F0010).toNat + off) true false false = .fault cause ∧ cause ≠ 6 ∧ cause ≠ poisonCause :=
  ⟨exportingMore, 0x10000, benchCtx, 1, by decide +kernel, by decide +kernel, by decide +kernel, rfl, by decide +kernel, by decide, by decide⟩
theorem meets_FarOperations_export_dead : ∃ (s : State) (off : Nat) (x : Ctx), let ctl := s.bar 0x28F0008
    ctl.getLsbD 16 = true ∧ off < (s.bar 0x28F0018).toNat ∧ s.ctxOf (ctl.toNat % 2 ^ 16) = some x ∧ x.state ≠ .live :=
  ⟨{ exporting with ctxs := [{ benchCtx with state := .dying }] }, 0, { benchCtx with state := .dying }, by decide +kernel, by decide +kernel, by decide +kernel, by decide⟩

theorem meets_FarOperations_ignored : ∃ (f : FarOp) (s : State), f.dst ≠ s.devNum := ⟨farOp 0 (.read .i64), three [] [] [], by decide⟩
/-- Seen before, with its answer still held and without one. -/
theorem meets_FarOperations_again : ∀ b : Bool, ∃ (f : FarOp) (s : State), f.dst = s.devNum ∧ f.pair < SMap.get 0 s.farSeen f.src ∧
    (s.linkOut.find? fun x => x.1 == f.src && x.2.1 == f.seq).isSome = b ∧ f.src ≠ s.devNum
  | true => ⟨farOp 0 (.read .i64), { exporting with farSeen := [(9, 6)], linkOut := [(9, 5, .ack)] }, by decide +kernel, by decide, by decide, by decide +kernel⟩
  | false => ⟨farOp 0 (.read .i64), { exporting with farSeen := [(9, 5)] }, by decide +kernel, by decide, by decide, by decide +kernel⟩

/-- The operation is for this device and has not been seen; what it touches. -/
def Fresh (f : FarOp) (s : State) (off n : Nat) (r w : Bool) : Prop :=
  f.dst = s.devNum ∧ SMap.get 0 s.farSeen f.src ≤ f.pair ∧ farSpan f = some (off, n, r, w)

theorem meets_FarOperations_refused : ∃ (f : FarOp) (s : State) (off n : Nat) (r w : Bool) (e : Nat), Fresh f s off n r w ∧ s.exportKey off r w = .error (.refuse e) :=
  ⟨farOp 0x10000 (.read .i64), exporting, 0x10000, 8, true, false, 2, by unfold Fresh; decide +kernel, rfl⟩
theorem meets_FarOperations_fault : ∃ (f : FarOp) (s : State) (off n : Nat) (r w : Bool) (va cause : Nat) (wr : Bool), Fresh f s off n r w ∧
    s.exportKey off r w = .error (.fault va cause wr) :=
  ⟨farOp 0x10000 (.write .i64 [int 1]), exportingMore, 0x10000, 8, false, true, _, _, _, by unfold Fresh; decide +kernel, rfl⟩
theorem meets_FarOperations_waits : ∃ (f : FarOp) (s : State) (off n : Nat) (r w : Bool) (k : Nat) (tg : Bool), Fresh f s off n r w ∧
    s.exportKey off r w = .ok (k, tg) ∧ s.eventWaits k n = true :=
  ⟨farOp 0x200 (.read .i64), { exporting with token := some 0 }, 0x200, 8, true, false, 0x400200, false, by unfold Fresh; decide +kernel, by decide +kernel, by decide +kernel⟩

/-- The operation is carried out at `k`. -/
def Performed (f : FarOp) (s : State) (k : Nat) (tg : Bool) : Prop := ∃ off n r w, Fresh f s off n r w ∧
  s.exportKey off r w = .ok (k, tg) ∧ s.eventWaits k n = false

theorem meets_FarOperations_read : ∃ (f : FarOp) (s : State) (a : Acc) (k : Nat) (tg : Bool), Performed f s k tg ∧ f.body = .read a :=
  ⟨farOp 0x200 (.read .v16), withViews exporting, .v16, 0x400200, false,
    ⟨0x200, 16, true, false, by unfold Fresh; decide +kernel, by decide +kernel, by decide +kernel⟩, rfl⟩
theorem meets_FarOperations_write : ∃ (f : FarOp) (s : State) (a : Acc) (ws : List TWord) (k : Nat) (tg : Bool), Performed f s k tg ∧ f.body = .write a ws ∧
    ws.length = a.regs ∧ Lands k a.bytes :=
  ⟨farOp 0xFF0 (.write .v16 [int 1, f32 2]), exporting, .v16, _, 0x400FF0, false,
    ⟨0xFF0, 16, false, true, by unfold Fresh; decide +kernel, by decide +kernel, by decide +kernel⟩, rfl, rfl, by unfold Lands; decide⟩
theorem meets_FarOperations_atomic : ∃ (f : FarOp) (s : State) (op : AtomOp) (ty : AtomTy) (j : Nat) (x : TWord) (k : Nat) (tg : Bool), Performed f s k tg ∧
    f.body = .atomic op ty [(j, x)] ∧ Lands (k + j) (atomAcc op ty).bytes :=
  ⟨farOp 8 (.atomic .add .f32 [(4, f32 5)]), exporting, .add, .f32, 4, f32 5, 0x400008, false,
    ⟨8, 8, true, true, by unfold Fresh; decide +kernel, by decide +kernel, by decide +kernel⟩, rfl, by unfold Lands; decide⟩
theorem meets_FarOperations_cas : ∀ x ∈ [0, 1], ∃ (f : FarOp) (s : State) (ty : AtomTy) (j : Nat) (cmp new : TWord) (k : Nat) (tg : Bool), Performed f s k tg ∧
    f.body = .cas ty [(j, cmp, new)] ∧ Lands (k + j) (casAcc ty).bytes ∧ casEqual ty (s.peekAcc (casAcc ty) (k + j) tg) cmp = decide (x = 0) := by
  intro x hx
  simp only [List.mem_cons, List.not_mem_nil, or_false] at hx
  rcases hx with rfl | rfl
  · exact ⟨farOp 8 (.cas .i64 [(0, int 0, int 9)]), exporting, .i64, 0, int 0, int 9, 0x400008, false,
      ⟨8, 8, true, true, by unfold Fresh; decide +kernel, by decide +kernel, by decide +kernel⟩, rfl, by unfold Lands; decide, by decide +kernel⟩
  · exact ⟨farOp 8 (.cas .i64 [(0, int 1, int 9)]), exporting, .i64, 0, int 1, int 9, 0x400008, false,
      ⟨8, 8, true, true, by unfold Fresh; decide +kernel, by decide +kernel, by decide +kernel⟩, rfl, by unfold Lands; decide, by decide +kernel⟩

/-- The crew waits for two operations, 11 and 12; 13 is a far store of it. -/
def farWaiting : State :=
  let s := three [] [] []
  { s with
    crews := s.crews.map fun c => { c with wake := some (.far [11, 12]) }
    far := [{ op := ⟨7, 9, 11, 3, 8, .read .v16⟩, plane := some 0, use := .regs 0 2 222 .v16, pc := 0x1000000 },
            { op := ⟨7, 9, 12, 4, 8, .read .i64⟩, plane := some 0, use := .regs 0 1 5 .i64, pc := 0x1000000 },
            { op := ⟨7, 9, 13, 5, 8, .write .i64 [int 1]⟩, plane := some 3, use := .store 0 }]
    clock := 2 ^ 40 }

theorem meets_FarOperations_reply : ∃ (seq : Nat) (ws : List TWord) (s : State) (f : FarOut) (ci lane : Nat) (dest : Field) (a : Acc),
    s.farOut? seq = some f ∧ f.use = .regs ci lane dest a ∧ ci < s.crews.length ∧ (s.crew ci).homes = [] ∧ lane < 32 ∧
    BitVec.toNat dest + ws.length ≤ 224 ∧ (s.crew ci).lateFrees = [] ∧ ∃ ns, (s.crew ci).wake = some (.far ns) :=
  ⟨11, [int 1, int 2], farWaiting, _, 0, 2, 222, .v16, rfl, rfl, by decide, by decide, by decide, by decide, by decide, _, rfl⟩
theorem meets_FarOperations_acknowledge : ∃ (seq : Nat) (s : State) (f : FarOut) (ci : Nat), s.farOut? seq = some f ∧ f.use = .store ci :=
  ⟨13, farWaiting, _, 0, rfl, rfl⟩
theorem meets_FarOperations_unknown : ∃ (seq : Nat) (s : State), s.farOut? seq = none := ⟨14, farWaiting, rfl⟩
theorem meets_FarOperations_late : ∀ b : Bool, ∃ (seq : Nat) (s : State) (f : FarOut), s.farOut? seq = some f ∧ s.farLate f = b
  | true => ⟨12, farWaiting, _, rfl, by decide⟩
  | false => ⟨12, { farWaiting with clock := 0 }, _, rfl, by decide +kernel⟩

/-! ## Translation faults -/

/-- A crew whose page is not mapped, and one whose page is mapped by now. -/
theorem meets_TranslationFaults : ∀ va ∈ [0x3000010, 0x3010000], ∃ (ci cause : Nat) (s : State) (c : Crew) (lanes : List Nat),
    { s with focus := some ci }.stand = some (ci, c, lanes) ∧ (∀ b ∈ s.crews, b.homes = []) ∧ cause ≠ 6 ∧ cause ≠ poisonCause ∧
    (if va = 0x3000010 then ∃ p, s.walkNow (s.asidOf c) va (cause == 2) (cause == 3) (cause == 4) = .ok p
     else ∃ n, s.walkNow (s.asidOf c) va (cause == 2) (cause == 3) (cause == 4) = .fault n) := by
  intro va h
  simp only [List.mem_cons, List.not_mem_nil, or_false] at h
  rcases h with rfl | rfl
  · exact ⟨0, 3, withTables (three [] [] []), theCrew (three [] [] []), [0, 1, 2], by decide, by decide, by decide, by decide, _, by rfl⟩
  · exact ⟨0, 3, withTables (three [] [] []), theCrew (three [] [] []), [0, 1, 2], by decide, by decide, by decide, by decide, _, by rfl⟩

/-- Two faults: the first has record 4 in the ring of 16, the second has none yet. -/
def faulted : State :=
  let s := three [] [] []
  { s with
    crews := s.crews.map fun c => { c with wake := some (.fault 1) }
    faults := [{ number := 1, va := 0x3010000, asid := 1, cause := 1, write := false, fetch := false, engine := false, die := 0, core := 0, quad := 0, crews := [0], seq := some 4 },
               { number := 2, va := 0x3020000, asid := 1, cause := 1, write := true, fetch := false, engine := false, die := 0, core := 0, quad := 0, crews := [] }]
    faultTail := 20
    faultHead := 4
    bar0 := [(0x18, 0x400010000)] }

theorem meets_TranslationFaults_service : ∃ (seq : Nat) (s : State) (f : FaultRec), s.faultBySeq seq = some f ∧ s.faultBySeq (seq + 1) = none :=
  ⟨4, faulted, _, rfl, rfl⟩
theorem meets_TranslationFaults_head : ∃ (v : BitVec 64) (s : State), v.toNat ≤ s.faultTail ∧ ∃ f ∈ s.faults, f.seq = none :=
  ⟨5, faulted, by decide, _, List.mem_cons_of_mem _ List.mem_cons_self, rfl⟩
theorem meets_TranslationFaults_replay : ∃ (slice : Nat) (s : State), s.token = none ∧ (∀ p ∈ s.parked, p.slice ≠ slice) ∧ ∃ l ∈ s.locks, lineSlice l = slice :=
  ⟨lineSlice 0x8000, { faulted with locks := [0x8000, 0x8001] }, by decide, by decide, 0x8000, by decide, rfl⟩
/-- A red of crew 0 waits at the home of its locked word; crew 0 waits for it. -/
theorem meets_TranslationFaults_parked : ∃ (slice ci : Nat) (op : AtomOp) (ty : AtomTy) (tagged : Bool) (r : RedRec) (s : State), s.token = none ∧
    s.parked = [⟨slice, .red ci op ty tagged r⟩] ∧ op ≠ .xchg ∧ Lands r.key (atomAcc op ty).bytes ∧ (s.crew ci).saveAt = none ∧ ci < s.crews.length ∧
    (s.crew ci).place ≠ .retired :=
  ⟨lineSlice 0x8000, 0, .add, .f64, false, ⟨3, 0x400008, 0x3FF0000000000000⟩,
    { three [] [] [] with locks := [0x8000], parked := [⟨lineSlice 0x8000, .red 0 .add .f64 false ⟨3, 0x400008, 0x3FF0000000000000⟩⟩] },
    by decide, rfl, by decide, by unfold Lands; decide, by decide, by decide, by decide⟩

/-! ## Soft errors -/

/-- Crew 0 has read three words of the TAGGED page in its chunk. -/
def hasLoaded : State := nextOf (three (addrs 0x2000000) [] []) (execLd .w { d := 3, base := 1 } (three (addrs 0x2000000) [] []))

theorem meets_SoftErrors : ∃ (s : State) (ci pa : Nat), ci < s.crews.length ∧ (s.crew ci).homes = [] ∧ (∀ c ∈ s.crews, c.homes = []) ∧
    (s.crew ci).inFlight = true ∧ (s.crew ci).hasRead (pa / 128) = true ∧ memRegion pa ≠ none ∧ (s.crew ci).place = .resident :=
  by refine ⟨hasLoaded, 0, 0x300008, ?_, ?_, ?_, ?_, ?_, ?_, ?_⟩ <;> decide +kernel
theorem meets_SoftErrors_register : ∃ (s : State) (ci : Nat) (r q : Field), ci < s.crews.length ∧ (s.crew ci).place = .resident ∧ (s.crew ci).homes = [] ∧
    (s.crew ci).writtenInChunk (BitVec.toNat r) = true ∧ (s.crew ci).writtenInChunk (BitVec.toNat q) = false :=
  by refine ⟨hasLoaded, 0, 3, 1, ?_, ?_, ?_, ?_, ?_⟩ <;> decide +kernel
theorem meets_SoftErrors_spare : ∃ (pa : Nat) (s : State) (m ch : Nat), (inWindow pa = true ∨ memRegion pa ≠ none) ∧ memRegion pa = some (m, ch) ∧
    SMap.get 0 s.spared (16 * m + ch) < 64 :=
  ⟨0x300008, { hasLoaded with spared := [(0, 63)] }, 0, 0, by decide, by decide, by decide⟩

/-! ## The death of a context, expiries -/

/-- Context 1 is to be declared dead; another context has a crew of its own. -/
def doomed : State :=
  let s := dirtied (three [] [] [])
  { s with
    dying := [{ asid := 1, cause := 1, code := 0x12, crew := some 0, lanes := 7, pc := 0x1000000, detail := 5 }]
    crews := s.crews ++ [{ crewOf 2 [(32, int 5)] with team := 1, core := 1 }]
    teams := s.teams ++ [{ grid := 1, cores := [1], place := .resident }]
    grids := s.grids ++ [{ asid := 2 }]
    ctxs := s.ctxs ++ [{ slot := 1, asid := 2, state := .live }]
    clock := 77 }

theorem meets_ContextDeathAndExpiries : ∃ (asid cause : Nat) (detail : BitVec 64) (s : State) (d : Death) (x : Ctx),
    (s.dying.find? fun d => d.asid == asid && d.cause == cause && d.detail == detail) = some d ∧ s.mayDeclare d = true ∧ s.ctxOf asid = some x ∧
    x.state = .live ∧ s.relaunches d = false ∧ s.paUsable x.failrec = true ∧ s.paUsable (x.failrec + 63) = true ∧ (∀ c ∈ s.crews, c.homes = []) ∧
    (∃ k, k < s.crews.length ∧ s.asidOf (s.crew k) = asid ∧ (s.team (s.crew k).team).place ≠ .retired ∧ (s.crew k).team < s.teams.length) ∧
    ∃ k, k < s.crews.length ∧ s.asidOf (s.crew k) ≠ asid :=
  ⟨1, 1, 5, doomed, _, _, rfl, by decide, rfl, by decide, by decide, by decide, by decide, by decide, ⟨0, by decide, by decide, by decide, by decide⟩,
    1, by decide, by decide⟩

/-- The context is DYING, with its failure record made up. -/
def deadSoon : State :=
  { doomed with
    ctxs := [{ benchCtx with state := .dying }]
    dying := [{ asid := 1, cause := 1, code := 0x12, crew := some 0, lanes := 7, pc := 0x1000000, detail := 5, record := List.replicate 8 9 }] }
theorem meets_ContextDeathAndExpiries_dead : ∃ (asid cause : Nat) (detail : BitVec 64) (s : State) (d : Death) (x : Ctx),
    (s.dying.find? fun d => d.asid == asid && d.cause == cause && d.detail == detail) = some d ∧ s.mayDeclare d = true ∧ s.ctxOf asid = some x ∧
    x.state = .dying ∧ d.record.length = 8 ∧ Lands x.failrec 64 ∧ (∀ c ∈ s.crews, c.homes = []) ∧ ∃ g, g < s.grids.length ∧ (s.grid g).asid = asid :=
  ⟨1, 1, 5, deadSoon, _, _, rfl, by decide, rfl, by decide, by decide, by unfold Lands; decide, by decide, 0, by decide, by decide⟩

theorem meets_ContextDeathAndExpiries_watchdog : ∃ (asid : Nat) (s : State) (x : Ctx), s.ctxOf asid = some x ∧ x.state = .live ∧ x.wdq ≤ x.wdcount :=
  ⟨1, { three [] [] [] with ctxs := [{ benchCtx with wdq := 3, wdcount := 3 }] }, _, rfl, by decide, by decide⟩

/-- A crew alone at its matrix instruction, in a debug grid: its three partners have retired. -/
def aloneAtFour : State :=
  let s := bench { crewOf 32 [] with mreq := some (.accz { f1 := 1 }), wake := some .four }
  { s with grids := s.grids.map fun g => { g with four := true, debug := true } }

/-- The same four with a second crew that is saved: it too belongs to the four. -/
theorem meets_ContextDeathAndExpiries_four : ∃ (ci : Nat) (s : State), s.fourTimedOut ci = true ∧ ci ∈ s.fourOf ci ∧ (s.crew ci).place = .resident ∧
    (s.crew ci).chunk.phase = .running ∧ ∃ k ∈ s.fourOf ci, k < s.crews.length ∧ (s.crew k).place ≠ .resident :=
  ⟨0, { aloneAtFour with crews := aloneAtFour.crews ++ [{ crewOf 32 [] with crewId := 1, quad := 1, place := .saved }] },
    by decide, by decide, by decide, by decide, 1, by decide, by decide, by decide⟩

/-! ## Crews that leave and return, quanta, placement -/

def blockedCrew : State :=
  let s := three [int 1] [] []
  { s with crews := s.crews.map fun c => { c with wake := some .yielded } }

theorem some_three {α β γ : Type} {x : Option (α × β × γ)} {d : α × β × γ} (h : x.isSome = true) :
    x = some ((x.getD d).1, (x.getD d).2.1, (x.getD d).2.2) := by
  cases x <;> simp_all

theorem meets_CrewsLeaveAndReturn_evict : ∃ (ci : Nat) (s s1 : State) (x : Ctx) (off : Nat), let c := s.crew ci
    ci < s.crews.length ∧ s.evictable ci = true ∧ s.token ≠ some ci ∧ c.pend = [] ∧ (c.dirty = false → c.chunk.bytes = []) ∧
    s.takeSave (s.asidOf c) c.saveBytes = some (s1, x, off) :=
  ⟨0, blockedCrew, _, _, _, by decide, by decide, by decide, by decide, by decide, some_three (d := (blockedCrew, benchCtx, 0)) (by decide +kernel)⟩
/-- A crew that waits at an absent sector goes back to its chunk's start; the save area is full. -/
theorem meets_CrewsLeaveAndReturn_sector : ∃ (ci : Nat) (s : State), let c := s.crew ci
    ci < s.crews.length ∧ s.evictable ci = true ∧ s.token ≠ some ci ∧ c.pend = [] ∧ (c.dirty = false → c.chunk.bytes = []) ∧
    (∃ ks, c.wake = some (.sector ks)) ∧ s.takeSave (s.asidOf c) { c with arch := c.chunk.start }.saveBytes = none :=
  ⟨0, { dirtied blockedCrew with
        crews := (dirtied blockedCrew).crews.map fun c => { c with wake := some (.sector [2 ^ 51]) }
        ctxs := [{ benchCtx with saveNext := 0x100000, saveUsed := 0x100000 }] },
    by decide, by decide, by decide, by decide, by decide, ⟨[2 ^ 51], by decide⟩, by decide +kernel⟩
theorem meets_CrewsLeaveAndReturn_stays : ∃ (ci : Nat) (s : State), ¬(ci < s.crews.length ∧ s.evictable ci = true ∧ s.token ≠ some ci) :=
  ⟨0, three [] [] [], by decide⟩

theorem meets_CrewsLeaveAndReturn_restore : ∃ (ci : Nat) (s : State), s.restoreDue ci = true ∧ ci < s.crews.length ∧ (∀ c ∈ s.crews, c.homes = []) :=
  ⟨0, { blockedCrew with crews := blockedCrew.crews.map fun c => { c with place := .saved } }, by decide, by decide, by decide⟩

/-- A crew with one live register, the same word in all lanes. -/
def rowCrew : Crew := { crewOf 32 (row 9 (List.replicate 32 (int 7))) [(2, int 5)] with wake := some .yielded }
def rowBench : State := bench rowCrew
/-- Such a crew's record stands at 0x800000 and the crew is saved there. -/
def savedAs (c : Crew) : State :=
  { bench c with
    mem := (c.record fun _ => 0).zipIdx.flatMap fun (w, i) =>
      ((leBytes 8 w.payload.toNat).zipIdx.map fun (b, j) => (0x800000 + 8 * i + j, b)).filter fun e => e.2 != 0
    tags := (c.record fun _ => 0).zipIdx.map fun (w, i) => (0x100000 + i, w.tag)
    crews := [{ c with place := .saved, saveAt := some (0, c.saveBytes) }] }

theorem meets_CrewsLeaveAndReturn_record : ∃ (s s1 : State) (x : Ctx) (off : Nat), let c := s.crew 0
    s.evictable 0 = true ∧ s.token ≠ some 0 ∧ c.pend = [] ∧ (∀ k, c.wake ≠ some (.sector k)) ∧ s.takeSave (s.asidOf c) c.saveBytes = some (s1, x, off) ∧
    (x.savebase + off) % 16 = 0 ∧ Lands (x.savebase + off) (max c.saveBytes c.recordBytes) ∧ SMap.sorted c.arch.spillFmt = true ∧
    (∀ e ∈ c.arch.vregs, e.1 < 7168) ∧ ∀ y ∈ c.arch.threads, y.mstep < 32 := by
  refine ⟨rowBench, _, _, _, by decide, by decide, by decide, ?_, some_three (d := (rowBench, benchCtx, 0)) (by decide +kernel), ?_, ?_, ?_, ?_, ?_⟩
  · intro k h; cases h
  all_goals decide +kernel

theorem wake_saved_none {s : State} {base : Nat} {c : Crew} (h : c.wake.or (c.svcLeft.map Prod.snd) = none)
    (hp : Holds s (base + 0x08) ⟨.int, 0⟩ ∧ Holds s (base + 0x10) ⟨.int, 0⟩ ∧ Holds s (base + 0x18) ⟨.int, 0⟩) : WakeSaved s base 0 c := by
  unfold WakeSaved; rw [h]; exact ⟨rfl, hp⟩

/-- The saved crew can run, and one that the replies of its `svc` have reached. -/
def savedRow : Crew := { rowCrew with wake := none }
def savedReplies : Crew := { rowCrew with wake := none, svcLeft := some (0, .svcReply 0x4000000 3 9 [(0, 0), (1, 64)]), replies := [(0, int 70), (1, f32 2)] }

/-- `RecordOf` for such a crew, field by field. -/
structure RowRecord (s : State) (kind : Nat) (c : Crew) : Prop where
  live : liveRows c = [9]
  head : Holds s 0x800000 ⟨.int, BitVec.ofNat 64 (c.crewId + c.alloc / 8 * 2 ^ 8 + 1 * 2 ^ 16 + kind * 2 ^ 24)⟩
  threads : ∀ l < 32, Holds s (0x800000 + (0x20 + 8 * l)) ⟨.int, BitVec.ofNat 64 ((c.thread l).pc.toNat % 2 ^ 56 / 8 + (match (c.thread l).st with
        | .active => 0 | .helper => 1 | .parked => 2 | .regroup => 3 | .exited => 4) * 2 ^ 53
        + (if (c.thread l).region then 2 ^ 56 else 0) + (c.thread l).mstep * 2 ^ 57)⟩ ∧
    Holds s (0x800000 + 0x120 + 8 * l) ⟨.int, (c.thread l).trapInfo⟩ ∧ Holds s (0x800000 + 0x408 + 8 * l) (SMap.get .nil c.replies l)
  special : ∀ j < 12, Holds s (0x800000 + 0x220 + 8 * j) ⟨.int, [c.arch.nbase, c.arch.nlimit, c.arch.xi, c.arch.fpflags, c.arch.formatflag, c.htab,
      c.svcq, c.hregion, c.chunkn, BitVec.ofNat 64 (c.squashTotal * 256 + c.consec), c.clk0, c.clk1].getD j 0⟩
  uniform : ∀ n < 31, Holds s (0x800000 + 0x280 + 8 * n) (c.readS n)
  mask : ∀ k < 4, Holds s (0x800000 + (0x378 + 8 * k)) ⟨.int, BitVec.ofNat 64 (if k = 0 then 2 ^ 9 else 0)⟩
  codes : ∀ k < 7, Holds s (0x800000 + (0x398 + 8 * k)) ⟨.int, BitVec.ofNat 64 ((List.range 32).map fun j => (fun _ => 0) (32 * k + j) * 4 ^ j).sum⟩ ∧
    Holds s (0x800000 + (0x3D0 + 8 * k)) ⟨.int, BitVec.ofNat 64 ((List.range 32).map fun j => SMap.get 0 c.arch.spillFmt (32 * k + j) * 4 ^ j).sum⟩
  image : Holds s (0x800000 + 0x510) (int 7)

theorem row_record {s : State} {kind : Nat} {c : Crew} (h : RowRecord s kind c) (hr : ∀ l < 32, c.readV 9 l = int 7)
    (hw : WakeSaved s 0x800000 kind c) : RecordOf s 0x800000 c := by
  refine ⟨kind, fun _ => 0, fun _ => [int 7], ?_, fun _ _ => rfl, ?_, hw, h.threads, h.special, h.uniform, ?_, fun k hk => (h.codes k hk).1,
    fun k hk => (h.codes k hk).2, ?_⟩
  · intro r hr'
    rw [h.live, List.mem_singleton] at hr'
    subst hr'
    exact .inl ⟨⟨rfl, fun i hi => by rw [hr i hi, hr 0 (by decide)]⟩, rfl, by rw [hr 0 (by decide)]⟩
  · rw [h.live]; exact h.head
  · intro k hk
    refine ⟨if k = 0 then 2 ^ 9 else 0, by split <;> decide, h.mask k hk, ?_⟩
    rw [h.live]
    clear hw hr
    revert k
    decide
  · intro r hr' j hj
    rw [h.live, List.mem_singleton] at hr'
    subst hr'
    have : j = 0 := by simpa using hj
    subst this
    rw [h.live]
    exact h.image

/-- What the clause about a restored crew's registers asks. -/
def RestoreMet (s : State) : Prop :=
  let c := s.crew 0
  s.restoreDue 0 = true ∧ (∀ c ∈ s.crews, c.homes = []) ∧ ∃ x off n, s.ctxOf (s.asidOf c) = some x ∧ c.saveAt = some (off, n) ∧ RecordOf s (x.savebase + off) c ∧
    SMap.sorted c.arch.sregs = true ∧ SMap.sorted c.arch.vregs = true ∧ (∀ e ∈ c.arch.vregs, e.1 < 7168) ∧
    (∀ r l, r < 224 → l < 32 → makeWord (c.readV r l).tag (c.readV r l).payload = c.readV r l) ∧ c.lateFrees = []

theorem read_row (c : Crew) (h : c.arch.vregs = row 9 (List.replicate 32 (int 7))) (r l : Nat) : c.readV r l = int 7 ∨ c.readV r l = .undef := by
  unfold Crew.readV
  rw [h]
  cases hf : SMap.get? (row 9 (List.replicate 32 (int 7))) (32 * r + l) with
  | none => exact .inr rfl
  | some w =>
    have all : ∀ e ∈ row 9 (List.replicate 32 (int 7)), e.2 = int 7 := by decide
    exact .inl (all _ (SMap.get?_mem hf))

theorem restore_met (c : Crew) (kind : Nat) (h1 : (savedAs c).restoreDue 0 = true) (h2 : c.arch.vregs = row 9 (List.replicate 32 (int 7)))
    (h3 : RowRecord (savedAs c) kind ((savedAs c).crew 0)) (h4 : WakeSaved (savedAs c) 0x800000 kind ((savedAs c).crew 0))
    (h5 : c.homes = []) (h6 : (savedAs c).ctxOf ((savedAs c).asidOf ((savedAs c).crew 0)) = some benchCtx)
    (h7 : SMap.sorted c.arch.sregs = true) (h8 : c.lateFrees = []) : RestoreMet (savedAs c) := by
  have hc : (savedAs c).crew 0 = { c with place := .saved, saveAt := some (0, c.saveBytes) } := rfl
  have hv : ((savedAs c).crew 0).arch.vregs = row 9 (List.replicate 32 (int 7)) := h2
  refine ⟨h1, ?_, benchCtx, 0, c.saveBytes, h6, rfl, row_record h3 ?_ h4, h7, ?_, ?_, fun r l _ _ => ?_, h8⟩
  · intro b hb
    have : b = { c with place := .saved, saveAt := some (0, c.saveBytes) } := List.mem_singleton.1 hb
    rw [this]; exact h5
  · intro l hl
    unfold Crew.readV
    rw [hv]
    clear h1 h2 h3 h4 h5 h6 h7 h8 hc hv
    revert l; decide
  · rw [hv]; decide
  · rw [hv]; decide
  · rcases read_row ((savedAs c).crew 0) hv r l with h | h <;> rw [h] <;> decide

theorem savedRow_record : RowRecord (savedAs savedRow) 0 ((savedAs savedRow).crew 0) where
  live := by decide +kernel
  head := by unfold Holds; decide +kernel
  threads := by unfold Holds; decide +kernel
  special := by unfold Holds; decide +kernel
  uniform := by unfold Holds; decide +kernel
  mask := by unfold Holds; decide +kernel
  codes := by unfold Holds; decide +kernel
  image := by unfold Holds; decide +kernel
theorem savedReplies_record : RowRecord (savedAs savedReplies) 4 ((savedAs savedReplies).crew 0) where
  live := by decide +kernel
  head := by unfold Holds; decide +kernel
  threads := by unfold Holds; decide +kernel
  special := by unfold Holds; decide +kernel
  uniform := by unfold Holds; decide +kernel
  mask := by unfold Holds; decide +kernel
  codes := by unfold Holds; decide +kernel
  image := by unfold Holds; decide +kernel

theorem meets_CrewsLeaveAndReturn_registers : RestoreMet (savedAs savedRow) ∧ savedRow.svcLeft = none ∧ savedRow.wake = none :=
  ⟨restore_met savedRow 0 (by decide +kernel) rfl savedRow_record (wake_saved_none rfl (by unfold Holds; decide +kernel)) rfl (by decide +kernel) rfl rfl, rfl, rfl⟩

theorem meets_CrewsLeaveAndReturn_replies : RestoreMet (savedAs savedReplies) ∧ (savedReplies.replies.map Prod.fst).Nodup ∧
    (∀ e ∈ savedReplies.replies, e.1 < 32) ∧ savedReplies.replies ≠ [] :=
  ⟨restore_met savedReplies 4 (by decide +kernel) rfl savedReplies_record ⟨rfl, by unfold Holds; decide +kernel⟩ rfl (by decide +kernel) rfl rfl,
    by decide, by decide, by decide⟩

/-- A saved crew that waits at a queue with entries. -/
theorem meets_CrewsLeaveAndReturn_queue : ∃ s : State, s.restoreDue 0 = true ∧ (s.crew 0).wake = some (.queuePop 3 0 [0, 1, 2] 5) ∧
    ∃ k, qInstance (s.team 0) (s.grid (s.team 0).grid) 0 3 = some (0, k) ∧ s.queueBad (s.crew 0).team 0 3 k = false :=
  ⟨{ popper with crews := popper.crews.map fun c => { c with place := .saved } }, by decide +kernel, by decide, queueKey, by decide, by decide +kernel⟩

theorem meets_QuantaAndPlacement_quantum : ∃ (die : Nat) (s : State) (x : Ctx), (s.ctxs.map Ctx.slot).Nodup ∧ x ∈ s.ctxs ∧ x.state = .live ∧
    (∃ c ∈ s.crews.filter (s.watched x.asid), c.core / 48 = die) ∧ ∀ c ∈ s.crews.filter (s.watched x.asid), die ≤ c.core / 48 :=
  ⟨0, blockedCrew, benchCtx, by decide, by decide, by decide, by decide, by decide⟩

/-- A gang of two teams of two crews waits for die 1. -/
def toPlace : State :=
  { three [] [] [] with
    grids := [{ asid := 1, codebase := 0x1000000, codesize := 0x1000, entry := 0x40, htabv := 0x3000400, ntx := 2, crews := 2, teams := 2, regs := 32, scratch := 100,
                hash := 64, args := [int 5, .nil], nextGang := 1 }]
    crews := [], teams := []
    waiting := [{ grid := 0, gang := 0, die := 1, prio := 3, since := 0 }] }
def placedGang : State := (toPlace.tryPlace { grid := 0, gang := 0, die := 1, prio := 3, since := 0 }).getD toPlace

theorem meets_QuantaAndPlacement_placement : ∃ (die : Nat) (s s1 : State) (w : Waiting), (s.residents die).filter s.canLeave = [] ∧ die ∉ s.stopped ∧
    s.roomKept die = false ∧ s.waitOrder die = [w] ∧ w.saved = false ∧ s.tryPlace w = some s1 :=
  ⟨1, toPlace, placedGang, _, by decide, by decide, by decide, rfl, by decide, some_of (by decide +kernel)⟩
theorem meets_QuantaAndPlacement_stops : ∃ (die : Nat) (s : State) (w : Waiting) (rest : List Waiting), (s.residents die).filter s.canLeave = [] ∧
    die ∉ s.stopped ∧ s.roomKept die = false ∧ s.waitOrder die = w :: rest ∧ s.tryPlace w = none :=
  ⟨1, { toPlace with grids := toPlace.grids.map fun g => { g with teams := 12, crews := 192, regs := 224 } }, _, _, by decide, by decide, by decide, rfl, by decide +kernel⟩

end Sys2Proof.Tests
end

