-- ==== Sys2Proof/Tests/WitnessHost.lean ====
section
/-! SUPPORT. For the statements about the host's side, registers, boot and steps: states that meet their hypotheses. -/

namespace Sys2Proof.Tests

-- One declaration at a time: the checks run together would hold too much memory.
set_option Elab.async false

open Sys2Proof Sys2Proof.Machine Sys2Proof.Claims

/-! ## Host accesses -/

def windowTop : Nat := 0x3FFFF8

/-- The last word of the window, which crew 0 has read in its chunk. -/
def windowReader : State :=
  let s := three [int 0x4000000, int 0x4000008, int 0x4000010] [] []
  let s := { s with tlb := s.tlb ++ [⟨0, 1, 0x4000000, 65536, 0xF0003F000F⟩] }
  nextOf s (execLd .w { d := 3, base := 1 } { s with crews := s.crews.map fun c => { c with arch := { c.arch with vregs := row 1 [int 0x400FFF8, int 0x4000008, int 0x4000010] } } })

theorem meets_HostAccesses_window : ∃ (off n : Nat) (s : State), s.windowOk off n = true ∧ s.eventWaits (Config.windowBase + off) n = false ∧
    windowHosts off = true ∧ (∀ c ∈ s.crews, c.svcLeft = none ∧ c.homes = []) ∧
    ∃ k, k < s.crews.length ∧ ((s.crew k).inFlight && writeMeets (eventLocs (Config.windowBase + off) n) (s.crew k)) = true :=
  by refine ⟨windowTop, 8, windowReader, ?_, ?_, ?_, ?_, 0, ?_, ?_⟩ <;> decide +kernel

/-- A write sets EN of queue 9, whose other fields are good, or break a rule with CAP, or one that clears EN of queue 5. -/
def enableWord (cap : Nat) : BitVec 64 := BitVec.ofNat 64 (2 ^ 32 + cap)
def beforeEnable : State :=
  let s := three [] [] []
  ((s.pokeBytes (0xF000000000 + 128 * 9) (leBytes 8 0x400800)).pokeBytes (0xF000000000 + 128 * 9 + 0x28) (leBytes 8 0x20000 ++ leBytes 8 16))
theorem meets_HostAccesses_enable : ∀ cap ∈ [8, 16], ∃ (off n : Nat) (v : BitVec 64) (s : State), s.windowOk off n = true ∧
    s.eventWaits (Config.windowBase + off) n = false ∧ windowHosts off = true ∧ (∀ c ∈ s.crews, c.svcLeft = none ∧ c.homes = []) ∧ off < 0x2000 ∧
    let u := written s off (leBytes n (BitVec.toNat v))
    u.enableDue (off / 128) = true ∧ (u.readSq (off / 128)).isSome = decide (cap = 16) := by
  intro cap h
  refine ⟨128 * 9 + 8, 8, enableWord cap, beforeEnable, ?_, ?_, ?_, ?_, ?_, ?_⟩
  all_goals (revert cap; decide +kernel)
theorem meets_HostAccesses_clear : ∃ (off n : Nat) (v : BitVec 64) (s : State), s.windowOk off n = true ∧ off < 0x2000 ∧
    ((written s off (leBytes n (BitVec.toNat v))).sqWord (off / 128) 8).testBit 32 = false ∧ (s.subQ (off / 128)).en = true :=
  ⟨128 * 5 + 8, 8, 16, { three [] [] [] with queues := [{ q := 5, en := true }] }, by decide, by decide, by decide +kernel, by decide⟩

theorem meets_HostAccesses_none : ∃ (off n : Nat) (s : State), s.windowOk off n = false := ⟨4, 8, three [] [] [], by decide⟩
/-- A read of the last hosted word below the gap, of the gap, and one that an engine or the token holds up. -/
theorem meets_HostAccesses_read : ∀ off ∈ [0x2008, 0x2010], ∃ (n : Nat) (s : State), s.windowOk off n = true ∧ s.eventWaits (Config.windowBase + off) n = false := by
  intro off h
  exact ⟨8, three [] [] [], by revert off; decide, by revert off; decide⟩
theorem meets_HostAccesses_read_waits : ∃ (off n : Nat) (s : State), s.windowOk off n = true ∧ s.eventWaits (Config.windowBase + off) n = true :=
  ⟨0x2008, 8, { three [] [] [] with token := some 0 }, by decide, by decide⟩
theorem meets_HostAccesses_aperture : ∃ (off n pa : Nat) (s : State), s.aperture off n = some pa ∧ s.aperture (off + 1) n = none :=
  ⟨0x400040, 64, 0x400040, three [] [] [], by decide, by decide⟩

/-! ## The service ring -/

/-- A parked crew whose two records at 0xF000010000 the host answers by DOORBELL; its ring is at VA 0x3000000 of mapped window memory. -/
def parked : State :=
  let s := three [int 1, int 2] [] []
  let s := (((s.pokeBytes 0x100000 (leBytes 8 0x110001)).pokeBytes 0x110000 (leBytes 8 0x112001)).pokeBytes (0x112000 + 8 * 24) (leBytes 8 0x113001)).pokeBytes
    0x113000 (leBytes 8 0xF00001000F)
  let s := (s.pokeBytes 0xF000010000 (leBytes 8 32 ++ leBytes 8 2)).pokeBytes (0xF000010000 + 64 + 0x20) (leBytes 8 55 ++ leBytes 8 1)
  let w : Wake := .svcReply 0x3000000 2 7 [(0, 0xF000010040), (1, 0xF000010080)]
  { s with crews := s.crews.map fun c => { c with place := .saved, svcLeft := some (2, w), wake := some w } }
def parkedPage : Page := ⟨0x3000000, 65536, 0xF00001000F⟩

theorem meets_ServiceRing : ∃ (off : Nat) (v : BitVec 64) (s : State) (ci k ring last : Nat) (dest : Field) (lanes : List (Nat × Nat)) (p : Page),
    s.windowOk (off + 0x18) 8 = true ∧ s.eventWaits (Config.windowBase + (off + 0x18)) 8 = false ∧ windowHosts (off + 0x18) = true ∧ 0x2000 ≤ off ∧
    ci < s.crews.length ∧ (∀ c ∈ s.crews, c.homes = []) ∧ (∀ j, j ≠ ci → (s.crew j).svcLeft = none) ∧
    let c := s.crew ci
    c.place = .saved ∧ c.replies = [] ∧ c.inFlight = false ∧ c.svcLeft = some (k, .svcReply ring last dest lanes) ∧
    c.wake = some (.svcReply ring last dest lanes) ∧
    let s1 := s.eventWrite none (Config.windowBase + (off + 0x18)) (leBytes 8 (BitVec.toNat v))
    s1.walkNow (s.asidOf c) ring true false false = .ok p ∧ p.key ring = Config.windowBase + off ∧ last ≤ v.toNat :=
  ⟨0x10000, 2, parked, 0, 2, 0x3000000, 2, 7, [(0, 0xF000010040), (1, 0xF000010080)], parkedPage, by decide +kernel, by decide +kernel, by decide, by decide, by decide,
    by decide, fun j hj => by
      match j with
      | 0 => exact absurd rfl hj
      | j + 1 => rfl, by decide, by decide, by decide, by decide, by decide, by decide +kernel, by decide, by decide⟩

/-- A `svc` that waits for room, at its instruction: the word at the crew's PC; `tail` of 32 records are used. -/
def waitingSvc (tail : Nat) : State :=
  let s := withRing (three [int 1, f32 2, .nil] [] []) tail 0
  let s := s.pokeBytes 0x200000 (leBytes 8 (encode (.svc 5 2 { d := 7, a := 1 })))
  { s with crews := s.crews.map fun c => { c with place := .saved, wake := some .svcEvent } }

theorem meets_ServiceRing_event : ∀ tail ∈ [29, 30], ∃ (ci : Nat) (s : State) (w n : BitVec _) (lk : BitVec 4) (o : IOps) (r : Ring), let c := s.crew ci
    c.wake = some .svcEvent ∧ s.token = none ∧ ci < s.crews.length ∧ c.place = .saved ∧ (∀ b ∈ s.crews, b.homes = []) ∧
    c.pend = [] ∧ c.expansion = none ∧ s.fetchWord c.core (s.asidOf c) c.pc.toNat = .ok w ∧ instrOf (BitVec.toNat w) = .svc n lk o ∧
    s.ringAt c.core (s.asidOf c) c.svcq.toNat = some r ∧ r.room (execLanes (.svc n lk o) c c.bundle).length = decide (tail = 29) := by
  intro tail h
  simp only [List.mem_cons, List.not_mem_nil, or_false] at h
  rcases h with rfl | rfl
  · exact ⟨0, waitingSvc 29, BitVec.ofNat 64 (encode (.svc 5 2 { d := 7, a := 1 })), 5, 2, { d := 7, a := 1 }, ⟨0xF000000000, 32, 29, 0, 0x107⟩, by decide, by decide, by decide, by decide, by decide, by decide,
      by decide, by decide +kernel, by decide +kernel, by decide +kernel, by decide⟩
  · exact ⟨0, waitingSvc 30, BitVec.ofNat 64 (encode (.svc 5 2 { d := 7, a := 1 })), 5, 2, { d := 7, a := 1 }, ⟨0xF000000000, 32, 30, 0, 0x107⟩, by decide, by decide, by decide, by decide, by decide, by decide,
      by decide, by decide +kernel, by decide +kernel, by decide +kernel, by decide⟩

/-! ## Submission queues -/

/-- Queue 5 with commands at PA 0x400800, 16 of them, the third being next: its words are `ws`. The staging region is 64 KiB from 0x400000. -/
def cmdQueue : SubQ := { q := 5, en := true, base := 0x400800, cap := 16, cqoff := 0x10000, head := 2, done := 2, cirq := true, vec := 7 }
def withCommand (ws : List Nat) : State :=
  let s := { three [] [] [] with queues := [cmdQueue], bar0 := [(0x60, 0)] }
  let s := s.pokeBytes (0xF000000000 + 0x2000) (leBytes 8 0x400000 ++ leBytes 8 0x10000)
  (s.pokeBytes (0xF000000000 + 128 * 5 + 8) (leBytes 8 (2 ^ 32 + 16) ++ leBytes 8 3)).pokeBytes (0x400800 + 128) (ws.flatMap (leBytes 8))

/-- The queue gives up the command that its words make; `r`: it breaks a rule. -/
def CommandMet (op : Nat) (r : Bool) (P : State → (Nat → Nat) → Prop) : Prop := ∃ (q : Nat) (s : State) (x : SubQ) (w : Nat → Nat),
  Dequeues s q op x w ∧ QuietFor s x ∧ q < 64 ∧ cmdReserved w = r ∧ P s w

theorem command_met {op : Nat} {r : Bool} {P : State → (Nat → Nat) → Prop} (ws : List Nat)
    (h : (let s := withCommand ws; let w := s.cmdWord cmdQueue 2
      decide (s.nextCmd 5 = some cmdQueue) && s.paUsable (0x400800 + 128) && s.paUsable (0x400800 + 128 + 63)
        && decide ((if 1 ≤ w 0 % 256 ∧ w 0 % 256 ≤ 5 then w 0 % 256 else 1) = op) && decide (cmdReserved w = r)) = true)
    (hp : P (withCommand ws) ((withCommand ws).cmdWord cmdQueue 2)) : CommandMet op r P := by
  simp only [Bool.and_eq_true, decide_eq_true_eq] at h
  obtain ⟨⟨⟨⟨h1, h2⟩, h3⟩, h4⟩, h5⟩ := h
  exact ⟨5, withCommand ws, cmdQueue, _, ⟨h1, h2, h3, fun _ => rfl, h4⟩, ⟨by show ∀ c ∈ (three [] [] []).crews, _; decide, by decide⟩, by decide, h5, hp⟩

/-- A LAUNCH whose record is at 0x400300, NOREC. -/
theorem meets_SubmissionQueues_launch : CommandMet 1 false fun s w => w 0x10 % 128 = 0 ∧ s.paUsable (w 0x10) = true ∧ s.paUsable (w 0x10 + 127) = true :=
  command_met [2 ^ 9 + 1, 77, 0x400300] (by decide +kernel) (by decide +kernel)
theorem meets_SubmissionQueues_flush : CommandMet 2 false fun _ w => w 0x18 ≤ 2 ^ 40 := command_met [2, 77, 0x400001, 256] (by decide +kernel) (by decide +kernel)
/-- A FLUSH of a line that is dirty and to which the host has written a word. -/
theorem meets_SubmissionQueues_pieces : ∃ (w : Nat → Nat) (s : State) (l : Nat), HostPieces s ∧ 0 < w 0x18 ∧ 128 * l < w 0x10 + w 0x18 ∧ w 0x10 < 128 * l + 128 ∧
    l ∈ s.unflushed ∧ hostByte s (128 * l + 8) = some 7 :=
  ⟨fun off => if off = 0x10 then 0x40007F else 2,
    { three [] [] [] with unflushed := [0x8001], hostStores := [{ pa := 0x400088, data := [7] }] }, 0x8001, by unfold HostPieces; decide, by decide, by decide, by decide,
    by decide, by decide⟩
theorem meets_SubmissionQueues_copy : ∀ dir ∈ [0, 1], CommandMet 3 false fun s w => w 0x28 % 2 = dir ∧ s.copyBad w = false ∧ ∃ data, copyHas data s w = true := by
  intro dir h
  simp only [List.mem_cons, List.not_mem_nil, or_false] at h
  rcases h with rfl | rfl
  · exact command_met [3, 77, 0x1000, 0x400000, 4, 0] (by decide +kernel) ⟨by decide +kernel, by decide +kernel, [1, 2, 3, 4], by decide +kernel⟩
  · exact command_met [3, 77, 0x1000, 0x400000, 4, 1] (by decide +kernel) ⟨by decide +kernel, by decide +kernel, [], by decide +kernel⟩
theorem meets_SubmissionQueues_fence : CommandMet 4 false fun _ _ => True := command_met [4, 77, 63, 9] (by decide +kernel) trivial
theorem meets_SubmissionQueues_signal : CommandMet 5 false fun _ w => ¬(w 0x10 % 8 ≠ 0 ∨ Config.windowBytes ≤ w 0x10) ∧ windowHosts (w 0x10) = true :=
  command_met [5, 77, 0x3FFFF8, 99, 0x109] (by decide +kernel) (by decide +kernel)
/-- A COPY with the staging region in the coherent window, up to its last byte. -/
theorem meets_SubmissionQueues_window : ∃ (s : State) (w : Nat → Nat), cmdReserved w = false ∧ copyHas [1, 2] s w = true ∧ s.copyBad w = false ∧
    inWindow (w 0x18) = true ∧ s.runUsable (w 0x18) (w 0x20) = true ∧ w 0x18 + w 0x20 = Config.windowBase + Config.windowBytes ∧ w 0x28 % 2 = 0 :=
  ⟨(three [] [] []).pokeBytes (0xF000000000 + 0x2000) (leBytes 8 0xF000010000 ++ leBytes 8 0x3F0000),
    fun off => ([3, 77, 0, 0xF0003FFFFE, 2, 0].getD (off / 8) 0), by decide +kernel, by decide +kernel, by decide +kernel, by decide, by decide +kernel, by decide, by decide⟩
/-- A SIGNAL that writes CTL of queue 9's descriptor with EN and a bad CAP. -/
theorem meets_SubmissionQueues_signal_enables : CommandMet 5 false fun s w => w 0x10 % 128 = 8 ∧ windowHosts (w 0x10) = true ∧
    EnablesBad (written (taken s 5 cmdQueue w) (w 0x10) (leBytes 8 (w 0x18))) (w 0x10) :=
  command_met [5, 77, 128 * 9 + 8, 2 ^ 32 + 8, 0] (by decide +kernel) (by decide +kernel)
theorem meets_SubmissionQueues_refused : ∀ op ∈ [1, 2, 3, 4, 5], CommandMet op true fun s w => ∃ d, copyHas d s w = true := by
  intro op h
  simp only [List.mem_cons, List.not_mem_nil, or_false] at h
  rcases h with rfl | rfl | rfl | rfl | rfl
  · exact command_met [9, 77] (by decide +kernel) ⟨[], by decide +kernel⟩
  · exact command_met [2 ^ 10 + 2, 77] (by decide +kernel) ⟨[], by decide +kernel⟩
  · exact command_met [3, 77, 0, 0x400000, 4, 2] (by decide +kernel) ⟨[], by decide +kernel⟩
  · exact command_met [4, 77, 64] (by decide +kernel) ⟨[], by decide +kernel⟩
  · exact command_met [5, 77, 0, 0, 0, 0, 0, 1] (by decide +kernel) ⟨[], by decide +kernel⟩

/-- A descriptor that enables queue 9, or breaks a rule with its CAP. -/
def enabling (cap : Nat) : State :=
  ((three [] [] []).pokeBytes (0xF000000000 + 128 * 9) (leBytes 8 0x400800 ++ leBytes 8 (2 ^ 32 + cap))).pokeBytes (0xF000000000 + 128 * 9 + 0x28) (leBytes 8 0x20000 ++ leBytes 8 16)
theorem meets_SubmissionQueues_enable : ∃ (q : Nat) (s s' : State) (x : SubQ), q < 64 ∧ s.enableDue q = true ∧ s.readSq q = some x ∧ s'.enableDue q = true ∧ s'.readSq q = none :=
  ⟨9, enabling 16, enabling 8, ((enabling 16).readSq 9).getD cmdQueue, by decide, by decide +kernel, some_of (by decide +kernel), by decide +kernel, by decide +kernel⟩

/-- Command 3 has completed before command 2. -/
def completing (norec : Bool) : State :=
  let c (k : Nat) : Cmd := { k := k, op := 5, norec := norec, cookie := 77, status := some 2, time := 9 }
  { three [] [] [] with queues := [{ cmdQueue with head := 4, cmds := [{ c 2 with counted := norec }, c 3] }] }
theorem meets_SubmissionQueues_completion : ∃ (s s' : State) (x x' : SubQ) (c c' : Cmd), s.completes 5 2 = some (x, c) ∧ c.norec = false ∧ 0x10000 ≤ x.cqoff ∧ x.q = 5 ∧
    s'.completes 5 3 = some (x', c') ∧ c'.norec = true ∧ x'.q = 5 :=
  ⟨completing false, completing true, _, _, _, _, rfl, by decide, by decide, by decide, rfl, by decide, by decide⟩

/-! ## Contexts, translations, registers -/

theorem meets_ContextsAndTranslations_bind : ∃ (slot : Nat) (ctl : BitVec 64) (s : State), slot < 64 ∧ s.boot.phase = .ready ∧ ctl.getLsbD 16 = true ∧ ∀ x ∈ s.ctxs, x.slot ≠ slot :=
  ⟨63, 0xFFFFFFFFFFFFFFFF, three [] [] [], by decide, by decide, by decide, by decide⟩
theorem meets_ContextsAndTranslations_unbind : ∃ (slot : Nat) (ctl : BitVec 64) (s s' : State) (x : Ctx), slot < 64 ∧ s.boot.phase = .ready ∧ ctl.getLsbD 16 = false ∧
    x ∈ s.ctxs ∧ x.slot = slot ∧ (∀ y ∈ s.ctxs, y.slot = slot → y = x) ∧ x.state ≠ .dead ∧ (∃ g ∈ s.grids, g.asid = x.asid ∧ g.status = none) ∧
    s'.ctxs = s.ctxs ∧ ∀ g ∈ s'.grids, g.asid = x.asid → g.status ≠ none :=
  ⟨0, 1, three [] [] [], { three [] [] [] with grids := [] }, benchCtx, by decide, by decide, by decide, by decide, by decide, by decide, by decide, by decide, rfl, by decide⟩
theorem meets_ContextsAndTranslations_lift : ∃ (die : Nat) (v : BitVec 64) (s : State), die < 4 ∧ s.boot.phase = .ready ∧ v.getLsbD 16 = true ∧ (s.lift die).en = true ∧
    (s.lift die).asid = v.toNat % 2 ^ 16 ∧ (s.lift die).entries ≠ [] :=
  ⟨0, 0x10001, withLift (three [] [] []) 2 true, by decide, by decide, by decide, by decide, by decide, by decide⟩
/-- The chunk of crew 0 has used the page that is invalidated. -/
theorem meets_ContextsAndTranslations_tlbinv : ∃ (v : BitVec 64) (s : State) (k : Nat), s.boot.phase = .ready ∧ (s.bar 0x28).getLsbD 63 = false ∧ k < s.crews.length ∧
    (∀ c ∈ s.crews, c.homes = []) ∧ s.asidOf (s.crew k) = v.toNat % 2 ^ 16 ∧ (s.crew k).inFlight = true ∧
    (∃ p ∈ (s.crew k).chunk.pages, p.1 < (s.bar 0x30).toNat + (s.bar 0x38).toNat ∧ (s.bar 0x30).toNat < p.1 + p.2) :=
  by refine ⟨1, { hasLoaded with bar0 := [(0x30, 0x2000000), (0x38, 0x10000)] }, 0, ?_, ?_, ?_, ?_, ?_, ?_, ?_⟩ <;> decide +kernel
def parkedAt : Page := ⟨0x3000000, 65536, 0x40000F⟩
def migrating (mpa : BitVec 64) : State := { withTables (three [] [] []) with bar0 := [(0x48, 0x3000000), (0x50, mpa)] }
/-- What the clause about a page that moves asks, without its crews and parked requests. -/
def MoveMet (v : BitVec 64) (s : State) (x : Ctx) (p : Page) : Prop :=
  let asid := BitVec.toNat v % 2 ^ 16
  let mva := (s.bar 0x48).toNat
  let mpa := (s.bar 0x50).toNat
  let a := leafEntry s mva walkLevels x.root
  s.boot.phase = .ready ∧ (s.bar 0x40).getLsbD 63 = false ∧ s.token = none ∧ s.ctxOf asid = some x ∧ s.walkNow asid mva false false false = .ok p ∧
    (¬∃ l ∈ s.locks, mpa ≤ 128 * l ∧ 128 * l < mpa + p.size) ∧ ¬(mpa % p.size ≠ 0 ∨ s.runUsable mpa p.size = false ∨ mpa = p.pa) ∧
    SMap.sorted s.mem = true ∧ SMap.sorted s.tags = true ∧ (a + 8 ≤ mpa ∨ mpa + p.size ≤ a) ∧ (p.pa + p.size ≤ mpa ∨ mpa + p.size ≤ p.pa) ∧ Lands a 8 ∧
    p.pa % 8 = 0 ∧ p.size % 8 = 0 ∧ ∀ c ∈ s.crews, c.homes = []

theorem move_met (s : State) (h : (s.boot.phase, s.token, s.locks, s.bar0) = (BootPhase.ready, none, [], (migrating 0x500000).bar0)) (hx : s.ctxOf 1 = some benchCtx)
    (hw : s.walkNow 1 0x3000000 false false false = .ok parkedAt) (hl : leafEntry s 0x3000000 walkLevels benchCtx.root = 0x113000)
    (hu : s.runUsable 0x500000 65536 = true) (hm : SMap.sorted s.mem = true) (ht : SMap.sorted s.tags = true) (hc : ∀ c ∈ s.crews, c.homes = []) :
    MoveMet 1 s benchCtx parkedAt := by
  simp only [Prod.mk.injEq] at h
  obtain ⟨h1, h2, h3, h4⟩ := h
  have b : ∀ a, s.bar a = (migrating 0x500000).bar a := fun a => by unfold State.bar; rw [h4]
  have b1 : s.bar 0x48 = 0x3000000 := by rw [b]; decide
  have b2 : s.bar 0x50 = 0x500000 := by rw [b]; decide
  refine ⟨h1, by rw [b]; decide, h2, hx, by rw [b1]; exact hw, by rw [h3]; simp, ?_, hm, ht, ?_, ?_, ?_, by decide, by decide, hc⟩
  · rw [b2]; rintro (h | h | h)
    · exact h (by decide)
    · exact absurd (hu.symm.trans h) (by decide)
    · exact absurd h (by decide)
  · rw [b1, b2]; show leafEntry s 0x3000000 walkLevels benchCtx.root + 8 ≤ _ ∨ _; rw [hl]; exact .inl (by decide)
  · rw [b2]; decide
  · rw [b1]; show Lands (leafEntry s 0x3000000 walkLevels benchCtx.root) 8; rw [hl]; decide

theorem meets_ContextsAndTranslations_migrate : MoveMet 1 (migrating 0x500000) benchCtx parkedAt ∧ (∀ r ∈ (migrating 0x500000).parked, False) :=
  ⟨move_met _ (by decide +kernel) (by decide +kernel) (by decide +kernel) (by decide +kernel) (by decide +kernel) (by decide +kernel) (by decide +kernel) (by decide), by decide⟩
/-- A reduction is parked for the last word of the page; a crew of the context has used the page. -/
def migratingRed : State :=
  let s := migrating 0x500000
  { s with
    parked := [⟨0, .red 0 .add .i64 false { key := 0x40FFF8, lane := 0, x := 5 }⟩]
    crews := hasLoaded.crews.map fun c => { c with chunk := { c.chunk with pages := [(0x3000000, 65536)] } } }
theorem meets_ContextsAndTranslations_parked : MoveMet 1 migratingRed benchCtx parkedAt ∧ (∃ slice ci op ty tagged r,
    migratingRed.parked = [⟨slice, .red ci op ty tagged r⟩] ∧ op ≠ .xchg ∧ 0x400000 ≤ r.key ∧ r.key + (atomAcc op ty).bytes ≤ 0x410000 ∧
    Lands (r.key - 0x400000 + 0x500000) (atomAcc op ty).bytes ∧ (migratingRed.crew ci).saveAt = none) ∧
    (migratingRed.crew 0).inFlight = true ∧ migratingRed.asidOf (migratingRed.crew 0) = 1 :=
  ⟨move_met _ (by decide +kernel) (by decide +kernel) (by decide +kernel) (by decide +kernel) (by decide +kernel) (by decide +kernel) (by decide +kernel) (by decide +kernel),
    ⟨_, _, _, _, _, _, rfl, by decide, by decide, by decide, by decide, by decide⟩, by decide +kernel, by decide +kernel⟩
/-- BUSY still stands; the token is held; a scrub locks the last line of the new place. -/
theorem meets_ContextsAndTranslations_waits : ∃ s1 s2 s3 : State, (s1.bar 0x40).getLsbD 63 = true ∧ s1.boot.phase = .ready ∧
    s2.token ≠ none ∧ (s2.bar 0x40).getLsbD 63 = false ∧ s2.boot.phase = .ready ∧
    ∃ p, s3.walkNow 1 (s3.bar 0x48).toNat false false false = .ok p ∧ ∃ l ∈ s3.locks, (s3.bar 0x50).toNat ≤ 128 * l ∧ 128 * l < (s3.bar 0x50).toNat + p.size :=
  ⟨(migrating 0x500000).setBar 0x40 (BitVec.ofNat 64 (2 ^ 63 + 1)), { migrating 0x500000 with token := some 0 }, { migrating 0x500000 with locks := [0xA1FF] },
    by decide, by decide, by decide, by decide, by decide, parkedAt, by decide +kernel, 0xA1FF, by decide, by decide⟩

/-- A value that the register keeps, of which it keeps a part, and that it does not take. -/
theorem meets_RegisterMap_write : ∀ x ∈ [(0x38, 0x10000, some 0x10000), (0x28F0008, 0xFFFFFFFF, some 0x1FFFF), (0x28F0030, 1001, none)],
    ∃ s : State, x.1 ∈ plainRegisters ∧ Served s x.1 ∧ kept s.barLog x.1 (BitVec.ofNat 64 x.2.1) = x.2.2.map (BitVec.ofNat 64) :=
  fun x h => ⟨three [] [] [], by revert x; decide, .inl rfl, by revert x; decide⟩
theorem meets_RegisterMap_unserved : ∃ (a : Nat) (s : State), a ∈ plainRegisters ∧ ¬ Served s a ∧ s.boot.phase = .safe :=
  ⟨0x28F0000, { three [] [] [] with boot := { phase := .safe } }, by decide, by unfold Served; decide, rfl⟩
theorem meets_RegisterMap_half : ∃ (a n : Nat), n = 4 ∧ a % 4 = 0 ∧ a % 8 ≠ 0 := ⟨0x34, 4, by decide, by decide, by decide⟩
theorem meets_RegisterMap_bad : ∃ (a n : Nat), (n ≠ 8 ∨ a % 8 ≠ 0) ∧ (n ≠ 4 ∨ a % 4 ≠ 0) := ⟨4, 8, by decide, by decide⟩
theorem meets_RegisterMap_responses : ∃ v w : BitVec 64, BitVec.toNat v / 2 ^ 48 % 4 = 1 ∧ w.toNat / 2 ^ 48 % 4 = 2 := ⟨0x1000000000004, 0x2000000000004, by decide, by decide⟩
theorem meets_RegisterMap_cancel : ∃ (v : BitVec 64) (s : State) (gi : Nat), s.boot.phase = .ready ∧ s.token = none ∧ s.cancels = [] ∧
    ((List.range s.grids.length).find? fun g => (s.grid g).origin == .command (BitVec.toNat v % 64) (s.bar 0x60).toNat && (s.grid g).status.isNone) = some gi ∧
    (∃ k, k < s.teams.length ∧ (s.team k).grid = gi) ∧ ∃ c ∈ s.crews, c.team < s.teams.length ∧ (s.team c.team).grid = gi ∧ (s.team c.team).place ≠ .retired :=
  by
    refine ⟨5, { stored with
        grids := stored.grids.map fun g => { g with origin := .command 5 9 }
        bar0 := [(0x60, 9)] }, 0, ?_, ?_, ?_, ?_, ?_, ?_⟩ <;> decide +kernel
/-- CANCEL while the token is held waits. -/
theorem meets_RegisterMap_cancel_waits : ∃ s : State, s.boot.phase = .ready ∧ s.token ≠ none := ⟨{ stored with token := some 0 }, by decide +kernel, by decide⟩
theorem meets_RegisterMap_reroute : ∃ (s : State) (j k : Nat) (f g : FarOut) (n m : Nat), s.far[j]? = some f ∧ f.answer = none ∧ s.planeTo f.op.dst = some n ∧
    s.far[k]? = some g ∧ g.answer ≠ none ∧ g.plane = some m :=
  ⟨{ farWaiting with far := farWaiting.far ++ [{ op := ⟨7, 9, 15, 6, 8, .read .i64⟩, plane := some 4, answer := some .ack, use := .store 0 }] }, 0, 3, _, _, 9, 4,
    rfl, rfl, by decide +kernel, rfl, by decide, rfl⟩
theorem meets_RegisterMap_ports : ∃ (port lanes : Nat) (v : BitVec 64) (s : State), port < 18 ∧ s.portUp port = true ∧ v.getLsbD 0 = false ∧ lanes < 4 ∧ lanes < 8 :=
  ⟨17, 3, 2, farWaiting, by decide, by decide, by decide, by decide, by decide⟩

/-! ## Boot -/

/-- An image of five components of no bytes, with its digest. -/
def goodImage : List Byte :=
  let table := (List.range 5).flatMap fun k => leBytes 8 (k + 1) ++ leBytes 8 0
  leBytes 8 0x4E474657 ++ leBytes 8 144 ++ leBytes 8 5 ++ leBytes 8 0 ++ sha256 table ++ table

theorem meets_BootAndMailbox_image : imageGood goodImage = true := by decide +kernel
/-- In reset with a sound image and no records, with a bad image, and with step 1 failed in the boot before. -/
theorem meets_BootAndMailbox : ∃ s s' : State, s.boot.phase = .inReset ∧ (∀ r ∈ s.boot.ring, r.boot ≤ s.boot.number) ∧ s.boot.image.good = true ∧ s.boot.weak = [] ∧
    (∀ n step unit, failedIn (s.boot.ring.drop n) s.boot.number step unit = false) ∧
    s'.boot.phase = .inReset ∧ (∀ r ∈ s'.boot.ring, r.boot ≤ s'.boot.number) ∧ s'.boot.image.good = false :=
  ⟨State.reset, { State.reset with boot := { State.reset.boot with image := .stored [] } }, by decide, by decide, by decide, by decide,
    fun n step unit => by have h : State.reset.boot.ring = [] := rfl; simp [h, failedIn], by decide, by decide, by decide⟩
theorem meets_BootAndMailbox_spent : ∃ s : State, s.boot.phase = .inReset ∧ (∀ r ∈ s.boot.ring, r.boot ≤ s.boot.number) ∧ s.boot.image.good = true ∧ s.boot.weak = [] ∧
    s.boot.clearAlt = false ∧ altsOf s.boot.alts 1 0 = 0 ∧ s.boot.ring.length ≤ 32768 ∧ ∀ n, n ≤ 2 → failedIn (s.boot.ring.drop n) s.boot.number 1 0 = true := by
  let r : StepRec := { boot := 4, step := 1, unit := 0, finish := false }
  refine ⟨{ State.reset with boot := { State.reset.boot with number := 4, ring := [r, r, r] } }, by decide, by decide, by decide, by decide, by decide, by decide, by decide, ?_⟩
  intro n hn
  have : n = 0 ∨ n = 1 ∨ n = 2 := by omega
  rcases this with rfl | rfl | rfl <;> rfl
theorem meets_BootAndMailbox_reset : ∀ b : Bool, ∃ s : State, s.boot.phase ≠ .inReset ∧ s.boot.busy = b ∧ s.boot.flashing = none :=
  fun b => ⟨{ three [] [] [] with boot := { phase := .ready, busy := b } }, by simp, rfl, rfl⟩
theorem meets_BootAndMailbox_upload : ∃ (s : State) (n : Nat) (bs : List Byte), s.boot.phase ≠ .inReset ∧ s.boot.busy = false ∧ s.boot.upload = some (n, bs) ∧
    bs.length = n ∧ s.boot.flashing = none ∧ imageGood bs = true :=
  ⟨{ three [] [] [] with boot := { phase := .ready, upload := some (144, goodImage) } }, 144, goodImage, by decide, by decide, rfl, by decide +kernel, by decide, by decide +kernel⟩
theorem meets_BootAndMailbox_chunk : ∃ (s : State) (n : Nat) (bs : List Byte), s.boot.phase ≠ .inReset ∧ s.boot.busy = false ∧ s.boot.upload = some (n, bs) ∧
    s.arg 0 = bs.length ∧ bs.length + s.arg 1 ≤ n ∧ s.arg 1 ≤ 65536 :=
  ⟨{ three [] [] [] with
      boot := { phase := .recovery, upload := some (144, goodImage.take 100) }
      bar0 := [(0x3000010, 100), (0x3000018, 44)] }, 144, goodImage.take 100, by decide, by decide, rfl, by decide +kernel, by decide +kernel, by decide +kernel⟩

/-! ## Steps, encoding, invariants -/

/-- `movi` placed where the first instruction is fetched. -/
def placed : State := State.reset.withFetchWord 64 0x3A00200000000004
def placed1 : State := placed.tick.housekeep.markReady

theorem meets_StepRunsDecoded : placed1.takeInbox [] placed1.inbox = none ∧ placed1.boot.phase = .ready ∧ placed1.expanding = none ∧ placed1.nextEvent? = none ∧
    (placed1.pick).2 = some 0 ∧ 0 < placed1.crews.length ∧
    let s2 := (placed1.pick).1
    let c := s2.crew 0
    s2.fetchWord c.core (s2.asidOf c) c.pc.toNat = .ok 0x3A00200000000004 ∧ decode 0x3A00200000000004 = .ok (.movi .i64 4 { d := 2 }) := by decide +kernel

/-- A two-word instruction, a word with a reserved bit, and one that is not mapped. -/
def placedTwo : State := (State.reset.withFetchWord 128 (0xE00000A0C1400006 + 0x15000000 * 2 ^ 64)).tick.housekeep.markReady
theorem meets_StepRunsDecoded_two : placedTwo.takeInbox [] placedTwo.inbox = none ∧ placedTwo.boot.phase = .ready ∧ placedTwo.expanding = none ∧ placedTwo.nextEvent? = none ∧
    (placedTwo.pick).2 = some 0 ∧
    let s2 := (placedTwo.pick).1
    let c := s2.crew 0
    s2.fetchWord c.core (s2.asidOf c) c.pc.toNat = .ok 0xE00000A0C1400006 ∧ s2.fetchWord c.core (s2.asidOf c) (c.pc + 8).toNat = .ok 0x15000000 ∧
    decode (0xE00000A0C1400006 + 2 ^ 64 * 0x15000000) = .ok (.xld 6 { f1 := 10, f2 := 12, f3 := 20, f4 := 21 }) := by decide +kernel
def placedBad : State := (State.reset.withFetchWord 64 0xB500300002504000).tick.housekeep.markReady
theorem meets_StepRunsDecoded_bad : (placedBad.pick).2 = some 0 ∧
    let s2 := (placedBad.pick).1
    s2.fetchWord 0 1 (s2.crew 0).pc.toNat = .ok 0xB500300002504000 ∧ decode 0xB500300002504000 = .illegalEncoding 0xB5 := by decide +kernel
/-- The cached translation does not let the crew execute its page. -/
theorem meets_StepRunsDecoded_fault : ∃ s : State, s.fetchWord 0 1 0x3000000 = .error 4 := ⟨withTables (three [] [] []), by decide +kernel⟩
theorem meets_StepRunsDecoded_reset : State.reset.tick.housekeep.markReady.boot.phase = .inReset ∧
    State.reset.tick.housekeep.markReady.takeInbox [] State.reset.tick.housekeep.markReady.inbox = none := by decide +kernel
theorem meets_StepRunsDecoded_inbox : ∃ s1 : State, s1.takeInbox [] s1.inbox = some (.throttle, [(3, .deviceReset)]) :=
  ⟨{ State.reset with inbox := [(0, .throttle), (3, .deviceReset)] }, by decide⟩
theorem meets_StepRunsDecoded_expansion : ∃ (s1 : State) (k : Nat) (e : Expansion), s1.expanding = some k ∧ (s1.crew k).expansion = some e :=
  ⟨{ three [] [] [] with crews := (three [] [] []).crews.map fun c => { c with expansion := some { word := 0x2000101020000000, last := true, frees := [] } } }, 0, _, by decide, rfl⟩
theorem meets_StepRunsDecoded_event : ∃ (s1 : State) (i : Instr), s1.nextEvent? = some i := ⟨atCommit, .chunkCommit 0, by decide +kernel⟩

theorem meets_DecodeEncode : Instr.wellFormed (.iadd .i64 { d := 1, a := 1, b := 2 }) = true ∧
    decode 0x2000101020000000 = .ok (.iadd .i64 { d := 1, a := 1, b := 2 }) ∧ (opFormat (opByte 0x2000101020000000)).isSome = true := by decide

def atomBench : State := inRaw (three [int 0x2000008, int 0x2000010, int 0x2000018] [int 1, int 2, int 3] []) 8 [1, 2, 3]

theorem meets_MemoryStaysCanonical : ∃ i s t, Canonical s ∧ exec i s = .next t ∧ s.mem ≠ [] ∧ t.mem ≠ s.mem ∧ t.tags ≠ s.tags :=
  ⟨.atom .add .i64 { d := 3, base := 1, idx := 2 }, atomBench, nextOf atomBench (exec (.atom .add .i64 { d := 3, base := 1, idx := 2 }) atomBench),
    by unfold Canonical; decide +kernel, next_of (by decide +kernel), by decide +kernel, by decide +kernel, by decide +kernel⟩

theorem meets_MemoryStaysCanonical_step : ∃ s t, Canonical s ∧ step s = .next t := ⟨State.reset, nextOf State.reset (step State.reset), by unfold Canonical; decide, next_of (by decide +kernel)⟩

end Sys2Proof.Tests
end

section
/-! SUPPORT. What one step executes (R14, R55, R179, R190, R195, R197), branch by branch of `State.choose`, and what
`Obligations.StepRunsDecoded` (O56) comes to. All its clauses but the one about CLOCK hold in every state; that one depends on a
free value: a flash write that ends in recovery resets the part within the cycle (`State.driftFlash`, R418), and CLOCK with it, and
whether a write ends is the opaque `Config.freeBool`. So O56 stays open here: `stepRunsDecoded_iff_clock` says what is left of it, and
`not_stepRunsDecoded_of_flash_write_ends` which choice breaks it. -/

namespace Sys2Proof.Machine

open Sys2Proof

/-! ## What is fetched is what the word decodes to (R179, R195, R197) -/

theorem instrOf_of_decode_ok {w : Nat} {i : Instr} (h : decode w = .ok i) : instrOf w = i := by
  rw [instrOf, h]

theorem instrOf_of_decode_illegal {w : Nat} {b : BitVec 8} (h : decode w = .illegalEncoding b) :
    instrOf w = .illegalInstruction b true := by
  rw [instrOf, h]

theorem State.fetch_of_expansion {s : State} {k : Nat} {e : Expansion} (h : (s.crew k).expansion = some e) :
    s.fetch k = if e.illegal then .illegalInstruction (BitVec.ofNat 8 (e.word.toNat / 2 ^ 56)) true else instrOf e.word.toNat := by
  rw [State.fetch, h]

/-- The word at an address as the crew `k` fetches it. -/
def State.wordAt (s : State) (k : Nat) (a : BitVec 64) : Except Nat (BitVec 64) :=
  s.fetchWord (s.crew k).core (s.asidOf (s.crew k)) a.toNat

theorem State.wordAt_add_eight {s : State} {k : Nat} {a : BitVec 64} (room : a.toNat + 8 < 2 ^ 64) :
    s.wordAt k (a + 8) = s.fetchWord (s.crew k).core (s.asidOf (s.crew k)) (a.toNat + 8) := by
  rw [State.wordAt, BitVec.toNat_add_of_lt room]
  rfl

section Fetch
variable {s : State} {k : Nat} (plain : (s.crew k).expansion = none)
include plain

theorem State.fetch_of_fault {cause : Nat} (h : s.wordAt k (s.crew k).pc = .error cause) :
    s.fetch k = .translationFault k (s.crew k).pc cause false true false := by
  rw [State.wordAt] at h
  simp only [State.fetch, plain, h]

theorem State.fetch_of_one_word {w : BitVec 64} (h : s.wordAt k (s.crew k).pc = .ok w) (one : opFormat (w.toNat / 2 ^ 56) ≠ some .x) :
    s.fetch k = instrOf w.toNat := by
  rw [State.wordAt] at h
  simp only [State.fetch, plain, h, if_neg one]

section TwoWords
variable {w : BitVec 64} (room : (s.crew k).pc.toNat + 8 < 2 ^ 64) (first : s.wordAt k (s.crew k).pc = .ok w)
  (two : opFormat (w.toNat / 2 ^ 56) = some .x)
include room first two

theorem State.fetch_of_second_fault {cause : Nat} (h : s.wordAt k ((s.crew k).pc + 8) = .error cause) :
    s.fetch k = .translationFault k ((s.crew k).pc + 8) cause false true false := by
  rw [State.wordAt] at first
  rw [State.wordAt_add_eight room] at h
  simp only [State.fetch, plain, first, if_pos two, h]

theorem State.fetch_of_two_words {w2 : BitVec 64} (h : s.wordAt k ((s.crew k).pc + 8) = .ok w2) :
    s.fetch k = instrOf (w.toNat + 2 ^ 64 * w2.toNat) := by
  rw [State.wordAt] at first
  rw [State.wordAt_add_eight room] at h
  simp only [State.fetch, plain, first, if_pos two, h]

end TwoWords
end Fetch

/-- The line of a fetch changes only which lines the caches hold (R14). -/
theorem State.noteFetch_eq_copies (s : State) (k : Nat) : ∃ cs, s.noteFetch k = { s with copies := cs } := by
  simp only [State.noteFetch]
  split
  · exact ⟨s.copies, rfl⟩
  · split
    · exact ⟨_, rfl⟩
    · exact ⟨s.copies, rfl⟩

/-! ## The selection changes only its own marks on crews (R55) -/

/-- The crews' architectural state, chunks and expansions, and memory, are the same. -/
structure SameWork (s t : State) : Prop where
  mem : t.mem = s.mem
  arch : ∀ j, (t.crew j).arch = (s.crew j).arch
  chunk : ∀ j, (t.crew j).chunk = (s.crew j).chunk
  expansion : ∀ j, (t.crew j).expansion = (s.crew j).expansion

theorem SameWork.refl (s : State) : SameWork s s := ⟨rfl, fun _ => rfl, fun _ => rfl, fun _ => rfl⟩

/-- A crew is set to one that has the same of whatever `f` reads: no crew's `f` changes. -/
theorem State.crew_setCrew_keeps {α : Type} (f : Crew → α) {s : State} {k : Nat} {c : Crew} (h : f c = f (s.crew k)) (j : Nat) :
    f ((s.setCrew k c).crew j) = f (s.crew j) := by
  by_cases hj : j = k
  · subst hj
    by_cases hlen : j < s.crews.length
    · rw [State.crew_setCrew_same s j c hlen, h]
    · simp only [State.crew, State.setCrew_crews, List.set_eq_of_length_le (Nat.le_of_not_lt hlen)]
  · rw [State.crew_setCrew_other s k j c hj]

theorem SameWork.setCrew {s t : State} (h : SameWork s t) {k : Nat} {c : Crew} (harch : c.arch = (t.crew k).arch)
    (hchunk : c.chunk = (t.crew k).chunk) (hexp : c.expansion = (t.crew k).expansion) : SameWork s (t.setCrew k c) where
  mem := h.mem
  arch j := (State.crew_setCrew_keeps Crew.arch harch j).trans (h.arch j)
  chunk j := (State.crew_setCrew_keeps Crew.chunk hchunk j).trans (h.chunk j)
  expansion j := (State.crew_setCrew_keeps Crew.expansion hexp j).trans (h.expansion j)

/-- Beginning a round marks crews and changes nothing else of them. -/
theorem SameWork.beginRound (s : State) (ks : List Nat) :
    SameWork s (ks.foldl (fun s k => s.setCrew k { s.crew k with inRound := true }) s) :=
  List.foldlRecOn ks _ (SameWork.refl s) fun _ h _ _ => h.setCrew rfl rfl rfl

theorem State.first_mem {s : State} {ks : List Nat} {k : Nat} (h : s.first ks = some k) : k ∈ ks := by
  induction ks with
  | nil => simp [State.first] at h
  | cons x t ih => grind [State.first]

/-- The crew that is picked was ready, it is the one in focus, and the work of all crews is as it was. -/
theorem State.pick_some {s t : State} {k : Nat} (h : s.pick = (t, some k)) :
    (k < s.crews.length ∧ s.ready k = true) ∧ t.focus = some k ∧ SameWork s t := by
  simp only [State.pick] at h
  split at h
  · simp at h
  next q _ =>
    set mine := ((List.range s.crews.length).filter s.ready).filter fun k => (s.crew k).quadNo == q with hmine
    obtain ⟨u, members, hround, hsub, hwork⟩ :
        ∃ u members, (if (mine.filter fun k => (s.crew k).inRound).isEmpty then
            (mine.foldl (fun s k => s.setCrew k { s.crew k with inRound := true }) s, mine)
          else (s, mine.filter fun k => (s.crew k).inRound)) = (u, members) ∧ members ⊆ mine ∧ SameWork s u := by
      split
      · exact ⟨_, _, rfl, List.Subset.refl _, SameWork.beginRound s mine⟩
      · exact ⟨_, _, rfl, List.filter_subset_self _, SameWork.refl s⟩
    rw [hround] at h
    dsimp only at h
    split at h
    · simp at h
    next m hfirst =>
      injection h with ht hk
      injection hk with hk
      subst hk
      have hm : m ∈ mine := hsub (State.first_mem hfirst)
      simp only [hmine, List.mem_filter, List.mem_range] at hm
      have hset := hwork.setCrew (k := m) (c := { u.crew m with inRound := false, readySince := u.clock.toNat }) rfl rfl rfl
      obtain ⟨hmem, harch, hchunk, hexp⟩ := hset
      subst ht
      exact ⟨hm.1, rfl, hmem, harch, hchunk, hexp⟩

/-- Where no ready crew stands within the body of an `mcall`, a ready crew's instruction comes from its PC. -/
theorem State.expansion_of_expanding_none {s : State} (h : s.expanding = none) {k : Nat} (hlen : k < s.crews.length)
    (hready : s.ready k = true) : (s.crew k).expansion = none := by
  have := List.find?_eq_none.mp h k (List.mem_range.mpr hlen)
  simpa [hready] using this

/-! ## What comes first (entries 1, 2 and 4) -/

theorem step_of_choose {s t : State} {i : Instr} (h : s.choose = (t, some i)) : step s = exec i t := by
  rw [step, h]

theorem step_of_choose_none {s t : State} (h : s.choose = (t, none)) : step s = .next t := by
  rw [step, h]

/-- The state in which a step chooses: a cycle has passed. -/
def State.cycled (s : State) : State := s.tick.housekeep.markReady

section Choice
variable {s : State}

theorem step_of_inbox {i : Instr} {rest : List (Nat × Instr)} (h : s.cycled.takeInbox [] s.cycled.inbox = some (i, rest)) :
    step s = exec i { s.cycled with inbox := rest } :=
  step_of_choose <| by
    rw [State.cycled] at h
    simp only [State.choose, h, State.cycled]

variable (quiet : s.cycled.takeInbox [] s.cycled.inbox = none)
include quiet

theorem step_of_inReset (h : s.cycled.boot.phase = .inReset) : step s = exec .deviceReset s.cycled :=
  step_of_choose <| by
    rw [State.cycled] at quiet h
    simp only [State.choose, quiet, h, State.cycled]

theorem step_of_not_ready (h : s.cycled.boot.phase = .safe ∨ s.cycled.boot.phase = .recovery) : step s = .next s.cycled :=
  step_of_choose_none <| by
    rw [State.cycled] at quiet h
    rcases h with h | h <;> simp only [State.choose, quiet, h, State.cycled]

variable (up : s.cycled.boot.phase = .ready)
include up

theorem step_of_expanding {k : Nat} (h : s.cycled.expanding = some k) :
    step s = exec (s.cycled.fetch k) { s.cycled with focus := some k } :=
  step_of_choose <| by
    rw [State.cycled] at quiet up h
    simp only [State.choose, quiet, up, h, State.cycled]

variable (plain : s.cycled.expanding = none)
include plain

theorem step_of_nextEvent {i : Instr} (h : s.cycled.nextEvent? = some i) : step s = exec i s.cycled :=
  step_of_choose <| by
    rw [State.cycled] at quiet up plain h
    simp only [State.choose, quiet, up, plain, h, State.cycled]

variable (idle : s.cycled.nextEvent? = none)
include idle

theorem step_of_engineDue {i : Instr} (due : s.cycled.engineDue = some i)
    (first : s.cycled.engineFirst = true ∨ ∃ t, s.cycled.pick = (t, none)) :
    step s = exec i { s.cycled with freeCtr := s.cycled.freeCtr + 2, enginesPassed := 0 } :=
  step_of_choose <| by
    rw [State.cycled] at quiet up plain idle due first
    obtain h | ⟨t, h⟩ := first <;> simp [State.choose, quiet, up, plain, idle, due, h, State.cycled]

theorem step_of_nothing {t : State} (due : s.cycled.engineDue = none) (h : s.cycled.pick = (t, none)) : step s = .next t :=
  step_of_choose_none <| by
    rw [State.cycled] at quiet up plain idle due h
    simp only [State.choose, quiet, up, plain, idle, due, h]

/-- A bundle issues: the instruction fetched for the picked crew executes in the picked state with the line of the fetch noted,
and with the engines' patience counted where an engine's event was due. -/
theorem step_of_pick {t : State} {k : Nat} (h : s.cycled.pick = (t, some k))
    (before : s.cycled.engineDue = none ∨ s.cycled.engineFirst = false) :
    ∃ u : State, { u with copies := t.copies, freeCtr := t.freeCtr, enginesPassed := t.enginesPassed } = t ∧
      (s.cycled.engineDue ≠ none → u.enginesPassed = s.cycled.enginesPassed + 1) ∧ step s = exec (t.fetch k) u := by
  obtain ⟨cs, hnote⟩ := t.noteFetch_eq_copies k
  rw [State.cycled] at quiet up plain idle h before
  rw [State.cycled]
  cases due : s.tick.housekeep.markReady.engineDue with
  | none =>
    refine ⟨t.noteFetch k, by rw [hnote], fun hne => absurd rfl hne, step_of_choose ?_⟩
    simp only [State.choose, quiet, up, plain, idle, due, h]
  | some i =>
    have hlast : s.tick.housekeep.markReady.engineFirst = false := by simpa [due] using before
    refine ⟨{ t.noteFetch k with
      freeCtr := s.tick.housekeep.markReady.freeCtr + 2
      enginesPassed := s.tick.housekeep.markReady.enginesPassed + 1 }, by rw [hnote], fun _ => rfl, step_of_choose ?_⟩
    simp [State.choose, quiet, up, plain, idle, due, h, hlast]

end Choice

/-! ## What the statement comes to -/

/-- A step that issues a bundle executes what the picked crew's word decodes to, or the fault of its fetch. -/
theorem step_of_fetched {s t u : State} {k : Nat} (plain : (t.crew k).expansion = none) (hstep : step s = exec (t.fetch k) u) :
    let c := t.crew k
    let fetch : BitVec 64 → Except Nat (BitVec 64) := fun a => t.fetchWord c.core (t.asidOf c) a.toNat
    (∀ w i, fetch c.pc = .ok w → opFormat (w.toNat / 2 ^ 56) ≠ some .x → decode w.toNat = .ok i → step s = exec i u) ∧
    (∀ w b, fetch c.pc = .ok w → opFormat (w.toNat / 2 ^ 56) ≠ some .x → decode w.toNat = .illegalEncoding b →
      step s = exec (.illegalInstruction b true) u) ∧
    (∀ w cause, c.pc.toNat + 8 < 2 ^ 64 → fetch c.pc = .ok w → opFormat (w.toNat / 2 ^ 56) = some .x → fetch (c.pc + 8) = .error cause →
      step s = exec (.translationFault k (c.pc + 8) cause false true false) u) ∧
    (∀ cause, fetch c.pc = .error cause → step s = exec (.translationFault k c.pc cause false true false) u) ∧
    ∀ w w2 i, c.pc.toNat + 8 < 2 ^ 64 → fetch c.pc = .ok w → opFormat (w.toNat / 2 ^ 56) = some .x → fetch (c.pc + 8) = .ok w2 →
      decode (w.toNat + 2 ^ 64 * w2.toNat) = .ok i → step s = exec i u := by
  rw [hstep]
  refine ⟨fun w i hw one hi => ?_, fun w b hw one hb => ?_, fun w cause room hw two h2 => ?_, fun cause h => ?_,
    fun w w2 i room hw two h2 hi => ?_⟩
  · rw [State.fetch_of_one_word plain hw one, instrOf_of_decode_ok hi]
  · rw [State.fetch_of_one_word plain hw one, instrOf_of_decode_illegal hb]
  · rw [State.fetch_of_second_fault plain room hw two h2]
  · rw [State.fetch_of_fault plain h]
  · rw [State.fetch_of_two_words plain room hw two h2, instrOf_of_decode_ok hi]

/-- All of the statement but its clause about CLOCK holds in every state. -/
theorem stepRunsDecoded_iff_clock : Obligations.StepRunsDecoded ↔ ∀ s : State, s.cycled.clock = s.clock + 1 := by
  unfold Obligations.StepRunsDecoded
  refine ⟨fun h s => (h s _ rfl).1, ?_⟩
  rintro hclock s _ rfl
  refine ⟨hclock s, fun i rest => step_of_inbox, step_of_inReset, step_of_not_ready, fun quiet up => ⟨fun k e hk he => ?_,
    fun i plain => step_of_nextEvent quiet up plain, fun plain idle => ⟨fun i => step_of_engineDue quiet up plain idle,
      fun t => step_of_nothing quiet up plain idle, fun t k hpick before hlen => ?_⟩⟩⟩
  · rw [step_of_expanding quiet up hk, State.cycled, State.fetch_of_expansion he]
  · obtain ⟨⟨_, hready⟩, hfocus, hwork⟩ := State.pick_some hpick
    obtain ⟨u, hu, hpassed, hstep⟩ := step_of_pick quiet up plain idle hpick before
    have hplain : (t.crew k).expansion = none :=
      (hwork.expansion k).trans (State.expansion_of_expanding_none plain hlen hready)
    exact ⟨hfocus, hwork.mem, fun j => ⟨hwork.arch j, hwork.chunk j⟩, u, hu, hpassed, step_of_fetched hplain hstep⟩

/-- A part in recovery while a flash write is under way, at the free choice `n`. -/
def recoveringAt (n : Nat) : State := { freeCtr := n, boot := { phase := .recovery, flashing := some [] } }

/-- A write that ends now resets the part, and CLOCK reads 0 (R418, R432). -/
theorem cycled_clock_of_flash_write_ends {n : Nat} (h : Config.freeBool n = false) : (recoveringAt n).cycled.clock = 0 := by
  have hend : (recoveringAt n).tick.driftHost.driftFlash = { State.reset with
      freeCtr := n + 2
      boot := { phase := .inReset, image := .stored [] } } := by
    simp only [State.driftFlash, State.driftHost, State.tick, recoveringAt, h]
    rfl
  rw [State.cycled, State.housekeep, hend]
  simp [State.takeMet, State.noteCleared, State.pumpPushes, State.pumpFaults, State.pumpGrids, State.settleInvalidate, State.bar,
    SMap.get, SMap.get?, State.settleMigrate, State.settleCancels, State.freeCtxs, State.markReady, State.reset]

/-- Where some free choice lets a flash write end, the statement fails. -/
theorem not_stepRunsDecoded_of_flash_write_ends {n : Nat} (h : Config.freeBool n = false) : ¬ Obligations.StepRunsDecoded := by
  rw [stepRunsDecoded_iff_clock]
  intro hclock
  have hzero := cycled_clock_of_flash_write_ends h
  rw [hclock (recoveringAt n)] at hzero
  exact absurd hzero (by simp [recoveringAt])

end Sys2Proof.Machine
end

section
/-! SUPPORT. Frames: the fields of the state that the shared operations on memory, chunks and faults can change. -/

namespace Sys2Proof.Machine

open Sys2Proof Sys2Proof.Claims

theorem State.writeBack_frame (s : State) (p : Nat → Bool) :
    ∃ d u, s.writeBack p = { s with dram := d, unflushed := u } := ⟨_, _, rfl⟩

theorem State.l2Put_frame (s : State) (line : Nat) :
    ∃ cs d u, s.l2Put line = { s with copies := cs, dram := d, unflushed := u } := by
  unfold State.l2Put
  split
  · exact ⟨_, _, _, rfl⟩
  · exact ⟨_, s.dram, s.unflushed, rfl⟩

theorem State.noteUnflushed_frame (s : State) (k : Nat) :
    ∃ cs d u, s.noteUnflushed k = { s with copies := cs, dram := d, unflushed := u } := by
  unfold State.noteUnflushed
  split
  · dsimp only
    split
    · exact ⟨_, s.dram, s.unflushed, rfl⟩
    · obtain ⟨cs, d, u, h⟩ := (s.dropCopies true fun l => l == k / 128).l2Put_frame (k / 128)
      rw [h]
      exact ⟨_, _, _, rfl⟩
  · exact ⟨s.copies, s.dram, s.unflushed, rfl⟩

/-- Writing committed words reaches memory, tags and the caches alone. -/
theorem State.pokeWords_frame (s : State) (k : Nat) (ws : List TWord) :
    ∃ m tg cs d u, s.pokeWords k ws = { s with mem := m, tags := tg, copies := cs, dram := d, unflushed := u } := by
  induction ws generalizing s k with
  | nil => exact ⟨s.mem, s.tags, s.copies, s.dram, s.unflushed, rfl⟩
  | cons w ws ih =>
    obtain ⟨cs, d, u, hn⟩ := ((s.pokeBytes k (leBytes 8 w.payload.toNat)).pokeTag (k / 8) w.tag).noteUnflushed_frame k
    obtain ⟨m, tg, cs', d', u', hi⟩ := ih (((s.pokeBytes k (leBytes 8 w.payload.toNat)).pokeTag (k / 8) w.tag).noteUnflushed k) (k + 8)
    rw [State.pokeWords, hi, hn]
    exact ⟨m, tg, cs', d', u', rfl⟩

theorem State.fallBack_frame (s : State) (ci : Nat) : ∃ cs qs, s.fallBack ci = { s with crews := cs, quads := qs } := by
  have hfold : ∀ (f : State → Nat × Nat → Nat × Crew) (hs : List (Nat × Nat)) (t : State),
      ∃ cs, hs.foldl (fun t h => t.setCrew (f t h).1 (f t h).2) t = { t with crews := cs } := by
    intro f hs
    induction hs with
    | nil => exact fun t => ⟨t.crews, rfl⟩
    | cons h hs ih =>
      intro t
      obtain ⟨cs, e⟩ := ih (t.setCrew (f t h).1 (f t h).2)
      exact ⟨cs, by rw [List.foldl_cons, e]; rfl⟩
  unfold State.fallBack
  obtain ⟨cs, e⟩ := hfold (fun t h => (h.2,
    let old := t.crew h.2
    let th := { old.thread h.1 with st := .active }
    let hc := (old.setThread h.1 th).rejoin old
    { hc with chunk := { hc.chunk with start := { hc.chunk.start with threads := hc.chunk.start.threads.set h.1 th } } }))
    (s.crew ci).homes s
  dsimp only at e ⊢
  rw [e]
  exact ⟨_, _, rfl⟩

/-- A squash reaches crews, regrouping tables and grants alone. -/
theorem State.squashCrew_frame (s : State) (ci : Nat) (b : Bool) :
    ∃ cs qs gs, s.squashCrew ci b = { s with crews := cs, quads := qs, grants := gs } := by
  unfold State.squashCrew
  dsimp only
  split
  · split
    · exact ⟨_, s.quads, _, rfl⟩
    · obtain ⟨cs, qs, e⟩ := (({ s with grants := s.grants.filter fun g => g.2 != ci } : State).setCrew ci ((s.crew ci).squash b)).fallBack_frame ci
      exact ⟨cs, qs, _, e⟩
  · exact ⟨_, s.quads, _, rfl⟩

/-- The squash of a crew's own chunk: the crew and its grants alone (R83). -/
theorem State.squashCrew_own {s : State} {ci : Nat} {b : Bool} (own : (s.crew ci).homes = []) :
    s.squashCrew ci b = { s with grants := s.grants.filter fun g => g.2 != ci }.setCrew ci ((s.crew ci).squash b) := by
  have h : (s.crew ci).isComposite = false := by simp [Crew.isComposite, own]
  simp [State.squashCrew, h]

theorem State.squashWhere_frame (s : State) (ci : Option Nat) (p : Crew → Bool) :
    ∃ cs qs gs, s.squashWhere ci p = { s with crews := cs, quads := qs, grants := gs } := by
  unfold State.squashWhere
  generalize List.range s.crews.length = ks
  induction ks generalizing s with
  | nil => exact ⟨s.crews, s.quads, s.grants, rfl⟩
  | cons k ks ih =>
    rw [List.foldl_cons]
    split
    · obtain ⟨cs, qs, gs, hs⟩ := s.squashCrew_frame k true
      obtain ⟨cs', qs', gs', hi⟩ := ih (s.squashCrew k true)
      exact ⟨cs', qs', gs', by rw [hi, hs]⟩
    · exact ih s

/-- An event's write reaches memory and the caches, and the chunks that it squashes. -/
theorem State.eventWrite_frame (s : State) (ci : Option Nat) (k : Nat) (bs : List Byte) :
    ∃ m cs d u p crs qs gs, s.eventWrite ci k bs =
      { s with mem := m, copies := cs, dram := d, unflushed := u, poisoned := p, crews := crs, quads := qs, grants := gs } := by
  obtain ⟨crs, qs, gs, hsq⟩ := s.squashWhere_frame ci (writeMeets (eventLocs k bs.length))
  obtain ⟨cs, d, u, h1⟩ := ((s.eventSquash ci (eventLocs k bs.length)).pokeBytes k bs).noteUnflushed_frame k
  obtain ⟨cs', d', u', h2⟩ :=
    (((s.eventSquash ci (eventLocs k bs.length)).pokeBytes k bs).noteUnflushed k).noteUnflushed_frame (k + bs.length - 1)
  unfold State.eventWrite
  rw [h2, h1, State.eventSquash, hsq]
  exact ⟨_, _, _, _, _, _, _, _, rfl⟩

theorem State.rewriteRecord_frame (s : State) (ci : Nat) :
    ∃ m tg cs d u, s.rewriteRecord ci = { s with mem := m, tags := tg, copies := cs, dram := d, unflushed := u } := by
  unfold State.rewriteRecord
  dsimp only
  split
  · exact s.pokeWords_frame _ _
  · exact ⟨s.mem, s.tags, s.copies, s.dram, s.unflushed, rfl⟩

/-- Saving a crew reaches its context's save area and the crew alone (R406). -/
theorem State.saveCrew_frame (s : State) (ci : Nat) : ∃ m tg cs d u xs c, s.saveCrew ci =
    { s with mem := m, tags := tg, copies := cs, dram := d, unflushed := u, ctxs := xs }.setCrew ci c := by
  unfold State.saveCrew State.takeSave
  dsimp only
  split
  · exact ⟨s.mem, s.tags, s.copies, s.dram, s.unflushed, s.ctxs, _, rfl⟩
  · rename_i s' x off heq
    split at heq
    · cases heq
    · split at heq
      · obtain ⟨rfl, rfl, rfl⟩ := heq
        obtain ⟨m, tg, cs, d, u, h⟩ := State.pokeWords_frame (s.setCtx _) _ (((s.crew ci).drainAll).record (s.setCtx _).seqOf)
        rw [h]
        exact ⟨m, tg, cs, d, u, _, _, rfl⟩
      · cases heq

end Sys2Proof.Machine
end

section
/-! SUPPORT. Chunks are isolated (R76, R77, R86): what an instruction that is no event leaves alone, body by body, and `Obligations.ChunksAreIsolated` (O37). -/

namespace Sys2Proof.Machine

open Sys2Proof Sys2Proof.Claims

/-! ## Fault records (R396, R397) -/

/-- The pages of the fault records: what a new fault is compared with (R396). -/
def State.faultPages (s : State) : List (Nat × Nat × BitVec 64) := s.faults.map fun f => (f.asid, f.die, f.va)

theorem State.putFault_faultPages (s : State) (f : FaultRec) : (s.putFault f).faultPages = s.faultPages := by
  have hrewrite : ∀ (ks : List Nat) (t : State),
      (ks.foldl (fun s ci => if (s.crew ci).wake == some (.fault f.number) then s.rewriteRecord ci else s) t).faults = t.faults := by
    intro ks t
    refine List.foldlRecOn (motive := fun u : State => u.faults = t.faults) ks _ rfl fun u hu k _ => ?_
    split
    · obtain ⟨m, tg, cs, d, u', h⟩ := u.rewriteRecord_frame k
      rw [h]
      exact hu
    · exact hu
  obtain ⟨m, cs, d, u, p, crs, qs, gs, hw⟩ := s.eventWrite_frame none
    (Config.windowBase + s.faultRing.1 + 32 * (s.faultTail % 2 ^ s.faultRing.2.1))
    (leBytes 8 f.va.toNat ++ leBytes 8 f.info.toNat ++ leBytes 8 s.faultTail ++ leBytes 8 0)
  have hfaults : (s.putFault f).faults =
      s.faults.map fun g => if g.number = f.number then { g with seq := some s.faultTail } else g := by
    unfold State.putFault
    dsimp only
    split
    · exact (hrewrite _ _).trans (by rw [hw])
    · exact (hrewrite _ _).trans (by rw [hw])
  rw [State.faultPages, hfaults, State.faultPages, List.map_map]
  refine List.map_congr_left fun g _ => ?_
  simp only [Function.comp]
  split <;> rfl

/-- Writing the records that wait keeps the faults' pages. -/
theorem State.pumpFaults_faultPages (s : State) : s.pumpFaults.faultPages = s.faultPages := by
  refine List.foldlRecOn (motive := fun u : State => u.faultPages = s.faultPages) _ _ rfl fun u hu f _ => ?_
  split
  · rw [State.putFault_faultPages, hu]
  · exact hu

theorem State.saveCrew_faults (s : State) (ci : Nat) : (s.saveCrew ci).faults = s.faults := by
  obtain ⟨m, tg, cs, d, u, xs, c, h⟩ := s.saveCrew_frame ci
  rw [h]
  rfl

/-- A record that takes one more crew is no record that stood. -/
theorem not_subset_joined {fs : List FaultRec} {f : FaultRec} (hf : f ∈ fs) (ci : Nat) :
    ¬ ∀ k ∈ fs.map (fun g => if g.number = f.number then { g with crews := g.crews ++ [ci] } else g), k ∈ fs := by
  intro hsub
  have hlonger : ∀ n, ∃ g ∈ fs, g.number = f.number ∧ n ≤ g.crews.length := by
    intro n
    induction n with
    | zero => exact ⟨f, hf, rfl, Nat.zero_le _⟩
    | succ n ih =>
      obtain ⟨g, hg, hnum, hlen⟩ := ih
      have hmem := hsub { g with crews := g.crews ++ [ci] } (List.mem_map.2 ⟨g, hg, by rw [if_pos hnum]⟩)
      exact ⟨_, hmem, hnum, by simp; omega⟩
  obtain ⟨g, hg, -, hlen⟩ := hlonger ((fs.map fun g => g.crews.length).sum + 1)
  have hle : g.crews.length ≤ (fs.map fun g => g.crews.length).sum :=
    List.single_le_sum (by simp) _ (List.mem_map.2 ⟨g, hg, rfl⟩)
  omega

/-! ## What stays of the other crews -/

/-- Committed memory, tags and presence bits stay, and `f` of every crew but one. -/
structure Isolated {α : Type} (f : Crew → α) (s t : State) (ci : Nat) : Prop where
  mem : t.mem = s.mem
  tags : t.tags = s.tags
  absent : t.absent = s.absent
  crews : ∀ k, k ≠ ci → f (t.crew k) = f (s.crew k)

section
variable {α : Type} {f : Crew → α} {s t : State} {ci : Nat}

theorem Isolated.refl (s : State) (ci : Nat) : Isolated f s s ci := ⟨rfl, rfl, rfl, fun _ _ => rfl⟩

theorem Isolated.trans {u : State} (h : Isolated f s t ci) (h' : Isolated f t u ci) : Isolated f s u ci where
  mem := h'.mem.trans h.mem
  tags := h'.tags.trans h.tags
  absent := h'.absent.trans h.absent
  crews k hk := (h'.crews k hk).trans (h.crews k hk)

/-- The crew's own work is not another's. -/
theorem Isolated.setCrew (h : Isolated f s t ci) (c : Crew) : Isolated f s (t.setCrew ci c) ci where
  mem := h.mem
  tags := h.tags
  absent := h.absent
  crews k hk := by rw [State.crew_setCrew_other _ _ _ _ hk, h.crews k hk]

/-- States that agree in memory and crews are as good. -/
theorem Isolated.of_eq {u : State} (h : Isolated f s t ci) (mem : u.mem = t.mem) (tags : u.tags = t.tags) (absent : u.absent = t.absent)
    (crews : u.crews = t.crews) : Isolated f s u ci where
  mem := mem.trans h.mem
  tags := tags.trans h.tags
  absent := absent.trans h.absent
  crews k hk := by rw [State.crew, crews]; exact h.crews k hk

theorem State.fillTlb_frame (s : State) (core asid : Nat) (pages : List (Nat × Nat)) :
    ∃ t, s.fillTlb core asid pages = { s with tlb := t } := by
  refine List.foldlRecOn (motive := fun u : State => ∃ t, u = { s with tlb := t }) pages _ ⟨s.tlb, rfl⟩ fun u hu p _ => ?_
  obtain ⟨t, rfl⟩ := hu
  dsimp only
  split
  · exact ⟨_, rfl⟩
  · exact ⟨_, rfl⟩

theorem Isolated.fillTlb (h : Isolated f s t ci) (core asid : Nat) (pages : List (Nat × Nat)) :
    Isolated f s (t.fillTlb core asid pages) ci := by
  obtain ⟨x, hx⟩ := t.fillTlb_frame core asid pages
  rw [hx]
  exact h.of_eq rfl rfl rfl rfl

theorem Isolated.squashCrew (h : Isolated f s t ci) (own : (t.crew ci).homes = []) (b : Bool) :
    Isolated f s (t.squashCrew ci b) ci := by
  rw [State.squashCrew_own own]
  refine Isolated.setCrew (h.of_eq ?_ ?_ ?_ ?_) _ <;> rfl

/-- A translation fault of a crew that queues no record reaches the crew, the translations and the doomed alone (R396). -/
theorem Isolated.faultCrew {va : BitVec 64} {cause : Nat} {write fetch engine : Bool} (own : (s.crew ci).homes = [])
    (quiet : ∀ k ∈ (s.faultCrew ci va cause write fetch engine).faults, k ∈ s.faults) :
    Isolated f s (s.faultCrew ci va cause write fetch engine) ci := by
  have hsq : Isolated f s (s.squashCrew ci false) ci := (Isolated.refl s ci).squashCrew own false
  have hsf : (s.squashCrew ci false).faults = s.faults := by rw [State.squashCrew_own own]; rfl
  have hcomp : (s.crew ci).isComposite = false := by simp [Crew.isComposite, own]
  generalize hdef : s.squashCrew ci false = q at hsq hsf
  unfold State.faultCrew at quiet ⊢
  simp only [Bool.false_and, Bool.false_eq_true, if_false, hcomp, hdef] at quiet ⊢
  split at quiet
  · rename_i hc
    simp only [hc, if_true]
    exact (hsq.setCrew _).of_eq rfl rfl rfl rfl
  rename_i hc
  simp only [hc, if_false]
  split at quiet
  · rename_i h6
    simp only [h6, if_true]
    exact (hsq.setCrew _).of_eq rfl rfl rfl rfl
  rename_i h6
  simp only [h6, if_false]
  split at quiet
  · rename_i hwalk
    exact hsq.of_eq rfl rfl rfl rfl
  · exfalso
    split at quiet
    · rename_i g hfind
      rw [State.saveCrew_faults, State.setCrew_faults] at quiet
      exact not_subset_joined (List.mem_of_find?_eq_some hfind) ci (hsf ▸ quiet)
    · rename_i hfind
      generalize hu : State.saveCrew _ ci = u at quiet
      have hadded : (s.asidOf (s.crew ci), (s.crew ci).core / 48, va) ∈ u.pumpFaults.faultPages := by
        rw [State.pumpFaults_faultPages, State.faultPages, ← hu, State.saveCrew_faults, State.setCrew_faults]
        simp
      obtain ⟨g, hg, he⟩ := List.mem_map.1 hadded
      obtain ⟨hasid, hdie, hva⟩ : g.asid = _ ∧ g.die = _ ∧ g.va = va := by simpa using he
      have hno := List.find?_eq_none.1 hfind g (hsf ▸ quiet g hg)
      simp [hasid, hdie, hva] at hno

end

/-! ## Bodies that leave the rest alone -/

/-- What a body answers leaves memory and the other crews' `f` alone, and a wait keeps what the crew has pending. -/
def BodyRes.Keeps {α : Type} (f : Crew → α) (s : State) (ci : Nat) (c : Crew) : BodyRes → Prop
  | .ok t _ _ _ => Isolated f s t ci
  | .block t c' _ => Isolated f s t ci ∧ c'.pend = c.pend ∧ c'.svcLeft = c.svcLeft
  | .done t => Isolated f s t ci
  | .xfault .. => True
  | .endChunk => True
  | .stall => True

section
variable {α : Type} {f : Crew → α} {s t : State} {i : Instr} {ci : Nat} {c : Crew} {lanes : List Nat}

/-- The end of an instruction that is not irrevocable, and that queues no fault record. -/
theorem Isolated.conclude {c' : Crew} {outs : List LaneOut} {fin : Bool} (hlen : ci < s.crews.length) (own : c.homes = [])
    (hcls : i.cls ≠ .irrevocable) (h : Isolated f s t ci)
    (quiet : ∀ k ∈ (State.conclude i ci s c t c' lanes outs fin).faults, k ∈ s.faults) :
    Isolated f s (State.conclude i ci s c t c' lanes outs fin) ci := by
  have hout : ∀ x, outsideChunk i x = false := fun x => by simp [outsideChunk, hcls]
  have hcomp : c.isComposite = false := by simp [Crew.isComposite, own]
  have hself := Isolated.refl (f := f) s ci
  unfold State.conclude at quiet ⊢
  simp only [hout, hcomp, Bool.not_false, Bool.true_and, Bool.and_false, Bool.false_and, Bool.false_eq_true, if_false] at quiet ⊢
  split at quiet
  · refine (hself.setCrew _).trans (Isolated.faultCrew ?_ quiet)
    rw [State.crew_setCrew_same _ _ _ hlen]
    exact own
  · exact hself.setCrew _
  · split
    · exact hself.setCrew _
    · split
      · exact hself.setCrew _
      · exact (h.setCrew _).fillTlb _ _ _

/-- A bundle whose body leaves the rest alone. -/
theorem Isolated.issue {b : Body} (h : Issues s i ci c lanes) (hcls : i.cls ≠ .irrevocable)
    (hb : (b s ci c (execLanes i c lanes)).Keeps f s ci c) (hrun : issue i b s = .next t) (quiet : ∀ k ∈ t.faults, k ∈ s.faults) :
    Isolated f s t ci := by
  have hlen := (stand_crew h.stand).1
  have hout : outsideChunk i c = false := by simp [outsideChunk, hcls]
  have hself := Isolated.refl (f := f) s ci
  rw [issue_body b h, hout] at hrun
  generalize b s ci c (execLanes i c lanes) = r at hb hrun
  cases r with
  | ok u c' outs fin =>
    obtain rfl := Host.Outcome.next.inj hrun
    exact Isolated.conclude hlen h.own hcls hb quiet
  | xfault va cause write =>
    obtain rfl := Host.Outcome.next.inj hrun
    refine (hself.setCrew _).trans (Isolated.faultCrew ?_ quiet)
    rw [State.crew_setCrew_same _ _ _ hlen]
    exact h.own
  | block u c' w =>
    obtain rfl := Host.Outcome.next.inj hrun
    obtain ⟨hu, hpend, hsvc⟩ := hb
    rw [deliverDue_nil _ _ _ (hpend.trans h.pend), State.blockAt, hsvc, h.svc]
    exact hu.setCrew _
  | endChunk =>
    obtain rfl := Host.Outcome.next.inj hrun
    exact hself.setCrew _
  | stall =>
    obtain rfl := Host.Outcome.next.inj hrun
    exact hself.setCrew _
  | done u =>
    obtain rfl := Host.Outcome.next.inj hrun
    exact hb

end

/-- A body that, in a crew's own bundle, leaves memory and all other crews alone. -/
def Body.Quiet (b : Body) : Prop := ∀ s ci c lanes, c.homes = [] → (b s ci c lanes).Keeps id s ci c

/-- A body that performs no event and neither waits nor finishes its step itself. -/
theorem Body.Quiet.of_ok {b : Body} (h : ∀ s ci c lanes, ∃ c' outs fin, b s ci c lanes = .ok s c' outs fin) : b.Quiet := by
  intro s ci c lanes _
  obtain ⟨c', outs, fin, e⟩ := h s ci c lanes
  rw [e]
  exact Isolated.refl s ci

theorem settle_keeps (s : State) (ci : Nat) (c : Crew) (store : Bool) (r : Crew × List Got) :
    (settle s c store r).Keeps id s ci c := by
  unfold settle
  split
  · trivial
  · split
    · trivial
    · split
      · exact Isolated.refl s ci
      · split
        · trivial
        · exact ⟨Isolated.refl s ci, rfl, rfl⟩

theorem perLane_quiet (i : Instr) (f : (Nat → TWord) → Val) : Body.Quiet (perLane i f) :=
  .of_ok fun _ _ _ _ => ⟨_, _, _, rfl⟩

theorem collect_quiet (i : Instr) (f : Bool → List Nat → (Nat → TWord) → (Nat → TWord) → Nat → TWord) : Body.Quiet (collect i f) :=
  .of_ok fun _ _ _ _ => ⟨_, _, _, rfl⟩

theorem quadBody_quiet (i : Instr) (src : Nat → Nat) : Body.Quiet (quadBody i src) := .of_ok fun _ _ _ _ => ⟨_, _, _, rfl⟩

theorem foldBody_quiet (i : Instr) (op : RedOp) (ty : RedTy) (rm : RMode) (takes : Nat → Nat → Bool) :
    Body.Quiet (foldBody i op ty rm takes) := .of_ok fun _ _ _ _ => ⟨_, _, _, rfl⟩

theorem condBranch_quiet (i : Instr) (off : BitVec 43) (sense : Bool) : Body.Quiet (condBranch i off sense) :=
  .of_ok fun _ _ _ _ => ⟨_, _, _, rfl⟩

theorem jumpBody_quiet (i : Instr) (link : Bool) : Body.Quiet (jumpBody i link) := .of_ok fun _ _ _ _ => ⟨_, _, _, rfl⟩

theorem setsBody_quiet (r : SReg) (o : IOps) : Body.Quiet (setsBody r o) := .of_ok fun _ _ _ _ => ⟨_, _, _, rfl⟩

theorem nursBody_quiet (get : Bool) (o : ROps) : Body.Quiet (nursBody get o) := .of_ok fun _ _ _ _ => ⟨_, _, _, rfl⟩

theorem keyBody_quiet (i : Instr) (f : Bool → List (Nat × HKey) → Nat → HKey → TWord) : Body.Quiet (keyBody i f) :=
  fun s ci c _ _ => settle_keeps s ci c _ _

theorem laneBody_quiet (store : Bool) (f : State → Nat → Crew → Nat → Crew × Got) : Body.Quiet (laneBody store f) :=
  fun s ci c _ _ => settle_keeps s ci c _ _

theorem hstatBody_quiet (o : ROps) : Body.Quiet (hstatBody o) := by
  intro s ci c lanes _
  unfold hstatBody
  dsimp only
  split
  · trivial
  · exact Isolated.refl s ci

/-- The keys of a hash instruction are read; what it does with them decides. -/
theorem hashSetup_keeps {i : Instr} {core : Nat} {s : State} {ci : Nat} {c : Crew} {lanes : List Nat} {dataOk : Nat → Bool}
    {run : Crew → List (HKey × Nat) → List LaneOut → BodyRes} (h : ∀ c' ks traps, (run c' ks traps).Keeps id s ci c) :
    (hashSetup i core s ci c lanes dataOk run).Keeps id s ci c := by
  unfold hashSetup
  dsimp only
  split
  · trivial
  · split
    · trivial
    · exact h _ _ _

/-- A crew's own bundle stands in one region. -/
theorem onRegion_quiet {body : Nat → Body} (h : ∀ core, (body core).Quiet) : Body.Quiet (onRegion body) := by
  intro s ci c lanes own
  have hcomp : c.isComposite = false := by simp [Crew.isComposite, own]
  simp only [onRegion, hcomp, Bool.false_eq_true, if_false]
  exact h _ s ci c lanes own

theorem hprobeBody_quiet (o : ROps) : Body.Quiet (hprobeBody o) :=
  onRegion_quiet fun _ s ci _ _ _ => hashSetup_keeps fun _ _ _ => Isolated.refl s ci

theorem haccBody_quiet (op : HaccOp) (o : ROps) : Body.Quiet (haccBody op o) := by
  refine onRegion_quiet fun core s ci c lanes _ => hashSetup_keeps fun c' ks traps => ?_
  dsimp only
  split
  · exact Isolated.refl s ci
  · split
    · trivial
    · exact Isolated.refl s ci

theorem spillBody_quiet (o : MOps) : Body.Quiet (spillBody o) := by
  intro s ci c lanes _
  have hself := Isolated.refl (f := id) s ci
  unfold spillBody
  dsimp only
  split
  · exact hself
  · exact hself
  · split
    · exact hself
    · trivial
    · split
      · exact hself
      · exact hself
      · trivial
      · trivial

theorem fillBody_quiet (o : MOps) : Body.Quiet (fillBody o) := by
  intro s ci c lanes _
  have hself := Isolated.refl (f := id) s ci
  unfold fillBody
  dsimp only
  split
  · exact hself
  · exact hself
  · split
    · split
      · exact hself
      · exact hself
    · exact hself
    · trivial
    · trivial

theorem allocLanes_keeps (i : Instr) (s : State) (ci : Nat) (c0 : Crew) (lanes : List Nat) (failed : Bool) (c : Crew)
    (outs : List LaneOut) : (allocLanes i s ci lanes failed c outs).Keeps id s ci c0 := by
  induction lanes generalizing failed c outs with
  | nil => exact Isolated.refl s ci
  | cons l rest ih =>
    unfold allocLanes
    dsimp only
    split
    · exact ih _ _ _
    split
    · exact ih _ _ _
    split
    · exact ih _ _ _
    split
    · exact ih _ _ _
    split
    · exact ih _ _ _
    split
    · exact ih _ _ _
    · trivial
    · trivial
    · exact ih _ _ _

/-! ### fld: only the fetch unit's cache and the free values change (R139) -/

/-- The states differ in the fetch units' cache and the free values used, at most. -/
def State.Fetched (s t : State) : Prop := ∃ fc n, t = { s with fetchCache := fc, freeCtr := n }

theorem State.Fetched.refl (s : State) : s.Fetched s := ⟨s.fetchCache, s.freeCtr, rfl⟩

theorem State.Fetched.trans {s t u : State} (h : s.Fetched t) (h' : t.Fetched u) : s.Fetched u := by
  obtain ⟨_, _, rfl⟩ := h
  obtain ⟨fc, n, rfl⟩ := h'
  exact ⟨fc, n, rfl⟩

theorem State.Fetched.isolated {α : Type} {f : Crew → α} {s t : State} (h : s.Fetched t) (ci : Nat) : Isolated f s t ci := by
  obtain ⟨fc, n, rfl⟩ := h
  exact (Isolated.refl s ci).of_eq rfl rfl rfl rfl

theorem State.fetchFill_fetched (s : State) (cluster sector : Nat) : s.Fetched (s.fetchFill cluster sector) := by
  have hroom : s.Fetched (s.fetchRoom cluster) := by
    unfold State.fetchRoom
    dsimp only
    split
    · exact ⟨_, _, rfl⟩
    · exact .refl s
  exact hroom.trans ⟨_, _, rfl⟩

theorem State.fetchSector_fetched (s : State) (cluster sector : Nat) : s.Fetched (s.fetchSector cluster sector) := by
  have hcount : s.Fetched { s with freeCtr := s.freeCtr + 1 } := ⟨_, _, rfl⟩
  unfold State.fetchSector
  split
  · exact s.fetchFill_fetched _ _
  split
  · dsimp only
    split
    · exact hcount
    · exact hcount.trans (State.fetchFill_fetched _ _ _)
  · exact .refl s

theorem State.fetchBytes_fetched (s : State) (cluster k n : Nat) : s.Fetched (s.fetchBytes cluster k n).1 := by
  unfold State.fetchBytes
  refine List.foldlRecOn (motive := fun a : State × List Byte × Tag => s.Fetched a.1) _ _ (.refl s) fun a ha j _ => ?_
  exact ha.trans (State.fetchSector_fetched _ _ _)

/-- Work of the fetch unit that leaves the state alone but for its cache and the free values used. -/
def FetchM.Quiet {β : Type} (m : FetchM β) : Prop := ∀ sc : State × Crew, sc.1.Fetched (m sc).1.1

theorem FetchM.Quiet.pure {β : Type} (r : Except Bad β) : FetchM.Quiet fun sc => (sc, r) := fun sc => State.Fetched.refl sc.1

theorem FetchM.Quiet.andThen {β γ : Type} {a : FetchM β} {k : β → FetchM γ} (ha : a.Quiet) (hk : ∀ x, (k x).Quiet) :
    (FetchM.andThen a k).Quiet := by
  intro sc
  have he := ha sc
  unfold FetchM.andThen
  split
  · rename_i h
    rwa [h] at he
  · rename_i x h
    rw [h] at he
    exact he.trans (hk x _)

theorem fetchPages_quiet (k : Nat) (va : BitVec 64) (n : Nat) : (fetchPages k va n).Quiet := by
  induction k generalizing va n with
  | zero => exact .pure _
  | succ k ih =>
    intro sc
    obtain ⟨s, c⟩ := sc
    unfold fetchPages
    dsimp only
    split
    · exact .refl s
    · rename_i p _
      have hb := s.fetchBytes_fetched (c.core / 4) (p.key va.toNat) (min n (p.base + p.size - va.toNat))
      generalize s.fetchBytes _ _ _ = r at hb
      obtain ⟨t, bs, tag⟩ := r
      dsimp only
      split
      · exact hb
      · exact hb.trans (FetchM.Quiet.andThen (ih _ _) (fun r => .pure _) (t, c.usePage p))

theorem fetchAt_quiet (va : BitVec 64) (n : Nat) : (fetchAt va n).Quiet := fetchPages_quiet 2 va n

theorem fetchView_quiet (a : Nat) : (fetchView a).Quiet := (fetchAt_quiet _ _).andThen fun _ => .pure _

theorem fetchBits_quiet (a : Int) (f : Fmt) : (fetchBits a f).Quiet := (fetchAt_quiet _ _).andThen fun _ => .pure _

theorem fetchElem_quiet (v : View) (cs : List Int) : (fetchElem v cs).Quiet := by
  unfold fetchElem
  dsimp only
  split
  · exact .pure _
  split
  · refine (fetchAt_quiet _ _).andThen fun r => ?_
    split
    · exact (fetchBits_quiet _ _).andThen fun _ => .pure _
    · exact .pure _
  split
  · refine (fetchAt_quiet _ _).andThen fun r => ?_
    split
    · exact (fetchBits_quiet _ _).andThen fun _ => .pure _
    · split
      · exact (fetchBits_quiet _ _).andThen fun _ => .pure _
      · exact .pure _
  · exact fetchBits_quiet _ _

theorem fetchScale_quiet (v : View) (cs : List Int) : (fetchScale v cs).Quiet :=
  (fetchView_quiet _).andThen fun _ => fetchElem_quiet _ _

theorem fetchLane_quiet (mode : FldMode) (v : View) (cs : List Int) : (fetchLane mode v cs).Quiet := by
  unfold fetchLane
  cases mode with
  | elem => exact (fetchElem_quiet _ _).andThen fun _ => .pure _
  | pk =>
    dsimp only
    split
    · exact .pure _
    · refine List.foldlRecOn (motive := fun m : FetchM (TWord × Bool × Bool) => m.Quiet) _ _ (.pure _) fun m hm j _ => ?_
      exact hm.andThen fun a => (fetchElem_quiet _ _).andThen fun _ => .pure _
  | val =>
    dsimp only
    split
    · exact .pure _
    · refine (fetchElem_quiet _ _).andThen fun e => FetchM.Quiet.andThen ?_ fun sb sc => ?_
      · split
        · exact fetchScale_quiet _ _
        · exact .pure _
      · generalize (if v.comp = 3 && v.inside cs then scaledValue v.fmt sb.bits e.bits else v.fmt.value 0 e.bits) = x
        split
        · exact .refl _
        split
        · exact .refl _
        · exact ⟨_, _, rfl⟩

theorem fldLane_quiet (mode : FldMode) (o : XOps) (i : Instr) (l : Nat) : (fldLane mode o i l).Quiet := by
  intro sc
  unfold fldLane
  dsimp only
  split
  · exact .refl sc.1
  · refine FetchM.Quiet.andThen (fetchView_quiet _) (fun v sc => ?_) sc
    split
    · exact .refl _
    · exact fetchLane_quiet _ _ _ _

theorem fldRun_fetched (mode : FldMode) (o : XOps) (i : Instr) (lanes : List Nat) (s : State) (c : Crew) :
    s.Fetched (fldRun mode o i lanes s c).1.1 := by
  induction lanes generalizing s c with
  | nil => exact .refl s
  | cons l rest ih =>
    have hl := fldLane_quiet mode o i l (s, c)
    unfold fldRun
    split
    · rename_i h
      rwa [h] at hl
    · rename_i t d r _ h
      rw [h] at hl
      dsimp only at hl ⊢
      refine hl.trans ?_
      have hr := ih t (if fldRun.broken' r then d.raise l 0 true else d)
      split
      · rename_i h'
        rwa [h'] at hr
      · exact hr

theorem settle_quiet (store : Bool) (r : State → Nat → Crew → List Nat → Crew × List Got) :
    Body.Quiet fun s ci c lanes => settle s c store (r s ci c lanes) := fun s ci c _ _ => settle_keeps s ci c _ _

theorem fld_quiet (mode : FldMode) (o : XOps) (i : Instr) : Body.Quiet fun s _ c lanes =>
    match fldRun mode o i lanes s c with
    | ((s, c), .ok outs) => .ok s c outs false
    | (_, .error (.xfault va cause w)) => .xfault va cause w
    | (_, .error (.trap _)) => .stall := by
  intro s ci c lanes _
  have h := fldRun_fetched mode o i lanes s c
  dsimp only
  split
  · rename_i he
    rw [he] at h
    exact h.isolated ci
  · trivial
  · trivial

/-- What an instruction that is neither irrevocable nor matrix nor an exit nor an `mcall` does, its body does, and that
leaves memory and the other crews alone. -/
theorem exec_quiet {i : Instr} (hword : i.isWord = true) (hcls : i.cls ≠ .irrevocable) (hexit : i ≠ .exit) (hexitH : i ≠ .exitH)
    (hcall : ∀ m o, i ≠ .mcall m o) (hmat : opIsMatrix i.opcode = false) : ∃ b, Body.Quiet b ∧ ∀ s, exec i s = issue i b s := by
  cases i with
  | add | sub | mul | div | rem | neg | abs | min | max | cmpeq | cmplt | cmple | and | or | xor | not | shl | shr | fma | truth
  | iadd | isub | imul | imulh | idiv | irem | ineg | iabs | imin | imax | iand | ior | ixor | inot | ishl | ishr | popc | clz | ctz
  | brev | bfx | bfi | icmp | sel | lea | mov | movi | movh | iaddi | icmpi
  | fadd | fsub | fmul | ffma | fdiv | fsqrt | frsq | fexp2 | flog2 | frcp | fmin | fmax | fabs | fneg | fcmp | fclass | fround
  | fscale | fdot2 | cvti | pack | unpack | tagof | settag => exact ⟨_, perLane_quiet _ _, fun _ => rfl⟩
  | cvt rm =>
    cases rm with
    | round => exact ⟨_, perLane_quiet _ _, fun _ => rfl⟩
    | ef =>
      refine ⟨_, ?_, fun _ => by unfold exec; dsimp only [execCvt]⟩
      exact .of_ok fun _ _ _ _ => ⟨_, _, _, rfl⟩
  | tagchk =>
    refine ⟨_, ?_, fun _ => by unfold exec; dsimp only [execTagchk]⟩
    exact .of_ok fun _ _ _ _ => ⟨_, _, _, rfl⟩
  | bra | call | cbrk | nop | wait | rfh | gets | bkpt | clk | prof | abort =>
    refine ⟨_, ?_, fun _ => by unfold exec; exact rfl⟩
    exact .of_ok fun _ _ _ _ => ⟨_, _, _, rfl⟩
  | ident | hdrld | ihash | ld | st | ldnb | stnb | lds | sts | prf | red | sato =>
    exact ⟨_, laneBody_quiet _ _, fun _ => rfl⟩
  | ldf | stf =>
    refine ⟨_, ?_, fun _ => by unfold exec; exact rfl⟩
    exact settle_quiet _ _
  | shfl | vote | perm | elect => exact ⟨_, collect_quiet _ _, fun _ => rfl⟩
  | qswap | qbcast => exact ⟨_, quadBody_quiet _ _, fun _ => rfl⟩
  | matchKeys | msort => exact ⟨_, keyBody_quiet _ _, fun _ => rfl⟩
  | scan | reduce => exact ⟨_, foldBody_quiet _ _ _ _ _, fun _ => rfl⟩
  | brt | brf => exact ⟨_, condBranch_quiet _ _ _, fun _ => rfl⟩
  | brx | callr | ret => exact ⟨_, jumpBody_quiet _ _, fun _ => rfl⟩
  | spill => exact ⟨_, spillBody_quiet _, fun _ => rfl⟩
  | fill => exact ⟨_, fillBody_quiet _, fun _ => rfl⟩
  | nurs => exact ⟨_, nursBody_quiet _ _, fun _ => rfl⟩
  | alloc o =>
    refine ⟨_, ?_, fun _ => by unfold exec; exact rfl⟩
    exact fun s ci c _ _ => allocLanes_keeps _ s ci c _ _ _ _
  | hprobe => exact ⟨_, hprobeBody_quiet _, fun _ => rfl⟩
  | hacc => exact ⟨_, haccBody_quiet _ _, fun _ => rfl⟩
  | hstat => exact ⟨_, hstatBody_quiet _, fun _ => rfl⟩
  | sets => exact ⟨_, setsBody_quiet _ _, fun _ => rfl⟩
  | fld =>
    refine ⟨_, ?_, fun _ => by unfold exec; exact rfl⟩
    exact fld_quiet _ _ _
  | yield =>
    refine ⟨_, ?_, fun _ => by unfold exec; exact rfl⟩
    intro s ci c _ _
    dsimp only
    split
    · trivial
    · exact Isolated.refl s ci
  | exit => exact absurd rfl hexit
  | exitH => exact absurd rfl hexitH
  | mcall m o => exact absurd rfl (hcall m o)
  | accrd | accred => cases hmat
  | illegalInstruction | routedInstruction => simp [Instr.isWord] at hword
  | rgw | rgend | fence | ldfar | stfar | hflush | atom | acas | qpush | qpop | qallow | qtry | tbar | abinit | abexp | abwait | abarr
  | hclaim | hins | hdel | hdrain | hrel | obres | obrel | obld | mma | mmas | mlut | nmsel | accz | accwr | accmv | sclld
  | xld | xst | xsc | xreq | xfar | wput | wget | lnch | svc | trap => exact absurd rfl hcls
  | _ => cases hword

/-! ## A chunk's buffered bytes while its crew ends it -/

theorem Crew.bytes_noteWrite (c : Crew) (f : Nat) : (c.noteWrite f).chunk.bytes = c.chunk.bytes := by
  obtain ⟨k, h⟩ := c.noteWrite_eq f
  rw [h]

theorem Crew.bytes_freeV (c : Crew) (f l : Nat) : (c.freeV f l).chunk.bytes = c.chunk.bytes := c.bytes_noteWrite f

theorem Crew.bytes_writeField (c : Crew) (f l : Nat) (w : TWord) : (c.writeField f l w).chunk.bytes = c.chunk.bytes := by
  unfold Crew.writeField
  split
  · exact c.bytes_noteWrite f
  · split
    · rfl
    · rfl

theorem Crew.bytes_raise (c : Crew) (l : Nat) (fl : BitVec 5) (fmt : Bool) : (c.raise l fl fmt).chunk.bytes = c.chunk.bytes := by
  unfold Crew.raise
  split
  · dsimp only
    generalize SMap.get 0 c.arch.laneFlags l ||| _ = new
    split
    · rfl
    · rfl
  · rfl

theorem Crew.bytes_deliver (c : Crew) (p : Pending) : (c.deliver p).chunk.bytes = c.chunk.bytes := by
  have hwrites : (p.writes.foldl (fun c w => c.writeField w.field.toNat w.lane w.word) c).chunk.bytes = c.chunk.bytes :=
    List.foldlRecOn (motive := fun d : Crew => d.chunk.bytes = c.chunk.bytes) _ _ rfl fun d hd w _ =>
      (d.bytes_writeField _ _ _).trans hd
  unfold Crew.deliver
  dsimp only
  split
  · exact (Crew.bytes_raise _ _ _ _).trans hwrites
  · exact (Crew.bytes_raise _ _ _ _).trans hwrites

theorem Crew.bytes_freeLate (c : Crew) : c.freeLate.chunk.bytes = c.chunk.bytes := by
  unfold Crew.freeLate
  split
  · rfl
  · exact List.foldlRecOn (motive := fun d : Crew => d.chunk.bytes = c.chunk.bytes) _ _ rfl fun d hd f _ => (d.bytes_freeV _ _).trans hd

theorem Crew.bytes_drainAll (c : Crew) : c.drainAll.chunk.bytes = c.chunk.bytes := by
  have hgo : ∀ (n : Nat) (d : Crew), (Crew.deliverIf.go (fun _ => true) n d).chunk.bytes = d.chunk.bytes := by
    intro n
    induction n with
    | zero => exact fun d => rfl
    | succ n ih =>
      intro d
      unfold Crew.deliverIf.go
      split
      · rfl
      · rw [ih, Crew.bytes_deliver]
  unfold Crew.drainAll Crew.deliverIf
  split
  · rfl
  · rw [Crew.bytes_freeLate, hgo]

theorem Crew.bytes_beginCommit (c : Crew) : c.beginCommit.chunk.bytes = c.chunk.bytes := c.bytes_drainAll

/-! ## Matrix instructions that are no events: `accrd` and `accred` -/

/-- Only what a crew's chunk has buffered. -/
def Crew.buffered (c : Crew) : List (Nat × Byte) := c.chunk.bytes

section
variable {s t : State} {ci : Nat}

/-- A crew is set whose buffered bytes stay: all crews' stay. -/
theorem Isolated.setCrew_buffered (h : Isolated Crew.buffered s t ci) {k : Nat} {c : Crew} (hc : c.chunk.bytes = (t.crew k).chunk.bytes) :
    Isolated Crew.buffered s (t.setCrew k c) ci where
  mem := h.mem
  tags := h.tags
  absent := h.absent
  crews j hj := (State.crew_setCrew_keeps Crew.buffered hc j).trans (h.crews j hj)

/-- A fatal trap ends a crew's chunk, and keeps what it has buffered (R59). -/
theorem Isolated.doomAt (h : Isolated Crew.buffered s t ci) (k code : Nat) : Isolated Crew.buffered s (t.doomAt k code) ci := by
  unfold State.doomAt
  dsimp only
  split
  · exact h.of_eq rfl rfl rfl rfl
  · split
    · exact h.setCrew_buffered (Crew.bytes_beginCommit _)
    · exact h.setCrew_buffered rfl

theorem Isolated.mismatch (h : Isolated Crew.buffered s t ci) (four : List Nat) : Isolated Crew.buffered s (t.mismatch four) ci :=
  List.foldlRecOn (motive := fun u => Isolated Crew.buffered s u ci) four _ h fun _ hu k _ => hu.doomAt k _

/-- A matrix instruction that is no event and no product: `accrd`, `accred`. -/
def readsAcc (i : Instr) : Prop := prodOf i = none ∧ i.cls ≠ .irrevocable

/-- The crews of a four stand at reads of accumulators. -/
def State.fourReads (s : State) (four : List Nat) : Prop := ∀ k ∈ four, ∃ i, (s.crew k).mreq = some i ∧ readsAcc i

/-- A match of reads moves the crews' match numbers and wakes them. -/
theorem State.matchFour_of_reads {four : List Nat} (h : s.fourReads four) :
    s.matchFour four = four.foldl (fun s k => s.setCrew k { s.crew k with matched := (s.crew k).matched + 1, wake := none }) s := by
  have hno : four.foldl (State.crewProduct s four) s = s := by
    refine foldl_fixed _ _ _ fun k hk => ?_
    obtain ⟨i, hi, hprod, -⟩ := h k hk
    simp [State.crewProduct, hi, hprod]
  rw [State.matchFour, hno]

/-- What the four's reads do at the match is each crew's own (R279): no partner's is performed there. -/
theorem Isolated.perform (h : Isolated Crew.buffered s t ci) {four : List Nat} (reads : t.fourReads four) :
    Isolated Crew.buffered s (t.perform ci four) ci := by
  have hmatch : Isolated Crew.buffered s (t.matchFour four) ci ∧ ∀ j, ((t.matchFour four).crew j).mreq = (t.crew j).mreq := by
    rw [State.matchFour_of_reads reads]
    refine List.foldlRecOn (motive := fun u : State => Isolated Crew.buffered s u ci ∧ ∀ j, (u.crew j).mreq = (t.crew j).mreq)
      four _ ⟨h, fun _ => rfl⟩ fun u hu k _ => ⟨hu.1.setCrew_buffered rfl, fun j => ?_⟩
    refine (State.crew_setCrew_keeps Crew.mreq ?_ j).trans (hu.2 j)
    rfl
  have hpartners : t.perform ci four = t.matchFour four := by
    refine foldl_fixed _ _ _ fun k hk => ?_
    obtain ⟨i, hi, -, hcls⟩ := reads k (List.mem_of_mem_filter hk)
    simp [State.partner, hmatch.2 k, hi, hcls]
  rw [hpartners]
  exact hmatch.1

end

/-- The matrix instructions that are no events, by opcode. -/
theorem cls_of_readOpcode {i : Instr} (h : i.opcode = 0xD0 ∨ i.opcode = 0xD4) : i.cls ≠ .irrevocable := by
  cases i with
  | accrd | accred => exact fun hc => nomatch hc
  | illegalInstruction b =>
    have hb : b.toNat = 0xD0 ∨ b.toNat = 0xD4 := h
    have hc : ChunkClass.speculative = (Instr.illegalInstruction b ‹_›).cls := by
      show _ = opClass b.toNat
      rcases hb with hb | hb <;> rw [hb] <;> rfl
    exact hc ▸ fun h => nomatch h
  | routedInstruction => exact fun hc => nomatch hc
  | _ => rcases h with h | h <;> cases h

theorem matchItems_head (i : Instr) : (matchItems i).1.head? = some i.opcode := by
  unfold matchItems
  split
  · rfl
  · split <;> rfl

theorem prodOf_of_matchItems {i : Instr} (h : (matchItems i).2 = none) : prodOf i = none := by
  unfold matchItems at h
  split at h
  · cases h
  · assumption

/-- What agrees with a read of an accumulator is a read as well (R277). -/
theorem readsAcc_of_matchItems {i a : Instr} (hi : i.opcode = 0xD0 ∨ i.opcode = 0xD4) (hprod : (matchItems i).2 = none)
    (h : matchItems a = matchItems i) : readsAcc a := by
  have hop : a.opcode = i.opcode := Option.some.inj (by rw [← matchItems_head, ← matchItems_head, h])
  exact ⟨prodOf_of_matchItems (h ▸ hprod), cls_of_readOpcode (hop ▸ hi)⟩

section
variable {α : Type} {f : Crew → α} {s t : State} {i : Instr} {ci : Nat} {c c0 : Crew} {lanes : List Nat} {m : BitVec 8} {o : ROps}

/-- The reads of an accumulator perform no event. -/
theorem accrdEffect_keeps (h : Isolated f s t ci) (o : XOps) : (accrdEffect o t ci c lanes).Keeps f s ci c0 := by
  unfold accrdEffect
  dsimp only
  split
  · exact h
  · split
    · trivial
    · exact h

theorem accredEffect_keeps (h : Isolated f s t ci) (max : Bool) (o : XOps) : (accredEffect max o t ci c lanes).Keeps f s ci c0 := by
  unfold accredEffect
  dsimp only
  split
  · exact h
  · split
    · trivial
    · exact h

theorem matrixDone_keeps {r : BodyRes} (hcls : i.cls ≠ .irrevocable) (hr : r.Keeps f s ci c0) :
    (matrixDone i r).Keeps f s ci c0 := by
  cases r with
  | ok u d outs fin =>
    have hne : (i.cls == .irrevocable) = false := by simpa using hcls
    simp only [matrixDone, hne, Bool.false_eq_true, if_false]
    split
    · exact hr
    · exact hr
  | _ => exact hr

/-- A crew that stands at an instruction is in its slot. -/
theorem stand_resident (h : s.stand = some (ci, c, lanes)) : c.place = .resident := by
  unfold State.stand at h
  split at h
  · cases h
  · dsimp only at h
    split at h
    · rename_i hc
      obtain ⟨rfl, rfl, rfl⟩ := h
      simp only [Bool.and_eq_true, beq_iff_eq] at hc
      obtain ⟨⟨⟨⟨⟨⟨⟨⟨-, hplace⟩, -⟩, -⟩, -⟩, -⟩, -⟩, -⟩, -⟩ := hc
      exact hplace
    · cases h

/-- A crew stands in its own four. -/
theorem State.mem_fourOf_self {s : State} {ci : Nat} (hlen : ci < s.crews.length) (own : (s.crew ci).homes = [])
    (hplace : (s.crew ci).place = .resident) : ci ∈ s.fourOf ci := by
  simp [State.fourOf, hlen, hplace, Crew.isComposite, own]

/-- The four of a crew that reads an accumulator, when it agrees, all read. -/
theorem State.fourReads_of_agrees {four : List Nat} (hop : i.opcode = 0xD0 ∨ i.opcode = 0xD4) (hprod : (matchItems i).2 = none)
    (hci : ci ∈ four) (hmreq : (s.crew ci).mreq = some i) (h : s.fourAgrees four = true) : s.fourReads four := by
  intro k hk
  have hki := List.all_eq_true.1 (List.all_eq_true.1 h k hk) ci hci
  rw [hmreq] at hki
  cases hm : (s.crew k).mreq with
  | none => simp [hm] at hki
  | some a =>
    simp only [hm, Bool.and_eq_true, beq_iff_eq] at hki
    exact ⟨a, rfl, readsAcc_of_matchItems hop hprod hki.1⟩

/-- The read of an accumulator: the four's crews keep what they have buffered. -/
theorem matrixBody_keeps (h : Issues s i ci c lanes) (hop : i.opcode = 0xD0 ∨ i.opcode = 0xD4)
    (hprod : (matchItems i).2 = none)
    (heff : ∀ (u : State) (d : Crew) (ls : List Nat), Isolated Crew.buffered s u ci →
      (fourEffect i u ci d ls).Keeps Crew.buffered s ci c) (exe : List Nat) :
    (matrixBody i s ci c exe).Keeps Crew.buffered s ci c := by
  have hcls := cls_of_readOpcode hop
  have hself := Isolated.refl (f := Crew.buffered) s ci
  obtain ⟨hlen, -, hc, -, -⟩ := stand_crew h.stand
  unfold matrixBody
  split
  · exact matrixDone_keeps hcls (heff _ _ _ hself)
  split
  · exact hself
  dsimp only
  have hset := hself.setCrew { c with mreq := some i }
  have hcrew := State.crew_setCrew_same s ci { c with mreq := some i } hlen
  generalize hu : s.setCrew ci { c with mreq := some i } = u at hset hcrew
  split
  · split
    · exact hset.mismatch _
    · rename_i hagree
      split
      · trivial
      · have hreads : u.fourReads (u.fourOf ci) := by
          refine State.fourReads_of_agrees hop hprod (State.mem_fourOf_self ?_ ?_ ?_) (by rw [hcrew]) (by simpa using hagree)
          · rw [← hu]; simpa using hlen
          · rw [hcrew]; exact h.own
          · rw [hcrew]; exact (stand_resident h.stand :)
        have hperf := hset.perform hreads
        have hdone := matrixDone_keeps hcls (heff _ ((u.perform ci (u.fourOf ci)).crew ci) exe hperf)
        split
        · exact hperf.setCrew _
        · exact hdone
  · split
    · trivial
    · exact ⟨hset, rfl, rfl⟩

/-- `mcall` puts the body's next operation before the crew, or traps. -/
theorem Isolated.mcall (h : Issues s (.mcall m o) ci c lanes) (hrun : exec (.mcall m o) s = .next t)
    (quiet : ∀ k ∈ t.faults, k ∈ s.faults) : Isolated f s t ci := by
  have hlen := (stand_crew h.stand).1
  have hself := Isolated.refl (f := f) s ci
  have hcls : (Instr.mcall m o).cls ≠ .irrevocable := nofun
  have hrun' : mcallAs (.mcall m o) m.toNat o s = .next t := hrun
  simp only [mcallAs, h.stand] at hrun'
  split at hrun'
  · obtain rfl := Host.Outcome.next.inj hrun'
    exact Isolated.conclude hlen h.own hcls hself quiet
  · split at hrun'
    · obtain rfl := Host.Outcome.next.inj hrun'
      exact Isolated.conclude hlen h.own hcls hself quiet
    · obtain rfl := Host.Outcome.next.inj hrun'
      exact hself.setCrew _

/-- A read of an accumulator keeps what every other crew has buffered. -/
theorem Isolated.readAcc (h : Issues s i ci c lanes) (hmat : opIsMatrix i.opcode = true) (hword : i.isWord = true)
    (hcls : i.cls ≠ .irrevocable) (hrun : exec i s = .next t) (quiet : ∀ k ∈ t.faults, k ∈ s.faults) :
    Isolated Crew.buffered s t ci := by
  cases i with
  | accrd o =>
    exact .issue (b := matrixBody (.accrd o)) h hcls
      (matrixBody_keeps h (.inl rfl) rfl (fun u d ls hu => accrdEffect_keeps hu o) _) hrun quiet
  | accred max o =>
    exact .issue (b := matrixBody (.accred max o)) h hcls
      (matrixBody_keeps h (.inr rfl) rfl (fun u d ls hu => accredEffect_keeps hu max o) _) hrun quiet
  | obres | obrel | obld | mma | mmas | mlut | nmsel | accz | accwr | accmv | sclld => exact absurd rfl hcls
  | illegalInstruction | routedInstruction => simp [Instr.isWord] at hword
  | _ => cases hmat

end

theorem Isolated.buffered {s t : State} {ci : Nat} (h : Isolated id s t ci) : Isolated Crew.buffered s t ci :=
  ⟨h.mem, h.tags, h.absent, fun k hk => congrArg Crew.buffered (h.crews k hk)⟩

/-- An instruction outside the matrix group leaves memory and every other crew alone. -/
theorem Isolated.exec {s t : State} {i : Instr} {ci : Nat} {c : Crew} {lanes : List Nat} (h : Issues s i ci c lanes)
    (hword : i.isWord = true) (hcls : i.cls ≠ .irrevocable) (hexit : i ≠ .exit) (hexitH : i ≠ .exitH)
    (hmat : opIsMatrix i.opcode = false) (hrun : exec i s = .next t) (quiet : ∀ k ∈ t.faults, k ∈ s.faults) :
    Isolated id s t ci := by
  by_cases hcall : ∃ m o, i = .mcall m o
  · obtain ⟨m, o, rfl⟩ := hcall
    exact .mcall h hrun quiet
  · obtain ⟨b, hb, hexec⟩ := exec_quiet hword hcls hexit hexitH (fun m o hi => hcall ⟨m, o, hi⟩) hmat
    exact .issue h hcls (hb s ci c _ h.own) (hexec s ▸ hrun) quiet



/-- Settles O37: each body that is no event leaves memory and the other crews alone, and so does the end of its instruction. -/
theorem chunksAreIsolated : Obligations.ChunksAreIsolated := by
  intro i s ci c lanes t h hword hcls hexit hexitH hrun quiet
  cases hmat : opIsMatrix i.opcode with
  | true =>
    have hiso := Isolated.readAcc h hmat hword hcls hrun quiet
    exact ⟨hiso.mem, hiso.tags, hiso.absent, fun k hk => ⟨hiso.crews k hk, nofun⟩⟩
  | false =>
    have hiso := Isolated.exec h hword hcls hexit hexitH hmat hrun quiet
    exact ⟨hiso.mem, hiso.tags, hiso.absent, fun k hk => ⟨hiso.buffered.crews k hk, fun _ => hiso.crews k hk⟩⟩

end Sys2Proof.Machine
end

section
/-! SUPPORT. The bundle is the runnable threads at the least place (R54, R360): `Obligations.BundleFormation` (O34). -/

namespace Sys2Proof.Machine

open Sys2Proof Sys2Proof.Claims

theorem leastOf_eq_none {xs : List Nat} (h : leastOf xs = none) : xs = [] := by
  cases xs with
  | nil => rfl
  | cons x t => rw [leastOf] at h; split at h <;> cases h

theorem leastOf_spec {xs : List Nat} {k : Nat} (h : leastOf xs = some k) : k ∈ xs ∧ ∀ y ∈ xs, k ≤ y := by
  induction xs generalizing k with
  | nil => cases h
  | cons x t ih =>
    rw [leastOf] at h
    split at h
    · rename_i hnone
      obtain rfl := Option.some.inj h
      simp [leastOf_eq_none hnone]
    · rename_i y hy
      obtain ⟨hmem, hle⟩ := ih hy
      obtain rfl := Option.some.inj h
      grind

/-- The bundle: the runnable lanes at the least key (R54, R360). -/
theorem Crew.mem_bundle_iff {c : Crew} {l : Nat} :
    l ∈ c.bundle ↔ l ∈ c.runnableLanes ∧ ∀ m ∈ c.runnableLanes, (c.thread l).key ≤ (c.thread m).key := by
  unfold Crew.bundle
  split
  · rename_i h
    have hnil := List.map_eq_nil_iff.1 (leastOf_eq_none h)
    simp [hnil]
  · rename_i k h
    obtain ⟨hmem, hle⟩ := leastOf_spec h
    obtain ⟨m, hm, rfl⟩ := List.mem_map.1 hmem
    simp only [List.mem_filter, beq_iff_eq, List.forall_mem_map] at hle ⊢
    exact ⟨fun ⟨hl, he⟩ => ⟨hl, fun j hj => he ▸ hle j hj⟩, fun ⟨hl, hmin⟩ => ⟨hl, Nat.le_antisymm (hmin m hm) (hle l hl)⟩⟩

theorem Crew.mem_runnableLanes_iff {c : Crew} {l : Nat} :
    l ∈ c.runnableLanes ↔ l < 32 ∧ ((c.thread l).st = .active ∨ (c.thread l).st = .helper) := by
  simp [Crew.runnableLanes, Thread.runnable, Config.lanes]

/-- A bundle is formed from the threads alone. -/
theorem Crew.bundle_congr {c c' : Crew} (h : c'.arch.threads = c.arch.threads) : c'.bundle = c.bundle := by
  have hthread : c'.thread = c.thread := by funext l; rw [Crew.thread, Crew.thread, h]
  rw [Crew.bundle, Crew.bundle, Crew.runnableLanes, Crew.runnableLanes, hthread]

/-- Settles O34: the bundle is what stands at the least key, which the steps do not sway where they are equal. -/
theorem bundleFormation : Obligations.BundleFormation := by
  intro c
  simp only [Crew.mem_bundle_iff, Crew.mem_runnableLanes_iff, Thread.key]
  refine ⟨fun l h => h, fun hstep l => ?_, fun c' => Crew.bundle_congr⟩
  refine and_congr_right fun hl => forall₂_congr fun m hm => ?_
  rw [hstep l m hl hm]
  omega

end Sys2Proof.Machine
end

section
/-! SUPPORT. What reset leaves (R71, R193, R382, R413, R421): `Obligations.ResetValues` (O60). -/

namespace Sys2Proof.Machine

open Sys2Proof Sys2Proof.Claims

/-- The first registers of the map are read whatever the part's state, and measure nothing (R420). -/
theorem State.regRead_low (s : State) {a : Nat} (h : a < 0x100000) : (!s.partReady && decide (0x100000 ≤ a) &&
    !(decide (0x3000000 ≤ a) && decide (a < 0x3800000))) = false ∧ isMeasured a = false := by
  have h1 : ¬ 0x100000 ≤ a := by omega
  have h2 : a ≠ 0x3800000 := by omega
  have h3 : ¬ 0x2000000 ≤ a := by omega
  have h4 : ¬ 0x3801000 ≤ a := by omega
  simp [isMeasured, h1, h2, h3, h4]

/-- The identification register: the stepping stands above its low word. -/
theorem State.regRead_identification (s : State) : s.regRead 0x000 = 0x09004E47 + Config.stepping.toNat * 2 ^ 32 := by
  obtain ⟨h1, h2⟩ := s.regRead_low (a := 0x000) (by omega)
  simp only [State.regRead, h1, h2, Bool.false_eq_true, if_false, if_true]

theorem State.regRead_status (s : State) : s.regRead 0x008 = s.status := by
  obtain ⟨h1, h2⟩ := s.regRead_low (a := 0x008) (by omega)
  simp only [State.regRead, h1, h2, Bool.false_eq_true, if_false, if_true, reduceCtorEq, OfNat.ofNat_ne_zero]

theorem State.regRead_features (s : State) : s.regRead 0x100 = Config.featureMask := by
  obtain ⟨h1, h2⟩ := s.regRead_low (a := 0x100) (by omega)
  simp only [State.regRead, h1, h2, Bool.false_eq_true, if_false]
  rfl

/-- Settles O60: each value by evaluation of the state that reset leaves. -/
theorem resetValues : Obligations.ResetValues := by
  refine ⟨?_, rfl, rfl, rfl, rfl, rfl, rfl, rfl, fun d => rfl, fun d _ => rfl, ?_, ?_, ?_⟩
  · unfold Canonical; decide
  · rw [State.regRead_identification, Nat.add_mul_mod_self_right]
    norm_num
  · rw [State.regRead_status]
    rfl
  · rw [State.regRead_features]
    rfl

end Sys2Proof.Machine
end

section
/-! SUPPORT. Instructions without operands, and threads that exit (R53, R64, R74, R236): `Obligations.ThreadsAndChunkEnds` (O33). -/

namespace Sys2Proof.Machine

open Sys2Proof Sys2Proof.Claims

/-! ## Instructions without operands -/

theorem lastUses_of_no_slots {i : Instr} (h : i.slots = []) (s : State) (c : Crew) : s.lastUses i c = fun _ => [] := by
  funext l
  simp [State.lastUses, State.freesOf, h]

theorem changed_of_no_slots {i : Instr} (h : i.slots = []) (s : State) (c : Crew) (exe : List Nat) :
    s.changed i c exe (fun _ => []) = [] := by
  simp [State.changed, lastUses_of_no_slots h]

theorem raise_none {c : Crew} (h : c.homes = []) (l : Nat) : c.raise l 0 false = c := by
  rw [raise_own _ _ _ _ h]
  simp

/-- Lanes that write nothing leave the crew as it is. -/
theorem writeLanes_none (lead : Nat) (exe : List Nat) {c : Crew} (h : c.homes = []) :
    writeLanes lead (fun _ => []) (fun _ => 0) (fun _ => false) exe c = c :=
  foldl_fixed _ _ _ fun l _ => raise_none h l

theorem freeLanes_none (exe : List Nat) (c : Crew) : freeLanes (fun _ => []) exe c = c :=
  foldl_fixed _ _ _ fun _ _ => rfl

/-- A bundle that writes and frees nothing ends alike whether its lanes are named or not. -/
theorem complete_nil {s : State} {i : Instr} {c b : Crew} {lanes exe : List Nat} (hslots : i.slots = []) (hp : b.pend = [])
    (hh : b.homes = []) (he : c.expansion = none) (hs : exe.Sublist lanes) (hn : lanes.Pairwise (· < ·)) (hlk : lkFree i) :
    s.complete i c b lanes [] [] =
      s.complete i c b lanes (cleanOuts exe (fun _ => []) (fun _ => none) (fun _ => 0) fun _ => false) [] := by
  obtain ⟨x, hx, hnamed⟩ := complete_clean s i c b lanes exe (fun _ => []) (fun _ => none) (fun _ => 0) (fun _ => false) hp he hs hn hlk
  obtain ⟨y, hy, hnone⟩ := complete_clean s i c b lanes [] (fun _ => []) (fun _ => none) (fun _ => 0) (fun _ => false) hp he
    (List.nil_sublist _) hn hlk
  rw [lastUses_of_no_slots hslots, freeLanes_none, writeLanes_none _ _ hh] at hx hy
  subst hx hy
  rw [hnamed]
  refine hnone.trans ?_
  simp only [ite_self]

/-- An instruction without operands whose body names no lanes: the bundle completes, and the crew alone changes. -/
theorem completes_nil {s s' : State} {i : Instr} {ci : Nat} {c b : Crew} {lanes : List Nat} {body : Body} {fin : Bool}
    (h : Issues s i ci c lanes) (hslots : i.slots = []) (hcls : i.cls ≠ .irrevocable) (hlk : lkFree i)
    (hrun : exec i s = issue i body s) (hbody : body s ci c (execLanes i c lanes) = .ok s' b [] fin)
    (hset : ∀ d, s'.setCrew ci d = s.setCrew ci d) (hb : BodyCrew c b) (hpages : b.chunk.pages = c.chunk.pages)
    (room : Room s ci b []) : Completes i s ci c b lanes (fun _ => {}) fin := by
  obtain ⟨c', heff, hgoes, hend⟩ := conclude_speculative h hb (s' := s') (fun _ => []) (fun _ => none) (fun _ => 0) (fun _ => false) fin
    hcls hlk (by rw [changed_of_no_slots hslots]; exact room)
  refine ⟨c', heff, hgoes, ?_⟩
  have hout : ∀ x, outsideChunk i x = false := fun x => by simp [outsideChunk, hcls]
  have hsame : State.conclude i ci s c s' b lanes [] fin = State.conclude i ci s c s' b lanes
      (cleanOuts (execLanes i c lanes) (fun _ => []) (fun _ => none) (fun _ => 0) fun _ => false) fin := by
    simp only [State.conclude, cleanOuts_notrap, List.filterMap_nil, List.map_nil, lowestDeath, hout, Bool.false_and, Bool.false_eq_true,
      if_false, complete_nil hslots hb.pend hb.homes h.plain (execLanes_sub i c lanes) h.lanes_sorted.1 hlk]
  rw [hrun, issue_body body h, hbody]
  simp only [hsame, hend, hset, hpages, List.drop_length]
  rfl

/-! ## cbrk and yield -/

theorem Crew.drainAll_of_idle {c : Crew} (h : c.pend = []) : c.drainAll = c := by
  simp [Crew.drainAll, Crew.deliverIf, h]

theorem Crew.withoutExpansion {c : Crew} (h : c.expansion = none) : { c with expansion := none } = c := by
  cases c
  cases h
  rfl

theorem cbrk_completes {s : State} {ci : Nat} {c : Crew} {lanes : List Nat} (h : Issues s .cbrk ci c lanes) (room : Room s ci c []) :
    Completes .cbrk s ci c c lanes (fun _ => {}) true :=
  completes_nil (body := fun s _ c _ => .ok s c [] true) (s' := s) h rfl nofun rfl rfl rfl (fun _ => rfl) (.self h) rfl room

/-- In a chunk, `yield` ends it before it executes. -/
theorem yield_ends {s : State} {ci : Nat} {c : Crew} {lanes : List Nat} (h : Issues s .yield ci c lanes) (hd : c.dirty = true) :
    exec .yield s = .next (s.setCrew ci c.beginCommit) := by
  have hrun : exec .yield s = issue .yield (fun s _ c _ => if c.dirty then .endChunk else .ok s { c with wake := some .yielded } [] false) s := rfl
  rw [hrun, issue_body _ h, hd]
  simp only [if_true]
  rw [Crew.withoutExpansion]
  rw [Crew.beginCommit, Crew.drainAll_of_idle h.pend]
  exact h.plain

theorem yield_completes {s : State} {ci : Nat} {c : Crew} {lanes : List Nat} (h : Issues s .yield ci c lanes) (hd : c.dirty = false)
    (room : Room s ci c []) : Completes .yield s ci c { c with wake := some .yielded } lanes (fun _ => {}) false :=
  completes_nil (body := fun s _ c _ => if c.dirty then .endChunk else .ok s { c with wake := some .yielded } [] false) (s' := s)
    h rfl nofun rfl rfl (by simp [hd]) (fun _ => rfl) ⟨h.own, h.pend, h.plain, rfl⟩ rfl room

/-! ## exit and exit.h (R53) -/

/-- A crew with other threads. -/
def Crew.withThreads (c : Crew) (ts : List Thread) : Crew := { c with arch := { c.arch with threads := ts } }

/-- Changing every thread of some lanes by a function of the lane and the thread. -/
def Crew.mapThreads (f : Nat → Thread → Thread) (lanes : List Nat) (c : Crew) : Crew :=
  lanes.foldl (fun c l => c.setThread l (f l (c.thread l))) c

theorem Crew.mapThreads_eq (f : Nat → Thread → Thread) (lanes : List Nat) (c : Crew) :
    ∃ ts, ts.length = c.arch.threads.length ∧ c.mapThreads f lanes = c.withThreads ts := by
  refine List.foldlRecOn (motive := fun d : Crew => ∃ ts, ts.length = c.arch.threads.length ∧ d = c.withThreads ts)
    lanes _ ⟨c.arch.threads, rfl, rfl⟩ fun d hd l _ => ?_
  obtain ⟨ts, hlen, rfl⟩ := hd
  exact ⟨_, (List.length_set ..).trans hlen, rfl⟩

theorem Crew.thread_of_length_le {c : Crew} {l : Nat} (h : c.arch.threads.length ≤ l) : c.thread l = {} := by
  simp [Crew.thread, List.getD, h]

/-- A function that leaves what no thread is as it is reaches each lane once. -/
theorem Crew.thread_mapThreads {f : Nat → Thread → Thread} (hf : ∀ l, f l {} = {}) {lanes : List Nat} (hn : lanes.Pairwise (· < ·))
    (c : Crew) (l : Nat) : (c.mapThreads f lanes).thread l = if l ∈ lanes then f l (c.thread l) else c.thread l := by
  induction lanes generalizing c with
  | nil => simp [Crew.mapThreads]
  | cons x t ih =>
    obtain ⟨hx, ht⟩ := List.pairwise_cons.1 hn
    have hstep : c.mapThreads f (x :: t) = (c.setThread x (f x (c.thread x))).mapThreads f t := rfl
    rw [hstep, ih ht]
    by_cases hl : l = x
    · subst hl
      have hnot : l ∉ t := fun hm => Nat.lt_irrefl _ (hx l hm)
      simp only [hnot, if_false, List.mem_cons_self, if_true]
      by_cases hlen : l < c.arch.threads.length
      · exact Crew.thread_setThread_same _ _ _ hlen
      · have hle := Nat.le_of_not_lt hlen
        rw [Crew.thread_of_length_le (by simpa [Crew.setThread] using hle), Crew.thread_of_length_le hle, hf]
    · simp only [Crew.thread_setThread_other _ _ _ _ hl, List.mem_cons, hl, false_or]

theorem Crew.setThread_thread (c : Crew) (l : Nat) : c.setThread l (c.thread l) = c := by
  have h : c.arch.threads.set l (c.thread l) = c.arch.threads := by
    refine List.ext_getElem (by simp) fun k hk hk' => ?_
    rw [List.getElem_set]
    split
    · subst_vars; simp [Crew.thread, List.getD, hk']
    · rfl
  unfold Crew.setThread
  rw [h]

/-- What a thread's quad makes of it: HELPER and PARKED threads retire with no ACTIVE or REGROUP thread in it (R53). -/
def retired (kept : Nat → Bool) (l : Nat) (t : Thread) : Thread :=
  if !kept (l / 4) && (t.st == .helper || t.st == .parked) then { t with st := .exited } else t

/-- Does a quad hold an ACTIVE or REGROUP thread? -/
def Crew.quadKept (c : Crew) (m : Nat) : Bool := (List.range 4).any fun j =>
  (c.thread (4 * m + j)).st == .active || (c.thread (4 * m + j)).st == .regroup

theorem Crew.retireHelpers_eq (c : Crew) : c.retireHelpers = c.mapThreads (retired c.quadKept) (List.range 32) := by
  unfold Crew.retireHelpers Crew.mapThreads
  dsimp only [Config.lanes]
  congr 1
  funext d l
  change (if (!c.quadKept (l / 4) && ((d.thread l).st == .helper || (d.thread l).st == .parked)) = true then
    d.setThread l { d.thread l with st := .exited } else d) = d.setThread l (retired c.quadKept l (d.thread l))
  by_cases hc : (!c.quadKept (l / 4) && ((d.thread l).st == .helper || (d.thread l).st == .parked)) = true
  · rw [retired, if_pos hc, if_pos hc]
  · rw [retired, if_neg hc, if_neg hc, Crew.setThread_thread]

theorem exitState_eq_exited (h : Bool) (st : ThreadState) : exitState h st = exited h st := by
  cases st <;> cases h <;> rfl

/-- The crew after `exit` or `exit.h`, before its bundle completes. -/
def Crew.exitCrew (c : Crew) (h : Bool) (lanes : List Nat) : Crew :=
  (c.mapThreads (fun _ t => { t with st := exitState h t.st }) lanes).retireHelpers

/-- The states of the threads once the lanes have exited. -/
def Crew.exitStates (c : Crew) (h : Bool) (lanes : List Nat) (l : Nat) : ThreadState :=
  if l ∈ lanes then exited h (c.thread l).st else (c.thread l).st

/-- And once the helpers of abandoned quads have retired. -/
def finalState (st : Nat → ThreadState) (l : Nat) : ThreadState :=
  if ((List.range 4).any fun j => st (4 * (l / 4) + j) == .active || st (4 * (l / 4) + j) == .regroup) = false ∧
    (st l = .helper ∨ st l = .parked) then .exited else st l

theorem Crew.thread_exitCrew {c : Crew} {lanes : List Nat} (hn : lanes.Pairwise (· < ·)) (h : Bool) {l : Nat} (hl : l < 32) :
    (c.exitCrew h lanes).thread l = { c.thread l with st := finalState (c.exitStates h lanes) l } := by
  have hfirst : ∀ k, (c.mapThreads (fun _ t => { t with st := exitState h t.st }) lanes).thread k =
      { c.thread k with st := c.exitStates h lanes k } := by
    intro k
    rw [Crew.thread_mapThreads (by intro l; cases h <;> rfl) hn, Crew.exitStates]
    split
    · rw [exitState_eq_exited]
    · rfl
  have hkept : ∀ m, (c.mapThreads (fun _ t => { t with st := exitState h t.st }) lanes).quadKept m =
      (List.range 4).any fun j => c.exitStates h lanes (4 * m + j) == .active || c.exitStates h lanes (4 * m + j) == .regroup := by
    intro m
    simp only [Crew.quadKept, hfirst]
  rw [Crew.exitCrew, Crew.retireHelpers_eq, Crew.thread_mapThreads (by intro l; simp [retired]) List.pairwise_lt_range,
    if_pos (List.mem_range.2 hl), hfirst]
  simp only [retired, hkept, finalState]
  split <;> split <;> simp_all

theorem Crew.exitCrew_eq (c : Crew) (h : Bool) (lanes : List Nat) :
    ∃ ts, ts.length = c.arch.threads.length ∧ c.exitCrew h lanes = c.withThreads ts := by
  obtain ⟨ts, hlen, hm⟩ := c.mapThreads_eq (fun _ t => { t with st := exitState h t.st }) lanes
  obtain ⟨us, hlen', hm'⟩ := (c.withThreads ts).mapThreads_eq (retired (c.withThreads ts).quadKept) (List.range 32)
  rw [Crew.exitCrew, hm, Crew.retireHelpers_eq, hm']
  exact ⟨us, hlen'.trans hlen, rfl⟩

/-- Where the quadrant's regrouping table holds no entry, none fires. -/
theorem State.fireAll_of_empty {s : State} {q : Nat} (h : (s.quad q).regroup = []) : s.fireAll q = s := by
  rw [State.fireAll, h]
  rfl

theorem exitBody_eq {s : State} {ci : Nat} {c : Crew} {lanes : List Nat} (h : Bool) (hlen : ci < s.crews.length)
    (hq : (s.quad c.quadNo).regroup = []) : exitBody h s ci c lanes =
      .ok (s.setCrew ci (c.exitCrew h lanes)) (c.exitCrew h lanes) [] (c.exitCrew h lanes).finished := by
  have hfire : (s.setCrew ci (c.exitCrew h lanes)).fireAll c.quadNo = s.setCrew ci (c.exitCrew h lanes) :=
    State.fireAll_of_empty (by rw [State.quad_setCrew, hq])
  show BodyRes.ok ((s.setCrew ci (c.exitCrew h lanes)).fireAll c.quadNo)
    (((s.setCrew ci (c.exitCrew h lanes)).fireAll c.quadNo).crew ci) [] (c.exitCrew h lanes).finished = _
  rw [hfire, State.crew_setCrew_same _ _ _ hlen]

theorem exit_completes {s : State} {i : Instr} {ci : Nat} {c : Crew} {lanes : List Nat} (h : Bool) (hi : i = if h = true then .exitH else .exit)
    (hiss : Issues s i ci c lanes) (hq : (s.quad c.quadNo).regroup = []) (room : Room s ci (c.exitCrew h lanes) []) :
    Completes i s ci c (c.exitCrew h lanes) lanes (fun _ => {})
      ((List.range 32).all fun l => finalState (c.exitStates h lanes) l == .exited) := by
  have hlen := (stand_crew hiss.stand).1
  have hn := hiss.lanes_sorted.1
  have hfin : (c.exitCrew h lanes).finished = (List.range 32).all fun l => finalState (c.exitStates h lanes) l == .exited := by
    rw [Crew.finished, Bool.eq_iff_iff, List.all_eq_true, List.all_eq_true]
    refine forall₂_congr fun l hl => ?_
    rw [Crew.thread_exitCrew hn h (List.mem_range.1 hl)]
  obtain ⟨ts, hlength, hts⟩ := c.exitCrew_eq h lanes
  have hb : BodyCrew c (c.exitCrew h lanes) := by
    rw [hts]
    exact ⟨hiss.own, hiss.pend, hiss.plain, hlength⟩
  have hexe : execLanes i c lanes = lanes := by subst hi; cases h <;> rfl
  rw [← hfin]
  refine completes_nil (body := exitBody h) (s' := s.setCrew ci (c.exitCrew h lanes)) hiss ?_ ?_ ?_ ?_ ?_ ?_ hb ?_ room
  · subst hi; cases h <;> rfl
  · subst hi; cases h <;> nofun
  · subst hi; cases h <;> rfl
  · subst hi; cases h <;> rfl
  · rw [hexe]; exact exitBody_eq h hlen hq
  · exact fun d => State.setCrew_setCrew ..
  · rw [hts]; rfl

/-- Settles O33: each of these instructions has no operands, and its bundle completes around what its body does to the threads. -/
theorem threadsAndChunkEnds : Obligations.ThreadsAndChunkEnds := by
  refine ⟨⟨fun s ci c lanes h room => cbrk_completes h room, fun s ci c lanes h => ?_⟩, fun h s ci c lanes => ?_⟩
  · cases hd : c.dirty with
    | true => exact yield_ends h hd
    | false => exact fun room => yield_completes h hd room
  · intro i hiss hq st kept final
    have hn := hiss.lanes_sorted.1
    refine ⟨c.exitCrew h lanes, fun l hl => Crew.thread_exitCrew hn h hl, ?_, fun room => ?_⟩
    · obtain ⟨ts, -, hts⟩ := c.exitCrew_eq h lanes
      rw [hts]
      rfl
    · have hslots : i.slots = [] := by cases h <;> rfl
      rw [changed_of_no_slots hslots] at room
      exact exit_completes h rfl hiss (by rw [hq]) room

end Sys2Proof.Machine
end

section
/-! SUPPORT. Regrouping (R61, R62): a state that refutes `Obligations.Regrouping` (O43). -/

namespace Sys2Proof.Machine

open Sys2Proof Sys2Proof.Claims

/-! ## Regrouping: a waiting thread keeps its TRAPINFO (R193) -/

/-- One crew whose lane 0 waits in REGROUP after a trap: its TRAPINFO is not 0. -/
def trappedWaiter : Crew := { arch := { threads := { st := .regroup, trapInfo := 1 } :: List.replicate 31 {} } }

/-- The entry in which it waits. -/
def trappedEntry : Regroup := { team := 0, pc := 0, waiting := [(0, 0)] }

/-- The state with that crew and that entry alone. -/
def trappedRegroup : State := { crews := [trappedWaiter], quads := [(0, { regroup := [(0, trappedEntry)] })] }

theorem trappedRegroup_fires : trappedRegroup.fires 0 trappedEntry = true := by decide

theorem trappedRegroup_exec : exec (.regroupTimeout 0 0) trappedRegroup = .next (trappedRegroup.fire 0 0 trappedEntry) := by
  show execRegroupTimeout 0 0 trappedRegroup = _
  have hentry : SMap.get? (trappedRegroup.quad 0).regroup 0 = some trappedEntry := rfl
  simp only [execRegroupTimeout, hentry, trappedRegroup_fires, if_true]

theorem trappedRegroup_trapInfo :
    (trappedRegroup.fire 0 0 trappedEntry).crews.map (fun c => (c.thread 0).trapInfo) = [1, 1] := by decide

/-- Refutes O43: in the composite bundle a thread has the TRAPINFO it had (R193), and its `mstep`, where the statement says 0 for
both; a thread that has trapped before it waits in REGROUP shows it. -/
theorem not_regrouping : ¬ Obligations.Regrouping := by
  rintro ⟨-, hfire⟩
  obtain ⟨t, hexec, -, -, hforms⟩ := hfire 0 0 trappedRegroup
  obtain rfl := Host.Outcome.next.inj (trappedRegroup_exec.symm.trans hexec)
  obtain ⟨k, hcrews, -, -, hhomes, hthreads, -⟩ := hforms trappedEntry rfl trappedRegroup_fires (by decide)
  have hmem : (0, 0) ∈ k.homes := (hhomes 0 0).2 (by simp [trappedEntry])
  have hthread := (hthreads _ hmem).1
  have htrap := trappedRegroup_trapInfo
  simp only [hcrews, List.map_append, List.map_cons, hthread] at htrap
  exact absurd htrap (by decide)

end Sys2Proof.Machine
end

section
/-! SUPPORT. Spill and fill (R255, R256): a state that refutes `Obligations.SpillAndFill` (O13). -/

namespace Sys2Proof.Machine

open Sys2Proof Sys2Proof.Claims

/-! ## fill with an s register as D -/

/-- One lane that holds an address in v1. -/
def fillArch : Arch := { threads := { st := .active } :: List.replicate 31 {}, vregs := [(32, ⟨.int, 0x2000100⟩)] }

def fillCrew : Crew := { alloc := 224, arch := fillArch, chunk := { start := fillArch } }

/-- Its package: the page of that address is cached, and memory lists nothing. -/
def fillState : State := { focus := some 0, crews := [fillCrew], tlb := [⟨0, 0, 0x2000000, 65536, 0x30002F⟩] }

/-- A `fill` whose D is s6, which no word encodes. -/
def fillUniform : MOps := { d := 230, base := 1 }

theorem fillUniform_issues : Issues fillState (.fill fillUniform) 0 fillCrew [0] where
  stand := by decide
  own := rfl
  pend := rfl
  svc := rfl
  plain := rfl
  event := nofun
  collective := nofun
  legal := by decide
  someLane := by decide

/-- The slot is read, its image decodes, and the chunk has room. -/
theorem fillUniform_reads : ∃ b ws row, fillState.readWords 0 fillCrew 0x2000100 1 = .ok b ws ∧
    (List.range 32).mapM (imageLane 0 ws) = some row ∧
    Room fillState 0 b ([0].flatMap (fillState.lastUses (.fill fillUniform) fillCrew) ++ [230]) := by
  have h : (match fillState.readWords 0 fillCrew 0x2000100 1 with
      | .ok b ws => ((List.range 32).mapM (imageLane 0 ws)).isSome && !fillState.overLimits 0
        ((([0].flatMap (fillState.lastUses (.fill fillUniform) fillCrew) ++ [230]).filter fun f => decide (f < 224)).foldl Crew.noteWrite b)
      | _ => false) = true := by decide +kernel
  split at h
  · rename_i b ws heq
    simp only [Bool.and_eq_true, Bool.not_eq_true', Option.isSome_iff_exists] at h
    obtain ⟨⟨row, hrow⟩, hroom⟩ := h
    exact ⟨b, ws, row, heq, hrow, hroom⟩
  · cases h

/-- Lane 0's word goes to s6. -/
theorem fillUniform_writes : (match exec (.fill fillUniform) fillState with
    | .next t => (t.crew 0).readS 6
    | _ => .undef) ≠ fillCrew.readS 6 := by decide +kernel

/-- Refutes O13: its clause on `fill` says that no s register changes, and lets D be any field. Where D is an s register, which no
word encodes, the lowest lane's word goes to it (R191). -/
theorem not_spillAndFill : ¬ Obligations.SpillAndFill := by
  rintro ⟨-, hfill, -⟩
  obtain ⟨b, ws, row, hreads, hrow, hroom⟩ := fillUniform_reads
  obtain ⟨t, hexec, -, -, -, hkeeps, -⟩ := hfill fillUniform fillState 0 fillCrew [0] b ws row fillUniform_issues (fun _ _ => rfl)
    (by decide) (by unfold addressTags; decide) (by decide) (by decide) hreads hrow hroom
  have hwrites := fillUniform_writes
  rw [hexec] at hwrites
  exact hwrites (hkeeps 6 (by decide))

end Sys2Proof.Machine
end

section
/-! SUPPORT. The lift and device launches (R70-R73, R304, R305, R376, R377): `Obligations.LiftAndDeviceLaunch` (O30). -/

namespace Sys2Proof.Machine

open Sys2Proof Sys2Proof.Claims

/-! ## Events that complete -/

/-- An irrevocable instruction whose body answers without a trap in any lane performs its event. -/
theorem performs_of_body {s s' : State} {i : Instr} {ci : Nat} {c b : Crew} {lanes : List Nat} {body : Body}
    (h : Issues s i ci c lanes) (hexec : exec i s = issue i body s) (hcls : i.cls = .irrevocable) (hb : BodyCrew c b)
    (r : Nat → LaneResult)
    (hbody : body s ci c (execLanes i c lanes) = .ok s' b
      (cleanOuts (execLanes i c lanes) (fun l => (r l).writes) (fun l => (r l).go) (fun l => (r l).flags) (fun l => (r l).fmt)) false) :
    Performs i s s' ci c b lanes r := by
  obtain ⟨c', he, hc⟩ := conclude_event (s' := s') h hb _ _ _ _ hcls
  exact ⟨c', he, by rw [hexec, issue_body body h, hbody]; exact congrArg Host.Outcome.next hc⟩

/-- The crew that issues has a place of its own in the list of crews. -/
theorem Issues.crew_lt {s : State} {i : Instr} {ci : Nat} {c : Crew} {lanes : List Nat} (h : Issues s i ci c lanes) :
    ci < s.crews.length := by
  obtain ⟨hlt, _⟩ := stand_crew h.stand
  exact hlt

theorem Issues.lanes_nodup {s : State} {i : Instr} {ci : Nat} {c : Crew} {lanes : List Nat} (h : Issues s i ci c lanes) :
    (execLanes i c lanes).Nodup :=
  ((h.lanes_sorted.1.imp fun hab => Nat.ne_of_lt hab).sublist (execLanes_sub i c lanes))

/-! ## The lift -/

theorem State.lift_setLift (s : State) (die : Nat) (x : Lift) : (s.setLift die x).lift die = x := by
  simp [State.lift, State.setLift, SMap.get, SMap.get?_set_same]

theorem State.lift_setLift_other (s : State) (die d : Nat) (x : Lift) (h : d ≠ die) : (s.setLift die x).lift d = s.lift d := by
  simp [State.lift, State.setLift, SMap.get, SMap.get?_set_other _ _ _ _ h]

/-- A state differs from another in nothing but one die's lift, which is `x`. -/
structure LiftOnly (s : State) (die : Nat) (x : Lift) (s' : State) : Prop where
  frame : { s' with lifts := s.lifts } = s
  others : ∀ d, d ≠ die → s'.lift d = s.lift d
  lift : s'.lift die = x

theorem LiftOnly.refl (s : State) (die : Nat) : LiftOnly s die (s.lift die) s := ⟨rfl, fun _ _ => rfl, rfl⟩

theorem LiftOnly.trans {s v u : State} {die : Nat} {x y : Lift} (h : LiftOnly s die x v) (g : LiftOnly v die y u) : LiftOnly s die y u where
  frame := (congrArg (fun t : State => { t with lifts := s.lifts }) g.frame).trans h.frame
  others := fun d hd => (g.others d hd).trans (h.others d hd)
  lift := g.lift

theorem State.setLift_only (s : State) (die : Nat) (x : Lift) : LiftOnly s die x (s.setLift die x) where
  frame := rfl
  others := fun d hd => s.lift_setLift_other die d x hd
  lift := s.lift_setLift die x

/-- One lane of `wput`. -/
def putLane (o : XOps) (s : State) (c : Crew) (acc : State × List LaneOut) (l : Nat) : State × List LaneOut :=
  if (s.opnd (.wput o) c l 1).isHeader || (s.opnd (.wput o) c l 2).isHeader then (acc.1, acc.2 ++ [trapOut (.wput o) s c l .tag])
  else
    let x := acc.1.lift (c.core / 48)
    let fits := x.serves (s.asidOf c) && decide (x.entries.length < Config.liftEntries)
    (if fits then acc.1.setLift (c.core / 48)
        { x with entries := x.entries ++ [(s.opnd (.wput o) c l 1, s.opnd (.wput o) c l 2)] } else acc.1,
      acc.2 ++ [{ lane := l, writes := [(s.destOf (.wput o) c l, boolWord fits)] }])

/-- Entries that a lift still takes from a context. -/
def Lift.room (x : Lift) (asid : Nat) : Nat := if x.serves asid then 65536 - x.entries.length else 0

theorem Lift.room_append (x : Lift) (asid : Nat) (e : TWord × TWord) (h : 0 < x.room asid) :
    ({ x with entries := x.entries ++ [e] } : Lift).room asid = x.room asid - 1 := by
  unfold Lift.room at h ⊢
  by_cases hx : x.serves asid = true
  · have hx' : ({ x with entries := x.entries ++ [e] } : Lift).serves asid = true := hx
    simp only [hx, hx', if_true, List.length_append, List.length_singleton]
    omega
  · simp [hx] at h

theorem Lift.fits_iff (x : Lift) (asid : Nat) :
    (x.serves asid && decide (x.entries.length < Config.liftEntries)) = decide (0 < x.room asid) := by
  unfold Lift.room
  by_cases hx : x.serves asid = true
  · simp only [hx, Bool.true_and, if_true]
    exact decide_eq_decide.mpr Nat.sub_pos_iff_lt.symm
  · simp [hx]

/-- A lane whose words are no headers appends them where there is room, and answers whether there was. -/
theorem putLane_eq (o : XOps) (s : State) (c : Crew) (t : State) (outs : List LaneOut) (l : Nat)
    (ha : (s.opnd (.wput o) c l 1).isHeader = false) (hb : (s.opnd (.wput o) c l 2).isHeader = false) :
    putLane o s c (t, outs) l =
      (if 0 < (t.lift (c.core / 48)).room (s.asidOf c) then t.setLift (c.core / 48) { t.lift (c.core / 48) with
          entries := (t.lift (c.core / 48)).entries ++ [(s.opnd (.wput o) c l 1, s.opnd (.wput o) c l 2)] } else t,
        outs ++ [{ lane := l, writes := [(s.destOf (.wput o) c l,
          boolWord (decide (0 < (t.lift (c.core / 48)).room (s.asidOf c))))] }]) := by
  rw [putLane, if_neg (by simp [ha, hb])]
  simp only [Lift.fits_iff, decide_eq_true_eq]

/-- The lanes of `wput` append their words in order while the lift has room, and each answers whether its words stood. -/
theorem putLane_fold (o : XOps) (s : State) (c : Crew) :
    ∀ (exe : List Nat) (t : State) (x : Lift) (outs : List LaneOut), exe.Nodup →
      (∀ l ∈ exe, (s.opnd (.wput o) c l 1).isHeader = false ∧ (s.opnd (.wput o) c l 2).isHeader = false) →
      t.lift (c.core / 48) = x →
      ∃ u, exe.foldl (putLane o s c) (t, outs) = (u, outs ++ exe.map fun l =>
          { lane := l, writes := [(s.destOf (.wput o) c l, boolWord (decide (exe.idxOf l < x.room (s.asidOf c))))] }) ∧
        LiftOnly t (c.core / 48) { x with entries := x.entries ++
          (exe.map fun l => (s.opnd (.wput o) c l 1, s.opnd (.wput o) c l 2)).take (x.room (s.asidOf c)) } u := by
  intro exe
  induction exe with
  | nil => intro t x outs _ _ hx; exact ⟨t, by simp, by subst hx; simpa using LiftOnly.refl t _⟩
  | cons l rest ih =>
    intro t x outs hn hw hx
    obtain ⟨hl, hn⟩ := List.nodup_cons.mp hn
    obtain ⟨ha, hb⟩ := hw l List.mem_cons_self
    have hidx : ∀ m ∈ rest, (l :: rest).idxOf m = rest.idxOf m + 1 := fun m hm =>
      List.idxOf_cons_ne rest fun e => hl (e ▸ hm)
    rcases Nat.eq_zero_or_pos (x.room (s.asidOf c)) with hr | hr
    · obtain ⟨u, hu, hf⟩ := ih t x (outs ++ [{ lane := l, writes := [(s.destOf (.wput o) c l, boolWord false)] }]) hn
        (fun m hm => hw m (List.mem_cons_of_mem _ hm)) hx
      refine ⟨u, ?_, by simpa [hr] using hf⟩
      rw [List.foldl_cons, putLane_eq o s c t outs l ha hb, hx, hr]
      simpa [hr] using hu
    · let y : Lift := { x with entries := x.entries ++ [(s.opnd (.wput o) c l 1, s.opnd (.wput o) c l 2)] }
      obtain ⟨u, hu, hf⟩ := ih (t.setLift (c.core / 48) y) y
        (outs ++ [{ lane := l, writes := [(s.destOf (.wput o) c l, boolWord true)] }]) hn
        (fun m hm => hw m (List.mem_cons_of_mem _ hm)) (t.lift_setLift _ _)
      have hroom : y.room (s.asidOf c) = x.room (s.asidOf c) - 1 := x.room_append _ _ hr
      refine ⟨u, ?_, (t.setLift_only _ y).trans ?_⟩
      · rw [List.foldl_cons, putLane_eq o s c t outs l ha hb, hx]
        simp only [hr, if_true, List.map_cons, List.idxOf_cons_self, decide_true]
        rw [hu, hroom, List.append_assoc, List.singleton_append]
        congr 3
        refine List.map_congr_left fun m hm => ?_
        rw [hidx m hm, decide_eq_decide.mpr (Nat.lt_sub_iff_add_lt)]
      · obtain ⟨n, hn'⟩ : ∃ n, x.room (s.asidOf c) = n + 1 := ⟨_, (Nat.sub_add_cancel hr).symm⟩
        simpa [y, hroom, hn'] using hf

theorem wputBody_eq (o : XOps) (s : State) (ci : Nat) (c : Crew) (exe : List Nat) :
    wputBody o s ci c exe = .ok (exe.foldl (putLane o s c) (s.setCrew ci c, [])).1
      ((exe.foldl (putLane o s c) (s.setCrew ci c, [])).1.crew ci) (exe.foldl (putLane o s c) (s.setCrew ci c, [])).2 false := rfl

/-- A state that differs from `s` with a crew set only in a lift is `s` with that lift, and that crew set. -/
theorem LiftOnly.of_setCrew {s u : State} {ci die : Nat} {c : Crew} {x : Lift} (h : LiftOnly (s.setCrew ci c) die x u)
    (hlt : ci < s.crews.length) :
    ∃ s', LiftOnly s die x s' ∧ u = s'.setCrew ci c ∧ u.crew ci = c := by
  have hu : u = ({ s with lifts := u.lifts } : State).setCrew ci c := by
    have hl := congrArg (fun t : State => { t with lifts := u.lifts }) h.frame
    exact hl
  refine ⟨{ s with lifts := u.lifts }, ⟨rfl, h.others, h.lift⟩, hu, ?_⟩
  rw [hu]
  exact State.crew_setCrew_same _ ci c hlt

/-- A lift that has taken from a context as many of some entries as it has room for. -/
def Lift.given (x : Lift) (asid : Nat) (es : List (TWord × TWord)) : Lift := { x with entries := x.entries ++ es.take (x.room asid) }

/-- `wput` (R70-R73, R304). -/
theorem wput_performs {o : XOps} {s : State} {ci : Nat} {c : Crew} {lanes : List Nat} (h : Issues s (.wput o) ci c lanes)
    (hw : ∀ l ∈ execLanes (.wput o) c lanes, (s.opnd (.wput o) c l 1).isHeader = false ∧ (s.opnd (.wput o) c l 2).isHeader = false) :
    ∃ s', LiftOnly s (c.core / 48) ((s.lift (c.core / 48)).given (s.asidOf c)
        ((execLanes (.wput o) c lanes).map fun l => (s.opnd (.wput o) c l 1, s.opnd (.wput o) c l 2))) s' ∧
      Performs (.wput o) s (s'.setCrew ci c) ci c c lanes fun l =>
        { writes := [(s.destOf (.wput o) c l, boolWord (decide
          ((execLanes (.wput o) c lanes).idxOf l < (s.lift (c.core / 48)).room (s.asidOf c))))] } := by
  obtain ⟨u, hu, hf⟩ := putLane_fold o s c (execLanes (.wput o) c lanes) (s.setCrew ci c) _ [] h.lanes_nodup hw rfl
  obtain ⟨s', hs', rfl, hc⟩ := hf.of_setCrew h.crew_lt
  refine ⟨s', hs', performs_of_body (body := wputBody o) h rfl rfl (.self h) _ ?_⟩
  rw [wputBody_eq, hu, hc]
  rfl

/-- One lane of `wget`. -/
def getLane (o : XOps) (s : State) (c : Crew) (acc : State × List LaneOut) (l : Nat) : State × List LaneOut :=
  let x := acc.1.lift (c.core / 48)
  let (s1, a, b) : State × TWord × TWord := match x.serves (s.asidOf c), x.entries with
    | true, e :: rest => (acc.1.setLift (c.core / 48) { x with entries := rest }, e.1, e.2)
    | _, _ => (acc.1, .nil, .nil)
  (s1, acc.2 ++ [{ lane := l, writes := if s.destOf (.wget o) c l = 255 then [] else
    [(s.destOf (.wget o) c l, a), (s.destOf (.wget o) c l + 1, b)] }])

/-- The entries of a lift that a context may take. -/
def Lift.held (x : Lift) (asid : Nat) : List (TWord × TWord) := if x.serves asid then x.entries else []

/-- What a lane of `wget` writes, of an entry or of none. -/
def getWrites (o : XOps) (s : State) (c : Crew) (l : Nat) (e : TWord × TWord) : List (Nat × TWord) :=
  if s.destOf (.wget o) c l = 255 then [] else [(s.destOf (.wget o) c l, e.1), (s.destOf (.wget o) c l + 1, e.2)]

/-- A lift that has given its oldest `n` entries to a context. -/
def Lift.taken (x : Lift) (asid n : Nat) : Lift := { x with entries := if x.serves asid then x.entries.drop n else x.entries }

theorem Lift.held_taken (x : Lift) (asid n : Nat) : (x.taken asid n).held asid = (x.held asid).drop n := by
  have hs : (x.taken asid n).serves asid = x.serves asid := rfl
  unfold Lift.held
  rw [hs]
  split <;> simp [Lift.taken, *]

theorem Lift.taken_taken (x : Lift) (asid m n : Nat) : (x.taken asid m).taken asid n = x.taken asid (m + n) := by
  have hs : (x.taken asid m).serves asid = x.serves asid := rfl
  unfold Lift.taken at hs ⊢
  rw [hs]
  split <;> simp only [List.drop_drop, *]

theorem Lift.taken_of_nil (x : Lift) (asid n : Nat) (h : x.entries = []) : x.taken asid n = x := by
  obtain ⟨es, a, en⟩ := x
  obtain rfl : es = [] := h
  simp [Lift.taken]

theorem getLane_eq (o : XOps) (s : State) (c : Crew) (t : State) (outs : List LaneOut) (l : Nat) :
    ∃ u, getLane o s c (t, outs) l =
        (u, outs ++ [{ lane := l, writes := getWrites o s c l (((t.lift (c.core / 48)).held (s.asidOf c)).headD (.nil, .nil)) }]) ∧
      LiftOnly t (c.core / 48) ((t.lift (c.core / 48)).taken (s.asidOf c) 1) u := by
  cases hx : (t.lift (c.core / 48)).serves (s.asidOf c) with
  | false => exact ⟨t, by simp [getLane, hx, Lift.held, getWrites], by simpa [Lift.taken, hx] using LiftOnly.refl t _⟩
  | true =>
    cases he : (t.lift (c.core / 48)).entries with
    | nil =>
      refine ⟨t, by simp [getLane, hx, he, Lift.held, getWrites], ?_⟩
      rw [Lift.taken_of_nil _ _ _ he]
      exact LiftOnly.refl t _
    | cons e rest =>
      refine ⟨t.setLift (c.core / 48) { t.lift (c.core / 48) with entries := rest },
        by simp [getLane, hx, he, Lift.held, getWrites], ?_⟩
      simpa [Lift.taken, hx, he] using t.setLift_only (c.core / 48) _

/-- The lanes of `wget` take the oldest entries in order. -/
theorem getLane_fold (o : XOps) (s : State) (c : Crew) :
    ∀ (exe : List Nat) (t : State) (outs : List LaneOut), exe.Nodup →
      ∃ u, exe.foldl (getLane o s c) (t, outs) = (u, outs ++ exe.map fun l =>
          { lane := l, writes := getWrites o s c l
              ((((t.lift (c.core / 48)).held (s.asidOf c))[exe.idxOf l]?).getD (.nil, .nil)) }) ∧
        LiftOnly t (c.core / 48) ((t.lift (c.core / 48)).taken (s.asidOf c) exe.length) u := by
  intro exe
  induction exe with
  | nil => intro t outs _; exact ⟨t, by simp, by simpa [Lift.taken] using LiftOnly.refl t _⟩
  | cons l rest ih =>
    intro t outs hn
    obtain ⟨hl, hn⟩ := List.nodup_cons.mp hn
    obtain ⟨v, hv, hg⟩ := getLane_eq o s c t outs l
    obtain ⟨u, hu, hf⟩ := ih v (outs ++ [_]) hn
    refine ⟨u, ?_, hg.trans ?_⟩
    · rw [List.foldl_cons, hv, hu, hg.lift, List.map_cons, List.append_assoc, List.singleton_append]
      congr 3
      · simp [List.headD_eq_head?_getD, List.head?_eq_getElem?]
      · refine List.map_congr_left fun m hm => ?_
        have hne : l ≠ m := fun e => hl (e ▸ hm)
        rw [List.idxOf_cons_ne rest hne, Lift.held_taken, List.getElem?_drop, Nat.add_comm]
    · simpa [hg.lift, Lift.taken_taken, Nat.add_comm] using hf

theorem wgetBody_eq (o : XOps) (s : State) (ci : Nat) (c : Crew) (exe : List Nat) :
    wgetBody o s ci c exe = .ok (exe.foldl (getLane o s c) (s.setCrew ci c, [])).1
      ((exe.foldl (getLane o s c) (s.setCrew ci c, [])).1.crew ci) (exe.foldl (getLane o s c) (s.setCrew ci c, [])).2 false := rfl

/-- `wget` (R70-R73, R304). -/
theorem wget_performs {o : XOps} {s : State} {ci : Nat} {c : Crew} {lanes : List Nat} (h : Issues s (.wget o) ci c lanes) :
    ∃ s', LiftOnly s (c.core / 48) ((s.lift (c.core / 48)).taken (s.asidOf c) (execLanes (.wget o) c lanes).length) s' ∧
      Performs (.wget o) s (s'.setCrew ci c) ci c c lanes fun l =>
        { writes := getWrites o s c l ((((s.lift (c.core / 48)).held (s.asidOf c))[(execLanes (.wget o) c lanes).idxOf l]?).getD (.nil, .nil)) } := by
  obtain ⟨u, hu, hf⟩ := getLane_fold o s c (execLanes (.wget o) c lanes) (s.setCrew ci c) [] h.lanes_nodup
  obtain ⟨s', hs', rfl, hc⟩ := hf.of_setCrew h.crew_lt
  refine ⟨s', hs', performs_of_body (body := wgetBody o) h rfl rfl (.self h) _ ?_⟩
  rw [wgetBody_eq, hu, hc]
  rfl

/-! ## Launch records (R376, R377) -/

theorem natCast_mod_eight {n : Nat} (h : ((n : BitVec 64) % 8) = 0) : n % 8 = 0 := by
  have h' := congrArg BitVec.toNat h
  simp only [BitVec.natCast_eq_ofNat, BitVec.toNat_umod, BitVec.toNat_ofNat, BitVec.reduceToNat] at h'
  omega

/-- A record that is taken is one that R377 allows, of a context that is live, and gives the grid its fields. -/
theorem State.parseRecord_ok {s : State} {w : Nat → Nat} {t k a : Nat} {g : Grid}
    (h : s.parseRecord w (.device t k) (some a) = some g) :
    RecordOk w ∧ GridOf w g ∧ w 9 = a ∧ (∃ x, s.ctxOf (w 9) = some x ∧ x.state = .live) ∧ g.prio = w 8 / 2 ^ 8 % 8 ∧
      g.origin = .device t k ∧ g.nextGang = 0 ∧ g.status = none := by
  unfold State.parseRecord at h
  dsimp only at h
  split at h
  · cases h
  · rename_i hc
    split at h
    · rename_i args bodies routes binds hargs _ _ _
      simp only [Bool.or_eq_true, not_or, bne_iff_ne, ne_eq, decide_eq_true_eq, not_le, not_lt, Bool.and_eq_true, beq_iff_eq,
        Bool.not_eq_true, Bool.not_eq_eq_eq_not, not_not, not_and,
        and_assoc] at hc
      obtain ⟨hbase, hsize, hsize8, hentry8, hentry, hhtab, hmac, hfeat, hntz, hx0, hy, hz, hcrews, hcrews', hteams, hteams', hregs, hregs',
        hregs8, hobuf, hhash, hscratch, hnmac, hres1, hres2, hasid, hargs64, hdq, htoken, hbind8, hbinds, hgangs, hfour, hlive, hissuer,
        hmem, hbar⟩ := hc
      obtain rfl := Option.some.inj h
      have hx : ∃ x, s.ctxOf (w 9) = some x ∧ x.state = .live := by
        have hany : (s.ctxOf (w 9)).any (fun c => c.state == .live) = true := by simpa using hlive
        obtain ⟨x, hx, hl⟩ := (Option.any_eq_true _ _).mp hany
        exact ⟨x, hx, beq_iff_eq.mp hl⟩
      refine ⟨⟨⟨hbase, hsize, hsize8, hentry8, hentry⟩, ⟨natCast_mod_eight hhtab, hmac, hfeat, hargs64, hbind8, hbinds⟩,
        ⟨by omega, hx0, hy, hz⟩, hgangs, ⟨by omega, hcrews', by omega, hteams', hregs, hregs', hregs8⟩, ⟨hobuf, hhash, hscratch⟩,
        ⟨hnmac, hres1, hres2, hasid⟩, ?_, ⟨hdq, htoken, hmem, ?_⟩⟩, ⟨⟨rfl, rfl, rfl, rfl, ?_⟩, ⟨rfl, rfl, rfl⟩, ⟨rfl, rfl, rfl⟩,
        ⟨rfl, rfl, rfl⟩, ⟨rfl, rfl, rfl, rfl, ?_⟩, ?_, ⟨rfl, rfl, rfl, rfl⟩⟩, hissuer.symm, hx, rfl, rfl, rfl, rfl⟩
      · intro h4; simpa using hfour h4
      · intro h2; simpa using hbar h2
      · simp
      · intro h3; simp [h3]
      · intro h10; rw [if_pos h10] at hargs; exact (Option.some.inj hargs).symm
    · cases h

/-- The waiting gang that a grid's next gang is. -/
def State.gangOffered (s : State) (g : Grid) (gi : Nat) : Waiting :=
  { grid := gi, gang := g.nextGang, die := s.dieFor gi, prio := g.prio, since := s.clock.toNat }

/-- A state with one grid more. -/
def State.withGrid (s : State) (g : Grid) : State := { s with grids := s.grids ++ [g] }

@[simp] theorem State.withGrid_grid (s : State) (g : Grid) : (s.withGrid g).grid s.grids.length = g := by
  simp [State.grid, State.withGrid]

@[simp] theorem State.withGrid_setGrid (s : State) (g g' : Grid) : (s.withGrid g).setGrid s.grids.length g' = s.withGrid g' := by
  simp [State.setGrid, State.withGrid]

/-- A grid that no die can hold has ended as it enters; of any other the first gang waits for its die (R377, R381). -/
theorem State.launchGrid_spec (s : State) (g : Grid) (hg : 0 < g.gangs) (hn : g.nextGang = 0) (hst : g.status = none) (t k : Nat)
    (ho : g.origin = .device t k) :
    (∃ ws, s.launchGrid g = { s.withGrid { g with status := some 1 } with waiting := ws } ∧ ∀ y ∈ ws, y.grid ≠ s.grids.length) ∨
      ∃ y : Waiting, s.launchGrid g = { s.withGrid { g with nextGang := 1 } with waiting := s.waiting ++ [y] } ∧
        y.grid = s.grids.length ∧ y.gang = 0 ∧ y.die = k / 48 ∧ y.prio = g.prio := by
  have hl : s.launchGrid g = (s.withGrid g).endGrid s.grids.length 1 ∨ s.launchGrid g = (s.withGrid g).offerGang s.grids.length :=
    ite_eq_or_eq _ _ _
  rcases hl with hl | hl
  · refine .inl ⟨s.waiting.filter fun w => w.grid != s.grids.length, ?_, fun y hy => by simpa using (List.mem_filter.mp hy).2⟩
    simp [hl, State.endGrid, hst]
    rfl
  · refine .inr ⟨(s.withGrid g).gangOffered g s.grids.length, ?_, rfl, hn, ?_, rfl⟩
    · simp [hl, State.offerGang, hst, hn, Nat.not_le.mpr hg, State.gangOffered]
      rfl
    · simp [State.gangOffered, State.dieFor, ho]

theorem gangs_pos_of_record {w : Nat → Nat} {g : Grid} (h : RecordOk w) (hg : GridOf w g) : 0 < g.gangs := by
  obtain ⟨_, hx, hy, hz⟩ := h.extent
  obtain ⟨ex, ey, ez⟩ := hg.extent
  obtain ⟨_, et, _⟩ := hg.shape
  obtain ⟨_, _, ht, _⟩ := h.shape
  have hpos : 0 < g.ntx * g.nty * g.ntz := by
    rw [ex, ey, ez]
    exact Nat.mul_pos (Nat.mul_pos (Nat.pos_of_ne_zero hx) (Nat.pos_of_ne_zero hy)) (Nat.pos_of_ne_zero hz)
  have hdvd : g.teams ∣ g.ntx * g.nty * g.ntz := by
    rw [ex, ey, ez, et]
    exact Nat.dvd_of_mod_eq_zero h.gangs
  exact Nat.div_pos (Nat.le_of_dvd hpos hdvd) (et ▸ ht)

/-- Priority and progress are no fields of the launch record's (R376, R305). -/
theorem gridOf_progress {w : Nat → Nat} {g : Grid} (h : GridOf w g) (p n : Nat) (st : Option Nat) :
    GridOf w { g with prio := p, nextGang := n, status := st } :=
  ⟨h.code, h.extent, h.shape, h.memory, h.flags, h.args, h.done⟩

/-! ## `lnch` (R305) -/

/-- The grid that a `lnch` at a record's key would launch; none where the record is refused. -/
def State.deviceGrid (s : State) (c : Crew) (k : Nat) : Option Grid :=
  s.parseRecord (fun j => Memory.nat s.mem (k + 8 * j) 8) (.device c.team c.core) (some (s.asidOf c))

/-- The state after a `lnch` of a record, with no more than its own grid's priority; of no record, as it was. -/
def State.afterLnch (s : State) (ci : Nat) (c : Crew) (grid : Option Grid) : State :=
  (grid.map fun g => (s.setCrew ci c).launchGrid { g with prio := min g.prio (s.gridOf c).prio }).getD s

theorem BodyCrew.usePage {c b : Crew} (h : BodyCrew c b) (p : Page) : BodyCrew c (b.usePage p) := by
  unfold Crew.usePage
  split
  · exact h
  · exact ⟨h.homes, h.pend, h.plain, h.threads⟩

theorem BodyCrew.usePage? {c b : Crew} (h : BodyCrew c b) (p : Option Page) : BodyCrew c (b.usePage? p) := by
  cases p with
  | none => exact h
  | some p => exact h.usePage p

/-- The state and the status that a `lnch` of the record at a key leads to. -/
def State.lnchResult (s : State) (ci : Nat) (c : Crew) (k : Nat) : State × Nat :=
  if Config.lnchQueue ≤ s.lnchWaiting (c.core / 48) then (s, 2)
  else match s.deviceGrid c k with
    | none => (s, 1)
    | some g => ((s.setCrew ci c).launchGrid { g with prio := min g.prio (s.gridOf c).prio }, 0)

theorem State.lnchResult_eq (s : State) (ci : Nat) (c : Crew) (k : Nat) :
    s.lnchResult ci c k = (if 256 ≤ s.lnchWaiting (c.core / 48) then s else s.afterLnch ci c (s.deviceGrid c k),
      if 256 ≤ s.lnchWaiting (c.core / 48) then 2 else if (s.deviceGrid c k).isNone then 1 else 0) := by
  by_cases hf : 256 ≤ s.lnchWaiting (c.core / 48)
  · exact (if_pos hf).trans (by rw [if_pos hf, if_pos hf])
  · rw [if_neg hf, if_neg hf]
    refine (if_neg hf).trans ?_
    cases s.deviceGrid c k <;> rfl

/-- What a `lnch` whose address stands answers in every lane. -/
theorem lnch_performs {o : XOps} {s : State} {ci : Nat} {c : Crew} {lanes : List Nat} {k gr : Nat} {tg : Bool} {pg : Option Page}
    (h : Issues s (.lnch o) ci c lanes) (ht : (s.opnd (.lnch o) c ((execLanes (.lnch o) c lanes).headD 0) 1).tag = .int)
    (ha : s.globalAddr c (s.opnd (.lnch o) c ((execLanes (.lnch o) c lanes).headD 0) 1).payload 128 true false = .ok k tg gr pg) :
    Performs (.lnch o) s (if 256 ≤ s.lnchWaiting (c.core / 48) then s else s.afterLnch ci c (s.deviceGrid c k)) ci c (c.usePage? pg) lanes
      fun l => { writes := [(s.destOf (.lnch o) c l,
                  intWord (if 256 ≤ s.lnchWaiting (c.core / 48) then 2 else if (s.deviceGrid c k).isNone then 1 else 0 : Nat))] } := by
  have hb : BodyCrew c (c.usePage? pg) := (BodyCrew.self h).usePage? pg
  refine performs_of_body (body := lnchBody o) h rfl rfl hb _ ?_
  have hbody : lnchBody o s ci c (execLanes (.lnch o) c lanes) = .ok (s.lnchResult ci c k).1 (c.usePage? pg)
      (cleanOuts (execLanes (.lnch o) c lanes) (fun l => [(s.destOf (.lnch o) c l, intWord ((s.lnchResult ci c k).2 : Nat))])
        (fun _ => none) (fun _ => 0) fun _ => false) false := by
    unfold lnchBody
    dsimp only
    rw [if_neg (by rw [ht]; decide), ha, State.lnchResult]
    dsimp only
    unfold State.deviceGrid
    cases s.parseRecord (fun j => Memory.nat s.mem (k + 8 * j) 8) (.device c.team c.core) (some (s.asidOf c))
    all_goals simp only [cleanOuts, intWord, BitVec.ofInt_natCast]
  rw [hbody, s.lnchResult_eq]

/-- A grid that `lnch` launches (R305, R376, R377, R381). -/
theorem State.afterLnch_spec {s : State} {ci : Nat} {c : Crew} {k : Nat} {g : Grid} (h : s.deviceGrid c k = some g) :
    let w := fun j => Memory.nat s.mem (k + 8 * j) 8
    let s' := s.afterLnch ci c (some g)
    let x := s'.grid s.grids.length
    s'.grids.length = s.grids.length + 1 ∧ s'.mem = s.mem ∧ GridOf w x ∧ x.prio = min (w 8 / 2 ^ 8 % 8) (s.gridOf c).prio ∧
      x.origin = .device c.team c.core ∧
        ((x.status = some 1 ∧ ∀ y ∈ s'.waiting, y.grid ≠ s.grids.length) ∨
          (x.status = none ∧ ∃ y ∈ s'.waiting, y.grid = s.grids.length ∧ y.gang = 0 ∧ y.die = c.core / 48 ∧ y.prio = x.prio)) := by
  obtain ⟨hr, hg, -, -, hp, ho, hn, hst⟩ := State.parseRecord_ok h
  intro w s' x
  have hlen : (s.setCrew ci c).grids.length = s.grids.length := rfl
  rcases (s.setCrew ci c).launchGrid_spec { g with prio := min g.prio (s.gridOf c).prio } (gangs_pos_of_record hr (gridOf_progress hg _ g.nextGang g.status))
    hn hst _ _ ho with ⟨ws, he, hw⟩ | ⟨y, he, hyg, hy⟩
  all_goals
    have hs' : s' = _ := he
    have hx : x = _ := (congrArg (fun t : State => t.grid s.grids.length) hs').trans (State.withGrid_grid _ _)
    rw [hx, hs', ← hp]
  · exact ⟨by simp [State.withGrid], rfl, gridOf_progress hg _ _ _, rfl, ho, .inl ⟨rfl, hw⟩⟩
  · exact ⟨by simp [State.withGrid], rfl, gridOf_progress hg _ _ _, rfl, ho, .inr ⟨hst, y, by simp, hyg, hy⟩⟩

/-- Settles O30, a lane's word at a time for the lift and by the cases of the launched grid. -/
theorem liftAndDeviceLaunch : Obligations.LiftAndDeviceLaunch := by
  unfold Obligations.LiftAndDeviceLaunch
  refine ⟨⟨fun o s ci c lanes h => ?_, fun o s ci c lanes h => ?_⟩, fun o s ci c lanes k tg gr pg h => ?_⟩
  · intro i exe die x hw room
    obtain ⟨s', ⟨hframe, hothers, hlift⟩, hperf⟩ := wput_performs h hw
    exact ⟨s', hframe, hothers, hlift, hperf⟩
  · intro i exe die x held
    obtain ⟨s', ⟨hframe, hothers, hlift⟩, hperf⟩ := wget_performs h
    exact ⟨s', hframe, hothers, hlift, hperf⟩
  · intro i w ht ha grid full s' st
    refine ⟨lnch_performs h ht ha, fun g hg => ?_⟩
    obtain ⟨hr, -, hasid, hlive, -⟩ := State.parseRecord_ok hg
    refine ⟨hr, hasid, hlive, fun hf => ?_⟩
    have hs' : s' = s.afterLnch ci c (some g) := (if_neg hf).trans (congrArg (s.afterLnch ci c) hg)
    rw [hs']
    exact State.afterLnch_spec hg

end Sys2Proof.Machine
end

section
/-! SUPPORT. Numbers in memory, writes of events, and the records of `svc` (R238, R384-R386): `Obligations.ServiceCalls` (O31). -/

namespace Sys2Proof.Machine

open Sys2Proof Sys2Proof.Claims

/-! ## Numbers in memory -/

theorem leNat_leBytes (n v : Nat) : leNat (leBytes n v) = v % 256 ^ n := by
  induction n generalizing v with
  | zero => simp [leNat, leBytes, Nat.mod_one]
  | succ n ih =>
    rw [leBytes, leNat, ih, Nat.pow_succ', Nat.mod_mul, BitVec.toNat_ofNat]

@[simp] theorem leBytes_length (n v : Nat) : (leBytes n v).length = n := by
  induction n generalizing v with
  | zero => rfl
  | succ n ih => simp [leBytes, ih]

/-- The bytes of a range are those that its addresses read. -/
theorem Memory.bytes_of_read (m : List Host.Cell) :
    ∀ (k : Nat) (bs : List Byte), (∀ j (h : j < bs.length), Memory.read m (k + j) = bs[j]) → Memory.bytes m k bs.length = bs
  | _, [], _ => rfl
  | k, b :: t, h => by
    rw [List.length_cons, Memory.bytes, Memory.bytes_of_read m (k + 1) t fun j hj => ?_]
    · exact congrArg (· :: t) (h 0 (Nat.succ_pos _))
    · have h1 := h (j + 1) (Nat.succ_lt_succ hj)
      rwa [← Nat.add_assoc, Nat.add_right_comm] at h1

theorem Memory.nat_of_read (m : List Host.Cell) (k n v : Nat)
    (h : ∀ j (hj : j < (leBytes n v).length), Memory.read m (k + j) = (leBytes n v)[j]) : Memory.nat m k n = v % 256 ^ n := by
  have hb := Memory.bytes_of_read m k _ h
  rw [leBytes_length] at hb
  rw [Memory.nat, hb, leNat_leBytes]

/-- Some bytes stand at an address. -/
def Stands (m : List Host.Cell) (k : Nat) (bs : List Byte) : Prop := ∀ j (h : j < bs.length), Memory.read m (k + j) = bs[j]

theorem Stands.left {m : List Host.Cell} {k : Nat} {xs ys : List Byte} (h : Stands m k (xs ++ ys)) : Stands m k xs := fun j hj => by
  rw [h j (by rw [List.length_append]; omega), List.getElem_append_left]

theorem Stands.right {m : List Host.Cell} {k : Nat} {xs ys : List Byte} (h : Stands m k (xs ++ ys)) : Stands m (k + xs.length) ys := fun j hj => by
  rw [Nat.add_assoc, h (xs.length + j) (by rw [List.length_append]; omega), List.getElem_append_right (Nat.le_add_right _ _)]
  simp only [Nat.add_sub_cancel_left]

theorem Stands.nat {m : List Host.Cell} {k n v : Nat} (h : Stands m k (leBytes n v)) : Memory.nat m k n = v % 256 ^ n :=
  Memory.nat_of_read m k n v h

theorem storeLands_of_lands {k n j : Nat} (h : Lands k n) (hj : j < n) : storeLands (k + j) = true := by
  unfold Lands at h
  unfold storeLands
  generalize Config.windowBase = w at *
  rw [Bool.not_eq_true', Bool.and_eq_false_iff, decide_eq_false_iff_not, decide_eq_false_iff_not]
  omega

/-- A store that lands whole leaves its bytes standing. -/
theorem Stands.of_stores (m : List Host.Cell) (k : Nat) (bs : List Byte) (h : Lands k bs.length) : Stands (Memory.stores m k bs) k bs := fun j hj => by
  have hl : ∀ j < bs.length, storeLands (k + j) = true := fun j hj => storeLands_of_lands h hj
  rw [Memory.stores_of_lands m k bs hl, Memory.read_writes_same m k bs j hj]

/-- Bytes stand on where a store elsewhere goes. -/
theorem Stands.stores {m : List Host.Cell} {k : Nat} {bs : List Byte} (h : Stands m k bs) (k' : Nat) (bs' : List Byte)
    (hd : k + bs.length ≤ k' ∨ k' + bs'.length ≤ k) : Stands (Memory.stores m k' bs') k bs := fun j hj => by
  rw [Memory.read_stores_other m k' (k + j) bs' (by omega), h j hj]

/-! ## Writes of events -/

theorem State.squashWhere_mem (s : State) (ci : Option Nat) (p : Crew → Bool) : (s.squashWhere ci p).mem = s.mem := by
  obtain ⟨cs, qs, gs, h⟩ := s.squashWhere_frame ci p
  rw [h]

theorem State.noteUnflushed_mem (s : State) (k : Nat) : (s.noteUnflushed k).mem = s.mem := by
  obtain ⟨cs, d, u, h⟩ := s.noteUnflushed_frame k
  rw [h]

theorem State.noteUnflushed_crews (s : State) (k : Nat) : (s.noteUnflushed k).crews = s.crews := by
  obtain ⟨cs, d, u, h⟩ := s.noteUnflushed_frame k
  rw [h]

theorem State.eventWrite_mem (s : State) (ci : Option Nat) (k : Nat) (bs : List Byte) :
    (s.eventWrite ci k bs).mem = Memory.stores s.mem k bs := by
  have h : (s.eventWrite ci k bs).mem = ((((s.eventSquash ci (eventLocs k bs.length)).pokeBytes k bs).noteUnflushed k).noteUnflushed
    (k + bs.length - 1)).mem := rfl
  rw [h, State.noteUnflushed_mem, State.noteUnflushed_mem, ← s.squashWhere_mem ci (writeMeets (eventLocs k bs.length))]
  rfl

theorem State.eventWrite_crews (s : State) (ci : Option Nat) (k : Nat) (bs : List Byte) :
    (s.eventWrite ci k bs).crews = (s.eventSquash ci (eventLocs k bs.length)).crews := by
  have h : (s.eventWrite ci k bs).crews = ((((s.eventSquash ci (eventLocs k bs.length)).pokeBytes k bs).noteUnflushed k).noteUnflushed
    (k + bs.length - 1)).crews := rfl
  rw [h, State.noteUnflushed_crews, State.noteUnflushed_crews]
  rfl

/-- What a squash of others leaves of a crew: its homes, pending results, expansion, and how many threads it has. -/
def Crew.shape (c : Crew) : List (Nat × Nat) × List Pending × Option Expansion × Nat := (c.homes, c.pend, c.expansion, c.arch.threads.length)

theorem Crew.rejoin_shape (c old : Crew) : (c.rejoin old).shape = c.shape := by
  unfold Crew.rejoin
  split
  · rfl
  · split <;> rfl

theorem Crew.setThread_shape (c : Crew) (l : Nat) (t : Thread) : (c.setThread l t).shape = c.shape := by
  simp [Crew.shape, Crew.setThread]

/-- A thread of a composite bundle runs on in its home crew (R62). -/
def State.threadHome (t : State) (h : Nat × Nat) : State :=
  let old := t.crew h.2
  let th := { old.thread h.1 with st := .active }
  let hc := (old.setThread h.1 th).rejoin old
  t.setCrew h.2 { hc with chunk := { hc.chunk with start := { hc.chunk.start with threads := hc.chunk.start.threads.set h.1 th } } }

theorem State.fallBack_crews (s : State) (k : Nat) :
    ∃ b, (s.fallBack k).crews = (((s.crew k).homes.foldl State.threadHome s).setCrew k b).crews := by
  unfold State.fallBack
  exact ⟨_, rfl⟩

theorem State.threadHome_shape (t : State) (h : Nat × Nat) (j : Nat) : ((t.threadHome h).crew j).shape = (t.crew j).shape := by
  refine State.crew_setCrew_keeps Crew.shape ?_ j
  exact (Crew.rejoin_shape ((t.crew h.2).setThread h.1 { (t.crew h.2).thread h.1 with st := .active }) (t.crew h.2)).trans
    (Crew.setThread_shape _ _ _)

theorem State.fallBack_shape (s : State) (k j : Nat) (h : j ≠ k) : ((s.fallBack k).crew j).shape = (s.crew j).shape := by
  obtain ⟨b, hb⟩ := s.fallBack_crews k
  have hj : (s.fallBack k).crew j = ((s.crew k).homes.foldl State.threadHome s).crew j :=
    (congrArg (fun cs : List Crew => cs.getD j {}) hb).trans (State.crew_setCrew_other _ k j b h)
  rw [hj]
  exact List.foldlRecOn (motive := fun t : State => (t.crew j).shape = (s.crew j).shape) _ _ rfl
    fun t ht h _ => (t.threadHome_shape h j).trans ht

theorem State.squashCrew_shape (s : State) (k j : Nat) (b : Bool) (h : j ≠ k) : ((s.squashCrew k b).crew j).shape = (s.crew j).shape := by
  have hset : ∀ c, ((({ s with grants := s.grants.filter fun g => g.2 != k } : State).setCrew k c).crew j) = s.crew j :=
    fun c => State.crew_setCrew_other _ k j c h
  unfold State.squashCrew
  dsimp only
  split
  · split
    · rw [hset]
    · rw [State.fallBack_shape _ _ _ h, hset]
  · rw [hset]

theorem State.squashWhere_shape (s : State) (j : Nat) (p : Crew → Bool) : ((s.squashWhere (some j) p).crew j).shape = (s.crew j).shape := by
  unfold State.squashWhere
  generalize List.range s.crews.length = ks
  induction ks generalizing s with
  | nil => rfl
  | cons k ks ih =>
    rw [List.foldl_cons, ih]
    split
    · rename_i hk
      refine s.squashCrew_shape k j true fun e => ?_
      simp [← e] at hk
    · rfl

theorem State.eventWrite_shape (s : State) (j k : Nat) (bs : List Byte) : ((s.eventWrite (some j) k bs).crew j).shape = (s.crew j).shape := by
  have h : (s.eventWrite (some j) k bs).crew j = (s.eventSquash (some j) (eventLocs k bs.length)).crew j := by
    rw [State.crew, State.eventWrite_crews]; rfl
  rw [h]
  exact s.squashWhere_shape j _

theorem BodyCrew.of_shape {c b d : Crew} (h : BodyCrew c b) (hs : d.shape = b.shape) : BodyCrew c d := by
  obtain ⟨h1, h2, h3, h4⟩ : d.homes = b.homes ∧ d.pend = b.pend ∧ d.expansion = b.expansion ∧ d.arch.threads.length = b.arch.threads.length := by
    simpa [Crew.shape] using hs
  exact ⟨h1.trans h.homes, h2.trans h.pend, h3.trans h.plain, h4.trans h.threads⟩

/-! ## The records of `svc` (R384, R385) -/

/-- One record of a `svc` goes to its place in the ring. -/
def putSvcRecord (s : State) (ci : Nat) (c : Crew) (r : Ring) (n : Nat) (a : State × Nat) (x : Nat × TWord) : State × Nat :=
  (a.1.eventWrite (some ci) (r.recKey a.2) (svcRecord s c n x.1 a.2 x.2), a.2 + 1)

theorem State.svcEvent_eq (s : State) (ci : Nat) (c : Crew) (r : Ring) (n : Nat) (args : List (Nat × TWord)) :
    s.svcEvent ci c r n args =
      (let t := (args.foldl (putSvcRecord s ci c r n) (s, r.tail)).1.eventWord (some ci) (r.key + 8)
        (BitVec.ofNat 64 (args.foldl (putSvcRecord s ci c r n) (s, r.tail)).2)
      if r.irq.testBit 8 then t.sendMsi (r.irq % 256) else t) := rfl

theorem svcRecord_length (s : State) (c : Crew) (n l k : Nat) (a : TWord) : (svcRecord s c n l k a).length = 64 := by
  simp [svcRecord]

section
variable (s : State) (ci : Nat) (c : Crew) (r : Ring) (n : Nat)

theorem putSvcRecord_fold_snd (args : List (Nat × TWord)) (t : State) (k : Nat) :
    (args.foldl (putSvcRecord s ci c r n) (t, k)).2 = k + args.length := by
  induction args generalizing t k with
  | nil => rfl
  | cons x xs ih => rw [List.foldl_cons, putSvcRecord, ih, List.length_cons]; omega

theorem putSvcRecord_fold_shape (args : List (Nat × TWord)) (t : State) (k : Nat) :
    ((args.foldl (putSvcRecord s ci c r n) (t, k)).1.crew ci).shape = (t.crew ci).shape := by
  induction args generalizing t k with
  | nil => rfl
  | cons x xs ih => rw [List.foldl_cons, putSvcRecord, ih, State.eventWrite_shape]

/-- The records leave every byte outside their places. -/
theorem putSvcRecord_fold_read (args : List (Nat × TWord)) (t : State) (k a : Nat)
    (h : ∀ j < args.length, a < r.recKey (k + j) ∨ r.recKey (k + j) + 64 ≤ a) :
    Memory.read (args.foldl (putSvcRecord s ci c r n) (t, k)).1.mem a = Memory.read t.mem a := by
  induction args generalizing t k with
  | nil => rfl
  | cons x xs ih =>
    rw [List.foldl_cons, putSvcRecord, ih _ _ fun j hj => ?_, State.eventWrite_mem, Memory.read_stores_other]
    · rw [svcRecord_length]; exact h 0 (Nat.succ_pos _)
    · have h1 := h (j + 1) (Nat.succ_lt_succ hj)
      rwa [← Nat.add_assoc, Nat.add_right_comm] at h1

/-- Each record stands in its place, where the places are apart. -/
theorem putSvcRecord_fold_stands (args : List (Nat × TWord)) (t : State) (k : Nat)
    (hl : ∀ j < args.length, Lands (r.recKey (k + j)) 64)
    (hd : ∀ i j, i < j → j < args.length → r.recKey (k + i) + 64 ≤ r.recKey (k + j) ∨ r.recKey (k + j) + 64 ≤ r.recKey (k + i)) :
    ∀ j (hj : j < args.length), Stands (args.foldl (putSvcRecord s ci c r n) (t, k)).1.mem (r.recKey (k + j))
      (svcRecord s c n args[j].1 (k + j) args[j].2) := by
  induction args generalizing t k with
  | nil => exact fun j hj => absurd hj (Nat.not_lt_zero j)
  | cons x xs ih =>
    have hshift : ∀ j, k + 1 + j = k + (j + 1) := fun j => by omega
    intro j hj
    rw [List.foldl_cons, putSvcRecord]
    cases j with
    | zero =>
      intro b hb
      have hlen : b < 64 := by rwa [svcRecord_length] at hb
      rw [putSvcRecord_fold_read s ci c r n xs _ _ _ fun j hj => ?_, State.eventWrite_mem]
      · exact Stands.of_stores _ _ _ (by rw [svcRecord_length]; exact hl 0 (Nat.succ_pos _)) b hb
      · have h1 := hd 0 (j + 1) (Nat.succ_pos j) (Nat.succ_lt_succ hj)
        rw [hshift]
        omega
    | succ j =>
      have h1 := ih (t.eventWrite (some ci) (r.recKey k) (svcRecord s c n x.1 k x.2)) (k + 1)
        (fun j hj => hshift j ▸ hl (j + 1) (Nat.succ_lt_succ hj))
        (fun i j hij hj => by
          rw [hshift, hshift]
          exact hd (i + 1) (j + 1) (Nat.succ_lt_succ hij) (Nat.succ_lt_succ hj))
        j (Nat.lt_of_succ_lt_succ hj)
      rw [hshift] at h1
      exact h1

end

/-- Records of a ring that has room for them have places of their own. -/
theorem Ring.recKey_apart (r : Ring) (k i j n : Nat) (hij : i < j) (hj : j < n) (hn : n ≤ r.cap) :
    r.recKey (k + i) + 64 ≤ r.recKey (k + j) ∨ r.recKey (k + j) + 64 ≤ r.recKey (k + i) := by
  have hne : (k + i) % r.cap ≠ (k + j) % r.cap := fun e => by
    have h0 : (k + j - (k + i)) % r.cap = 0 := Nat.sub_mod_eq_zero_of_mod_eq e.symm
    rw [Nat.mod_eq_of_lt (by omega)] at h0
    omega
  unfold Ring.recKey
  omega

theorem Ring.recKey_lt (r : Ring) (k : Nat) (h : 0 < r.cap) : r.recKey k + 64 ≤ r.key + (64 + 64 * r.cap) := by
  have := Nat.mod_lt k h
  unfold Ring.recKey
  omega

theorem Ring.le_recKey (r : Ring) (k : Nat) : r.key + 64 ≤ r.recKey k := by
  unfold Ring.recKey; omega

theorem Tag.toNat_lt (t : Tag) : t.toNat < 2 ^ 8 := by
  cases t <;> decide

/-- The words of a record that stands (R385). -/
theorem serviceRecord_of_stands {t : State} {k at' n l : Nat} {s : State} {c : Crew} {a : TWord}
    (h : Stands t.mem at' (svcRecord s c n l k a)) (hn : n < 2 ^ 16) (hl : l < 2 ^ 8) (hid : c.crewId < 2 ^ 8)
    (ha : s.asidOf c < 2 ^ 16) (hcore : c.core < 2 ^ 8) (hquad : c.quad < 4) :
    ServiceRecord t at' n l k a c (s.asidOf c) (s.teamOf c).linear := by
  have htag := Tag.toNat_lt a.tag
  have hpay := a.payload.isLt
  have hlin := Nat.mod_lt (s.teamOf c).linear (show 0 < 2 ^ 32 by decide)
  unfold svcRecord at h
  have hz := h.right
  have h3 := h.left.right.nat
  have h2 := h.left.left.right.nat
  have h1 := h.left.left.left.right.nat
  have h0 := h.left.left.left.left.nat
  simp only [List.length_append, leBytes_length, Nat.reduceAdd] at h1 h2 h3 hz
  refine ⟨h0.trans (Nat.mod_eq_of_lt ?_), h1.trans (Nat.mod_eq_of_lt ?_), h2.trans (Nat.mod_eq_of_lt ?_), h3, fun j h1 h2 => ?_⟩
  · omega
  · omega
  · omega
  · have := hz (j - 32) (by rw [List.length_replicate]; omega)
    rw [List.getElem_replicate, show at' + 32 + (j - 32) = at' + j by omega] at this
    exact this

/-! ## The event of `svc` (R384-R386) -/

section
variable (s : State) (ci : Nat) (c : Crew) (r : Ring) (n : Nat) (args : List (Nat × TWord))

theorem State.svcEvent_mem : (s.svcEvent ci c r n args).mem = Memory.stores (args.foldl (putSvcRecord s ci c r n) (s, r.tail)).1.mem
    (r.key + 8) (leBytes 8 (BitVec.ofNat 64 (r.tail + args.length)).toNat) := by
  rw [State.svcEvent_eq, putSvcRecord_fold_snd]
  dsimp only
  split <;> exact State.eventWrite_mem _ _ _ _

theorem State.svcEvent_shape : ((s.svcEvent ci c r n args).crew ci).shape = (s.crew ci).shape := by
  rw [State.svcEvent_eq]
  dsimp only
  have h := (State.eventWrite_shape (args.foldl (putSvcRecord s ci c r n) (s, r.tail)).1 ci (r.key + 8)
    (leBytes 8 (BitVec.ofNat 64 (args.foldl (putSvcRecord s ci c r n) (s, r.tail)).2).toNat)).trans
      (putSvcRecord_fold_shape s ci c r n args s r.tail)
  split <;> exact h

/-- TAIL has moved on past the records. -/
theorem State.svcEvent_tail (hl : Lands (r.key + 8) 8) :
    Memory.nat (s.svcEvent ci c r n args).mem (r.key + 8) 8 = (r.tail + args.length) % 2 ^ 64 := by
  rw [State.svcEvent_mem, (Stands.of_stores _ _ _ (by rwa [leBytes_length])).nat, BitVec.toNat_ofNat]
  exact Nat.mod_mod _ _

theorem State.svcEvent_stands (hcap : args.length ≤ r.cap) (hl : Lands r.key (64 + 64 * r.cap)) (j : Nat) (hj : j < args.length) :
    Stands (s.svcEvent ci c r n args).mem (r.recKey (r.tail + j)) (svcRecord s c n args[j].1 (r.tail + j) args[j].2) := by
  have hin := fun i => r.recKey_lt i (by omega)
  rw [State.svcEvent_mem]
  refine (putSvcRecord_fold_stands s ci c r n args s r.tail (fun i _ => ?_)
    (fun i j hij hj => r.recKey_apart _ _ _ _ hij hj hcap) j hj).stores _ _ (.inr ?_)
  · have h1 := hin (r.tail + i)
    have h2 := r.le_recKey (r.tail + i)
    unfold Lands at hl ⊢
    generalize Config.windowBase = w at *
    omega
  · have h2 := r.le_recKey (r.tail + j)
    rw [leBytes_length]
    omega

/-- Every byte outside the records and TAIL is as before. -/
theorem State.svcEvent_read (a : Nat) (ht : a < r.key + 8 ∨ r.key + 16 ≤ a)
    (hr : ∀ j < args.length, a < r.recKey (r.tail + j) ∨ r.recKey (r.tail + j) + 64 ≤ a) :
    Memory.read (s.svcEvent ci c r n args).mem a = Memory.read s.mem a := by
  rw [State.svcEvent_mem, Memory.read_stores_other, putSvcRecord_fold_read s ci c r n args s r.tail a hr]
  rw [leBytes_length]
  omega

end

theorem State.coveredReplies_shape (s : State) (c : Crew) : (s.coveredReplies c).shape = c.shape := by
  unfold State.coveredReplies
  split <;> rfl

section
variable {n : BitVec 16} {lk : BitVec 4} {o : IOps} {s : State} {ci : Nat} {c : Crew} {lanes : List Nat} {r : Ring}

/-- `svc` where the ring has room. -/
theorem svc_performs (h : Issues s (.svc n lk o) ci c lanes) (hr : s.ringAt c.core (s.asidOf c) c.svcq.toNat = some r)
    (hroom : r.room (execLanes (.svc n lk o) c lanes).length = true) :
    let exe := execLanes (.svc n lk o) c lanes
    let s' := (s.setCrew ci c).svcEvent ci c r n.toNat (exe.map fun l => (l, s.opnd (.svc n lk o) c l 1))
    Performs (.svc n lk o) s s' ci c (s'.coveredReplies { s'.crew ci with
      svcLeft := some (lk.toNat, svcWake c.svcq.toNat r (s.destOf (.svc n lk o) c (exe.headD 0)) exe), replies := [] }) lanes fun _ => {} := by
  intro exe s'
  refine performs_of_body (body := svcBody n lk o) h rfl rfl ((BodyCrew.self h).of_shape ?_) _ ?_
  · have hc : (s.setCrew ci c).crew ci = c := State.crew_setCrew_same s ci c h.crew_lt
    exact (State.coveredReplies_shape _ _).trans ((State.svcEvent_shape _ _ _ _ _ _).trans (congrArg Crew.shape hc))
  · unfold svcBody
    dsimp only
    rw [hr]
    dsimp only
    rw [if_pos hroom]
    rfl

/-- `svc` where it has none: the crew is saved. -/
theorem svc_without_room (h : Issues s (.svc n lk o) ci c lanes) (hr : s.ringAt c.core (s.asidOf c) c.svcq.toNat = some r)
    (hroom : ¬r.room (execLanes (.svc n lk o) c lanes).length = true) :
    exec (.svc n lk o) s = .next ((s.setCrew ci { c with wake := some .svcEvent }).saveCrew ci) := by
  have he : ({ c with wake := some .svcEvent, expansion := none } : Crew) = { c with wake := some .svcEvent } := by rw [← h.plain]
  have hbody : svcBody n lk o s ci c (execLanes (.svc n lk o) c lanes) =
      .done ((s.setCrew ci { c with wake := some .svcEvent }).saveCrew ci) := by
    unfold svcBody
    dsimp only
    rw [hr]
    dsimp only
    rw [if_neg hroom, he]
  rw [show exec (.svc n lk o) s = issue (.svc n lk o) (svcBody n lk o) s from rfl, issue_body _ h, hbody]

end

/-- Settles O31, record by record of the ring. -/
theorem serviceCalls : Obligations.ServiceCalls := by
  unfold Obligations.ServiceCalls
  intro n lk o s ci c lanes r h hr i exe
  split
  · rename_i hroom
    refine ⟨svc_performs h hr hroom, fun hl hid ha hcore hquad => ?_⟩
    have hlen : (exe.map fun l => (l, s.opnd i c l 1)).length = exe.length := List.length_map _
    have hcap : exe.length ≤ r.cap := by
      have := of_decide_eq_true hroom
      omega
    refine ⟨?_, fun j hj => ?_, fun a ht hrec => ?_⟩
    · rw [← hlen]
      refine State.svcEvent_tail _ _ _ _ _ _ ?_
      unfold Lands at hl ⊢
      generalize Config.windowBase = w at *
      omega
    · have hs := State.svcEvent_stands (s.setCrew ci c) ci c r n.toNat _ (hlen ▸ hcap) hl j (hlen ▸ hj)
      rw [List.getElem_map] at hs
      have hlane : exe[j] = exe.getD j 0 := by simp [List.getD_eq_getElem?_getD, List.getElem?_eq_getElem hj]
      rw [hlane] at hs
      have h32 := h.lanes_sorted.2 (exe.getD j 0) ((execLanes_sub i c lanes).subset (hlane ▸ List.getElem_mem hj))
      exact serviceRecord_of_stands hs n.isLt (by omega) hid ha hcore hquad
    · refine State.svcEvent_read _ _ _ _ _ _ a ht fun j hj => ?_
      rcases hrec j (hlen ▸ hj) with h1 | h1
      · exact .inl h1
      · exact .inr (by unfold Ring.recKey; omega)
  · rename_i hroom
    exact svc_without_room h hr hroom

end Sys2Proof.Machine
end

section
/-! SUPPORT. Matrix instructions (R59, R277): a state that refutes `Obligations.MatrixInstructions` (O25). -/

namespace Sys2Proof.Machine

open Sys2Proof Sys2Proof.Claims

/-! ## A match at which a partner's fault squashes the crew that completes the four -/

/-- `accz` of the tile in s0. -/
def zeroTile : Instr := .accz { f1 := 224 }

/-- A tile of one element in quadrant 0. -/
def tileInS0 : List (Nat × TWord) := [(0, ⟨.tile, 0x1000010000800000⟩)]

def activeArch : Arch := { threads := List.replicate 32 { st := .active } }

/-- A chunk that holds an arbiter and has read the first line of the fault ring; its start has no threads. -/
def ringReader : Chunk :=
  { start := { threads := [], sregs := tileInS0 }, arbs := [arbiterOf Config.windowBase], rsig := sigBits (locNumber Config.windowBase 0) }

/-- The crew that completes the four. -/
def fourthCrew : Crew := { alloc := 224, arch := { activeArch with sregs := tileInS0 }, chunk := ringReader }

/-- Its four: the partners stand at the same instruction with no tile in s0, the first of them with a handler table that is not mapped. -/
def faultingFour : State :=
  { focus := some 0
    crews := [fourthCrew, { crewId := 1, quad := 1, arch := activeArch, mreq := some zeroTile, htab := 8 },
      { crewId := 2, quad := 2, arch := activeArch, mreq := some zeroTile }, { crewId := 3, quad := 3, arch := activeArch, mreq := some zeroTile }]
    teams := [{ place := .resident }]
    grids := [{ four := true, regs := 224, crews := 4 }]
    bar0 := [(0x18, 0x400000000)] }

theorem faultingFour_issues : Issues faultingFour zeroTile 0 fourthCrew (List.range 32) where
  stand := by decide +kernel
  own := rfl
  pend := rfl
  svc := rfl
  plain := rfl
  event := by decide
  collective := by decide +kernel
  legal := by decide +kernel
  someLane := by decide

/-- What the instruction does once the four has matched. -/
def zeroedTile : Option MatrixOut := (matched zeroTile faultingFour 0 fourthCrew).bind fun m => matrixEffect zeroTile m.1 0 m.2

/-- The crew with its instruction done, as O25 names it. -/
def pastMatrix (c : Crew) : Crew := { c with arch := { c.arch with matrixNo := c.arch.matrixNo + 1 }, mreq := none }

/-- It is done, and lane 0 would go on at the next instruction. -/
theorem zeroedTile_next : zeroedTile.map (fun x => (x.state.crews.length,
    ((pastMatrix x.crew).nextThread zeroTile ((pastMatrix x.crew).thread 0) (x.res 0).go).pc)) = some (4, 16) := by decide +kernel

/-- The state after an event holds the crew that performed it. -/
theorem State.crew_afterEvent (s : State) (ci core asid : Nat) (c : Crew) (pages : List (Nat × Nat)) (h : ci < s.crews.length) :
    (((s.noteEvent c).setCrew ci c.freshChunk).fillTlb core asid pages).crew ci = c.freshChunk := by
  obtain ⟨t, ht⟩ := ((s.noteEvent c).setCrew ci c.freshChunk).fillTlb_frame core asid pages
  rw [ht]
  exact State.crew_setCrew_same (s.noteEvent c) ci _ h

/-- The chunk's start has no thread that could go on. -/
theorem faultingFour_stays : (match exec zeroTile faultingFour with
    | .next t => ((t.crew 0).thread 0).pc
    | _ => 1) = 0 := by decide +kernel

/-- Refutes O25: where a partner's trap faults at the match, its fault record squashes a chunk that has read the ring, and that of the crew
which completes the four too, where it holds an arbiter; the crew then has the threads of its chunk's start, and where these are none, no
thread goes on to the next instruction. -/
theorem not_matrixInstructions : ¬ Obligations.MatrixInstructions := by
  rintro ⟨heffect, -⟩
  obtain ⟨x, hx, hnext⟩ := Option.map_eq_some_iff.mp zeroedTile_next
  have hlen : 0 < x.state.crews.length := by rw [show x.state.crews.length = 4 from congrArg (fun p => p.1) hnext]; decide
  have hpc := congrArg (fun p => p.2) hnext
  obtain ⟨⟨s1, c1⟩, hmatched, hout⟩ := Option.bind_eq_some_iff.mp hx
  have hperf := (if_pos (show zeroTile.cls = .irrevocable by decide)).mp (heffect zeroTile faultingFour 0 fourthCrew (List.range 32) s1 c1 x
    faultingFour_issues (fun h => nomatch h) (fun h => nomatch h) hmatched hout)
  obtain ⟨c', heff, hexec⟩ := hperf
  have hgoes : (c'.thread 0).pc = 16 := by
    rw [heff.threads 0, if_pos (by decide), if_pos (by decide)]
    exact hpc
  have hstays := faultingFour_stays
  rw [hexec] at hstays
  dsimp only at hstays
  rw [State.crew_afterEvent _ _ _ _ _ _ (by exact hlen)] at hstays
  have hzero : (c'.thread 0).pc = 0 := hstays
  exact absurd (hgoes.symm.trans hzero) (by decide)

end Sys2Proof.Machine
end

section
/-! SUPPORT. MIGRATE (R394, R400): a state that refutes `Obligations.ContextsAndTranslations` (O53). -/

namespace Sys2Proof.Machine

open Sys2Proof Sys2Proof.Claims

/-! ## A move whose parked atomic uses the page again -/

/-- `atom` of the word at the address in v1. -/
def parkedAtom : Instr := .atom .add .i64 { d := 2, base := 1, idx := 3 }

/-- One lane that adds 1 to a word of the page. -/
def parkedArch : Arch :=
  { threads := { st := .active } :: List.replicate 31 {}, vregs := [(32, ⟨.int, 0x2000100⟩), (96, ⟨.int, 1⟩)] }

/-- A context whose tables, at 0 and 0x10000, map its first 1 GiB to 1 GiB; the home of the page has parked the crew's atomic, and MPA
names the place at 2 GiB. -/
def movingState : State :=
  { mem := [(0, 1), (2, 1), (0x10000, 15), (0x10003, 0x40)]
    crews := [{ alloc := 224, arch := parkedArch, chunk := { start := parkedArch }, wake := some .parked }]
    ctxs := [{ slot := 0, state := .live }]
    parked := [⟨0, .atomic 0 0x42000100 parkedAtom⟩]
    bar0 := [(0x50, 0x80000000)]
    boot := { phase := .ready } }

def movingPage : Page := ⟨0, 0x40000000, 0x4000000F⟩

theorem movingState_walk : movingState.walkNow 0 0 false false false = .ok movingPage := by decide +kernel

/-- The atomic has been performed in the page's new place, and its crew's core caches the new translation. -/
theorem movingState_caches : (match exec (.migrate 0) movingState with
    | .next t => t.tlb.any fun e => e.asid == 0 && decide (e.base < 0x40000000) && decide (0 < e.base + e.size)
    | _ => false) = true := by decide +kernel

/-- Refutes O53: after MIGRATE no translation of the page is said to be cached, whatever was parked for it. A parked atomic is performed
in the new place in the same step (R400), and its crew's core then caches the page's new translation. -/
theorem not_contextsAndTranslations : ¬ Obligations.ContextsAndTranslations := by
  rintro ⟨-, -, hmigrate⟩
  obtain ⟨t, hexec, -, -, -, hmoves⟩ := hmigrate 0 movingState
  obtain ⟨-, -, hmoved⟩ := hmoves { slot := 0, state := .live } movingPage rfl (by decide) rfl rfl movingState_walk (by
    rintro ⟨l, hl, -⟩; cases hl)
  rw [if_neg (by decide +kernel)] at hmoved
  obtain ⟨hdropped, -⟩ := hmoved (by decide) (by decide) (by decide +kernel) (by decide +kernel) (by decide +kernel) (by decide +kernel) (by decide)
    (by decide)
  have hcaches := movingState_caches
  rw [hexec] at hcaches
  obtain ⟨e, he, hhit⟩ := List.any_eq_true.mp hcaches
  simp only [Bool.and_eq_true, beq_iff_eq, decide_eq_true_eq] at hhit
  obtain ⟨⟨hasid, hlow⟩, hhigh⟩ := hhit
  exact hdropped e he ⟨hasid, hlow, hhigh⟩

end Sys2Proof.Machine
end

section
/-! SUPPORT. Crews that come back (R51, R407): a state that refutes `Obligations.CrewsLeaveAndReturn` (O48). -/

namespace Sys2Proof.Machine

open Sys2Proof Sys2Proof.Claims

/-! ## The slot of a crew that comes back -/

/-- One crew, saved, whose team is resident and whose wake condition holds. -/
def savedCrew : Crew := { alloc := 24, place := .saved }

def savedState : State := { crews := [savedCrew], teams := [{ place := .resident }] }

theorem savedState_due : savedState.restoreDue 0 = true := by decide

/-- It comes back to slot 0 of quadrant 0. -/
theorem savedState_slot : (match exec (.crewRestore 0) savedState with
    | .next t => t.crews.map fun c => (c.place, c.quadNo, c.slot)
    | _ => []) = [(.resident, 0, 0)] := by decide

/-- Refutes O48: the statement asks every number but the crew's own for another slot, and a number past the list of crews reads as a
resident crew in slot 0 of quadrant 0, so that no crew could come back to that slot, the lowest that is free. -/
theorem not_crewsLeaveAndReturn : ¬ Obligations.CrewsLeaveAndReturn := by
  rintro ⟨-, hrestore⟩
  obtain ⟨t, hexec, -, hreturns⟩ := hrestore 0 savedState
  obtain ⟨-, -, -, -, -, hslots, -⟩ := hreturns savedState_due (by decide) (by decide) (by
    intro core q hqueue
    obtain ⟨ls, d, hw⟩ | ⟨is, hw⟩ := hqueue
    all_goals cases hw)
  have hslot := savedState_slot
  rw [hexec] at hslot
  obtain ⟨c, hc, hback⟩ := List.map_eq_singleton_iff.mp hslot
  simp only [State.crew, hc] at hslots
  have hquad : c.quadNo = 0 := congrArg (fun x => x.2.1) hback
  have hzero : c.slot = 0 := congrArg (fun x => x.2.2) hback
  exact hslots 1 (by decide) rfl hquad.symm hzero.symm

end Sys2Proof.Machine
end

section
/-! SUPPORT. The quantum and placement (R50, R52, R376, R381, R382, R403): `Obligations.QuantaAndPlacement` (O49). -/

namespace Sys2Proof.Machine

open Sys2Proof Sys2Proof.Claims

/-! ## Storage of a team that enters (R108, R131) -/

/-- What a team's empty storage reaches: memory, tags, presence bits, the caches and the quadrants' arrays. -/
def State.Stored (s t : State) : Prop :=
  ∃ m tg ab cs d u qs, t = { s with mem := m, tags := tg, absent := ab, copies := cs, dram := d, unflushed := u, quads := qs }

theorem State.Stored.refl (s : State) : s.Stored s := ⟨_, _, _, _, _, _, _, rfl⟩

theorem State.Stored.trans {s t u : State} (h : s.Stored t) (h' : t.Stored u) : s.Stored u := by
  obtain ⟨_, _, _, _, _, _, _, rfl⟩ := h
  obtain ⟨m, tg, ab, cs, d, u, qs, rfl⟩ := h'
  exact ⟨m, tg, ab, cs, d, u, qs, rfl⟩

theorem State.clearScratch_stored (s : State) (k n : Nat) : s.Stored (s.clearScratch k n) := ⟨_, _, _, _, _, _, _, rfl⟩

theorem State.setQuad_stored (s : State) (q : Nat) (x : Quad) : s.Stored (s.setQuad q x) := ⟨_, _, _, _, _, _, _, rfl⟩

theorem State.pokeBytes_stored (s : State) (k : Nat) (bs : List Byte) : s.Stored (s.pokeBytes k bs) := ⟨_, _, _, _, _, _, _, rfl⟩

theorem State.pokeWords_stored (s : State) (k : Nat) (ws : List TWord) : s.Stored (s.pokeWords k ws) := by
  obtain ⟨m, tg, cs, d, u, h⟩ := s.pokeWords_frame k ws
  exact ⟨m, tg, s.absent, cs, d, u, s.quads, h⟩

/-- A fold of steps that reach storage alone reaches storage alone. -/
theorem State.Stored.foldl {β : Type} (f : State → β → State) (hf : ∀ (t : State) (x : β), t.Stored (f t x)) (xs : List β) (s : State) :
    s.Stored (xs.foldl f s) :=
  List.foldlRecOn (motive := fun u : State => s.Stored u) xs f (.refl s) fun u hu x _ => hu.trans (hf u x)

theorem State.queueHeaders_stored (s : State) (t : Team) (g : Grid) : s.Stored (s.queueHeaders t g) := by
  refine State.Stored.foldl _ (fun u b => ?_) _ s
  split
  · exact State.Stored.foldl _ (fun v k => v.pokeWords_stored _ _) _ u
  · dsimp only
    split
    · exact u.pokeWords_stored _ _
    · exact .refl u

theorem State.freshStorage_stored (s : State) (t : Team) : s.Stored (s.freshStorage t) := by
  have hclear : s.Stored (t.cores.foldl (fun u k => u.clearScratch (t.scratch k 0) (s.grid t.grid).windowBytes) s) :=
    State.Stored.foldl _ (fun u k => u.clearScratch_stored _ _) _ s
  unfold State.freshStorage
  dsimp only
  refine State.Stored.trans ?_ (State.queueHeaders_stored _ _ _)
  split
  · refine hclear.trans (State.Stored.foldl _ (fun u q => ?_) _ _)
    exact (u.clearScratch_stored _ _).trans (State.setQuad_stored _ _ _)
  · exact hclear

/-! ## What placement and pre-emption leave of the clocks (R382, R403) -/

/-- The fields of a context that its watchdog reads and writes, and by which it is known. -/
def Ctx.watchdog (x : Ctx) : Nat × Nat × CtxState × Nat × Bool := (x.slot, x.asid, x.state, x.wdcount, x.progress)

/-- Quanta, registers and watchdogs stay. -/
structure SameClocks (s t : State) : Prop where
  quanta : t.quantumAt = s.quantumAt
  bars : t.bar0 = s.bar0
  watchdogs : (s.ctxs.map Ctx.slot).Nodup → t.ctxs.map Ctx.watchdog = s.ctxs.map Ctx.watchdog

theorem SameClocks.refl (s : State) : SameClocks s s := ⟨rfl, rfl, fun _ => rfl⟩

theorem SameClocks.of_eq {s t u : State} (h : SameClocks s t) (quanta : u.quantumAt = t.quantumAt) (bars : u.bar0 = t.bar0)
    (ctxs : u.ctxs = t.ctxs) : SameClocks s u :=
  ⟨quanta.trans h.quanta, bars.trans h.bars, fun hn => by rw [ctxs, h.watchdogs hn]⟩

theorem SameClocks.slots {s t : State} (h : SameClocks s t) (hn : (s.ctxs.map Ctx.slot).Nodup) : t.ctxs.map Ctx.slot = s.ctxs.map Ctx.slot := by
  have hw := congrArg (List.map fun x => x.1) (h.watchdogs hn)
  simpa [List.map_map, Function.comp_def, Ctx.watchdog] using hw

theorem SameClocks.trans {s t u : State} (h : SameClocks s t) (h' : SameClocks t u) : SameClocks s u :=
  ⟨h'.quanta.trans h.quanta, h'.bars.trans h.bars, fun hn => (h'.watchdogs (h.slots hn ▸ hn)).trans (h.watchdogs hn)⟩

theorem SameClocks.stored {s t u : State} (h : SameClocks s t) (h' : t.Stored u) : SameClocks s u := by
  obtain ⟨m, tg, ab, cs, d, x, qs, rfl⟩ := h'
  exact h.of_eq rfl rfl rfl

/-- A fold of steps that keep the clocks keeps them. -/
theorem SameClocks.foldl {β : Type} (f : State → β → State) (hf : ∀ (t : State) (x : β), SameClocks t (f t x)) (xs : List β) (s : State) :
    SameClocks s (xs.foldl f s) :=
  List.foldlRecOn (motive := fun u : State => SameClocks s u) xs f (.refl s) fun u hu x _ => hu.trans (hf u x)

theorem State.setCrew_clocks (s : State) (k : Nat) (c : Crew) : SameClocks s (s.setCrew k c) := (SameClocks.refl s).of_eq rfl rfl rfl

theorem State.setTeam_clocks (s : State) (k : Nat) (x : Team) : SameClocks s (s.setTeam k x) := (SameClocks.refl s).of_eq rfl rfl rfl

theorem State.setQuad_clocks (s : State) (q : Nat) (x : Quad) : SameClocks s (s.setQuad q x) := (SameClocks.refl s).of_eq rfl rfl rfl

/-- Room given back in the save area changes neither a context's watchdog nor its name. -/
theorem State.giveSave_clocks (s : State) (asid bytes : Nat) : SameClocks s (s.giveSave asid bytes) := by
  unfold State.giveSave
  split
  · exact .refl s
  · rename_i x hx
    refine ⟨rfl, rfl, fun hn => ?_⟩
    have hmem : x ∈ s.ctxs := List.mem_of_find?_eq_some hx
    simp only [State.setCtx, List.map_map]
    refine List.map_congr_left fun y hy => ?_
    simp only [Function.comp]
    split
    · rename_i hslot
      obtain rfl := List.inj_on_of_nodup_map hn hy hmem hslot
      rfl
    · rfl

theorem State.rewriteRecord_clocks (s : State) (k : Nat) : SameClocks s (s.rewriteRecord k) := by
  obtain ⟨m, tg, cs, d, u, h⟩ := s.rewriteRecord_frame k
  rw [h]
  exact (SameClocks.refl s).of_eq rfl rfl rfl

theorem State.squashCrew_clocks (s : State) (k : Nat) (b : Bool) : SameClocks s (s.squashCrew k b) := by
  obtain ⟨cs, qs, gs, h⟩ := s.squashCrew_frame k b
  rw [h]
  exact (SameClocks.refl s).of_eq rfl rfl rfl

/-! ### Pre-emption -/

theorem State.requestPreempt_clocks (s : State) (k : Nat) : SameClocks s (s.requestPreempt k) := by
  unfold State.requestPreempt
  dsimp only
  split
  · exact .refl s
  split
  · exact s.squashCrew_clocks k false
  have hset := s.setCrew_clocks k { s.crew k with preempt := true }
  split
  · exact hset
  split
  · exact hset.trans (State.squashCrew_clocks _ _ _)
  · exact hset.trans (State.squashCrew_clocks _ _ _)
  · split
    · exact hset.trans (State.setCrew_clocks _ _ _)
    · exact hset

theorem State.ungroup_clocks (s : State) (team : Nat) : SameClocks s (s.ungroup team) := by
  refine SameClocks.foldl _ (fun u q => ?_) _ s
  dsimp only
  refine SameClocks.trans ?_ (State.setQuad_clocks _ _ _)
  refine SameClocks.foldl _ (fun v e => ?_) _ u
  exact SameClocks.foldl _ (fun x w => x.setCrew_clocks _ _) _ v

theorem State.preemptGang_clocks (s : State) (grid gang : Nat) : SameClocks s (s.preemptGang grid gang) := by
  unfold State.preemptGang
  dsimp only
  refine SameClocks.trans ?_ (SameClocks.foldl _ (fun u k => u.requestPreempt_clocks k) _ _)
  refine SameClocks.trans ?_ (SameClocks.foldl _ (fun u k => u.ungroup_clocks k) _ _)
  refine SameClocks.trans ?_ (SameClocks.foldl _ (fun u k => u.requestPreempt_clocks k) _ _)
  exact SameClocks.foldl _ (fun u k => u.setTeam_clocks _ _) _ s

theorem State.preemptUntil_clocks (s : State) (die p : Nat) (fits : State → Bool) (may : Resident → Bool) :
    SameClocks s (s.preemptUntil die p fits may) :=
  SameClocks.foldl _ (fun u _ => u.preemptGang_clocks _ _) _ s

/-! ### Placement -/

theorem State.addCrew_clocks (s : State) (c : Crew) : SameClocks s (s.addCrew c) := (SameClocks.refl s).of_eq rfl rfl rfl

theorem State.enterTeam_clocks (s : State) (gi linear : Nat) (cores : List Nat) (w p : Nat) : SameClocks s (s.enterTeam gi linear cores w p) := by
  unfold State.enterTeam
  dsimp only
  refine SameClocks.trans ?_ (SameClocks.foldl (fun u c => u.addCrew (freshCrew _ _ _ c)) (fun u c => u.addCrew_clocks _) _ _)
  refine SameClocks.stored ?_ (State.freshStorage_stored _ _)
  exact (SameClocks.refl s).of_eq rfl rfl rfl

/-- Folds over a state and the key behind what has been read keep the clocks where each step does. -/
theorem SameClocks.foldl_fst {β γ : Type} (f : State × γ → β → State × γ) (hf : ∀ (a : State × γ) (x : β), SameClocks a.1 (f a x).1)
    (xs : List β) (a : State × γ) : SameClocks a.1 (xs.foldl f a).1 :=
  List.foldlRecOn (motive := fun b : State × γ => SameClocks a.1 b.1) xs f (.refl a.1) fun b hb x _ => hb.trans (hf b x)

theorem State.loadSection_clocks (s : State) (ti j k : Nat) : SameClocks s (s.loadSection ti j k).1 := by
  unfold State.loadSection
  dsimp only
  have hwindow : ∀ (u : State) (ab : List Nat), s.Stored u → SameClocks s { u with absent := ab } := fun u ab h =>
    ((SameClocks.refl s).stored h).of_eq rfl rfl rfl
  have hwords := (s.clearScratch_stored ((s.team ti).scratch ((s.team ti).cores.getD j 0) 0) (s.grid (s.team ti).grid).windowBytes).trans
    (State.pokeWords_stored _ ((s.team ti).scratch ((s.team ti).cores.getD j 0) 0) (s.peekWords k ((s.grid (s.team ti).grid).windowBytes / 8)))
  split
  · refine SameClocks.trans (hwindow _ _ hwords) (SameClocks.foldl_fst _ (fun a q => ?_) _ (_, _))
    exact SameClocks.foldl_fst _ (fun b r => State.setQuad_clocks _ _ _) _ a
  · refine SameClocks.trans (SameClocks.trans (hwindow _ _ hwords) (SameClocks.foldl_fst _ (fun a q => ?_) _ (_, _)))
      (SameClocks.foldl_fst _ (fun a q => ?_) _ _)
    · exact SameClocks.foldl_fst _ (fun b r => State.setQuad_clocks _ _ _) _ a
    · exact (State.setQuad_clocks _ _ _).stored (State.pokeBytes_stored _ _ _)

theorem State.restoreTeam_clocks (s : State) (ti : Nat) (cores : List Nat) (w p : Nat) : SameClocks s (s.restoreTeam ti cores w p) := by
  unfold State.restoreTeam
  dsimp only
  split
  · have hrecords : ∀ (u : State) (ks : List Nat), SameClocks s u → SameClocks s (ks.foldl State.rewriteRecord u) := fun u ks h =>
      h.trans (SameClocks.foldl _ (fun v k => v.rewriteRecord_clocks k) ks u)
    split
    · refine SameClocks.trans ?_ (State.giveSave_clocks _ _ _)
      refine SameClocks.trans ?_ (State.setTeam_clocks _ _ _)
      refine SameClocks.trans ?_ (SameClocks.foldl _ (fun v k => State.setCrew_clocks _ _ _) _ _)
      refine SameClocks.stored ?_ (State.freshStorage_stored _ _)
      exact hrecords _ _ ((SameClocks.refl s).of_eq rfl rfl rfl)
    · refine SameClocks.trans ?_ (State.giveSave_clocks _ _ _)
      refine SameClocks.trans ?_ (State.setTeam_clocks _ _ _)
      refine SameClocks.trans ?_ (SameClocks.foldl_fst _ (fun a j => ?_) _ (_, _))
      · exact hrecords _ _ ((SameClocks.refl s).of_eq rfl rfl rfl)
      · refine SameClocks.trans (State.loadSection_clocks _ _ _ _) (SameClocks.foldl_fst _ (fun b k => ?_) _ _)
        exact State.setCrew_clocks _ _ _
  · exact .refl s

theorem State.placeTeam_clocks {s t : State} {cl : Nat} {p : Placing} (h : s.placeTeam cl p = some t) : SameClocks s t := by
  unfold State.placeTeam at h
  split at h
  · cases h
  · dsimp only at h
    obtain ⟨cores, -, hok⟩ := List.exists_of_findSome?_eq_some h
    split at hok
    · cases hok
    · split at hok
      · obtain rfl := Option.some.inj hok
        exact s.enterTeam_clocks _ _ _ _ _
      · split at hok
        · obtain rfl := Option.some.inj hok
          exact s.restoreTeam_clocks _ _ _ _
        · cases hok

theorem State.placeFrom_clocks {s t : State} {cl : Nat} {first : Bool} {ps : List Placing} (h : s.placeFrom cl first ps = some t) :
    SameClocks s t := by
  induction ps generalizing s cl first with
  | nil =>
    obtain rfl := Option.some.inj h
    exact .refl s
  | cons p ps ih =>
    unfold State.placeFrom at h
    split at h
    · rename_i u hu
      exact (State.placeTeam_clocks hu).trans (ih h)
    · split at h
      · cases h
      · split at h
        · rename_i u hu
          exact (State.placeTeam_clocks hu).trans (ih h)
        · cases h

theorem State.placeGang_clocks {s t : State} {die : Nat} {ps : List Placing} (h : s.placeGang die ps = some t) : SameClocks s t := by
  obtain ⟨k, -, hk⟩ := List.exists_of_findSome?_eq_some h
  exact State.placeFrom_clocks hk

theorem State.offerGang_clocks (s : State) (gi : Nat) : SameClocks s (s.offerGang gi) := by
  unfold State.offerGang
  dsimp only
  split
  · exact .refl s
  · exact (SameClocks.refl s).of_eq rfl rfl rfl

theorem State.tryPlace_clocks {s t : State} {w : Waiting} (h : s.tryPlace w = some t) : SameClocks s t := by
  unfold State.tryPlace at h
  dsimp only at h
  split at h
  · cases h
  · rename_i u hu
    obtain rfl := Option.some.inj h
    have hgang := (State.placeGang_clocks hu).of_eq (u := { u with waiting := u.waiting.erase w }) rfl rfl rfl
    split
    · exact hgang
    · exact hgang.trans (State.offerGang_clocks _ _)

theorem State.placeNext_clocks (s : State) (die n : Nat) : SameClocks s (s.placeNext die n) := by
  induction n generalizing s with
  | zero => exact .refl s
  | succ n ih =>
    unfold State.placeNext
    split
    · exact .refl s
    · split
      · rename_i u hu
        exact (State.tryPlace_clocks hu).trans (ih u)
      · exact (SameClocks.refl s).of_eq rfl rfl rfl

/-! ### The end of a quantum (R382, R403) -/

/-- The state in which a quantum's end places gangs and asks victims to leave: the next quantum is set, the contexts have counted. -/
def State.quantumBegun (s : State) (die : Nat) : State :=
  { s with
    quantumAt := SMap.set s.quantumAt die (s.clock.toNat + s.quantumCycles die)
    stopped := s.stopped.filter fun d => d != die
    ctxs := s.ctxs.map (s.watch die) }

/-- After the clocks are set, a quantum's end places and pre-empts only. -/
theorem quantumExpiry_clocks (die : Nat) (s : State) :
    ∃ t, exec (.quantumExpiry die) s = .next t ∧ SameClocks (s.quantumBegun die) t := by
  have hplaced (u : State) : SameClocks u (if u.roomKept die then u else u.placeList die) := by
    split
    · exact .refl u
    · exact u.placeNext_clocks die _
  have hhead (u : State) : SameClocks u (match u.stopped.contains die, u.waitOrder die with
      | true, w :: _ => u.preemptFor w
      | _, _ => u) := by
    split
    · exact u.preemptUntil_clocks _ _ _ _
    · exact .refl u
  have hstarved (u : State) : SameClocks u (match u.mostStarved die with
      | some k => u.preemptForCrew die k
      | none => u) := by
    split
    · exact u.preemptUntil_clocks _ _ _ _
    · exact .refl u
  exact ⟨_, rfl, ((hplaced _).trans (hhead _)).trans (hstarved _)⟩

theorem SameClocks.quantum {s t : State} (h : SameClocks s t) (die : Nat) : t.quantum die = s.quantum die := by
  unfold State.quantum State.bar
  rw [h.bars]

theorem SameClocks.quantumEnd {s t : State} (h : SameClocks s t) (die : Nat) : t.quantumEnd die = s.quantumEnd die := by
  simp only [State.quantumEnd, State.quantumCycles, h.quanta, h.quantum]

theorem State.quantumEnd_quantumBegun_same (s : State) (die : Nat) :
    (s.quantumBegun die).quantumEnd die = s.clock.toNat + s.quantum die * Config.cyclesPerMicrosecond := by
  simp [State.quantumEnd, State.quantumBegun, SMap.get?_set_same, State.quantumCycles]

theorem State.quantumEnd_quantumBegun_other (s : State) {die d : Nat} (h : d ≠ die) :
    (s.quantumBegun die).quantumEnd d = s.quantumEnd d := by
  simp only [State.quantumEnd, State.quantumBegun, SMap.get?_set_other _ _ _ _ h]
  rfl

theorem State.watch_names (s : State) (die : Nat) (x : Ctx) :
    (s.watch die x).slot = x.slot ∧ (s.watch die x).asid = x.asid ∧ (s.watch die x).state = x.state := by
  unfold State.watch
  dsimp only
  split <;> exact ⟨rfl, rfl, rfl⟩

/-- The die that counts for a context (entry 40): the lowest with a crew of it, or die 0. -/
theorem leastOf_getD_eq_iff (cs : List Crew) (die : Nat) : (leastOf (cs.map fun c => c.core / 48)).getD 0 = die ↔
    if cs = [] then die = 0 else (∃ c ∈ cs, c.core / 48 = die) ∧ ∀ c ∈ cs, die ≤ c.core / 48 := by
  cases hleast : leastOf (cs.map fun c => c.core / 48) with
  | none =>
    have hnil : cs = [] := List.map_eq_nil_iff.1 (leastOf_eq_none hleast)
    simp [hnil, eq_comm]
  | some k =>
    obtain ⟨hmem, hle⟩ := leastOf_spec hleast
    obtain ⟨c, hc, hk⟩ := List.mem_map.1 hmem
    have hle' : ∀ c ∈ cs, k ≤ c.core / 48 := fun c hc => hle _ (List.mem_map.2 ⟨c, hc, rfl⟩)
    rw [if_neg (List.ne_nil_of_mem hc), Option.getD_some]
    constructor
    · rintro rfl
      exact ⟨⟨c, hc, hk⟩, hle'⟩
    · rintro ⟨⟨d, hd, hdie⟩, hall⟩
      have hkd := hle' d hd
      have hdk := hall c hc
      omega

/-- What a quantum's end does to a context's watchdog. -/
theorem State.watch_counts (s : State) (die : Nat) (x : Ctx) :
    let mine := s.crews.filter (s.watched x.asid)
    if x.state = .live ∧ (if mine = [] then die = 0 else (∃ c ∈ mine, c.core / 48 = die) ∧ ∀ c ∈ mine, die ≤ c.core / 48) then
      (s.watch die x).wdcount = (if mine ≠ [] ∧ x.progress = false then x.wdcount + 1 else 0) ∧ (s.watch die x).progress = false
    else (s.watch die x).wdcount = x.wdcount ∧ (s.watch die x).progress = x.progress := by
  intro mine
  rw [if_congr (and_congr_right fun _ => (leastOf_getD_eq_iff mine die).symm) rfl rfl]
  unfold State.watch
  by_cases hcount : x.state = .live ∧ (leastOf (mine.map fun c => c.core / 48)).getD 0 = die
  · rw [if_pos hcount]
    obtain ⟨hlive, hdie⟩ := hcount
    simp [hlive, hdie, mine]
  · rw [if_neg hcount]
    have hskip : (x.state != .live || (leastOf (mine.map fun c => c.core / 48)).getD 0 != die) = true := by
      rw [not_and_or] at hcount
      simpa using hcount
    dsimp only
    rw [if_pos hskip]
    exact ⟨rfl, rfl⟩

theorem Ctx.eqs_of_watchdog {x y : Ctx} (h : x.watchdog = y.watchdog) :
    x.slot = y.slot ∧ x.asid = y.asid ∧ x.state = y.state ∧ x.wdcount = y.wdcount ∧ x.progress = y.progress :=
  ⟨congrArg (fun p => p.1) h, congrArg (fun p => p.2.1) h, congrArg (fun p => p.2.2.1) h, congrArg (fun p => p.2.2.2.1) h,
    congrArg (fun p => p.2.2.2.2) h⟩

theorem State.ctxs_quantumBegun_slots (s : State) (die : Nat) : (s.quantumBegun die).ctxs.map Ctx.slot = s.ctxs.map Ctx.slot := by
  simp only [State.quantumBegun, List.map_map]
  exact List.map_congr_left fun x _ => (s.watch_names die x).1

/-- Each context is there after a quantum's end, with the watchdog that `watch` gives it. -/
theorem SameClocks.ctx_of_quantumBegun {s t : State} {die : Nat} (h : SameClocks (s.quantumBegun die) t)
    (hnodup : (s.ctxs.map Ctx.slot).Nodup) {x : Ctx} (hx : x ∈ s.ctxs) : ∃ y ∈ t.ctxs, y.watchdog = (s.watch die x).watchdog := by
  have hmem : (s.watch die x).watchdog ∈ (s.quantumBegun die).ctxs.map Ctx.watchdog :=
    List.mem_map_of_mem (List.mem_map_of_mem hx)
  rw [← h.watchdogs (s.ctxs_quantumBegun_slots die ▸ hnodup)] at hmem
  exact List.mem_map.1 hmem

theorem quantaCount (die : Nat) (s : State) : ∃ t, exec (.quantumExpiry die) s = .next t ∧
    t.quantumEnd die = s.clock.toNat + s.quantum die * Config.cyclesPerMicrosecond ∧
    (∀ d, d ≠ die → t.quantumEnd d = s.quantumEnd d) ∧
    ((s.ctxs.map Ctx.slot).Nodup → ∀ x ∈ s.ctxs, ∃ y ∈ t.ctxs, y.slot = x.slot ∧ y.asid = x.asid ∧ y.state = x.state ∧
      let mine := s.crews.filter (s.watched x.asid)
      if x.state = .live ∧ (if mine = [] then die = 0 else (∃ c ∈ mine, c.core / 48 = die) ∧ ∀ c ∈ mine, die ≤ c.core / 48) then
        y.wdcount = (if mine ≠ [] ∧ x.progress = false then x.wdcount + 1 else 0) ∧ y.progress = false
      else y.wdcount = x.wdcount ∧ y.progress = x.progress) := by
  obtain ⟨t, ht, hclocks⟩ := quantumExpiry_clocks die s
  refine ⟨t, ht, ?_, fun d hd => ?_, fun hnodup x hx => ?_⟩
  · rw [hclocks.quantumEnd, State.quantumEnd_quantumBegun_same]
  · rw [hclocks.quantumEnd, State.quantumEnd_quantumBegun_other _ hd]
  · obtain ⟨y, hy, hwatch⟩ := hclocks.ctx_of_quantumBegun hnodup hx
    obtain ⟨hslot, hasid, hstate⟩ := s.watch_names die x
    obtain ⟨hyslot, hyasid, hystate, hcount, hprogress⟩ := Ctx.eqs_of_watchdog hwatch
    refine ⟨y, hy, hyslot.trans hslot, hyasid.trans hasid, hystate.trans hstate, ?_⟩
    rw [hcount, hprogress]
    exact s.watch_counts die x

/-! ### A fresh team enters (R50, R376) -/

/-- Teams and crews are added behind those there are. -/
structure Grown (s t : State) : Prop where
  teams : s.teams <+: t.teams
  crews : s.crews <+: t.crews

theorem Grown.refl (s : State) : Grown s s := ⟨List.prefix_rfl, List.prefix_rfl⟩

theorem Grown.trans {s t u : State} (h : Grown s t) (h' : Grown t u) : Grown s u :=
  ⟨h.teams.trans h'.teams, h.crews.trans h'.crews⟩

theorem Grown.of_eq {s t u : State} (h : Grown s t) (teams : u.teams = t.teams) (crews : u.crews = t.crews) : Grown s u :=
  ⟨teams ▸ h.teams, crews ▸ h.crews⟩

theorem Grown.team_eq {s t : State} (h : Grown s t) {k : Nat} (hk : k < s.teams.length) : t.team k = s.team k := by
  obtain ⟨ts, hts⟩ := h.teams
  simp only [State.team, ← hts]
  exact List.getD_append _ _ _ _ hk

/-- A team of a grid stands on a die, behind the first `lo` teams, with all its crews at their entry point. -/
def TeamEntered (g : Grid) (gi linear die lo : Nat) (t : State) : Prop :=
  ∃ n, n < t.teams.length ∧ lo ≤ n ∧
    (t.team n).grid = gi ∧ (t.team n).linear = linear ∧ (t.team n).place = .resident ∧ (t.team n).cores ≠ [] ∧
    (∀ k ∈ (t.team n).cores, k / 48 = die) ∧
    ∀ m, m < g.crews → ∃ c ∈ t.crews, c.team = n ∧ c.crewId = m ∧ c.place = .resident ∧ c.core ∈ (t.team n).cores ∧
      c.quad = m % 4 ∧ c.htab = g.htabv ∧
      (∀ l, l < 32 → c.thread l = { pc := BitVec.ofNat 64 (g.codebase + g.entry), st := .active }) ∧
      ∀ k, k < g.args.length → c.readS k = g.args.getD k .nil

theorem TeamEntered.grown {g : Grid} {gi linear die lo : Nat} {t u : State} (h : TeamEntered g gi linear die lo t) (hu : Grown t u) :
    TeamEntered g gi linear die lo u := by
  obtain ⟨n, hn, hlo, hteam⟩ := h
  refine ⟨n, hn.trans_le hu.teams.length_le, hlo, ?_⟩
  rw [hu.team_eq hn]
  obtain ⟨hgrid, hlinear, hplace, hcores, hdie, hcrews⟩ := hteam
  refine ⟨hgrid, hlinear, hplace, hcores, hdie, fun m hm => ?_⟩
  obtain ⟨c, hc, hcrew⟩ := hcrews m hm
  exact ⟨c, hu.crews.subset hc, hcrew⟩

theorem TeamEntered.mono {g : Grid} {gi linear die lo lo' : Nat} {t : State} (h : TeamEntered g gi linear die lo t) (hlo : lo' ≤ lo) :
    TeamEntered g gi linear die lo' t := by
  obtain ⟨n, hn, hn', hteam⟩ := h
  exact ⟨n, hn, hlo.trans hn', hteam⟩

theorem SMap.get?_map_self {β : Type} (f : Nat → β) {k : Nat} {xs : List Nat} (h : k ∈ xs) :
    SMap.get? (xs.map fun n => (n, f n)) k = some (f k) := by
  induction xs with
  | nil => cases h
  | cons x xs ih =>
    rw [List.map_cons, SMap.get?]
    split
    · rename_i hx
      rw [hx]
    · rename_i hx
      exact ih ((List.mem_cons.1 h).resolve_left fun he => hx he.symm)

theorem Grid.launchArch_thread (g : Grid) {l : Nat} (hl : l < 32) :
    g.launchArch.threads.getD l {} = { pc := BitVec.ofNat 64 (g.codebase + g.entry), st := .active } :=
  List.getD_replicate _ hl

theorem Grid.launchArch_sreg (g : Grid) {k : Nat} (hk : k < g.args.length) : SMap.get? g.launchArch.sregs k = some (g.args.getD k .nil) :=
  SMap.get?_map_self (fun n => g.args.getD n .nil) (List.mem_range.2 hk)

/-- Crews that take slots stand behind those there are, each in its slot, and nothing else changes. -/
theorem State.foldl_addCrew (f : Nat → Crew) (xs : List Nat) (s : State) :
    ∃ cs, xs.foldl (fun u x => u.addCrew (f x)) s = { s with crews := s.crews ++ cs } ∧
      ∀ x ∈ xs, ∃ slot since, { f x with slot := slot, readySince := since } ∈ cs := by
  induction xs generalizing s with
  | nil => exact ⟨[], by simp, fun x hx => absurd hx List.not_mem_nil⟩
  | cons x xs ih =>
    obtain ⟨cs, hcs, hall⟩ := ih (s.addCrew (f x))
    refine ⟨{ f x with slot := s.freeSlot (f x).quadNo, readySince := s.clock.toNat } :: cs, ?_, fun y hy => ?_⟩
    · rw [List.foldl_cons, hcs]
      simp [State.addCrew]
    · rcases List.mem_cons.1 hy with rfl | hy
      · exact ⟨_, _, List.mem_cons_self⟩
      · obtain ⟨slot, since, hmem⟩ := hall y hy
        exact ⟨slot, since, List.mem_cons_of_mem _ hmem⟩

/-- Within a gang's placement grids and waiting gangs stay as well. -/
structure Entering (s t : State) : Prop extends Grown s t where
  grids : t.grids = s.grids
  waiting : t.waiting = s.waiting

theorem Entering.refl (s : State) : Entering s s := ⟨.refl s, rfl, rfl⟩

theorem Entering.trans {s t u : State} (h : Entering s t) (h' : Entering t u) : Entering s u :=
  ⟨h.toGrown.trans h'.toGrown, h'.grids.trans h.grids, h'.waiting.trans h.waiting⟩

theorem Entering.grid {s t : State} (h : Entering s t) (k : Nat) : t.grid k = s.grid k := by
  unfold State.grid
  rw [h.grids]

/-- The team that `enterTeam` adds. -/
def State.freshTeam (s : State) (gi linear : Nat) (cores : List Nat) (w p : Nat) : Team :=
  { grid := gi, linear := linear, cores := cores, window := w, pool := p, place := .resident, launched := s.tickets }

theorem State.enterTeam_spec (s : State) (gi linear : Nat) (cores : List Nat) (w p : Nat) :
    Entering s (s.enterTeam gi linear cores w p) ∧
    (s.enterTeam gi linear cores w p).teams = s.teams ++ [s.freshTeam gi linear cores w p] ∧
    ∀ m, m < (s.grid gi).crews → ∃ slot since,
      { freshCrew (s.grid gi) s.teams.length (s.freshTeam gi linear cores w p) m with slot := slot, readySince := since } ∈
        (s.enterTeam gi linear cores w p).crews := by
  obtain ⟨mem, tags, absent, copies, dram, unflushed, quads, hstored⟩ := State.freshStorage_stored
    { s with teams := s.teams ++ [s.freshTeam gi linear cores w p], tickets := s.tickets + 1,
             copies := s.copies.filter fun x => !(cores.any fun k => x.unit == CacheUnit.code k) } (s.freshTeam gi linear cores w p)
  obtain ⟨cs, hcs, hall⟩ := State.foldl_addCrew (freshCrew (s.grid gi) s.teams.length (s.freshTeam gi linear cores w p))
    (List.range (s.grid gi).crews) (State.freshStorage
      { s with teams := s.teams ++ [s.freshTeam gi linear cores w p], tickets := s.tickets + 1,
               copies := s.copies.filter fun x => !(cores.any fun k => x.unit == CacheUnit.code k) } (s.freshTeam gi linear cores w p))
  have henter : s.enterTeam gi linear cores w p = _ := hcs
  rw [henter, hstored]
  refine ⟨⟨⟨List.prefix_append _ _, List.prefix_append _ _⟩, rfl, rfl⟩, rfl, fun m hm => ?_⟩
  obtain ⟨slot, since, hmem⟩ := hall m (List.mem_range.2 hm)
  exact ⟨slot, since, List.mem_append_right _ hmem⟩

/-- Where a team may enter: cores of one die, among which its crews divide. -/
structure Site (g : Grid) (cores : List Nat) (die : Nat) : Prop where
  nonempty : cores ≠ []
  onDie : ∀ k ∈ cores, k / 48 = die
  divides : cores.length ∣ g.crews

theorem Site.core_mem {g : Grid} {cores : List Nat} {die m : Nat} (h : Site g cores die) (hm : m < g.crews) :
    cores.getD (m / (g.crews / cores.length)) 0 ∈ cores := by
  have hlt : m / (g.crews / cores.length) < cores.length := Nat.div_lt_of_lt_mul (by rwa [Nat.div_mul_cancel h.divides])
  rw [List.getD_eq_getElem _ _ hlt]
  exact List.getElem_mem hlt

theorem State.enterTeam_entered {s : State} {gi linear die : Nat} {cores : List Nat} (w p : Nat) (h : Site (s.grid gi) cores die) :
    TeamEntered (s.grid gi) gi linear die s.teams.length (s.enterTeam gi linear cores w p) := by
  obtain ⟨-, hteams, hcrews⟩ := s.enterTeam_spec gi linear cores w p
  have hteam : (s.enterTeam gi linear cores w p).team s.teams.length = s.freshTeam gi linear cores w p := by
    simp [State.team, hteams]
  refine ⟨s.teams.length, by simp [hteams], le_rfl, ?_⟩
  rw [hteam]
  refine ⟨rfl, rfl, rfl, h.nonempty, h.onDie, fun m hm => ?_⟩
  obtain ⟨slot, since, hmem⟩ := hcrews m hm
  refine ⟨_, hmem, rfl, rfl, rfl, h.core_mem hm, rfl, rfl, fun l hl => (s.grid gi).launchArch_thread hl, fun k hk => ?_⟩
  simp [Crew.readS, freshCrew, (s.grid gi).launchArch_sreg hk]

/-! ### A fresh gang is placed (R52, R379) -/

theorem clusterCores_die {cl k : Nat} (h : k ∈ clusterCores cl) : k / 48 = cl / 12 := by
  obtain ⟨j, hj, rfl⟩ := List.mem_map.1 h
  have := List.mem_range.1 hj
  omega

theorem State.spreadOf_eq_some {s : State} {g : Grid} {n : Nat} (h : s.spreadOf g = some n) : n = 1 ∨ n = 4 ∧ g.crews % 16 = 0 := by
  unfold State.spreadOf at h
  split at h
  · exact .inl (Option.some.inj h).symm
  · split at h
    · rename_i hfits
      exact .inr ⟨(Option.some.inj h).symm, of_decide_eq_true (Bool.and_eq_true_iff.1 hfits).1⟩
    · cases h

theorem State.placeTeam_fresh {s t : State} {cl gi linear : Nat} (h : s.placeTeam cl (.fresh gi linear) = some t) :
    Entering s t ∧ TeamEntered (s.grid gi) gi linear (cl / 12) s.teams.length t := by
  unfold State.placeTeam at h
  split at h
  · cases h
  dsimp only at h
  obtain ⟨cores, hsite, hok⟩ := List.exists_of_findSome?_eq_some h
  split at hok
  · cases hok
  rename_i w p _
  obtain rfl := Option.some.inj hok
  have hcores : Site (s.grid gi) cores (cl / 12) := by
    split at hsite
    · obtain ⟨k, hk, rfl⟩ := List.mem_map.1 hsite
      refine ⟨List.cons_ne_nil _ _, fun j hj => ?_, one_dvd _⟩
      rw [List.mem_singleton.1 hj]
      exact clusterCores_die hk
    · rename_i n hne hn
      obtain rfl := List.mem_singleton.1 hsite
      refine ⟨List.cons_ne_nil _ _, fun j hj => clusterCores_die hj, ?_⟩
      have hcrews : (s.grid gi).crews % 16 = 0 := by
        rcases State.spreadOf_eq_some hn with rfl | ⟨-, hcrews⟩
        · exact absurd rfl hne
        · exact hcrews
      exact Nat.dvd_trans (show 4 ∣ 16 from ⟨4, rfl⟩) (Nat.dvd_of_mod_eq_zero hcrews)
    · cases hsite
  exact ⟨(s.enterTeam_spec gi linear cores w p).1, State.enterTeam_entered w p hcores⟩

/-- The teams of a list enter one after the other, on clusters of one die. -/
theorem State.placeFrom_fresh {s t : State} {cl gi : Nat} {first : Bool} {ls : List Nat}
    (h : s.placeFrom cl first (ls.map (.fresh gi)) = some t) :
    Entering s t ∧ ∀ linear ∈ ls, TeamEntered (s.grid gi) gi linear (cl / 12) s.teams.length t := by
  induction ls generalizing s cl first with
  | nil =>
    obtain rfl := Option.some.inj h
    exact ⟨.refl s, fun linear hl => absurd hl List.not_mem_nil⟩
  | cons l ls ih =>
    have hstep {cl' : Nat} {u : State} (hdie : cl' / 12 = cl / 12) (hu : s.placeTeam cl' (.fresh gi l) = some u)
        (hrest : u.placeFrom cl' false (ls.map (.fresh gi)) = some t) :
        Entering s t ∧ ∀ linear ∈ l :: ls, TeamEntered (s.grid gi) gi linear (cl / 12) s.teams.length t := by
      obtain ⟨hsu, hl⟩ := State.placeTeam_fresh hu
      obtain ⟨hut, hls⟩ := ih hrest
      rw [hdie] at hl hls
      refine ⟨hsu.trans hut, fun linear hmem => ?_⟩
      rcases List.mem_cons.1 hmem with rfl | hmem
      · exact hl.grown hut.toGrown
      · exact (hsu.grid gi ▸ hls linear hmem).mono hsu.teams.length_le
    rw [List.map_cons, State.placeFrom] at h
    split at h
    · rename_i u hu
      exact hstep rfl hu h
    · split at h
      · cases h
      · rename_i hlast
        split at h
        · rename_i u hu
          refine hstep ?_ hu h
          simp only [Bool.or_eq_true, beq_iff_eq, not_or] at hlast
          omega
        · cases h

theorem State.placeGang_fresh {s t : State} {die gi gang : Nat} (h : s.placeGang die (gangOf gi (s.grid gi) gang) = some t) :
    Entering s t ∧ ∀ j, j < (s.grid gi).teams →
      TeamEntered (s.grid gi) gi (gang * (s.grid gi).teams + j) die s.teams.length t := by
  obtain ⟨k, hk, hplaced⟩ := List.exists_of_findSome?_eq_some h
  have hgang : gangOf gi (s.grid gi) gang =
      ((List.range (s.grid gi).teams).map fun j => gang * (s.grid gi).teams + j).map (.fresh gi) := by
    rw [gangOf, List.map_map]
    rfl
  rw [hgang] at hplaced
  obtain ⟨hentering, hall⟩ := State.placeFrom_fresh hplaced
  have hdie : (12 * die + k) / 12 = die := by
    have := List.mem_range.1 hk
    omega
  rw [hdie] at hall
  exact ⟨hentering, fun j hj => hall _ (List.mem_map.2 ⟨j, List.mem_range.2 hj, rfl⟩)⟩

/-! ### Placement of waiting gangs (R381) -/

theorem mem_insertBy {α : Type} (before : α → α → Bool) (x y : α) (l : List α) : y ∈ insertBy before x l ↔ y = x ∨ y ∈ l := by
  induction l with
  | nil => simp [insertBy]
  | cons z l ih =>
    rw [insertBy]
    split
    · rw [List.mem_cons]
    · rw [List.mem_cons, ih, List.mem_cons]
      exact or_left_comm

theorem mem_foldl_insertBy {α : Type} (before : α → α → Bool) (y : α) (l acc : List α) :
    y ∈ l.foldl (fun acc x => insertBy before x acc) acc ↔ y ∈ acc ∨ y ∈ l := by
  induction l generalizing acc with
  | nil => simp
  | cons x l ih =>
    rw [List.foldl_cons, ih, mem_insertBy, List.mem_cons, or_comm (a := y = x), or_assoc]

theorem State.mem_waitOrder (s : State) (die : Nat) (w : Waiting) : w ∈ s.waitOrder die ↔ w ∈ s.waiting ∧ w.die = die := by
  rw [State.waitOrder, orderBy, mem_foldl_insertBy]
  simp

/-- None of the waiting gangs of a die has been saved. -/
def State.AllFresh (s : State) (die : Nat) : Prop := ∀ w ∈ s.waitOrder die, w.saved = false

theorem State.offerGang_frame (s : State) (gi : Nat) :
    Grown s (s.offerGang gi) ∧ ∀ w ∈ (s.offerGang gi).waiting, w ∈ s.waiting ∨ w.saved = false := by
  unfold State.offerGang
  dsimp only
  split
  · exact ⟨.refl s, fun w hw => .inl hw⟩
  · refine ⟨(Grown.refl s).of_eq rfl rfl, fun w hw => ?_⟩
    rcases List.mem_append.1 hw with hw | hw
    · exact .inl hw
    · rw [List.mem_singleton.1 hw]
      exact .inr rfl

/-- A gang that is placed for the first time stands on its die; the grid's next one may then wait. -/
theorem State.tryPlace_fresh {s t : State} {w : Waiting} (hw : w.saved = false) (h : s.tryPlace w = some t) :
    Grown s t ∧ (∀ v ∈ t.waiting, v ∈ s.waiting ∨ v.saved = false) ∧ ∀ j, j < (s.grid w.grid).teams →
      TeamEntered (s.grid w.grid) w.grid (w.gang * (s.grid w.grid).teams + j) w.die s.teams.length t := by
  unfold State.tryPlace at h
  simp only [hw, Bool.false_eq_true, if_false] at h
  split at h
  · cases h
  rename_i u hu
  obtain rfl := Option.some.inj h
  obtain ⟨hentering, hall⟩ := State.placeGang_fresh hu
  obtain ⟨hoffer, hwaiting⟩ := State.offerGang_frame { u with waiting := u.waiting.erase w } w.grid
  have hgrown : Grown u (State.offerGang { u with waiting := u.waiting.erase w } w.grid) := ⟨hoffer.teams, hoffer.crews⟩
  refine ⟨hentering.toGrown.trans hgrown, fun v hv => ?_, fun j hj => (hall j hj).grown hgrown⟩
  refine (hwaiting v hv).imp_left fun hmem => ?_
  rw [← hentering.waiting]
  exact List.mem_of_mem_erase hmem

theorem State.AllFresh.of_waiting {s t : State} {die : Nat} (h : s.AllFresh die)
    (hwaiting : ∀ v ∈ t.waiting, v ∈ s.waiting ∨ v.saved = false) : t.AllFresh die := by
  intro v hv
  obtain ⟨hmem, hdie⟩ := (t.mem_waitOrder die v).1 hv
  rcases hwaiting v hmem with hold | hfresh
  · exact h v ((s.mem_waitOrder die v).2 ⟨hold, hdie⟩)
  · exact hfresh

/-- Where no waiting gang has been saved, placement adds teams and crews and leaves those there are. -/
theorem State.placeNext_grown {s : State} {die : Nat} (n : Nat) (h : s.AllFresh die) : Grown s (s.placeNext die n) := by
  induction n generalizing s with
  | zero => exact .refl s
  | succ n ih =>
    rw [State.placeNext]
    split
    · exact .refl s
    · rename_i w ws hws
      have hw : w.saved = false := h w (hws ▸ List.mem_cons_self)
      split
      · rename_i u hu
        obtain ⟨hgrown, hwaiting, -⟩ := State.tryPlace_fresh hw hu
        exact hgrown.trans (ih (h.of_waiting hwaiting))
      · exact (Grown.refl s).of_eq rfl rfl

/-- Placement goes on once the first waiting gang is placed. -/
theorem State.placeList_of_placed {s u : State} {die : Nat} {w : Waiting} {ws : List Waiting} (h : s.waitOrder die = w :: ws)
    (hplaced : s.tryPlace w = some u) : ∃ n, s.placeList die = u.placeNext die n := by
  obtain ⟨n, hn⟩ := Nat.exists_eq_succ_of_ne_zero (by decide : placeLimit ≠ 0)
  refine ⟨n, ?_⟩
  simp only [State.placeList, hn, Nat.succ_eq_add_one, State.placeNext, h, hplaced]

/-- Placement stops where the first waiting gang does not fit. -/
theorem State.placeList_of_unplaced {s : State} {die : Nat} {w : Waiting} {ws : List Waiting} (h : s.waitOrder die = w :: ws)
    (hnone : s.tryPlace w = none) : s.placeList die = { s with stopped := insertNat s.stopped die } := by
  obtain ⟨n, hn⟩ := Nat.exists_eq_succ_of_ne_zero (by decide : placeLimit ≠ 0)
  simp only [State.placeList, hn, Nat.succ_eq_add_one, State.placeNext, h, hnone]

/-- Without gangs that leave, GANG_PLACEMENT places where the die has not stopped and no room is kept. -/
theorem gangPlacement_of_stay {die : Nat} {s : State} (h : (s.residents die).filter s.canLeave = []) :
    exec (.gangPlacement die) s = .next (if s.stopped.contains die || s.roomKept die then s else s.placeList die) := by
  change execGangPlacement die s = _
  unfold execGangPlacement
  rw [h]
  rfl

theorem State.placeList_single {s s1 : State} {die : Nat} {w : Waiting} (horder : s.waitOrder die = [w]) (hfresh : w.saved = false)
    (hplaced : s.tryPlace w = some s1) : Grown s (s.placeList die) ∧ ∀ j, j < (s.grid w.grid).teams →
      TeamEntered (s.grid w.grid) w.grid (w.gang * (s.grid w.grid).teams + j) die s.teams.length (s.placeList die) := by
  have hdie : w.die = die := ((s.mem_waitOrder die w).1 (horder ▸ List.mem_cons_self)).2
  have hall : s.AllFresh die := fun v hv => by
    rw [horder] at hv
    rwa [List.mem_singleton.1 hv]
  obtain ⟨n, hn⟩ := State.placeList_of_placed horder hplaced
  obtain ⟨hgrown, hwaiting, hteams⟩ := State.tryPlace_fresh hfresh hplaced
  have hrest : Grown s1 (s.placeList die) := by
    rw [hn]
    exact State.placeNext_grown n (hall.of_waiting hwaiting)
  exact ⟨hgrown.trans hrest, fun j hj => (hdie ▸ hteams j hj).grown hrest⟩

theorem gangPlaces (die : Nat) (s : State) : ∃ t, exec (.gangPlacement die) s = .next t ∧
    ((s.residents die).filter s.canLeave = [] →
      (die ∈ s.stopped ∨ s.roomKept die = true → t = s) ∧
      (∀ w rest, die ∉ s.stopped → s.roomKept die = false → s.waitOrder die = w :: rest → s.tryPlace w = none →
        t = { s with stopped := insertNat s.stopped die }) ∧
      ∀ w s1, die ∉ s.stopped → s.roomKept die = false → s.waitOrder die = [w] → w.saved = false → s.tryPlace w = some s1 →
        (∀ k, k < s.teams.length → s.team k = t.team k) ∧ ∀ j, j < (s.grid w.grid).teams →
          TeamEntered (s.grid w.grid) w.grid (w.gang * (s.grid w.grid).teams + j) die s.teams.length t) := by
  by_cases hleave : (s.residents die).filter s.canLeave = []
  · refine ⟨_, gangPlacement_of_stay hleave, fun _ => ⟨fun hstop => ?_, fun w rest hgoes hroom horder hnone => ?_,
      fun w s1 hgoes hroom horder hfresh hplaced => ?_⟩⟩
    · rw [if_pos (by simpa using hstop)]
    · rw [if_neg (by simp [hgoes, hroom]), State.placeList_of_unplaced horder hnone]
    · rw [if_neg (by simp [hgoes, hroom])]
      obtain ⟨hgrown, hteams⟩ := State.placeList_single horder hfresh hplaced
      exact ⟨fun k hk => (hgrown.team_eq hk).symm, hteams⟩
  · exact ⟨_, rfl, fun h => absurd h hleave⟩

/-- Settles O49: placement and pre-emption keep the clocks a quantum's end has set, and what is placed after the first gang is added
behind it. -/
theorem quantaAndPlacement : Obligations.QuantaAndPlacement :=
  ⟨quantaCount, gangPlaces⟩

end Sys2Proof.Machine
end
